-- ==== Sys2Proof/Word.lean ====
section
/-! DEFINITION. The word types of the FV8 (R5, R148) and the shape of a sparse table. -/

namespace Sys2Proof

/-- A 32-bit register or memory word (R148, R233). -/
abbrev Word := BitVec 32

/-- The unit of memory (R5). -/
abbrev Byte := BitVec 8

/-- A 64-bit value: an address, a program counter, a timeline count. -/
abbrev DWord := BitVec 64

/-- A sparse table by natural key: keys strictly rising, no entry equal to the table's default.
`Sys2Proof.Machine.sget` and `sset` read and write it. -/
abbrev SMap (α : Type) := List (Nat × α)

end Sys2Proof
end

