-- ==== Sys2Proof/Config.lean ====
section
/-! DEFINITION. What the manual leaves open and the model does not choose: constants without a body
(log entries 3, 5, 6, 15, 16, 17, 20, 21, 30). Nothing in Lean can evaluate one or prove a value of it. -/

namespace Sys2Proof.Config

/-- The value number `k` that step number `n` draws where the manual calls a value undefined
(unfilled latches R287, refilled lanes R167, poisoned destinations R399; log entry 3). -/
opaque freeWord (n k : Nat) : Word

/-- A choice between two outcomes that the manual allows, drawn at step `n` (R215, R381; log entries 16, 17). -/
opaque freeBool (n k : Nat) : Bool

/-- The six functions of R332, each a fixed function of its input bits (log entry 15). -/
opaque approx (fn : Nat) (a : Word) : Word

/-- The device identity key and its signature over a report (R99; log entry 5). -/
opaque identityKey (i : Nat) : Byte
/-- Byte `i` of the signature of the device identity key over `msg` (R99; log entry 5). -/
opaque identitySign (msg : List Byte) (i : Nat) : Byte

/-- The private words of a table descriptor, which R195 keeps to the device (log entry 20). -/
opaque descriptorPrivate (spill n i : Nat) : Byte

/-- What a device-register page of a peer returns (R211; log entry 21). -/
opaque peerRegister (n addr : Nat) : Byte

/-- Whether the host link cannot complete the read of a word at step `n` (R56; log entry 30). -/
opaque linkReadFails (n word : Nat) : Bool

end Sys2Proof.Config
end

