-- ==== Sys2Proof/Syntax.lean ====
section
/-! DEFINITION. Syntax: the eight word formats of R281 with every field kept raw, the operands of the
device's own operations and events, and `Instr`, one constructor per row of the opcode table. -/

namespace Sys2Proof

/-- Format A (R281). -/
structure FmtA where
  d : BitVec 8
  a : BitVec 8
  b : BitVec 8
  w : BitVec 1
  v : BitVec 1
deriving DecidableEq, Repr

/-- Format I (R281). -/
structure FmtI where
  d : BitVec 8
  a : BitVec 8
  imm : BitVec 10
deriving DecidableEq, Repr

/-- Format K (R281). -/
structure FmtK where
  d : BitVec 8
  h : BitVec 2
  imm : BitVec 16
deriving DecidableEq, Repr

/-- Format M (R281): operand x, address operand a, load counter, agent scope, storage scope, X and V. -/
structure FmtM where
  x : BitVec 8
  a : BitVec 8
  lc : BitVec 3
  ag : BitVec 3
  st : BitVec 2
  e : BitVec 1
  v : BitVec 1
deriving DecidableEq, Repr

/-- Format T (R281). -/
structure FmtT where
  tc : BitVec 4
  ta : BitVec 4
  tb : BitVec 4
  fs : BitVec 3
  acc : BitVec 2
  flags : BitVec 9
deriving DecidableEq, Repr

/-- Format E (R281). -/
structure FmtE where
  ec : BitVec 6
  a : BitVec 8
  b : BitVec 8
  flags : BitVec 4
deriving DecidableEq, Repr

/-- Format C (R281). -/
structure FmtC where
  m : BitVec 4
  off : BitVec 22
deriving DecidableEq, Repr

/-- Format S (R281). -/
structure FmtS where
  a : BitVec 8
  b : BitVec 8
  f : BitVec 10
deriving DecidableEq, Repr

/-- What Ramord's start-up finds (R54, R33): channels that fail training, lanes (64 × (4p + q) + lane) and
physical cores that fail their tests, die-link modules that reach ACTIVE with their widths and repaired lanes, whether CXL.cache and
CXL.mem run on the host link (R94). -/
structure BootReport where
  chanFail : List Nat
  laneFail : List Nat
  coreFail : List Nat
  links : List (Nat × Nat × Nat)
  cxlCache : Bool := false
  cxlMem : Bool := false
deriving DecidableEq, Repr

/-- One sample of a core's eight ageing monitors (R27). -/
structure AgeSample where
  core : Nat
  temp : BitVec 12
  counts : List (BitVec 24)
deriving DecidableEq, Repr

/-- Where an uncorrectable error strikes (R25): 64 bits of die L2 or system-cache data, by DPA or by host address; cache tags or a
directory entry with the words that the entry covers, whose dirty words are lost; a word of the SRAM pool that holds a v-register (crew,
register, lane), a word of a typed buffer (logical core, buffer, byte offset) or of a block's local memory; a sector that a read of its
memory channel cannot correct, with the words that a write merged into it brings (R45); crew control state. -/
inductive ErrorSite where
  | data (host : Bool) (addr : Nat)
  | tags (host : Bool) (die addr words : Nat)
  | vreg (crew reg lane : Nat)
  | buffer (lc buf off : Nat)
  | local (block off : Nat)
  | sector (dpa : Nat) (written : List Nat)
  | control (crew : Nat)
deriving DecidableEq, Repr

/-- A parity error in a datapath latch (R25, R29, R30): the partition 4p + q and the logical lane in which it strikes, and what the
affected instruction writes: registers of a crew (scalar or not, number, tid) and words elsewhere. -/
structure ParityHit where
  part : Nat
  lane : Nat
  crew : Nat
  regs : List (Bool × Nat × Nat)
  words : List ErrorSite
deriving DecidableEq, Repr

/-- What a channel read finds (R45). -/
inductive ReadOutcome where
  | clean
  | corrected
  | uncorrectable
deriving DecidableEq, Repr

/-- A 16-byte message on modules 24 and 25 (R72), every bit of it. -/
structure GuestMsg where
  ty : BitVec 8
  q : BitVec 4
  z1 : BitVec 4
  tag : BitVec 16
  pasid : BitVec 20
  all : BitVec 1
  w : BitVec 1
  st : BitVec 2
  psz : BitVec 2
  cls : BitVec 2
  z2 : BitVec 4
  arg : BitVec 64
deriving DecidableEq, Repr

/-- How the host reaches memory: its own, or the device's through BAR2 or CXL.mem (R55, R97). -/
inductive HostPath where
  | host
  | bar2
  | cxlMem
deriving DecidableEq, Repr

/-- A guest memory request at the coherent port (R75): each written word with its mask and poison bit. The queue and the SEQ of the
packet that makes it are known to the guest alone; they say whose bytes become undefined (R83, R88). -/
structure PortReq where
  q : Nat := 0
  seq : BitVec 64 := 0
  pasid : BitVec 20
  dpa : BitVec 39
  size : Nat
  write : Bool
  data : List (Nat × Word × Bool)
deriving DecidableEq, Repr

/-- One constructor per row of spec/opcode_table.json: instruction words and the device's operations and events.
An event whose operands are only the numbers of what it concerns (a context, a crew, a partition) takes them from the
state's `Subject`, which the schedule sets; its docstring says which. -/
inductive Instr where
  /-- R96. -/
  | bootComplete (r : BootReport)
  /-- R95. -/
  | featackWrite (v : BitVec 128)
  /-- R92. -/
  | devevtClear (v : BitVec 32)
  /-- R6. -/
  | registerWrite (off : BitVec 24) (v : BitVec 32)
  /-- R18. -/
  | opctlWrite (v : BitVec 32)
  /-- R20. -/
  | pwrlimWrite (v : BitVec 32)
  /-- R21. -/
  | powerEvaluation (watts : Nat) (temps : List (BitVec 12))
  /-- R17. -/
  | stallAckTimeout (dies : BitVec 4)
  /-- R28. -/
  | guardbandRecompute (samples : List AgeSample)
  /-- R27. -/
  | ageingSampleDone (a : AgeSample)
  /-- R25. -/
  | eccCorrected (die : Nat) (chan : Option Nat)
  /-- R25. -/
  | eccUncorrectable (die : Nat) (w : ErrorSite)
  /-- R25. -/
  | parityError (e : ParityHit)
  /-- R141. Subject: part (n). -/
  | matrixSelfTest (pass : Bool)
  /-- R39. -/
  | retrainEnd (m : Nat) (ok : Bool) (repaired : Nat) (half : Bool)
  /-- R48. -/
  | scrubctlWrite (v : BitVec 32)
  /-- R48. -/
  | patrolScrubRead (dpa : Nat) (found : ReadOutcome)
  /-- R51. -/
  | mcretReq (v : BitVec 32)
  /-- R97. -/
  | hostMemoryWrite (path : HostPath) (addr : Nat) (data : List (BitVec 8))
  /-- R57. -/
  | peerPostedWrite (relaxed : Bool) (dpa : Nat) (data : List (BitVec 8))
  /-- R212. -/
  | atsInvalidation (pasid : BitVec 20) (base : BitVec 64) (log2 : Nat)
  /-- R212. -/
  | atsCompletion (i : Nat) (pa : Option Nat)
  /-- R212. -/
  | priResponse (i : Nat) (ok : Bool)
  /-- R64. -/
  | adctlGrst (on : Bool)
  /-- R64. -/
  | aditLinkActive (m : Nat) (id : BitVec 32)
  /-- R65. -/
  | gqcfgEnable (q : Nat) (v : BitVec 32)
  /-- R65. -/
  | gqcfgDisable (q : Nat) (v : BitVec 32)
  /-- R80. -/
  | retire (m : GuestMsg)
  /-- R83. -/
  | fault (m : GuestMsg)
  /-- R84. -/
  | stopped (m : GuestMsg)
  /-- R78. -/
  | sdack (m : GuestMsg)
  /-- R76. -/
  | trq (m : GuestMsg)
  /-- R76. -/
  | pgreq (m : GuestMsg)
  /-- R77. -/
  | guestPortRequest (r : PortReq)
  /-- R78. -/
  | sdackDeadline (tag : BitVec 16)
  /-- R388. -/
  | dbgctlHalt (n : Nat) (v : BitVec 32)
  /-- R388. -/
  | dbgctlResume (n : Nat) (v : BitVec 32)
  /-- R388. -/
  | dbgctlStep (n : Nat) (v : BitVec 32)
  /-- R413. -/
  | nop (z : BitVec 26)
  /-- R414. -/
  | brk (tag : BitVec 26)
  /-- R322. -/
  | add (f : FmtA)
  /-- R322. -/
  | sub (f : FmtA)
  /-- R322. -/
  | mul (f : FmtA)
  /-- R322. -/
  | mulhi (f : FmtA)
  /-- R323. -/
  | mad (f : FmtA) (lit : Word)
  /-- R322. -/
  | min (f : FmtA)
  /-- R322. -/
  | max (f : FmtA)
  /-- R322. -/
  | abs (f : FmtA)
  /-- R322. -/
  | neg (f : FmtA)
  /-- R322. -/
  | and (f : FmtA)
  /-- R322. -/
  | or (f : FmtA)
  /-- R322. -/
  | xor (f : FmtA)
  /-- R322. -/
  | andn (f : FmtA)
  /-- R322. -/
  | shl (f : FmtA)
  /-- R322. -/
  | shr (f : FmtA)
  /-- R322. -/
  | sar (f : FmtA)
  /-- R322. -/
  | rot (f : FmtA)
  /-- R322. -/
  | clz (f : FmtA)
  /-- R322. -/
  | popc (f : FmtA)
  /-- R322. -/
  | brev (f : FmtA)
  /-- R327. -/
  | bfx (f : FmtI)
  /-- R327. -/
  | bfi (f : FmtI)
  /-- R324. -/
  | sel (f : FmtA) (lit : Word)
  /-- R325. -/
  | cmpEq (f : FmtA)
  /-- R325. -/
  | cmpNe (f : FmtA)
  /-- R325. -/
  | cmpLt (f : FmtA)
  /-- R325. -/
  | cmpLe (f : FmtA)
  /-- R325. -/
  | cmpGt (f : FmtA)
  /-- R325. -/
  | cmpGe (f : FmtA)
  /-- R322. -/
  | mov (f : FmtA)
  /-- R326. -/
  | movi (f : FmtK)
  /-- R326. -/
  | movhi (f : FmtK)
  /-- R327. -/
  | ext (f : FmtI)
  /-- R328. -/
  | lea (f : FmtA)
  /-- R328. -/
  | add64 (f : FmtA)
  /-- R328. -/
  | sub64 (f : FmtA)
  /-- R328. -/
  | mulw (f : FmtA)
  /-- R340. -/
  | shfl (f : FmtA)
  /-- R341. -/
  | qxch (f : FmtI)
  /-- R342. -/
  | vote (f : FmtA)
  /-- R342. -/
  | popm (f : FmtA)
  /-- R342. -/
  | elect (f : FmtA)
  /-- R342. -/
  | matchLow (f : FmtA)
  /-- R344. -/
  | credInt (f : FmtA)
  /-- R344. -/
  | cscanInt (f : FmtA)
  /-- R344. -/
  | csredInt (f : FmtA) (lit : Word)
  /-- R345. -/
  | rngStep (f : FmtA)
  /-- R346. -/
  | rngSkip (f : FmtA)
  /-- R329. -/
  | fadd (f : FmtA)
  /-- R329. -/
  | fsub (f : FmtA)
  /-- R329. -/
  | fmul (f : FmtA)
  /-- R329. -/
  | ffma (f : FmtA) (lit : Word)
  /-- R329. -/
  | fmin (f : FmtA)
  /-- R329. -/
  | fmax (f : FmtA)
  /-- R330. -/
  | fcmpEq (f : FmtA)
  /-- R330. -/
  | fcmpNe (f : FmtA)
  /-- R330. -/
  | fcmpLt (f : FmtA)
  /-- R330. -/
  | fcmpLe (f : FmtA)
  /-- R330. -/
  | fcmpGt (f : FmtA)
  /-- R330. -/
  | fcmpGe (f : FmtA)
  /-- R331. -/
  | frcp (f : FmtA)
  /-- R331. -/
  | frsq (f : FmtA)
  /-- R331. -/
  | fsqrt (f : FmtA)
  /-- R329. -/
  | fdiv (f : FmtA)
  /-- R331. -/
  | fexp2 (f : FmtA)
  /-- R331. -/
  | flog2 (f : FmtA)
  /-- R331. -/
  | fsin (f : FmtA)
  /-- R331. -/
  | fcos (f : FmtA)
  /-- R333. -/
  | fround (f : FmtI)
  /-- R336. -/
  | fcvt (f : FmtI)
  /-- R334. -/
  | i2f (f : FmtA)
  /-- R334. -/
  | f2i (f : FmtA)
  /-- R335. -/
  | fscale (f : FmtA)
  /-- R338. -/
  | dp4 (f : FmtA) (lit : Word)
  /-- R338. -/
  | dp8 (f : FmtA) (lit : Word)
  /-- R337. -/
  | pk (f : FmtI)
  /-- R337. -/
  | upk (f : FmtI)
  /-- R344. -/
  | credFloat (f : FmtA)
  /-- R344. -/
  | cscanFloat (f : FmtA)
  /-- R344. -/
  | csredFloat (f : FmtA) (lit : Word)
  /-- R352. -/
  | ldI8 (f : FmtM) (ix : Word)
  /-- R352. -/
  | ldN8 (f : FmtM) (ix : Word)
  /-- R352. -/
  | ldI16 (f : FmtM) (ix : Word)
  /-- R352. -/
  | ldN16 (f : FmtM) (ix : Word)
  /-- R352. -/
  | ldW32 (f : FmtM) (ix : Word)
  /-- R352. -/
  | ldW64 (f : FmtM) (ix : Word)
  /-- R352. -/
  | ldW128 (f : FmtM) (ix : Word)
  /-- R353. -/
  | stN8 (f : FmtM) (ix : Word)
  /-- R353. -/
  | stN16 (f : FmtM) (ix : Word)
  /-- R353. -/
  | stW32 (f : FmtM) (ix : Word)
  /-- R353. -/
  | stW64 (f : FmtM) (ix : Word)
  /-- R353. -/
  | stW128 (f : FmtM) (ix : Word)
  /-- R355. -/
  | ldbPeek (f : FmtM) (ix : Word)
  /-- R355. -/
  | ldbTake (f : FmtM) (ix : Word)
  /-- R356. -/
  | stb (f : FmtM) (ix : Word)
  /-- R356. -/
  | stbMark (f : FmtM) (ix : Word)
  /-- R359. -/
  | tld (f : FmtM) (lit : Word)
  /-- R359. -/
  | tst (f : FmtM) (lit : Word)
  /-- R359. -/
  | tldWin (f : FmtM) (lit : Word)
  /-- R360. -/
  | amoAdd (f : FmtM) (ix : Word)
  /-- R360. -/
  | amoMin (f : FmtM) (ix : Word)
  /-- R360. -/
  | amoMax (f : FmtM) (ix : Word)
  /-- R360. -/
  | amoAnd (f : FmtM) (ix : Word)
  /-- R360. -/
  | amoOr (f : FmtM) (ix : Word)
  /-- R360. -/
  | amoXor (f : FmtM) (ix : Word)
  /-- R360. -/
  | amoExch (f : FmtM) (ix : Word)
  /-- R360. -/
  | amoCas (f : FmtM) (ix : Word) (cmp : Word)
  /-- R361. -/
  | redAddI (f : FmtM) (ix : Word)
  /-- R361. -/
  | redAddF32 (f : FmtM) (ix : Word)
  /-- R362. -/
  | redAddX (f : FmtM) (ix : Word)
  /-- R361. -/
  | redMin (f : FmtM) (ix : Word)
  /-- R361. -/
  | redMax (f : FmtM) (ix : Word)
  /-- R361. -/
  | redAnd (f : FmtM) (ix : Word)
  /-- R361. -/
  | redOr (f : FmtM) (ix : Word)
  /-- R361. -/
  | redXor (f : FmtM) (ix : Word)
  /-- R362. -/
  | xflush (f : FmtM) (ix : Word)
  /-- R363. -/
  | append (f : FmtM) (ix : Word)
  /-- R364. -/
  | sealPage (f : FmtM) (ix : Word)
  /-- R365. -/
  | fenceInsn (f : FmtM)
  /-- R366. -/
  | prefetch (f : FmtM) (ix : Word)
  /-- R366. -/
  | cwb (f : FmtM) (ix : Word)
  /-- R366. -/
  | cinv (f : FmtM) (ix : Word)
  /-- R392. -/
  | tset (f : FmtT)
  /-- R392. -/
  | tget (f : FmtT)
  /-- R393. -/
  | tzero (f : FmtT)
  /-- R395. -/
  | mma (f : FmtT)
  /-- R396. -/
  | mmaG (f : FmtT)
  /-- R397. -/
  | tcvt (f : FmtT)
  /-- R398. -/
  | tadd (f : FmtT)
  /-- R402. -/
  | gxRun (f : FmtE)
  /-- R402. -/
  | ceBuild (f : FmtE)
  /-- R402. -/
  | ceLookup (f : FmtE)
  /-- R402. -/
  | ceDown (f : FmtE)
  /-- R402. -/
  | ceProbe (f : FmtE)
  /-- R402. -/
  | seGather (f : FmtE)
  /-- R402. -/
  | seIsect (f : FmtE)
  /-- R402. -/
  | seCopy (f : FmtE)
  /-- R402. -/
  | seMcast (f : FmtE)
  /-- R403. -/
  | gqSubmit (f : FmtE)
  /-- R404. -/
  | ecBind (f : FmtE)
  /-- R405. -/
  | ecRead (f : FmtE)
  /-- R405. -/
  | ecReadIssued (f : FmtE)
  /-- R405. -/
  | ecReadState (f : FmtE)
  /-- R370. -/
  | barInit (f : FmtS)
  /-- R370. -/
  | barArrive (f : FmtS)
  /-- R370. -/
  | barWait (f : FmtS)
  /-- R371. -/
  | gbar (f : FmtS)
  /-- R373. -/
  | waitcAny (f : FmtS) (conds : List Word)
  /-- R373. -/
  | waitcAll (f : FmtS) (conds : List Word)
  /-- R374. -/
  | mwatch (f : FmtS)
  /-- R374. -/
  | mwait (f : FmtS)
  /-- R375. -/
  | yield (f : FmtS)
  /-- R376. -/
  | refill (f : FmtS)
  /-- R377. -/
  | drain (f : FmtS)
  /-- R378. -/
  | regroup (f : FmtS)
  /-- R379. -/
  | launch (f : FmtS)
  /-- R380. -/
  | srd (f : FmtS)
  /-- R380. -/
  | swr (f : FmtS)
  /-- R382. -/
  | evc (f : FmtS)
  /-- R382. -/
  | evcSel (f : FmtS)
  /-- R383. -/
  | vhop (f : FmtS)
  /-- R383. -/
  | clock (f : FmtS)
  /-- R383. -/
  | clockCore (f : FmtS)
  /-- R384. -/
  | trap (f : FmtS)
  /-- R385. -/
  | trapret (f : FmtS)
  /-- R386. -/
  | dbg (f : FmtS)
  /-- R386. -/
  | dbgHalt (f : FmtS)
  /-- R408. -/
  | br (f : FmtC)
  /-- R408. -/
  | brD (f : FmtC)
  /-- R408. -/
  | brAny (f : FmtC)
  /-- R408. -/
  | brAll (f : FmtC)
  /-- R408. -/
  | brNone (f : FmtC)
  /-- R409. -/
  | switch (f : FmtC) (lits : List Word)
  /-- R410. -/
  | call (f : FmtC)
  /-- R410. -/
  | callr (f : FmtC)
  /-- R410. -/
  | ret (f : FmtC)
  /-- R411. -/
  | exit (f : FmtC)
  /-- R73. -/
  | guestMessageUnlistedType (m : GuestMsg)
  /-- R96. -/
  | coldStart
  /-- R96. -/
  | devctlLoad
  /-- R98. -/
  | verificationEnd
  /-- R96. -/
  | devctlGo
  /-- R99. -/
  | attctlReq
  /-- R99. -/
  | attestationReportDone
  /-- R23. -/
  | thermalTrip
  /-- R15. -/
  | railRampDone
  /-- R15. -/
  | clockGate
  /-- R15. -/
  | pllLock
  /-- R27. Subject: core (n), the word written to AGMCTL (m). -/
  | agmctlStart
  /-- R31. Subject: part (n), the word written to LANECTL (m). -/
  | lanectlReq
  /-- R30. Subject: part (n). -/
  | laneRemap
  /-- R143. Subject: site (n). -/
  | spareAssign
  /-- R36. Subject: m (n). -/
  | linkCrcError
  /-- R145. Subject: die (n). -/
  | dieRejoin
  /-- R54. Subject: ch (n). -/
  | channelRetrainFail
  /-- R53. -/
  | migrationChunkDone
  /-- R232. Subject: addr (n), len (m), CXL.mem where not 0 (k). -/
  | hostMemoryRead
  /-- R56. Subject: crew (n). -/
  | hostLinkWriteDrop
  /-- R62. -/
  | adctlUnfence
  /-- R84. Subject: q (n). -/
  | stoppedDeadline
  /-- R101. Subject: n (n). -/
  | ctxctlEnable
  /-- R101. Subject: n (n). -/
  | ctxctlDisable
  /-- R101. Subject: n (n). -/
  | contextStopDone
  /-- R105. Subject: n (n). -/
  | queueProcessorWake
  /-- R104. Subject: n (n). -/
  | slotNop
  /-- R106. Subject: n (n). -/
  | slotLaunch
  /-- R104. Subject: n (n). -/
  | slotBarrier
  /-- R218. Subject: n (n). -/
  | xlateCmdNop
  /-- R221. Subject: n (n). -/
  | xlateResolve
  /-- R223. Subject: n (n). -/
  | xlateShootdown
  /-- R223. Subject: n (n). -/
  | shootdownComplete
  /-- R226. Subject: n (n). -/
  | xlateOpen
  /-- R231. Subject: n (n). -/
  | xlateFree
  /-- R231. Subject: n (n). -/
  | freeComplete
  /-- R225. Subject: n (n). -/
  | xlateSwap
  /-- R225. Subject: n (n). -/
  | swapComplete
  /-- R220. Subject: n (n). -/
  | faultRecordWrite
  /-- R207. Subject: i (n). -/
  | walkComplete
  /-- R120. -/
  | gangPlacement
  /-- R121. Subject: site (n). -/
  | recarveDone
  /-- R122. Subject: site (n). -/
  | carveDrainTimeout
  /-- R133. -/
  | starvationPreemption
  /-- R135. Subject: crew (n). -/
  | waitSwap
  /-- R135. Subject: crew (n). -/
  | swappedWaitWake
  /-- R135. Subject: crew (n). -/
  | swapReturnTimeout
  /-- R132. Subject: crew (n). -/
  | crewSaveComplete
  /-- R134. Subject: group (n). -/
  | groupRestore
  /-- R156. Subject: site (n), part (m). -/
  | issuePulse
  /-- R150. Subject: crew (n), i (m). -/
  | loadReturn
  /-- R238. Subject: crew (n). -/
  | storeQueueDrain
  /-- R247. Subject: crew (n). -/
  | atomicPerform
  /-- R251. Subject: crew (n). -/
  | exactAddPerform
  /-- R227. Subject: crew (n). -/
  | appendUnit
  /-- R229. Subject: crew (n). -/
  | sealArrive
  /-- R390. Subject: lc (n), part (m). -/
  | matrixComplete
  /-- R183. Subject: lc (n), ec (m). -/
  | engineAccept
  /-- R188. Subject: lc (n), ec (m). -/
  | geyserTaskComplete
  /-- R184. Subject: lc (n), ec (m). -/
  | engineCommandComplete
  /-- R201. Subject: lc (n), ec (m). -/
  | engineCommandFail
  /-- R193. Subject: i (n). -/
  | mcastWindowEnd
  /-- R168. Subject: crew (n). -/
  | implicitRefill
  /-- R127. Subject: n (n). -/
  | childPop
  /-- R108. Subject: g (n). -/
  | gridComplete
  /-- R373. Subject: crew (n), lane (m). -/
  | waitcWake
  /-- R373. Subject: crew (n), lane (m). -/
  | waitcTimeout
  /-- R374. Subject: crew (n), lane (m). -/
  | mwaitWake
  /-- R139. Subject: n (n). -/
  | watchdogExpiry
  /-- R140. Subject: crew (n), lane (m). -/
  | externalWaitReport
  /-- R374. Subject: crew (n), lane (m). -/
  | mwaitWakeOtherReason
deriving DecidableEq, Repr

/-- What an event of the device concerns: one or two numbers, named at each constructor of `Instr`. -/
structure Subject where
  n : Nat := 0
  m : Nat := 0
  k : Nat := 0
deriving DecidableEq, Repr

/-- What happens next outside a pulse: the reference ticks that pass first, the event, and its subject
(log entry 1). -/
structure Agenda where
  wait : Nat := 0
  ev : Instr
  subj : Subject := {}
deriving DecidableEq, Repr

end Sys2Proof
end

