-- ==== Sys2Proof/Machine/State.lean ====
section
/-! DEFINITION. The state of the FV8 as plain data, and the machine right after reset. A table that the manual calls an
array of registers is an `SMap` from the register's number to its value; an entry it does not list holds the default. -/

namespace Sys2Proof.Machine

/-- A bit per lane of a crew: participant sets and masks (R148). -/
abbrev LaneSet := BitVec 64

/-! ## Device block, fuses, retirement record -/

/-- What is fused into the part (R12, R27, R92, R98; log entry 4). -/
structure Fuse where
  cdpres : BitVec 4 := 0xF
  sku : BitVec 8 := 0x04
  serial : DWord := 0
  svnMin : Word := 0
  keyHash : BitVec 256 := 0
  agmBase : SMap (BitVec 24) := []
  agmTc : SMap (BitVec 16) := []
deriving DecidableEq, Repr

/-- DEVSTAT.STATE (R92, R96). -/
inductive DevState where
  | load
  | verify
  | boot
  | negotiate
  | run
  | fwfail
  | trip
deriving DecidableEq, Repr

/-- The device block and the host's side of the device (R91 to R99). -/
structure Dev where
  st : DevState := .load
  fwerr : BitVec 4 := 0
  devevt : BitVec 7 := 0
  fwlen : Word := 0
  fwver : Word := 0
  fwsvn : Word := 0
  feat : BitVec 128 := 0
  featack : BitVec 128 := 0
  attBusy : Bool := false
  nonce : BitVec 256 := 0
  /-- NONCE when the report in production was requested (R99). -/
  attNonce : BitVec 256 := 0
  /-- A channel was retired at cold start; DEVEVT.CHRET is set when RUN is entered (R54). -/
  chretPending : Bool := false
  /-- NEGOTIATE, and RUN, has been entered since the cold start (R91, R99). -/
  negotiated : Bool := false
  ran : Bool := false
  /-- Guardband of each physical compute die in 5 mV steps (GBSAVE, OPSTAT.GUARD). -/
  guard : SMap (BitVec 8) := []
  staging : SMap Byte := []
  /-- Board data of the verified image (R97). -/
  board : List Byte := []
  imgdig : BitVec 512 := 0
  brddig : BitVec 512 := 0
  attCount : Word := 0
  /-- The attestation window (R91, R99). -/
  report : List Byte := []
  /-- MSI-X table bytes by offset (R91, R93; log entry 7). -/
  msixTable : SMap Byte := []
  /-- Pending-bit array (R93). -/
  pba : BitVec 128 := 0
  /-- The message the device sent last for each unmasked vector event, oldest first (log entry 8). -/
  msixSent : List Nat := []
  aer : Nat := 0
  /-- Bytes that the last host read returned (log entry 8). -/
  hostData : List Byte := []
  /-- ATS invalidations completed to the host (R212; log entry 8). -/
  atsDone : Nat := 0
deriving DecidableEq, Repr

/-- The retirement record (R33): what it names. The lanes of each partition stand in `Health.lanes`. -/
structure RetRecord where
  chret : Option Nat := none
  dieoff : BitVec 4 := 0
  coreret : BitVec 136 := 0
  siteoff : BitVec 128 := 0
deriving DecidableEq, Repr

/-! ## Health block -/

/-- Retired lanes of one partition and its LANECTL request (R29 to R31). -/
structure LaneCtl where
  req : BitVec 6 := 0x3F
  /-- The lane whose retirement is in progress (BUSY). -/
  busy : Option (BitVec 6) := none
  nospare : Bool := false
  first : BitVec 6 := 0x3F
  second : BitVec 6 := 0x3F
deriving DecidableEq, Repr

/-- The ageing monitors of one core (R27). -/
structure Agm where
  busy : Bool := false
  /-- Tick at which the window of the sample in progress ends. -/
  due : Nat := 0
  window : BitVec 8 := 0x0A
  temp : BitVec 12 := 0
  counts : SMap (BitVec 24) := []
deriving DecidableEq, Repr

/-- The steps of an operating-point change (R15). -/
inductive ChangePhase where
  | rampUp
  | stall
  | gated
  | rampDown
deriving DecidableEq, Repr

/-- An operating-point change in progress (R15 to R17). -/
structure OpChange where
  target : Nat
  phase : ChangePhase
  start : Nat
deriving DecidableEq, Repr

/-- The health block (R11 to R33). -/
structure Health where
  target : BitVec 3 := 1
  boost : Bool := false
  cur : BitVec 3 := 1
  pwrltd : Bool := false
  therm : Bool := false
  changes : BitVec 16 := 0
  limit : BitVec 10 := 300
  tj : SMap (BitVec 12) := []
  ceCount : SMap (BitVec 16) := []
  ueCount : SMap (BitVec 16) := []
  /-- Rail voltage of each compute die in mV (R13). -/
  rail : SMap Nat := []
  below95 : Nat := 0
  hot : Nat := 0
  lastEval : Nat := 0
  change : Option OpChange := none
  agm : SMap Agm := []
  lanes : SMap LaneCtl := []
  /-- Ticks of the parity errors attributed to each lane, by 64 × partition + lane (R30). -/
  parity : SMap (List Nat) := []
  /-- Ticks of the self-test mismatches of each partition (R142). -/
  mismatch : SMap (List Nat) := []
  /-- The period of 200,000 ticks, plus one, of the last self-test of each matrix unit (R141). -/
  tested : SMap Nat := []
  /-- Retests that a matrix unit still owes before it accepts an operation (R142). -/
  retest : SMap Nat := []
  spareuse : BitVec 8 := 0
  /-- Sites whose core is being retired (R32, R143). -/
  failing : List Nat := []
  /-- Tick of the last recomputation of the guardband (R28). -/
  guardTick : Nat := 0
deriving DecidableEq, Repr

/-! ## Links, channels, host link -/

/-- STATE of a link module (R37). -/
inductive ModState where
  | down
  | train
  | active
  | retrain
deriving DecidableEq, Repr

/-- One die-link module (R36 to R39). -/
structure LinkMod where
  st : ModState := .down
  width : BitVec 7 := 0
  repaired : BitVec 3 := 0
  retrains : BitVec 16 := 0
  crcerr : BitVec 16 := 0
  replays : BitVec 16 := 0
  consecutive : Nat := 0
deriving DecidableEq, Repr

/-- STATE of a memory channel (R52). -/
inductive ChanState where
  | active
  | migrating
  | retired
deriving DecidableEq, Repr

/-- One memory channel (R49, R52). -/
structure Chan where
  st : ChanState := .active
  done : BitVec 13 := 0
  ce : BitVec 16 := 0
  ue : BitVec 16 := 0
  recent : List Nat := []
deriving DecidableEq, Repr

/-- A posted write of a peer with relaxed ordering that has arrived and is not visible yet (R57). -/
structure Posted where
  requester : Nat
  addr : Nat
  data : List Byte
deriving DecidableEq, Repr

/-- The link and memory block (R34 to R58). -/
structure Link where
  mods : SMap LinkMod := []
  online : BitVec 4 := 0
  extB : SMap DWord := []
  extL : SMap DWord := []
  cap : BitVec 3 := 0
  resv : Bool := false
  period : BitVec 8 := 24
  cethr : BitVec 8 := 64
  reqch : BitVec 5 := 0
  mcBusy : Bool := false
  nores : Bool := false
  chans : SMap Chan := []
  /-- The way whose channel no longer returned data (R53, R54): its words arrive poisoned. A listed bit of `State.poison`
  for a word of that way says that the word has been written since. -/
  deadWay : Option Nat := none
  /-- The swap engine moves a chunk of the migrating channel now; an exchange waits for the boundary after it (R53, R225). -/
  moving : Bool := false
  /-- Relaxed posted writes that have arrived and are not visible yet, oldest first (R57). -/
  posted : List Posted := []
deriving DecidableEq, Repr

/-! ## Adit socket -/

/-- ADSTAT.STATE (R60). -/
inductive AditState where
  | absent
  | reset
  | ready
  | fenced
deriving DecidableEq, Repr

/-- QSTATE of a guest queue (R65). -/
inductive QState where
  | idle
  | run
  | stopped
  | halted
deriving DecidableEq, Repr

/-- One guest queue (R65 to R68, R84 to R88). -/
structure GuestQ where
  en : Bool := false
  sz : BitVec 4 := 0
  ctx : BitVec 6 := 0
  st : QState := .idle
  cfgerr : Bool := false
  gqva : DWord := 0
  gqrrec : DWord := 0
  /-- The engine context bound to the queue: logical core key and number (R68). -/
  bound : Option (Nat × Nat) := none
  /-- Packets submitted and retired since the queue was enabled (R67). -/
  widx : Nat := 0
  ridx : Nat := 0
  /-- SEQ of each packet that has not retired, oldest first (R70, R79). -/
  seqs : List DWord := []
  /-- Tick of the PREEMPT or ABORT that waits for STOPPED, and whether it was an ABORT (R84, R88). -/
  asked : Option (Nat × Bool) := none
  /-- A program has stored into the queue region: the queue's later packets are undefined (R67). -/
  torn : Bool := false
deriving DecidableEq, Repr

/-- A leaf as a walk returns it (R207, R208). -/
structure Leaf where
  base : Nat
  size : Nat
  w : Bool
  x : Bool
  cls : BitVec 2
  ats : Bool
deriving DecidableEq, Repr

/-- How a walk ends (R207); one that reads an entry whose frame is held by the home slices has no result yet (R53, R225). -/
inductive WalkRes where
  | leaf (l : Leaf)
  | notPresent (lvl : Nat)
  | prot
  | poison (dpa : Nat)
  | held (dpa : Nat)
deriving DecidableEq, Repr

/-- Bytes that a packet of a guest queue has written and that become undefined if it does not retire (R83, R88). -/
structure PortBytes where
  q : Nat
  seq : DWord
  addr : Nat
deriving DecidableEq, Repr

/-- A guest request whose answer is outstanding (R73, R76). -/
structure GuestReq where
  tag : BitVec 16
  page : Bool
  q : Nat
  pasid : BitVec 20
  va : Nat
  write : Bool
  waitRec : Bool := false
  /-- What the walk finds if it reads its entries at once, and whether a miss that has joined the walk has taken that result already
  (R214, R215). -/
  first : WalkRes := .prot
  pinned : Bool := false
deriving DecidableEq, Repr

/-- A SHOOTDOWN message whose SDACK is outstanding (R78). -/
structure GuestSd where
  tag : BitVec 16
  pasid : BitVec 20
  all : Bool
  base : DWord
  log2 : BitVec 6
  due : Nat
deriving DecidableEq, Repr

/-- The Adit block and socket (R59 to R90). -/
structure Adit where
  st : AditState := .reset
  cqv : BitVec 1 := 0
  cause : BitVec 4 := 0
  cq : BitVec 4 := 0
  fences : BitVec 16 := 0
  grst : Bool := true
  /-- GRST was written one in READY: RESET is entered once every queue has been aborted (R64). -/
  resetting : Bool := false
  adid : Word := 0
  gqs : SMap GuestQ := []
  reqs : List GuestReq := []
  sds : List GuestSd := []
  nextTag : BitVec 16 := 0
  /-- Messages sent to the guest, oldest first (R72; log entry 8). -/
  toGuest : List GuestMsg := []
  /-- What the last guest read returned: words and poison bits (R75, R77; log entry 8). -/
  toPort : List (Word × Bool) := []
  /-- Ranges of virtual addresses whose translations the guest has acknowledged dropping, until it is given one again
  (R77): PASID, first address, end. -/
  acked : List (BitVec 20 × Nat × Nat) := []
  /-- Words written by packets that have not retired. -/
  wrote : List PortBytes := []
deriving DecidableEq, Repr

/-! ## Contexts -/

/-- CTXSTAT.STATE, IDLE and BUSY apart: those two tell whether a grid exists (R100, R101). -/
inductive CtxState where
  | disabled
  | on
  | faulted
  | stopping
deriving DecidableEq, Repr

/-- The fields of a fatal fault (R100, R102). -/
structure FaultInfo where
  cause : BitVec 8
  sub : BitVec 8 := 0
  addr : DWord := 0
  pc : DWord := 0
  lcore : BitVec 7 := 0
  crew : BitVec 8 := 0
  tid : BitVec 6 := 0
deriving DecidableEq, Repr

/-- A fault record (R217, R220). -/
structure FaultRec where
  va : Nat
  write : Bool
  tag : Word := 0
  acc : BitVec 2
  src : BitVec 2
  level : BitVec 2
  lcore : BitVec 7
  unit : BitVec 8
  /-- The tid and effective address of the recorded thread's access (R222). -/
  tid : BitVec 6 := 0
  ea : DWord := 0
  pc : DWord := 0
  written : Bool := false
deriving DecidableEq, Repr

/-- A translation command in progress (R219, R223, R225, R231): its fields as read, the step it has reached. -/
structure XCmd where
  op : BitVec 8
  all : Bool := false
  psz : BitVec 2 := 0
  host : Bool := false
  log2 : Nat := 0
  va : DWord := 0
  dpa : DWord := 0
  second : DWord := 0
deriving DecidableEq, Repr

/-- A child in a context's launch queue (R125 to R127): the crew that launched it, whether its grid is deterministic and
that grid's number, the launching thread's item and the ordinal of the launch (R260). -/
structure Child where
  raddr : DWord
  crew : Nat
  serial : Nat
  det : Bool
  parent : Nat
  item : BitVec 48
  ordinal : Nat
deriving DecidableEq, Repr

/-- A write of a watch register inside its 1,000-tick window (R381). -/
structure WatchWrite where
  reg : Nat
  old : DWord
  tick : Nat
  crew : Nat
  lanes : LaneSet
deriving DecidableEq, Repr

/-- One of the 64 contexts (R100 to R105, R139, R216). -/
structure Ctx where
  en : Bool := false
  cfgerr : Bool := false
  st : CtxState := .disabled
  cause : BitVec 8 := 0
  sub : BitVec 8 := 0
  pasid : BitVec 20 := 0
  cap : BitVec 3 := 7
  ptroot : BitVec 39 := 0
  cpaddr : DWord := 0
  head : Nat := 0
  savebase : BitVec 39 := 0
  logbase : BitVec 39 := 0
  logsize : Word := 0
  logpos : Nat := 0
  fvec : BitVec 8 := 0
  wdogLimit : BitVec 16 := 0
  extlim : BitVec 16 := 0
  faddr : DWord := 0
  fpc : DWord := 0
  floc : BitVec 22 := 0
  dbgLcore : BitVec 7 := 0
  dbgCrew : BitVec 8 := 0
  dbgseq : Word := 0
  mbx : SMap Word := []
  wdog : Nat := 0
  /-- WADDR0, WCTL0, WADDR1, WCTL1 by number (R381). -/
  watch : SMap DWord := []
  watchOld : List WatchWrite := []
  fwidx : Nat := 0
  nextTag : Word := 1
  recs : List FaultRec := []
  cridx : Nat := 0
  cmd : Option XCmd := none
  /-- The stop in progress and the fault that caused it (R101, R102). -/
  pendFault : Option FaultInfo := none
  /-- ATS invalidations in progress: base and log2 of the size (R212). -/
  inval : List (DWord × Nat) := []
  /-- The watch on the command page: the write count when it was armed (R105). -/
  watchCp : Option Nat := none
  detCount : Nat := 0
  logUsed : List Nat := []
  evictions : DWord := 0
  extcnt : Word := 0
  extloc : Word := 0
  extaddr : DWord := 0
  children : List Child := []
  gridsLaunched : Nat := 0
  /-- TAIL as the queue processor last read it (R105). -/
  tail : Nat := 0
  /-- The fault record that the queue processor, or the oldest child, waits for to read a launch record (R106, R127). -/
  slotWait : Option (Nat × Bool) := none
  childWait : Option (Nat × Bool) := none
  nextGroup : Nat := 0
deriving DecidableEq, Repr

/-! ## Distributor, grids, blocks -/

/-- The fields of a launch record (R106). -/
structure LaunchRec where
  entry : DWord := 0
  trappc : DWord := 0
  items : Nat := 0
  itembase : Nat := 0
  crews : Nat := 1
  cores : Nat := 0
  pref : Nat := 1
  fallback : Nat := 1
  vregs : Nat := 16
  vrf : Nat := 1
  loc : Nat := 0
  l1 : Nat := 15
  stack : Nat := 0
  stackbase : DWord := 0
  args : DWord := 0
  slots : List Word := []
  prio : Nat := 0
  det : Bool := false
  replay : Bool := false
  tmis : Bool := false
  twse : Bool := false
  tamo : Bool := false
  childres : Nat := 0
  compaddr : DWord := 0
  compval : DWord := 0
  consts : List Word := []
deriving DecidableEq, Repr

/-- The states of a grid (R114). -/
inductive GridState where
  | queued
  | running
  | tail
  | retiring
deriving DecidableEq, Repr

/-- A grid (R106, R114 to R124). A batch is a list of item ranges. -/
structure Grid where
  ctx : Nat
  lr : LaunchRec
  vec : Option Nat := none
  prio : Nat := 0
  st : GridState := .queued
  next : Nat := 0
  last : Nat := 0
  returned : List (Nat × Nat) := []
  /-- Per gallery, its current batch and the one fetched ahead (R123). -/
  batches : SMap (List (List (Nat × Nat))) := []
  gangs : Nat := 0
  blocks : Nat := 0
  /-- The tick since which the grid's next gang waits (R116). -/
  since : Option Nat := none
  order : Nat := 0
  det : Nat := 0
  /-- Engine commands of the grid that have not retired (R108). -/
  unretired : Nat := 0
  /-- The fault record that the completion word waits for (R108). -/
  compWait : Option (Nat × Bool) := none
deriving DecidableEq, Repr

/-- The hidden or exact accumulation of R250 to R253: VALUE and the flags NAN, PINF, NINF, OVF in bits 0 to 3. -/
structure Exact where
  value : BitVec 320 := 0
  flags : BitVec 4 := 0
  ctx : Nat := 0
deriving DecidableEq, Repr

/-- A resident block (R117, R138, R369). -/
structure Block where
  ctx : Nat
  grid : Nat
  id : Nat
  gang : Nat
  rank : Nat
  size : Nat
  /-- Logical cores (their keys) in ascending core position, and the first crew slot on each. -/
  cores : List (Nat × Nat)
  cpc : Nat
  lb : Nat
  exp : Nat := 0
  arr : Nat := 0
  ph : BitVec 8 := 0
  gph : BitVec 8 := 0
  garr : Nat := 0
  /-- Local memory by offset in the block's window, its poison by word, hidden records by word (R204, R253, R254). -/
  mem : SMap Byte := []
  pois : SMap Bool := []
  hidden : SMap (Option Exact) := []
  /-- The write count at the last write of each 128-byte line (R374). -/
  lineW : SMap Nat := []
  /-- Gang key shared by the blocks of one gang. -/
  gangKey : Nat := 0
  /-- Core positions whose segment has ended while other crews of the block live (R147). -/
  gone : List Nat := []
deriving DecidableEq, Repr

/-- A site (R110, R118 to R122, R382, R383). -/
structure Site where
  bound : Option Nat := none
  carve : Nat × Nat × Nat := (0, 0, 0)
  closed : Option Nat := none
  wanted : Option (Nat × Nat × Nat) := none
  /-- Priority of the candidate for which the site is closed (R122). -/
  closePrio : Nat := 0
  cycles : DWord := 0
  evSel : SMap (BitVec 8) := []
  evCnt : SMap DWord := []
deriving DecidableEq, Repr

/-- The distributor (R116, R120, R125). -/
structure Dist where
  rr : SMap Nat := []
  lastGal : Option Nat := none
  pool : Nat := 65536
  nextId : Nat := 0
  stamp : Nat := 0
deriving DecidableEq, Repr

/-! ## Crews -/

/-- The states of a lane (R154). -/
inductive LaneState where
  | vacant
  | live
  | blocked
  | parked
  | exited
deriving DecidableEq, Repr

/-- The trap specials of a thread (R294); op, d, a, b and imm are read out of the word. -/
structure TrapRegs where
  word : Word := 0
  cls : BitVec 3 := 0
  pc : DWord := 0
  cause : Word := 0
  addr : DWord := 0
deriving DecidableEq, Repr

/-- One condition of a waitc with its operands read (R372, R373). -/
structure Cond where
  kind : Nat
  cmp : Nat := 0
  p : DWord := 0
  q : Word := 0
  ec : Nat := 0
  sat : Bool := false
deriving DecidableEq, Repr

/-- What a BLOCKED thread waits in (R154, R368). -/
inductive WaitIn where
  | bar (phase : BitVec 8)
  | gbar
  | regroup
  | mwait
  | waitc (all : Bool) (conds : List Cond) (due : Option Nat) (dest : BitVec 8) (scalar : Bool) (peers : LaneSet)
deriving DecidableEq, Repr

/-- Where an access lands: device memory, host memory, a block's local window, a peer's registers (R203 to R211). -/
inductive Place where
  | dev (dpa : Nat)
  | host (hpa : Nat)
  | loc (block off : Nat)
  | port (addr : Nat)
deriving DecidableEq, Repr

/-- An access that may go ahead: its place, its leaf where it is translated, its virtual address. -/
structure Hit where
  pl : Place
  leaf : Option Leaf := none
  va : Nat := 0
deriving DecidableEq, Repr

/-- What an engine command has written (R201). -/
inductive Touch where
  | place (p : Place) (n : Nat)
  | buf (b off n : Nat)
deriving DecidableEq, Repr

/-- An armed watch (R374): the line, the address it was given, the machine's write count when it was armed. -/
structure MWatch where
  line : Place
  ea : DWord
  ser : Nat
deriving DecidableEq, Repr

/-- One lane of a crew (R154, R155). -/
structure Lane where
  st : LaneState := .vacant
  item : BitVec 48 := 0
  age : BitVec 8 := 0
  pc : DWord := 0
  yld : Bool := false
  mark : Bool := false
  inTrap : Bool := false
  tr : TrapRegs := {}
  watch : Option MWatch := none
  wait : Option WaitIn := none
  /-- The word a waiting thread waits at, and since when it waits externally (R132, R140). -/
  waitPc : DWord := 0
  waitWord : Word := 0
  extSince : Option Nat := none
  extTold : Bool := false
  /-- The fault record a PARKED thread waits for: page address and write (R220). -/
  park : Option (Nat × Bool) := none
  /-- Remaining ticks of a waitc interrupted by a park or a save (R132, R373). -/
  remain : Option Nat := none
  /-- The first execution of the word at the PC ignores the watchpoints (R381). -/
  wpSkip : Bool := false
  launches : Nat := 0
deriving DecidableEq, Repr

/-- An entry of a crew's store queue (R238). -/
inductive QOp where
  | store (pl : Place) (bytes : List Byte)
  | append (frame : Nat) (page : Nat) (va : DWord) (elems : List (Nat × List Byte)) (item : BitVec 48)
  | seal (frame : Nat) (lane : Nat)
deriving DecidableEq, Repr

/-- A queue entry with its destination register, load counter, instruction serial, grid and PC. -/
structure QEntry where
  op : QOp
  dest : BitVec 8 := 0
  lc : Nat := 7
  ser : Nat := 0
  pc : DWord := 0
  /-- The virtual address of a store (R56). -/
  va : Nat := 0
  /-- The store is performed at the home slice: a release of device or system scope (R245, notes after R246). -/
  home : Bool := false
deriving DecidableEq, Repr

/-- A load in flight for one thread, or for the crew where the destination is scalar (R150, R349). -/
structure Flight where
  lane : Nat
  dest : BitVec 8
  words : List Word
  /-- Address of a poisoned word among those read (R255). -/
  poison : Option DWord := none
  lc : Nat := 7
  ser : Nat := 0
  pc : DWord := 0
  atomic : Bool := false
deriving DecidableEq, Repr

/-- The operation of an atomic or reduction (R360 to R362). -/
inductive AtomOp where
  | add
  | minS
  | minU
  | maxS
  | maxU
  | and
  | or
  | xor
  | exch
  | cas
  | addF
  | minF
  | maxF
  | addX
  | xflush
deriving DecidableEq, Repr

/-- One thread's part of an atomic, reduction or exact operation: lane, place, address, operand, compare value;
an exact record that spans two pages has its second place (R250). The leaves are those of an exact record: a record on a sinter
page reads zero above TAIL (R228). -/
structure AtomArg where
  lane : Nat
  place : Place
  place2 : Place
  ea : DWord
  va : Nat
  x : Word
  cmp : Word := 0
  leaf : Option Leaf := none
  leaf2 : Option Leaf := none
  /-- The item of the thread at the issue (R260). -/
  item : BitVec 48 := 0
deriving DecidableEq, Repr

/-- An atomic or reduction on its way to the place of R247. -/
structure Atom where
  op : AtomOp
  args : List AtomArg
  ret : Bool
  scope : Nat := 0
  dest : BitVec 8 := 0
  lc : Nat := 7
  ser : Nat := 0
  pc : DWord := 0
  det : Bool := false
deriving DecidableEq, Repr

/-- What a pulse held at a word waits for (R150, R177, R178, R183, R225, R238, R261, R391). -/
inductive HoldCond where
  | counter (lc : Nat)
  | atoms
  | granules (grans : List Nat)
  | take (grans : List Nat) (seq : Nat)
  | engine (ec : Nat)
  | ecIdle (ec : Nat)
  | matrix (grans : Option (List Nat))
  | unit (ser : Nat)
  | replay
  | drained
  | exchange (ps : List Place)
deriving DecidableEq, Repr

/-- A pulse: one clause of one crew issued for a participant set (R156 to R158, R288). -/
structure Pulse where
  crew : Nat
  hdr : DWord
  /-- The clause as it was fetched: the header word, then the N words after it. -/
  words : List Word
  /-- Positions of the words still to run, and the position of the word that runs. -/
  todo : List Nat
  pos : Nat := 0
  p0 : LaneSet
  part : LaneSet
  helpers : LaneSet := 0
  /-- Lanes that have taken the target of the T word, with the target (R158). -/
  targets : SMap DWord := []
  flags : BitVec 4 := 0
  /-- Lanes that leave with yield set by the yield instruction (R375), and lanes that exit. -/
  yields : LaneSet := 0
  exits : LaneSet := 0
  /-- P held every runnable thread whose yield flag was clear (R157). -/
  whole : Bool := false
  /-- Debug cause taken: cause, lowest tid, its PC and address (R387). -/
  debugStop : Option (BitVec 8 × BitVec 6 × DWord × DWord) := none
  halt : Bool := false
  /-- The host has asked for a halt at the end of the clause (R388). -/
  hostHalt : Bool := false
  /-- The pulse is the step that the host has asked for (R388). -/
  step : Bool := false
  drain : Bool := false
  /-- The clause holds a refill before the words still to run (R368). -/
  refilled : Bool := false
  hold : Option HoldCond := none
  /-- Arrival number of the ldb.take the pulse stands at (R355). -/
  takeSeq : Option Nat := none
  /-- Serial of the append units the pulse stands at, and the threads whose unit was refused (R227, R363). -/
  unit : Option Nat := none
  refused : LaneSet := 0
deriving DecidableEq, Repr

/-- Where a crew is: on its site, stopping for a swap or an eviction, swapped at level 1, saved with its group. -/
inductive Residence where
  | resident
  | leaving (level : Nat)
  | swapped
  | saved
deriving DecidableEq, Repr

/-- Device memory as it stood at a write of DBGCTL, for the crew's next fetch of every word: its bytes, undefined ranges and poison, and the
words that the crew has fetched since (R415). -/
structure CodeSnap where
  mem : List Host.Cell
  undef : List (Nat × Nat × Nat)
  poison : SMap Bool
  deadWay : Option Nat
  seen : List Nat := []
deriving DecidableEq, Repr

/-- A crew (R148, R151, R166). -/
structure Crew where
  alive : Bool := false
  grid : Nat := 0
  block : Nat := 0
  index : Nat := 0
  serial : Nat := 0
  stamp : Nat := 0
  /-- Core cycle of its last issue (R129). -/
  lastIssue : Nat := 0
  v : SMap Word := []
  s : SMap Word := []
  m : SMap DWord := []
  t : SMap (BitVec 128) := []
  lcs : SMap Nat := []
  status : Word := 0
  vPois : SMap Bool := []
  sPois : SMap Bool := []
  lanes : SMap Lane := []
  /-- Bypass latches of each lane, b0 first (R287). -/
  lat : SMap (List Word) := []
  /-- Range and Cont of the last refill (R168). -/
  refill : Option (Nat × Nat × DWord) := none
  queue : List QEntry := []
  flights : List Flight := []
  atoms : List Atom := []
  /-- Pieces of counted instructions outstanding, by serial (R349). -/
  nextSer : Nat := 0
  entries : Nat := 0
  held : Option Pulse := none
  halted : Bool := false
  stepping : Bool := false
  ending : Bool := false
  /-- List and destination of a regroup the crew has executed (R169). -/
  regroup : Option (List Nat × BitVec 8) := none
  res : Residence := .resident
  /-- Tick since which the crew is wait-idle (R135). -/
  idleSince : Option Nat := none
  /-- A swapped crew whose wait is satisfied, with the tick from which its return is due (R135). -/
  wakeDue : Option Nat := none
  /-- The crew waits under R135 while it is off its site, and the write count when its watches were armed. -/
  waiting : Bool := false
  armed : Nat := 0
  /-- Engine commands issued and not yet accepted (R156, R183). -/
  unaccepted : Nat := 0
  /-- A lane waits for an item that its log names and that is no longer untaken (R261). -/
  stuck : Bool := false
  /-- What its next fetch of every word returns after a DBGCTL.RESUME or STEP (R415). -/
  code : Option CodeSnap := none
deriving DecidableEq, Repr

/-! ## Logical cores and engines -/

/-- KIND of an engine context (R182). -/
inductive EcKind where
  | unbound
  | geyser
  | stream
  | coord
  | guest
deriving DecidableEq, Repr

/-- An engine command (R183 to R202). -/
inductive CmdOp where
  | gx
  | gather
  | isect
  | copy
  | mcast
  | build
  | lookup
  | down
  | probe
deriving DecidableEq, Repr

/-- A command in an engine's queue: its number, record address, issuing crew with its serial, the record once read (R183),
progress. -/
structure Cmd where
  op : CmdOp
  num : Nat
  raddr : DWord
  crew : Nat
  serial : Nat := 0
  grid : Nat := 0
  pc : DWord := 0
  accepted : Bool := false
  bytes : List Byte := []
  /-- Geyser tasks applied, or multicast lines delivered (R188, R193, R202). -/
  done : Nat := 0
  /-- Multicast lines requested (R193). -/
  sent : Nat := 0
  /-- What its tasks, or its lines, have written so far (R201). -/
  wrote : List Touch := []
  /-- The fault record a suspended command waits for (R200). -/
  susp : Option (Nat × Bool) := none
  arrival : Nat := 0
deriving DecidableEq, Repr

/-- An engine context (R182). -/
structure Ec where
  kind : EcKind := .unbound
  issued : DWord := 0
  count : DWord := 0
  err : Bool := false
  gq : Option Nat := none
  cmds : List Cmd := []
deriving DecidableEq, Repr

/-- The tile of a matrix instruction with its descriptor resolved at issue (R180, R181, R390): rows and columns are
counts; the format is a slot's descriptor, zero for C. -/
structure Tile where
  buf : Nat
  base : Nat
  rows : Nat
  cols : Nat
  pitch : Nat
  fmt : Word := 0
  layout : Bool := false
  isInt : Bool := false
  /-- Stored lines of a gathered tile, and the granules of its index list (R181). -/
  gather : Option (List Nat) := none
  idx : List Nat := []
  sbase : Nat := 0
  spitch : Nat := 0
deriving DecidableEq, Repr

/-- The operations of the matrix unit (R390 to R398); an mma is an mma.g whose lists are 0, 1, 2, … (R396). -/
inductive MtxOp where
  | mma (c a b : Tile) (acc : Nat) (empty : BitVec 2)
  | tzero (c : Tile)
  | tcvt (dst src : Tile) (slot : Word) (empty : Bool)
  | tadd (c a : Tile) (acc : Nat) (empty : Bool)
deriving DecidableEq, Repr

/-- A matrix instruction sent and not yet complete (R390), with the granules it reads and writes. -/
structure MtxCmd where
  op : MtxOp
  crew : Nat
  pc : DWord
  tid : Nat := 0
  reads : List Nat := []
  writes : List Nat := []
deriving DecidableEq, Repr

/-- A coordinate table as the device knows it (R195): its descriptor's place and bytes, and its keys in ascending order of
value, each with its value. -/
structure Table where
  addr : Place
  bytes : List Byte
  keys : List (Nat × Nat)
deriving DecidableEq, Repr

/-- A logical core (R111, R112, R174 to R182), by 128 × context + number. -/
structure LCore where
  site : Option Nat := none
  lastSite : Nat := 0
  saved : Bool := false
  /-- The number of a saved group, or the core's own number while it is bound (R138). -/
  group : Nat := 0
  carve : Nat × Nat × Nat := (0, 0, 0)
  /-- Buffer bytes by 2^20 × buffer + offset, full-empty bits by 65,536 × buffer + granule, poison by word. -/
  buf : SMap Byte := []
  full : SMap Bool := []
  pois : SMap Bool := []
  ecs : SMap Ec := []
  nextTake : Nat := 0
  mtx : SMap (List MtxCmd) := []
  /-- Tick of the binding (R133), the tick since which the saved group waits for sites (R116), the level of an eviction in
  progress (R130), a restore ahead of all others (R143). -/
  since : Nat := 0
  waitSince : Option Nat := none
  leaving : Option Nat := none
  ahead : Bool := false
deriving DecidableEq, Repr

/-! ## Memory system -/

/-- State of a sinter frame (R226). -/
structure Sinter where
  sealed : Bool
  tail : Nat
  size : Nat
deriving DecidableEq, Repr

/-- An append unit or a seal on its way to the home slice (R227, R229). -/
structure HomeReq where
  crew : Nat
  e : QEntry
deriving DecidableEq, Repr

/-- A cached translation (R213). -/
structure TlbEnt where
  pasid : BitVec 20
  va : Nat
  leaf : Leaf
deriving DecidableEq, Repr

/-- An entry of the walkers' cache (R213): the table that the walk of an address enters at a level; it serves the addresses that share
the entry. -/
structure WalkEnt where
  pasid : BitVec 20
  lvl : Nat
  va : Nat
  table : Nat
deriving DecidableEq, Repr

/-- An ATS request on the host link: waiting for its completion, or for a PRI response, with the access that made it (R212, R222). -/
structure AtsReq where
  ctx : Nat
  addr : Nat
  write : Bool
  pri : Bool := false
  who : Option FaultRec := none
deriving DecidableEq, Repr

/-- A cached ATS result (R212). -/
structure AtsEnt where
  pasid : BitVec 20
  addr : Nat
  hpa : Nat
deriving DecidableEq, Repr

/-- A walk of a core or an engine that has met NotPresent, and that a later miss of its page may find still in flight (R214): PASID, 4 KiB
page, level. -/
structure Miss where
  pasid : BitVec 20
  page : Nat
  lvl : Nat
deriving DecidableEq, Repr

/-- An open multicast merge (R193): key, quota, the core cycle at which it opened, and the joined requests: logical core,
engine context, command number, line of the command. -/
structure Merge where
  pasid : BitVec 20
  line : Hit
  tag : Word
  gal : Nat
  quota : Nat
  opened : Nat
  joined : List (Nat × Nat × Nat × Nat)
deriving DecidableEq, Repr

/-- A frame exchange in progress (R225). -/
structure Exchange where
  ctx : Nat
  first : Nat
  second : Nat
  host : Bool
  size : Nat
deriving DecidableEq, Repr

/-! ## The machine -/

/-- The state of the machine. The first five fields are the model's own (log entries 1 and 3). -/
structure State where
  /-- What happens next outside a pulse, in order. -/
  schedule : List Agenda := []
  /-- The event that runs concerns this. -/
  subj : Subject := {}
  /-- The pulse in progress. -/
  cur : Option Pulse := none
  /-- Numbers the free values of Config. -/
  fresh : Nat := 0
  /-- Numbers the arrival of engine commands. -/
  arrival : Nat := 0
  /-- Reference ticks since cold start (R383). -/
  tick : Nat := 0
  /-- Core cycles since cold start, the same on every core (R13); a site's own counter adds `Site.cycles` (R383). -/
  cycles : Nat := 0
  fuse : Fuse := {}
  dev : Dev := {}
  ret : RetRecord := {}
  health : Health := {}
  link : Link := {}
  adit : Adit := {}
  ctxs : SMap Ctx := []
  dist : Dist := {}
  sites : SMap Site := []
  lcs : SMap LCore := []
  crews : SMap Crew := []
  grids : SMap (Option Grid) := []
  blocks : SMap (Option Block) := []
  /-- Device memory by DPA. -/
  mem : List Host.Cell := []
  /-- Ranges of device memory whose bytes the manual leaves undefined, and no write has reached since: first byte, end, the
  number of the free values (log entry 14). -/
  undef : List (Nat × Nat × Nat) := []
  poison : SMap Bool := []
  /-- The die, plus one, whose L2 holds a word dirty (R256). -/
  dirty : SMap Nat := []
  sinter : SMap (Option Sinter) := []
  hidden : SMap (Option Exact) := []
  hostMem : List Host.Cell := []
  hostPois : SMap Bool := []
  /-- Hidden records of words of host memory (R253). -/
  hostHidden : SMap (Option Exact) := []
  /-- Writes performed so far, and the count at the last write of each 128-byte line of device and host memory
  (R105, R374). -/
  writes : Nat := 0
  lineW : SMap Nat := []
  hostLineW : SMap Nat := []
  homeQ : List HomeReq := []
  tlb : List TlbEnt := []
  wcache : List WalkEnt := []
  /-- Guest translation requests whose walk is in flight (R76, R214). -/
  walks : List GuestReq := []
  /-- Walks of cores and engines that have met NotPresent and may still be in flight (R214). -/
  misses : List Miss := []
  ats : List AtsReq := []
  atsCache : List AtsEnt := []
  merges : List Merge := []
  swap : Option Exchange := none
  tables : List Table := []
deriving DecidableEq, Repr

/-- Reasons why the machine itself stops. The device reports its own faults in state: a fatal cause stops a context
(R102) and is a next state. -/
inductive Fault where
  /-- Raised by `step` when a pulse in progress names a word that its clause does not hold: no run from reset and no
  event forms such a pulse. Safe: the model stops where the hardware has no such state. -/
  | lostPulse
deriving DecidableEq, Repr

/-- Instructions that the model does not run. -/
inductive Refusal where
  /-- Raised by an arm of `exec` whose instruction has no meaning yet. Safe: nothing can be proved of it. -/
  | notModelled (mnemonic : String)
deriving DecidableEq, Repr

/-- The machine right after a cold start (R96, and the reset columns of R12 to R100; log entries 1 to 13). -/
def State.reset : State := {}

end Sys2Proof.Machine
end

