-- ==== Sys2Proof/Machine/Bits.lean ====
section
/-! DEFINITION. Sparse tables, byte order, lane sets and small arithmetic that every other file uses. -/

namespace Sys2Proof.Machine

/-- Read a sparse table whose unlisted entries are `d`. -/
def sget {α : Type} (d : α) : SMap α → Nat → α
  | [], _ => d
  | (j, x) :: r, k => if j = k then x else sget d r k

/-- Enter a value under its key, keeping the keys strictly rising. -/
def sput {α : Type} : SMap α → Nat → α → SMap α
  | [], k, x => [(k, x)]
  | (j, y) :: r, k, x =>
    if k < j then (k, x) :: (j, y) :: r else if j = k then (k, x) :: r else (j, y) :: sput r k x

/-- Remove a key. -/
def sdel {α : Type} : SMap α → Nat → SMap α
  | [], _ => []
  | (j, y) :: r, k => if j = k then sdel r k else (j, y) :: sdel r k

/-- Write a sparse table, keeping its keys strictly rising and no entry equal to the default. -/
def sset {α : Type} [DecidableEq α] (d : α) (m : SMap α) (k : Nat) (x : α) : SMap α :=
  if x = d then sdel m k else sput m k x

/-- The form every sparse table keeps: keys strictly rising above `lo`, no entry equal to the default. -/
def SMap.wfFrom {α : Type} [DecidableEq α] (d : α) : Option Nat → SMap α → Bool
  | _, [] => true
  | lo, (k, x) :: r =>
    (match lo with | none => true | some b => decide (b < k)) && decide (x ≠ d) && SMap.wfFrom d (some k) r

/-- Device or host memory: the bytes listed, by address; an unlisted byte reads zero (log entry 2). -/
abbrev Memory := List Host.Cell

/-- The canonical form of a memory: addresses strictly rising, no listed byte equal to what an unlisted one reads. -/
def Memory.wf (m : Memory) : Bool := SMap.wfFrom (0 : Byte) none m

/-- The byte at an address. -/
def Memory.read (m : Memory) (a : Nat) : Byte := sget 0 m a

/-- Store one byte. -/
def Memory.write (m : Memory) (a : Nat) (b : Byte) : Memory := sset 0 m a b

/-- `n` bytes from `a` on, lowest address first. -/
def Memory.readN (m : Memory) (a n : Nat) : List Byte := (List.range n).map fun i => Memory.read m (a + i)

/-- Store bytes from `a` on, lowest address first. -/
def Memory.writeN (m : Memory) (a : Nat) : List Byte → Memory
  | [] => m
  | b :: bs => Memory.writeN (Memory.write m a b) (a + 1) bs

/-- Bytes from address `a` on as a number, little-endian (R5). -/
def bytesToNat : List Byte → Nat
  | [] => 0
  | b :: bs => b.toNat + 256 * bytesToNat bs

/-- The `n` low bytes of a number, little-endian (R5). -/
def natToBytes : Nat → Nat → List Byte
  | 0, _ => []
  | n + 1, x => BitVec.ofNat 8 x :: natToBytes n (x / 256)

/-- Bytes as a 32-bit word, little-endian. -/
def bytesToWord (bs : List Byte) : Word := BitVec.ofNat 32 (bytesToNat bs)

/-- The words that bytes make, four at a time; a shorter rest makes one word with zeros above it. -/
def bytesToWords (n : Nat) (bs : List Byte) : List Word :=
  (List.range n).map fun i => bytesToWord ((bs.drop (4 * i)).take 4)

/-- Words as bytes, little-endian. -/
def wordsToBytes (ws : List Word) : List Byte := ws.flatMap fun w => natToBytes 4 w.toNat

/-- Element `i` of a list of bytes read as a little-endian number of `n` bytes at offset `o`. -/
def field (bs : List Byte) (o n : Nat) : Nat := bytesToNat ((bs.drop o).take n)

/-- Bits [lo + n − 1 : lo] of a number. -/
def bits (x lo n : Nat) : Nat := x / 2 ^ lo % 2 ^ n

/-- Bit `i` of a number. -/
def bit (x i : Nat) : Bool := x / 2 ^ i % 2 == 1

/-- The lanes of a set, ascending. -/
def lanesOf (m : LaneSet) : List Nat := (List.range 64).filter fun l => m.getLsbD l

/-- The set that holds one lane. -/
def laneBit (l : Nat) : LaneSet := 1#64 <<< l

/-- The set of the listed lanes. -/
def laneSet (ls : List Nat) : LaneSet := ls.foldl (fun m l => m ||| laneBit l) 0

/-- The lowest lane of a set; 0 for the empty set. -/
def lowLane (m : LaneSet) : Nat := (lanesOf m).headD 0

/-- The 64-bit value of two registers, low half first (R148). -/
def pair (lo hi : Word) : DWord := hi ++ lo

/-- The low half of a 64-bit value. -/
def loWord (x : DWord) : Word := x.extractLsb' 0 32

/-- The high half of a 64-bit value. -/
def hiWord (x : DWord) : Word := x.extractLsb' 32 32

/-- The address of the word that holds byte i of an access (R255). -/
def wordAddr (a : DWord) (i : Nat) : DWord := (a + BitVec.ofNat 64 i) &&& ~~~3#64

/-- Ceiling of a quotient. -/
def ceilDiv (a b : Nat) : Nat := (a + b - 1) / b

/-- Replace element `i` of a list. -/
def listSet {α : Type} : List α → Nat → α → List α
  | [], _, _ => []
  | _ :: r, 0, x => x :: r
  | y :: r, i + 1, x => y :: listSet r i x

/-- Remove element `i` of a list. -/
def listDel {α : Type} : List α → Nat → List α
  | [], _ => []
  | _ :: r, 0 => r
  | y :: r, i + 1 => y :: listDel r i

/-- The least element of a list of numbers. -/
def listMin : List Nat → Option Nat
  | [] => none
  | x :: r => match listMin r with
    | none => some x
    | some y => some (min x y)

/-- Insert into a list kept by ascending key. -/
def insertBy {α : Type} (key : α → Nat) (x : α) : List α → List α
  | [] => [x]
  | y :: r => if key x < key y then x :: y :: r else y :: insertBy key x r

/-- A list sorted by ascending key, equal keys in their order. -/
def sortBy {α : Type} (key : α → Nat) (l : List α) : List α := l.foldl (fun acc x => insertBy key x acc) []

/-- Whether the half-open ranges [a, a + m) and [b, b + n) meet. -/
def overlaps (a m b n : Nat) : Bool := a < b + n && b < a + m

/-- The elements of a list that occur first at their place. -/
def dedup : List Nat → List Nat
  | [] => []
  | x :: r => x :: (dedup r).filter (· != x)

end Sys2Proof.Machine
end

