-- ==== Sys2Proof/Machine/Checks.lean ====
section
/-! DEFINITION. What a word's own text must satisfy: the ILLEGAL reasons of R295 that depend on the word alone
(R281 to R286, R305 to R307, R316, and each entry of chapters 13 to 15), and the register blocks it names. -/

namespace Sys2Proof.Machine

/-- Codes 0x00-0x7F: v-registers (R285). -/
def isV (c : BitVec 8) : Bool := c.toNat < 0x80
/-- Codes 0x80-0xDF: s-registers (R285). -/
def isS (c : BitVec 8) : Bool := 0x80 ≤ c.toNat && c.toNat < 0xE0
/-- Codes 0xE0-0xE3: bypass latches (R285). -/
def isLatch (c : BitVec 8) : Bool := 0xE0 ≤ c.toNat && c.toNat < 0xE4
/-- Codes 0xE4-0xEF: constants (R285). -/
def isConst (c : BitVec 8) : Bool := 0xE4 ≤ c.toNat && c.toNat < 0xF0
/-- Codes 0xF0-0xF7: thread specials (R153, R285). -/
def isSpecial (c : BitVec 8) : Bool := 0xF0 ≤ c.toNat && c.toNat < 0xF8
/-- A source of vector kind, latches apart: their kind is that of the instruction that pushed them (R285). -/
def isVecSrc (c : BitVec 8) : Bool := isV c || isSpecial c
/-- An even register code. -/
def isEven (c : BitVec 8) : Bool := c.toNat % 2 == 0

/-- `[r]` unless the condition holds. -/
def need (r : Nat) (ok : Bool) : List Nat := if ok then [] else [r]

/-- A source operand: not a reserved code (R285). -/
def ckSrc (c : BitVec 8) : List Nat := need 8 (c.toNat < 0xF8)
/-- A destination operand: a v- or s-register (R285). -/
def ckDst (c : BitVec 8) : List Nat := need 8 (isV c || isS c)
/-- A destination that must be a v-register (R339, R345). -/
def ckVDst (c : BitVec 8) : List Nat := need 8 (isV c)
/-- The base pair of a generic address: an even v- or s-register (R283; log entry 22). -/
def ckBase (c : BitVec 8) : List Nat := need 8 ((isV c || isS c) && isEven c)
/-- A scalar destination takes only scalar sources (R286). -/
def ckKind (d : BitVec 8) (srcs : List (BitVec 8)) : List Nat := need 9 (!isS d || !srcs.any isVecSrc)
/-- An operand of scalar kind where the entry asks for one. -/
def ckScalar (c : BitVec 8) : List Nat := need 9 (!isVecSrc c)
/-- A register pair is even; constants, latches and specials are zero-extended (R328). -/
def ckPairSrc (c : BitVec 8) : List Nat := need 10 (!(isV c || isS c) || isEven c)
/-- A field that must be zero. -/
def ckZero {n : Nat} (x : BitVec n) : List Nat := need 11 (x == 0)

/-- Two-source format A: V as given. -/
def ckBin (f : FmtA) (vFree : Bool) : List Nat :=
  ckDst f.d ++ ckSrc f.a ++ ckSrc f.b ++ ckKind f.d [f.a, f.b] ++ (if vFree then [] else ckZero f.v)

/-- One-source format A: field b zero (R322). -/
def ckUn (f : FmtA) (vFree : Bool) : List Nat :=
  ckDst f.d ++ ckSrc f.a ++ ckKind f.d [f.a] ++ ckZero f.b ++ (if vFree then [] else ckZero f.v)

/-- Three-source format A with an operand code in the literal word (R320). -/
def ckTri (f : FmtA) (lit : Word) : List Nat :=
  ckBin f false ++ ckSrc (lit.truncate 8) ++ ckKind f.d [lit.truncate 8]

/-- A compare (R325): mask in d[3:0], d[7:4] and W zero, m14 and m15 not written. -/
def ckCmp (f : FmtA) (vFree : Bool) : List Nat :=
  need 11 (f.d.toNat < 16) ++ ckZero f.w ++ need 10 ((f.d.extractLsb' 0 4).toNat < 14) ++
    ckSrc f.a ++ ckSrc f.b ++ (if vFree then [] else ckZero f.v)

/-- One-source crew operations (R342). -/
def ckCrew (f : FmtA) (vFree : Bool) : List Nat :=
  ckVDst f.d ++ ckSrc f.a ++ ckZero f.b ++ (if vFree then [] else ckZero f.v)

/-- cred, cscan and csred of class 0: the operation code in b (R343). -/
def ckRedInt (f : FmtA) : List Nat :=
  ckVDst f.d ++ ckSrc f.a ++ need 8 (0xE4 ≤ f.b.toNat && f.b.toNat ≤ 0xE9) ++
    need 11 (f.v == 0 || f.b == 0xE5 || f.b == 0xE6)

/-- cred, cscan and csred of class 1 (R343). -/
def ckRedFloat (f : FmtA) : List Nat :=
  ckVDst f.d ++ ckSrc f.a ++ need 8 (0xE4 ≤ f.b.toNat && f.b.toNat ≤ 0xEC) ++ ckZero f.v

/-- Format I with one source. -/
def ckImm (f : FmtI) : List Nat := ckDst f.d ++ ckSrc f.a ++ ckKind f.d [f.a]

/-- Width code 0, 1, 2 of pk and upk is 4, 8, 16 bits (R337). -/
def pkWidth (imm : BitVec 10) : Nat := 4 <<< (imm.extractLsb' 3 2).toNat

/-- pk and upk (R337). -/
def ckPk (f : FmtI) (sFree : Bool) : List Nat :=
  ckImm f ++ need 11 ((f.imm.extractLsb' 6 4) == 0 && (f.imm.extractLsb' 3 2) != 3 &&
    (f.imm.extractLsb' 0 3).toNat < 32 / pkWidth f.imm && (sFree || f.imm.getLsbD 5 == false))

/-- The index byte of the literal of R283. -/
def idxCode (ix : Word) : BitVec 8 := ix.extractLsb' 24 8

/-- The literal word of R283: no index, or a v- or s-register; without X there is no literal. -/
def ckIdx (f : FmtM) (ix : Word) : List Nat :=
  if f.e == 1 then need 8 (idxCode ix == 0xE4 || isV (idxCode ix) || isS (idxCode ix)) else []

/-- The operands of an address: base and, with X, the index. -/
def addrOperands (f : FmtM) (ix : Word) : List (BitVec 8) :=
  if f.e == 1 && idxCode ix != 0xE4 then [f.a, idxCode ix] else [f.a]

/-- Reserved load-counter and agent-scope codes (R281). -/
def ckLcAg (f : FmtM) : List Nat := need 11 (f.lc != 6) ++ need 11 (f.ag != 7)

/-- V as the ordering qualifier: scopes zero without it, agent scope nonzero with it (R348). -/
def ckQual (f : FmtM) : List Nat :=
  if f.v == 1 then need 11 (f.ag != 0) else ckZero f.ag ++ ckZero f.st

/-- V as the qualifier of an atomic or reduction, whose agent scope is its place (R348). -/
def ckAmoQual (f : FmtM) : List Nat :=
  if f.v == 1 then need 11 (f.ag != 0) else ckZero f.st

/-- An address by base pair and literal (R283). -/
def ckAddr (f : FmtM) (ix : Word) : List Nat := ckBase f.a ++ ckIdx f ix ++ ckLcAg f

/-- The register rule of a wide access: pairs even, blocks of four at multiples of four (R352). -/
def ckWide (x : BitVec 8) (n : Nat) : List Nat := need 10 (!(isV x || isS x) || x.toNat % n == 0)

/-- A load of n registers (R348, R350, R352). -/
def ckLoad (f : FmtM) (ix : Word) (n : Nat) : List Nat :=
  ckAddr f ix ++ ckDst f.x ++ ckWide f.x n ++ ckKind f.x (addrOperands f ix) ++ ckQual f

/-- A store of n registers (R348, R353). -/
def ckStore (f : FmtM) (ix : Word) (n : Nat) : List Nat :=
  ckAddr f ix ++ ckSrc f.x ++ ckWide f.x n ++ ckQual f

/-- A buffer access (R348, R354). -/
def ckBuf (f : FmtM) (ix : Word) (load : Bool) : List Nat :=
  need 8 (f.a.toNat < 0xF8 && !isLatch f.a) ++ ckIdx f ix ++ ckLcAg f ++ ckZero f.ag ++ ckZero f.st ++
    (if load then ckDst f.x ++ ckKind f.x (addrOperands f ix) else ckSrc f.x) ++
    ckWide f.x (if f.v == 1 then 4 else 1)

/-- Tensor access (R348, R357, R358). -/
def ckTensor (f : FmtM) (lit : Word) (load win : Bool) : List Nat :=
  let c : BitVec 8 := lit.truncate 8
  let t : BitVec 8 := lit.extractLsb' 8 8
  need 8 (isS f.a && isEven f.a) ++ ckZero f.e ++ ckZero f.v ++ ckZero f.ag ++ ckZero f.st ++ ckLcAg f ++
    need 8 (isV c || isS c) ++ (if win then ckSrc t else []) ++
    (if load then ckDst f.x ++ ckKind f.x (c :: if win then [t] else []) else ckSrc f.x)

/-- Returning atomics (R348, R360). -/
def ckAmo (f : FmtM) (ix : Word) : List Nat :=
  ckAddr f ix ++ ckDst f.x ++ ckKind f.x (addrOperands f ix)

/-- Reductions (R348, R361). -/
def ckRed (f : FmtM) (ix : Word) : List Nat := ckAddr f ix ++ ckSrc f.x

/-- prefetch, cwb and cinv (R348). -/
def ckCache (f : FmtM) (ix : Word) : List Nat :=
  ckBase f.a ++ ckIdx f ix ++ ckZero f.x ++ need 11 (f.lc == 7) ++ ckZero f.ag ++ ckZero f.st

/-- tset and tget (R389). -/
def ckTset (f : FmtT) : List Nat :=
  let k := (f.flags.extractLsb' 0 7).toNat
  ckZero f.ta ++ ckZero f.tb ++ ckZero f.fs ++ ckZero f.acc ++ need 11 ((f.flags.extractLsb' 7 2) == 0) ++
    need 8 (k < 93) ++ need 10 (k % 4 == 0)

/-- mma and mma.g (R389). -/
def ckMma (f : FmtT) : List Nat :=
  ckZero f.fs ++ need 11 (f.acc != 3) ++ need 11 ((f.flags.extractLsb' 2 7) == 0)

/-- An even s-register operand of an ENG word (R401). -/
def ckEngS (c : BitVec 8) : List Nat := need 8 (isS c) ++ need 10 (!isS c || isEven c)

/-- A register field of an ENG word that its row leaves zero: every other code is one that the row does not permit (R401). -/
def ckNone (c : BitVec 8) : List Nat := need 8 (c == 0)

/-- gx.run and the ce and se commands (R401). -/
def ckCmd (f : FmtE) : List Nat :=
  ckEngS f.a ++ (if f.b == 0 then [] else ckEngS f.b) ++ ckZero f.flags

/-- ec.read and its variants (R401). -/
def ckEcRead (f : FmtE) : List Nat :=
  ckEngS f.a ++ ckNone f.b ++ need 11 (f.flags.toNat < 3)

/-- The vector specials of R380. -/
def srdVector (n : Nat) : Bool := 0x20 ≤ n && n ≤ 0x2B
/-- The numbers that R380 lists. -/
def srdListed (n : Nat) : Bool :=
  n ≤ 0x11 || srdVector n || (0x40 ≤ n && n ≤ 0x42) || (0x44 ≤ n && n ≤ 0x46)

/-- One condition of a waitc (R372): its two literal words. -/
def ckCond (d : BitVec 8) (w : Word) : List Nat :=
  let kind := (w.extractLsb' 0 3).toNat
  let cmp := (w.extractLsb' 3 3).toNat
  let p : BitVec 8 := w.extractLsb' 8 8
  let q : BitVec 8 := w.extractLsb' 16 8
  need 11 (kind < 4) ++ need 11 (if kind == 2 then cmp < 6 else cmp == 0) ++
    (if kind == 2 then ckBase p ++ ckSrc q ++ ckKind d [p, q]
     else if kind == 1 then need 8 (p.toNat < 0xF8 && !isLatch p) ++ ckKind d [p]
     else ckSrc p ++ ckKind d [p] ++ (if kind == 0 then ckPairSrc p else []))

/-- The condition words of a waitc, two at a time. -/
def ckConds (d : BitVec 8) : List Word → List Nat
  | w :: _ :: rest => ckCond d w ++ ckConds d rest
  | _ => []

/-- waitc.any and waitc.all (R367, R372). -/
def ckWaitc (f : FmtS) (conds : List Word) : List Nat :=
  ckDst f.a ++ ckSrc f.b ++ ckKind f.a [f.b] ++ need 11 ((f.f.extractLsb' 2 8) == 0) ++ ckConds f.a conds

/-- A system word with all of a, b and f zero. -/
def ckZeroS (f : FmtS) : List Nat := ckZero f.a ++ ckZero f.b ++ ckZero f.f

/-- rng.step (R345): two blocks of v-registers that do not overlap. -/
def ckRngStep (f : FmtA) : List Nat :=
  ckVDst f.d ++ ckVDst f.a ++ ckZero f.b ++ ckZero f.v ++
    need 11 (f.d.toNat + 4 ≤ f.a.toNat || f.a.toNat + 8 ≤ f.d.toNat)

/-- rng.skip (R346). -/
def ckRngSkip (f : FmtA) : List Nat :=
  ckVDst f.a ++ ckZero f.d ++ ckZero f.w ++ ckZero f.v ++
    need 8 ((isV f.b && f.b.toNat + 4 ≤ 0x80) || (isS f.b && f.b.toNat + 4 ≤ 0xE0))

/-- The ILLEGAL reasons that a word earns by its own text (R295, R316); an event of the device earns none. -/
def textReasons : Instr → List Nat
  | .nop z => ckZero z
  | .add f | .sub f | .mul f | .and f | .or f | .xor f | .andn f | .shl f | .shr f | .sar f => ckBin f false
  | .mulhi f | .min f | .max f | .rot f => ckBin f true
  | .abs f | .neg f | .clz f | .popc f | .brev f | .mov f => ckUn f false
  | .mad f lit | .ffma f lit | .dp4 f lit | .dp8 f lit => ckTri f lit
  | .sel f _ => ckBin f false
  | .cmpEq f | .cmpNe f | .cmpLt f | .cmpLe f | .cmpGt f | .cmpGe f => ckCmp f true
  | .fcmpEq f | .fcmpNe f | .fcmpLt f | .fcmpLe f | .fcmpGt f | .fcmpGe f => ckCmp f false
  | .movi f => ckDst f.d ++ need 11 (f.h != 3)
  | .movhi f => ckDst f.d ++ need 10 (f.h.toNat < 2 || isEven f.d)
  | .bfx f | .bfi f => ckImm f
  | .ext f => ckImm f ++ need 11 ((f.imm.extractLsb' 6 4) == 0)
  | .lea f => ckBin f true ++ need 10 (isEven f.d) ++ ckPairSrc f.a
  | .add64 f | .sub64 f => ckBin f false ++ need 10 (isEven f.d) ++ ckPairSrc f.a ++ ckPairSrc f.b
  | .mulw f => ckBin f true ++ need 10 (isEven f.d)
  | .shfl f => ckVDst f.d ++ ckSrc f.a ++ ckSrc f.b
  | .qxch f => ckVDst f.d ++ ckSrc f.a ++ need 11 (f.imm.toNat < 3)
  | .vote f | .popm f => ckCrew f true
  | .elect f => ckCrew f false
  | .matchLow f => ckCrew f true ++ (if f.v == 1 then ckPairSrc f.a else [])
  | .credInt f | .cscanInt f | .csredInt f _ => ckRedInt f
  | .credFloat f | .cscanFloat f | .csredFloat f _ => ckRedFloat f
  | .rngStep f => ckRngStep f
  | .rngSkip f => ckRngSkip f
  | .fadd f | .fsub f | .fmul f | .fdiv f | .fmin f | .fmax f | .fscale f => ckBin f false
  | .frcp f | .frsq f | .fsqrt f | .fexp2 f | .flog2 f | .fsin f | .fcos f => ckUn f false
  | .i2f f | .f2i f => ckUn f true
  | .fround f => ckImm f ++ need 11 ((f.imm.extractLsb' 2 8) == 0)
  | .fcvt f => ckImm f ++ need 11 ((f.imm.extractLsb' 4 6) == 0) ++ need 13 ((f.imm.extractLsb' 0 3) != 0)
  | .pk f => ckPk f false
  | .upk f => ckPk f true
  | .ldI8 f ix | .ldN8 f ix | .ldI16 f ix | .ldN16 f ix | .ldW32 f ix => ckLoad f ix 1
  | .ldW64 f ix => ckLoad f ix 2
  | .ldW128 f ix => ckLoad f ix 4
  | .stN8 f ix | .stN16 f ix | .stW32 f ix => ckStore f ix 1
  | .stW64 f ix => ckStore f ix 2
  | .stW128 f ix => ckStore f ix 4
  | .ldbPeek f ix | .ldbTake f ix => ckBuf f ix true
  | .stb f ix | .stbMark f ix => ckBuf f ix false
  | .tld f lit => ckTensor f lit true false
  | .tldWin f lit => ckTensor f lit true true
  | .tst f lit => ckTensor f lit false false
  | .amoAdd f ix | .amoAnd f ix | .amoOr f ix | .amoXor f ix | .amoExch f ix => ckAmo f ix ++ ckAmoQual f
  | .amoCas f ix c => ckAmo f ix ++ ckAmoQual f ++ ckSrc (c.truncate 8) ++ ckKind f.x [c.truncate 8]
  | .amoMin f ix | .amoMax f ix => ckAmo f ix ++ ckZero f.st
  | .redAddI f ix | .redAddF32 f ix | .redAnd f ix | .redOr f ix | .redXor f ix => ckRed f ix ++ ckAmoQual f
  | .redMin f ix | .redMax f ix | .redAddX f ix => ckRed f ix ++ ckZero f.st
  | .xflush f ix => ckLoad f ix 1
  | .append f ix => ckAddr f ix ++ ckDst f.x ++ ckKind f.x (addrOperands f ix) ++ ckZero f.ag ++ ckZero f.st ++
      ckWide f.x (if f.v == 1 then 2 else 1)
  | .sealPage f ix => ckLoad f ix 1
  | .fenceInsn f => ckZero f.x ++ ckZero f.a ++ ckZero f.lc ++ ckZero f.e ++ ckZero f.v ++
      need 11 (f.ag != 0 && f.ag != 7)
  | .prefetch f ix => ckCache f ix
  | .cwb f ix | .cinv f ix => ckCache f ix ++ ckZero f.v
  | .tset f | .tget f => ckTset f
  | .tzero f => ckZero f.ta ++ ckZero f.tb ++ ckZero f.fs ++ ckZero f.acc ++ ckZero f.flags
  | .mma f | .mmaG f => ckMma f
  | .tcvt f => ckZero f.tb ++ ckZero f.acc ++ need 11 ((f.flags.extractLsb' 1 8) == 0) ++ need 13 (f.fs != 0)
  | .tadd f => ckZero f.tb ++ ckZero f.fs ++ need 11 (f.acc != 3) ++ need 11 ((f.flags.extractLsb' 1 8) == 0)
  | .gxRun f | .ceBuild f | .ceLookup f | .ceDown f | .ceProbe f => ckCmd f
  | .seGather f | .seIsect f | .seCopy f | .seMcast f => ckCmd f
  | .gqSubmit f => ckEngS f.a ++ ckEngS f.b ++ ckZero f.flags
  | .ecBind f => ckNone f.b ++ need 11 (f.flags.toNat < 5) ++
      (if f.flags == 4 then need 8 (isS f.a || isConst f.a) else ckNone f.a)
  | .ecRead f | .ecReadIssued f | .ecReadState f => ckEcRead f
  | .barInit f => ckZero f.a ++ ckSrc f.b ++ ckScalar f.b ++ ckZero f.f
  | .barArrive f => ckDst f.a ++ ckZero f.b ++ ckZero f.f
  | .barWait f => ckZero f.a ++ ckSrc f.b ++ ckZero f.f
  | .gbar f | .mwait f | .yield f | .drain f | .trapret f => ckZeroS f
  | .waitcAny f c | .waitcAll f c => ckWaitc f c
  | .mwatch f => ckZero f.a ++ ckBase f.b ++ ckZero f.f
  | .refill f => ckZero f.b ++ need 11 ((f.f.extractLsb' 5 5) == 0) ++ need 10 ((f.f.extractLsb' 0 5).toNat ≤ 16) ++
      (if (f.f.extractLsb' 0 5) == 0 then ckZero f.a else ckVDst f.a)
  | .regroup f => need 8 (isS f.a) ++ need 8 (isS f.b) ++ ckZero f.f
  | .launch f => ckDst f.a ++ ckBase f.b ++ ckKind f.a [f.b] ++ ckZero f.f
  | .srd f => ckDst f.a ++ ckZero f.b ++ need 11 (srdListed f.f.toNat) ++
      need 9 (!(isS f.a && srdVector f.f.toNat))
  | .swr f => ckZero f.a ++ ckSrc f.b ++ need 11 (srdListed f.f.toNat) ++
      need 9 (!srdListed f.f.toNat || srdVector f.f.toNat || !isVecSrc f.b)
  | .evc f => ckEngS f.a ++ ckZero f.b ++ need 11 ((f.f.extractLsb' 5 5) == 0)
  | .evcSel f => ckZero f.a ++ ckSrc f.b ++ need 11 ((f.f.extractLsb' 5 5) == 0)
  | .vhop f => ckDst f.a ++ ckSrc f.b ++ ckSrc (f.f.truncate 8) ++ ckKind f.a [f.b, f.f.truncate 8] ++
      need 11 ((f.f.extractLsb' 8 2) == 0)
  | .clock f | .clockCore f => ckEngS f.a ++ ckZero f.b ++ need 11 ((f.f.extractLsb' 1 9) == 0)
  | .trap f => ckZero f.a ++ ckZero f.b
  | .dbg f | .dbgHalt f => ckZero f.a ++ ckSrc f.b ++ ckScalar f.b ++ need 11 ((f.f.extractLsb' 5 5) == 0)
  | .br f => ckZero f.m
  | .switch f lits => need 11 (f.m.toNat < 8) ++
      (match lits with | w :: _ => ckSrc (w.truncate 8) | [] => [])
  | .callr f | .ret f => ckZero f.off
  | .exit f => ckZero f.m ++ ckZero f.off
  | _ => []

/-- The register blocks a word names, as (operand code, registers): checked against VREGS when the pulse
reaches the word (R149, R286). -/
def regBlocks : Instr → List (BitVec 8 × Nat)
  | .add f | .sub f | .mul f | .and f | .or f | .xor f | .andn f | .shl f | .shr f | .sar f | .mulhi f | .min f
  | .max f | .rot f | .sel f _ | .shfl f | .fadd f | .fsub f | .fmul f | .fdiv f | .fmin f | .fmax f
  | .fscale f => [(f.d, 1), (f.a, 1), (f.b, 1)]
  | .abs f | .neg f | .clz f | .popc f | .brev f | .mov f | .vote f | .popm f | .elect f | .credInt f | .cscanInt f
  | .csredInt f _ | .credFloat f | .cscanFloat f | .csredFloat f _ | .frcp f | .frsq f | .fsqrt f | .fexp2 f
  | .flog2 f | .fsin f | .fcos f | .i2f f | .f2i f => [(f.d, 1), (f.a, 1)]
  | .matchLow f => [(f.d, 1), (f.a, if f.v == 1 then 2 else 1)]
  | .mad f lit | .ffma f lit | .dp4 f lit | .dp8 f lit => [(f.d, 1), (f.a, 1), (f.b, 1), (lit.truncate 8, 1)]
  | .cmpEq f | .cmpNe f | .cmpLt f | .cmpLe f | .cmpGt f | .cmpGe f | .fcmpEq f | .fcmpNe f | .fcmpLt f | .fcmpLe f
  | .fcmpGt f | .fcmpGe f => [(f.a, 1), (f.b, 1)]
  | .movi f => [(f.d, 1)]
  | .movhi f => [(f.d, if f.h.toNat < 2 then 1 else 2)]
  | .bfx f | .bfi f | .ext f | .qxch f | .fround f | .fcvt f | .pk f | .upk f => [(f.d, 1), (f.a, 1)]
  | .lea f => [(f.d, 2), (f.a, 2), (f.b, 1)]
  | .add64 f | .sub64 f => [(f.d, 2), (f.a, 2), (f.b, 2)]
  | .mulw f => [(f.d, 2), (f.a, 1), (f.b, 1)]
  | .rngStep f => [(f.d, 4), (f.a, 8)]
  | .rngSkip f => [(f.a, 8), (f.b, 4)]
  | .ldI8 f ix | .ldN8 f ix | .ldI16 f ix | .ldN16 f ix | .ldW32 f ix | .stN8 f ix | .stN16 f ix | .stW32 f ix
  | .amoAdd f ix | .amoAnd f ix | .amoOr f ix | .amoXor f ix | .amoExch f ix | .amoMin f ix | .amoMax f ix
  | .redAddI f ix | .redAddF32 f ix | .redAnd f ix | .redOr f ix | .redXor f ix | .redMin f ix | .redMax f ix
  | .redAddX f ix | .xflush f ix | .sealPage f ix =>
      (f.x, 1) :: (f.a, 2) :: (addrOperands f ix).tail.map (·, 1)
  | .amoCas f ix c => (f.x, 1) :: (f.a, 2) :: (c.truncate 8, 1) :: (addrOperands f ix).tail.map (·, 1)
  | .ldW64 f ix | .stW64 f ix => (f.x, 2) :: (f.a, 2) :: (addrOperands f ix).tail.map (·, 1)
  | .ldW128 f ix | .stW128 f ix => (f.x, 4) :: (f.a, 2) :: (addrOperands f ix).tail.map (·, 1)
  | .append f ix => (f.x, if f.v == 1 then 2 else 1) :: (f.a, 2) :: (addrOperands f ix).tail.map (·, 1)
  | .prefetch f ix | .cwb f ix | .cinv f ix => (f.a, 2) :: (addrOperands f ix).tail.map (·, 1)
  | .ldbPeek f ix | .ldbTake f ix | .stb f ix | .stbMark f ix =>
      (f.x, if f.v == 1 then 4 else 1) :: (addrOperands f ix).map (·, 1)
  | .tld f lit | .tst f lit => [(f.x, 1), (lit.truncate 8, 1)]
  | .tldWin f lit => [(f.x, 1), (lit.extractLsb' 8 8, 1), (lit.truncate 8, 1)]
  | .barArrive f | .srd f => [(f.a, 1)]
  | .barWait f | .swr f | .evcSel f => [(f.b, 1)]
  | .vhop f => [(f.a, 1), (f.b, 1), (f.f.truncate 8, 1)]
  | .waitcAny f c | .waitcAll f c => (f.a, 1) :: (f.b, 1) :: condBlocks c
  | .mwatch f => [(f.b, 2)]
  | .launch f => [(f.a, 1), (f.b, 2)]
  | .refill f => if (f.f.extractLsb' 0 5) == 0 then [] else [(f.a, (f.f.extractLsb' 0 5).toNat)]
  | .switch _ lits => match lits with | w :: _ => [(w.truncate 8, 1)] | [] => []
  | .call f | .callr f | .ret f => [(BitVec.ofNat 8 (2 * f.m.toNat), 2)]
  | _ => []
where
  /-- The registers that the conditions of a waitc name (R372). -/
  condBlocks : List Word → List (BitVec 8 × Nat)
    | w :: _ :: rest =>
        let kind := (w.extractLsb' 0 3).toNat
        (w.extractLsb' 8 8, if kind == 0 || kind == 2 then 2 else 1) ::
          ((if kind == 2 then [(w.extractLsb' 16 8, 1)] else []) ++ condBlocks rest)
    | _ => []

end Sys2Proof.Machine
end

