-- ==== Sys2Proof/Machine/Ops.lean ====
section
/-! DEFINITION. The named operations over the state: reading and updating each part, writing memory, the interrupt
messages, and taking a cause: a context fault (R102), entry to and return from a thread's trap handler (R293, R296),
parking (R162) and the debug stop (R387). -/

namespace Sys2Proof.Machine

/-! ## Parts of the state -/

/-- Context n (R100). -/
def State.ctx (s : State) (n : Nat) : Ctx := sget {} s.ctxs n
/-- Replace context n. -/
def State.setCtx (s : State) (n : Nat) (c : Ctx) : State := { s with ctxs := sset {} s.ctxs n c }
/-- Update context n. -/
def State.modCtx (s : State) (n : Nat) (f : Ctx → Ctx) : State := s.setCtx n (f (s.ctx n))

/-- The key of crew slot `slot` of logical core `k` of context `n`. -/
def crewKey (n k slot : Nat) : Nat := (n * 128 + k) * 256 + slot
/-- The logical-core key of a crew. -/
def lcOf (crew : Nat) : Nat := crew / 256
/-- The context of a crew. -/
def ctxOf (crew : Nat) : Nat := crew / 32768
/-- The crew slot number on its logical core. -/
def slotOf (crew : Nat) : Nat := crew % 256
/-- The logical core number within its context. -/
def lcNum (crew : Nat) : Nat := crew / 256 % 128

/-- A crew; the default, not alive, where the slot holds none (R148). -/
def State.crew (s : State) (k : Nat) : Crew := sget {} s.crews k
/-- Replace a crew. -/
def State.setCrew (s : State) (k : Nat) (c : Crew) : State := { s with crews := sset {} s.crews k c }
/-- Update a crew. -/
def State.modCrew (s : State) (k : Nat) (f : Crew → Crew) : State := s.setCrew k (f (s.crew k))

/-- Lane l of a crew (R154). -/
def Crew.lane (c : Crew) (l : Nat) : Lane := sget {} c.lanes l
/-- Replace a lane. -/
def Crew.setLane (c : Crew) (l : Nat) (x : Lane) : Crew := { c with lanes := sset {} c.lanes l x }
/-- Update a lane. -/
def Crew.modLane (c : Crew) (l : Nat) (f : Lane → Lane) : Crew := c.setLane l (f (c.lane l))
/-- Update lane l of crew k. -/
def State.modLane (s : State) (k l : Nat) (f : Lane → Lane) : State := s.modCrew k fun c => c.modLane l f

/-- A logical core (R111). -/
def State.lcore (s : State) (k : Nat) : LCore := sget {} s.lcs k
/-- Update a logical core. -/
def State.modLcore (s : State) (k : Nat) (f : LCore → LCore) : State :=
  { s with lcs := sset {} s.lcs k (f (s.lcore k)) }
/-- Engine context e of a logical core (R182). -/
def LCore.ec (c : LCore) (e : Nat) : Ec := sget {} c.ecs e
/-- Update engine context e of logical core k. -/
def State.modEc (s : State) (k e : Nat) (f : Ec → Ec) : State :=
  s.modLcore k fun c => { c with ecs := sset {} c.ecs e (f (c.ec e)) }

/-- A site (R110). -/
def State.site (s : State) (k : Nat) : Site := sget {} s.sites k
/-- Update a site. -/
def State.modSite (s : State) (k : Nat) (f : Site → Site) : State :=
  { s with sites := sset {} s.sites k (f (s.site k)) }

/-- A grid, where it exists (R114). -/
def State.grid (s : State) (g : Nat) : Option Grid := sget none s.grids g
/-- Replace or remove a grid. -/
def State.setGrid (s : State) (g : Nat) (x : Option Grid) : State := { s with grids := sset none s.grids g x }
/-- Update a grid that exists. -/
def State.modGrid (s : State) (g : Nat) (f : Grid → Grid) : State := s.setGrid g ((s.grid g).map f)

/-- A resident block, where it exists (R117). -/
def State.block (s : State) (b : Nat) : Option Block := sget none s.blocks b
/-- Update a block that exists. -/
def State.modBlock (s : State) (b : Nat) (f : Block → Block) : State :=
  { s with blocks := sset none s.blocks b ((s.block b).map f) }

/-- The launch record of a crew's grid. -/
def State.recOf (s : State) (k : Nat) : LaunchRec := ((s.grid (s.crew k).grid).map (·.lr)).getD {}

/-- FEATACK bit i (R94). -/
def State.feature (s : State) (i : Nat) : Bool := s.dev.featack.getLsbD i

/-- The virtual die of a site (R110). -/
def vdOfSite (site : Nat) : Nat := site / 32
/-- The gallery of a site (R110). -/
def galOfSite (site : Nat) : Nat := site / 16
/-- The site that a logical core is bound to, or the one it was bound to last (R111). -/
def State.siteOf (s : State) (lc : Nat) : Nat := ((s.lcore lc).site).getD (s.lcore lc).lastSite

/-- Compute dies present, ascending: VDv is bound to the v-th of them (R10, R41). -/
def State.dies (s : State) : List Nat := (List.range 4).filter fun d => s.fuse.cdpres.getLsbD d

/-- The physical core that serves a site (R9, R110): its own, or the gallery's spare where that core is retired. -/
def State.physOf (s : State) (site : Nat) : Nat :=
  let die := s.dies.getD (vdOfSite site) (vdOfSite site)
  let base := 34 * die + 17 * (galOfSite site % 2)
  if s.ret.coreret.getLsbD (base + site % 16) then base + 16 else base + site % 16

/-- Whether the matrix unit of partition q of a logical core's core still owes retests before it accepts an operation (R142). -/
def State.unitOwes (s : State) (lc q : Nat) : Bool := sget 0 s.health.retest (4 * s.physOf (s.siteOf lc) + q) != 0

/-- Whether a lane of a partition of a logical core's core is being remapped: the partition issues nothing (R30). -/
def State.remapping (s : State) (lc q : Nat) : Bool :=
  ((sget {} s.health.lanes (4 * s.physOf (s.siteOf lc) + q)).busy).isSome

/-- The hop distance of two virtual dies, 3 where either does not exist (R42). -/
def State.hop (s : State) (a b : Nat) : Nat :=
  match s.dies[a]?, s.dies[b]? with
  | some x, some y =>
    let d := max x y - min x y
    if d = 3 then 1 else d
  | _, _ => 3

/-- Whether the core clock runs: it is gated during the stall of an operating-point change, and a thermal trip switches the
compute dies off (R15, R16, R23). -/
def State.clocked (s : State) : Bool :=
  s.dev.st != .trip && match s.health.change with
    | some c => c.phase != .gated
    | none => true

/-- Whether host writes of registers take effect (R96). -/
def State.hostOpen (s : State) : Bool :=
  match s.dev.st with
  | .load | .verify | .boot => false
  | _ => true

/-- A free value of the current step (log entry 3). -/
def State.free (s : State) (k : Nat) : Word := Config.freeWord s.fresh k

/-- Present threads: m15 (R149, R154). -/
def Crew.present (c : Crew) : LaneSet :=
  laneSet ((List.range 64).filter fun l =>
    match (c.lane l).st with
    | .live | .blocked | .parked => true
    | _ => false)

/-- Lanes in a state. -/
def Crew.inState (c : Crew) (st : LaneState) : LaneSet :=
  laneSet ((List.range 64).filter fun l => (c.lane l).st = st)

/-- Whether no lane of the crew holds a thread that is present. -/
def Crew.noThreads (c : Crew) : Bool := c.present == 0

/-! ## Messages to the host -/

/-- A byte of the MSI-X table; at reset every vector is masked and the rest is zero (R93; log entry 7). The table is
kept as the difference from that. -/
def State.msixByte (s : State) (off : Nat) : Byte :=
  sget 0 s.dev.msixTable off ^^^ (if off % 16 = 12 then 1 else 0)

/-- Whether MSI-X vector v is masked: bit 0 of its table entry's vector control (R93). -/
def State.msixMasked (s : State) (v : Nat) : Bool := (s.msixByte (16 * v + 12)).getLsbD 0

/-- Send vector v, or set its pending bit while it is masked (R93). -/
def State.sendMsix (s : State) (v : Nat) : State :=
  if s.msixMasked v then { s with dev := { s.dev with pba := s.dev.pba ||| (1#128 <<< v) } }
  else { s with dev := { s.dev with msixSent := s.dev.msixSent ++ [v] } }

/-- Send a vector that the driver has assigned; vector 0 serves the device's events alone (R93). -/
def State.sendVec (s : State) (v : Nat) : State := if v = 0 then s else s.sendMsix v

/-- Set DEVEVT bits; every 0-to-1 transition sends vector 0 (R93). -/
def State.setEvt (s : State) (i : Nat) : State :=
  if s.dev.devevt.getLsbD i then s
  else ({ s with dev := { s.dev with devevt := s.dev.devevt ||| (1#7 <<< i) } }).sendMsix 0

/-! ## Memory -/

/-- The words of `n` bytes from address a on. -/
def wordsOf (a n : Nat) : List Nat :=
  if n = 0 then [] else (List.range ((a + n - 1) / 4 - a / 4 + 1)).map fun i => a / 4 + i

/-- Words whose four bytes a write names all (R254). -/
def fullWordsOf (a n : Nat) : List Nat := (wordsOf a n).filter fun w => a ≤ 4 * w && 4 * w + 4 ≤ a + n

/-- Set an entry of a table for every key of a list. -/
def ssetAll {α : Type} [DecidableEq α] (d : α) (m : SMap α) (ks : List Nat) (x : α) : SMap α :=
  ks.foldl (fun m k => sset d m k x) m

/-- The way of a device physical address (R44). -/
def wayOf (dpa : Nat) : Nat := (dpa / 128 ^^^ dpa / 4096 ^^^ dpa / 131072) % 32

/-- The offset of a DPA within its channel (R44). -/
def chanOffset (dpa : Nat) : Nat := dpa / 4096 * 128 + dpa % 128

/-- A memory channel (R52). -/
def State.chan (s : State) (c : Nat) : Chan := sget {} s.link.chans c

/-- Whether the home slice holds an access at a DPA because its chunk of a migrating channel moves now (R53). -/
def State.chunkMoves (s : State) (dpa : Nat) : Bool :=
  let c := s.chan (wayOf dpa)
  c.st == .migrating && chanOffset dpa / 2097152 == c.done.toNat

/-- Whether the home slices hold an access at a place: its frame is exchanged now (R225), or its chunk moves (R53). -/
def State.swapping (s : State) (p : Place) : Bool :=
  match p with
  | .dev a =>
    (match s.swap with
      | some w =>
        let inside := fun (base : Nat) => decide (base ≤ a) && decide (a < base + w.size)
        inside w.first || (!w.host && inside w.second)
      | none => false) || s.chunkMoves a
  | _ => false

/-- The lines of device memory that hold n bytes from a place on. -/
def Place.devLines (p : Place) (n : Nat) : List Place :=
  match p with
  | .dev a => (List.range ((a + n - 1) / 128 - a / 128 + 1)).map fun i => .dev (128 * (a / 128 + i))
  | _ => []

/-- The lines of n bytes at a place that the home slices hold now. -/
def State.heldLines (s : State) (p : Place) (n : Nat) : List Place := (p.devLines n).filter s.swapping

/-- Whether an access of n bytes at a place is held, in any line. -/
def State.spanHeld (s : State) (p : Place) (n : Nat) : Bool := (p.devLines n).any s.swapping

/-- Whether a line of whole pages of device memory is held (R53, R225): a chunk of a channel lies in 64 MiB of DPAs and has a line of each
of their pages. -/
def State.rangeHeld (s : State) (a n : Nat) : Bool :=
  (match s.swap with
    | some w => overlaps a n w.first w.size || (!w.host && overlaps a n w.second w.size)
    | none => false) ||
  s.link.chans.any fun (_, c) => c.st == .migrating && overlaps a n (c.done.toNat * 2 ^ 26) (2 ^ 26)

/-- Whether a word lies in the way whose channel was lost (R53). -/
def State.deadWord (s : State) (w : Nat) : Bool :=
  match s.link.deadWay with
  | some c => wayOf (4 * w) == c
  | none => false

/-- The poison bit of a word of device memory (R254). -/
def State.wordPois (s : State) (w : Nat) : Bool := sget false s.poison w != s.deadWord w

/-- The table of poison bits with those of the listed words set to one value. -/
def State.poisTable (s : State) (ws : List Nat) (v : Bool) : SMap Bool :=
  ws.foldl (fun m w => sset false m w (v != s.deadWord w)) s.poison

/-- The undefined ranges without the n bytes at an address (log entry 14). -/
def cutUndef (us : List (Nat × Nat × Nat)) (a n : Nat) : List (Nat × Nat × Nat) :=
  us.flatMap fun (lo, hi, k) =>
    if a < hi && lo < a + n then
      (if lo < a then [(lo, a, k)] else []) ++ (if a + n < hi then [(a + n, hi, k)] else [])
    else [(lo, hi, k)]

/-- Write device memory at the point of coherence: the bytes, the poison bits of wholly written words (R254), the die
that holds the words dirty (`die` plus one, zero for a write at the home slice), the watches (R105, R374). -/
def State.devWriteKeep (s : State) (die : Nat) (dpa : Nat) (bs : List Byte) : State :=
  { s with
    mem := Memory.writeN s.mem dpa bs
    undef := cutUndef s.undef dpa bs.length
    poison := s.poisTable (fullWordsOf dpa bs.length) false
    dirty := ssetAll 0 s.dirty (wordsOf dpa bs.length) die
    writes := s.writes + 1
    lineW := ssetAll 0 s.lineW (dedup ((wordsOf dpa bs.length).map (· / 32))) (s.writes + 1) }

/-- The same for every write that is not a deterministic red.add.f32: hidden records of the words end (R253). -/
def State.devWrite (s : State) (die : Nat) (dpa : Nat) (bs : List Byte) : State :=
  let s := s.devWriteKeep die dpa bs
  { s with hidden := ssetAll none s.hidden (wordsOf dpa bs.length) none }

/-- Mark words of device memory as poisoned. -/
def State.poisonWords (s : State) (ws : List Nat) : State := { s with poison := s.poisTable ws true }

/-- Write host memory (R56; log entry 13). -/
def State.hostWriteKeep (s : State) (hpa : Nat) (bs : List Byte) : State :=
  { s with
    hostMem := Memory.writeN s.hostMem hpa bs
    hostPois := ssetAll false s.hostPois (fullWordsOf hpa bs.length) false
    writes := s.writes + 1
    hostLineW := ssetAll 0 s.hostLineW (dedup ((wordsOf hpa bs.length).map (· / 32))) (s.writes + 1) }

/-- The same for every write that is not a deterministic red.add.f32: hidden records of the words end (R253). -/
def State.hostWrite (s : State) (hpa : Nat) (bs : List Byte) : State :=
  let s := s.hostWriteKeep hpa bs
  { s with hostHidden := ssetAll none s.hostHidden (wordsOf hpa bs.length) none }

/-- Whether an offset of a block's local window lies in a segment that has ended (R147; log entry 73). -/
def Block.ended (b : Block) (off : Nat) : Bool := b.gone.contains (off / b.lb)

/-- Write a block's local memory at the owning banks (R204, R239). -/
def State.locWrite (s : State) (b off : Nat) (bs : List Byte) : State :=
  let s := s.modBlock b fun x => if x.ended off then x else { x with
    mem := Memory.writeN x.mem off bs
    pois := ssetAll false x.pois (fullWordsOf off bs.length) false
    hidden := ssetAll none x.hidden (wordsOf off bs.length) none
    lineW := ssetAll 0 x.lineW (dedup ((wordsOf off bs.length).map (· / 32))) (s.writes + 1) }
  { s with writes := s.writes + 1 }

/-- Write at a place; a write to a peer's registers leaves the device (R211). -/
def State.placeWrite (s : State) (die : Nat) (p : Place) (bs : List Byte) : State :=
  match p with
  | .dev a => s.devWrite die a bs
  | .host a => s.hostWrite a bs
  | .loc b o => s.locWrite b o bs
  | .port _ => s

/-- The place `n` bytes further. -/
def Place.add : Place → Nat → Place
  | .dev a, n => .dev (a + n)
  | .host a, n => .host (a + n)
  | .loc b o, n => .loc b (o + n)
  | .port a, n => .port (a + n)

/-- Usable device memory in bytes (R47). -/
def State.usable (s : State) : Nat :=
  (if s.link.resv then 31 else 32) * 2 ^ s.link.cap.toNat * 2 ^ 30

/-- One byte of device memory: free where the manual leaves it undefined (log entry 14). -/
def State.devByte (s : State) (a : Nat) : Byte :=
  match s.undef.find? fun (lo, hi, _) => lo ≤ a && a < hi with
  | some (_, _, k) => (Config.freeWord k (2 ^ 40 + a)).setWidth 8
  | none => Memory.read s.mem a

/-- The n bytes at an address become undefined. -/
def State.undefine (s : State) (a n : Nat) : State :=
  { s with
    mem := s.mem.filter fun e => decide (e.1 < a || a + n ≤ e.1)
    undef := (a, a + n, s.fresh) :: cutUndef s.undef a n }

/-- Bytes at a place become undefined; only device and host memory holds such bytes. -/
def State.undefineAt (s : State) (p : Place) (n : Nat) : State :=
  match p with
  | .dev a => s.undefine a n
  | .host a => { s with hostMem := Memory.writeN s.hostMem a ((List.range n).map fun i => (s.free (2 ^ 41 + a + i)).setWidth 8) }
  | _ => s

/-- The byte at a place. -/
def State.placeByte (s : State) (p : Place) : Byte :=
  match p with
  | .dev a => s.devByte a
  | .host a => Memory.read s.hostMem a
  | .loc b o => ((s.block b).map fun x =>
      if x.ended o then (s.free (2 ^ 42 + o)).setWidth 8 else Memory.read x.mem o).getD 0
  | .port a => Config.peerRegister s.fresh a

/-- `n` bytes from a place on. -/
def State.placeRead (s : State) (p : Place) (n : Nat) : List Byte := (List.range n).map fun i => s.placeByte (p.add i)

/-- Whether the word that holds the place is poisoned (R254), or arrives so because the host link cannot complete the read
(R56; log entry 30). -/
def State.placePois (s : State) (p : Place) : Bool :=
  match p with
  | .dev a => s.wordPois (a / 4)
  | .host a => sget false s.hostPois (a / 4) || Config.linkReadFails s.fresh (a / 4)
  | .loc b o => ((s.block b).map fun x => sget false x.pois (o / 4)).getD false
  | .port _ => false

/-- The byte offset from the place of the first poisoned word among `n` bytes. -/
def State.placePoison (s : State) (p : Place) (n : Nat) : Option Nat :=
  (List.range n).find? fun i => s.placePois (p.add i)

/-- The 64-bit entry that a home slice returns (R207). -/
def State.read64 (s : State) (dpa : Nat) : Nat := bytesToNat ((List.range 8).map fun i => s.devByte (dpa + i))

/-- The write count at the last write of the line that holds a place (R374). -/
def State.lineSer (s : State) (p : Place) : Nat :=
  match p with
  | .dev a => sget 0 s.lineW (a / 128)
  | .host a => sget 0 s.hostLineW (a / 128)
  | .loc b o => ((s.block b).map fun x => sget 0 x.lineW (o / 128)).getD 0
  | .port _ => 0

/-! ## Guest messages -/

/-- Send a message to the guest (R72). -/
def State.toGuest (s : State) (m : GuestMsg) : State :=
  { s with adit := { s.adit with toGuest := s.adit.toGuest ++ [m] } }

/-- A message with the fields of R73 that are not named zero. -/
def guestMsg (ty : BitVec 8) (q : BitVec 4 := 0) (arg : DWord := 0) : GuestMsg :=
  { ty, q, z1 := 0, tag := 0, pasid := 0, all := 0, w := 0, st := 0, psz := 0, cls := 0, z2 := 0, arg }

/-- Guest queue q. -/
def State.gq (s : State) (q : Nat) : GuestQ := sget {} s.adit.gqs q
/-- Update guest queue q. -/
def State.modGq (s : State) (q : Nat) (f : GuestQ → GuestQ) : State :=
  { s with adit := { s.adit with gqs := sset {} s.adit.gqs q (f (s.gq q)) } }

/-- ABORT for the running and stopped queues of a context that stops (R65, R88). After a PREEMPT the 5,000 ticks start again, and one
STOPPED answers (DESIGN CHOICE, log entry 86). -/
def State.abortQueues (s : State) (n : Nat) : State :=
  ((List.range 16).filter fun q => (s.gq q).en && (s.gq q).ctx.toNat = n && ((s.gq q).st = .run || (s.gq q).st = .stopped)).foldl
    (fun s q => (s.modGq q fun g => { g with asked := some (s.tick, true) }).toGuest (guestMsg 0x04 (BitVec.ofNat 4 q))) s

/-! ## Causes -/

/-- The causes of R292. -/
inductive Cause where
  | illegal (reason : Nat)
  | utrap
  | iconv
  | tshape
  | amocol
  | misalign
  | aperture
  | xfault
  | prot
  | wseal
  | poison
  | bufperm
  | brk
  | watch
  | step
  | launch
  | wdog
  | dieLost
deriving DecidableEq, Repr

/-- The code of a cause (R292). -/
def Cause.code : Cause → Nat
  | .illegal _ => 0x01
  | .utrap => 0x02
  | .iconv => 0x03
  | .tshape => 0x04
  | .amocol => 0x05
  | .misalign => 0x06
  | .aperture => 0x07
  | .xfault => 0x08
  | .prot => 0x09
  | .wseal => 0x0A
  | .poison => 0x0B
  | .bufperm => 0x0C
  | .brk => 0x0D
  | .watch => 0x0E
  | .step => 0x0F
  | .launch => 0x10
  | .wdog => 0x11
  | .dieLost => 0x12

/-- The ILLEGAL reason of a cause, zero for others (R294). -/
def Cause.reason : Cause → Nat
  | .illegal r => r
  | _ => 0

/-- The delivery groups (R292). -/
inductive Group where
  | user
  | fatal
  | park
  | debug
deriving DecidableEq, Repr

/-- The group of a cause for a thread, by its grid's launch record, its in-handler bit and the DEBUG feature. -/
def Cause.group (c : Cause) (r : LaunchRec) (inTrap debugOn : Bool) : Group :=
  let trapped := if r.trappc == 0 || inTrap then Group.fatal else .user
  match c with
  | .illegal _ | .utrap => trapped
  | .amocol => if r.tamo then trapped else .fatal
  | .misalign => if r.tmis then trapped else .fatal
  | .wseal => if r.twse then trapped else .fatal
  | .xfault => .park
  | .brk | .watch | .step => if debugOn then .debug else .fatal
  | _ => .fatal

/-- Stop context n because of a fatal fault; the first fault of a stop is the one recorded (R101, R102). -/
def State.contextFault (s : State) (n : Nat) (f : FaultInfo) : State :=
  match (s.ctx n).st with
  | .on => (s.modCtx n fun c => { c with st := .stopping, pendFault := some f }).abortQueues n
  | _ => s

/-- What a thread takes: its lane, the cause, the address for tr.addr and FADDR (R289, R292, R294). -/
structure Taken where
  lane : Nat
  cause : Cause
  addr : DWord := 0
  /-- FADDR of a fatal fault where it is not `addr` (R255, R291). -/
  faddr : Option DWord := none
  /-- The fault record of an XFAULT (R220). -/
  park : Nat × Bool := (0, false)
deriving DecidableEq, Repr

/-- tr.addr is kept for MISALIGN, WSEAL and AMOCOL only (R294). -/
def Taken.trAddr (t : Taken) : DWord :=
  match t.cause with
  | .misalign | .wseal | .amocol => t.addr
  | _ => 0

/-- Entry to the trap handler of a thread (R293, R294): the specials, in-handler, the PC; it stays LIVE. -/
def trapEntry (t : Taken) (word : Word) (cls : BitVec 3) (pc trappc : DWord) (x : Lane) : Lane :=
  { x with
    tr := { word, cls, pc, cause := BitVec.ofNat 32 (t.cause.code + 256 * t.cause.reason), addr := t.trAddr }
    inTrap := true, pc := trappc, mark := false, wpSkip := false }

/-- Return from the handler (R296): the PC is tr.pc and in-handler is clear; `mark` says that tr.pc lies inside a
clause (R290). -/
def trapReturn (mark : Bool) (x : Lane) : Lane := { x with pc := x.tr.pc, inTrap := false, mark }

/-- Parking of a thread (R162): PARKED at the faulting word with the resume mark. -/
def parkLane (key : Nat × Bool) (pc : DWord) (x : Lane) : Lane :=
  { x with st := .parked, pc, mark := true, park := some key }

/-- The address of a word of a pulse's clause. -/
def Pulse.pcAt (p : Pulse) (w : Nat) : DWord := p.hdr + BitVec.ofNat 64 (4 * w)

/-- The address of the word that runs. -/
def Pulse.pc (p : Pulse) : DWord := p.pcAt p.pos

/-- The word that runs. -/
def Pulse.word (p : Pulse) : Word := p.words.getD p.pos 0

/-- N of the clause header (R277). -/
def hdrN (w : Word) : Nat := (w.extractLsb' 28 4).toNat
/-- The class of the clause header. -/
def hdrClass (w : Word) : Nat := (w.extractLsb' 25 3).toNat
/-- The T bit of the clause header. -/
def hdrT (w : Word) : Bool := w.getLsbD 24
/-- The wait field of the clause header: the counters it names. -/
def hdrWait (w : Word) : List Nat := (List.range 6).filter fun k => w.getLsbD (18 + k)
/-- The Y bit of the clause header. -/
def hdrY (w : Word) : Bool := w.getLsbD 17
/-- The E bit of the clause header. -/
def hdrE (w : Word) : Bool := w.getLsbD 16

/-- The header word of a pulse. -/
def Pulse.hd (p : Pulse) : Word := p.words.headD 0

/-- The class in which word w of the clause is decoded: 6 for the T word (R288). -/
def Pulse.clsAt (p : Pulse) (w : Nat) : Nat :=
  if hdrT p.hd && w == hdrN p.hd then 6 else hdrClass p.hd

/-- The address that follows the clause (R158). -/
def Pulse.nextPc (p : Pulse) : DWord := p.pcAt (hdrN p.hd + 1)

/-- A FaultInfo for a thread of a crew. -/
def threadFault (k : Nat) (t : Taken) (pc : DWord) : FaultInfo :=
  { cause := BitVec.ofNat 8 t.cause.code
    addr := t.faddr.getD t.addr
    pc
    lcore := BitVec.ofNat 7 (lcNum k), crew := BitVec.ofNat 8 (slotOf k), tid := BitVec.ofNat 6 t.lane }

/-- A miss has taken NotPresent from a walk of a page: the walks of the page that are in flight end with it, and a later miss may
still join this one (R214). -/
def State.missed (s : State) (n va lvl : Nat) : State :=
  let mine := fun (p : BitVec 20) (v : Nat) => p == (s.ctx n).pasid && v / 4096 == va / 4096
  { s with
    walks := s.walks.map fun r => if mine r.pasid r.va && !r.pinned then { r with first := .notPresent lvl, pinned := true } else r
    misses := { pasid := (s.ctx n).pasid, page := va / 4096, lvl } :: s.misses.filter fun m => !mine m.pasid (4096 * m.page) }

/-- No miss finds a walk of a core or an engine of the page in flight any more (R214). -/
def State.walkOver (s : State) (pasid : BitVec 20) (page : Nat) : State :=
  { s with misses := s.misses.filter fun m => !(m.pasid == pasid && m.page == page) }

/-- Join or open a fault record (R220); an opened one is written later, when the page has room (FAULT_RECORD_WRITE). -/
def State.joinRecord (s : State) (n : Nat) (r : FaultRec) : State :=
  let s := s.missed n r.va r.level.toNat
  if (s.ctx n).recs.any fun x => x.va == r.va && x.write == r.write then s
  else s.modCtx n fun c => { c with recs := c.recs ++ [r] }

/-- Deliver what threads of the pulse take at the word that runs (R289). They leave P. A fatal cause stops the context
with the fault of its lowest tid; otherwise each thread is trapped, parked or stopped for the debugger by its group. -/
def State.deliver (s : State) (p : Pulse) (word : Word) (cls : BitVec 3) (pc : DWord) (ts : List Taken) : State :=
  let r := s.recOf p.crew
  let c := s.crew p.crew
  let grp := fun (t : Taken) => t.cause.group r (c.lane t.lane).inTrap (s.feature 12)
  let left : LaneSet := laneSet (ts.map (·.lane))
  let p' := { p with part := p.part &&& ~~~left }
  match ts.find? (fun t => grp t = .fatal) with
  | some t =>
    let c := ts.foldl (fun c t => c.modLane t.lane fun x => { x with pc, mark := pc != p.hdr }) c
    (({ s with cur := some p' }).setCrew p.crew c).contextFault (ctxOf p.crew) (threadFault p.crew t pc)
  | none =>
    let one := fun (c : Crew) (t : Taken) =>
      match grp t with
      | .user => c.modLane t.lane (trapEntry t word cls pc r.trappc)
      | .park => c.modLane t.lane (parkLane t.park pc)
      | _ => c.modLane t.lane fun x => { x with pc, mark := pc != p.hdr }
    let c := ts.foldl one c
    let dbg := match ts.find? (fun t => grp t = .debug) with
      | some t => some (BitVec.ofNat 8 t.cause.code, BitVec.ofNat 6 t.lane, pc,
          if t.cause = .watch then t.addr else 0)
      | none => none
    let c := ts.foldl (fun c t => if grp t = .debug then c.modLane t.lane fun x => { x with wpSkip := t.cause = .watch }
      else c) c
    let p'' := { p' with debugStop := match p'.debugStop with | some d => some d | none => dbg }
    ({ s with cur := some p'' }).setCrew p.crew c

/-- Every thread of P takes one cause at the word that runs. -/
def State.deliverAll (s : State) (p : Pulse) (c : Cause) (addr : DWord := 0) (faddr : Option DWord := none) : State :=
  s.deliver p p.word (BitVec.ofNat 3 (p.clsAt p.pos)) p.pc ((lanesOf p.part).map fun l => { lane := l, cause := c, addr, faddr })

/-- Deliver causes at the word that runs. -/
def State.deliverAt (s : State) (p : Pulse) (ts : List Taken) : State :=
  if ts.isEmpty then s else s.deliver p p.word (BitVec.ofNat 3 (p.clsAt p.pos)) p.pc ts

/-! ## Counters -/

/-- Add n to every event counter of a site that counts source `src` (R382). -/
def State.countEvt (s : State) (site src n : Nat) : State :=
  s.modSite site fun x =>
    { x with evCnt := (List.range 16).foldl (fun m k =>
        if (sget 0 x.evSel k).toNat = src then sset 0 m k (sget 0 m k + BitVec.ofNat 64 n) else m) x.evCnt }

/-- A progress event of a context resets its watchdog (R139). -/
def State.progress (s : State) (n : Nat) : State := s.modCtx n fun c => { c with wdog := 0 }

/-! ## Load counters -/

/-- Whether a piece of the crew's counted instruction `ser` is still outstanding (R349). -/
def Crew.outstanding (c : Crew) (ser : Nat) : Bool :=
  c.queue.any (·.ser == ser) || c.flights.any (·.ser == ser) || c.atoms.any (·.ser == ser)

/-- The load counter falls when the last piece of the instruction is gone (R150, R349). -/
def State.fall (s : State) (k lc ser : Nat) : State :=
  if lc < 6 && !(s.crew k).outstanding ser && !s.homeQ.any (fun h => h.crew == k && h.e.ser == ser) then
    s.modCrew k fun c => { c with lcs := sset 0 c.lcs lc (sget 0 c.lcs lc - 1) }
  else s

/-- A new serial for an instruction that names counter lc; the counter rises (R150). -/
def State.rise (s : State) (k lc : Nat) : State × Nat :=
  let c := s.crew k
  let s := s.setCrew k { c with nextSer := c.nextSer + 1,
                                lcs := if lc < 6 then sset 0 c.lcs lc (sget 0 c.lcs lc + 1) else c.lcs }
  (s, c.nextSer + 1)

/-! ## Engine contexts -/

/-- A failure of an engine context: its error bit, and the context's fault, which names the logical core only (R201). -/
def State.ecFail (s : State) (lc e : Nat) (cause : BitVec 8) (addr : DWord) : State :=
  (s.modEc lc e fun x => { x with err := true }).contextFault (lc / 128)
    { cause, addr, lcore := BitVec.ofNat 7 (lc % 128) }

/-- KIND as a number (R182). -/
def EcKind.code : EcKind → Nat
  | .unbound => 0
  | .geyser => 1
  | .stream => 2
  | .coord => 3
  | .guest => 4

/-- The kind of a number (R182, R404). -/
def kindOf : Nat → EcKind
  | 0 => .unbound
  | 1 => .geyser
  | 2 => .stream
  | 3 => .coord
  | _ => .guest

/-- Whether the queue of an engine has room for a command of an engine context (R183): 16 per engine context for the
geyser and the stream engine, 64 per gallery for the coordinate engine. -/
def State.engineRoom (s : State) (lc e : Nat) : Bool :=
  let x := (s.lcore lc).ec e
  if x.kind = .coord then
    (s.lcs.foldl (fun n (k, c) => if galOfSite (s.siteOf k) = galOfSite (s.siteOf lc) then
      c.ecs.foldl (fun n (_, y) => if y.kind = .coord then n + y.cmds.length else n) n else n) 0) < 64
  else x.cmds.length < 16

/-! ## Matrix instructions -/

/-- Whether an earlier matrix instruction of the crew is incomplete, of all or of those that read or write one of the
granules (R391). -/
def State.mtxBusy (s : State) (k : Nat) (gs : Option (List Nat)) : Bool :=
  (sget [] (s.lcore (lcOf k)).mtx (slotOf k % 4)).any fun m =>
    m.crew == k && match gs with
      | none => true
      | some g => m.reads.any g.contains || m.writes.any g.contains

end Sys2Proof.Machine
end

