-- ==== Sys2Proof/Machine/Translate.lean ====
section
/-! DEFINITION. Addresses: the windows of a generic address (R203 to R206), the page walk (R207 to R209), the checks of a
leaf (R210, R211), cached translations (R213, R215), host pages through ATS (R212), watchpoints (R381). -/

namespace Sys2Proof.Machine

/-- What an access does, as R210 sorts it. -/
inductive AccKind where
  | read
  | write
  | atomic
  | append
  | fetch
deriving DecidableEq, Repr

/-- Whether a bit that R208 requires zero is set in a valid entry. -/
def entryBad (lvl e : Nat) : Bool :=
  let leaf := bit e 1
  let cls := bits e 4 2
  bits e 7 5 != 0 || bits e 52 11 != 0 ||
    (if leaf then (bit e 6 && lvl != 0) || (bit e 63 && cls != 3) || (cls < 2 && bits e 39 13 != 0)
     else bits e 2 5 != 0 || bit e 63 || bits e 39 13 != 0)

/-- The walk from a table entry at level `lvl` (R207 to R209); the read of an entry that the home slices hold waits (R53, R225). -/
def State.walkFrom (s : State) (va : Nat) : Nat → Nat → WalkRes
  | lvl, ea =>
    if s.swapping (.dev ea) then .held ea
    else if s.wordPois (ea / 4) then .poison (ea / 4 * 4)
    else if s.wordPois (ea / 4 + 1) then .poison (ea / 4 * 4 + 4)
    else
      let e := s.read64 ea
      if !bit e 0 then .notPresent lvl
      else if entryBad lvl e then .prot
      else if bit e 1 then
        if lvl = 3 then .prot
        else
          let size := if lvl = 0 && bit e 6 then 65536 else 2 ^ (12 + 9 * lvl)
          let addr := bits e 12 40 * 4096
          if 4096 < size && addr % size != 0 && size != 65536 then .prot
          else .leaf { base := addr / size * size, size, w := bit e 2, x := bit e 3,
                       cls := BitVec.ofNat 2 (bits e 4 2), ats := bit e 63 }
      else
        match lvl with
        | 0 => .prot
        | n + 1 => s.walkFrom va n (bits e 12 40 * 4096 + 8 * bits va (12 + 9 * n) 9)

/-- A fresh walk of a context's tables (R207). -/
def State.walk (s : State) (n va : Nat) : WalkRes :=
  s.walkFrom va 3 ((s.ctx n).ptroot.toNat + 4096 * bits va 48 8 + 8 * bits va 39 9)

/-- The tables that a walk passes through below the root, from a table entry at level `lvl` on (R207): the level and the base of each. -/
def State.walkPath (s : State) (va : Nat) : Nat → Nat → List (Nat × Nat)
  | 0, _ => []
  | n + 1, ea =>
    let e := s.read64 ea
    if bit e 0 && !bit e 1 && !entryBad (n + 1) e then
      let base := bits e 12 40 * 4096
      (n, base) :: s.walkPath va n (base + 8 * bits va (12 + 9 * n) 9)
    else []

/-- The first address, and the size, that a table at a level serves for an address (R207). -/
def tableSpan (lvl va : Nat) : Nat × Nat :=
  let size := 2 ^ (21 + 9 * lvl)
  (va / size * size, size)

/-- The leaves that the translation caches give for an address (R213): those they hold, and those that a walk finds through a table
entry in the walkers' cache. -/
def State.cached (s : State) (n va : Nat) : List WalkRes :=
  let pasid := (s.ctx n).pasid
  (s.tlb.filter fun t => t.pasid == pasid && t.va ≤ va && va < t.va + t.leaf.size).map (fun t => .leaf t.leaf) ++
  ((s.wcache.filter fun w => w.pasid == pasid && w.va == (tableSpan w.lvl va).1).map fun w =>
    s.walkFrom va w.lvl (w.table + 8 * bits va (12 + 9 * w.lvl) 9)).filter fun r => match r with
      | .leaf _ => true
      | _ => false

/-- The guest's walks of a page that are in flight (R214). -/
def State.flying (s : State) (n va : Nat) : List GuestReq :=
  s.walks.filter fun r => r.pasid == (s.ctx n).pasid && r.va / 4096 == va / 4096

/-- What the walks of a page that are in flight may have found (R214): the guest's, and those of cores and engines. -/
def State.inFlight (s : State) (n va : Nat) : List WalkRes :=
  let guest : List WalkRes := (s.flying n va).map fun r => r.first
  let own : List WalkRes := (s.misses.filter fun m => m.pasid == (s.ctx n).pasid && m.page == va / 4096).map fun m => .notPresent m.lvl
  (guest ++ own).filter fun r => match r with
    | .held _ => false
    | _ => true

/-- What a walk of a page finds that ends now (R207); one that another miss has joined already ends with the result which that one
took (R214). -/
def State.walkNow (s : State) (n va : Nat) : WalkRes :=
  match (s.flying n va).find? (·.pinned) with
  | some r => r.first
  | none => s.walk n va

/-- The result of a translation: the walk that ends now, a cached leaf that differs from it, which any access may use until a shootdown
(R215, R224), or what a walk in flight that the miss joins has found (R214; log entry 16). `k` numbers the choice within the step. -/
def State.lookup (s : State) (n va k : Nat) : WalkRes :=
  let fresh := s.walkNow n va
  match (s.cached n va ++ s.inFlight n va).filter (· != fresh) with
  | [] => fresh
  | l :: ls => if Config.freeBool s.fresh k then (l :: ls).getD ((s.free k).toNat % (ls.length + 1)) l else fresh

/-- Enter new entries at the head of a cache. -/
def enter {α : Type} [DecidableEq α] (new old : List α) : List α := new.filter (fun x => !old.contains x) ++ old

/-- A miss has taken a leaf: the walks of its page that are in flight end with it (R214). -/
def State.tookLeaf (s : State) (n va : Nat) (l : Leaf) : State :=
  let mine := fun (r : GuestReq) => r.pasid == (s.ctx n).pasid && r.va / 4096 == va / 4096
  { (s.walkOver (s.ctx n).pasid (va / 4096)) with
    walks := s.walks.map fun r => if mine r && !r.pinned then { r with first := .leaf l, pinned := true } else r }

/-- Keep a translation in the caches (R213): the leaf, and the tables that a walk of its address passes through. Where it was no hit, the
miss has joined the walks of the page that are in flight (R214). -/
def State.cacheLeaf (s : State) (n va : Nat) (l : Leaf) : State :=
  let pasid := (s.ctx n).pasid
  let path := s.walkPath va 3 ((s.ctx n).ptroot.toNat + 4096 * bits va 48 8 + 8 * bits va 39 9)
  let s := if (s.cached n va).contains (.leaf l) then s else s.tookLeaf n va l
  { s with
    tlb := enter [{ pasid, va := va / l.size * l.size, leaf := l }] s.tlb
    wcache := enter (path.map fun (lvl, table) => { pasid, lvl, va := (tableSpan lvl va).1, table }) s.wcache }

/-- How an access at a virtual address ends. -/
inductive XRes where
  | ok (pl : Place) (l : Leaf)
  | notPresent (lvl : Nat)
  | ats (addr : Nat)
  | fail (c : Cause) (faddr : Nat)
  | hold (p : Place)
deriving DecidableEq, Repr

/-- The state of the sinter frame of a leaf (R226). -/
def State.sinterOf (s : State) (l : Leaf) : Option Sinter := sget none s.sinter l.base

/-- The checks of R208, R210, R211 and R226 on a leaf; the first failing one decides. -/
def State.leafFails (s : State) (l : Leaf) (kind : AccKind) (n va : Nat) : Option Cause :=
  let wr : Option Cause := if l.w then none else some .prot
  match l.cls.toNat with
  | 0 =>
    match kind with
    | .read => none
    | .write | .atomic => wr
    | .append => some .prot
    | .fetch => if l.x then none else some .prot
  | 1 =>
    if !s.feature 8 || (l.size != 65536 && l.size != 2097152) || (s.sinterOf l).isNone then some .prot
    else
      match kind with
      | .read => none
      | .write | .atomic => some .wseal
      | .append => wr
      | .fetch => some .prot
  | 2 =>
    match kind with
    | .read => if (n = 4 || n = 8) && va % n = 0 then none else some .prot
    | .write => if (n = 4 || n = 8) && va % n = 0 then wr else some .prot
    | _ => some .prot
  | _ =>
    if !s.feature 0 then some .prot
    else
      match kind with
      | .read => none
      | .write | .atomic => wr
      | _ => some .prot

/-- The place of a virtual address under a leaf. -/
def State.placeOf (s : State) (ctx : Nat) (l : Leaf) (va : Nat) : Option Place :=
  let a := l.base + va % l.size
  match l.cls.toNat with
  | 2 => some (.port a)
  | 3 =>
    if l.ats then
      (s.atsCache.find? fun e => e.pasid == (s.ctx ctx).pasid && e.addr == a / 4096 * 4096).map fun e => .host (e.hpa + a % 4096)
    else some (.host a)
  | _ => some (.dev a)

/-- Translate and check an access of n bytes at a virtual address in context `ctx` (R206 to R212). -/
def State.translate (s : State) (ctx va n : Nat) (kind : AccKind) (k : Nat) : XRes :=
  match s.lookup ctx va k with
  | .notPresent lvl => .notPresent lvl
  | .prot => .fail .prot va
  | .poison d => .fail .poison d
  | .held d => .hold (.dev d)
  | .leaf l =>
    match s.leafFails l kind n va with
    | some c => .fail c va
    | none =>
      match s.placeOf ctx l va with
      | some pl => .ok pl l
      | none => .ats ((l.base + va % l.size) / 4096 * 4096)

/-- The places to which the pages of a context map the n bytes at a virtual address, each with its length. -/
def State.mapped (s : State) (ctx va n : Nat) : List (Place × Nat) :=
  (List.range ((va + n + 4095) / 4096 - va / 4096)).filterMap fun i =>
    let lo := max va ((va / 4096 + i) * 4096)
    let hi := min (va + n) ((va / 4096 + i + 1) * 4096)
    match s.walk ctx lo with
    | .leaf lf => (s.placeOf ctx lf lo).map fun p => (p, hi - lo)
    | _ => none

/-- The offset of a place from another in the same space. -/
def Place.off : Place → Nat
  | .dev a | .host a | .port a | .loc _ a => a

/-- Whether n bytes at one place and m bytes at another meet in device or host memory. -/
def Place.meets (p : Place) (n : Nat) (q : Place) (m : Nat) : Bool :=
  match p, q with
  | .dev a, .dev b | .host a, .host b => overlaps a n b m
  | _, _ => false

/-- The region of a guest queue (R67). -/
def State.queueRegion (s : State) (g : GuestQ) : List (Place × Nat) :=
  s.mapped g.ctx.toNat g.gqva.toNat (128 + 64 * 2 ^ g.sz.toNat)

/-- A program's write of n bytes at a place makes the later packets of an enabled queue undefined whose region it meets (R67; log
entry 81). -/
def State.tear (s : State) (p : Place) (n : Nat) : State :=
  let hit := fun (g : GuestQ) => g.en && (s.queueRegion g).any fun (q, m) => p.meets n q m
  if s.adit.gqs.any fun (_, g) => hit g then
    { s with adit := { s.adit with gqs := s.adit.gqs.map fun (q, g) => (q, if hit g then { g with torn := true } else g) } }
  else s

/-- A write that a program makes (R67, R238). -/
def State.progWrite (s : State) (die : Nat) (p : Place) (bs : List Byte) : State := (s.tear p bs.length).placeWrite die p bs

/-- The window of a generic address (R203). -/
inductive Win where
  | global (va : Nat)
  | loc (block off : Nat)
  | bad
deriving DecidableEq, Repr

/-- The window in which the n bytes at an address lie, for a thread (R107, R203 to R205). -/
def State.window (s : State) (k l : Nat) (ea : DWord) (n : Nat) : Win :=
  let top := (ea.extractLsb' 56 8).toNat
  let off := (ea.extractLsb' 0 56).toNat
  let c := s.crew k
  if top = 0 then (if off + n ≤ 2 ^ 56 then .global off else .bad)
  else if top = 0xFE then
    match s.block c.block with
    | some b => if off + n ≤ b.cores.length * b.lb then .loc c.block off else .bad
    | none => .bad
  else if top = 0xFD then
    let r := s.recOf k
    if off + n ≤ r.stack then
      let g := (r.stackbase.toNat + r.stack * (16384 * lcNum k + 64 * slotOf k + l) + off) % 2 ^ 64
      if g < 2 ^ 56 then .global g else .bad
    else .bad
  else .bad

/-- A thread's access: it goes ahead, or it takes a cause, which for a replayable fault names the record to open, or its walk is held
(R225). -/
inductive Acc where
  | ok (h : Hit)
  | no (t : Taken) (r : Option FaultRec) (ats : Option (Nat × FaultRec))
  | hold (p : Place)
deriving DecidableEq, Repr

/-- The writes of a watch register that an access of a thread may miss (R381): those after the last one that it must see, which its
own pulse made or which is 1,000 ticks old. `ws` is in the order of the writes. -/
def missable (tick crew lane : Nat) (ws : List WatchWrite) : List WatchWrite :=
  ws.foldl (fun acc w => if tick < w.tick + 1000 && !(w.crew == crew && w.lanes.getLsbD lane) then acc ++ [w] else []) []

/-- A value of a watch register as an access of a thread at an address sees it (R381): of the writes that it may miss, the value
before any of them, or the newest value. -/
def State.watchReg (s : State) (n reg crew lane : Nat) (ea : DWord) : DWord :=
  let c := s.ctx n
  let vals := (missable s.tick crew lane (c.watchOld.filter (·.reg == reg))).map (·.old)
  let new := sget 0 c.watch reg
  if vals.isEmpty then new else vals.getD ((s.free (2 ^ 50 + 256 * ea.toNat + 64 * reg + lane)).toNat % (vals.length + 1)) new

/-- Whether a watchpoint matches an access (R381). -/
def State.watchHit (s : State) (k lane : Nat) (ea : DWord) (n : Nat) (isWrite : Bool) : Bool :=
  if ((s.crew k).lane lane).wpSkip then false
  else
    (List.range 2).any fun w =>
      let ctl := (s.watchReg (ctxOf k) (2 * w + 1) k lane ea).toNat
      let mode := bits ctl 0 2
      let lg := max 2 (min 20 (bits ctl 2 5))
      let base := (s.watchReg (ctxOf k) (2 * w) k lane ea).toNat / 2 ^ lg * 2 ^ lg
      (if isWrite then bit mode 0 else bit mode 1) && overlaps ea.toNat n base (2 ^ lg)

/-- The fault record that a thread's access opens or joins (R217, R220). -/
def faultRecOf (k l : Nat) (ea pc : DWord) (va lvl : Nat) (kind : AccKind) : FaultRec :=
  let wr := kind != .read && kind != .fetch
  { va := va / 4096 * 4096, write := wr, acc := if kind = .fetch then 2 else if wr then 1 else 0, src := 0,
    level := BitVec.ofNat 2 lvl, lcore := BitVec.ofNat 7 (lcNum k), unit := BitVec.ofNat 8 (slotOf k),
    tid := BitVec.ofNat 6 l, ea, pc }

/-- The key under which an agent waits for an ATS answer (R212). -/
def atsKey (addr : Nat) : Nat × Bool := (2 ^ 64 + addr, false)

/-- One thread's access of n bytes, aligned to `align` (R289's order: window, alignment, translation, permission), then
the watchpoints (R381). -/
def State.access (s : State) (k l : Nat) (pc ea : DWord) (n align : Nat) (kind : AccKind) : Acc :=
  let wr := kind != .read && kind != .fetch
  let fail := fun (c : Cause) (faddr : Nat) =>
    Acc.no { lane := l, cause := c, addr := ea, faddr := if c = .poison then some (BitVec.ofNat 64 faddr) else none } none none
  let watch := fun (h : Hit) =>
    if s.watchHit k l ea n wr then Acc.no { lane := l, cause := .watch, addr := ea } none none else .ok h
  match s.window k l ea n with
  | .bad => fail .aperture 0
  | .loc b off =>
    if kind = .append then fail .aperture 0
    else if ea.toNat % align != 0 then fail .misalign 0
    else watch { pl := .loc b off }
  | .global va =>
    if ea.toNat % align != 0 then fail .misalign 0
    else
      match s.translate (ctxOf k) va n kind l with
      | .ok pl lf => watch { pl, leaf := some lf, va }
      | .notPresent lvl =>
        let r := faultRecOf k l ea pc va lvl kind
        .no { lane := l, cause := .xfault, addr := ea, park := (r.va, r.write) } (some r) none
      | .ats a =>
        .no { lane := l, cause := .xfault, addr := ea, park := atsKey a } none (some (a, faultRecOf k l ea pc va 0 kind))
      | .fail c d => fail c d
      | .hold q => .hold q

/-- Whether a place is a device register of a peer (R211). -/
def Place.isPort : Place → Bool
  | .port _ => true
  | _ => false

/-- A byte of a place under a leaf: an open or sealed sinter page reads zero at and above TAIL (R228, R230). -/
def State.leafByte (s : State) (h : Hit) (i : Nat) : Byte :=
  match h.leaf with
  | some l =>
    if l.cls = 1 then
      match s.sinterOf l with
      | some x => if h.va % l.size + i < x.tail then s.placeByte (h.pl.add i) else 0
      | none => 0
    else s.placeByte (h.pl.add i)
  | none => s.placeByte (h.pl.add i)

/-- Whether a store at place p of n bytes covers the byte at place q; a device register is never served from a queue (R211). -/
def covers (p : Place) (n : Nat) (q : Place) : Bool :=
  match p, q with
  | .dev a, .dev b | .host a, .host b => a ≤ b && b < a + n
  | .loc x a, .loc y b => x == y && a ≤ b && b < a + n
  | _, _ => false

/-- The newest value of a byte in a crew's own store queue (R238). -/
def forwarded (q : List QEntry) (pl : Place) : Option Byte :=
  q.foldl (fun v e => match e.op with
    | .store p bs => if covers p bs.length pl then some (bs.getD (pl.off - p.off) 0) else v
    | _ => v) none

/-- Whether an entry of the queue writes the whole word at a place. -/
def forwardsWord (q : List QEntry) (pl : Place) : Bool :=
  q.any fun e => match e.op with
    | .store p bs => (List.range 4).all fun i => covers p bs.length (pl.add i)
    | _ => false

/-- Whether byte i of an access returns a poisoned word (R228, R254). -/
def State.hitPois (s : State) (h : Hit) (i : Nat) : Bool :=
  s.placePois (h.pl.add i) &&
    (match h.leaf with
      | some l => l.cls != 1 || (match s.sinterOf l with
          | some x => decide (h.va % l.size + i < x.tail)
          | none => false)
      | none => true)

/-- The place of the word that holds a byte. -/
def Place.wordBase : Place → Place
  | .dev a => .dev (a / 4 * 4)
  | .host a => .host (a / 4 * 4)
  | .loc b a => .loc b (a / 4 * 4)
  | .port a => .port (a / 4 * 4)

/-- The n bytes a thread's load returns (R238, R352): from its crew's queue where it holds them, else from memory. -/
def State.loadBytes (s : State) (k : Nat) (h : Hit) (n : Nat) : List Byte :=
  (List.range n).map fun i => (forwarded (s.crew k).queue (h.pl.add i)).getD (s.leafByte h i)

/-- The offset of the first poisoned word that a load reads (R254, R255). -/
def State.loadPoison (s : State) (k : Nat) (h : Hit) (n : Nat) : Option Nat :=
  (List.range n).find? fun i => s.hitPois h i && !forwardsWord (s.crew k).queue ((h.pl.add i).wordBase)

/-- Whether a wait on a word is external (R58): a host page, or an enabled signalling window. -/
def State.external (s : State) (p : Place) : Bool :=
  match p with
  | .host _ => true
  | .port _ | .loc _ _ => false
  | .dev a =>
    (List.range 8).any fun k =>
      let b := (sget 0 s.link.extB k).toNat
      let l := (sget 0 s.link.extL k).toNat
      bit b 0 && bits b 7 32 * 128 ≤ a && a < bits l 7 32 * 128

end Sys2Proof.Machine
end

