-- ==== Sys2Proof/Machine/Fetch.lean ====
section
/-! DEFINITION. Fetching an instruction word (R291, R412) and the walk that finds the header of a clause (R290). -/

namespace Sys2Proof.Machine

/-- How a fetch ends: the word, a page that is not present, a host page to ask for, a cause with its address, or a wait while the swap
engine exchanges the frame (R225). -/
inductive FetchRes where
  | ok (w : Word)
  | absent (va lvl : Nat)
  | ats (addr : Nat)
  | fail (c : Cause) (faddr : DWord)
  | wait
deriving DecidableEq, Repr

/-- Device memory as a write of DBGCTL finds it (R415). -/
def State.codeSnap (s : State) : CodeSnap := { mem := s.mem, undef := s.undef, poison := s.poison, deadWay := s.link.deadWay }

/-- The memory from which a crew fetches a word of device memory: that of its last DBGCTL write, until it has fetched the word (R415). -/
def State.codeView (s : State) (v : Option CodeSnap) (pl : Place) : State :=
  match v, pl with
  | some c, .dev d =>
    if c.seen.contains (d / 4) then s
    else { s with mem := c.mem, undef := c.undef, poison := c.poison, link := { s.link with deadWay := c.deadWay } }
  | _, _ => s

/-- The word at an address, for the threads of context n (R206, R291), of a crew that fetches as `v` says (R415). -/
def State.fetch (s : State) (n : Nat) (a : DWord) (v : Option CodeSnap := none) : FetchRes :=
  if a.extractLsb' 56 8 != 0 then .fail .aperture a
  else
    match s.translate n a.toNat 4 .fetch (4096 + a.toNat / 4 % 16) with
    | .ok pl _ =>
      let m := s.codeView v pl
      if s.swapping pl then .wait else if m.placePois pl then .fail .poison a else .ok (bytesToWord (m.placeRead pl 4))
    | .notPresent lvl => .absent a.toNat lvl
    | .ats x => .ats x
    | .hold _ => .wait
    | .fail c d => .fail c (if c = .poison then BitVec.ofNat 64 d else a)

/-- A translation that a fetch took stays in the caches (R213). -/
def State.cacheFetch (s : State) (n : Nat) (a : DWord) : State :=
  match s.translate n a.toNat 4 .fetch (4096 + a.toNat / 4 % 16) with
  | .ok _ l => s.cacheLeaf n a.toNat l
  | _ => s

/-- How the walk of R290 ends; it stops at an address whose fetch fails. -/
inductive HdrRes where
  | at (q : DWord)
  | illegal
  | stop (q : DWord) (f : FetchRes)
deriving DecidableEq, Repr

/-- The walk from clause to clause inside a 64-byte block (R290). -/
def State.findHdr (s : State) (n : Nat) (p : DWord) (v : Option CodeSnap) : Nat → DWord → HdrRes
  | 0, _ => .illegal
  | fuel + 1, q =>
    match s.fetch n q v with
    | .ok hd =>
      if hdrN hd = 0 || hdrClass hd = 7 || hd.extractLsb' 0 16 != 0 then .illegal
      else if p.toNat ≤ q.toNat + 4 * hdrN hd then .at q
      else
        let q' := q + BitVec.ofNat 64 (4 * (hdrN hd + 1))
        if p.toNat / 64 * 64 + 64 ≤ q'.toNat then .illegal else s.findHdr n p v fuel q'
    | f => .stop q f

/-- The header of the clause that holds an address (R290). -/
def State.headerOf (s : State) (n : Nat) (p : DWord) (v : Option CodeSnap := none) : HdrRes :=
  s.findHdr n p v 16 (BitVec.ofNat 64 (p.toNat / 64 * 64))

/-- The words of a 64-byte block that the walk of R290 fetches from an address on, and those of the clause it ends at. -/
def State.walkWords (s : State) (n : Nat) (p : DWord) (v : Option CodeSnap) : Nat → DWord → List DWord
  | 0, _ => []
  | fuel + 1, q =>
    match s.fetch n q v with
    | .ok hd =>
      if p.toNat ≤ q.toNat + 4 * hdrN hd then (List.range (hdrN hd + 1)).map fun i => q + BitVec.ofNat 64 (4 * i)
      else q :: s.walkWords n p v fuel (q + BitVec.ofNat 64 (4 * (hdrN hd + 1)))
    | _ => [q]

/-- Crew k has fetched words (R415): what its next fetches of them return is no longer fixed. `t` is the state before. -/
def State.sawCode (s t : State) (k : Nat) (as : List DWord) : State :=
  if (s.crew k).code.isNone then s
  else
    let ws := as.filterMap fun a => match t.translate (ctxOf k) a.toNat 4 .fetch (4096 + a.toNat / 4 % 16) with
      | .ok (.dev d) _ => some (d / 4)
      | _ => none
    s.modCrew k fun c => { c with code := c.code.map fun v => { v with seen := v.seen ++ ws } }

end Sys2Proof.Machine
end

