-- ==== Sys2Proof/Machine/Operands.lean ====
section
/-! DEFINITION. Reading and writing operands (R148, R153, R285 to R287), the checks a word meets when the pulse reaches
it (R289, R295), and the shape every register instruction shares (R317). -/

namespace Sys2Proof.Machine

/-- The constants of codes 0xE4 to 0xEF (R285). -/
def constOf (x : BitVec 8) : Word :=
  match x.toNat with
  | 0xE4 => 0x00000000
  | 0xE5 => 0x00000001
  | 0xE6 => 0x00000002
  | 0xE7 => 0xFFFFFFFF
  | 0xE8 => 0x3F000000
  | 0xE9 => 0x3F800000
  | 0xEA => 0x40000000
  | 0xEB => 0xBF800000
  | 0xEC => 0x7F800000
  | 0xED => 0x7FC00000
  | 0xEE => 0x7FFFFFFF
  | _ => 0x80000000

/-- v-register j of lane l. -/
def Crew.vreg (c : Crew) (j l : Nat) : Word := sget 0 c.v (64 * j + l)
/-- s-register j. -/
def Crew.sreg (c : Crew) (j : Nat) : Word := sget 0 c.s j
/-- The number of the s-register with this code. -/
def sNum (x : BitVec 8) : Nat := x.toNat - 0x80

/-- Whether a lane holds a thread, so that it is no helper (R153). -/
def Lane.present (x : Lane) : Bool :=
  match x.st with
  | .live | .blocked | .parked => true
  | _ => false

/-- The value of a thread special in lane l of crew k (R153). -/
def State.special (s : State) (k l : Nat) (x : BitVec 8) : Word :=
  let c := s.crew k
  let ln := c.lane l
  let b := s.block c.block
  match x.toNat with
  | 0xF0 => BitVec.ofNat 32 l
  | 0xF1 => BitVec.ofNat 32 (l / 4)
  | 0xF2 => if ln.present then ln.item.extractLsb' 0 32 else 0
  | 0xF3 => if ln.present then (ln.item.extractLsb' 32 16).setWidth 32 else 0
  | 0xF4 => BitVec.ofNat 32 (slotOf k)
  | 0xF5 => BitVec.ofNat 32 ((b.map (·.id)).getD 0)
  | 0xF6 => BitVec.ofNat 32 ((b.map (·.rank)).getD 0)
  | _ => if ln.present then ln.age.setWidth 32 else 0

/-- Latch i of lane l: what was pushed in this clause, or a free value (R287). -/
def State.latch (s : State) (k l i : Nat) : Word :=
  match (sget [] (s.crew k).lat l)[i]? with
  | some x => x
  | none => s.free (4 * l + i)

/-- The 32-bit value of a source code in lane l of crew k (R285). -/
def State.src (s : State) (k l : Nat) (x : BitVec 8) : Word :=
  if isV x then (s.crew k).vreg x.toNat l
  else if isS x then (s.crew k).sreg (sNum x)
  else if isLatch x then s.latch k l (x.toNat - 0xE0)
  else if isConst x then constOf x
  else s.special k l x

/-- The register i places after the one that a code names. -/
def regAt (x : BitVec 8) (i : Nat) : BitVec 8 := x + BitVec.ofNat 8 i

/-- The register that movhi writes: the second of the pair for h 2 and 3 (R326). -/
def movhiDest (f : FmtK) : BitVec 8 := if f.h.toNat < 2 then f.d else regAt f.d 1

/-- The 64-bit value of a source code: a register pair, or the 32-bit value zero-extended (R285, R328). -/
def State.src64 (s : State) (k l : Nat) (x : BitVec 8) : DWord :=
  if isV x || isS x then pair (s.src k l x) (s.src k l (regAt x 1)) else (s.src k l x).setWidth 64

/-- Write a v- or s-register; what is written is not poisoned (R255). -/
def Crew.put (c : Crew) (l : Nat) (x : BitVec 8) (w : Word) : Crew :=
  if isV x then
    { c with v := sset 0 c.v (64 * x.toNat + l) w, vPois := sset false c.vPois (64 * x.toNat + l) false }
  else { c with s := sset 0 c.s (sNum x) w, sPois := sset false c.sPois (sNum x) false }

/-- Write consecutive registers, the first word in the register named. -/
def Crew.putAll (c : Crew) (l : Nat) (x : BitVec 8) : List Word → Crew
  | [] => c
  | w :: ws => (c.put l x w).putAll l (regAt x 1) ws

/-- Push into b0 of a lane (R287). -/
def Crew.push (c : Crew) (l : Nat) (w : Word) : Crew :=
  { c with lat := sset [] c.lat l ((w :: sget [] c.lat l).take 4) }

/-- A mask; m14 is P, m15 the present threads (R149). -/
def State.mask (s : State) (p : Pulse) (i : Nat) : LaneSet :=
  if i = 14 then p.part else if i = 15 then (s.crew p.crew).present else sget 0 (s.crew p.crew).m i

/-- Whether a source register is poisoned in lane l (R255). -/
def Crew.poisoned (c : Crew) (l : Nat) (x : BitVec 8) (n : Nat) : Bool :=
  (List.range n).any fun i =>
    let y := regAt x i
    if isV x then sget false c.vPois (64 * y.toNat + l) else if isS x then sget false c.sPois (sNum y) else false

/-- The lanes that compute: P and its helpers. -/
def Pulse.computing (p : Pulse) : List Nat := lanesOf (p.part ||| p.helpers)

/-! ## Checks at a word -/

/-- The feature bits of FEATACK that an instruction needs (R94, R307). -/
def needsFeature : Instr → List Nat
  | .redAddX _ _ | .xflush _ _ => [7]
  | .append _ _ | .sealPage _ _ => [8]
  | .ceBuild _ | .ceLookup _ | .ceDown _ | .ceProbe _ => [9]
  | .gqSubmit _ => [2]
  | .ecBind f => if f.flags == 4 then [2] else []
  | .launch _ => [5]
  | .dbgHalt _ => [12]
  | _ => []

/-- Words that must stand last in the body of a clause without a T word (R368). -/
def mustBeLast : Instr → Bool
  | .barWait _ | .gbar _ | .waitcAny _ _ | .waitcAll _ _ | .mwait _ | .regroup _ | .trapret _ => true
  | _ => false

/-- Whether the word is a refill. -/
def isRefill : Instr → Bool
  | .refill _ => true
  | _ => false

/-- The format slots of a grid, slot 0 unusable where an instruction names a slot (R106, R336). -/
def LaunchRec.slot (r : LaunchRec) (i : Nat) : Word := r.slots.getD i 0

/-- ELEM of a format slot. -/
def slotElem (x : Word) : Nat := (x.extractLsb' 0 4).toNat
/-- SCALE of a format slot. -/
def slotScale (x : Word) : Nat := (x.extractLsb' 4 3).toNat
/-- OVF of a format slot: infinite rather than saturating. -/
def slotOvf (x : Word) : Bool := x.getLsbD 7
/-- RND of a format slot. -/
def slotRnd (x : Word) : Nat := (x.extractLsb' 8 3).toNat
/-- SREG of a format slot. -/
def slotSreg (x : Word) : Nat := (x.extractLsb' 11 7).toNat
/-- NANP of a format slot. -/
def slotNanp (x : Word) : Nat := (x.extractLsb' 18 2).toNat

/-- Reasons that depend on the grid's format slots (R336, R338). -/
def slotReasons (r : LaunchRec) (narrow : Bool) : Instr → List Nat
  | .fcvt f =>
    let x := r.slot (f.imm.extractLsb' 0 3).toNat
    need 13 (x != 0 && !(f.imm.getLsbD 3 && slotElem x == 1)) ++
      (if slotRnd x == 4 then need 9 (!isS f.d) ++ need 10 (slotSreg x < r.vregs) else [])
  | .dp4 _ lit =>
    let x := r.slot (lit.extractLsb' 8 3).toNat
    let four := slotElem x == 8 || slotElem x == 10
    need 13 four ++ need 12 (narrow || !four)
  | .dp8 _ lit =>
    let x := r.slot (lit.extractLsb' 8 3).toNat
    need 13 (slotElem x == 4 || slotElem x == 5 || slotElem x == 9)
  | _ => []

/-- The ILLEGAL reasons a word earns where the pulse reaches it (R149, R286, R289, R295, R307, R368). -/
def State.reasons (s : State) (p : Pulse) (i : Instr) : List Nat :=
  let r := s.recOf p.crew
  textReasons i ++
    need 10 ((regBlocks i).all fun (x, n) =>
      (!isV x || x.toNat + n ≤ min r.vregs 0x80) && (!isS x || x.toNat + n ≤ 0xE0)) ++
    need 12 ((needsFeature i).all s.feature) ++
    need 11 (!mustBeLast i || (p.todo.isEmpty && !hdrT p.hd)) ++
    need 11 (!(isRefill i && p.refilled)) ++
    slotReasons r (s.feature 10) i

/-- Register blocks that the instruction reads, by code and length; a prefetch and a cache operation never raise POISON
(R255). -/
def readBlocks (i : Instr) : List (BitVec 8 × Nat) :=
  match i with
  | .bfi _ | .pk _ | .cmpEq _ | .cmpNe _ | .cmpLt _ | .cmpLe _ | .cmpGt _ | .cmpGe _ | .fcmpEq _ | .fcmpNe _
  | .fcmpLt _ | .fcmpLe _ | .fcmpGt _ | .fcmpGe _ | .stN8 _ _ | .stN16 _ _ | .stW32 _ _ | .stW64 _ _
  | .stW128 _ _ | .stb _ _ | .stbMark _ _ | .amoAdd _ _ | .amoMin _ _ | .amoMax _ _ | .amoAnd _ _
  | .amoOr _ _ | .amoXor _ _ | .amoExch _ _ | .amoCas _ _ _ | .redAddI _ _ | .redAddF32 _ _ | .redAddX _ _
  | .redMin _ _ | .redMax _ _ | .redAnd _ _ | .redOr _ _ | .redXor _ _ | .append _ _ | .swr _ | .barWait _
  | .mwatch _ | .switch _ _ | .ret _ | .callr _ => regBlocks i
  | .movi _ | .srd _ | .barArrive _ | .refill _ | .call _ | .prefetch _ _ | .cwb _ _ | .cinv _ _ => []
  | .movhi f => [(movhiDest f, 1)]
  | .rngSkip f => [(regAt f.a 4, 4), (f.b, 4)]
  | .tset f => [(BitVec.ofNat 8 (0x80 + (f.flags.extractLsb' 0 7).toNat), 4)]
  | .gxRun f | .ceBuild f | .ceLookup f | .ceDown f | .ceProbe f | .seGather f | .seIsect f | .seCopy f | .seMcast f
  | .gqSubmit f => [(f.a, 2)]
  | .ecBind f => if f.flags == 4 then [(f.a, 1)] else []
  | .barInit f | .evcSel f | .regroup f | .dbg f | .dbgHalt f => [(f.b, 1)]
  | .tld f _ => [(f.a, 2)]
  | .tst f _ => [(f.a, 2), (f.x, 1)]
  | .tldWin f lit => [(f.a, 2), (lit.extractLsb' 8 8, 1)]
  | _ => (regBlocks i).tail

/-- The destination of a class 0 or class 1 instruction that pushes its result (R287). -/
def pushDest : Instr → Option (BitVec 8)
  | .add f | .sub f | .mul f | .mulhi f | .mad f _ | .min f | .max f | .abs f | .neg f | .and f | .or f | .xor f | .andn f
  | .shl f | .shr f | .sar f | .rot f | .clz f | .popc f | .brev f | .sel f _ | .mov f | .lea f | .add64 f | .sub64 f
  | .mulw f | .shfl f | .vote f | .popm f | .elect f | .matchLow f | .credInt f | .cscanInt f | .csredInt f _ | .rngStep f
  | .fadd f | .fsub f | .fmul f | .ffma f _ | .fmin f | .fmax f | .frcp f | .frsq f | .fsqrt f | .fdiv f | .fexp2 f
  | .flog2 f | .fsin f | .fcos f | .i2f f | .f2i f | .fscale f | .dp4 f _ | .dp8 f _ | .credFloat f | .cscanFloat f
  | .csredFloat f _ => some f.d
  | .bfx f | .bfi f | .ext f | .qxch f | .fround f | .fcvt f | .pk f | .upk f => some f.d
  | .movi f => some f.d
  | .movhi f => some (movhiDest f)
  | _ => none

/-- The lane from which shfl takes the value of lane l (R340). -/
def shflLane (xor : Bool) (l : Nat) (b : Word) : Nat := if xor then l ^^^ (b.toNat % 64) else b.toNat % 64

/-- The lane from which qxch takes its value (R341). -/
def qxchLane (l k : Nat) : Nat := l ^^^ (k + 1)

/-- The v-register that supplies the random bits of a stochastic conversion (R336). -/
def randomBlocks (r : LaunchRec) (i : Instr) : List (BitVec 8 × Nat) :=
  match i with
  | .fcvt f =>
    let x := r.slot (f.imm.extractLsb' 0 3).toNat
    if !f.imm.getLsbD 3 && slotRnd x == 4 then [(BitVec.ofNat 8 (slotSreg x), 1)] else []
  | _ => []

/-- Whether an instruction reads a poisoned register for lane l (R255): shfl and qxch read the lane that their operand names (R319). -/
def State.readsPoison (s : State) (p : Pulse) (i : Instr) (l : Nat) : Bool :=
  let c := s.crew p.crew
  match i with
  | .shfl f =>
    let u := shflLane (f.v == 1) l (s.src p.crew l f.b)
    c.poisoned l f.b 1 || ((c.lane u).present && c.poisoned u f.a 1)
  | .qxch f =>
    let u := qxchLane l (f.imm.extractLsb' 0 2).toNat
    ((p.part ||| p.helpers).getLsbD u || (c.lane u).present) && c.poisoned u f.a 1
  | _ => (readBlocks i ++ randomBlocks (s.recOf p.crew) i).any fun (x, n) => c.poisoned l x n

/-- The threads of P that read a poisoned register (R255): FADDR is zero. -/
def State.poisonTaken (s : State) (p : Pulse) (i : Instr) : List Taken :=
  ((lanesOf p.part).filter (s.readsPoison p i)).map fun l => { lane := l, cause := .poison }

/-- Whether a word is a crew-wide operation that passes helpers over (R165, R339). -/
def passesHelpers : Instr → Bool
  | .shfl _ | .vote _ | .popm _ | .elect _ | .matchLow _ | .credInt _ | .cscanInt _ | .csredInt _ _ | .credFloat _
  | .cscanFloat _ | .csredFloat _ _ => true
  | _ => false

/-- Whether a word writes the destination of its result: W of format A (R317). -/
def writesResult : Instr → Bool
  | .add f | .sub f | .mul f | .mulhi f | .mad f _ | .min f | .max f | .abs f | .neg f | .and f | .or f | .xor f | .andn f
  | .shl f | .shr f | .sar f | .rot f | .clz f | .popc f | .brev f | .sel f _ | .mov f | .lea f | .add64 f | .sub64 f
  | .mulw f | .rngStep f | .fadd f | .fsub f | .fmul f | .ffma f _ | .fmin f | .fmax f | .frcp f | .frsq f | .fsqrt f
  | .fdiv f | .fexp2 f | .flog2 f | .fsin f | .fcos f | .i2f f | .f2i f | .fscale f | .dp4 f _ | .dp8 f _ => f.w == 1
  | _ => true

/-- The v-registers that a word writes in a helper from what the helper reads (R165). -/
def helperDests (i : Instr) : List (BitVec 8 × Nat) :=
  (if passesHelpers i || !writesResult i then [] else
    match i with
    | .vhop f => [(f.a, 1)]
    | .movhi f => [(movhiDest f, 1)]
    | _ => if (pushDest i).isSome then (regBlocks i).take 1 else []).filter (fun (d, _) => isV d) ++
  match i with
  | .rngStep f | .rngSkip f => [(regAt f.a 4, 4)]
  | _ => []

/-- Whether a helper pushes the result of a word that writes v-registers (R287). -/
def helperPushes (i : Instr) : Bool := !passesHelpers i && (pushDest i).any isV

/-- The undefined words that a helper with a poisoned source writes at a register (R165; log entry 3). -/
def State.helperWords (s : State) (l : Nat) (d : BitVec 8) (n : Nat) : List Word :=
  (List.range n).map fun j => s.free (2 ^ 44 + 256 * l + (d.toNat + j) % 256)

/-- Helpers whose sources are poisoned write undefined values: no fault is raised for them (R165). -/
def State.spoilHelpers (s : State) (p : Pulse) (i : Instr) (ls : List Nat) : State :=
  s.modCrew p.crew fun c => ls.foldl (fun c l =>
    let c := (helperDests i).foldl (fun c (d, n) => c.putAll l d (s.helperWords l d n)) c
    if helperPushes i then
      { c with lat := sset [] c.lat l (listSet (sget [] c.lat l) 0 (((pushDest i).map fun d => s.free (2 ^ 44 + 256 * l + d.toNat)).getD 0)) }
    else c) c

/-- What every instruction word does first (R289): outside a pulse it has no effect; a failed check raises ILLEGAL with
its lowest reason; otherwise the word has its effect. -/
def State.checked (s : State) (i : Instr) (body : State → Pulse → State) : Host.Outcome State Fault Refusal :=
  match s.cur with
  | none => .next s
  | some p =>
    match listMin (s.reasons p i) with
    | some r => .next (s.deliverAll p (.illegal r))
    | none => .next (body s p)

/-- A word that raises no cause behind ILLEGAL and before POISON (R289): a poisoned source raises POISON, before the word has its
effect. -/
def State.word (s : State) (i : Instr) (body : State → Pulse → State) : Host.Outcome State Fault Refusal :=
  s.checked i fun s p =>
    match s.poisonTaken p i with
    | [] =>
      (match (lanesOf p.helpers).filter (s.readsPoison p i) with
        | [] => body s p
        | ls => (body s p).spoilHelpers p i ls)
    | ts => s.deliverAt p ts

/-- The threads of P whose sources are poisoned: each takes POISON where it meets no earlier cause of R289. -/
def State.tainted (s : State) (p : Pulse) (i : Instr) : LaneSet := laneSet ((s.poisonTaken p i).map (·.lane))

/-- A word that may raise causes which come before POISON (R289): its meaning receives the threads that are left to take it. -/
def State.wordLate (s : State) (i : Instr) (body : State → Pulse → LaneSet → State) : Host.Outcome State Fault Refusal :=
  s.checked i fun s p => body s p (s.tainted p i)

/-- Raise sticky flags for the pulse; they reach the status word at its end (R321). -/
def State.raiseFlags (s : State) (p : Pulse) (fl : BitVec 4) : State :=
  { s with cur := some { p with flags := p.flags ||| fl } }

/-- What an instruction computes in one lane: the words of its result, and the flags it raises. -/
structure Result where
  words : List Word
  flags : BitVec 4 := 0
deriving DecidableEq, Repr

/-- A 32-bit result without flags. -/
def Result.w (x : Word) : Result := { words := [x] }
/-- A 64-bit result, low half first. -/
def Result.d (x : DWord) : Result := { words := [loWord x, hiWord x] }

/-- Write the results of an instruction in the listed lanes and push their low words (R287, R317). -/
def Crew.writeResults (c : Crew) (d : BitVec 8) (write : Bool) : List (Nat × Result) → Crew
  | [] => c
  | (l, r) :: rest =>
    let c := if write then c.putAll l d r.words else c
    (c.push l (r.words.headD 0)).writeResults d write rest

/-- The flags of the threads of P among the results. -/
def flagsOf (part : LaneSet) (rs : List (Nat × Result)) : BitVec 4 :=
  rs.foldl (fun a (l, r) => if part.getLsbD l then a ||| r.flags else a) 0

/-- An instruction of class 0 or 1 with a register destination (R317): a vector instruction computes in each thread of
P and each helper; a scalar one once, in the lowest lane of P, and its result is pushed in every computing lane. -/
def State.compute (s : State) (p : Pulse) (d : BitVec 8) (write : Bool) (f : Nat → Result) : State :=
  let ls := p.computing
  if isV d then
    let rs := ls.map fun l => (l, f l)
    (s.setCrew p.crew ((s.crew p.crew).writeResults d write rs)).raiseFlags p (flagsOf p.part rs)
  else
    let r := f (lowLane p.part)
    let c := s.crew p.crew
    let c := if write then c.putAll 0 d r.words else c
    let c := ls.foldl (fun c l => c.push l (r.words.headD 0)) c
    (s.setCrew p.crew c).raiseFlags p r.flags

/-- A compare (R325): the mask bits of the threads of P. -/
def State.compare (s : State) (p : Pulse) (d : BitVec 8) (f : Nat → Bool) : State :=
  let old := s.mask p d.toNat
  let new := laneSet ((lanesOf p.part).filter f)
  s.modCrew p.crew fun c => { c with m := sset 0 c.m d.toNat ((old &&& ~~~p.part) ||| new) }

end Sys2Proof.Machine
end

