-- ==== Sys2Proof/Machine/Int.lean ====
section
/-! DEFINITION. Class 0: integer arithmetic and logic, bit fields, 64-bit operations (R317, R322 to R328), nop and brk
(R305, R413, R414). -/

namespace Sys2Proof.Machine

/-- The outcome of a step of the machine. -/
abbrev Out := Host.Outcome State Fault Refusal

/-- A two-source instruction of format A (R317, R322). -/
def State.alu2 (s : State) (p : Pulse) (f : FmtA) (op : Word → Word → Word) : State :=
  s.compute p f.d (f.w == 1) fun l => .w (op (s.src p.crew l f.a) (s.src p.crew l f.b))

/-- A one-source instruction of format A (R322). -/
def State.alu1 (s : State) (p : Pulse) (f : FmtA) (op : Word → Word) : State :=
  s.compute p f.d (f.w == 1) fun l => .w (op (s.src p.crew l f.a))

/-- A compare of class 0 (R325). -/
def State.cmpOp (s : State) (p : Pulse) (f : FmtA) (op : Word → Word → Bool) : State :=
  s.compare p f.d fun l => op (s.src p.crew l f.a) (s.src p.crew l f.b)

/-- add (R322). -/
def execAdd (f : FmtA) (s : State) : Out := s.word (.add f) fun s p => s.alu2 p f (· + ·)
/-- sub (R322). -/
def execSub (f : FmtA) (s : State) : Out := s.word (.sub f) fun s p => s.alu2 p f (· - ·)
/-- mul (R322). -/
def execMul (f : FmtA) (s : State) : Out := s.word (.mul f) fun s p => s.alu2 p f (· * ·)

/-- The exact product of two words, signed or unsigned, modulo 2^64 (R322, R328). -/
def mulWide (unsigned : Bool) (a b : Word) : DWord :=
  if unsigned then a.setWidth 64 * b.setWidth 64 else a.signExtend 64 * b.signExtend 64

/-- mulhi (R322). -/
def execMulhi (f : FmtA) (s : State) : Out :=
  s.word (.mulhi f) fun s p => s.alu2 p f fun a b => hiWord (mulWide (f.v == 1) a b)

/-- mad (R323). -/
def execMad (f : FmtA) (lit : Word) (s : State) : Out :=
  s.word (.mad f lit) fun s p => s.compute p f.d (f.w == 1) fun l =>
    .w (s.src p.crew l f.a * s.src p.crew l f.b + s.src p.crew l (lit.truncate 8))

/-- Below, signed or unsigned. -/
def below (unsigned : Bool) (a b : Word) : Bool := if unsigned then a.ult b else a.slt b

/-- min (R322). -/
def execMin (f : FmtA) (s : State) : Out :=
  s.word (.min f) fun s p => s.alu2 p f fun a b => if below (f.v == 1) b a then b else a
/-- max (R322). -/
def execMax (f : FmtA) (s : State) : Out :=
  s.word (.max f) fun s p => s.alu2 p f fun a b => if below (f.v == 1) a b then b else a
/-- abs (R322). -/
def execAbs (f : FmtA) (s : State) : Out :=
  s.word (.abs f) fun s p => s.alu1 p f fun a => if a.getLsbD 31 then 0 - a else a
/-- neg (R322). -/
def execNeg (f : FmtA) (s : State) : Out := s.word (.neg f) fun s p => s.alu1 p f fun a => 0 - a
/-- and (R322). -/
def execAnd (f : FmtA) (s : State) : Out := s.word (.and f) fun s p => s.alu2 p f (· &&& ·)
/-- or (R322). -/
def execOr (f : FmtA) (s : State) : Out := s.word (.or f) fun s p => s.alu2 p f (· ||| ·)
/-- xor (R322). -/
def execXor (f : FmtA) (s : State) : Out := s.word (.xor f) fun s p => s.alu2 p f (· ^^^ ·)
/-- andn (R322). -/
def execAndn (f : FmtA) (s : State) : Out := s.word (.andn f) fun s p => s.alu2 p f fun a b => a &&& ~~~b

/-- A shift count: b[7:0] (R322). -/
def shiftN (b : Word) : Nat := (b.extractLsb' 0 8).toNat

/-- shl (R322): 0 from 32 on. -/
def execShl (f : FmtA) (s : State) : Out := s.word (.shl f) fun s p => s.alu2 p f fun a b => a <<< shiftN b
/-- shr (R322): 0 from 32 on. -/
def execShr (f : FmtA) (s : State) : Out := s.word (.shr f) fun s p => s.alu2 p f fun a b => a >>> shiftN b
/-- sar (R322): by min(n, 31). -/
def execSar (f : FmtA) (s : State) : Out :=
  s.word (.sar f) fun s p => s.alu2 p f fun a b => a.sshiftRight (min (shiftN b) 31)
/-- rot (R322): left with V 0, right with V 1, by n mod 32. -/
def execRot (f : FmtA) (s : State) : Out :=
  s.word (.rot f) fun s p => s.alu2 p f fun a b =>
    if f.v == 1 then a.rotateRight (shiftN b % 32) else a.rotateLeft (shiftN b % 32)

/-- The number of one bits (R322). -/
def popCount (a : Word) : Nat := ((List.range 32).filter fun i => a.getLsbD i).length
/-- The number of leading zero bits, 32 for zero (R322). -/
def clz32 (a : Word) : Nat := if a = 0 then 32 else 31 - Nat.log2 a.toNat
/-- The bits in reverse order (R322). -/
def brev32 (a : Word) : Word :=
  (List.range 32).foldl (fun r i => if a.getLsbD i then r ||| (1#32 <<< (31 - i)) else r) 0

/-- clz (R322). -/
def execClz (f : FmtA) (s : State) : Out := s.word (.clz f) fun s p => s.alu1 p f fun a => BitVec.ofNat 32 (clz32 a)
/-- popc (R322). -/
def execPopc (f : FmtA) (s : State) : Out :=
  s.word (.popc f) fun s p => s.alu1 p f fun a => BitVec.ofNat 32 (popCount a)
/-- brev (R322). -/
def execBrev (f : FmtA) (s : State) : Out := s.word (.brev f) fun s p => s.alu1 p f brev32
/-- mov (R322). -/
def execMov (f : FmtA) (s : State) : Out := s.word (.mov f) fun s p => s.alu1 p f id

/-- A mask of the low n bits of a word. -/
def lowMask (n : Nat) : Word := BitVec.ofNat 32 (2 ^ n - 1)

/-- The low w bits of a word, sign- or zero-extended. -/
def extend (signed : Bool) (w : Nat) (a : Word) : Word :=
  let v := a &&& lowMask w
  if signed && a.getLsbD (w - 1) then v ||| ~~~(lowMask w) else v

/-- bfx (R327). -/
def execBfx (f : FmtI) (s : State) : Out :=
  let w := (f.imm.extractLsb' 5 5).toNat + 1
  let p0 := (f.imm.extractLsb' 0 5).toNat
  s.word (.bfx f) fun s p => s.compute p f.d true fun l => .w ((s.src p.crew l f.a >>> p0) &&& lowMask w)

/-- bfi (R327): positions at or above 32 are absent. -/
def execBfi (f : FmtI) (s : State) : Out :=
  let w := (f.imm.extractLsb' 5 5).toNat + 1
  let p0 := (f.imm.extractLsb' 0 5).toNat
  s.word (.bfi f) fun s p => s.compute p f.d true fun l =>
    let m := lowMask w <<< p0
    .w ((s.src p.crew l f.d &&& ~~~m) ||| ((s.src p.crew l f.a <<< p0) &&& m))

/-- ext (R327). -/
def execExt (f : FmtI) (s : State) : Out :=
  s.word (.ext f) fun s p => s.compute p f.d true fun l =>
    .w (extend (f.imm.getLsbD 5) ((f.imm.extractLsb' 0 5).toNat + 1) (s.src p.crew l f.a))

/-- sel (R324). -/
def execSel (f : FmtA) (lit : Word) (s : State) : Out :=
  s.word (.sel f lit) fun s p =>
    let m := s.mask p (lit.extractLsb' 0 4).toNat
    s.compute p f.d (f.w == 1) fun l =>
      let c := if isV f.d then m.getLsbD l else (m &&& p.part) != 0
      .w (if c then s.src p.crew l f.a else s.src p.crew l f.b)

/-- cmp.eq (R325). -/
def execCmpEq (f : FmtA) (s : State) : Out := s.word (.cmpEq f) fun s p => s.cmpOp p f fun a b => a == b
/-- cmp.ne (R325). -/
def execCmpNe (f : FmtA) (s : State) : Out := s.word (.cmpNe f) fun s p => s.cmpOp p f fun a b => a != b
/-- cmp.lt (R325). -/
def execCmpLt (f : FmtA) (s : State) : Out := s.word (.cmpLt f) fun s p => s.cmpOp p f fun a b => below (f.v == 1) a b
/-- cmp.le (R325). -/
def execCmpLe (f : FmtA) (s : State) : Out := s.word (.cmpLe f) fun s p => s.cmpOp p f fun a b => !below (f.v == 1) b a
/-- cmp.gt (R325). -/
def execCmpGt (f : FmtA) (s : State) : Out := s.word (.cmpGt f) fun s p => s.cmpOp p f fun a b => below (f.v == 1) b a
/-- cmp.ge (R325). -/
def execCmpGe (f : FmtA) (s : State) : Out := s.word (.cmpGe f) fun s p => s.cmpOp p f fun a b => !below (f.v == 1) a b

/-- movi (R326). -/
def execMovi (f : FmtK) (s : State) : Out :=
  let x : Word := match f.h.toNat with
    | 0 => f.imm.signExtend 32
    | 1 => f.imm.setWidth 32
    | _ => f.imm.setWidth 32 <<< 16
  s.word (.movi f) fun s p => s.compute p f.d true fun _ => .w x

/-- One half of a word replaced (R326). -/
def setHalf (old : Word) (hi : Bool) (x : BitVec 16) : Word :=
  if hi then (old &&& 0x0000FFFF) ||| (x.setWidth 32 <<< 16) else (old &&& 0xFFFF0000) ||| x.setWidth 32

/-- movhi (R326): h 2 and 3 write the second register of the pair; the word written is pushed. -/
def execMovhi (f : FmtK) (s : State) : Out :=
  let r := movhiDest f
  s.word (.movhi f) fun s p => s.compute p r true fun l => .w (setHalf (s.src p.crew l r) (f.h.getLsbD 0) f.imm)

/-- lea (R328). -/
def execLea (f : FmtA) (s : State) : Out :=
  s.word (.lea f) fun s p => s.compute p f.d (f.w == 1) fun l =>
    let b := s.src p.crew l f.b
    .d (s.src64 p.crew l f.a + (if f.v == 1 then b.setWidth 64 else b.signExtend 64))

/-- add64 (R328). -/
def execAdd64 (f : FmtA) (s : State) : Out :=
  s.word (.add64 f) fun s p => s.compute p f.d (f.w == 1) fun l => .d (s.src64 p.crew l f.a + s.src64 p.crew l f.b)

/-- sub64 (R328). -/
def execSub64 (f : FmtA) (s : State) : Out :=
  s.word (.sub64 f) fun s p => s.compute p f.d (f.w == 1) fun l => .d (s.src64 p.crew l f.a - s.src64 p.crew l f.b)

/-- mulw (R328). -/
def execMulw (f : FmtA) (s : State) : Out :=
  s.word (.mulw f) fun s p => s.compute p f.d (f.w == 1) fun l =>
    .d (mulWide (f.v == 1) (s.src p.crew l f.a) (s.src p.crew l f.b))

/-- nop (R305, R413): nothing but its issue slot. -/
def execNop (z : BitVec 26) (s : State) : Out := s.word (.nop z) fun s _ => s

/-- brk (R305, R414): a debug cause in each thread of P. -/
def execBrk (tag : BitVec 26) (s : State) : Out := s.word (.brk tag) fun s p => s.deliverAll p .brk

end Sys2Proof.Machine
end

