-- ==== Sys2Proof/Machine/Flags.lean ====
section
/-! DEFINITION. Number formats, rounding and the sticky flags of every float operation (R263 to R275, R329 to R336).
A finite value is exact: a sign, a natural mantissa and a binary exponent. -/

namespace Sys2Proof.Machine

/-- Sticky invalid (R152). -/
def flNV : BitVec 4 := 1
/-- Sticky overflow. -/
def flOF : BitVec 4 := 2
/-- Sticky underflow. -/
def flUF : BitVec 4 := 4
/-- Sticky inexact. -/
def flNX : BitVec 4 := 8

/-- A finite value, (−1)^neg × m × 2^e. -/
structure Num where
  neg : Bool
  m : Nat
  e : Int
deriving DecidableEq, Repr

/-- A value of any format. -/
inductive FVal where
  | nan
  | inf (neg : Bool)
  | fin (n : Num)
deriving DecidableEq, Repr

/-- A float format (R263): bits, exponent and mantissa widths, bias, the encoding of the largest finite magnitude. -/
structure Fmt where
  n : Nat
  eb : Nat
  mb : Nat
  bias : Nat
  maxEnc : Nat
  /-- Exponent all ones is infinity and NaN, as in IEEE 754. -/
  ieee : Bool
deriving DecidableEq, Repr

/-- FP32. -/
def fp32 : Fmt := ⟨32, 8, 23, 127, 0x7F7FFFFF, true⟩
/-- FP16. -/
def fp16 : Fmt := ⟨16, 5, 10, 15, 0x7BFF, true⟩
/-- BF16. -/
def bf16 : Fmt := ⟨16, 8, 7, 127, 0x7F7F, true⟩
/-- E4M3. -/
def e4m3 : Fmt := ⟨8, 4, 3, 7, 0x7E, false⟩
/-- E5M2. -/
def e5m2 : Fmt := ⟨8, 5, 2, 15, 0x7B, true⟩
/-- E3M2. -/
def e3m2 : Fmt := ⟨6, 3, 2, 3, 0x1F, false⟩
/-- E2M3. -/
def e2m3 : Fmt := ⟨6, 2, 3, 1, 0x1F, false⟩
/-- E2M1. -/
def e2m1 : Fmt := ⟨4, 2, 1, 1, 0x7, false⟩

/-- The float format of an element code; codes 9 and 10 are integers (R263). -/
def fmtOf : Nat → Option Fmt
  | 1 => some fp32
  | 2 => some fp16
  | 3 => some bf16
  | 4 => some e4m3
  | 5 => some e5m2
  | 6 => some e3m2
  | 7 => some e2m3
  | 8 => some e2m1
  | _ => none

/-- Bits of an element code (R263). -/
def elemBits : Nat → Nat
  | 9 => 8
  | 10 => 4
  | c => match fmtOf c with
    | some f => f.n
    | none => 32

/-- Decode a bit pattern of a format (R263). -/
def Fmt.decode (f : Fmt) (x : Nat) : FVal :=
  let neg := bit x (f.n - 1)
  let ex := bits x f.mb f.eb
  let man := bits x 0 f.mb
  if f.ieee && ex = 2 ^ f.eb - 1 then (if man = 0 then .inf neg else .nan)
  else if !f.ieee && f.n = 8 && ex = 15 && man = 7 then .nan
  else if ex = 0 then .fin ⟨neg, man, 1 - (f.bias : Int) - f.mb⟩
  else .fin ⟨neg, man + 2 ^ f.mb, (ex : Int) - f.bias - f.mb⟩

/-- Sign bit of a format. -/
def Fmt.sign (f : Fmt) (neg : Bool) : Nat := if neg then 2 ^ (f.n - 1) else 0

/-- The canonical NaN of a format (R270). -/
def Fmt.cnan (f : Fmt) : Nat :=
  if f.ieee then (2 ^ f.eb - 1) * 2 ^ f.mb + 2 ^ (f.mb - 1) else 0x7F

/-- Infinity of an IEEE format. -/
def Fmt.infEnc (f : Fmt) (neg : Bool) : Nat := f.sign neg + (2 ^ f.eb - 1) * 2 ^ f.mb

/-- A magnitude rounded to a format's precision with an unbounded exponent (R268): its encoding, which carries into the
exponent field by itself, and whether it differs from the exact value. Modes: 0 nearest even, 1 toward zero, 2 down,
3 up, 4 stochastic with random bits rb. -/
def Fmt.roundMag (f : Fmt) (mode rb : Nat) (n : Num) : Nat × Bool :=
  if n.m = 0 then (0, false)
  else
    let emin : Int := 1 - (f.bias : Int)
    let top : Int := (Nat.log2 n.m : Int) + n.e
    let ue : Int := max top emin - f.mb
    let base : Nat := ((ue + f.mb + f.bias - 1) * 2 ^ f.mb).toNat
    if ue ≤ n.e then (base + n.m * 2 ^ (n.e - ue).toNat, false)
    else
      let sh := (ue - n.e).toNat
      let t := n.m / 2 ^ sh
      let r := n.m % 2 ^ sh
      let up := match mode with
        | 0 => decide (2 ^ sh < 2 * r) || (2 * r == 2 ^ sh && t % 2 == 1)
        | 1 => false
        | 2 => decide (0 < r) && n.neg
        | 3 => decide (0 < r) && !n.neg
        | _ => decide (rb < r * 2 ^ 32 / 2 ^ sh)
      (base + t + (if up then 1 else 0), decide (0 < r))

/-- The result of an overflow (R269): saturated, or what the rounding gives where OVF is 1. -/
def Fmt.overflow (f : Fmt) (ovf : Bool) (mode : Nat) (neg : Bool) : Nat :=
  if !ovf then f.sign neg + f.maxEnc
  else if f.ieee then
    (if mode = 1 || (mode = 2 && !neg) || (mode = 3 && neg) then f.sign neg + f.maxEnc else f.infEnc neg)
  else if f.n = 8 then f.sign neg + 0x7F
  else f.sign neg + f.maxEnc

/-- A finite exact value converted to a format (R268, R269, R272): encoding and flags. A zero keeps its sign. -/
def Fmt.round (f : Fmt) (ovf : Bool) (mode rb : Nat) (n : Num) : Nat × BitVec 4 :=
  let (enc, inexact) := f.roundMag mode rb n
  if f.maxEnc < enc then (f.overflow ovf mode n.neg, flOF ||| flNX)
  else
    let fl := if inexact then (if enc < 2 ^ f.mb then flNX ||| flUF else flNX) else 0
    (f.sign n.neg + enc, fl)

/-- Round to nearest even with overflow to infinity, in an IEEE format. -/
def Fmt.rne (f : Fmt) (n : Num) : Nat × BitVec 4 := f.round true 0 0 n

/-- The signed integer of a value at exponent e0, for e0 not above the value's. -/
def Num.at (n : Num) (e0 : Int) : Int :=
  let x : Int := (n.m * 2 ^ (n.e - e0).toNat : Nat)
  if n.neg then -x else x

/-- A value from an integer and an exponent; `negZero` is the sign of a zero. -/
def Num.ofInt (x : Int) (e : Int) (negZero : Bool) : Num :=
  if x = 0 then ⟨negZero, 0, e⟩ else ⟨decide (x < 0), x.natAbs, e⟩

/-- The exact sum; a zero sum is +0 unless both terms are −0 (R329). -/
def Num.add (x y : Num) : Num :=
  let e0 := min x.e y.e
  Num.ofInt (x.at e0 + y.at e0) e0 (x.neg && y.neg && x.m == 0 && y.m == 0)

/-- The exact product. -/
def Num.mul (x y : Num) : Num := ⟨x.neg != y.neg, x.m * y.m, x.e + y.e⟩

/-- The quotient with a sticky last bit, exact enough for one rounding; the divisor is not zero. -/
def Num.div (x y : Num) : Num :=
  let k := 64 + Nat.log2 y.m
  let q := x.m * 2 ^ k / y.m
  let r := x.m * 2 ^ k % y.m
  ⟨x.neg != y.neg, 2 * q + (if r = 0 then 0 else 1), x.e - y.e - k - 1⟩

/-- Integer square root, bit k downwards from a partial root. -/
def isqrtGo : Nat → Nat → Nat → Nat
  | 0, n, r => if (r + 1) * (r + 1) ≤ n then r + 1 else r
  | k + 1, n, r => isqrtGo k n (if (r + 2 ^ (k + 1)) * (r + 2 ^ (k + 1)) ≤ n then r + 2 ^ (k + 1) else r)

/-- The integer square root. -/
def isqrt (n : Nat) : Nat := isqrtGo (Nat.log2 n / 2 + 1) n 0

/-- The square root with a sticky last bit. -/
def Num.sqrt (x : Num) : Num :=
  let odd : Bool := x.e % 2 != 0
  let m := (if odd then 2 * x.m else x.m) * 2 ^ 128
  let e := (if odd then x.e - 1 else x.e) - 128
  let r := isqrt m
  ⟨x.neg, 2 * r + (if r * r = m then 0 else 1), e / 2 - 1⟩

/-- Exact comparison of two values: negative, zero or positive difference. -/
def Num.diff (x y : Num) : Int :=
  let e0 := min x.e y.e
  x.at e0 - y.at e0

/-- Add in a format (R271, R329). -/
def Fmt.add (f : Fmt) (x y : FVal) : Nat × BitVec 4 :=
  match x, y with
  | .nan, _ | _, .nan => (f.cnan, 0)
  | .inf a, .inf b => if a = b then (f.infEnc a, 0) else (f.cnan, flNV)
  | .inf a, _ | _, .inf a => (f.infEnc a, 0)
  | .fin a, .fin b => f.rne (a.add b)

/-- The negated value. -/
def FVal.neg : FVal → FVal
  | .nan => .nan
  | .inf a => .inf !a
  | .fin n => .fin { n with neg := !n.neg }

/-- The sign of a value; a NaN counts as positive. -/
def FVal.isNeg : FVal → Bool
  | .nan => false
  | .inf a => a
  | .fin n => n.neg

/-- Whether a value is a zero. -/
def FVal.isZero : FVal → Bool
  | .fin n => n.m == 0
  | _ => false

/-- Multiply in a format (R271). -/
def Fmt.mul (f : Fmt) (x y : FVal) : Nat × BitVec 4 :=
  match x, y with
  | .nan, _ | _, .nan => (f.cnan, 0)
  | .fin a, .fin b => f.rne (a.mul b)
  | _, _ => if x.isZero || y.isZero then (f.cnan, flNV) else (f.infEnc (x.isNeg != y.isNeg), 0)

/-- Divide in a format (R271): a nonzero value over zero is an infinity without a flag. -/
def Fmt.div (f : Fmt) (x y : FVal) : Nat × BitVec 4 :=
  match x, y with
  | .nan, _ | _, .nan => (f.cnan, 0)
  | .inf _, .inf _ => (f.cnan, flNV)
  | .inf a, .fin b => (f.infEnc (a != b.neg), 0)
  | .fin a, .inf b => (f.sign (a.neg != b), 0)
  | .fin a, .fin b =>
    if b.m = 0 then (if a.m = 0 then (f.cnan, flNV) else (f.infEnc (a.neg != b.neg), 0))
    else if a.m = 0 then (f.sign (a.neg != b.neg), 0)
    else f.rne (a.div b)

/-- Fused multiply and add with one rounding (R329): 0 × inf is the canonical NaN with NV even where c is NaN. -/
def Fmt.fma (f : Fmt) (x y z : FVal) : Nat × BitVec 4 :=
  match x, y with
  | .inf _, .fin b => if b.m = 0 then (f.cnan, flNV) else tailInf (x.isNeg != y.isNeg) z
  | .fin a, .inf _ => if a.m = 0 then (f.cnan, flNV) else tailInf (x.isNeg != y.isNeg) z
  | .inf a, .inf b => tailInf (a != b) z
  | .nan, _ | _, .nan => (f.cnan, 0)
  | .fin a, .fin b =>
    match z with
    | .nan => (f.cnan, 0)
    | .inf c => (f.infEnc c, 0)
    | .fin c => f.rne ((a.mul b).add c)
where
  /-- An infinite product plus z. -/
  tailInf (neg : Bool) : FVal → Nat × BitVec 4
    | .nan => (f.cnan, 0)
    | .inf c => if c = neg then (f.infEnc neg, 0) else (f.cnan, flNV)
    | .fin _ => (f.infEnc neg, 0)

/-- Square root in FP32 (R271, R331). -/
def fsqrtV (x : FVal) : Nat × BitVec 4 :=
  match x with
  | .nan => (fp32.cnan, 0)
  | .inf true => (fp32.cnan, flNV)
  | .inf false => (fp32.infEnc false, 0)
  | .fin n => if n.m = 0 then (fp32.sign n.neg, 0) else if n.neg then (fp32.cnan, flNV) else fp32.rne n.sqrt

/-- Whether x is below y in the order of fmin and fmax: −0 below +0 (R271). Neither is NaN. -/
def FVal.below (x y : FVal) : Bool :=
  match x, y with
  | .inf a, .inf b => a && !b
  | .inf a, _ => a
  | _, .inf b => !b
  | .fin a, .fin b => if a.m = 0 && b.m = 0 then a.neg && !b.neg else decide (a.diff b < 0)
  | _, _ => false

/-- fmin or fmax of two bit patterns (R271). -/
def Fmt.minmax (f : Fmt) (isMax : Bool) (a b : Nat) : Nat :=
  let x := f.decode a
  let y := f.decode b
  match x, y with
  | .nan, .nan => f.cnan
  | .nan, _ => b
  | _, .nan => a
  | _, _ => if isMax then (if x.below y then b else a) else (if y.below x then b else a)

/-- FP32 comparison (R271, R330): −0 equals +0; with a NaN only ne holds. -/
def fcompare (cc : Nat) (x y : FVal) : Bool :=
  match x, y with
  | .nan, _ | _, .nan => cc == 1
  | _, _ =>
    let eq := match x, y with
      | .inf a, .inf b => a == b
      | .fin a, .fin b => a.diff b == 0
      | _, _ => false
    let lt := x.below y && !eq
    match cc with
    | 0 => eq
    | 1 => !eq
    | 2 => lt
    | 3 => lt || eq
    | 4 => !(lt || eq)
    | _ => !lt

/-- The FP32 value of a word. -/
def f32 (w : Word) : FVal := fp32.decode w.toNat

/-- A pair of an encoding and flags as a word with flags. -/
def asWord (r : Nat × BitVec 4) : Word × BitVec 4 := (BitVec.ofNat 32 r.1, r.2)

/-- A value rounded to an integer in a rounding mode (R268, R333): the integer and whether it is exact. -/
def Num.toIntRound (n : Num) (mode rb : Nat) : Int × Bool :=
  if 0 ≤ n.e then (n.at 0, true)
  else
    let sh := (-n.e).toNat
    let t := n.m / 2 ^ sh
    let r := n.m % 2 ^ sh
    let up := match mode with
      | 0 => decide (2 ^ sh < 2 * r) || (2 * r == 2 ^ sh && t % 2 == 1)
      | 1 => false
      | 2 => decide (0 < r) && n.neg
      | 3 => decide (0 < r) && !n.neg
      | _ => decide (rb < r * 2 ^ 32 / 2 ^ sh)
    let m : Int := ((t + if up then 1 else 0 : Nat) : Int)
    (if n.neg then -m else m, r == 0)

/-- fround (R333). -/
def froundV (mode : Nat) (a : Word) : Word :=
  match f32 a with
  | .nan => 0x7FC00000
  | .inf _ => a
  | .fin n =>
    let (x, _) := n.toIntRound mode 0
    BitVec.ofNat 32 (fp32.rne (Num.ofInt x 0 n.neg)).1 ||| (a &&& 0x80000000)

/-- i2f (R334). -/
def i2fV (unsigned : Bool) (a : Word) : Word × BitVec 4 :=
  asWord (fp32.rne (Num.ofInt (if unsigned then (a.toNat : Int) else a.toInt) 0 false))

/-- f2i (R334): truncation; out of range gives the limit with NV. -/
def f2iV (unsigned : Bool) (a : Word) : Word × BitVec 4 :=
  let hi : Int := if unsigned then 0xFFFFFFFF else 0x7FFFFFFF
  let lo : Int := if unsigned then 0 else -0x80000000
  match f32 a with
  | .nan => (0, flNV)
  | .inf neg => (BitVec.ofInt 32 (if neg then lo else hi), flNV)
  | .fin n =>
    let (x, exact) := n.toIntRound 1 0
    if hi < x then (BitVec.ofInt 32 hi, flNV)
    else if x < lo then (BitVec.ofInt 32 lo, flNV)
    else (BitVec.ofInt 32 x, if exact then 0 else flNX)

/-- fscale (R335). -/
def fscaleV (a b : Word) : Word × BitVec 4 :=
  match f32 a with
  | .nan => (0x7FC00000, 0)
  | .inf _ => (a, 0)
  | .fin n =>
    if n.m = 0 then (a, 0)
    else
      -- Beyond these limits the result is the same overflow or underflow; the clamp keeps the exact form small.
      let k := max (-1000) (min 1000 b.toInt)
      asWord (fp32.rne { n with e := n.e + k })

/-- Where a NaN is converted (R270): the encoding and the flags. `man` holds the source's 23 mantissa bits. -/
def Fmt.nanResult (f : Fmt) (nanp : Nat) (neg : Bool) (man : Nat) : Nat × BitVec 4 :=
  if nanp = 2 then (0, flNV)
  else if f.ieee then
    (if nanp = 0 then (f.cnan, 0)
     else (f.infEnc neg + (man / 2 ^ (23 - f.mb) ||| 2 ^ (f.mb - 1)), 0))
  else if f.n = 8 then (if nanp = 0 then (0x7F, 0) else (f.sign neg + 0x7F, 0))
  else (0, flNV)

/-- Where an infinity is converted (R269). -/
def Fmt.infResult (f : Fmt) (ovf neg : Bool) : Nat × BitVec 4 :=
  if f.ieee then (if ovf then (f.infEnc neg, 0) else (f.sign neg + f.maxEnc, flNV))
  else if f.n = 8 then (if ovf then (f.sign neg + 0x7F, flNV) else (f.sign neg + f.maxEnc, flNV))
  else (f.sign neg + f.maxEnc, flNV)

/-- A value converted to INT8 or INT4 (R268, R269, R272): a limit with NV, and, where a finite value overflows, OF and NX; a dropped
fraction with NX. -/
def toIntElem (b : Nat) (mode rb : Nat) (x : FVal) : Nat × BitVec 4 :=
  let hi : Int := 2 ^ (b - 1) - 1
  let lo : Int := -(2 ^ (b - 1))
  let enc := fun (i : Int) => (i % (2 ^ b : Int)).toNat
  match x with
  | .nan => (0, flNV)
  | .inf neg => (enc (if neg then lo else hi), flNV)
  | .fin n =>
    let (r, exact) := n.toIntRound mode rb
    let sat := flNV ||| flOF ||| flNX
    if hi < r then (enc hi, sat) else if r < lo then (enc lo, sat) else (enc r, if exact then 0 else flNX)

/-- Conversion of a value through a format slot (R268 to R270): element code, OVF, RND, NANP, random bits; `man` holds
the mantissa of an FP32 NaN source. -/
def toElem (elem : Nat) (ovf : Bool) (mode nanp rb : Nat) (x : FVal) (neg : Bool) (man : Nat) : Nat × BitVec 4 :=
  match fmtOf elem with
  | none => toIntElem (elemBits elem) mode rb x
  | some f =>
    match x with
    | .nan => f.nanResult nanp neg man
    | .inf s => f.infResult ovf s
    | .fin n => f.round ovf mode rb n

/-- The value of an element (R263): an integer element is exact. -/
def fromElem (elem x : Nat) : FVal :=
  match fmtOf elem with
  | some f => f.decode x
  | none =>
    let b := elemBits elem
    let v : Int := if bit x (b - 1) then (bits x 0 b : Int) - 2 ^ b else bits x 0 b
    .fin (Num.ofInt v 0 false)

/-- The signed integer of an INT8 or INT4 element. -/
def intElem (elem x : Nat) : Int :=
  let b := elemBits elem
  if bit x (b - 1) then (bits x 0 b : Int) - 2 ^ b else bits x 0 b

/-! ## The functions of R331 -/

/-- FP32 neighbourhood: the spacing of FP32 values at a magnitude (R331), as an exponent. -/
def ulpExp (n : Num) : Int :=
  if n.m = 0 then -149 else max ((Nat.log2 n.m : Int) + n.e) (-126) - 23

/-- Whether a candidate FP32 encoding lies within `k` units of 2^u of the exact result (R331). That is a value far closer than the bound to
y: y itself where `side` is 0, else one above it (1) or below it (-1), which decides for a candidate whose distance from y is the
bound (log entry 15). -/
def within (cand : Word) (y : Num) (k : Nat) (u : Int) (side : Int := 0) : Bool :=
  match f32 cand with
  | .fin c =>
    let bound : Num := ⟨false, k, u⟩
    let d := c.add { y with neg := !y.neg }
    let x := ({ d with neg := false } : Num).diff bound
    decide (x < 0) || (decide (x = 0) && (decide (side = 0) || (decide (0 < side) != d.neg)))
  | _ => false

/-- The fixed function value of R332: the free candidate where it keeps the bound of k units of 2^u, else the nearest value. -/
def approxBy (fn : Nat) (a : Word) (y : Num) (k : Nat) (u : Int) (side : Int := 0) : Word × BitVec 4 :=
  let cand := Config.approx fn a
  let (r, fl) := asWord (fp32.rne y)
  if fl &&& flOF == flOF then (r, fl)
  else
    let v := if within cand y k u side then cand else r
    let tiny := match f32 v with
      | .fin n => decide (n.m < 2 ^ 23)
      | _ => false
    (v, if tiny then flNX ||| flUF else flNX)

/-- The power of two that a finite value is, if it is one. -/
def Num.pow2 (n : Num) : Option Int :=
  if n.m ≠ 0 && n.m = 2 ^ Nat.log2 n.m then some ((Nat.log2 n.m : Int) + n.e) else none

/-- frcp (R331). -/
def frcpV (a : Word) : Word × BitVec 4 :=
  match f32 a with
  | .nan => (0x7FC00000, 0)
  | .inf neg => asWord (fp32.sign neg, 0)
  | .fin n =>
    if n.m = 0 then asWord (fp32.infEnc n.neg, 0)
    else
      let y := Num.div ⟨false, 1, 0⟩ n
      let (r, fl) := asWord (fp32.rne y)
      if n.pow2.isSome && fl == 0 then (r, 0) else approxBy 0 a y 1 (ulpExp y)

/-- frsq (R331). -/
def frsqV (a : Word) : Word × BitVec 4 :=
  match f32 a with
  | .nan => (0x7FC00000, 0)
  | .inf true => (0x7FC00000, flNV)
  | .inf false => (0, 0)
  | .fin n =>
    if n.m = 0 then asWord (fp32.infEnc n.neg, 0)
    else if n.neg then (0x7FC00000, flNV)
    else
      let y := Num.sqrt (Num.div ⟨false, 1, 0⟩ n)
      match n.pow2 with
      | some k => if k % 2 = 0 then asWord (fp32.rne ⟨false, 1, -(k / 2)⟩) else approxBy 1 a y 2 (ulpExp y)
      | none => approxBy 1 a y 2 (ulpExp y)

/-- 2^f for a fraction f of 64 bits, to 96 bits: the product of the roots of two that f's bits select. -/
def exp2Go : Nat → Nat → Nat → Nat → Nat
  | 0, _, _, acc => acc
  | k + 1, f, root, acc =>
    let acc := if bit f k then acc * root / 2 ^ 96 else acc
    exp2Go k f (isqrt (root * 2 ^ 96)) acc

/-- A finite value with 64 fraction bits. -/
def Num.fixed64 (n : Num) : Int :=
  if 0 ≤ n.e + 64 then n.at (-64) else (let m : Int := (n.m / 2 ^ (-64 - n.e).toNat : Nat); if n.neg then -m else m)

/-- The greatest integer that is not above a finite value. -/
def Num.floor (n : Num) : Int := if n.fixed64 = 0 && n.neg && n.m != 0 then -1 else n.fixed64 / (2 ^ 64 : Int)

/-- 2^x for a finite x, as an approximation far below an ulp (R331). -/
def exp2Num (n : Num) : Num :=
  let fixed := n.fixed64
  let ip := fixed / (2 ^ 64 : Int)
  let fp := (fixed % (2 ^ 64 : Int)).toNat
  ⟨false, exp2Go 64 fp (isqrt (2 * 2 ^ 192)) (2 ^ 96), ip - 96⟩

/-- The side of a value on which a result lies that differs from it by less than the approximations of this section hold. -/
def sideOf (neg : Bool) : Int := if neg then -1 else 1

/-- fexp2 (R331). -/
def fexp2V (a : Word) : Word × BitVec 4 :=
  match f32 a with
  | .nan => (0x7FC00000, 0)
  | .inf true => (0, 0)
  | .inf false => (0x7F800000, 0)
  | .fin n =>
    let (i, whole) := n.toIntRound 1 0
    if 128 ≤ i then
      asWord (fp32.rne ⟨false, 1, 1000⟩)
    else if whole && decide (-149 ≤ i) then asWord (fp32.rne ⟨false, 1, i⟩)
    else if i < -200 then approxBy 2 a ⟨false, 1, -1000⟩ 2 (-149)
    else approxBy 2 a (exp2Num n) 2 (max n.floor (-126) - 23) (if n.fixed64 = 0 then sideOf n.neg else 0)

/-- 112 fraction bits of log2 of a fixed-point value in [1, 2) with 256 fraction bits. -/
def log2Go : Nat → Nat → Nat → Nat
  | 0, _, acc => acc
  | k + 1, x, acc =>
    let y := x * x / 2 ^ 256
    if 2 ^ 257 ≤ y then log2Go k (y / 2) (2 * acc + 1) else log2Go k y (2 * acc)

/-- log2 of a positive finite value, as an approximation far below the bound. -/
def log2Num (n : Num) : Num :=
  let top := Nat.log2 n.m
  let x := n.m * 2 ^ 256 / 2 ^ top
  let frac : Int := (log2Go 112 x 0 : Nat)
  Num.ofInt (((top : Int) + n.e) * 2 ^ 112 + frac) (-112) false

/-- flog2 (R331): inside [0.5, 2] the bound is absolute. -/
def flog2V (a : Word) : Word × BitVec 4 :=
  match f32 a with
  | .nan => (0x7FC00000, 0)
  | .inf true => (0x7FC00000, flNV)
  | .inf false => (0x7F800000, 0)
  | .fin n =>
    if n.m = 0 then (0xFF800000, 0)
    else if n.neg then (0x7FC00000, flNV)
    else
      match n.pow2 with
      | some k => asWord (fp32.rne (Num.ofInt k 0 false))
      | none =>
        let inside := decide (0 ≤ n.diff ⟨false, 1, -1⟩ ∧ n.diff ⟨false, 1, 1⟩ ≤ 0)
        let y := log2Num n
        if inside then approxBy 3 a y 1 (-22) else approxBy 3 a y 2 (ulpExp y)

/-- π with 160 fraction bits. -/
def piFix : Nat := 4591442807048218921384805199743311128454155024418

/-- Terms of the series of sine or cosine at x with 120 fraction bits: the running term and sum alternate in sign. -/
def trigGo : Nat → Nat → Int → Int → Int → Int
  | 0, _, _, _, acc => acc
  | k + 1, j, x2, term, acc =>
    let t := -(term * x2 / 2 ^ 120) / ((j * (j + 1) : Nat) : Int)
    trigGo k (j + 2) x2 t (acc + t)

/-- sin (cosine: cos) of a finite x with abs(x) ≤ 2^15, with 120 fraction bits: x is reduced by multiples of 2π. -/
def trigNum (cos : Bool) (n : Num) : Num :=
  let fixed : Int := if 0 ≤ n.e + 160 then n.at (-160) else 0
  let two : Int := 2 * (piFix : Int)
  let r0 := fixed % two
  let r1 := if (piFix : Int) < r0 then r0 - two else r0
  let r := r1 / 2 ^ 40
  let x2 := r * r / 2 ^ 120
  let v := if cos then trigGo 24 1 x2 (2 ^ 120) (2 ^ 120) else trigGo 24 2 x2 r r
  Num.ofInt v (-120) false

/-- fsin and fcos (R331): beyond 2^15 any value in [−1, 1]. -/
def ftrigV (cos : Bool) (a : Word) : Word × BitVec 4 :=
  match f32 a with
  | .nan => (0x7FC00000, 0)
  | .inf _ => (0x7FC00000, flNV)
  | .fin n =>
    if n.m = 0 then (if cos then (0x3F800000, 0) else (a, 0))
    else
      let fn := if cos then 5 else 4
      if 0 < ({ n with neg := false } : Num).diff ⟨false, 1, 15⟩ then
        let cand := Config.approx fn a
        let ok := within cand ⟨false, 0, 0⟩ 1 0
        let v := if ok && decide ((cand &&& 0x7FFFFFFF).toNat ≤ 0x3F800000) then cand else 0
        let tiny := decide ((v &&& 0x7FFFFFFF).toNat < 0x00800000)
        (v, if tiny then flNX ||| flUF else flNX)
      else
        let y := trigNum cos n
        approxBy fn a y 1 (-21) (if cos then (if y.diff ⟨false, 1, 0⟩ = 0 then -1 else 0) else if y.m = 0 then sideOf n.neg else 0)

/-! ## The generator -/

/-- Rotate left. -/
def rotl (x : Word) (n : Nat) : Word := x.rotateLeft n

/-- One round of SCG-128 (R275). -/
def scgRound (k : List Word) (r : Nat) (x : List Word) : List Word :=
  let k0 := k.getD 0 0; let k1 := k.getD 1 0; let k2 := k.getD 2 0; let k3 := k.getD 3 0
  let a := x.getD 0 0; let b := x.getD 1 0; let c := x.getD 2 0; let d := x.getD 3 0
  let a := a + BitVec.ofNat 32 (r * 0x9E3779B9)
  let a := a + b; let d := rotl (d ^^^ a) 16
  let c := c + d; let b := rotl (b ^^^ c) 12
  let a := a + b; let d := rotl (d ^^^ a) 8
  let c := c + d; let b := rotl (b ^^^ c) 7
  if r = 4 || r = 8 then [a + k0, b + k1, c + k2, d + k3] else [a, b, c, d]

/-- SCG-128 (R275): four output words from four key words and four counter words. -/
def scg128 (k c : List Word) : List Word :=
  let x0 := List.zipWith (· ^^^ ·) c k
  let x := (List.range 8).foldl (fun x i => scgRound k (i + 1) x) x0
  List.zipWith (· + ·) x c

end Sys2Proof.Machine
end

