-- ==== Sys2Proof/Machine/Flt.lean ====
section
/-! DEFINITION. Class 1: FP32 arithmetic, rounding, conversion through format slots and packed dot products
(R329 to R338). -/

namespace Sys2Proof.Machine

/-- A result with flags. -/
def Result.f (x : Word × BitVec 4) : Result := { words := [x.1], flags := x.2 }

/-- A two-source float instruction (R329). -/
def State.flt2 (s : State) (p : Pulse) (f : FmtA) (op : Word → Word → Word × BitVec 4) : State :=
  s.compute p f.d (f.w == 1) fun l => .f (op (s.src p.crew l f.a) (s.src p.crew l f.b))

/-- A one-source float instruction (R331). -/
def State.flt1 (s : State) (p : Pulse) (f : FmtA) (op : Word → Word × BitVec 4) : State :=
  s.compute p f.d (f.w == 1) fun l => .f (op (s.src p.crew l f.a))

/-- Addition of FP32 words. -/
def fadd32 (a b : Word) : Word × BitVec 4 := asWord (fp32.add (f32 a) (f32 b))
/-- Subtraction of FP32 words: NaN apart, the sum with the negated second operand. -/
def fsub32 (a b : Word) : Word × BitVec 4 := asWord (fp32.add (f32 a) (f32 b).neg)
/-- Multiplication of FP32 words. -/
def fmul32 (a b : Word) : Word × BitVec 4 := asWord (fp32.mul (f32 a) (f32 b))
/-- Division of FP32 words. -/
def fdiv32 (a b : Word) : Word × BitVec 4 := asWord (fp32.div (f32 a) (f32 b))
/-- fmin and fmax of FP32 words (R271). -/
def fminmax32 (isMax : Bool) (a b : Word) : Word := BitVec.ofNat 32 (fp32.minmax isMax a.toNat b.toNat)

/-- fadd (R329). -/
def execFadd (f : FmtA) (s : State) : Out := s.word (.fadd f) fun s p => s.flt2 p f fadd32
/-- fsub (R329). -/
def execFsub (f : FmtA) (s : State) : Out := s.word (.fsub f) fun s p => s.flt2 p f fsub32
/-- fmul (R329). -/
def execFmul (f : FmtA) (s : State) : Out := s.word (.fmul f) fun s p => s.flt2 p f fmul32
/-- fdiv (R329). -/
def execFdiv (f : FmtA) (s : State) : Out := s.word (.fdiv f) fun s p => s.flt2 p f fdiv32
/-- fmin (R271, R329): never a flag. -/
def execFmin (f : FmtA) (s : State) : Out := s.word (.fmin f) fun s p => s.flt2 p f fun a b => (fminmax32 false a b, 0)
/-- fmax (R271, R329): never a flag. -/
def execFmax (f : FmtA) (s : State) : Out := s.word (.fmax f) fun s p => s.flt2 p f fun a b => (fminmax32 true a b, 0)

/-- ffma (R329). -/
def execFfma (f : FmtA) (lit : Word) (s : State) : Out :=
  s.word (.ffma f lit) fun s p => s.compute p f.d (f.w == 1) fun l =>
    .f (asWord (fp32.fma (f32 (s.src p.crew l f.a)) (f32 (s.src p.crew l f.b)) (f32 (s.src p.crew l (lit.truncate 8)))))

/-- A float compare, code 0 eq, 1 ne, 2 lt, 3 le, 4 gt, 5 ge (R330). -/
def State.fcmpOp (s : State) (p : Pulse) (f : FmtA) (cc : Nat) : State :=
  s.cmpOp p f fun a b => fcompare cc (f32 a) (f32 b)

/-- fcmp.eq (R330). -/
def execFcmpEq (f : FmtA) (s : State) : Out := s.word (.fcmpEq f) fun s p => s.fcmpOp p f 0
/-- fcmp.ne (R330). -/
def execFcmpNe (f : FmtA) (s : State) : Out := s.word (.fcmpNe f) fun s p => s.fcmpOp p f 1
/-- fcmp.lt (R330). -/
def execFcmpLt (f : FmtA) (s : State) : Out := s.word (.fcmpLt f) fun s p => s.fcmpOp p f 2
/-- fcmp.le (R330). -/
def execFcmpLe (f : FmtA) (s : State) : Out := s.word (.fcmpLe f) fun s p => s.fcmpOp p f 3
/-- fcmp.gt (R330). -/
def execFcmpGt (f : FmtA) (s : State) : Out := s.word (.fcmpGt f) fun s p => s.fcmpOp p f 4
/-- fcmp.ge (R330). -/
def execFcmpGe (f : FmtA) (s : State) : Out := s.word (.fcmpGe f) fun s p => s.fcmpOp p f 5

/-- frcp (R331). -/
def execFrcp (f : FmtA) (s : State) : Out := s.word (.frcp f) fun s p => s.flt1 p f frcpV
/-- frsq (R331). -/
def execFrsq (f : FmtA) (s : State) : Out := s.word (.frsq f) fun s p => s.flt1 p f frsqV
/-- fsqrt (R331). -/
def execFsqrt (f : FmtA) (s : State) : Out := s.word (.fsqrt f) fun s p => s.flt1 p f fun a => asWord (fsqrtV (f32 a))
/-- fexp2 (R331). -/
def execFexp2 (f : FmtA) (s : State) : Out := s.word (.fexp2 f) fun s p => s.flt1 p f fexp2V
/-- flog2 (R331). -/
def execFlog2 (f : FmtA) (s : State) : Out := s.word (.flog2 f) fun s p => s.flt1 p f flog2V
/-- fsin (R331). -/
def execFsin (f : FmtA) (s : State) : Out := s.word (.fsin f) fun s p => s.flt1 p f (ftrigV false)
/-- fcos (R331). -/
def execFcos (f : FmtA) (s : State) : Out := s.word (.fcos f) fun s p => s.flt1 p f (ftrigV true)

/-- fround (R333): no flag. -/
def execFround (f : FmtI) (s : State) : Out :=
  s.word (.fround f) fun s p => s.compute p f.d true fun l =>
    .w (froundV (f.imm.extractLsb' 0 2).toNat (s.src p.crew l f.a))

/-- i2f (R334). -/
def execI2f (f : FmtA) (s : State) : Out := s.word (.i2f f) fun s p => s.flt1 p f (i2fV (f.v == 1))
/-- f2i (R334). -/
def execF2i (f : FmtA) (s : State) : Out := s.word (.f2i f) fun s p => s.flt1 p f (f2iV (f.v == 1))
/-- fscale (R335). -/
def execFscale (f : FmtA) (s : State) : Out := s.word (.fscale f) fun s p => s.flt2 p f fscaleV

/-- The FP32 word of an element (R336): exact; a NaN gives the canonical NaN. -/
def elemToF32 (elem x : Nat) : Word :=
  match fromElem elem x with
  | .nan => 0x7FC00000
  | .inf neg => BitVec.ofNat 32 (fp32.infEnc neg)
  | .fin n => BitVec.ofNat 32 (fp32.rne n).1

/-- An FP32 word converted through a format slot (R268, R336). -/
def f32ToElem (slot : Word) (rb a : Word) : Nat × BitVec 4 :=
  toElem (slotElem slot) (slotOvf slot) (slotRnd slot) (slotNanp slot) rb.toNat (f32 a) (a.getLsbD 31)
    (a.extractLsb' 0 23).toNat

/-- fcvt (R336). -/
def execFcvt (f : FmtI) (s : State) : Out :=
  s.word (.fcvt f) fun s p =>
    let slot := (s.recOf p.crew).slot (f.imm.extractLsb' 0 3).toNat
    s.compute p f.d true fun l =>
      let a := s.src p.crew l f.a
      if f.imm.getLsbD 3 then .w (elemToF32 (slotElem slot) (bits a.toNat 0 (elemBits (slotElem slot))))
      else .f (asWord (f32ToElem slot ((s.crew p.crew).vreg (slotSreg slot) l) a))

/-- pk (R337): the other bits of d are kept. -/
def execPk (f : FmtI) (s : State) : Out :=
  let w := pkWidth f.imm
  let i := (f.imm.extractLsb' 0 3).toNat
  s.word (.pk f) fun s p => s.compute p f.d true fun l =>
    let m := lowMask w <<< (w * i)
    .w ((s.src p.crew l f.d &&& ~~~m) ||| ((s.src p.crew l f.a <<< (w * i)) &&& m))

/-- upk (R337). -/
def execUpk (f : FmtI) (s : State) : Out :=
  let w := pkWidth f.imm
  let i := (f.imm.extractLsb' 0 3).toNat
  s.word (.upk f) fun s p => s.compute p f.d true fun l =>
    .w (extend (f.imm.getLsbD 5) w (s.src p.crew l f.a >>> (w * i)))

/-- Element i of b bits of a packed word (R264). -/
def packed (b : Nat) (x : Word) (i : Nat) : Nat := bits x.toNat (b * i) b

/-- The exact product of two element values: 0 × inf is NaN with NV (R338). -/
def FVal.mulExact (x y : FVal) : FVal × Bool :=
  match x, y with
  | .nan, _ | _, .nan => (.nan, false)
  | .fin a, .fin b => (.fin (a.mul b), false)
  | _, _ => if x.isZero || y.isZero then (.nan, true) else (.inf (x.isNeg != y.isNeg), false)

/-- The sum of values with one rounding (R338): NaN if one is NaN or both infinities occur. -/
def sumOnce (c : FVal) (ps : List FVal) : Word × BitVec 4 :=
  let all := c :: ps
  if all.any (· = .nan) then (0x7FC00000, 0)
  else if all.any (· = .inf false) && all.any (· = .inf true) then (0x7FC00000, flNV)
  else if all.any (· = .inf false) then (0x7F800000, 0)
  else if all.any (· = .inf true) then (0xFF800000, 0)
  else
    let num := fun (v : FVal) => match v with
      | .fin n => n
      | _ => ⟨false, 0, 0⟩
    asWord (fp32.rne (ps.foldl (fun a v => a.add (num v)) (num c)))

/-- A packed dot product of n elements (R338). -/
def packedDot (elem n : Nat) (a b c : Word) : Word × BitVec 4 :=
  let w := elemBits elem
  if elem = 9 || elem = 10 then
    let sum := (List.range n).foldl (fun acc i =>
      acc + intElem elem (packed w a i) * intElem elem (packed w b i)) c.toInt
    (BitVec.ofInt 32 sum, 0)
  else
    let ps := (List.range n).map fun i => (fromElem elem (packed w a i)).mulExact (fromElem elem (packed w b i))
    let nv : BitVec 4 := if ps.any (·.2) then flNV else 0
    let (r, fl) := sumOnce (f32 c) (ps.map (·.1))
    (r, fl ||| nv)

/-- dp4 (R338): eight 4-bit elements. -/
def execDp4 (f : FmtA) (lit : Word) (s : State) : Out :=
  s.word (.dp4 f lit) fun s p =>
    let slot := (s.recOf p.crew).slot (lit.extractLsb' 8 3).toNat
    s.compute p f.d (f.w == 1) fun l =>
      .f (packedDot (slotElem slot) 8 (s.src p.crew l f.a) (s.src p.crew l f.b) (s.src p.crew l (lit.truncate 8)))

/-- dp8 (R338): four 8-bit elements. -/
def execDp8 (f : FmtA) (lit : Word) (s : State) : Out :=
  s.word (.dp8 f lit) fun s p =>
    let slot := (s.recOf p.crew).slot (lit.extractLsb' 8 3).toNat
    s.compute p f.d (f.w == 1) fun l =>
      .f (packedDot (slotElem slot) 4 (s.src p.crew l f.a) (s.src p.crew l f.b) (s.src p.crew l (lit.truncate 8)))

end Sys2Proof.Machine
end

