-- ==== Sys2Proof/Machine/Strata.lean ====
section
/-! DEFINITION. The strata log of a deterministic context: writing a choice, and forcing it in replay (R258 to R261). -/

namespace Sys2Proof.Machine

/-- An entry of the log (R259). -/
structure LogEnt where
  kind : Nat
  grid : Nat
  item : Nat
  key : Nat
deriving DecidableEq, Repr

/-- The 16 bytes of an entry. -/
def LogEnt.bytes (e : LogEnt) : List Byte :=
  natToBytes 8 (e.kind + 16 * (e.grid % 4096) + 65536 * e.item) ++ natToBytes 8 e.key

/-- Entry i of a context's log. -/
def State.logEnt (s : State) (n i : Nat) : LogEnt :=
  let a := s.read64 ((s.ctx n).logbase.toNat + 16 * i)
  { kind := bits a 0 4, grid := bits a 4 12, item := bits a 16 48,
    key := s.read64 ((s.ctx n).logbase.toNat + 16 * i + 8) }

/-- Entries that the log area holds (R259). -/
def State.logCap (s : State) (n : Nat) : Nat := (s.ctx n).logsize.toNat * 256

/-- How the scan of a replayed log ends: at an entry, at the end of the log, or at an entry of an unknown kind (R261). -/
inductive LogScan where
  | found (i : Nat)
  | ended (i : Nat)
  | bad (i : Nat)
deriving DecidableEq, Repr

/-- The first unconsumed entry at or after i that satisfies `ok` (R261). -/
def State.logScan (s : State) (n : Nat) (ok : LogEnt → Bool) : Nat → Nat → LogScan
  | 0, i => .ended i
  | fuel + 1, i =>
    let e := s.logEnt n i
    if e.kind = 0 then .ended i
    else if 8 ≤ e.kind then .bad i
    else if ok e && !(s.ctx n).logUsed.contains i then .found i
    else s.logScan n ok fuel (i + 1)

/-- The first entry before the end whose kind is never written (R260, R261). -/
def State.logBad (s : State) (n : Nat) : Nat → Nat → Option Nat
  | 0, _ => none
  | fuel + 1, i =>
    let e := s.logEnt n i
    if e.kind = 0 then none else if 8 ≤ e.kind then some i else s.logBad n fuel (i + 1)

/-- The first unconsumed entry that satisfies `ok`, in a log without an entry of an unknown kind (R261). -/
def State.logFind (s : State) (n : Nat) (ok : LogEnt → Bool) : LogScan :=
  match s.logBad n (s.logCap n) 0 with
  | some i => .bad i
  | none => s.logScan n ok (s.logCap n) 0

/-- The first unconsumed entry from i on that satisfies `ok`, where of each entry as many as `spare` says are left to choices that are still
on their way; `seen` holds those met before (R261). -/
def State.leftScan (s : State) (n : Nat) (ok : LogEnt → Bool) (spare : LogEnt → Nat) : Nat → Nat → List LogEnt → Option Nat
  | 0, _, _ => none
  | fuel + 1, i, seen =>
    let e := s.logEnt n i
    if e.kind = 0 then none
    else if ok e && !(s.ctx n).logUsed.contains i then
      (if seen.count e < spare e then s.leftScan n ok spare fuel (i + 1) (e :: seen) else some i)
    else s.leftScan n ok spare fuel (i + 1) seen

/-- The address of entry i. -/
def State.logAddr (s : State) (n i : Nat) : DWord := BitVec.ofNat 64 ((s.ctx n).logbase.toNat + 16 * i)

/-- A LAUNCH fault of a context (R106, R120, R125, R253, R259, R261). -/
def State.launchFault (s : State) (n sub : Nat) (addr : DWord) (f : FaultInfo := { cause := 0x10 }) : State :=
  s.contextFault n { f with cause := 0x10, sub := BitVec.ofNat 8 sub, addr }

/-- Whether a choice may be made: it goes ahead in the state that logs or consumes it, it waits, or it faults. -/
inductive Choice where
  | go (s : State)
  | wait
  | fault (s : State)

/-- Whether the home slices hold an access to one of the entries i to j of a context's log (R225). -/
def State.logHeld (s : State) (n i j : Nat) : Bool :=
  (s.swap.isSome || s.link.mcBusy) &&
    (List.range (j + 1 - i)).any fun m => s.swapping (.dev ((s.ctx n).logbase.toNat + 16 * (i + m)))

/-- Make a choice of a grid (R258 to R261): outside a deterministic grid it is free; with DET it is logged; with REPLAY
the first unconsumed entry of its key must name it. `same` says which entries have the key of the choice. A choice waits while an access
to its log is held (R225). -/
def State.choose (s : State) (n : Nat) (g : Grid) (e : LogEnt) (same : LogEnt → Bool) (f : FaultInfo) : Choice :=
  if !g.lr.det then .go s
  else if g.lr.replay then
    let stop := fun (i : Nat) => if s.logHeld n 0 i then Choice.wait else .fault (s.launchFault n 12 (s.logAddr n i) f)
    match s.logFind n same with
    | .found i =>
      if s.logEnt n i = e && !s.logHeld n 0 i then
        .go (s.modCtx n fun c => { c with logUsed := i :: c.logUsed, logpos := c.logpos + 1 })
      else .wait
    | .ended i => stop i
    | .bad i => stop i
  else if (s.ctx n).logpos = s.logCap n then
    .fault (s.launchFault n 13 (s.logAddr n (s.ctx n).logpos))
  else
    let i := (s.ctx n).logpos
    if s.logHeld n i i then .wait
    else .go ((s.devWrite 0 ((s.ctx n).logbase.toNat + 16 * i) e.bytes).modCtx n fun c => { c with logpos := i + 1 })

/-- The fault fields that name a crew's thread. -/
def crewInfo (k l : Nat) (pc : DWord) : FaultInfo :=
  { cause := 0x10, pc, lcore := BitVec.ofNat 7 (lcNum k), crew := BitVec.ofNat 8 (slotOf k), tid := BitVec.ofNat 6 l }

/-- A choice of a thread or crew, in the grid of its crew. -/
def State.crewChoice (s : State) (k l : Nat) (pc : DWord) (e : LogEnt) (same : LogEnt → Bool) : Choice :=
  match s.grid (s.crew k).grid with
  | some g =>
    let e := { e with grid := g.det % 4096 }
    s.choose (ctxOf k) g e same (crewInfo k l pc)
  | none => .go s

end Sys2Proof.Machine
end

