-- ==== Sys2Proof/Machine/Atomics.lean ====
section
/-! DEFINITION. The store queue leaving a crew (R238), append units and seals at the home slice (R226 to R229), atomics,
reductions and exact records where they are performed (R247 to R254). -/

namespace Sys2Proof.Machine

/-- The die, plus one, of a crew: who holds dirty what its stores write (R256). -/
def State.dieOf (s : State) (k : Nat) : Nat := vdOfSite (s.siteOf (lcOf k)) + 1

/-! ## Appends and seals at the home slice -/

/-- Where the elements of a unit land from TAIL on, and the TAIL after it (R227). -/
def placeUnit : Nat → List (Nat × List Byte) → List (Nat × Nat × List Byte) × Nat
  | t, [] => ([], t)
  | t, (lane, bs) :: rest =>
    let o := ceilDiv t bs.length * bs.length
    let (r, t') := placeUnit (o + bs.length) rest
    ((lane, o, bs) :: r, t')

/-- Bytes of zeros. -/
def zeros (n : Nat) : List Byte := List.replicate n 0

/-- The stores of a placed unit: the gaps that alignment skips are zero (R227). -/
def writeUnit (s : State) (frame : Nat) : Nat → List (Nat × Nat × List Byte) → State
  | _, [] => s
  | t, (_, off, bs) :: rest =>
    let s := if t < off then s.devWrite 0 (frame + t) (zeros (off - t)) else s
    writeUnit (s.devWrite 0 (frame + off) bs) frame (off + bs.length) rest

/-- A result on its way back to a thread. -/
def flightOf (e : QEntry) (lane : Nat) (w : Word) : Flight :=
  { lane, dest := e.dest, words := [w], lc := e.lc, ser := e.ser, pc := e.pc }

/-- Add flights to a crew. -/
def State.addFlights (s : State) (k : Nat) (fs : List Flight) : State :=
  s.modCrew k fun c => { c with flights := c.flights ++ fs }

/-- Threads of a held append whose unit was refused (R229, R363). -/
def State.refuse (s : State) (k ser : Nat) (m : LaneSet) : State :=
  let mark := fun (p : Pulse) => if p.unit == some ser then { p with refused := p.refused ||| m } else p
  s.modCrew k fun c => { c with held := c.held.map mark }

/-- An access that reaches a home slice whose frame has no sinter state any more faults PROT, which is fatal (R226): FADDR is the
effective address of the lowest thread. -/
def State.frameGone (s : State) (k : Nat) (e : QEntry) (lane : Nat) : State :=
  s.contextFault (ctxOf k) (threadFault k { lane, cause := .prot, addr := BitVec.ofNat 64 e.va } e.pc)

/-- An append unit placed or refused at its home slice (R226, R227, R229). -/
def State.doAppend (s : State) (k : Nat) (e : QEntry) (frame : Nat) (elems : List (Nat × List Byte)) : State :=
  let lanes := laneSet (elems.map (·.1))
  match sget none s.sinter frame with
  | none => s.frameGone k e ((elems.headD (0, [])).1)
  | some x =>
    if x.sealed then s.refuse k e.ser lanes
    else
      let (placed, t) := placeUnit x.tail elems
      if x.size < t then s.addFlights k (elems.map fun (l, _) => flightOf e l 0xFFFFFFFF)
      else
        let s := writeUnit s frame x.tail placed
        let s := { s with sinter := sset none s.sinter frame (some { x with tail := t }) }
        s.addFlights k (placed.map fun (l, o, _) => flightOf e l (BitVec.ofNat 32 o))

/-- A seal at the home slice: the frame is sealed and the thread receives TAIL (R226, R229). -/
def State.doSeal (s : State) (k : Nat) (e : QEntry) (frame lane : Nat) : State :=
  match sget none s.sinter frame with
  | none => s.frameGone k e lane
  | some x =>
    let s := { s with sinter := sset none s.sinter frame (some { x with sealed := true }) }
    s.addFlights k [flightOf e lane (BitVec.ofNat 32 x.tail)]

/-- Perform a request at its home slice; an append of a deterministic grid is a logged choice (R258). `none`: it waits. -/
def State.doHome (s : State) (h : HomeReq) : Option State :=
  match h.e.op with
  | .append frame _ va elems item =>
    let ent : LogEnt := { kind := 5, grid := 0, item := item.toNat, key := va.toNat % 2 ^ 56 }
    match s.crewChoice h.crew ((elems.headD (0, [])).1) h.e.pc ent fun x => x.kind = 5 && x.key = ent.key with
    | .go s => some (s.doAppend h.crew h.e frame elems)
    | .wait => none
    | .fault s => some s
  | .seal frame lane => some (s.doSeal h.crew h.e frame lane)
  | .store _ _ => some s

/-- Whether the home slices hold what a queue entry writes, because the swap engine exchanges its frame (R225). -/
def State.opHeld (s : State) (o : QOp) : Bool :=
  match o with
  | .store pl bs => s.spanHeld pl bs.length
  | .append frame _ _ _ _ | .seal frame _ => s.swapping (.dev frame)

/-- Take request i of the home queue out and perform it; its counter falls when its flights have returned. It waits while its frame
is exchanged (R225). -/
def State.homeArrive (s : State) (i : Nat) : State :=
  match s.homeQ[i]? with
  | none => s
  | some h =>
    if s.opHeld h.e.op then s
    else match ({ s with homeQ := listDel s.homeQ i }).doHome h with
    | none => s
    | some s' => s'.fall h.crew h.e.lc h.e.ser

/-! ## The store queue -/

/-- Whether a request of a crew is on its way to its home slice. -/
def State.onWay (s : State) (k : Nat) : Bool := s.homeQ.any (·.crew == k)

/-- The entry at the head of a crew's store queue leaves it (R238): a store is performed, an append or a seal goes to its
home slice; the load counter falls when the entry was the last piece of its instruction (R349). An entry waits until the append or
seal before it has reached its home slice, so that all are visible in their order, and while its frame is exchanged (R225). -/
def State.drainOne (s : State) (k : Nat) : State :=
  match (s.crew k).queue with
  | [] => s
  | e :: rest =>
    if s.onWay k || s.opHeld e.op then s
    else
      let s := s.modCrew k fun c => { c with queue := rest }
      match e.op with
      | .store pl bs => (s.progWrite (if e.home then 0 else s.dieOf k) pl bs).fall k e.lc e.ser
      | _ => { s with homeQ := s.homeQ ++ [{ crew := k, e }] }

/-- The first request of a crew at the home slices is performed. -/
def State.homeFirst (s : State) (k : Nat) : State := s.homeArrive (s.homeQ.findIdx (·.crew == k))

/-- Drain n entries, each after the requests before it. -/
def State.drainN (s : State) (k : Nat) : Nat → State
  | 0 => s.homeFirst k
  | n + 1 => ((s.homeFirst k).drainOne k).drainN k n

/-- Every earlier entry of the crew's queue has left it and been performed: a release (notes after R246), an atomic (R238). -/
def State.drainAll (s : State) (k : Nat) : State := s.drainN k (s.crew k).queue.length

/-- Whether something of the crew's queue is held for a frame exchange, so that the queue cannot drain (R225). -/
def State.queueHeld (s : State) (k : Nat) : Bool :=
  (s.crew k).queue.any (fun e => s.opHeld e.op) || s.homeQ.any fun h => h.crew == k && s.opHeld h.e.op

/-- A release of device or system scope: what the crew's die holds dirty is written back to the home slices. -/
def State.cleanDie (s : State) (die : Nat) : State := { s with dirty := s.dirty.filter fun e => e.2 != die }

/-- A release of an agent scope and a storage scope (R241, R243, notes after R246): what the crew's queue holds is already in
order for the crew itself, and it holds nothing of the typed buffers. -/
def State.release (s : State) (k scope : Nat) (storage : BitVec 2 := 3) : State :=
  if scope ≤ 1 || storage = 2 then s
  else
    let s := s.drainAll k
    if 5 ≤ scope then s.cleanDie (s.dieOf k) else s

/-! ## Exact records -/

/-- One value added to an exact record (R251). -/
def exactAdd (r : Exact) (x : FVal) : Exact :=
  match x with
  | .nan => { r with flags := r.flags ||| 1 }
  | .inf false => { r with flags := r.flags ||| 2 }
  | .inf true => { r with flags := r.flags ||| 4 }
  | .fin n =>
    let sum : Int := r.value.toInt + n.at (-160)
    { r with value := BitVec.ofInt 320 sum,
             flags := if sum < -2 ^ 319 || 2 ^ 319 ≤ sum then r.flags ||| 8 else r.flags }

/-- What xflush returns for a record, with its flags (R252). -/
def exactValue (r : Exact) : Word × BitVec 4 :=
  let nan := r.flags.getLsbD 0
  let pinf := r.flags.getLsbD 1
  let ninf := r.flags.getLsbD 2
  let ovf := r.flags.getLsbD 3
  if nan || (pinf && ninf) || (ovf && !pinf && !ninf) then (0x7FC00000, flNV)
  else if pinf then (0x7F800000, 0)
  else if ninf then (0xFF800000, 0)
  else if r.value = 0 then (0, 0)
  else asWord (fp32.rne (Num.ofInt r.value.toInt (-160) false))

/-- The record that the first deterministic red.add.f32 to a word creates (R253). -/
def hiddenOf (w : Word) : Exact := exactAdd {} (f32 w)

/-- The place of byte i of a record that starts at `p` and, `split` bytes on, continues at `q` (R250). -/
def recByte (p q : Place) (split i : Nat) : Place := if i < split then p.add i else q.add (i - split)

/-- Bytes of a record before its page ends. -/
def splitAt (va : Nat) : Nat := 4096 - va % 4096

/-- The access of byte i of a record, with the byte's offset in it: a read above TAIL of a sinter page finds zero (R228, R250). -/
def AtomArg.hit (a : AtomArg) (i : Nat) : Hit × Nat :=
  let n := splitAt a.va
  if i < n then ({ pl := a.place, leaf := a.leaf, va := a.va }, i) else ({ pl := a.place2, leaf := a.leaf2, va := a.va + n }, i - n)

/-- Read a record (R250). -/
def State.readExact (s : State) (a : AtomArg) : Exact :=
  let bs := (List.range 48).map fun i => s.leafByte (a.hit i).1 (a.hit i).2
  { value := BitVec.ofNat 320 (field bs 0 40), flags := BitVec.ofNat 4 (field bs 40 1) }

/-- The first poisoned byte of a record. -/
def State.exactPoison (s : State) (a : AtomArg) : Option Nat :=
  (List.range 48).find? fun i => s.hitPois (a.hit i).1 (a.hit i).2

/-- Write bytes at places one by one. -/
def State.writeEach (s : State) (pl : Nat → Place) : Nat → List Byte → State
  | _, [] => s
  | i, b :: bs => (s.progWrite 0 (pl i) [b]).writeEach pl (i + 1) bs

/-- Write a record back: VALUE and the four flags; the other bits of the word at 0x28 are preserved (R250). -/
def State.writeExact (s : State) (a : AtomArg) (r : Exact) : State :=
  let pl := recByte a.place a.place2 (splitAt a.va)
  let old := s.placeByte (pl 40)
  let s := s.writeEach pl 0 (natToBytes 40 r.value.toNat)
  s.progWrite 0 (pl 40) [(old &&& 0xF0) ||| r.flags.setWidth 8]

/-! ## Atomics and reductions -/

/-- The new value of a word (R360, R361). -/
def newValue (op : AtomOp) (old x cmp : Word) : Word :=
  match op with
  | .add => old + x
  | .minS => if x.slt old then x else old
  | .minU => if x.ult old then x else old
  | .maxS => if old.slt x then x else old
  | .maxU => if old.ult x then x else old
  | .and => old &&& x
  | .or => old ||| x
  | .xor => old ^^^ x
  | .exch => x
  | .cas => if old = cmp then x else old
  | .addF => (fadd32 old x).1
  | .minF => fminmax32 false old x
  | .maxF => fminmax32 true old x
  | .addX | .xflush => old

/-- Hidden records of a context (R253). -/
def State.hiddenCount (s : State) (n : Nat) : Nat :=
  ((s.hidden ++ s.hostHidden).filter fun (_, x) => (x.map (·.ctx)) == some n).length +
    s.blocks.foldl (fun acc (_, b) => acc + ((b.map fun b => if b.ctx = n then b.hidden.length else 0).getD 0)) 0

/-- The hidden record of a word, if it has one. -/
def State.hiddenAt (s : State) (p : Place) : Option Exact :=
  match p with
  | .dev d => sget none s.hidden (d / 4)
  | .host d => sget none s.hostHidden (d / 4)
  | .loc b o => match s.block b with
    | some x => sget none x.hidden (o / 4)
    | none => none
  | .port _ => none

/-- Store a hidden record and the value of its word (R253). -/
def State.setHidden (s : State) (p : Place) (r : Exact) : State :=
  let bs := natToBytes 4 (exactValue r).1.toNat
  let s := s.tear p 4
  match p with
  | .dev d =>
    let s := s.devWriteKeep 0 d bs
    { s with hidden := sset none s.hidden (d / 4) (some r) }
  | .host d =>
    let s := s.hostWriteKeep d bs
    { s with hostHidden := sset none s.hostHidden (d / 4) (some r) }
  | .loc b o => (s.locWrite b o bs).modBlock b fun x => { x with hidden := sset none x.hidden (o / 4) (some r) }
  | .port _ => s

/-- Whether a place lies in a host-class page (R56). -/
def Place.onLink : Place → Bool
  | .host _ => true
  | _ => false

/-- Whether a reduction, or a part of an exact record (R250), goes to a host-class page. -/
def AtomArg.onLink (g : AtomArg) : Bool := g.place.onLink || g.place2.onLink

/-- The virtual address of the first of its bytes that lie in a host-class page. -/
def AtomArg.linkVa (g : AtomArg) : Nat := if g.place.onLink then g.va else g.va + splitAt g.va

/-- A write that the host link drops faults its context (R56). -/
def State.dropFault (s : State) (k va : Nat) : State :=
  let s := { s with dev := { s.dev with aer := s.dev.aer + 1 } }
  s.contextFault (ctxOf k) { cause := 0x0B, addr := BitVec.ofNat 64 va, lcore := BitVec.ofNat 7 (lcNum k), crew := BitVec.ofNat 8 (slotOf k) }

/-- Whether the host link cannot complete the read of the word at a place (R56; log entry 30). -/
def State.linkLost (s : State) (p : Place) : Bool :=
  match p with
  | .host a => Config.linkReadFails s.fresh (a / 4)
  | _ => false

/-- One thread's operation on a word, in one step (R247, R249, R253, R254): the state after it, and the old value. A reduction that the host
link cannot complete is dropped and reported (R56). -/
def State.atomStep (s : State) (k : Nat) (a : Atom) (g : AtomArg) : State × Word :=
  let old := bytesToWord (s.placeRead g.place 4)
  if !a.ret && s.linkLost g.place then (s.dropFault k g.va, old)
  else if s.placePois g.place then (s, old)
  else if a.op = .addF && a.det then
    match s.hiddenAt g.place with
    | some r => (s.setHidden g.place (exactAdd r (f32 g.x)), old)
    | none =>
      if 262080 ≤ s.hiddenCount (ctxOf k) then
        (s.launchFault (ctxOf k) 14 g.ea, old)
      else (s.setHidden g.place (exactAdd { hiddenOf old with ctx := ctxOf k } (f32 g.x)), old)
  else
    let die := if a.scope ≤ 4 then s.dieOf k else 0
    let new := newValue a.op old g.x g.cmp
    if a.op = .cas && new = old && old ≠ g.cmp then (s, old)
    else (s.progWrite die g.place (natToBytes 4 new.toNat), old)

/-- The choice that a returning atomic of a deterministic grid logs for its word (R258, R260). -/
def State.atomChoice (s : State) (k : Nat) (a : Atom) (g : AtomArg) : Choice :=
  if a.ret && a.op != .xflush then
    let ent : LogEnt := { kind := 4, grid := 0, item := g.item.toNat, key := g.va % 2 ^ 56 }
    s.crewChoice k g.lane a.pc ent fun x => x.kind = 4 && x.key = ent.key
  else .go s

/-- Perform the threads' operations of one instruction in ascending tid: the state, the results on their way, and the operations that
wait, in replay for their turn on their word (R261), or for the exchange of their frame (R225). -/
def State.atomArgs (s : State) (k : Nat) (a : Atom) : List AtomArg → State × List Flight × List AtomArg
  | [] => (s, [], [])
  | g :: gs =>
    let later := fun (s : State) =>
      let (s, fs, rest) := s.atomArgs k a gs
      (s, fs, g :: rest)
    if s.swapping g.place then later s
    else
      match s.atomChoice k a g with
      | .wait => later s
      | .fault s => (s, [], [])
      | .go s =>
        let pois := s.placePois g.place
        let (s, old) := s.atomStep k a g
        let fl : Flight := { lane := g.lane, dest := a.dest, words := [old], poison := if pois then some g.ea else none,
                             lc := a.lc, ser := a.ser, pc := a.pc, atomic := true }
        let (s, fs, rest) := s.atomArgs k a gs
        (s, if a.ret then fl :: fs else fs, rest)

/-- Perform the oldest pending atomic or reduction of a crew at the place of R247; what waits of it stays pending. -/
def State.atomPerform (s : State) (k : Nat) (a : Atom) : State :=
  let (s, fs, rest) := s.atomArgs k a a.args
  let s := s.addFlights k fs
  if rest.isEmpty then s else s.modCrew k fun c => { c with atoms := { a with args := rest } :: c.atoms }

/-- Perform an exact reduction or xflush (R251, R252, R254): a record with a poisoned word stays as it is; a reduction that the host link
cannot complete is dropped and reported (R56). -/
def State.exactPerform (s : State) (k : Nat) (a : Atom) : State :=
  a.args.foldl (fun s g =>
    let bad := s.exactPoison g
    if a.op = .xflush then
      let (w, fl) := exactValue (s.readExact g)
      let s := if bad.isNone then s.modCrew k fun c => { c with status := c.status ||| fl.setWidth 32 } else s
      s.addFlights k [{ lane := g.lane, dest := a.dest, words := [w], lc := a.lc, ser := a.ser, pc := a.pc, atomic := true,
                        poison := bad.map fun i => wordAddr g.ea i }]
    else if (List.range 48).any fun i => s.linkLost ((g.hit i).1.pl.add (g.hit i).2) then s.dropFault k g.linkVa
    else if bad.isSome then s
    else s.writeExact g (exactAdd (s.readExact g) (f32 g.x))) s

/-- Whether an operation is one on an exact record. -/
def AtomOp.exact : AtomOp → Bool
  | .addX | .xflush => true
  | _ => false

/-- Whether nothing of a pending operation can be performed now: a frame of it is held (R53, R225), or in replay each of its threads waits
for its turn on its word (R261). -/
def State.atomStuck (s : State) (k : Nat) (a : Atom) : Bool :=
  if a.op.exact then a.args.any fun g => (List.range 48).any fun i => s.swapping ((g.hit i).1.pl.add (g.hit i).2)
  else a.args.all fun g => s.swapping g.place || (match s.atomChoice k a g with
    | .wait => true
    | _ => false)

/-- The pending operation of a crew that is performed next: the oldest of which something can be performed. Operations of one thread are
never pending together (R238). -/
def State.nextAtom (s : State) (k : Nat) : Option Nat :=
  (List.range (s.crew k).atoms.length).find? fun i => ((s.crew k).atoms[i]?.map (s.atomStuck k)) == some false

/-- Remove pending operation i of a crew. -/
def State.popAtom (s : State) (k i : Nat) : State := s.modCrew k fun c => { c with atoms := listDel c.atoms i }

/-! ## Loads returning -/

/-- Load i of a crew returns: its registers are written, its counter may fall; a poisoned word raises POISON, which is
fatal, with FADDR at the word (R150, R255, R349). -/
def State.loadArrive (s : State) (k i : Nat) : State :=
  match (s.crew k).flights[i]? with
  | none => s
  | some f =>
    let s := s.modCrew k fun c => { (c.putAll f.lane f.dest f.words) with flights := listDel c.flights i }
    let s := s.fall k f.lc f.ser
    match f.poison with
    | some a => s.contextFault (ctxOf k) (threadFault k { lane := f.lane, cause := .poison, addr := a, faddr := some a } f.pc)
    | none => s

/-- All loads in flight return (R132, R166). -/
def State.loadsN (s : State) (k : Nat) : Nat → State
  | 0 => s
  | n + 1 => (s.loadArrive k 0).loadsN k n

/-- The next pending atomic, reduction or exact operation of a crew is performed, once every earlier entry of the crew's queue has
left it (R238); one that can do nothing now lets those of other threads pass (R225, R261). -/
def State.atomOne (s : State) (k : Nat) : State :=
  match s.nextAtom k with
  | none => s
  | some i =>
    match (s.crew k).atoms[i]? with
    | none => s
    | some a =>
      if !(s.crew k).queue.isEmpty || s.onWay k then s
      else if a.op.exact then ((s.popAtom k i).exactPerform k a).fall k a.lc a.ser
      else ((s.popAtom k i).atomPerform k a).fall k a.lc a.ser

/-- All pending atomics of a crew are performed. -/
def State.atomsN (s : State) (k : Nat) : Nat → State
  | 0 => s
  | n + 1 => (s.atomOne k).atomsN k n

/-- Everything the crew has outstanding is performed and returned (R132, R166, R170). -/
def State.quiesce (s : State) (k : Nat) : State :=
  let s := s.drainAll k
  let s := s.atomsN k (s.crew k).atoms.length
  s.loadsN k (s.crew k).flights.length

end Sys2Proof.Machine
end

