-- ==== Sys2Proof/Machine/Mem.lean ====
section
/-! DEFINITION. Class 2: loads, stores, tensor access, atomics, reductions, appends, seals, fences and cache operations
(R348 to R353, R357 to R366). The typed-buffer access of R354 to R356 stands in Buffers.lean. -/

namespace Sys2Proof.Machine

/-! ## Shared operations -/

/-- Hold the pulse at the word that runs (R150). -/
def State.holdAt (s : State) (p : Pulse) (c : HoldCond) : State := { s with cur := some { p with hold := some c } }

/-- The word that runs has been executed by these lanes: the watchpoints apply to them again (R381). -/
def State.clearSkip (s : State) (k : Nat) (ls : LaneSet) : State :=
  match (lanesOf ls).filter fun l => ((s.crew k).lane l).wpSkip with
  | [] => s
  | xs => s.setCrew k (xs.foldl (fun c l => c.modLane l fun x => { x with wpSkip := false }) (s.crew k))

/-- Whether a thread of P waits for a returning atomic of its own, or the crew has a reduction pending (R238); a scalar atomic is
every thread's. -/
def Crew.atomsBlock (c : Crew) (p : Pulse) : Bool :=
  (c.atoms.any fun a => !a.ret || isS a.dest || a.args.any fun g => p.part.getLsbD g.lane) ||
    c.flights.any fun f => f.atomic && (isS f.dest || p.part.getLsbD f.lane)

/-- The agent and storage scope of a word that is a release or a fence; a fence of crew scope counts as of core scope
(R348, R391). -/
def releaseOf : Instr → Option (Nat × Nat)
  | .stN8 f _ | .stN16 f _ | .stW32 f _ | .stW64 f _ | .stW128 f _ | .amoAdd f _ | .amoAnd f _ | .amoOr f _ | .amoXor f _
  | .amoExch f _ | .amoCas f _ _ | .redAddI f _ | .redAddF32 f _ | .redAnd f _ | .redOr f _ | .redXor f _
  | .sealPage f _ => if f.v == 1 then some (f.ag.toNat, f.st.toNat) else none
  | .fenceInsn f => some (max 2 f.ag.toNat, f.st.toNat)
  | _ => none

/-- Whether the word waits for every earlier matrix instruction of its crew: a release of core scope or wider whose
storage scope covers the buffers (R391). -/
def State.releaseWaits (s : State) (p : Pulse) (i : Instr) : Bool :=
  match releaseOf i with
  | some (ag, st) => 2 ≤ ag && 2 ≤ st && s.mtxBusy p.crew none
  | none => false

/-- Whether the word is performed only after the crew's queue has drained: a release, a fence, an atomic, a reduction (R238, R241). -/
def drains : Instr → Bool
  | .amoAdd _ _ | .amoMin _ _ | .amoMax _ _ | .amoAnd _ _ | .amoOr _ _ | .amoXor _ _ | .amoExch _ _ | .amoCas _ _ _ | .redAddI _ _
  | .redAddF32 _ _ | .redMin _ _ | .redMax _ _ | .redAnd _ _ | .redOr _ _ | .redXor _ _ | .redAddX _ _ | .xflush _ _ => true
  | i => (releaseOf i).isSome

/-- The instruction of a memory word has run from `s` to `t`: where an access of it waits for the home slices, nothing of it has happened
yet (R53, R225); else the watchpoints apply again to the threads that have executed the word (R381). -/
def State.memDone (t s : State) (p : Pulse) : State :=
  match t.cur.bind (·.hold) with
  | some (.exchange ps) => s.holdAt p (.exchange ps)
  | _ => t.clearSkip p.crew (match t.cur with
      | some q => q.part
      | none => p.part)

/-- A memory word: the checks of every word, then the counter limit of R150, the order of R238, the waits of R391 and of R225. Its
meaning receives the threads whose sources are poisoned. -/
def State.memWord (s : State) (i : Instr) (lc : BitVec 3) (body : State → Pulse → LaneSet → State) : Host.Outcome State Fault Refusal :=
  s.wordLate i fun s p bad =>
    let c := s.crew p.crew
    if lc.toNat < 6 && 63 ≤ sget 0 c.lcs lc.toNat then s.holdAt p (.counter lc.toNat)
    else if c.atomsBlock p then s.holdAt p .atoms
    else if s.releaseWaits p i then s.holdAt p (.matrix none)
    else if drains i && s.queueHeld p.crew then s.holdAt p .drained
    else
      (body s p bad).memDone s p

/-- The effective address of R283 for lane l. -/
def State.ea (s : State) (k l : Nat) (f : FmtM) (ix : Word) : DWord :=
  let base := s.src64 k l f.a
  if f.e == 1 then
    let idx := if idxCode ix == 0xE4 then 0 else (s.src k l (idxCode ix)).signExtend 64
    base + idx + (ix.extractLsb' 0 24).signExtend 64
  else base

/-- Whether no operand is of vector kind (R350). -/
def allScalar (xs : List (BitVec 8)) : Bool := !xs.any isVecSrc

/-- The threads that perform an instruction: all of P, or the lowest alone for a scalar one (R350). -/
def performers (p : Pulse) (scalar : Bool) : List Nat := if scalar then (lanesOf p.part).take 1 else lanesOf p.part

/-- Open the record or the request of an access that failed with a replayable fault (R212, R220). -/
def State.openFor (s : State) (n : Nat) (r : Option FaultRec) (ats : Option (Nat × FaultRec)) : State :=
  let s := match r with
    | some r => s.joinRecord n r
    | none => s
  match ats with
  | some (a, who) => if s.ats.any (fun q => q.ctx == n && q.addr == a) then s
      else { s with ats := s.ats ++ [{ ctx := n, addr := a, write := who.write, who := some who }] }
  | none => s

/-- The XFAULTs that threads take are counted (source 7 of R382). -/
def State.countParks (s : State) (k : Nat) (ts : List Taken) : State :=
  match (ts.filter (·.cause = .xfault)).length with
  | 0 => s
  | n => s.countEvt (s.siteOf (lcOf k)) 7 n

/-- A cause is taken by its thread, or by every thread of P for a scalar instruction (R350). -/
def spread (p : Pulse) (scalar : Bool) (t : Taken) : List Taken :=
  if scalar then (lanesOf p.part).map fun l => { t with lane := l } else [t]

/-- A word that is the release side of an edge of R246: it waits until the crew's pending atomics and reductions have been performed
and its queue can drain (R225, R238, R241). -/
def State.edgeWord (s : State) (i : Instr) (body : State → Pulse → LaneSet → State) : Host.Outcome State Fault Refusal :=
  s.wordLate i fun s p bad =>
    if (s.crew p.crew).atomsBlock p then s.holdAt p .atoms
    else if s.queueHeld p.crew then s.holdAt p .drained
    else body s p bad

/-- The accesses as the threads meet them when some of them have poisoned sources: POISON is the last cause of R289. -/
def taint (bad : LaneSet) (accs : List (Nat × DWord × Acc)) : List (Nat × DWord × Acc) :=
  accs.map fun (l, ea, a) => (l, ea, match a with
    | .ok _ => if bad.getLsbD l then .no { lane := l, cause := .poison } none none else a
    | .no t _ _ => if bad.getLsbD l && decide (t.cause = .watch) then .no { lane := l, cause := .poison } none none else a
    | .hold _ => a)

/-- The bytes of an access of n bytes that lie in its first page. -/
def Hit.span (h : Hit) (n : Nat) : Nat := if h.leaf.isSome then min n (splitAt h.va) else n

/-- What an instruction that reads n bytes by each access at once waits for at its word: the home slices hold what it reads, or what
its walk reads (R53, R225), or it reads a device register while the crew's earlier accesses of the queue are held (R211). -/
def State.readsHold (s : State) (p : Pulse) (n : Nat) (accs : List (Nat × DWord × Acc)) : Option HoldCond :=
  match accs.flatMap fun (_, _, a) => match a with
    | .ok h => s.heldLines h.pl (h.span n)
    | .hold q => [q]
    | .no _ _ _ => [] with
  | [] => if (accs.any fun (_, _, a) => match a with
      | .ok h => h.pl.isPort
      | _ => false) && s.queueHeld p.crew then some .drained else none
  | qs => some (.exchange qs)

/-- The crew's earlier accesses are performed before it reads a device register (R211). -/
def State.portOrder (s : State) (p : Pulse) (oks : List (Nat × DWord × Hit)) : State :=
  if oks.any fun (_, _, h) => h.pl.isPort then s.drainAll p.crew else s

/-- Settle the accesses of an instruction: causes are delivered, fault records and ATS requests opened (R212, R220), parked threads
counted (R382), translations cached; what is left are the accesses that go ahead. Where a walk waits for the home slices, the
instruction stands at its word (R53, R225). -/
def State.settle (s : State) (p : Pulse) (bad : LaneSet) (scalar : Bool) (accs : List (Nat × DWord × Acc)) :
    State × List (Nat × DWord × Hit) :=
  let n := ctxOf p.crew
  let accs := taint bad accs
  let held := accs.filterMap fun (_, _, a) => match a with
    | .hold q => some q
    | _ => none
  if !held.isEmpty then (s.holdAt p (.exchange held), [])
  else
    let oks := accs.filterMap fun (l, ea, a) => match a with
      | .ok h => some (l, ea, h)
      | _ => none
    let takes := accs.flatMap fun (_, _, a) => match a with
      | .no t _ _ => spread p scalar t
      | _ => []
    let s := accs.foldl (fun (s : State) (_, _, a) => match a with
      | .ok h => (match h.leaf with
          | some lf => s.cacheLeaf n h.va lf
          | none => s)
      | .no _ r ats => s.openFor n r ats
      | .hold _ => s) s
    let s := s.countParks p.crew takes
    (s.deliverAt p takes, oks)

/-- The translations that an evaluation took stay in the caches (R213). -/
def State.cacheHits (s : State) (n : Nat) (hs : List Hit) : State :=
  hs.foldl (fun s h => match h.leaf with
    | some lf => s.cacheLeaf n h.va lf
    | none => s) s

/-- Accesses of the performing threads at their addresses. -/
def State.tries (s : State) (p : Pulse) (ls : List Nat) (ea : Nat → DWord) (n align : Nat) (kind : AccKind) :
    List (Nat × DWord × Acc) :=
  ls.map fun l => (l, ea l, s.access p.crew l p.pc (ea l) n align kind)

/-- The place of a cause in the list of R289. -/
def Cause.place : Cause → Nat
  | .illegal _ => 1
  | .bufperm | .tshape => 2
  | .aperture => 3
  | .misalign => 4
  | .amocol => 5
  | .xfault => 6
  | .prot => 7
  | .wseal => 8
  | .poison => 9
  | _ => 10

/-- Whether an access ends before another one of the same instruction in the order of R289; a walk that waits has no end yet. -/
def Acc.before : Acc → Acc → Bool
  | .no t _ _, .no u _ _ => t.cause.place ≤ u.cause.place
  | .no t _ _, .hold _ => t.cause.place < 6
  | .ok _, .no _ _ _ | .ok _, .hold _ => false
  | _, _ => true

/-- A part of an access takes what it meets at the access's effective address (R222, R294). -/
def Acc.from (ea : DWord) : Acc → Acc
  | .no t r ats => .no { t with addr := ea } (r.map fun x => { x with ea }) (ats.map fun (a, x) => (a, { x with ea }))
  | a => a

/-- A thread's access of n bytes, aligned to `align`, that may go on in a second page of the address space (R205, R206, R250): how it ends,
by the order of R289, and its parts that go ahead. -/
def State.spanAccess (s : State) (k l : Nat) (pc ea : DWord) (n align : Nat) (kind : AccKind) : Acc × List Hit :=
  let a := s.access k l pc ea n align kind
  let hits := fun (as_ : List Acc) => as_.filterMap fun x => match x with
    | .ok h => some h
    | _ => none
  match s.window k l ea n with
  | .global va =>
    if splitAt va < n then
      let b := (s.access k l pc (ea + BitVec.ofNat 64 (splitAt va)) (n - splitAt va) 1 kind).from ea
      (if a.before b then a else b, hits [a, b])
    else (a, hits [a])
  | _ => (a, hits [a])

/-- The pulse as it stands after causes were delivered. -/
def State.pulse (s : State) (p : Pulse) : Pulse := s.cur.getD p

/-- Write zero to the helpers' destinations: a helper loads nothing (R165). -/
def State.zeroHelpers (s : State) (p : Pulse) (x : BitVec 8) (n : Nat) : State :=
  if isV x then
    match lanesOf p.helpers with
    | [] => s
    | hs => s.setCrew p.crew (hs.foldl (fun c l => c.putAll l x (List.replicate n 0)) (s.crew p.crew))
  else s

/-! ## Loads -/

/-- How the bytes of a load become registers (R352). -/
inductive LoadType where
  | i8
  | n8
  | i16
  | n16
  | w32
  | w64
  | w128
deriving DecidableEq, Repr

/-- Bytes of a load. -/
def LoadType.bytes : LoadType → Nat
  | .i8 | .n8 => 1
  | .i16 | .n16 => 2
  | .w32 => 4
  | .w64 => 8
  | .w128 => 16

/-- Registers of a load. -/
def LoadType.regs : LoadType → Nat
  | .w64 => 2
  | .w128 => 4
  | _ => 1

/-- The register words of the bytes read (R352). -/
def LoadType.words (t : LoadType) (bs : List Byte) : List Word :=
  match t with
  | .i8 => [((bytesToWord bs).extractLsb' 0 8).signExtend 32]
  | .i16 => [((bytesToWord bs).extractLsb' 0 16).signExtend 32]
  | .n8 | .n16 => [bytesToWord bs]
  | _ => bytesToWords t.regs bs

/-- Issue loads: one flight per access, counted once (R150, R349). -/
def State.issueLoads (s : State) (p : Pulse) (dest : BitVec 8) (lc : BitVec 3)
    (ls : List (Nat × List Word × Option DWord)) : State :=
  if ls.isEmpty then s
  else
    let (s, ser) := s.rise p.crew lc.toNat
    s.addFlights p.crew (ls.map fun (l, ws, po) =>
      { lane := l, dest, words := ws, poison := po, lc := lc.toNat, ser, pc := p.pc })

/-- A load (R352): each thread reads at the word's issue; the registers are written when the load returns. -/
def State.load (s : State) (p : Pulse) (bad : LaneSet) (f : FmtM) (ix : Word) (t : LoadType) : State :=
  let n := t.bytes
  let scalar := isS f.x
  let accs := s.tries p (performers p scalar) (fun l => s.ea p.crew l f ix) n n .read
  match s.readsHold p n accs with
  | some c => s.holdAt p c
  | none =>
    let (s', oks) := s.settle p bad scalar accs
    let s' := s'.portOrder p oks
    let reads := oks.map fun (l, ea, h) =>
      (l, t.words (s'.loadBytes p.crew h n),
        (s'.loadPoison p.crew h n).map fun i => wordAddr ea i)
    let s' := (s'.issueLoads p f.x f.lc reads).zeroHelpers p f.x t.regs
    if f.lc.toNat < 6 then s'.countEvt (s.siteOf (lcOf p.crew)) 6 1 else s'

/-- ld.i8 (R352). -/
def execLdI8 (f : FmtM) (ix : Word) (s : State) : Out := s.memWord (.ldI8 f ix) f.lc fun s p bad => s.load p bad f ix .i8
/-- ld.n8 (R352). -/
def execLdN8 (f : FmtM) (ix : Word) (s : State) : Out := s.memWord (.ldN8 f ix) f.lc fun s p bad => s.load p bad f ix .n8
/-- ld.i16 (R352). -/
def execLdI16 (f : FmtM) (ix : Word) (s : State) : Out := s.memWord (.ldI16 f ix) f.lc fun s p bad => s.load p bad f ix .i16
/-- ld.n16 (R352). -/
def execLdN16 (f : FmtM) (ix : Word) (s : State) : Out := s.memWord (.ldN16 f ix) f.lc fun s p bad => s.load p bad f ix .n16
/-- ld.w32 (R352). -/
def execLdW32 (f : FmtM) (ix : Word) (s : State) : Out := s.memWord (.ldW32 f ix) f.lc fun s p bad => s.load p bad f ix .w32
/-- ld.w64 (R352). -/
def execLdW64 (f : FmtM) (ix : Word) (s : State) : Out := s.memWord (.ldW64 f ix) f.lc fun s p bad => s.load p bad f ix .w64
/-- ld.w128 (R352). -/
def execLdW128 (f : FmtM) (ix : Word) (s : State) : Out := s.memWord (.ldW128 f ix) f.lc fun s p bad => s.load p bad f ix .w128

/-! ## Stores -/

/-- Enter stores in the crew's queue in ascending tid (R238, R350); a store to local memory is performed at the owning
banks at once (R239, R353). -/
def State.issueStores (s : State) (p : Pulse) (lc : BitVec 3) (home : Bool) (xs : List (Nat × Place × List Byte)) : State :=
  if xs.isEmpty then s
  else
    let (s, ser) := s.rise p.crew lc.toNat
    let s := xs.foldl (fun (s : State) (va, pl, bs) => match pl with
      | .loc b o => s.locWrite b o bs
      | _ => s.modCrew p.crew fun c =>
          { c with queue := c.queue ++ [{ op := .store pl bs, lc := lc.toNat, ser, pc := p.pc, va, home }] }) s
    s.fall p.crew lc.toNat ser

/-- The r words of a source that a store takes (R353): consecutive registers, or a constant extended by zeros (R285). -/
def State.srcWords (s : State) (k l : Nat) (x : BitVec 8) (r : Nat) : List Word :=
  (List.range r).map fun i => if i = 0 || isV x || isS x then s.src k l (regAt x i) else 0

/-- A store of n bytes in r registers (R353); V is a release of its agent scope. -/
def State.store (s : State) (p : Pulse) (bad : LaneSet) (f : FmtM) (ix : Word) (n r : Nat) : State :=
  let scalar := allScalar (f.x :: addrOperands f ix)
  let (s', oks) := s.settle p bad scalar (s.tries p (performers p scalar) (fun l => s.ea p.crew l f ix) n n .write)
  let xs := oks.map fun (l, _, h) =>
    (h.va, h.pl, (wordsToBytes (s.srcWords p.crew l f.x r)).take n)
  let s' := if f.v == 1 then s'.release p.crew f.ag.toNat f.st else s'
  s'.issueStores p f.lc (f.v == 1 && 5 ≤ f.ag.toNat) xs

/-- st.n8, st.i8 (R353). -/
def execStN8 (f : FmtM) (ix : Word) (s : State) : Out := s.memWord (.stN8 f ix) f.lc fun s p bad => s.store p bad f ix 1 1
/-- st.n16, st.i16 (R353). -/
def execStN16 (f : FmtM) (ix : Word) (s : State) : Out := s.memWord (.stN16 f ix) f.lc fun s p bad => s.store p bad f ix 2 1
/-- st.w32 (R353). -/
def execStW32 (f : FmtM) (ix : Word) (s : State) : Out := s.memWord (.stW32 f ix) f.lc fun s p bad => s.store p bad f ix 4 1
/-- st.w64 (R353). -/
def execStW64 (f : FmtM) (ix : Word) (s : State) : Out := s.memWord (.stW64 f ix) f.lc fun s p bad => s.store p bad f ix 8 2
/-- st.w128 (R353). -/
def execStW128 (f : FmtM) (ix : Word) (s : State) : Out := s.memWord (.stW128 f ix) f.lc fun s p bad => s.store p bad f ix 16 4

/-! ## Tensor access -/

/-- A tensor window (R357). -/
structure TWin where
  dim : Nat
  k : Nat
  st : Nat
  dil : Nat
  pl : Nat
  en : Bool
  bad : Bool
deriving DecidableEq, Repr

/-- A shape record (R357). -/
structure Shape where
  base : Nat
  esz : Nat
  rank : Nat
  clip : Nat
  sx : Bool
  swz : Nat
  pad : Word
  dims : List Nat
  strides : List Nat
  wins : List TWin
  bad : Bool
deriving DecidableEq, Repr

/-- Window j of the WIN field (R357). -/
def winOf (x j : Nat) : TWin :=
  let w := bits x (21 * j) 21
  { dim := bits w 0 3, k := bits w 3 3 + 1, st := bits w 6 3 + 1, dil := bits w 9 3 + 1, pl := bits w 12 5,
    en := bit w 17, bad := bits w 18 3 != 0 }

/-- Read the fields of a shape record from its 64 bytes; `bad` says that one is outside its limits (R357). tld and tst ignore WIN. -/
def shapeOf (bs : List Byte) (win : Bool) : Shape :=
  let base := field bs 0 8
  let c := field bs 8 4
  let esz := bits c 0 2
  let rank := bits c 2 3
  let clip := bits c 5 2
  let swz := bits c 8 2
  let w := field bs 0x38 8
  let wins := (List.range 3).map (winOf w)
  let en := wins.filter (·.en)
  let badWin := bit w 63 || wins.any (·.bad) || en.any (fun w => rank ≤ w.dim) || (dedup (en.map (·.dim))).length != en.length
  let bad := base % 2 ^ esz != 0 || (swz != 0 && base % 128 != 0) || esz == 3 || rank == 0 || clip == 3 ||
    bits c 10 22 != 0 || field bs 0x1E 2 != 0 || (win && badWin)
  { base, esz, rank, clip, sx := bit c 7, swz, pad := BitVec.ofNat 32 (field bs 0xC 4)
    dims := (List.range 7).map fun d => field bs (0x10 + 2 * d) 2
    strides := 1 :: (List.range 6).map fun d => field bs (0x20 + 4 * d) 4
    wins, bad }

/-- What a thread's coordinates name (R359). -/
inductive Elem where
  | at (ea : DWord)
  | pad
  | none
  | shape
  | fault
deriving DecidableEq, Repr

/-- Apply the windows of tld.win to the coordinates and take the tap apart (R359). -/
def applyWins : List TWin → List Int → Nat → List Int × Nat
  | [], c, k => (c, k)
  | w :: ws, c, k =>
    if w.en then
      applyWins ws (listSet c w.dim (c.getD w.dim 0 * w.st + (k % w.k : Nat) * w.dil - w.pl)) (k / w.k)
    else applyWins ws c k

/-- The element of a thread (R359). -/
def elemAt (sh : Shape) (store : Bool) (c : List Int) (k : Nat) (win : Bool) : Elem :=
  let (c, k) := if win then applyWins sh.wins c k else (c, 0)
  if k ≠ 0 then .shape
  else
    let out := (List.range sh.rank).filter fun d => c.getD d 0 < 0 || (sh.dims.getD d 0 : Int) < c.getD d 0
    let addr := fun (c : List Int) =>
      let off := 2 ^ sh.esz * (List.range sh.rank).foldl (fun a d => a + (c.getD d 0).toNat * sh.strides.getD d 0) 0
      let off := if sh.swz = 0 then off else off ^^^ (off / 128 % 2 ^ sh.swz * 16)
      Elem.at (BitVec.ofNat 64 (sh.base + off))
    if out.isEmpty then addr c
    else if sh.clip = 0 then (if store then .none else .pad)
    else if sh.clip = 1 then
      (if store then .none
       else addr (out.foldl (fun c d => listSet c d (max 0 (min (c.getD d 0) (sh.dims.getD d 0 : Int)))) c))
    else .fault

/-- The element of a shape as a register word: its low bytes, extended by SX (R359). -/
def elemWord (sh : Shape) (bs : List Byte) : Word := extend sh.sx (8 * 2 ^ sh.esz) (bytesToWord bs)

/-- The bytes that a read of n bytes in pages returns, by the parts of its access. -/
def State.spanBytes (s : State) (k n : Nat) : List Hit → List Byte
  | [h, g] => s.loadBytes k h (splitAt h.va) ++ s.loadBytes k g (n - splitAt h.va)
  | h :: _ => s.loadBytes k h n
  | [] => []

/-- The offset of the first poisoned word among those that a read of n bytes in pages returns (R255). -/
def State.spanPoison (s : State) (k n : Nat) : List Hit → Option Nat
  | [h, g] =>
    (match s.loadPoison k h (splitAt h.va) with
      | some i => some i
      | none => (s.loadPoison k g (n - splitAt h.va)).map (splitAt h.va + ·))
  | h :: _ => s.loadPoison k h n
  | [] => none

/-- How the read of a record by every thread of P ends: it waits at its word, it raised a cause, or its bytes. -/
inductive RecRead where
  | wait (s : State)
  | no (s : State)
  | ok (s : State) (bs : List Byte)

/-- A record of n bytes read once as a plain load of the crew, aligned to its size (R351, R357, R403): every thread of P takes what it
raises. -/
def State.readCrewRec (s : State) (p : Pulse) (bad : LaneSet) (ea : DWord) (n : Nat) : RecRead :=
  let l := lowLane p.part
  let (acc, hs) := s.spanAccess p.crew l p.pc ea n n .read
  match s.readsHold p n ((l, ea, acc) :: hs.map fun h => (l, ea, .ok h)) with
  | some c => .wait (s.holdAt p c)
  | none =>
    let (s', oks) := s.settle p bad true [(l, ea, acc)]
    let s' := s'.cacheHits (ctxOf p.crew) hs
    if oks.isEmpty then .no s'
    else match s.spanPoison p.crew n hs with
      | some i => .no (s'.deliverAll p .poison (wordAddr ea i) (some (wordAddr ea i)))
      | none => .ok s' (s.spanBytes p.crew n hs)

/-- The threads of P for which a scalar register pair is poisoned: all of them or none. -/
def State.pairTaint (s : State) (p : Pulse) (a : BitVec 8) : LaneSet :=
  if (s.crew p.crew).poisoned (lowLane p.part) a 2 then p.part else 0

/-- The shape record of a tensor instruction (R351, R357), 64-byte aligned; its WIN field counts for tld.win alone. -/
def State.shapeRec (s : State) (p : Pulse) (f : FmtM) (win : Bool) : State × Option Shape :=
  match s.readCrewRec p (s.pairTaint p f.a) (s.src64 p.crew (lowLane p.part) f.a) 64 with
  | .wait s' | .no s' => (s', none)
  | .ok s' bs =>
    let sh := shapeOf bs win
    if sh.bad then (s'.deliverAll p .tshape, none) else (s', some sh)

/-- The coordinates of a lane, from the register the literal names (R358). -/
def State.coords (s : State) (k l : Nat) (c : BitVec 8) (rank : Nat) : List Int :=
  (List.range rank).map fun i => (s.src k l (regAt c i)).toInt

/-- The threads whose coordinate registers are poisoned (R255). -/
def State.coordTaint (s : State) (p : Pulse) (c : BitVec 8) (rank : Nat) : LaneSet :=
  laneSet ((lanesOf p.part).filter fun l => (s.crew p.crew).poisoned l c rank)

/-- Whether the coordinate registers pass the last register (R358). -/
def coordsPast (r : LaunchRec) (c : BitVec 8) (rank : Nat) : Bool :=
  if isV c then r.vregs < c.toNat + rank else 0xE0 < c.toNat + rank

/-- A tensor load (R357 to R359). -/
def State.tensorLoad (s : State) (p : Pulse) (bad : LaneSet) (f : FmtM) (lit : Word) (win : Bool) : State :=
  let c : BitVec 8 := lit.truncate 8
  let t : BitVec 8 := lit.extractLsb' 8 8
  match s.shapeRec p f win with
  | (s', none) => s'
  | (s', some sh) =>
    if coordsPast (s.recOf p.crew) c sh.rank then s'.deliverAll p .tshape
    else
      let scalar := isS f.x
      let ls := performers p scalar
      let el := fun l => elemAt sh false (s.coords p.crew l c sh.rank) (s.src p.crew l t).toNat win
      let n := 2 ^ sh.esz
      let accs := ls.filterMap fun l => match el l with
        | .at ea => some (l, ea, s.access p.crew l p.pc ea n n .read)
        | .shape => some (l, 0, .no { lane := l, cause := .tshape } none none)
        | .fault => some (l, 0, .no { lane := l, cause := .aperture } none none)
        | _ => none
      let bad := bad ||| s.coordTaint p c sh.rank
      let pad := (ls.filter fun l => el l == .pad)
      let out := (pad.filter fun l => bad.getLsbD l).map fun l => (l, 0, .no { lane := l, cause := .poison } none none)
      match s.readsHold p n accs with
      | some c => s.holdAt p c
      | none =>
        let (s'', oks) := s'.settle p bad scalar (sortBy (·.1) (accs ++ out))
        let s'' := s''.portOrder p oks
        let reads := oks.map fun (l, ea, h) =>
          (l, [elemWord sh (s''.loadBytes p.crew h n)],
            (s''.loadPoison p.crew h n).map fun i => wordAddr ea i)
        let pads := (pad.filter fun l => !bad.getLsbD l).map fun l => (l, [elemWord sh (natToBytes n sh.pad.toNat)], none)
        let s'' := (s''.issueLoads p f.x f.lc (reads ++ pads)).zeroHelpers p f.x 1
        if f.lc.toNat < 6 then s''.countEvt (s.siteOf (lcOf p.crew)) 6 1 else s''

/-- tld (R359). -/
def execTld (f : FmtM) (lit : Word) (s : State) : Out := s.memWord (.tld f lit) f.lc fun s p bad => s.tensorLoad p bad f lit false
/-- tld.win (R359). -/
def execTldWin (f : FmtM) (lit : Word) (s : State) : Out :=
  s.memWord (.tldWin f lit) f.lc fun s p bad => s.tensorLoad p bad f lit true

/-- A tensor store (R359). -/
def State.tensorStore (s : State) (p : Pulse) (bad : LaneSet) (f : FmtM) (lit : Word) : State :=
  let c : BitVec 8 := lit.truncate 8
  match s.shapeRec p f false with
  | (s', none) => s'
  | (s', some sh) =>
    if coordsPast (s.recOf p.crew) c sh.rank then s'.deliverAll p .tshape
    else
      let scalar := allScalar [f.x, c]
      let n := 2 ^ sh.esz
      let bad := bad ||| s.coordTaint p c sh.rank
      let accs := (performers p scalar).filterMap fun l =>
        match elemAt sh true (s.coords p.crew l c sh.rank) 0 false with
        | .at ea => some (l, ea, s.access p.crew l p.pc ea n n .write)
        | .shape => some (l, 0, .no { lane := l, cause := .tshape } none none)
        | .fault => some (l, 0, .no { lane := l, cause := .aperture } none none)
        | _ => if bad.getLsbD l then some (l, 0, .no { lane := l, cause := .poison } none none) else none
      let (s'', oks) := s'.settle p bad scalar accs
      s''.issueStores p f.lc false (oks.map fun (l, _, h) => (h.va, h.pl, natToBytes n (s.src p.crew l f.x).toNat))

/-- tst (R359). -/
def execTst (f : FmtM) (lit : Word) (s : State) : Out := s.memWord (.tst f lit) f.lc fun s p bad => s.tensorStore p bad f lit

/-! ## Atomics, reductions, exact records -/

/-- Whether two threads' words meet (R249). -/
def collide : List (Nat × DWord × Hit) → Bool
  | [] => false
  | (_, _, h) :: rest => rest.any (fun (_, _, g) => decide (h.pl = g.pl)) || collide rest

/-- Issue an atomic or reduction: it is performed after every earlier entry of the queue has left it (R238, R247). -/
def State.issueAtom (s : State) (p : Pulse) (f : FmtM) (a : Atom) : State :=
  if a.args.isEmpty then s
  else
    let s := s.drainAll p.crew
    let (s, ser) := s.rise p.crew f.lc.toNat
    s.modCrew p.crew fun c => { c with atoms := c.atoms ++ [{ a with lc := f.lc.toNat, ser, pc := p.pc }] }

/-- The scope of an atomic: code 0 acts as crew (R348). -/
def atomScope (f : FmtM) : Nat := max 1 f.ag.toNat

/-- A returning atomic (R249, R360). Where two threads' words overlap, every thread takes AMOCOL. -/
def State.amo (s : State) (p : Pulse) (bad : LaneSet) (f : FmtM) (ix : Word) (op : AtomOp) (cmp : Option (BitVec 8)) : State :=
  let scalar := isS f.x
  let accs := s.tries p (performers p scalar) (fun l => s.ea p.crew l f ix) 4 4 .atomic
  let aimed := accs.filterMap fun (l, ea, _) => match s.window p.crew l ea 4 with
    | .bad => none
    | .loc b o => some (l, ea, { pl := .loc b o })
    | .global va => some (l, ea, { pl := .dev va })
  let early := fun (l : Nat) => accs.findSome? fun (j, _, a) => match a with
    | .no t _ _ => if j = l && (t.cause = .aperture || t.cause = .misalign) then some t else none
    | _ => none
  if collide (aimed.filter fun (l, _, _) => (early l).isNone) then
    s.deliverAt p (accs.flatMap fun (l, ea, _) =>
      spread p scalar ((early l).getD { lane := l, cause := .amocol, addr := ea }))
  else
    let (s', oks) := s.settle p bad scalar accs
    let args := oks.map fun (l, ea, h) =>
      { lane := l, place := h.pl, place2 := h.pl, ea, va := if h.leaf.isSome then h.va else ea.toNat,
        x := s.src p.crew l f.x, cmp := (cmp.map (s.src p.crew l)).getD 0, item := ((s.crew p.crew).lane l).item }
    let s' := if f.v == 1 && op != .minS && op != .minU && op != .maxS && op != .maxU then
      s'.release p.crew f.ag.toNat f.st else s'
    (s'.issueAtom p f { op, args, ret := true, scope := atomScope f, dest := f.x }).zeroHelpers p f.x 1

/-- A reduction (R249, R361). -/
def State.red (s : State) (p : Pulse) (bad : LaneSet) (f : FmtM) (ix : Word) (op : AtomOp) (rel : Bool) : State :=
  let scalar := allScalar (f.x :: addrOperands f ix)
  let (s', oks) := s.settle p bad scalar (s.tries p (performers p scalar) (fun l => s.ea p.crew l f ix) 4 4 .atomic)
  let args := oks.map fun (l, ea, h) =>
    { lane := l, place := h.pl, place2 := h.pl, ea, va := if h.leaf.isSome then h.va else ea.toNat, x := s.src p.crew l f.x
      item := ((s.crew p.crew).lane l).item }
  let s' := if rel then s'.release p.crew f.ag.toNat f.st else s'
  s'.issueAtom p f { op, args, ret := false, scope := atomScope f, det := (s.recOf p.crew).det }

/-- amo.add (R360). -/
def execAmoAdd (f : FmtM) (ix : Word) (s : State) : Out :=
  s.memWord (.amoAdd f ix) f.lc fun s p bad => s.amo p bad f ix .add none
/-- amo.min (R360): V selects signed or unsigned. -/
def execAmoMin (f : FmtM) (ix : Word) (s : State) : Out :=
  s.memWord (.amoMin f ix) f.lc fun s p bad => s.amo p bad f ix (if f.v == 1 then .minU else .minS) none
/-- amo.max (R360). -/
def execAmoMax (f : FmtM) (ix : Word) (s : State) : Out :=
  s.memWord (.amoMax f ix) f.lc fun s p bad => s.amo p bad f ix (if f.v == 1 then .maxU else .maxS) none
/-- amo.and (R360). -/
def execAmoAnd (f : FmtM) (ix : Word) (s : State) : Out :=
  s.memWord (.amoAnd f ix) f.lc fun s p bad => s.amo p bad f ix .and none
/-- amo.or (R360). -/
def execAmoOr (f : FmtM) (ix : Word) (s : State) : Out :=
  s.memWord (.amoOr f ix) f.lc fun s p bad => s.amo p bad f ix .or none
/-- amo.xor (R360). -/
def execAmoXor (f : FmtM) (ix : Word) (s : State) : Out :=
  s.memWord (.amoXor f ix) f.lc fun s p bad => s.amo p bad f ix .xor none
/-- amo.exch (R360). -/
def execAmoExch (f : FmtM) (ix : Word) (s : State) : Out :=
  s.memWord (.amoExch f ix) f.lc fun s p bad => s.amo p bad f ix .exch none
/-- amo.cas (R360): the compare operand is named by its literal word. -/
def execAmoCas (f : FmtM) (ix cmp : Word) (s : State) : Out :=
  s.memWord (.amoCas f ix cmp) f.lc fun s p bad => s.amo p bad f ix .cas (some (cmp.truncate 8))

/-- red.add.i (R361). -/
def execRedAddI (f : FmtM) (ix : Word) (s : State) : Out :=
  s.memWord (.redAddI f ix) f.lc fun s p bad => s.red p bad f ix .add (f.v == 1)
/-- red.add.f32 (R253, R361). -/
def execRedAddF32 (f : FmtM) (ix : Word) (s : State) : Out :=
  s.memWord (.redAddF32 f ix) f.lc fun s p bad => s.red p bad f ix .addF (f.v == 1)
/-- red.min (R361): V selects i32 or f32. -/
def execRedMin (f : FmtM) (ix : Word) (s : State) : Out :=
  s.memWord (.redMin f ix) f.lc fun s p bad => s.red p bad f ix (if f.v == 1 then .minF else .minS) false
/-- red.max (R361). -/
def execRedMax (f : FmtM) (ix : Word) (s : State) : Out :=
  s.memWord (.redMax f ix) f.lc fun s p bad => s.red p bad f ix (if f.v == 1 then .maxF else .maxS) false
/-- red.and (R361). -/
def execRedAnd (f : FmtM) (ix : Word) (s : State) : Out :=
  s.memWord (.redAnd f ix) f.lc fun s p bad => s.red p bad f ix .and (f.v == 1)
/-- red.or (R361). -/
def execRedOr (f : FmtM) (ix : Word) (s : State) : Out :=
  s.memWord (.redOr f ix) f.lc fun s p bad => s.red p bad f ix .or (f.v == 1)
/-- red.xor (R361). -/
def execRedXor (f : FmtM) (ix : Word) (s : State) : Out :=
  s.memWord (.redXor f ix) f.lc fun s p bad => s.red p bad f ix .xor (f.v == 1)

/-- A thread's access to an exact record (R250): 48 bytes, 16-byte aligned, in global memory; a record that spans two
pages is translated in both. -/
def State.exactAccess (s : State) (k l : Nat) (pc ea : DWord) (kind : AccKind) : Acc × List Hit :=
  match s.window k l ea 48 with
  | .loc _ _ => (.no { lane := l, cause := .aperture, addr := ea } none none, [])
  | _ => s.spanAccess k l pc ea 48 16 kind

/-- Issue exact reductions or flushes for the performing threads (R251, R252, R362). The second part of a record is its first where the
record lies in one page. -/
def State.exactOp (s : State) (p : Pulse) (bad : LaneSet) (f : FmtM) (ix : Word) (a : Atom) (scalar : Bool) (x : Nat → Word)
    (kind : AccKind) : State :=
  let ls := performers p scalar
  let tr := ls.map fun l => (l, s.ea p.crew l f ix, s.exactAccess p.crew l p.pc (s.ea p.crew l f ix) kind)
  let (s', oks) := s.settle p bad scalar (tr.map fun (l, ea, acc, _) => (l, ea, acc))
  let s' := s'.cacheHits (ctxOf p.crew) (tr.flatMap (·.2.2.2))
  let args := oks.map fun (l, ea, h) =>
    let g := ((tr.find? fun t => t.1 == l).map fun t => t.2.2.2.getLastD h).getD h
    { lane := l, place := h.pl, place2 := g.pl, ea, va := h.va, x := x l, leaf := h.leaf, leaf2 := g.leaf
      item := ((s.crew p.crew).lane l).item }
  s'.issueAtom p f { a with args }

/-- red.add.x (R251, R362): V 1 widens BF16. -/
def execRedAddX (f : FmtM) (ix : Word) (s : State) : Out :=
  s.memWord (.redAddX f ix) f.lc fun s p bad =>
    let x := fun l =>
      let w := s.src p.crew l f.x
      if f.v == 1 then w <<< 16 else w
    s.exactOp p bad f ix { op := .addX, args := [], ret := false } (allScalar (f.x :: addrOperands f ix)) x .atomic

/-- xflush (R252, R362). -/
def execXflush (f : FmtM) (ix : Word) (s : State) : Out :=
  s.memWord (.xflush f ix) f.lc fun s p bad =>
    (s.exactOp p bad f ix { op := .xflush, args := [], ret := true, dest := f.x } (isS f.x) (fun _ => 0) .read).zeroHelpers p f.x 1

/-! ## Appends and seals -/

/-- The units of an append: the threads that name one frame (R227). -/
def unitsOf (oks : List (Nat × DWord × Hit)) : List (Nat × List (Nat × DWord × Hit)) :=
  let frame := fun (h : Hit) => ((h.leaf.map (·.base)).getD 0)
  (dedup (oks.map fun (_, _, h) => frame h)).map fun fr => (fr, oks.filter fun (_, _, h) => frame h == fr)

/-- append (R227, R363). The pulse stands at the word until its units have been placed or refused at their home slices;
the threads of a refused unit take WSEAL (log entry 24). The address names a page: its offset there does not count (R227). -/
def execAppend (f : FmtM) (ix : Word) (s : State) : Out :=
  s.memWord (.append f ix) f.lc fun s p bad =>
    let scalar := isS f.x
    match p.unit with
    | some _ =>
      let ls := (lanesOf p.part).filter fun l => p.refused.getLsbD l || (scalar && p.refused != 0)
      let s := { s with cur := some { p with unit := none, refused := 0 } }
      s.deliverAt { p with unit := none, refused := 0 }
        (ls.map fun l => { lane := l, cause := .wseal, addr := s.ea p.crew l f ix })
    | none =>
      let (s', oks) := s.settle p bad scalar (s.tries p (performers p scalar) (fun l => s.ea p.crew l f ix) 1 1 .append)
      if oks.isEmpty then s'
      else
        let (s', ser) := s'.rise p.crew f.lc.toNat
        let ents := (unitsOf oks).map fun (fr, us) =>
          let elems := us.map fun (l, _, _) =>
            (l, wordsToBytes (if f.v == 1 then [s.src p.crew l f.x, s.src p.crew l (regAt f.x 1)] else [s.src p.crew l f.x]))
          let (l0, ea0, h0) := us.headD (0, 0, { pl := .dev 0 })
          ({ op := .append fr 0 (BitVec.ofNat 64 (h0.va / ((h0.leaf.map (·.size)).getD 4096) * ((h0.leaf.map (·.size)).getD 4096)))
                     elems ((s.crew p.crew).lane l0).item,
             dest := f.x, lc := f.lc.toNat, ser, pc := p.pc, va := ea0.toNat } : QEntry)
        let s' := s'.modCrew p.crew fun c => { c with queue := c.queue ++ ents }
        let p' := s'.pulse p
        { s' with cur := some { p' with unit := some ser, hold := some (.unit ser) } }

/-- seal (R229, R364). -/
def execSealPage (f : FmtM) (ix : Word) (s : State) : Out :=
  s.memWord (.sealPage f ix) f.lc fun s p bad =>
    let scalar := isS f.x
    let (s', oks) := s.settle p bad scalar (s.tries p (performers p scalar) (fun l => s.ea p.crew l f ix) 1 1 .append)
    if oks.isEmpty then s'
    else
      let s' := if f.v == 1 then s'.release p.crew f.ag.toNat f.st else s'
      let (s', ser) := s'.rise p.crew f.lc.toNat
      let ents := oks.map fun (l, ea, h) =>
        ({ op := .seal ((h.leaf.map (·.base)).getD 0) l, dest := f.x, lc := f.lc.toNat, ser, pc := p.pc, va := ea.toNat } : QEntry)
      s'.modCrew p.crew fun c => { c with queue := c.queue ++ ents }

/-! ## Fences and cache operations -/

/-- fence (R243, R365): the drains of its scope (notes after R246). -/
def execFenceInsn (f : FmtM) (s : State) : Out :=
  s.memWord (.fenceInsn f) 7 fun s p _ => s.release p.crew f.ag.toNat f.st

/-- prefetch (R366): no value that any access returns changes. -/
def execPrefetch (f : FmtM) (ix : Word) (s : State) : Out :=
  s.word (.prefetch f ix) fun s _ => s

/-- How the addresses that a cache operation names translate; a poisoned address is passed over (R351, R366). -/
def State.opPlaces (s : State) (p : Pulse) (f : FmtM) (ix : Word) : List XRes :=
  ((performers p (allScalar (addrOperands f ix))).filter fun l =>
    !((s.crew p.crew).poisoned l f.a 2 || (f.e == 1 && (s.crew p.crew).poisoned l (idxCode ix) 1))).filterMap fun l =>
    match s.window p.crew l (s.ea p.crew l f ix) 1 with
    | .global va => some (s.translate (ctxOf p.crew) va 4 .read l)
    | _ => none

/-- The lines of device memory that a cache operation names: what does not translate is passed over (R351, R366). -/
def State.linesOf (s : State) (p : Pulse) (f : FmtM) (ix : Word) : List Nat :=
  (s.opPlaces p f ix).filterMap fun r => match r with
    | .ok (.dev d) _ => some (d / 128)
    | _ => none

/-- The entries of its walks that the home slices hold now (R53, R225). -/
def State.opHolds (s : State) (p : Pulse) (f : FmtM) (ix : Word) : List Place :=
  (s.opPlaces p f ix).filterMap fun r => match r with
    | .hold q => some q
    | _ => none

/-- The words of lines are no longer dirty on the crew's die: they are written back (R366). -/
def State.writeBack (s : State) (die : Nat) (lines : List Nat) : State :=
  { s with dirty := s.dirty.filter fun e => !(e.2 == die && lines.contains (e.1 / 32)) }

/-- A cache operation that writes back the words of its lines; it stands at its word while the home slices hold a walk of it. -/
def State.cleanLines (s : State) (p : Pulse) (f : FmtM) (ix : Word) : State :=
  match s.opHolds p f ix with
  | [] => s.writeBack (s.dieOf p.crew) (s.linesOf p f ix)
  | qs => s.holdAt p (.exchange qs)

/-- cwb (R366). -/
def execCwb (f : FmtM) (ix : Word) (s : State) : Out := s.word (.cwb f ix) fun s p => s.cleanLines p f ix

/-- cinv (R366): dirty words are written back before the copies are dropped. -/
def execCinv (f : FmtM) (ix : Word) (s : State) : Out := s.word (.cinv f ix) fun s p => s.cleanLines p f ix

end Sys2Proof.Machine
end

