-- ==== Sys2Proof/Machine/Buffers.lean ====
section
/-! DEFINITION. The typed buffers: bytes, full-empty bits and poison (R174 to R179), and the access of ldb and stb
(R354 to R356). -/

namespace Sys2Proof.Machine

/-- Bytes of a buffer: 1 W, 2 A, 3 C (R174). -/
def bufSize (b : Nat) : Nat := if b = 3 then 524288 else 1048576

/-- The key of a granule in a logical core's tables. -/
def granKey (buf g : Nat) : Nat := 65536 * buf + g
/-- The key of a byte. -/
def bufKey (buf off : Nat) : Nat := 1048576 * buf + off

/-- n bytes of a buffer. -/
def LCore.bufRead (c : LCore) (buf off n : Nat) : List Byte := (List.range n).map fun i => sget 0 c.buf (bufKey buf (off + i))

/-- Whether the granule with this key is full (R176). -/
def LCore.isFull (c : LCore) (g : Nat) : Bool := sget false c.full g

/-- The offset of the first poisoned word among n bytes. -/
def LCore.bufPoison (c : LCore) (buf off n : Nat) : Option Nat :=
  (List.range n).find? fun i => sget false c.pois (bufKey buf (off + i) / 4)

/-- Write bytes to a buffer; `mark` sets the full bits of the granules it touches (R176), `pois` poisons the listed
words of the write (R191, R254). -/
def LCore.bufWrite (c : LCore) (buf off : Nat) (bs : List Byte) (mark : Bool) (pois : List Nat := []) : LCore :=
  let k := bufKey buf off
  let c := { c with buf := Memory.writeN c.buf k bs, pois := ssetAll false c.pois (fullWordsOf k bs.length) false }
  let c := { c with pois := ssetAll false c.pois (pois.map fun i => k / 4 + i) true }
  if mark && !bs.isEmpty then
    let gs := (List.range ((off + bs.length - 1) / 16 - off / 16 + 1)).map fun i => granKey buf (off / 16 + i)
    { c with full := ssetAll false c.full gs true }
  else c

/-- The buffer address of a thread (R354): buffer, offset, or the cause it takes. -/
def bufAddr (x : Word) (n : Nat) : Except Cause (Nat × Nat) :=
  let off := bits x.toNat 0 20
  let buf := bits x.toNat 20 2
  if buf = 0 || bits x.toNat 22 10 ≠ 0 || bufSize buf ≤ off then .error .tshape
  else if off % n ≠ 0 then .error .misalign
  else .ok (buf, off)

/-- The 32-bit value of a buffer address operand with its index literal (R354). -/
def State.bufWord (s : State) (k l : Nat) (f : FmtM) (ix : Word) : Word :=
  let base := s.src k l f.a
  if f.e == 1 then
    base + (if idxCode ix == 0xE4 then 0 else s.src k l (idxCode ix)) + (ix.extractLsb' 0 24).signExtend 32
  else base

/-- The threads' buffer addresses: causes are delivered, what is left are lane, buffer and offset. -/
def State.bufTries (s : State) (p : Pulse) (bad : LaneSet) (f : FmtM) (ix : Word) (scalar : Bool) (n : Nat) :
    State × List (Nat × Nat × Nat) :=
  let addr : Nat → Except Cause (Nat × Nat) := fun l => match bufAddr (s.bufWord p.crew l f ix) n with
    | .ok x => if bad.getLsbD l then .error .poison else .ok x
    | .error c => .error c
  let rs := (performers p scalar).map fun l => (l, s.bufWord p.crew l f ix, addr l)
  let takes := rs.flatMap fun (l, w, r) => match r with
    | .error c => spread p scalar { lane := l, cause := c, addr := if c = .poison then 0 else w.setWidth 64 }
    | .ok _ => []
  let oks := rs.filterMap fun (l, _, r) => match r with
    | .error _ => none
    | .ok (b, o) => some (l, b, o)
  (s.deliverAt p takes, oks)

/-- Whether an earlier ldb.take of the logical core still waits on one of the granules (R177, R355). -/
def State.earlierTake (s : State) (lc : Nat) (gs : List Nat) (seq : Nat) : Bool :=
  s.crews.any fun (k, c) => lcOf k == lc && match c.held with
    | some q => (match q.hold with
      | some (.take hs n) => n < seq && hs.any gs.contains
      | _ => false)
    | none => false

/-- Whether a peek or take may go ahead (R355). -/
def State.bufReady (s : State) (lc : Nat) (gs : List Nat) (seq : Option Nat) : Bool :=
  gs.all (s.lcore lc).isFull && match seq with
    | some n => !s.earlierTake lc gs n
    | none => true

/-- The TAKE choices of the granules that one ldb.take empties (R258, R355). -/
def State.takeChoices (s : State) (k : Nat) (pc : DWord) (oks : List (Nat × Nat × Nat)) : List Nat → Choice
  | [] => .go s
  | g :: gs =>
    let l := ((oks.find? fun (_, b, o) => granKey b (o / 16) == g).map (·.1)).getD 0
    let ent : LogEnt := { kind := 7, grid := 0, item := ((s.crew k).lane l).item.toNat, key := g % 65536 + 65536 * (g / 65536) }
    match s.crewChoice k l pc ent fun x => x.kind = 7 && x.key = ent.key with
    | .go s => s.takeChoices k pc oks gs
    | r => r

/-- ldb.peek and ldb.take (R355): the pulse is held at the word until every granule is full, a take also until every
earlier take of the granules has gone. -/
def State.ldb (s : State) (p : Pulse) (bad : LaneSet) (f : FmtM) (ix : Word) (take : Bool) : State :=
  let n := if f.v == 1 then 16 else 4
  let scalar := isS f.x
  let lc := lcOf p.crew
  let (s', oks) := s.bufTries p bad f ix scalar n
  if oks.isEmpty then s'
  else
    let p' := s'.pulse p
    let gs := dedup (oks.map fun (_, b, o) => granKey b (o / 16))
    let seq := if take then some (p.takeSeq.getD (s.lcore lc).nextTake) else none
    let s' := if take && p.takeSeq.isNone then s'.modLcore lc fun c => { c with nextTake := c.nextTake + 1 } else s'
    if s.mtxBusy p.crew (some gs) then { s' with cur := some { p' with hold := some (.matrix (some gs)) } }
    else if !s'.bufReady lc gs seq then
      let cond := match seq with
        | some q => HoldCond.take gs q
        | none => .granules gs
      { s' with cur := some { p' with takeSeq := seq, hold := some cond } }
    else
      match (if take then s'.takeChoices p.crew p.pc oks gs else .go s') with
      | .wait => { s' with cur := some { p' with takeSeq := seq, hold := some .replay } }
      | .fault s => s
      | .go s' =>
        let c := s'.lcore lc
        let reads := oks.map fun (l, b, o) =>
          (l, bytesToWords (n / 4) (c.bufRead b o n),
            (c.bufPoison b o n).map fun i => BitVec.ofNat 64 (1048576 * b + (o + i) / 4 * 4))
        let s' := if take then s'.modLcore lc fun c => { c with full := ssetAll false c.full gs false } else s'
        let s' := { s' with cur := some { s'.pulse p with takeSeq := none } }
        let s' := (s'.issueLoads p f.x f.lc reads).zeroHelpers p f.x (n / 4)
        if f.lc.toNat < 6 then s'.countEvt (s.siteOf lc) 6 1 else s'

/-- ldb.peek (R355). -/
def execLdbPeek (f : FmtM) (ix : Word) (s : State) : Out :=
  s.memWord (.ldbPeek f ix) f.lc fun s p bad => s.ldb p bad f ix false
/-- ldb.take (R355). -/
def execLdbTake (f : FmtM) (ix : Word) (s : State) : Out :=
  s.memWord (.ldbTake f ix) f.lc fun s p bad => s.ldb p bad f ix true

/-- stb and stb.mark (R356): in ascending tid, at once; the counter of a write performed at once does not stay up. -/
def State.stb (s : State) (p : Pulse) (bad : LaneSet) (f : FmtM) (ix : Word) (mark : Bool) : State :=
  let n := if f.v == 1 then 16 else 4
  let scalar := allScalar (f.x :: addrOperands f ix)
  let (s', oks) := s.bufTries p bad f ix scalar n
  let gs := dedup (oks.map fun (_, b, o) => granKey b (o / 16))
  if s.mtxBusy p.crew (some gs) then { s' with cur := some { s'.pulse p with hold := some (.matrix (some gs)) } }
  else
    s'.modLcore (lcOf p.crew) fun c =>
      oks.foldl (fun c (l, b, o) =>
        c.bufWrite b o (wordsToBytes (s.srcWords p.crew l f.x (n / 4))) mark) c

/-- stb (R356). -/
def execStb (f : FmtM) (ix : Word) (s : State) : Out := s.memWord (.stb f ix) f.lc fun s p bad => s.stb p bad f ix false
/-- stb.mark (R356). -/
def execStbMark (f : FmtM) (ix : Word) (s : State) : Out := s.memWord (.stbMark f ix) f.lc fun s p bad => s.stb p bad f ix true

end Sys2Proof.Machine
end

