-- ==== Sys2Proof/Machine/Tile.lean ====
section
/-! DEFINITION. Class 3: tile descriptors (R180, R181), matrix instructions (R389 to R400) and their arithmetic
(R264 to R266, R273), which the geyser shares (R188). -/

namespace Sys2Proof.Machine

/-! ## Descriptors -/

/-- BUF of a descriptor (R180). -/
def dBuf (t : BitVec 128) : Nat := (t.extractLsb' 0 2).toNat
/-- FMT. -/
def dFmt (t : BitVec 128) : Nat := (t.extractLsb' 50 3).toNat
/-- LAYOUT. -/
def dLayout (t : BitVec 128) : Bool := t.getLsbD 53
/-- GATH. -/
def dGath (t : BitVec 128) : Bool := t.getLsbD 54
/-- IDX. -/
def dIdx (t : BitVec 128) : Nat := (t.extractLsb' 55 4).toNat
/-- Whether a bit is set that must be zero (R180). -/
def dReserved (t : BitVec 128) : Bool := t.extractLsb' 59 5 != 0 || t.extractLsb' 96 32 != 0

/-- The tile of a descriptor, rows not gathered (R180). -/
def tileOf (r : LaunchRec) (t : BitVec 128) : Tile :=
  { buf := dBuf t, base := (t.extractLsb' 2 16).toNat, rows := (t.extractLsb' 18 8).toNat + 1,
    cols := (t.extractLsb' 26 8).toNat + 1, pitch := (t.extractLsb' 34 16).toNat,
    fmt := if dBuf t = 3 then 0 else if dFmt t = 0 then 0 else r.slot (dFmt t),
    layout := dLayout t, isInt := dBuf t == 3 && dFmt t == 1,
    sbase := (t.extractLsb' 64 16).toNat, spitch := (t.extractLsb' 80 16).toNat }

/-- Element width in bits (R181). -/
def Tile.width (t : Tile) : Nat := if t.buf = 3 then 32 else elemBits (slotElem t.fmt)
/-- Elements of a stored line (R181). -/
def Tile.lineLen (t : Tile) : Nat := if t.layout then t.rows else t.cols
/-- Stored lines of the tile. -/
def Tile.lineCount (t : Tile) : Nat := if t.layout then t.cols else t.rows
/-- Granules of a stored line (R181). -/
def Tile.lineGrans (t : Tile) : Nat := ceilDiv (t.lineLen * t.width) 128
/-- The stored lines, in the order of the tile's rows: 0, 1, 2, … or the index list (R181). -/
def Tile.lines (t : Tile) : List Nat := t.gather.getD (List.range t.lineCount)
/-- Whether stored line i ends beyond the buffer (R181). -/
def Tile.lineBeyond (t : Tile) (i : Nat) : Bool := bufSize t.buf / 16 < t.base + i * t.pitch + t.lineGrans
/-- The granules of the tile's elements. -/
def Tile.grans (t : Tile) : List Nat :=
  dedup (t.lines.flatMap fun i => (List.range t.lineGrans).map fun k => granKey t.buf (t.base + i * t.pitch + k))

/-- SCALE of a tile's slot; C has none. -/
def Tile.scale (t : Tile) : Nat := if t.buf = 3 then 0 else slotScale t.fmt
/-- Elements of a scale block (R265). -/
def Tile.block (t : Tile) : Nat := if t.scale = 1 then 32 else 16
/-- Scales of a stored line. -/
def Tile.scaleCount (t : Tile) : Nat := ceilDiv t.lineLen t.block
/-- The byte of the first scale of stored line i (R181). -/
def Tile.scaleByte (t : Tile) (i : Nat) : Nat := 16 * (t.sbase + i * t.spitch)
/-- Whether the scales end beyond the buffer (R181). -/
def Tile.scaleBeyond (t : Tile) : Bool :=
  if t.scale = 0 then false
  else if t.scale = 4 then bufSize t.buf / 16 ≤ t.sbase
  else t.lines.any fun i => bufSize t.buf < t.scaleByte i + t.scaleCount
/-- The granules of the scales. -/
def Tile.scaleGrans (t : Tile) : List Nat :=
  if t.scale = 0 then []
  else if t.scale = 4 then [granKey t.buf t.sbase]
  else dedup (t.lines.flatMap fun i => (List.range (ceilDiv t.scaleCount 16)).map fun k =>
    granKey t.buf (t.sbase + i * t.spitch + k))
/-- The granules that a read of the tile touches (R177, R390). -/
def Tile.reads (t : Tile) : List Nat := t.grans ++ t.scaleGrans

/-- The checks of R181 that need no index list; of a gathered tile no line but the listed ones is tested (DESIGN CHOICE, log entry 89). -/
def tileBad (t : Tile) (raw : BitVec 128) (gathOk : Bool) : Bool :=
  t.buf == 0 || dReserved raw || (t.buf == 3 && (1 < dFmt raw || t.layout)) ||
    (dGath raw && (t.layout || !gathOk)) || decide (t.pitch < t.lineGrans) ||
    (!dGath raw && (t.lineBeyond (t.lineCount - 1) || t.scaleBeyond))

/-- The checks of R181 and R396 on the index list of a gathered tile of `rows` rows. -/
def indexBad (raw : BitVec 128) (x : Tile) (rows : Nat) : Bool :=
  x.buf == 0 || dReserved raw || dGath raw || decide (x.pitch < x.lineGrans) || x.lineBeyond (x.lineCount - 1) ||
    decide (x.rows * x.cols < rows)

/-- The index list's own tile: 32-bit words in rows (R396). -/
def indexTile (raw : BitVec 128) : Tile :=
  { buf := dBuf raw, base := (raw.extractLsb' 2 16).toNat, rows := (raw.extractLsb' 18 8).toNat + 1,
    cols := (raw.extractLsb' 26 8).toNat + 1, pitch := (raw.extractLsb' 34 16).toNat, fmt := 1 }

/-! ## Reading tiles -/

/-- The elements of a stored line (R264). -/
def LCore.lineElems (c : LCore) (buf gran width n : Nat) : List Nat :=
  let x := bytesToNat (c.bufRead buf (16 * gran) (ceilDiv (n * width) 8))
  (List.range n).map fun j => bits x (width * j) width

/-- The first `n` words of an index list (R181). -/
def LCore.indexList (c : LCore) (x : Tile) (n : Nat) : List Nat :=
  ((List.range x.rows).flatMap fun i => c.lineElems x.buf (x.base + i * x.pitch) 32 x.cols).take n

/-- The granules of the words of an index list that are read. -/
def indexGrans (x : Tile) (n : Nat) : List Nat :=
  ({ x with rows := min x.rows (ceilDiv n x.cols) } : Tile).grans

/-- The value of a scale (R265). -/
def scaleVal (code x : Nat) : FVal :=
  match code with
  | 3 => e4m3.decode x
  | 4 => f32 (BitVec.ofNat 32 x)
  | _ => if x = 255 then .nan else .fin ⟨false, 1, (x : Int) - 127⟩

/-- The scale of each element of stored line i; 1 without scales. -/
def LCore.scales (c : LCore) (t : Tile) (i : Nat) : List FVal :=
  if t.scale = 0 then []
  else if t.scale = 4 then
    List.replicate t.lineLen (scaleVal 4 (bytesToNat (c.bufRead t.buf (16 * t.sbase) 4)))
  else
    let bs := c.bufRead t.buf (t.scaleByte i) t.scaleCount
    (List.range t.lineLen).map fun j => scaleVal t.scale (bs.getD (j / t.block) 0).toNat

/-- The exact value of an element of a tile (R266): INT32 and FP32 in C, a slot's format elsewhere. -/
def Tile.value (t : Tile) (x : Nat) : FVal :=
  if t.buf = 3 then
    (if t.isInt then .fin (Num.ofInt (BitVec.ofNat 32 x).toInt 0 false) else f32 (BitVec.ofNat 32 x))
  else fromElem (slotElem t.fmt) x

/-- The values of the stored lines of a tile, in the order of its rows, scales applied (R266). -/
def LCore.stored (c : LCore) (t : Tile) : List (List FVal) :=
  t.lines.map fun i =>
    let vs := (c.lineElems t.buf (t.base + i * t.pitch) t.width t.lineLen).map t.value
    match c.scales t i with
    | [] => vs
    | ss => List.zipWith (fun v x => (v.mulExact x).1) vs ss

/-- Columns of a matrix given by rows of n elements. -/
def transpose (n : Nat) (m : List (List FVal)) : List (List FVal) :=
  (List.range n).map fun j => m.map fun r => r.getD j .nan

/-- The rows of a tile (R395). -/
def LCore.rowsOf (c : LCore) (t : Tile) : List (List FVal) :=
  if t.layout then transpose t.rows (c.stored t) else c.stored t

/-- The columns of a tile (R395). -/
def LCore.colsOf (c : LCore) (t : Tile) : List (List FVal) :=
  if t.layout then c.stored t else transpose t.cols (c.stored t)

/-! ## Accumulation -/

/-- A value truncated toward zero to a multiple of 2^g, in units of 2^g (R273). -/
def Num.truncAt (g : Int) (n : Num) : Int :=
  if g ≤ n.e then n.at g
  else
    let m : Int := (n.m / 2 ^ (g - n.e).toNat : Nat)
    if n.neg then -m else m

/-- The sum of the products of one chunk (R273). -/
def chunkSum (ps : List FVal) : Word :=
  if ps.any (· = .nan) || (ps.any (· = .inf false) && ps.any (· = .inf true)) then 0x7FC00000
  else if ps.any (· = .inf false) then 0x7F800000
  else if ps.any (· = .inf true) then 0xFF800000
  else
    let ns := ps.filterMap fun v => match v with
      | .fin n => if n.m = 0 then none else some n
      | _ => none
    match ns with
    | [] => 0
    | n :: rest =>
      let top := rest.foldl (fun (a : Int) x => max a ((Nat.log2 x.m : Int) + x.e)) ((Nat.log2 n.m : Int) + n.e)
      let g := top - 36
      BitVec.ofNat 32 (fp32.rne (Num.ofInt (ns.foldl (fun (a : Int) x => a + x.truncAt g) 0) g false)).1

/-- Whether a value is finite. -/
def FVal.finite : FVal → Bool
  | .fin _ => true
  | _ => false

/-- NV where a result is a NaN, OF where it is infinite from finite inputs (R272, R399). -/
def matrixFlags (r : Word) (ins : List FVal) : BitVec 4 :=
  match f32 r with
  | .nan => flNV
  | .inf _ => if ins.all FVal.finite then flOF else 0
  | .fin _ => 0

/-- Accumulate products into an FP32 element, chunk by chunk (R273); `fuel` bounds the number of chunks. -/
def accumulate (l : Nat) : Nat → Word × BitVec 4 → List FVal → Word × BitVec 4
  | 0, c, _ => c
  | fuel + 1, c, ps =>
    if ps.isEmpty then c
    else
      let r := (fadd32 c.1 (chunkSum (ps.take l))).1
      accumulate l fuel (r, c.2 ||| matrixFlags r (f32 c.1 :: ps.take l)) (ps.drop l)

/-- The integer that an exact integer value is. -/
def FVal.int : FVal → Int
  | .fin n => n.at 0
  | _ => 0

/-- One accumulator element after the products of a row and a column (R273, R395). -/
def accumElem (isInt : Bool) (l acc : Nat) (c : Word) (a b : List FVal) : Word × BitVec 4 :=
  let ps := List.zipWith (fun x y => (x.mulExact y).1) a b
  let ps := if acc = 2 then ps.map FVal.neg else ps
  if isInt then (BitVec.ofInt 32 (ps.foldl (fun (z : Int) p => z + p.int) c.toInt), 0)
  else accumulate l (ps.length + 1) (c, 0) ps

/-- The chunk length (R273). -/
def chunkLen (ea eb : Nat) : Nat :=
  if elemBits ea = 16 || elemBits eb = 16 then 16 else if elemBits ea = 4 && elemBits eb = 4 then 64 else 32

/-- Words of a row of C. -/
def LCore.cRow (c : LCore) (gran n : Nat) : List Word := bytesToWords n (c.bufRead 3 (16 * gran) (4 * n))

/-- Rows accumulated into the listed lines of C in ascending order of the rows (R396); the flags raised. -/
def LCore.accumRows (c : LCore) (base pitch : Nat) (isInt : Bool) (l acc : Nat) (bcols : List (List FVal)) :
    List (Nat × List FVal) → BitVec 4 → LCore × BitVec 4
  | [], fl => (c, fl)
  | (r, a) :: rest, fl =>
    let old := c.cRow (base + r * pitch) bcols.length
    let new := List.zipWith (fun w b => accumElem isInt l acc w a b) old bcols
    let c := c.bufWrite 3 (16 * (base + r * pitch)) (wordsToBytes (new.map (·.1))) true
    c.accumRows base pitch isInt l acc bcols rest (new.foldl (fun f x => f ||| x.2) fl)

/-- The effect of mma and mma.g on C (R395, R396): with acc 1 every distinct line starts from zero. -/
def LCore.product (c : LCore) (base pitch : Nat) (lines : List Nat) (isInt : Bool) (l acc : Nat)
    (arows bcols : List (List FVal)) : LCore × BitVec 4 :=
  let zero := zeros (4 * bcols.length)
  let c := if acc = 1 then (dedup lines).foldl (fun c r => c.bufWrite 3 (16 * (base + r * pitch)) zero true) c else c
  c.accumRows base pitch isInt l acc bcols (lines.zip arows) 0

/-- Empty every granule of a tile (R176, R395): those of its elements; those of its block scales stay as they are (DESIGN CHOICE, log
entry 88). -/
def LCore.emptyTile (c : LCore) (t : Tile) : LCore := { c with full := ssetAll false c.full t.grans false }

/-! ## Performing -/

/-- mma and mma.g performed (R395, R396). -/
def LCore.doMma (c0 : LCore) (c a b : Tile) (acc : Nat) (empty : BitVec 2) : LCore × BitVec 4 :=
  let (x, fl) := c0.product c.base c.pitch c.lines c.isInt (chunkLen (slotElem a.fmt) (slotElem b.fmt)) acc
    (c0.rowsOf a) (c0.colsOf b)
  let x := if empty.getLsbD 0 then x.emptyTile a else x
  let x := if empty.getLsbD 1 then x.emptyTile b else x
  let x := { x with full := ssetAll false x.full c.grans true }
  (x, fl)

/-- tzero performed (R393). -/
def LCore.doTzero (x : LCore) (c : Tile) : LCore :=
  (dedup c.lines).foldl (fun x r => x.bufWrite 3 (16 * (c.base + r * c.pitch)) (zeros (4 * c.cols)) true) x

/-- Emax of an element format (R397). -/
def elemEmax : Nat → Int
  | 4 => 8
  | 5 => 15
  | 6 => 4
  | 7 => 2
  | 8 => 2
  | 9 => 6
  | _ => 2

/-- Convert a value through a slot (R268 to R270, R397): tcvt sets NV and OF only. `w` holds an FP32 source. -/
def slotConvert (slot : Word) (v : FVal) (w : Word) : Nat × BitVec 4 :=
  let (x, fl) := toElem (slotElem slot) (slotOvf slot) (slotRnd slot) (slotNanp slot) 0 v (w.getLsbD 31)
    (w.extractLsb' 0 23).toNat
  (x, fl &&& (flNV ||| flOF))

/-- A block of at most B source elements converted with a scale of its own: scale code, elements, flags (R397). -/
def convertBlock (slot : Word) (vs : List (FVal × Word)) : Nat × List (Nat × BitVec 4) :=
  if vs.any (fun v => !v.1.finite) then (0xFF, vs.map fun _ => (0, flNV))
  else
    let amax := vs.foldl (fun (m : Option Int) v => match v.1 with
      | .fin n => if n.m = 0 then m else some (match m with
          | some y => max y ((Nat.log2 n.m : Int) + n.e)
          | none => (Nat.log2 n.m : Int) + n.e)
      | _ => m) none
    let x : Int := match amax with
      | some y => max (-127) (min 127 (y - elemEmax (slotElem slot)))
      | none => 0
    ((x + 127).toNat, vs.map fun v => match v.1 with
      | .fin n => slotConvert slot (.fin { n with e := n.e - x }) v.2
      | y => slotConvert slot y v.2)

/-- Cut a list into blocks of n. -/
def blocksOf {α : Type} (n : Nat) : Nat → List α → List (List α)
  | 0, _ => []
  | fuel + 1, l => if l.isEmpty then [] else l.take n :: blocksOf n fuel (l.drop n)

/-- The quotient of a value by a per-tensor scale, with its exact sign (R397). -/
def scaleDiv (v s : FVal) : FVal :=
  match v, s with
  | .fin a, .fin b => if a.m = 0 then .fin ⟨a.neg != b.neg, 0, 0⟩ else .fin (a.div b)
  | .inf a, .fin b => .inf (a != b.neg)
  | .nan, _ => .nan
  | x, _ => x

/-- Bytes of a stored line after its first n elements are written (R264); the line's other bits stay. -/
def putElems (old : List Byte) (width : Nat) (xs : List Nat) : List Byte :=
  let n := xs.length * width
  let x := bytesToNat old
  let new := xs.reverse.foldl (fun a y => a * 2 ^ width + y % 2 ^ width) 0
  natToBytes old.length (x / 2 ^ n * 2 ^ n + new)

/-- One stored line of a tcvt (R397): the line's elements and scales are written. -/
def LCore.cvtLine (x : LCore) (d : Tile) (slot : Word) (s : FVal) (i : Nat) (vs : List (FVal × Word)) :
    LCore × BitVec 4 :=
  let blocked := slotScale slot == 1 || slotScale slot == 2
  let bl := (blocksOf d.block (vs.length + 1) vs).map (convertBlock slot)
  let bad := match s with
    | .fin n => n.m == 0
    | _ => true
  let es : List (Nat × BitVec 4) :=
    if blocked then bl.flatMap (·.2)
    else if slotScale slot == 4 then
      (if bad then vs.map fun _ => slotConvert slot .nan 0x7FC00000
       else vs.map fun v => slotConvert slot (scaleDiv v.1 s) v.2)
    else vs.map fun v => slotConvert slot v.1 v.2
  let off := 16 * (d.base + i * d.pitch)
  let old := x.bufRead d.buf off (ceilDiv (es.length * d.width) 8)
  let x := x.bufWrite d.buf off (putElems old d.width (es.map (·.1))) true
  let x := if blocked then x.bufWrite d.buf (d.scaleByte i) (bl.map fun b => BitVec.ofNat 8 b.1) true else x
  (x, es.foldl (fun f e => f ||| e.2) 0)

/-- Source words of a C tile by rows. -/
def LCore.cWords (c : LCore) (t : Tile) : List (List Word) :=
  t.lines.map fun i => c.cRow (t.base + i * t.pitch) t.cols

/-- tcvt performed (R397). -/
def LCore.doTcvt (c : LCore) (d t : Tile) (slot : Word) (empty : Bool) : LCore × BitVec 4 :=
  let src := (c.cWords t).map fun r => r.map fun w => (t.value w.toNat, w)
  let lines := if d.layout then
      (List.range d.cols).map fun j => src.map fun r => r.getD j (.nan, 0)
    else src
  let s := scaleVal 4 (bytesToNat (c.bufRead d.buf (16 * d.sbase) 4))
  let (x, fl) := (lines.zip (List.range lines.length)).foldl (fun (acc : LCore × BitVec 4) (l : List (FVal × Word) × Nat) =>
    let (y, f) := acc.1.cvtLine d slot s l.2 l.1
    (y, acc.2 ||| f)) (c, 0)
  (if empty then x.emptyTile t else x, fl)

/-- One element of a tadd (R398). -/
def taddElem (isInt : Bool) (acc : Nat) (c : Word) (v : FVal) : Word × BitVec 4 :=
  if isInt then
    let old : Int := if acc = 1 then 0 else c.toInt
    (BitVec.ofInt 32 (if acc = 2 then old - v.int else old + v.int), 0)
  else
    let v := if acc = 2 then v.neg else v
    let ins := if acc = 1 then [v] else [f32 c, v]
    let r := match ins with
      | x :: rest => (sumOnce x rest).1
      | [] => 0
    (r, matrixFlags r ins)

/-- tadd performed (R398): every source element is read first. -/
def LCore.doTadd (c : LCore) (d t : Tile) (acc : Nat) (empty : Bool) : LCore × BitVec 4 :=
  let new := List.zipWith (fun ws vs => List.zipWith (taddElem d.isInt acc) ws vs) (c.cWords d) (c.rowsOf t)
  let x := if empty then c.emptyTile t else c
  let x := (new.zip d.lines).foldl (fun (x : LCore) (r : List (Word × BitVec 4) × Nat) =>
    x.bufWrite 3 (16 * (d.base + r.2 * d.pitch)) (wordsToBytes (r.1.map (·.1))) true) x
  (x, new.foldl (fun f r => r.foldl (fun f e => f ||| e.2) f) 0)

/-- The destination of a matrix instruction. -/
def MtxOp.dest : MtxOp → Tile
  | .mma c _ _ _ _ => c
  | .tzero c => c
  | .tcvt d _ _ _ => d
  | .tadd c _ _ _ => c

/-- A matrix instruction performed on the buffers (R390). -/
def MtxOp.perform (o : MtxOp) (c : LCore) : LCore × BitVec 4 :=
  match o with
  | .mma d a b acc e => c.doMma d a b acc e
  | .tzero d => (c.doTzero d, 0)
  | .tcvt d t slot e => c.doTcvt d t slot e
  | .tadd d t acc e => c.doTadd d t acc e

/-- The address of the first poisoned word in a granule that the instruction reads (R399), as a buffer address. -/
def LCore.granPoison (c : LCore) (gs : List Nat) : Option DWord :=
  (gs.flatMap fun g => (List.range 4).map fun i => 4 * g + i).findSome? fun w =>
    if sget false c.pois w then some (BitVec.ofNat 64 (4 * w)) else none

/-- The destination words become undefined (R399). -/
def State.spoil (s : State) (c : LCore) (t : Tile) : LCore :=
  t.lines.foldl (fun c i =>
    let off := 16 * (t.base + i * t.pitch)
    let n := ceilDiv (t.lineLen * t.width) 32
    c.bufWrite t.buf off (wordsToBytes ((List.range n).map fun j => s.free (off / 4 + j))) false) c

/-- The matrix unit performs one instruction (R390, R399): flags reach the status word of the issuing crew. -/
def State.performMtx (s : State) (m : MtxCmd) : State :=
  let lc := lcOf m.crew
  match (s.lcore lc).granPoison m.reads with
  | some a =>
    (s.modLcore lc fun c => s.spoil c m.op.dest).contextFault (ctxOf m.crew)
      (threadFault m.crew { lane := m.tid, cause := .poison, addr := a, faddr := a } m.pc)
  | none =>
    let (c, fl) := m.op.perform (s.lcore lc)
    let s := { s with lcs := sset {} s.lcs lc c }
    if fl = 0 then s else s.modCrew m.crew fun c => { c with status := c.status ||| fl.setWidth 32 }

/-! ## The words -/

/-- How the checks of a matrix instruction end: a cause for every thread of P, a wait for granules to be full, or the
instruction as it is sent. -/
inductive MtxCheck where
  | cause (c : Cause)
  | wait (grans : List Nat)
  | send (m : MtxCmd)

/-- A tile with its gathered lines: the list is read once its granules are full (R181, R396). -/
inductive Gathered where
  | shape
  | wait (grans : List Nat)
  | ok (t : Tile)

/-- Resolve a gathered tile. -/
def gatherTile (c : LCore) (t : Tile) (raw idxRaw : BitVec 128) : Gathered :=
  if !dGath raw then .ok t
  else
    let x := indexTile idxRaw
    if indexBad idxRaw x t.rows then .shape
    else
      let gs := indexGrans x t.rows
      if !gs.all c.isFull then .wait gs
      else
        let l := c.indexList x t.rows
        let t := { t with gather := some l, idx := gs }
        if l.any t.lineBeyond || t.scaleBeyond then .shape else .ok t

/-- The word reaches the matrix unit, or holds its pulse until what it reads is full (R178, R390). -/
def State.readyMtx (s : State) (p : Pulse) (o : MtxOp) (reads writes : List Nat) : MtxCheck :=
  if reads.all (s.lcore (lcOf p.crew)).isFull then
    .send { op := o, crew := p.crew, pc := p.pc, tid := lowLane p.part, reads, writes }
  else .wait reads

/-- Settle the checks of a matrix word. -/
def State.settleMtx (s : State) (p : Pulse) (r : MtxCheck) : State :=
  match r with
  | .cause c => s.deliverAll p c
  | .wait gs => s.holdAt p (.granules gs)
  | .send m =>
    s.modLcore (lcOf p.crew) fun c =>
      let q := slotOf p.crew % 4
      { c with mtx := sset [] c.mtx q (sget [] c.mtx q ++ [m]) }

/-- A descriptor of the crew. -/
def State.desc (s : State) (p : Pulse) (i : Nat) : BitVec 128 := sget 0 (s.crew p.crew).t i

/-- Whether an element code is an integer one. -/
def isIntElem (e : Nat) : Bool := e == 9 || e == 10

/-- The checks of mma and mma.g at the word (R394, R396). -/
def State.checkMma (s : State) (p : Pulse) (f : FmtT) (gath : Bool) : MtxCheck :=
  let r := s.recOf p.crew
  let c0 := s.lcore (lcOf p.crew)
  let dc := s.desc p f.tc.toNat
  let da := s.desc p f.ta.toNat
  let db := s.desc p f.tb.toNat
  let c := tileOf r dc
  let a := tileOf r da
  let b := tileOf r db
  let sa := r.slot (dFmt da)
  let sb := r.slot (dFmt db)
  let badOp := fun (d : BitVec 128) (x : Word) => dBuf d == 3 || dFmt d == 0 || x == 0 || slotElem x == 1
  let int := isIntElem (slotElem sa)
  if badOp da sa || badOp db sb || int != isIntElem (slotElem sb) || (int && (slotScale sa != 0 || slotScale sb != 0)) ||
      dFmt dc != (if int then 1 else 0) then .cause (.illegal 13)
  else if dBuf dc == 1 || dBuf dc == 2 then .cause .bufperm
  else if tileBad c dc gath || tileBad a da gath || tileBad b db false || a.cols != b.rows || c.rows != a.rows ||
      c.cols != b.cols || decide (64 < a.rows) || decide (64 < b.cols) || decide (256 < a.cols) then .cause .tshape
  else
    match gatherTile c0 a da (s.desc p (dIdx da)), gatherTile c0 c dc (s.desc p (dIdx dc)) with
    | .shape, _ | _, .shape => .cause .tshape
    | .wait gs, _ | _, .wait gs => .wait gs
    | .ok a, .ok c =>
      s.readyMtx p (.mma c a b f.acc.toNat (f.flags.extractLsb' 0 2))
        (a.idx ++ c.idx ++ a.reads ++ b.reads ++ (if f.acc == 1 then [] else c.reads)) c.grans

/-- tset (R392). -/
def execTset (f : FmtT) (s : State) : Out :=
  s.word (.tset f) fun s p =>
    let k := (f.flags.extractLsb' 0 7).toNat
    s.modCrew p.crew fun c =>
      { c with t := sset 0 c.t f.tc.toNat (c.sreg (k + 3) ++ c.sreg (k + 2) ++ c.sreg (k + 1) ++ c.sreg k) }

/-- tget (R392): reserved bits read as tset wrote them, as R392 says of the descriptors, where R7 would read zero (log entry 74). -/
def execTget (f : FmtT) (s : State) : Out :=
  s.word (.tget f) fun s p =>
    let k := (f.flags.extractLsb' 0 7).toNat
    let d := s.desc p f.tc.toNat
    s.modCrew p.crew fun c =>
      c.putAll 0 (BitVec.ofNat 8 (0x80 + k)) ((List.range 4).map fun i => d.extractLsb' (32 * i) 32)

/-- The checks of tzero (R393). -/
def State.checkTzero (s : State) (p : Pulse) (f : FmtT) : MtxCheck :=
  let d := s.desc p f.tc.toNat
  let c := tileOf (s.recOf p.crew) d
  if dBuf d == 1 || dBuf d == 2 then .cause .bufperm
  else if tileBad c d true then .cause .tshape
  else
    match gatherTile (s.lcore (lcOf p.crew)) c d (s.desc p (dIdx d)) with
    | .shape => .cause .tshape
    | .wait gs => .wait gs
    | .ok c => s.readyMtx p (.tzero c) c.idx c.grans

/-- tzero (R393). -/
def execTzero (f : FmtT) (s : State) : Out :=
  s.word (.tzero f) fun s p => s.settleMtx p (s.checkTzero p f)

/-- mma (R394, R395). -/
def execMma (f : FmtT) (s : State) : Out :=
  s.word (.mma f) fun s p => s.settleMtx p (s.checkMma p f false)

/-- mma.g (R396). -/
def execMmaG (f : FmtT) (s : State) : Out :=
  s.word (.mmaG f) fun s p => s.settleMtx p (s.checkMma p f true)

/-- The checks of tcvt (R397). -/
def State.checkTcvt (s : State) (p : Pulse) (f : FmtT) : MtxCheck :=
  let r := s.recOf p.crew
  let dd := s.desc p f.tc.toNat
  let ds := s.desc p f.ta.toNat
  let slot := r.slot f.fs.toNat
  let named := if dFmt dd == 0 then 0 else r.slot (dFmt dd)
  let d := tileOf r dd
  let t := tileOf r ds
  if f.fs == 0 || slot == 0 || slotElem slot != slotElem named || slotScale slot != slotScale named ||
      slotScale slot == 3 || slotRnd slot == 4 then .cause (.illegal 13)
  else if dBuf ds != 3 || dBuf dd != 2 then .cause .bufperm
  else if tileBad d dd false || tileBad t ds false || d.rows != t.rows || d.cols != t.cols then .cause .tshape
  else
    let sc := if slotScale slot == 4 then [granKey d.buf d.sbase] else []
    s.readyMtx p (.tcvt d t slot (f.flags.getLsbD 0)) (t.reads ++ sc)
      (d.grans ++ (if slotScale slot == 4 then [] else d.scaleGrans))

/-- tcvt (R397). -/
def execTcvt (f : FmtT) (s : State) : Out :=
  s.word (.tcvt f) fun s p => s.settleMtx p (s.checkTcvt p f)

/-- The checks of tadd (R398). -/
def State.checkTadd (s : State) (p : Pulse) (f : FmtT) : MtxCheck :=
  let r := s.recOf p.crew
  let dc := s.desc p f.tc.toNat
  let da := s.desc p f.ta.toNat
  let c := tileOf r dc
  let a := tileOf r da
  let slot := r.slot (dFmt da)
  let inWA := dBuf da == 1 || dBuf da == 2
  let int32 := dBuf da == 3 && dFmt da == 1
  let intElem := inWA && isIntElem (slotElem slot)
  if (inWA && (dFmt da == 0 || slot == 0)) || (dFmt dc == 1 && !(int32 || (intElem && slotScale slot == 0))) ||
      (dFmt dc == 0 && (int32 || intElem)) then .cause (.illegal 13)
  else if dBuf dc != 3 then .cause .bufperm
  else if tileBad c dc false || tileBad a da false || c.rows != a.rows || c.cols != a.cols then .cause .tshape
  else
    s.readyMtx p (.tadd c a f.acc.toNat (f.flags.getLsbD 0)) (a.reads ++ (if f.acc == 1 then [] else c.reads)) c.grans

/-- tadd (R398). -/
def execTadd (f : FmtT) (s : State) : Out :=
  s.word (.tadd f) fun s p => s.settleMtx p (s.checkTadd p f)

end Sys2Proof.Machine
end

