-- ==== Sys2Proof/Machine/Life.lean ====
section
/-! DEFINITION. Items and refill (R123, R124, R167), block and gang barriers (R369 to R371), the end of a crew (R166),
regroup (R169, R170), the end of a block, of a binding (R112) and the states of a grid (R114). -/

namespace Sys2Proof.Machine

/-! ## Item ranges -/

/-- Items in a list of half-open ranges. -/
def rangesCount (rs : List (Nat × Nat)) : Nat := rs.foldl (fun n r => n + (r.2 - r.1)) 0

/-- The lowest n items of a list of ranges, and the rest. -/
def takeRanges : Nat → List (Nat × Nat) → List (Nat × Nat) × List (Nat × Nat)
  | _, [] => ([], [])
  | n, (a, b) :: r =>
    if n = 0 then ([], (a, b) :: r)
    else if b - a ≤ n then
      let (x, y) := takeRanges (n - (b - a)) r
      ((a, b) :: x, y)
    else ([(a, a + n)], (a + n, b) :: r)

/-- Add ranges to a list kept in ascending order; empty ones are dropped. -/
def addRanges (rs new : List (Nat × Nat)) : List (Nat × Nat) :=
  (new.filter fun r => decide (r.1 < r.2)).foldl (fun acc x => insertBy (·.1) x acc) rs

/-- Remove one item from a list of ranges. -/
def cutItem (i : Nat) : List (Nat × Nat) → Option (List (Nat × Nat))
  | [] => none
  | (a, b) :: r =>
    if a ≤ i && i < b then some (((if a < i then [(a, i)] else []) ++ (if i + 1 < b then [(i + 1, b)] else [])) ++ r)
    else (cutItem i r).map fun x => (a, b) :: x

/-- Items of a grid that no lane has taken. -/
def Grid.left (g : Grid) : Nat :=
  (g.last - g.next) + rangesCount g.returned +
    g.batches.foldl (fun n x => n + x.2.foldl (fun m b => m + rangesCount b) 0) 0

/-- Untaken items of a grid, as its next gang and its state count them (R114, R116, R123): those of the queue, of the returned list
and of the batches fetched ahead, but not what is left of a batch from which a lane has taken an item. -/
def Grid.untaken (g : Grid) : Nat :=
  (g.last - g.next) + rangesCount g.returned +
    g.batches.foldl (fun n x => n + x.2.tail.foldl (fun m b => m + rangesCount b) 0) 0

/-- A batch from the item queue (R123). -/
def Grid.supply (g : Grid) : Option (List (Nat × Nat) × Grid) :=
  if !g.returned.isEmpty then
    let (b, r) := takeRanges 64 g.returned
    some (b, { g with returned := r })
  else if g.next < g.last then
    some ([(g.next, min (g.next + 64) g.last)], { g with next := min (g.next + 64) g.last })
  else none

/-- Every batch fetched ahead goes to the returned list (R123). -/
def Grid.pullAhead (g : Grid) : Grid :=
  let ahead := g.batches.flatMap fun x => x.2.tail.flatten
  { g with returned := addRanges g.returned ahead, batches := g.batches.map fun x => (x.1, x.2.take 1) }

/-- The lowest item of the first of a gallery's batches. -/
def Grid.takeHead (g : Grid) (gal : Nat) (bs : List (List (Nat × Nat))) : Option (Nat × Grid) :=
  match bs with
  | ((a, b) :: r) :: rest =>
    let cur := if a + 1 < b then (a + 1, b) :: r else r
    some (a, { g with batches := sset [] g.batches gal (cur :: rest) })
  | _ => none

/-- The next item for a gallery (R123, R124): from its current batch, its next one, or a new one; whether a batch was
taken. `ahead` says whether a gallery that takes a batch fetches another ahead (log entry 26). -/
def Grid.nextItem (g : Grid) (gal : Nat) (ahead : Bool) : Option (Nat × Grid × Bool) :=
  let bs := sget [] g.batches gal
  match g.takeHead gal bs with
  | some (i, g) => some (i, g, false)
  | none =>
    match g.takeHead gal bs.tail with
    | some (i, g) => some (i, g, false)
    | none =>
      let got := match g.supply with
        | some x => some x
        | none => g.pullAhead.supply
      match got with
      | none => none
      | some (b, g) =>
        let (bs, g) := if ahead then
            (match g.supply with
              | some (b2, g2) => ([b, b2], g2)
              | none => ([b], g))
          else ([b], g)
        (g.takeHead gal bs).map fun (i, g) => (i, g, true)

/-- Take a named item from wherever it is untaken (R261). -/
def Grid.takeItem (g : Grid) (i : Nat) : Option Grid :=
  match cutItem i g.returned with
  | some r => some { g with returned := r }
  | none =>
    if g.next ≤ i && i < g.last then some { g with returned := addRanges g.returned [(g.next, i)], next := i + 1 }
    else
      match g.batches.find? fun x => x.2.any fun b => (cutItem i b).isSome with
      | some (gal, bs) => some { g with batches := sset [] g.batches gal (bs.map fun b => (cutItem i b).getD b) }
      | none => none

/-! ## Refill -/

/-- Entries of the log not consumed that satisfy a predicate, before the end. -/
def State.logCount (s : State) (n : Nat) (ok : LogEnt → Bool) : Nat → Nat → Nat
  | 0, _ => 0
  | fuel + 1, i =>
    let e := s.logEnt n i
    if e.kind = 0 then 0
    else (if ok e && !(s.ctx n).logUsed.contains i then 1 else 0) + s.logCount n ok fuel (i + 1)

/-- What a lane that wants an item gets; it waits where its log entry names an item that is taken already (R261). -/
inductive Fill where
  | item (s : State) (i : Nat)
  | empty (s : State)
  | stop (s : State)
  | wait

/-- The item for a lane of a crew (R123, R124, R258, R261). -/
def State.drawItem (s : State) (k l : Nat) : Fill :=
  let c := s.crew k
  let n := ctxOf k
  match s.grid c.grid with
  | none => .empty s
  | some g =>
    let key := ((s.block c.block).map (·.id)).getD 0 % 2 ^ 48 + c.index * 2 ^ 48 + l * 2 ^ 58
    let num := g.det % 4096
    if g.lr.det && g.lr.replay then
      match s.logFind n (fun x => x.kind = 3 && x.grid = num && x.key = key) with
      | .found i =>
        (match g.takeItem (s.logEnt n i).item with
          | some g' => .item ((s.setGrid c.grid (some g')).modCtx n fun x =>
              { x with logUsed := i :: x.logUsed, logpos := x.logpos + 1 }) (s.logEnt n i).item
          | none => .wait)
      | .ended i =>
        if g.left ≤ s.logCount n (fun x => x.kind = 3 && x.grid = num) (s.logCap n) 0 then .empty s
        else .stop (s.launchFault n 12 (s.logAddr n i) (crewInfo k 0 0))
      | .bad i => .stop (s.launchFault n 12 (s.logAddr n i) (crewInfo k 0 0))
    else
      match g.nextItem (galOfSite (s.siteOf (lcOf k))) (decide (g.next + 64 < g.last) && Config.freeBool s.fresh (8192 + l)) with
      | none => .empty s
      | some (i, g', batch) =>
        let s := s.setGrid c.grid (some g')
        let s := if batch then s.progress n else s
        (match s.choose n g { kind := 3, grid := num, item := i, key } (fun _ => false) (crewInfo k 0 0) with
          | .go s => .item s i
          | .wait => .wait
          | .fault s => .stop s)

/-- Give an item to a lane (R155, R167): v-registers first to first + n − 1 are zero. -/
def State.giveItem (s : State) (k l i : Nat) (first n : Nat) (pc : DWord) : State :=
  s.modCrew k fun c =>
    let c := (List.range n).foldl (fun c j => c.put l (BitVec.ofNat 8 (first + j)) 0) c
    c.setLane l { st := .live, item := BitVec.ofNat 48 i, age := c.status.extractLsb' 16 8, pc }

/-- Fill vacant lanes in ascending order until the queue is empty (R124, R167). -/
def State.fillLanes (s : State) (k first n : Nat) (pc : DWord) : List Nat → State
  | [] => s
  | l :: ls =>
    match s.drawItem k l with
    | .item s i => (s.giveItem k l i first n pc).fillLanes k first n pc ls
    | .empty s => s.modCrew k fun c => { c with status := c.status ||| 0x100 }
    | .stop s => s
    | .wait => s.modCrew k fun c => { c with stuck := true }

/-- The vacant lanes of a crew. -/
def Crew.vacant (c : Crew) : List Nat := lanesOf (c.inState .vacant)

/-- Exited lanes become vacant. -/
def Crew.clearExited (c : Crew) : Crew := (lanesOf (c.inState .exited)).foldl (fun c l => c.setLane l {}) c

/-- A thread finds its stack undefined (R107): the bytes that its pages map. -/
def State.freeStack (s : State) (k l : Nat) : State :=
  let r := s.recOf k
  let g := (r.stackbase.toNat + r.stack * (16384 * lcNum k + 64 * slotOf k + l)) % 2 ^ 64
  (s.mapped (ctxOf k) g r.stack).foldl (fun s (p, n) => s.undefineAt p n) s

/-- The v-registers of a refilled lane outside the named range are undefined (R167). -/
def State.noiseRegs (s : State) (k l first n : Nat) : State :=
  let vregs := (s.recOf k).vregs
  s.modCrew k fun c => (List.range (min vregs 128)).foldl (fun c j =>
    if first ≤ j && j < first + n then c else c.put l (BitVec.ofNat 8 j) (s.free (2 ^ 43 + 256 * l + j))) c

/-- The refill of R167. -/
def State.refillCrew (s : State) (k first n : Nat) (cont : DWord) : State :=
  let s := s.modCrew k fun c =>
    let c := c.clearExited
    let gen := c.status.extractLsb' 16 8 + 1
    { c with status := (c.status &&& 0xFF00FFFF) ||| (gen.setWidth 32 <<< 16), refill := some (first, n, cont) }
  let old := (s.crew k).vacant
  let s := s.fillLanes k first n cont old
  (old.filter fun l => ((s.crew k).lane l).st = .live).foldl (fun s l => (s.noiseRegs k l first n).freeStack k l) s

/-! ## Barriers -/

/-- The crews of a block that are live. -/
def State.blockCrews (s : State) (b : Nat) : List Nat :=
  s.crews.filterMap fun (k, c) => if c.alive && c.block = b then some k else none

/-- A blocked thread wakes: it is LIVE at the next header (R155), and has executed the word that it waited in (R381). -/
def wakeLane (x : Lane) : Lane :=
  { x with st := .live, wait := none, extSince := none, extTold := false, remain := none, wpSkip := false }

/-- A thread as regroup moves it (R155, R170): one that waits in the regroup wakes; a parked one stays PARKED; the yield flag is clear. -/
def movedLane (x : Lane) : Lane :=
  if x.st = .parked then { x with yld := false } else { wakeLane x with yld := false, mark := false }

/-- Whether a blocked lane waits on memory words only (R135). -/
def Lane.memWait (x : Lane) : Bool :=
  match x.wait with
  | some .mwait => true
  | some (.waitc _ cs _ _ _ _) => cs.all (·.kind == 2)
  | _ => false

/-- Whether a blocked lane waits at a barrier (R135). -/
def Lane.atBarrier (x : Lane) : Bool :=
  match x.wait with
  | some (.bar _) | some .gbar => true
  | _ => false

/-- Whether a crew is wait-idle (R135): no thread is runnable, one at least waits on memory words only, none at a barrier. The threads of a
halted crew are not runnable (R388). -/
def Crew.waitIdle (c : Crew) : Bool :=
  let blocked := lanesOf (c.inState .blocked)
  c.held.isNone && (c.inState .live == 0 || (c.halted && !c.stepping)) && blocked.any (fun l => (c.lane l).memWait) &&
    !blocked.any fun l => (c.lane l).atBarrier

/-- Since when a crew is wait-idle (R135). -/
def State.markIdle (s : State) (k : Nat) : State :=
  s.modCrew k fun c => { c with idleSince := if c.waitIdle then some (c.idleSince.getD s.tick) else none }

/-- Wake the lanes of a crew that satisfy a predicate. -/
def Crew.wake (c : Crew) (ok : Lane → Bool) : Crew :=
  (lanesOf (c.inState .blocked)).foldl (fun c l => if ok (c.lane l) then c.modLane l wakeLane else c) c

/-- Complete() of the block barrier (R370), and the threads whose phase has passed wake. -/
def State.barComplete (s : State) (b : Nat) : State :=
  match s.block b with
  | none => s
  | some x =>
    let need := if x.exp = 0 then
        (s.blockCrews b).foldl (fun n k => n + (lanesOf (s.crew k).present).length) 0
      else x.exp
    if need = 0 || x.arr < need then s
    else
      let ph := x.ph + BitVec.ofNat 8 (x.arr / need)
      let s := s.modBlock b fun x => { x with ph, arr := x.arr % need }
      (s.blockCrews b).foldl (fun s k => s.modCrew k fun c => c.wake fun l => match l.wait with
        | some (.bar p) => p != ph
        | _ => false) s

/-- Whether every present thread of a crew is blocked in gbar (R371). -/
def Crew.inGbar (c : Crew) : Bool :=
  (lanesOf c.present).all fun l => (c.lane l).st = .blocked && (c.lane l).wait = some .gbar

/-- The resident blocks of a gang. -/
def State.gangBlocks (s : State) (gang : Nat) : List Nat :=
  s.blocks.filterMap fun (b, x) => match x with
    | some y => if y.gangKey = gang then some b else none
    | none => none

/-- The gang barrier (R371): when every block has arrived, GPH advances and the threads in gbar wake. A block whose crews have all
ended counts as arrived. -/
def State.gangCheck (s : State) (gang : Nat) : State :=
  let bs := s.gangBlocks gang
  let arrived := bs.filter fun b => (s.blockCrews b).all fun k => (s.crew k).inGbar
  let waiting := bs.any fun b => (s.blockCrews b).any fun k => !(s.crew k).noThreads
  if waiting && arrived.length = bs.length then
    let ks := bs.flatMap s.blockCrews
    let s := bs.foldl (fun s b => s.modBlock b fun x => { x with gph := x.gph + 1, garr := 0 }) s
    ks.foldl (fun s k => s.modCrew k fun c => c.wake fun l => l.wait = some .gbar) s
  else bs.foldl (fun s b => s.modBlock b fun x => { x with garr := arrived.length + (x.size - bs.length) }) s

/-- Both barriers of a block are evaluated again: a thread has exited or a crew has ended (R370, R371). -/
def State.barriers (s : State) (b : Nat) : State :=
  let s := s.barComplete b
  match s.block b with
  | some x => s.gangCheck x.gangKey
  | none => s

/-! ## Grids, blocks and bindings -/

/-- Whether a live crew of a grid exists. -/
def State.gridCrews (s : State) (g : Nat) : Bool := s.crews.any fun (_, c) => c.alive && c.grid == g

/-- An entry of the log that satisfies a predicate and is not consumed faults the context: the agent it names ended
without making the choice (R261). `spare` counts the choices of that entry that are still on their way. -/
def State.leftover (s : State) (n : Nat) (ok : LogEnt → Bool) (f : FaultInfo) (spare : LogEnt → Nat := fun _ => 0) : State :=
  match s.logBad n (s.logCap n) 0 with
  | some i => s.launchFault n 12 (s.logAddr n i) f
  | none => match s.leftScan n ok spare (s.logCap n) 0 [] with
    | some i => s.launchFault n 12 (s.logAddr n i) f
    | none => s

/-- The returning atomics of a crew that are issued and will make the choice of an entry (R258, R261). -/
def Crew.pendingAtoms (c : Crew) (e : LogEnt) : Nat :=
  if e.kind = 4 then
    (c.atoms.flatMap fun a => if a.ret && a.op != .xflush then a.args else []).countP fun g =>
      g.item.toNat = e.item && g.va % 2 ^ 56 = e.key
  else 0

/-- The state of a grid (R114): one without an untaken item is no candidate and waits no longer (R116); a replayed grid that enters RETIRING has made every choice of its gangs and children. -/
def State.refreshGrid (s : State) (g : Nat) : State :=
  match s.grid g with
  | none => s
  | some x =>
    let st := if 0 < x.untaken then (if x.gangs = 0 then GridState.queued else .running)
      else if s.gridCrews g then .tail else .retiring
    let s := s.setGrid g (some { x with st, since := if 0 < x.untaken then x.since else none })
    if st = .retiring && x.st ≠ .retiring && x.lr.replay then
      s.leftover x.ctx (fun e => (e.kind = 2 && e.grid = x.det % 4096) ||
        (e.kind = 1 && !bit e.key 63 && bits e.key 16 12 = x.det % 4096)) { cause := 0x10 }
    else s

/-- Whether a logical core is bound in a gallery and holds a crew of a grid. -/
def State.onGallery (s : State) (g gal : Nat) : Bool :=
  s.crews.any fun (k, c) => c.alive && c.grid == g && (match (s.lcore (lcOf k)).site with
    | some st => galOfSite st == gal
    | none => false)

/-- Items cached on a gallery without a crew of the grid go to the returned list (R124). -/
def State.returnCached (s : State) (g gal : Nat) : State :=
  if s.onGallery g gal then s
  else s.modGrid g fun x =>
    { x with returned := addRanges x.returned (sget [] x.batches gal).flatten, batches := sset [] x.batches gal [] }

/-- Core positions of a block on whose core no crew of it is left (R147). -/
def State.endedCores (s : State) (b : Nat) (x : Block) : List Nat :=
  (List.range x.cores.length).filter fun i => !(s.blockCrews b).any fun k => lcOf k == (x.cores.getD i (0, 0)).1

/-- A block without live crews is gone, with its local memory; a segment ends with the last crew of the block on its core (R147,
R253). -/
def State.closeBlock (s : State) (b : Nat) : State :=
  if (s.blockCrews b).isEmpty then { s with blocks := sset none s.blocks b none }
  else s.modBlock b fun x =>
    let x := { x with gone := dedup (x.gone ++ s.endedCores b x) }
    { x with mem := x.mem.filter (fun e => !x.ended e.1), pois := x.pois.filter (fun e => !x.ended (4 * e.1))
             hidden := x.hidden.filter (fun e => !x.ended (4 * e.1)) }

/-- Whether a guest queue bound to the logical core holds an unretired packet. -/
def State.guestBusy (s : State) (lc : Nat) : Bool :=
  s.adit.gqs.any fun (_, g) => (g.bound.map (·.1)) == some lc && g.ridx < g.widx

/-- The binding of a logical core ends where nothing of it is left (R112). -/
def State.unbind (s : State) (lc : Nat) : State :=
  let c := s.lcore lc
  match c.site with
  | none => s
  | some site =>
    if s.crews.any (fun (k, x) => x.alive && lcOf k == lc) || c.ecs.any (fun (_, e) => !e.cmds.isEmpty) || s.guestBusy lc
    then s
    else
      let free := fun (g : GuestQ) => if (g.bound.map (·.1)) == some lc then { g with bound := none } else g
      let s := { s with lcs := sset {} s.lcs lc {}
                        adit := { s.adit with gqs := s.adit.gqs.map fun (x : Nat × GuestQ) => (x.1, free x.2) } }
      s.modSite site fun x => { x with bound := none }

/-! ## The end of a crew -/

/-- The oldest instruction of a partition's matrix unit is performed (R390), unless retests of the unit come first (R142). -/
def State.mtxOne (s : State) (lc q : Nat) : State :=
  match sget [] (s.lcore lc).mtx q with
  | [] => s
  | m :: rest => if s.unitOwes lc q then s else (s.modLcore lc fun c => { c with mtx := sset [] c.mtx q rest }).performMtx m

/-- Matrix instructions are performed in order until none of the crew is left (R132, R391). -/
def State.finishMtx (s : State) (k : Nat) : Nat → State
  | 0 => s
  | n + 1 => if s.mtxBusy k none then (s.mtxOne (lcOf k) (slotOf k % 4)).finishMtx k n else s

/-- Every matrix instruction of a crew completes. -/
def State.completeMtx (s : State) (k : Nat) : State :=
  s.finishMtx k (sget [] (s.lcore (lcOf k)).mtx (slotOf k % 4)).length

/-- A replayed crew has consumed the ITEM entries of its lanes and the entries of its threads (R261). -/
def State.crewLeftover (s : State) (k : Nat) : State :=
  let c := s.crew k
  match s.grid c.grid with
  | some g =>
    if g.lr.replay then
      let key := ((s.block c.block).map (·.id)).getD 0 % 2 ^ 48 + c.index * 2 ^ 48
      let items := (lanesOf c.present).map fun l => (c.lane l).item.toNat
      s.leftover (ctxOf k) (fun e => e.grid = g.det % 4096 &&
        ((e.kind = 3 && e.key % 2 ^ 58 = key) || (4 ≤ e.kind && items.contains e.item))) (crewInfo k 0 0) c.pendingAtoms
    else s
  | none => s

/-- Whether anything of a crew is still on its way. -/
def State.crewBusy (s : State) (k : Nat) : Bool :=
  let c := s.crew k
  s.mtxBusy k none || !c.queue.isEmpty || !c.atoms.isEmpty || !c.flights.isEmpty || s.homeQ.any (·.crew == k)

/-- The crew ends (R166): what it has outstanding is performed first; where a replayed choice still waits, the crew only
stands ending. Its slot, registers and launch entries are released, and its block, grid and binding follow. -/
def State.endCrewBase (s : State) (k : Nat) : State :=
  if !(s.crew k).alive then s
  else
    let s := ((s.completeMtx k).quiesce k).crewLeftover k
    let c := s.crew k
    if s.crewBusy k then s.setCrew k { c with ending := true, lanes := [] }
    else
      let gal := galOfSite (s.siteOf (lcOf k))
      let s := s.setCrew k {}
      let s := { s with dist := { s.dist with pool := s.dist.pool + c.entries } }
      let s := (s.barriers c.block).closeBlock c.block
      let s := (s.returnCached c.grid gal).refreshGrid c.grid
      s.unbind (lcOf k)

/-! ## Regroup -/

/-- The slots that a regroup list names, ascending (R169). -/
def regroupList (w : Word) : List Nat :=
  sortBy id (((wordsToBytes [w]).map (·.toNat)).filter (· != 0xFF))

/-- The live crews of a list, as keys (R169). -/
def State.regroupLive (s : State) (k : Nat) (slots : List Nat) : List Nat :=
  (slots.map fun c => lcOf k * 256 + c).filter fun j => (s.crew j).alive && !(s.crew j).ending

/-- Move a thread to a lane of another crew (R170). -/
def State.moveThread (s : State) (vregs : Nat) (old : Crew) (ol : Nat) (k l : Nat) : State :=
  s.modCrew k fun c =>
    let c := (List.range vregs).foldl (fun (c : Crew) j =>
      { c with v := sset 0 c.v (64 * j + l) (old.vreg j ol),
               vPois := sset false c.vPois (64 * j + l) (sget false old.vPois (64 * j + ol)) }) c
    c.setLane l (movedLane (old.lane ol))

/-- A thread that regroup has moved finds the stack of its new lane undefined (R170). -/
def State.moveStack (s : State) (k l k' l' : Nat) : State := if k = k' && l = l' then s else s.freeStack k' l'

/-- Move the k-th thread of the list to its place (R170). -/
def State.moveAll (s : State) (vregs : Nat) (before : State) (crews : List Nat) : Nat → List (Nat × Nat) → State
  | _, [] => s
  | i, (k, l) :: rest =>
    let k' := crews.getD (i / 64) 0
    ((s.moveThread vregs (before.crew k) l k' (i % 64)).moveStack k l k' (i % 64)).moveAll vregs before crews (i + 1) rest

/-- Regroup of the listed crews, of which nothing is on its way any more, in one step (R170). -/
def State.regroupNow (s : State) (crews : List Nat) : State :=
  let vregs := (s.recOf (crews.headD 0)).vregs
  let threads := crews.flatMap fun k => (lanesOf (s.crew k).present).map fun l => (k, l)
  let used := ceilDiv threads.length 64
  let cleared := crews.foldl (fun s k => s.modCrew k fun c => { c with lanes := [] }) s
  let moved := cleared.moveAll vregs s crews 0 threads
  let empty := (List.range crews.length).foldl (fun m i => if used ≤ i then m + 2 ^ i else m) 0
  (crews.zip (List.range crews.length)).foldl (fun s (k, i) =>
    if i < used then
      let n := min 64 (threads.length - 64 * i)
      s.modCrew k fun c => match c.regroup with
        | some (_, d) => { (c.put 0 d (BitVec.ofNat 32 (empty + 256 * n))) with regroup := none }
        | none => c
    else s.endCrewBase k) moved

/-- Perform the regroup that a crew waits in, if every live crew of its list has arrived on its site (R169) and all that they have
outstanding is performed (R170). -/
def State.regroupTry (s : State) (k : Nat) : State :=
  match (s.crew k).regroup with
  | some (slots, _) =>
    let live := s.regroupLive k slots
    if live.all fun j => (s.crew j).regroup.isSome && (s.crew j).res == .resident then
      let s := live.foldl (fun s j => s.quiesce j) s
      if live.any s.crewBusy then s else s.regroupNow live
    else s
  | none => s

/-- Crews of a logical core that wait in a regroup. -/
def State.regrouping (s : State) (lc : Nat) : List Nat :=
  s.crews.filterMap fun (k, c) => if c.alive && lcOf k == lc && c.regroup.isSome then some k else none

/-- The crew ends, and crews that waited for it in a regroup are looked at again (R166, R169). -/
def State.endCrew (s : State) (k : Nat) : State :=
  let s := s.endCrewBase k
  (s.regrouping (lcOf k)).foldl (fun s j => s.regroupTry j) s

/-- A crew that stands ending and has nothing outstanding any more ends; a regroup that waited for the crew's accesses is performed. -/
def State.settleEnd (s : State) (k : Nat) : State :=
  if (s.crew k).ending && !s.crewBusy k then s.endCrew k else s.regroupTry k

end Sys2Proof.Machine
end

