-- ==== Sys2Proof/Machine/Sys.lean ====
section
/-! DEFINITION. Class 5: barriers, waiting, membership, launches, specials, counters, traps and debugging (R367 to R387). -/

namespace Sys2Proof.Machine

/-! ## Shared operations -/

/-- Write a destination (R367): a v-register per thread, an s-register once with the lowest thread's value. -/
def State.putDest (s : State) (k : Nat) (d : BitVec 8) (vals : List (Nat × Word)) : State :=
  if isV d then s.modCrew k fun c => vals.foldl (fun c (l, w) => c.put l d w) c
  else match vals with
    | (_, w) :: _ => s.modCrew k fun c => c.put 0 d w
    | [] => s

/-- Threads block and leave the pulse; they wake at the next header (R155, R368). `ext` says which wait externally. -/
def State.blockLanes (s : State) (p : Pulse) (ls : List Nat) (w : WaitIn) (ext : Bool) : State :=
  let s := s.modCrew p.crew fun c => ls.foldl (fun c l => c.modLane l fun x =>
    { x with st := .blocked, pc := p.nextPc, waitPc := p.pc, waitWord := p.word, wait := some w, mark := false,
             extSince := if ext then some s.tick else none, extTold := false, remain := none }) c
  let q := s.pulse p
  { s with cur := some { q with part := q.part &&& ~~~laneSet ls } }

/-- Write the mailbox report of R387 and advance DBGSEQ. -/
def State.report (s : State) (k : Nat) (cause : BitVec 8) (tid : BitVec 6) (pc addr m14 m15 : DWord) : State :=
  let w0 := cause.toNat + 256 * lcNum k + 65536 * slotOf k + 2 ^ 24 * tid.toNat
  let ws := [BitVec.ofNat 32 w0, loWord pc, hiWord pc, loWord addr, hiWord addr, loWord m14, hiWord m14, loWord m15, hiWord m15]
  s.modCtx (ctxOf k) fun c =>
    { c with mbx := (ws.zip (List.range 9)).foldl (fun m (w, i) => sset 0 m i w) c.mbx, dbgseq := c.dbgseq + 1 }

/-! ## Barriers -/

/-- bar.init (R370). -/
def execBarInit (f : FmtS) (s : State) : Out :=
  s.word (.barInit f) fun s p =>
    let b := (s.src p.crew (lowLane p.part) f.b).toNat
    match s.block (s.crew p.crew).block with
    | none => s
    | some x =>
      if x.arr ≠ 0 || b < 1 || 65536 < b then s.deliverAll p .iconv
      else s.modBlock (s.crew p.crew).block fun x => { x with exp := b }

/-- bar.arrive (R370, R391): a release of gallery scope. -/
def execBarArrive (f : FmtS) (s : State) : Out :=
  s.edgeWord (.barArrive f) fun s p _ =>
    if s.mtxBusy p.crew none then s.holdAt p (.matrix none)
    else
      let b := (s.crew p.crew).block
      let s := s.release p.crew 3
      let ph := ((s.block b).map (·.ph)).getD 0
      let ls := lanesOf p.part
      let s := s.putDest p.crew f.a (ls.map fun l => (l, ph.setWidth 32))
      (s.modBlock b fun x => { x with arr := x.arr + ls.length }).barComplete b

/-- bar.wait (R370). -/
def execBarWait (f : FmtS) (s : State) : Out :=
  s.word (.barWait f) fun s p =>
    let ph := ((s.block (s.crew p.crew).block).map (·.ph)).getD 0
    s.blockLanes p ((lanesOf p.part).filter fun l => s.src p.crew l f.b == ph.setWidth 32) (.bar ph) false

/-- gbar (R371, R391): arrival is a release of gallery scope. -/
def execGbar (f : FmtS) (s : State) : Out :=
  s.edgeWord (.gbar f) fun s p _ =>
    if s.mtxBusy p.crew none then s.holdAt p (.matrix none)
    else
      let s := (s.release p.crew 3).blockLanes p (lanesOf p.part) .gbar false
      match s.block (s.crew p.crew).block with
      | some x => s.gangCheck x.gangKey
      | none => s

/-! ## waitc -/

/-- The conditions of a waitc with their operands read for lane l (R372). -/
def State.condsOf (s : State) (k l : Nat) : List Word → List Cond
  | w :: off :: rest =>
    let kind := (w.extractLsb' 0 3).toNat
    let p : BitVec 8 := w.extractLsb' 8 8
    { kind, cmp := (w.extractLsb' 3 3).toNat, ec := (w.extractLsb' 24 6).toNat, q := s.src k l (w.extractLsb' 16 8)
      p := match kind with
        | 0 => s.src64 k l p
        | 2 => s.src64 k l p + off.signExtend 64
        | _ => (s.src k l p).setWidth 64 } :: s.condsOf k l rest
  | _ => []

/-- Compare of a MEM condition (R372). -/
def condCompare (cmp : Nat) (x q : Word) : Bool :=
  match cmp with
  | 0 => x == q
  | 1 => x != q
  | 2 => x.slt q
  | 3 => !x.slt q
  | 4 => x.ult q
  | _ => !x.ult q

/-- What an evaluation of a condition finds (R373); a MEM word tells whether its wait is external (R58). -/
inductive CondRes where
  | yes
  | no (ext : Bool)
  | fail (t : Taken) (r : Option FaultRec) (ats : Option (Nat × FaultRec))
deriving DecidableEq, Repr

/-- Whether a condition holds for lane l (R373). -/
def State.condHolds (s : State) (k l : Nat) (pc : DWord) (c : Cond) : CondRes :=
  let is := fun (b : Bool) => if b then CondRes.yes else .no false
  match c.kind with
  | 0 => is (c.p.toNat ≤ (((s.lcore (lcOf k)).ec c.ec).count).toNat)
  | 1 =>
    match bufAddr (loWord c.p) 1 with
    | .ok (b, o) => is ((s.lcore (lcOf k)).isFull (granKey b (o / 16)))
    | .error e => .fail { lane := l, cause := e, addr := c.p } none none
  | 2 =>
    match s.access k l pc c.p 4 4 .read with
    | .no t r a => .fail t r a
    | .hold _ => .no false
    | .ok h =>
      (match s.loadPoison k h 4 with
        | some _ => .fail { lane := l, cause := .poison, addr := c.p, faddr := some c.p } none none
        | none => if condCompare c.cmp (bytesToWord (s.loadBytes k h 4)) c.q then .yes else .no (s.external h.pl))
  | _ =>
    let ph := ((s.block (s.crew k).block).map (·.ph)).getD 0
    is (ph.setWidth 64 != c.p)

/-- Evaluate the conditions not yet satisfied, in ascending order (R373): the first that fails, whether the wait is
external, and the conditions after it. -/
def State.evalConds (s : State) (k l : Nat) (pc : DWord) : List Cond → Option (Taken × Option FaultRec × Option (Nat × FaultRec)) × Bool × List Cond
  | [] => (none, false, [])
  | c :: cs =>
    if c.sat then
      let (f, e, r) := s.evalConds k l pc cs
      (f, e, c :: r)
    else
      match s.condHolds k l pc c with
      | .fail t r a => (some (t, r, a), false, c :: cs)
      | .yes =>
        let (f, e, r) := s.evalConds k l pc cs
        (f, e, { c with sat := true } :: r)
      | .no x =>
        let (f, e, r) := s.evalConds k l pc cs
        (f, x || e, c :: r)

/-- The accesses of the MEM conditions that are not yet satisfied (R373). -/
def State.condTries (s : State) (k l : Nat) (pc : DWord) (cs : List Cond) : List (Nat × DWord × Acc) :=
  (cs.filter fun c => !c.sat && c.kind = 2).map fun c => (l, c.p, s.access k l pc c.p 4 4 .read)

/-- Those of them that go ahead. -/
def State.condHits (s : State) (k l : Nat) (pc : DWord) (cs : List Cond) : List Hit :=
  (s.condTries k l pc cs).filterMap fun (_, _, a) => match a with
    | .ok h => some h
    | _ => none

/-- Whether an evaluation waits, because the home slices hold a word that it reads, or one that its walk reads (R53, R225). -/
def State.condsHeld (s : State) (k l : Nat) (pc : DWord) (cs : List Cond) : Bool :=
  (s.condTries k l pc cs).any fun (_, _, a) => match a with
    | .ok h => s.swapping h.pl
    | .hold _ => true
    | .no _ _ _ => false

/-- The index of the first condition with a given satisfaction. -/
def firstCond (v : Bool) (cs : List Cond) : Option Nat := cs.findIdx? (·.sat == v)

/-- The outcome of a waitc, if it stops (R373). -/
def waitOutcome (all timed : Bool) (cs : List Cond) : Option Nat :=
  if all then
    (match firstCond false cs with
      | none => some 0
      | some i => if timed then some (4 + i) else none)
  else
    match firstCond true cs with
    | some i => some i
    | none => if timed then some 4 else none

/-- The outcome that a replayed entry prescribes, if it can be made now (R261). -/
def replayOutcome (all timed : Bool) (cs : List Cond) (o : Nat) : Option Nat :=
  if 4 ≤ o then (if timed then some o else none)
  else if all then (if (firstCond false cs).isNone then some 0 else none)
  else if (cs[o]?.map (·.sat)).getD false then some o else none

/-- How an evaluated waitc goes on. -/
inductive WaitRes where
  | done (s : State) (o : Nat)
  | stay
  | stop (s : State)

/-- Decide a waitc of a thread, logged or forced in a deterministic grid (R258, R261, R373). -/
def State.waitDecide (s : State) (k l : Nat) (pc : DWord) (all hasTimeout timed : Bool) (cs : List Cond) : WaitRes :=
  match s.grid (s.crew k).grid with
  | none => .stay
  | some g =>
    let item := ((s.crew k).lane l).item.toNat
    let num := g.det % 4096
    let same := fun (x : LogEnt) => x.kind = 6 && x.item = item && x.grid = num
    let chosen := fun (s : State) (o : Nat) =>
      match s.choose (ctxOf k) g { kind := 6, grid := num, item, key := o } same (crewInfo k l pc) with
      | .go s => WaitRes.done s o
      | .wait => .stay
      | .fault s => .stop s
    if !g.lr.det || (all && !hasTimeout) then
      (match waitOutcome all timed cs with
        | some o => .done s o
        | none => .stay)
    else if g.lr.replay then
      match s.logFind (ctxOf k) same with
      | .found i =>
        (match replayOutcome all timed cs (bits (s.logEnt (ctxOf k) i).key 0 3) with
          | some o => chosen s o
          | none => .stay)
      | _ => chosen s 0
    else
      match waitOutcome all timed cs with
      | some o => chosen s o
      | none => .stay

/-- waitc for the listed threads of the pulse in turn, which all evaluate in the state `b` in which the word runs; `peers` are the
threads that share the outcome, `bad` those with a poisoned source. -/
def State.waitcGo (s b : State) (p : Pulse) (bad : LaneSet) (f : FmtS) (lits : List Word) (all scalar : Bool) : List Nat → State
  | [] => s
  | l :: ls =>
    let peers := if scalar then lanesOf p.part else [l]
    let cs := b.condsOf p.crew l (lits.take (2 * ((f.f.extractLsb' 0 2).toNat + 1)))
    let t := b.src p.crew l f.b
    let due := match ((b.crew p.crew).lane l).remain with
      | some r => some (s.tick + r)
      | none => if t = 0xFFFFFFFF then none else some (s.tick + t.toNat)
    let timed := match due with
      | some d => decide (d ≤ s.tick)
      | none => false
    let next := match b.evalConds p.crew l p.pc cs with
      | (some (tk, r, a), _, _) =>
        let ts := peers.map fun j => { tk with lane := j }
        let s := (s.openFor (ctxOf p.crew) r a).countParks p.crew ts
        s.deliverAt (s.pulse p) ts
      | (none, ext, cs') =>
        if bad.getLsbD l then s.deliverAt (s.pulse p) (peers.map fun j => { lane := j, cause := .poison })
        else
        let s := s.cacheHits (ctxOf p.crew) (b.condHits p.crew l p.pc cs)
        let cs := cs'
        match s.waitDecide p.crew l p.pc all due.isSome timed cs with
        | .done s o =>
          let s := s.putDest p.crew f.a [(l, BitVec.ofNat 32 o)]
          peers.foldl (fun s j => s.modLane p.crew j fun x => { x with remain := none, wpSkip := false }) s
        | .stop s => s
        | .stay => s.blockLanes p peers (.waitc all cs due f.a scalar (laneSet peers)) ext
    next.waitcGo b p bad f lits all scalar ls

/-- The granules that the FULL conditions of the performing threads name (R391). -/
def State.fullGrans (s : State) (p : Pulse) (lits : List Word) (ls : List Nat) : List Nat :=
  ls.flatMap fun l => (s.condsOf p.crew l lits).filterMap fun c =>
    if c.kind = 1 then
      match bufAddr (loWord c.p) 1 with
      | .ok (b, o) => some (granKey b (o / 16))
      | .error _ => none
    else none

/-- waitc.any and waitc.all (R372, R373): the reads of MEM conditions come after the thread's returning atomics (R238), and those of
device registers after its earlier accesses (R211). -/
def State.waitc (s : State) (p : Pulse) (bad : LaneSet) (f : FmtS) (lits : List Word) (all : Bool) : State :=
  let scalar := isS f.a
  let ls := if scalar then (lanesOf p.part).take 1 else lanesOf p.part
  let ws := lits.take (2 * ((f.f.extractLsb' 0 2).toNat + 1))
  let gs := s.fullGrans p ws ls
  if (s.crew p.crew).atomsBlock p then s.holdAt p .atoms
  else if !gs.isEmpty && s.mtxBusy p.crew (some gs) then s.holdAt p (.matrix (some gs))
  else
    let tries := ls.flatMap fun l => s.condTries p.crew l p.pc (s.condsOf p.crew l ws)
    match s.readsHold p 4 tries with
    | some c => s.holdAt p c
    | none =>
      let s := s.portOrder p (tries.filterMap fun (l, ea, a) => match a with
        | .ok h => some (l, ea, h)
        | _ => none)
      s.waitcGo s p bad f lits all scalar ls

/-- waitc.any (R373). -/
def execWaitcAny (f : FmtS) (conds : List Word) (s : State) : Out :=
  s.wordLate (.waitcAny f conds) fun s p bad => s.waitc p bad f conds false
/-- waitc.all (R373). -/
def execWaitcAll (f : FmtS) (conds : List Word) (s : State) : Out :=
  s.wordLate (.waitcAll f conds) fun s p bad => s.waitc p bad f conds true

/-! ## mwatch and mwait -/

/-- The line of a place (R374). -/
def Place.line : Place → Place
  | .dev a => .dev (a / 128 * 128)
  | .host a => .host (a / 128 * 128)
  | .loc b a => .loc b (a / 128 * 128)
  | .port a => .port (a / 128 * 128)

/-- mwatch (R374): translated and checked like a load of one byte. -/
def execMwatch (f : FmtS) (s : State) : Out :=
  s.wordLate (.mwatch f) fun s p bad =>
    let ls := lanesOf p.part
    let (s', oks) := s.settle p bad false (s.tries p ls (fun l => s.src64 p.crew l f.b) 1 1 .read)
    (s'.modCrew p.crew fun c => oks.foldl (fun c (l, ea, h) =>
      c.modLane l fun x => { x with watch := some { line := h.pl.line, ea, ser := s.writes } }) c).memDone s p

/-- Whether the armed watch of a thread has been hit (R374). -/
def State.watched (s : State) (w : MWatch) : Bool := w.ser < s.lineSer w.line

/-- mwait (R374): without a watch it does nothing; after a hit the thread goes on at once. -/
def execMwait (f : FmtS) (s : State) : Out :=
  s.word (.mwait f) fun s p =>
    (lanesOf p.part).foldl (fun s l => match ((s.crew p.crew).lane l).watch with
      | none => s
      | some w =>
        if s.watched w then s.modLane p.crew l fun x => { x with watch := none }
        else s.blockLanes p [l] .mwait (s.external w.line)) s

/-! ## Yield, refill, drain, regroup, launch -/

/-- yield (R375). -/
def execYield (f : FmtS) (s : State) : Out :=
  s.word (.yield f) fun s p => { s with cur := some { p with yields := p.yields ||| p.part } }

/-- refill (R167, R376): a lane that receives an item is no helper any more (R165). -/
def execRefill (f : FmtS) (s : State) : Out :=
  s.word (.refill f) fun s p =>
    let s := (s.refillCrew p.crew f.a.toNat (f.f.extractLsb' 0 5).toNat p.nextPc).refreshGrid (s.crew p.crew).grid
    let q := s.pulse p
    let helpers := q.helpers &&& ~~~(s.crew p.crew).inState .live
    { s with cur := some { q with refilled := true, helpers, hold := if (s.crew p.crew).stuck then some .replay else q.hold } }

/-- drain (R377, R391): the crew ends with the pulse; the words after it do not run. -/
def execDrain (f : FmtS) (s : State) : Out :=
  s.word (.drain f) fun s p =>
    if s.mtxBusy p.crew none then s.holdAt p (.matrix none)
    else { s with cur := some { p with drain := true, todo := [] } }

/-- Whether a regroup raises ICONV (R169). -/
def State.regroupBad (s : State) (k : Nat) (slots : List Nat) : Bool :=
  !slots.contains (slotOf k) || (dedup slots).length != slots.length ||
    (s.regroupLive k slots).any fun j =>
      (s.crew j).block != (s.crew k).block || (match (s.crew j).regroup with
        | some (other, _) => other != slots
        | none => false)

/-- regroup (R169, R170, R378): a moved thread's yield flag is clear, even where this pulse was to set it. -/
def execRegroup (f : FmtS) (s : State) : Out :=
  s.word (.regroup f) fun s p =>
    let slots := regroupList ((s.crew p.crew).sreg (sNum f.b))
    if s.mtxBusy p.crew none then s.holdAt p (.matrix none)
    else if s.regroupBad p.crew slots || (s.regrouping (lcOf p.crew)).any fun j => match (s.crew j).regroup with
        | some (other, _) => other.contains (slotOf p.crew) && other != slots
        | none => false then s.deliverAll p .iconv
    else
      let s := s.modCrew p.crew fun c => { c with regroup := some (slots, f.a) }
      let s := (s.blockLanes p (lanesOf p.part) .regroup false).regroupTry p.crew
      let q := s.pulse p
      if (s.crew p.crew).regroup.isNone then { s with cur := some { q with yields := 0 } } else s

/-- One launch of a thread (R126, R379). -/
def State.launchOne (s : State) (p : Pulse) (l : Nat) (rec : DWord) : State × Word :=
  let c := s.crew p.crew
  if c.entries = 0 then (s, 1)
  else
    let x := c.lane l
    let g := s.grid c.grid
    let child : Child :=
      { raddr := rec, crew := p.crew, serial := c.serial, det := (g.map (·.lr.det)).getD false
        parent := ((g.map (·.det)).getD 0) % 4096, item := x.item, ordinal := x.launches }
    let s := s.setCrew p.crew ({ c with entries := c.entries - 1 }.setLane l { x with launches := x.launches + 1 })
    (s.modCtx (ctxOf p.crew) fun x => { x with children := x.children ++ [child] }, 0)

/-- Launches of the listed threads in ascending order. -/
def State.launchAll (s : State) (p : Pulse) : List (Nat × DWord) → State × List (Nat × Word)
  | [] => (s, [])
  | (l, r) :: rest =>
    let (s, w) := s.launchOne p l r
    let (s, ws) := s.launchAll p rest
    (s, (l, w) :: ws)

/-- launch (R379): a cumulative release of device scope and every storage class, after the crew's matrix instructions (R246, R391). -/
def execLaunch (f : FmtS) (s : State) : Out :=
  s.edgeWord (.launch f) fun s p bad =>
    if s.mtxBusy p.crew none then s.holdAt p (.matrix none)
    else
    let scalar := isS f.a
    let tries := (performers p scalar).map fun l => (l, s.src64 p.crew l f.b)
    let takes := tries.filterMap fun (l, a) =>
      if a.extractLsb' 0 8 != 0 then some { lane := l, cause := .misalign, addr := a }
      else if bad.getLsbD l then some { lane := l, cause := .poison } else none
    let good := tries.filter fun (l, a) => a.extractLsb' 0 8 == 0 && !bad.getLsbD l
    let s := s.deliverAt p (takes.flatMap (spread p scalar))
    if good.isEmpty then s
    else
      let (s, ws) := (s.release p.crew 5).launchAll p good
      s.putDest p.crew f.a ws

/-! ## Specials -/

/-- A scalar special (R152, R380). -/
def State.scalarSpecial (s : State) (k n : Nat) : Word :=
  let c := s.crew k
  let r := s.recOf k
  let b := s.block c.block
  let site := s.siteOf (lcOf k)
  let w := fun (x : Nat) => BitVec.ofNat 32 x
  match n with
  | 0x000 => (c.status &&& 0x00FF010F) ||| w ((if r.det then 512 else 0) + (if r.replay then 1024 else 0))
  | 0x001 => w ((b.map (·.id)).getD 0)
  | 0x002 => w (((b.map (·.id)).getD 0) / 2 ^ 32 % 65536)
  | 0x003 => w ((b.map (·.size)).getD 0)
  | 0x004 => w ((b.map (·.gang)).getD 0)
  | 0x005 => w c.index
  | 0x006 => w (lcNum k)
  | 0x007 => w (vdOfSite site)
  | 0x008 => w (galOfSite site % 2)
  | 0x009 => w r.crews
  | 0x00A => (s.dev.feat.extractLsb' 32 4).setWidth 32
  | 0x00B => (s.dev.feat.extractLsb' 36 8).setWidth 32
  | 0x00C => w r.items
  | 0x00D => w (r.items / 2 ^ 32 % 65536)
  | 0x00E => w r.itembase
  | 0x00F => w (r.itembase / 2 ^ 32 % 65536)
  | 0x010 => loWord r.args
  | 0x011 => hiWord r.args
  | 0x040 => loWord (sget 0 (s.ctx (ctxOf k)).watch 0)
  | 0x041 => hiWord (sget 0 (s.ctx (ctxOf k)).watch 0)
  | 0x042 => loWord (sget 0 (s.ctx (ctxOf k)).watch 1)
  | 0x044 => loWord (sget 0 (s.ctx (ctxOf k)).watch 2)
  | 0x045 => hiWord (sget 0 (s.ctx (ctxOf k)).watch 2)
  | _ => loWord (sget 0 (s.ctx (ctxOf k)).watch 3)

/-- A trap special of a lane (R294, R380). -/
def trapSpecial (t : TrapRegs) (n : Nat) : Word :=
  match n with
  | 0x20 => t.word
  | 0x21 => t.cls.setWidth 32
  | 0x22 => (t.word.extractLsb' 26 6).setWidth 32
  | 0x23 => (t.word.extractLsb' 18 8).setWidth 32
  | 0x24 => (t.word.extractLsb' 10 8).setWidth 32
  | 0x25 => (t.word.extractLsb' 2 8).setWidth 32
  | 0x26 => (t.word.extractLsb' 0 22).setWidth 32
  | 0x27 => loWord t.pc
  | 0x28 => hiWord t.pc
  | 0x29 => t.cause
  | 0x2A => loWord t.addr
  | _ => hiWord t.addr

/-- srd (R380); a helper has no trap specials: what it writes is a free value. -/
def execSrd (f : FmtS) (s : State) : Out :=
  s.word (.srd f) fun s p =>
    let n := f.f.toNat
    let c := s.crew p.crew
    let val := fun (l : Nat) =>
      if srdVector n then (if (c.lane l).present then trapSpecial (c.lane l).tr n else s.free (512 + l))
      else s.scalarSpecial p.crew n
    s.putDest p.crew f.a ((if isV f.a then p.computing else [lowLane p.part]).map fun l => (l, val l))

/-- The watch register and half that a special names (R380). -/
def watchReg? (n : Nat) : Option (Nat × Nat) :=
  match n with
  | 0x40 => some (0, 0)
  | 0x41 => some (0, 1)
  | 0x42 => some (1, 0)
  | 0x44 => some (2, 0)
  | 0x45 => some (2, 1)
  | 0x46 => some (3, 0)
  | _ => none

/-- Write half a watch register for a pulse (R381): other threads may see the old value for 1,000 ticks. -/
def State.setWatch (s : State) (p : Pulse) (reg half : Nat) (w : Word) : State :=
  let old := sget 0 (s.ctx (ctxOf p.crew)).watch reg
  let new : DWord := if reg % 2 = 1 then (w &&& 0x7F).setWidth 64
    else if half = 0 then pair w (hiWord old) else pair (loWord old) w
  s.modCtx (ctxOf p.crew) fun c =>
    { c with watch := sset 0 c.watch reg new
             watchOld := (c.watchOld.filter fun x => s.tick < x.tick + 1000) ++
               [{ reg, old, tick := s.tick, crew := p.crew, lanes := p.part }] }

/-- swr (R380, R381): RO specials ignore it. -/
def execSwr (f : FmtS) (s : State) : Out :=
  s.word (.swr f) fun s p =>
    let n := f.f.toNat
    let w := s.src p.crew (lowLane p.part) f.b
    if n = 0 then s.modCrew p.crew fun c => { c with status := (c.status &&& ~~~(0xF : Word)) ||| (w &&& 0xF) }
    else if n = 0x27 || n = 0x28 then
      s.modCrew p.crew fun c => (lanesOf p.part).foldl (fun c l => c.modLane l fun x =>
        if x.inTrap then
          let v := s.src p.crew l f.b
          { x with tr := { x.tr with pc := if n = 0x27 then pair v (hiWord x.tr.pc) else pair (loWord x.tr.pc) v } }
        else x) c
    else match watchReg? n with
      | some (r, h) => s.setWatch p r h w
      | none => s

/-! ## Counters, clocks, placement -/

/-- Write a 64-bit value into an s-register pair. -/
def State.putS64 (s : State) (k : Nat) (d : BitVec 8) (x : DWord) : State :=
  s.modCrew k fun c => c.putAll 0 d [loWord x, hiWord x]

/-- Sources whose counts depend on caches and cycles that the model leaves out: L1 misses, matrix-unit busy cycles, cycles
held on a granule or a queue (R382). Their counters read as free values. -/
def timedSource (n : Nat) : Bool := n = 5 || n = 8 || n = 11 || n = 12

/-- evc (R382). -/
def execEvc (f : FmtS) (s : State) : Out :=
  s.word (.evc f) fun s p =>
    let site := s.site (s.siteOf (lcOf p.crew))
    let k := (f.f.extractLsb' 0 4).toNat
    s.putS64 p.crew f.a (if timedSource (sget 0 site.evSel k).toNat then pair (s.free 600) (s.free 601) else sget 0 site.evCnt k)

/-- evc.sel (R382). -/
def execEvcSel (f : FmtS) (s : State) : Out :=
  s.word (.evcSel f) fun s p =>
    let k := (f.f.extractLsb' 0 4).toNat
    let b : BitVec 8 := (s.src p.crew (lowLane p.part) f.b).truncate 8
    s.modSite (s.siteOf (lcOf p.crew)) fun x => { x with evSel := sset 0 x.evSel k b, evCnt := sset 0 x.evCnt k 0 }

/-- vhop (R42, R383). -/
def execVhop (f : FmtS) (s : State) : Out :=
  s.word (.vhop f) fun s p =>
    let hop := fun (l : Nat) => BitVec.ofNat 32
      (s.hop ((s.src p.crew l f.b).toNat % 256) ((s.src p.crew l (f.f.truncate 8)).toNat % 256))
    s.putDest p.crew f.a ((if isV f.a then p.computing else [lowLane p.part]).map fun l => (l, hop l))

/-- clock (R383). -/
def execClock (f : FmtS) (s : State) : Out :=
  s.word (.clock f) fun s p => s.putS64 p.crew f.a (BitVec.ofNat 64 s.tick)

/-- clock.core (R383). -/
def execClockCore (f : FmtS) (s : State) : Out :=
  s.word (.clockCore f) fun s p =>
    s.putS64 p.crew f.a (BitVec.ofNat 64 s.cycles + (s.site (s.siteOf (lcOf p.crew))).cycles)

/-! ## Traps and debugging -/

/-- trap (R384). -/
def execTrap (f : FmtS) (s : State) : Out := s.word (.trap f) fun s p => s.deliverAll p .utrap

/-- Whether a thread that returns to an address carries the resume mark (R290): it is no header of the walk. -/
def State.returnMark (s : State) (n : Nat) (pc : DWord) (v : Option CodeSnap) : Bool :=
  match s.headerOf n pc v with
  | .at q => q != pc
  | _ => true

/-- trapret (R296, R385): threads outside their handler take ILLEGAL with reason 11. -/
def execTrapret (f : FmtS) (s : State) : Out :=
  s.word (.trapret f) fun s p =>
    let c := s.crew p.crew
    let inside := (lanesOf p.part).filter fun l => (c.lane l).inTrap
    let outside := (lanesOf p.part).filter fun l => !(c.lane l).inTrap
    let c := inside.foldl (fun c l =>
      { c.modLane l (fun x => trapReturn (s.returnMark (ctxOf p.crew) x.tr.pc (s.crew p.crew).code) x) with lat := sset [] c.lat l [] }) c
    let q := { p with part := p.part &&& ~~~laneSet inside }
    ({ s with cur := some q }.setCrew p.crew c).deliverAt q (outside.map fun l => { lane := l, cause := .illegal 11 })

/-- A mailbox write (R386). -/
def State.mailbox (s : State) (p : Pulse) (f : FmtS) : State :=
  let w := s.src p.crew (lowLane p.part) f.b
  s.modCtx (ctxOf p.crew) fun c => { c with mbx := sset 0 c.mbx (f.f.extractLsb' 0 4).toNat w, dbgseq := c.dbgseq + 1 }

/-- dbg (R386). -/
def execDbg (f : FmtS) (s : State) : Out := s.word (.dbg f) fun s p => s.mailbox p f

/-- dbg.halt (R386): the crew halts at the end of the pulse. -/
def execDbgHalt (f : FmtS) (s : State) : Out :=
  s.word (.dbgHalt f) fun s p => { s.mailbox p f with cur := some { p with halt := true } }

end Sys2Proof.Machine
end

