-- ==== Sys2Proof/Machine/Engine.lean ====
section
/-! DEFINITION. The geyser, the stream engine and the coordinate engine (R182 to R202): accepting a command, its checks, its
effect, its suspension and its failure. A command of the stream or the coordinate engine takes effect in one step; the geyser
takes one step per task, and a multicast one per merge. -/

namespace Sys2Proof.Machine

/-! ## Accesses of engines -/

/-- Why a command stops short: it waits for granules, an earlier command or the exchange of a frame (R225), a page is absent (R200), or
it fails (R201). -/
inductive EStop where
  | wait
  | susp (key : Nat × Bool) (r : Option FaultRec) (ats : Option (Nat × FaultRec)) (wrote : List Touch)
  | fail (s : State) (wrote : List Touch) (c : Cause) (addr : DWord)

/-- A command while it runs. -/
structure EngSt where
  s : State
  wrote : List Touch := []

/-- What an engine does. -/
abbrev EngM := StateT EngSt (Except EStop)

/-- The engine that acts: logical core, engine context, the die (plus one) that holds dirty what it stores, or zero for
writes at the home slice (R184), and the command's record address. -/
structure Agent where
  lc : Nat
  e : Nat
  die : Nat
  cmdAddr : DWord

/-- The command fails (R201). -/
def engFail {α : Type} (c : Cause) (addr : DWord) : EngM α := do
  let x ← get
  throw (.fail x.s x.wrote c addr)

/-- A check of R185 that fails the command with TSHAPE; FADDR is the record's address. -/
def engCheck (a : Agent) (ok : Bool) : EngM Unit := if ok then pure () else engFail .tshape a.cmdAddr

/-- An address inside a record: bits [63:56] are zero (R185). -/
def engAddr (x : Nat) : EngM Unit := if x < 2 ^ 56 then pure () else engFail .aperture (BitVec.ofNat 64 x)

/-- Replace the state. -/
def engSet (s : State) : EngM Unit := modify fun x => { x with s }

/-- The parts of a range that lie in one page each. -/
def pieces : Nat → Nat → Nat → List (Nat × Nat)
  | 0, _, _ => []
  | f + 1, va, n =>
    if n = 0 then []
    else
      let k := min n (4096 - va % 4096)
      (va, k) :: pieces f (va + k) (n - k)

/-- The fault record that an engine's access opens or joins (R217, R220). -/
def engRec (a : Agent) (va lvl : Nat) (wr : Bool) : FaultRec :=
  { va := va / 4096 * 4096, write := wr, acc := if wr then 1 else 0, src := 1, level := BitVec.ofNat 2 lvl,
    lcore := BitVec.ofNat 7 (a.lc % 128), unit := BitVec.ofNat 8 a.e, ea := BitVec.ofNat 64 va }

/-- Translate an access of n bytes inside one page (R200, R201, R206 to R212). -/
def engHit (a : Agent) (va n : Nat) (kind : AccKind) : EngM Hit := do
  let x ← get
  let s := x.s
  let wr := kind != .read
  if 2 ^ 56 < va + n then engFail .aperture (BitVec.ofNat 64 va)
  else
    match s.translate (a.lc / 128) va n kind (65536 + va / 4096) with
    | .ok pl l =>
      if s.spanHeld pl n then throw .wait
      else
        engSet (s.cacheLeaf (a.lc / 128) va l)
        pure { pl, leaf := some l, va }
    | .notPresent lvl =>
      let r := engRec a va lvl wr
      throw (.susp (r.va, r.write) (some r) none x.wrote)
    | .ats d => throw (.susp (atsKey d) none (some (d, engRec a va 0 wr)) x.wrote)
    | .fail c d => engFail c (BitVec.ofNat 64 d)
    | .hold _ => throw .wait

/-- Read n bytes: the bytes, and the offsets of those that lie in poisoned words. -/
def engRead (a : Agent) (va n : Nat) : EngM (List Byte × List Nat) := do
  let parts ← (pieces (n / 4096 + 2) va n).mapM fun (v, k) => do
    let h ← engHit a v k .read
    let s := (← get).s
    pure ((List.range k).map (s.leafByte h), ((List.range k).filter (s.hitPois h)).map fun i => v + i - va)
  pure (parts.flatMap (·.1), parts.flatMap (·.2))

/-- Read n bytes to compute on: a poisoned word fails the command with FADDR at the word (R191, R192, R201). -/
def engVal (a : Agent) (va n : Nat) : EngM (List Byte) := do
  let (bs, po) ← engRead a va n
  match po with
  | i :: _ => engFail .poison (BitVec.ofNat 64 ((va + i) / 4 * 4))
  | [] => pure bs

/-- Poison the word at a place. -/
def State.poisonAt (s : State) : Place → State
  | .dev a => s.poisonWords [a / 4]
  | .host a => { s with hostPois := sset false s.hostPois (a / 4) true }
  | _ => s

/-- Write bytes, with the offsets of poisoned words (R191). -/
def engWrite (a : Agent) (va : Nat) (bs : List Byte) (po : List Nat := []) : EngM Unit :=
  (pieces (bs.length / 4096 + 2) va bs.length).forM fun (v, k) => do
    let h ← engHit a v k .write
    modify fun x =>
      let s := x.s.progWrite a.die h.pl ((bs.drop (v - va)).take k)
      let mine := po.filter fun i => v - va ≤ i && i < v - va + k
      { s := mine.foldl (fun s i => s.poisonAt (h.pl.add (i + va - v))) s, wrote := .place h.pl k :: x.wrote }

/-- Write a granule row of a buffer and set its full bits (R176, R191). -/
def engBuf (a : Agent) (b off : Nat) (bs : List Byte) (po : List Nat := []) : EngM Unit :=
  modify fun x =>
    { s := x.s.modLcore a.lc fun c => c.bufWrite b off bs true (po.map (· / 4)), wrote := .buf b off bs.length :: x.wrote }

/-- Wait until granules are full (R177). -/
def engFull (a : Agent) (gs : List Nat) : EngM Unit := do
  let x ← get
  if gs.all (x.s.lcore a.lc).isFull then pure () else throw .wait

/-- Count an event of the logical core's site (R382). -/
def engCount (a : Agent) (src : Nat) : EngM Unit := modify fun x => { x with s := x.s.countEvt (x.s.siteOf a.lc) src 1 }

/-- The bytes that a failed command wrote are undefined (R201). -/
def State.spoilTouch (s : State) (lc : Nat) (t : Touch) (k : Nat) : State :=
  let noise := fun n => wordsToBytes ((List.range (n / 4 + 1)).map fun i => s.free (2 ^ 40 + 2 ^ 32 * k + i))
  match t with
  | .place p n => s.placeWrite 0 p ((noise n).take n)
  | .buf b off n => s.modLcore lc fun c => c.bufWrite b off ((noise n).take n) true

/-- Spoil what a failed command wrote. -/
def State.spoilAll (s : State) (lc : Nat) (ts : List Touch) : State :=
  (ts.zip (List.range ts.length)).foldl (fun s (t, k) => s.spoilTouch lc t k) s

/-! ## The geyser -/

/-- A gx.run record (R186). -/
structure GxRec where
  noff : Nat
  srca : Bool
  xout : Bool
  fs : Nat
  k : Nat
  n : Nat
  wbase : Nat
  wstride : Nat
  src : Nat
  spitch : Nat
  stage : Nat
  out : Nat
  offtab : Nat
  rlo : Nat
  rhi : Nat

/-- The fields of a gx.run record. -/
def gxOf (bs : List Byte) : GxRec :=
  let w := field bs 0 4
  { noff := bits w 0 9, srca := bit w 9, xout := bit w 10, fs := bits w 11 3, k := bits w 16 8 + 1, n := bits w 24 6 + 1,
    wbase := field bs 4 2, wstride := field bs 6 2, src := field bs 8 8, spitch := field bs 0x10 4, stage := field bs 0x14 2,
    out := field bs 0x18 8, offtab := field bs 0x20 8, rlo := field bs 0x28 4, rhi := field bs 0x2C 4 }

/-- Whether bytes of a record from an offset on are zero (R185). -/
def zeroFrom (bs : List Byte) (o : Nat) : Bool := (bs.drop o).all (· == 0)

/-- Granules of an input row. -/
def GxRec.ig (g : GxRec) (slot : Word) : Nat := ceilDiv (g.k * elemBits (slotElem slot)) 128

/-- The checks of a gx.run record (R185, R186). A one in an unnamed bit of a named byte fails them (DESIGN CHOICE, log entry 90), and so
does a slot of FP32 elements (DESIGN CHOICE, log entry 91). -/
def checkGx (a : Agent) (slot : Word) (bs : List Byte) : EngM Unit := do
  let g := gxOf bs
  let w := field bs 0 4
  let int := isIntElem (slotElem slot)
  engCheck a (bits w 14 2 == 0 && bits w 30 2 == 0 && 1 ≤ g.noff && g.noff ≤ 343 && g.fs != 0 && slot != 0 &&
    slotElem slot != 1 && slotScale slot == 0 && !(g.xout && int) && g.rlo ≤ g.rhi && g.offtab % 16 == 0 &&
    field bs 0x16 2 == 0 && zeroFrom bs 0x30)
  if g.srca then engCheck a (g.src < 65536)
  else
    engCheck a (g.spitch % 16 == 0 && g.stage + 128 * g.ig slot ≤ 65536)
    engAddr g.src
  if g.xout then
    engCheck a (g.out % 16 == 0)
    engAddr g.out
  else engCheck a (g.out < 2 ^ 32)
  engAddr g.offtab

/-- The pairs of one offset that the job keeps (R186, R187). -/
def gxPairs (a : Agent) (g : GxRec) (o : Nat) : EngM (List (Nat × Nat)) := do
  let ent ← engVal a (g.offtab + 16 * o) 12
  let lst := field ent 0 8
  let cnt := field ent 8 4
  if cnt = 0 then pure []
  else
    engAddr lst
    engCheck a (lst % 8 == 0)
    let bs ← engVal a lst (8 * cnt)
    let ps := (List.range cnt).map fun i => (field bs (8 * i) 4, field bs (8 * i + 4) 4)
    pure (ps.filter fun p => g.rlo ≤ p.2 && p.2 < g.rhi)

/-- The tasks of a job from offset o on, in order (R187). -/
def gxTasks (a : Agent) (g : GxRec) : EngM (List (Nat × List (Nat × Nat))) := do
  let per ← (List.range g.noff).mapM fun o => do
    let ps ← gxPairs a g o
    pure ((blocksOf 64 (ps.length + 1) ps).map fun r => (o, r))
  pure per.flatten

/-- Fail with POISON where a granule that a task reads holds a poisoned word; FADDR is its buffer address. -/
def engClean (a : Agent) (gs : List Nat) : EngM Unit := do
  match ((← get).s.lcore a.lc).granPoison gs with
  | some x => engFail .poison x
  | none => pure ()

/-- The product rows of a task go to exact records (R188). -/
def gxExact (a : Agent) (g : GxRec) (l : Nat) (bcols : List (List FVal)) (rows : List ((Nat × Nat) × List FVal)) : EngM Unit :=
  rows.forM fun (p, r) =>
    (bcols.zip (List.range bcols.length)).forM fun (b, c) => do
      let va := g.out + 48 * (p.2 * g.n + c)
      let h ← engHit a va (min 48 (splitAt va)) .atomic
      let h2 ← if splitAt va < 48 then engHit a (va + splitAt va) (48 - splitAt va) .atomic else pure h
      let x := (accumElem false l 0 0 r b).1
      let arg : AtomArg := { lane := 0, place := h.pl, place2 := h2.pl, ea := BitVec.ofNat 64 va, va, x }
      modify fun st =>
        if (st.s.exactPoison arg).isSome then st
        else { s := st.s.writeExact arg (exactAdd (st.s.readExact arg) (f32 x))
               wrote := .place h.pl (min 48 (splitAt va)) ::
                 (if splitAt va < 48 then [.place h2.pl (48 - splitAt va)] else []) ++ st.wrote }

/-- Task j: offset o and its run of pairs (R187 to R189). A CPITCH, or with SRCA an SPITCH, below the granules of a row is no failure: rows
then overlap (DESIGN CHOICE, log entry 92). -/
def gxTask (a : Agent) (slot : Word) (g : GxRec) (j o : Nat) (run : List (Nat × Nat)) : EngM Unit := do
  let b := elemBits (slotElem slot)
  let ig := g.ig slot
  let half := g.stage + j % 2 * 64 * ig
  let w : Tile := { buf := 1, base := g.wbase + o * g.wstride, rows := g.k, cols := g.n, pitch := ceilDiv (g.n * b) 128, fmt := slot }
  let ins : Tile :=
    if g.srca then
      { buf := 2, base := g.src, rows := run.length, cols := g.k, pitch := g.spitch, fmt := slot, gather := some (run.map (·.1)) }
    else { buf := 2, base := half, rows := run.length, cols := g.k, pitch := ig, fmt := slot }
  let cbase := bits g.out 0 16
  let cpitch := bits g.out 16 16
  let lines := run.map fun p => p.2 - g.rlo
  let c : Tile := { buf := 3, base := cbase, rows := run.length, cols := g.n, pitch := cpitch, gather := some lines,
                    isInt := isIntElem (slotElem slot) }
  engCheck a (!w.lineBeyond (g.k - 1) && !ins.lines.any ins.lineBeyond && (g.xout || !lines.any c.lineBeyond))
  if !g.srca then
    (run.zip (List.range run.length)).forM fun (p, i) => do
      let bs ← engVal a (g.src + p.1 * g.spitch) (ceilDiv (g.k * b) 8)
      engBuf a 2 (16 * (half + i * ig)) bs
  engFull a (w.grans ++ ins.grans ++ (if g.xout then [] else c.grans))
  engClean a (w.grans ++ ins.grans ++ (if g.xout then [] else c.grans))
  let x := (← get).s.lcore a.lc
  let l := chunkLen (slotElem slot) (slotElem slot)
  if g.xout then gxExact a g l (x.colsOf w) (run.zip (x.rowsOf ins))
  else
    let (y, _) := x.product cbase cpitch lines c.isInt l 0 (x.rowsOf ins) (x.colsOf w)
    modify fun st => { s := st.s.modLcore a.lc fun _ => y
                       wrote := (dedup lines).map (fun r => .buf 3 (16 * (cbase + r * cpitch)) (4 * g.n)) ++ st.wrote }
  engCount a 9

/-! ## The stream engine -/

/-- The checks of se.gather (R190). -/
def checkGather (a : Agent) (bs : List Byte) : EngM Unit := do
  let cnt := field bs 8 4
  let rowb := field bs 0xC 4
  let dst := field bs 0x1C 2
  let dp := field bs 0x1E 2
  engCheck a (field bs 0 8 % 4 == 0 && 1 ≤ cnt && cnt ≤ 65536 && 16 ≤ rowb && rowb ≤ 4096 && rowb % 16 == 0 &&
    field bs 0x10 8 % 16 == 0 && field bs 0x18 4 % 16 == 0 && rowb / 16 ≤ dp && dst + (cnt - 1) * dp + rowb / 16 ≤ 65536 &&
    zeroFrom bs 0x20)
  engAddr (field bs 0 8)
  engAddr (field bs 0x10 8)

/-- se.gather (R191). -/
def runGather (a : Agent) (bs : List Byte) : EngM Unit :=
  (List.range (field bs 8 4)).forM fun i => do
    let rowb := field bs 0xC 4
    let ix := bytesToNat (← engVal a (field bs 0 8 + 4 * i) 4)
    let (row, po) ← if ix = 0xFFFFFFFF then pure (zeros rowb, []) else engRead a (field bs 0x10 8 + ix * field bs 0x18 4) rowb
    engBuf a 2 (16 * (field bs 0x1C 2 + i * field bs 0x1E 2)) row po
    engCount a 10

/-- The checks of se.isect (R190). -/
def checkIsect (a : Agent) (bs : List Byte) : EngM Unit := do
  let as_ := [field bs 0 8, field bs 0x10 8, field bs 0x18 8, field bs 0x20 8]
  engCheck a (as_.all (fun x => x % 4 == 0) && zeroFrom bs 0x28)
  as_.forM engAddr

/-- The merge of se.isect (R192); `fuel` bounds its rounds. -/
def isectLoop (a : Agent) (sa lena sb lenb mout : Nat) : Nat → Nat → Nat → Nat → EngM Nat
  | 0, _, _, cnt => pure cnt
  | fuel + 1, i, j, cnt =>
    if lena ≤ i || lenb ≤ j then pure cnt
    else do
      let x := bytesToNat (← engVal a (sa + 4 * i) 4)
      let y := bytesToNat (← engVal a (sb + 4 * j) 4)
      if x < y then isectLoop a sa lena sb lenb mout fuel (i + 1) j cnt
      else if y < x then isectLoop a sa lena sb lenb mout fuel i (j + 1) cnt
      else
        if mout ≠ 0 then engWrite a (mout + 4 * cnt) (natToBytes 4 x)
        isectLoop a sa lena sb lenb mout fuel (i + 1) (j + 1) (cnt + 1)

/-- se.isect (R192). -/
def runIsect (a : Agent) (bs : List Byte) : EngM Unit := do
  let lena := field bs 8 4
  let lenb := field bs 0xC 4
  let cnt ← isectLoop a (field bs 0 8) lena (field bs 0x10 8) lenb (field bs 0x20 8) (lena + lenb) 0 0 0
  engWrite a (field bs 0x18 8) (natToBytes 4 cnt)

/-- The checks of se.copy (R175, R190); a one in an unnamed bit of a named byte fails them (DESIGN CHOICE, log entry 90). -/
def checkCopy (a : Agent) (bs : List Byte) : EngM Unit := do
  let w := field bs 8 4
  let buf := bits w 0 2
  let rows := field bs 0xC 2
  let rowg := field bs 0xE 2
  let bp := field bs 0x14 2
  if buf = 0 || buf = 2 then engFail .bufperm a.cmdAddr
  engCheck a (field bs 0 8 % 16 == 0 && bits w 2 14 == 0 && 1 ≤ rows && rows ≤ 4096 && 1 ≤ rowg && rowg ≤ 4096 &&
    field bs 0x10 4 % 16 == 0 && rowg ≤ bp && field bs 0xA 2 + (rows - 1) * bp + rowg ≤ bufSize buf / 16 && zeroFrom bs 0x16)
  engAddr (field bs 0 8)

/-- se.copy (R191). -/
def runCopy (a : Agent) (bs : List Byte) : EngM Unit :=
  (List.range (field bs 0xC 2)).forM fun i => do
    let rowg := field bs 0xE 2
    let va := field bs 0 8 + i * field bs 0x10 4
    let g := field bs 0xA 2 + i * field bs 0x14 2
    if bits (field bs 8 4) 0 2 = 1 then
      let (row, po) ← engRead a va (16 * rowg)
      engBuf a 1 (16 * g) row po
    else
      engFull a ((List.range rowg).map fun k => granKey 3 (g + k))
      let c := (← get).s.lcore a.lc
      engWrite a va (c.bufRead 3 (16 * g) (16 * rowg))
        ((List.range (16 * rowg)).filter fun k => sget false c.pois (bufKey 3 (16 * g + k) / 4))
    engCount a 10

/-- The checks of se.mcast (R190); a one in an unnamed bit of a named byte fails them (DESIGN CHOICE, log entry 90). -/
def checkMcast (a : Agent) (bs : List Byte) : EngM Unit := do
  let w := field bs 0xC 4
  let lines := field bs 8 4
  engCheck a (field bs 0 8 % 128 == 0 && 1 ≤ lines && lines ≤ 8192 && bits w 0 16 % 8 == 0 && 1 ≤ bits w 16 5 &&
    bits w 16 5 ≤ 16 && bits w 21 11 == 0 && bits w 0 16 + 8 * lines ≤ 65536 && zeroFrom bs 0x14)
  engAddr (field bs 0 8)

/-- A line of a closed merge reaches W of a joined core (R193). -/
def State.mcastDeliver (s : State) (bs : List Byte) (po : List Nat) (j : Nat × Nat × Nat × Nat) : State :=
  let (lc, e, num, k) := j
  match ((s.lcore lc).ec e).cmds.find? (·.num == num) with
  | none => s
  | some c =>
    let s := s.modLcore lc fun x => x.bufWrite 1 (16 * (field c.bytes 0xC 2 + 8 * k)) bs true (po.map (· / 4))
    let s := s.countEvt (s.siteOf lc) 10 1
    let t : Touch := .buf 1 (16 * (field c.bytes 0xC 2 + 8 * k)) 128
    s.modEc lc e fun x => { x with cmds := x.cmds.map fun y => if y.num == num then { y with done := y.done + 1, wrote := t :: y.wrote } else y }

/-- A merge closes: its line is read once and delivered to every joined core (R193); an open or sealed sinter page reads zero above
TAIL (R228, R230). -/
def State.mcastClose (s : State) (m : Merge) : State :=
  let s := { s with merges := s.merges.filter (· != m) }
  let bs := (List.range 128).map (s.leafByte m.line)
  let po := (List.range 128).filter (s.hitPois m.line)
  m.joined.foldl (fun s j => s.mcastDeliver bs po j) s

/-- A request opens a merge (R193), which closes at once where its quota is one. -/
def State.mcastOpen (s : State) (m : Merge) : State :=
  let s := { s with merges := s.merges ++ [m] }
  if m.quota ≤ 1 then s.mcastClose m else s

/-- Line k of a multicast is requested (R193): it joins the merge of its key whose window has not ended, or opens one. -/
def State.mcastRequest (s : State) (pasid : BitVec 20) (lc e num k : Nat) (line : Hit) (tag : Word) (join : Nat) : State :=
  let gal := galOfSite (s.siteOf lc)
  let me := (lc, e, num, k)
  let new : Merge := { pasid, line, tag, gal, quota := join, opened := s.cycles, joined := [me] }
  match s.merges.find? (fun m => m.pasid == pasid && m.line.pl == line.pl && m.tag == tag && m.gal == gal) with
  | some m =>
    if m.opened + 512 ≤ s.cycles then (s.mcastClose m).mcastOpen new
    else
      let m' := { m with joined := m.joined ++ [me] }
      let s := { s with merges := s.merges.map fun x => if x == m then m' else x }
      if m'.quota ≤ m'.joined.length then s.mcastClose m' else s
  | none => s.mcastOpen new

/-- Request the lines of a multicast from line k on, n of them; the number of lines requested so far is kept. -/
def mcastLines (a : Agent) (num : Nat) (bs : List Byte) : Nat → Nat → EngM Unit
  | 0, _ => pure ()
  | n + 1, k => do
    let h ← engHit a (field bs 0 8 + 128 * k) 128 .read
    modify fun x =>
      let s := x.s.mcastRequest (x.s.ctx (a.lc / 128)).pasid a.lc a.e num k h (BitVec.ofNat 32 (field bs 0x10 4))
        (bits (field bs 0xC 4) 16 5)
      { x with s := s.modEc a.lc a.e fun y => { y with cmds := y.cmds.map fun c => if c.num == num then { c with sent := k + 1 } else c } }
    mcastLines a num bs n (k + 1)

/-! ## The coordinate engine -/

/-- The coordinates of a key: batch, x, y, z (R194). -/
def keyCoords (k : Nat) : Nat × Int × Int × Int :=
  (bits k 0 8, (BitVec.ofNat 16 (bits k 8 16)).toInt, (BitVec.ofNat 16 (bits k 24 16)).toInt,
    (BitVec.ofNat 16 (bits k 40 16)).toInt)

/-- A key of coordinates. -/
def coordKey (b : Nat) (x y z : Int) : Nat :=
  b + 2 ^ 8 * (x % 65536).toNat + 2 ^ 24 * (y % 65536).toNat + 2 ^ 40 * (z % 65536).toNat

/-- A number whose order is the coordinate order of R194. -/
def keyRank (k : Nat) : Nat :=
  let (b, x, y, z) := keyCoords k
  ((b * 65536 + (x + 32768).toNat) * 65536 + (y + 32768).toNat) * 65536 + (z + 32768).toNat

/-- Read n keys: a one in bits [63:56] fails with TSHAPE (R194). -/
def engKeys (a : Agent) (va n : Nat) : EngM (List Nat) := do
  let bs ← engVal a va (8 * n)
  (List.range n).mapM fun i => do
    let k := field bs (8 * i) 8
    if k < 2 ^ 56 then pure k else engFail .tshape (BitVec.ofNat 64 (va + 8 * i))

/-- The bytes of a table descriptor: N, CAP, the spill address and words private to the device (R195; log entry 20). -/
def descriptorOf (n cap spill : Nat) : List Byte :=
  natToBytes 4 n ++ natToBytes 4 cap ++ natToBytes 8 spill ++ (List.range 48).map fun i => Config.descriptorPrivate spill n i

/-- Write a table: its spill area, whose layout is the device's own, and its descriptor (R195). -/
def engTable (a : Agent) (desc cap spill : Nat) (keys : List (Nat × Nat)) : EngM Unit := do
  let s := (← get).s
  engWrite a spill (wordsToBytes ((List.range (8 * cap)).map fun i => s.free (2 ^ 36 + i)))
  let bs := descriptorOf keys.length cap spill
  engWrite a desc bs
  let h ← engHit a desc 64 .write
  modify fun x =>
    let t : Table := { addr := h.pl, bytes := bs, keys }
    { x with s := { x.s with tables := t :: x.s.tables.filter fun y => y.addr != t.addr } }

/-- The table that a descriptor names; one that no build or down wrote, or that was changed since, fails (R195). -/
def engFind (a : Agent) (desc : Nat) : EngM Table := do
  let h ← engHit a desc 64 .read
  let bs ← engVal a desc 64
  match (← get).s.tables.find? (fun t => t.addr == h.pl && t.bytes == bs) with
  | some t => pure t
  | none => engFail .tshape (BitVec.ofNat 64 desc)

/-- The checks of ce.build (R196). -/
def checkBuild (a : Agent) (bs : List Byte) : EngM Unit := do
  let n := field bs 8 4
  let cap := field bs 0xC 4
  engCheck a (field bs 0 8 % 8 == 0 && 1 ≤ cap && cap ≤ 16777216 && 1 ≤ n && n ≤ cap && field bs 0x10 8 % 64 == 0 &&
    field bs 0x18 8 % 4096 == 0 && zeroFrom bs 0x20)
  [field bs 0 8, field bs 0x10 8, field bs 0x18 8].forM engAddr

/-- The first position of each key (R197). -/
def firstKeys : Nat → List Nat → List (Nat × Nat) → List (Nat × Nat)
  | _, [], acc => acc.reverse
  | i, k :: ks, acc => firstKeys (i + 1) ks (if acc.any (·.1 == k) then acc else (k, i) :: acc)

/-- ce.build (R197). -/
def runBuild (a : Agent) (bs : List Byte) : EngM Unit := do
  let ks ← engKeys a (field bs 0 8) (field bs 8 4)
  engTable a (field bs 0x10 8) (field bs 0xC 4) (field bs 0x18 8) (firstKeys 0 ks [])

/-- The value of a key in a table. -/
def Table.value (t : Table) (k : Nat) : Option Nat := (t.keys.find? (·.1 == k)).map (·.2)

/-- The checks of ce.lookup (R196). -/
def checkLookup (a : Agent) (bs : List Byte) : EngM Unit := do
  engCheck a (1 ≤ field bs 8 4 && field bs 0xC 4 == 0 && field bs 0x18 8 % 4 == 0 && zeroFrom bs 0x20)
  [field bs 0 8, field bs 0x10 8, field bs 0x18 8].forM engAddr

/-- ce.lookup (R197). -/
def runLookup (a : Agent) (bs : List Byte) : EngM Unit := do
  let t ← engFind a (field bs 0x10 8)
  let ks ← engKeys a (field bs 0 8) (field bs 8 4)
  engWrite a (field bs 0x18 8) (ks.flatMap fun k => natToBytes 4 ((t.value k).getD 0xFFFFFFFF))

/-- The checks of ce.down (R196); a one in an unnamed bit of the byte that holds S fails them (DESIGN CHOICE, log entry 90). -/
def checkDown (a : Agent) (bs : List Byte) : EngM Unit := do
  let s := field bs 8 8
  engCheck a (1 ≤ s && s ≤ 16 && zeroFrom bs 0x38)
  [field bs 0 8, field bs 0x10 8, field bs 0x18 8, field bs 0x20 8, field bs 0x28 8, field bs 0x30 8].forM engAddr

/-- ce.down (R197). -/
def runDown (a : Agent) (bs : List Byte) : EngM Unit := do
  let t ← engFind a (field bs 0 8)
  let st : Int := field bs 8 8
  let low := fun (k : Nat) =>
    let (b, x, y, z) := keyCoords k
    coordKey b (Int.fdiv x st) (Int.fdiv y st) (Int.fdiv z st)
  let out := sortBy keyRank (dedup (t.keys.map fun k => low k.1))
  let index := fun (k : Nat) => (out.findIdx? (· == k)).getD 0
  engWrite a (field bs 0x10 8) (out.flatMap (natToBytes 8))
  t.keys.forM fun (k, v) => engWrite a (field bs 0x28 8 + 4 * v) (natToBytes 4 (index (low k)))
  engTable a (field bs 0x18 8) t.keys.length (field bs 0x20 8) (out.zip (List.range out.length))
  engWrite a (field bs 0x30 8) (natToBytes 4 out.length)

/-- The checks of ce.probe (R196); a one in an unnamed bit of a named byte fails them (DESIGN CHOICE, log entry 90). -/
def checkProbe (a : Agent) (bs : List Byte) : EngM Unit := do
  let w := field bs 0x14 4
  let k := bits w 0 4
  engCheck a ((k == 1 || k == 3 || k == 5 || k == 7) && 1 ≤ bits w 4 5 && bits w 4 5 ≤ 16 && 1 ≤ bits w 9 5 &&
    bits w 9 5 ≤ 16 && bits w 14 18 == 0 && field bs 0x18 8 % 4096 == 0 && field bs 0x28 8 % 16 == 0 && zeroFrom bs 0x30)
  [field bs 0 8, field bs 8 8, field bs 0x18 8, field bs 0x28 8].forM engAddr

/-- The pages of a sinter area from an address on, as address, frame and size: PROT for a page that is not of the sinter
class, WSEAL for a sealed one, TSHAPE for a size that the area does not match (R196, R198). -/
def sinterArea (a : Agent) (base n : Nat) : Nat → Nat → EngM (List (Nat × Nat × Nat))
  | 0, _ => pure []
  | fuel + 1, va =>
    if base + n ≤ va then pure []
    else do
      let h ← engHit a va 4 .append
      match h.leaf with
      | none => engFail .prot (BitVec.ofNat 64 va)
      | some l =>
        engCheck a (base % l.size == 0 && n % l.size == 0)
        match (← get).s.sinterOf l with
        | none => engFail .prot (BitVec.ofNat 64 va)
        | some x =>
          if x.sealed then engFail .wseal (BitVec.ofNat 64 va)
          else
            let rest ← sinterArea a base n fuel (va + l.size)
            pure ((va, l.base, l.size) :: rest)

/-- TAIL of a frame. -/
def State.tailOf (s : State) (frame : Nat) : Nat := ((sget none s.sinter frame).map (·.tail)).getD 0

/-- The pages from the first one on that has room for a pair (R198, R227). -/
def State.pagesLeft (s : State) (pages : List (Nat × Nat × Nat)) : List (Nat × Nat × Nat) :=
  pages.dropWhile fun (_, frame, size) => size < ceilDiv (s.tailOf frame) 8 * 8 + 8

/-- Append a pair at the tail of the current page, the first of those left; the probe moves on to the next page when that one is full
(R198, R227): the pages that are left. The command fails where a further pair finds no room, not where the last one fills the area
(DESIGN CHOICE, log entry 93). -/
def appendPair (a : Agent) (pair : List Byte) : List (Nat × Nat × Nat) → EngM (List (Nat × Nat × Nat))
  | [] => engFail .tshape a.cmdAddr
  | (va, frame, size) :: rest => do
    let s := (← get).s
    let t0 := s.tailOf frame
    let (placed, t) := placeUnit t0 [(0, pair)]
    let s := writeUnit s frame t0 placed
    let s := { s with sinter := sset none s.sinter frame (some { sealed := false, tail := t, size }) }
    modify fun x => { s, wrote := .place (.dev (frame + t0)) (t - t0) :: x.wrote }
    pure (s.pagesLeft ((va, frame, size) :: rest))

/-- The rows of one offset of a probe: the pages left and the number of pairs (R198). -/
def probeRows (a : Agent) (t : Table) (st : Int) (d : Int × Int × Int) :
    List (Nat × Nat) → List (Nat × Nat × Nat) → Nat → EngM (List (Nat × Nat × Nat) × Nat)
  | [], pages, cnt => pure (pages, cnt)
  | (key, j) :: rest, pages, cnt =>
    let (b, x, y, z) := keyCoords key
    let q := [x * st + d.1, y * st + d.2.1, z * st + d.2.2]
    let hit := if q.all (fun v => -32768 ≤ v && v ≤ 32767) then
        t.value (coordKey b (q.getD 0 0) (q.getD 1 0) (q.getD 2 0)) else none
    match hit with
    | none => probeRows a t st d rest pages cnt
    | some i => do
      let pages ← appendPair a (natToBytes 4 i ++ natToBytes 4 j) pages
      probeRows a t st d rest pages (cnt + 1)

/-- The offsets of a probe (R198). -/
def probeOffsets (a : Agent) (t : Table) (k st dil dir stop : Nat) (keys : List (Nat × Nat)) :
    List Nat → List (Nat × Nat × Nat) → EngM Unit
  | [], _ => pure ()
  | o :: os, pages => do
    let h := (k - 1) / 2
    let c := fun (x : Nat) => ((x : Int) - h) * dil
    let s := (← get).s
    let start := match pages with
      | (va, f, _) :: _ => va + s.tailOf f
      | [] => stop
    let (pages, cnt) ← probeRows a t st (c (o / (k * k)), c (o / k % k), c (o % k)) keys pages 0
    engWrite a (dir + 16 * o) (natToBytes 8 start ++ natToBytes 4 cnt ++ natToBytes 4 0)
    probeOffsets a t k st dil dir stop keys os pages

/-- ce.probe (R198). -/
def runProbe (a : Agent) (bs : List Byte) : EngM Unit := do
  let w := field bs 0x14 4
  let k := bits w 0 4
  let base := field bs 0x18 8
  let n := field bs 0x20 8
  let t ← engFind a (field bs 0 8)
  let keys ← engKeys a (field bs 8 8) (field bs 0x10 4)
  let pages ← sinterArea a base n (n / 4096 + 1) base
  let s := (← get).s
  probeOffsets a t k (bits w 4 5) (bits w 9 5) (field bs 0x28 8) (base + n) (keys.zip (List.range keys.length))
    (List.range (k * k * k)) (s.pagesLeft pages)
  pages.forM fun (_, f, _) => modify fun x =>
    { x with s := { x.s with sinter := sset none x.s.sinter f ((sget none x.s.sinter f).map fun y => { y with sealed := true }) } }

/-- The parts of n bytes at a virtual address of a context, as the places where they lie now; what is not mapped has none. -/
def State.partsOf (s : State) (ctx va n : Nat) : List (Place × Nat) :=
  (pieces (n / 4096 + 2) va n).filterMap fun (v, k) => match s.walk ctx v with
    | .leaf l => (s.placeOf ctx l v).map fun p => (p, k)
    | _ => none

/-- Keys of the table whose descriptor lies at an address; the most that a table holds where none is known there (R195). -/
def State.tableSize (s : State) (ctx va : Nat) : Nat :=
  match s.partsOf ctx va 1 with
  | (p, _) :: _ => ((s.tables.find? fun t => t.addr == p).map fun t => t.keys.length).getD 16777216
  | [] => 16777216

/-- The objects that a coordinate command reads, and those that it writes, as addresses with lengths: tables, key arrays, maps
(R195 to R199). -/
def State.objects (s : State) (ctx : Nat) (c : Cmd) : List (Nat × Nat) × List (Nat × Nat) :=
  let f := fun o => field c.bytes o 8
  let n := fun o => field c.bytes o 4
  match c.op with
  | .build => ([(f 0, 8 * n 8)], [(f 0x10, 64), (f 0x18, 32 * n 0xC)])
  | .lookup => ([(f 0, 8 * n 8), (f 0x10, 64)], [(f 0x18, 4 * n 8)])
  | .down =>
    let m := s.tableSize ctx (f 0)
    ([(f 0, 64)], [(f 0x10, 8 * m), (f 0x18, 64), (f 0x20, 32 * m), (f 0x28, 4 * m), (f 0x30, 4)])
  | .probe => ([(f 0, 64), (f 8, 8 * n 0x10)], [(f 0x18, f 0x20), (f 0x28, 16 * bits (n 0x14) 0 4 ^ 3)])
  | _ => ([], [])

/-- Whether two stretches of memory meet. -/
def meet (x y : Place × Nat) : Bool :=
  (match x.1, y.1 with
    | .dev _, .dev _ | .host _, .host _ | .port _, .port _ => true
    | .loc b _, .loc c _ => b == c
    | _, _ => false) && overlaps x.1.off x.2 y.1.off y.2

/-- Whether a coordinate command waits: an earlier-arrived command of a core of its gallery has not been read yet, or writes an
object that it reads (R199). -/
def State.coordWaits (s : State) (lc : Nat) (c : Cmd) : Bool :=
  let reads := ((s.objects (lc / 128) c).1).flatMap fun (a, n) => s.partsOf (lc / 128) a n
  s.lcs.any fun (k, x) => galOfSite (s.siteOf k) == galOfSite (s.siteOf lc) &&
    x.ecs.any fun (_, e) => e.kind == .coord && e.cmds.any fun d =>
      d.arrival < c.arrival && (!d.accepted || ((s.objects (k / 128) d).2).any fun (a, n) =>
        (s.partsOf (k / 128) a n).any fun y => reads.any (meet y))

/-! ## Commands -/

/-- The engine of a command: the coordinate engine writes at the home slice (R184). -/
def State.agent (s : State) (lc e : Nat) (c : Cmd) : Agent :=
  { lc, e, die := match c.op with
      | .build | .lookup | .down | .probe => 0
      | _ => vdOfSite (s.siteOf lc) + 1
    cmdAddr := c.raddr }

/-- The format slot of a geyser job. -/
def State.gxSlot (s : State) (c : Cmd) (bs : List Byte) : Word :=
  match s.grid c.grid with
  | some g => g.lr.slot (gxOf bs).fs
  | none => 0

/-- Read and check a command record (R183, R185). -/
def acceptCmd (a : Agent) (c : Cmd) : EngM (List Byte) := do
  engAddr c.raddr.toNat
  let bs ← engVal a c.raddr.toNat 64
  match c.op with
  | .gx => checkGx a ((← get).s.gxSlot c bs) bs
  | .gather => checkGather a bs
  | .isect => checkIsect a bs
  | .copy => checkCopy a bs
  | .mcast => checkMcast a bs
  | .build => checkBuild a bs
  | .lookup => checkLookup a bs
  | .down => checkDown a bs
  | .probe => checkProbe a bs
  pure bs

/-- Whether the engines of a logical core run: it is bound, it is not being evicted, its context runs (R101, R202). -/
def State.enginesRun (s : State) (lc : Nat) : Bool :=
  (s.lcore lc).site.isSome && !(s.lcore lc).saved && (s.lcore lc).leaving.isNone && (s.ctx (lc / 128)).st == .on

/-- Update a command by its number. -/
def State.modCmd (s : State) (lc e num : Nat) (f : Cmd → Cmd) : State :=
  s.modEc lc e fun x => { x with cmds := x.cmds.map fun c => if c.num == num then f c else c }

/-- A command is suspended until its page is resolved (R200); what it had written is noted, should it fail there (R201). -/
def State.suspend (s : State) (lc e : Nat) (c : Cmd) (key : Nat × Bool) (r : Option FaultRec) (ats : Option (Nat × FaultRec))
    (wrote : List Touch) : State :=
  (s.openFor (lc / 128) r ats).modCmd lc e c.num fun (c : Cmd) => { c with susp := some key, wrote := (wrote ++ c.wrote).eraseDups }

/-- All that a failed command has written becomes undefined (R201): before this step, and in it. -/
def State.spoilCmd (s : State) (lc e num : Nat) (wrote : List Touch) : State :=
  let before := ((((s.lcore lc).ec e).cmds.find? (·.num == num)).map (·.wrote)).getD []
  s.spoilAll lc ((wrote ++ before).eraseDups)

/-- A command fails (R201). -/
def State.cmdFails (s : State) (lc e num : Nat) (wrote : List Touch) (c : Cause) (addr : DWord) : State :=
  (s.spoilCmd lc e num wrote).ecFail lc e (BitVec.ofNat 8 c.code) addr

/-- The command that an engine context runs: the head of its queue, once it is accepted, unless it is suspended (R184). -/
def State.headCmd (s : State) (lc e : Nat) : Option Cmd :=
  let x := (s.lcore lc).ec e
  match x.cmds with
  | c :: _ => if s.enginesRun lc && !x.err && c.accepted && c.susp.isNone then some c else none
  | [] => none

/-- The lines that a multicast has not requested yet are requested, once it is the head of its queue (R193). -/
def State.mcastStart (s : State) (lc e : Nat) : State :=
  match s.headCmd lc e with
  | some c =>
    if c.op ≠ .mcast then s
    else
      match (mcastLines (s.agent lc e c) c.num c.bytes (field c.bytes 8 4 - c.sent) c.sent).run { s } with
      | .ok (_, x) => x.s
      | .error (.susp key r ats w) => s.suspend lc e c key r ats w
      | .error .wait => s
      | .error (.fail s' wrote cause addr) => s'.cmdFails lc e c.num wrote cause addr
  | none => s

/-- ENGINE_ACCEPT (R183, R185): the oldest command of engine context m of logical core n whose record has not been read. -/
def execEngineAccept (s : State) : Out :=
  let lc := s.subj.n
  let e := s.subj.m
  let x := (s.lcore lc).ec e
  .next (match x.cmds.find? (fun c => !c.accepted && c.susp.isNone) with
    | none => s
    | some c =>
      if !s.clocked || !s.enginesRun lc || x.err then s
      else
        match StateT.run (acceptCmd (s.agent lc e c) c) ({ s := s } : EngSt) with
        | .ok (bs, y) =>
          let s := y.s.modCmd lc e c.num fun (c : Cmd) => { c with accepted := true, bytes := bs }
          let s := s.modCrew c.crew fun (k : Crew) => if k.serial = c.serial then { k with unaccepted := k.unaccepted - 1 } else k
          s.mcastStart lc e
        | .error (.susp key r ats w) => s.suspend lc e c key r ats w
        | .error .wait => s
        | .error (.fail s' wrote cause addr) => s'.cmdFails lc e c.num wrote cause addr)

/-- How a run of a command ends. -/
inductive CmdRes where
  | done (s : State)
  | stay (s : State)
  | fails (s : State) (wrote : List Touch) (c : Cause) (addr : DWord)

/-- The outcome of what an engine does for a command. -/
def State.outcome (s : State) (lc e : Nat) (c : Cmd) : Except EStop (Unit × EngSt) → CmdRes
  | .ok (_, x) => .done x.s
  | .error .wait => .stay s
  | .error (.susp key r ats w) => .stay (s.suspend lc e c key r ats w)
  | .error (.fail s' wrote cause addr) => .fails s' wrote cause addr

/-- What a command of the stream or the coordinate engine does, but for a multicast (R189 to R199). -/
def cmdBody (a : Agent) (c : Cmd) : EngM Unit :=
  match c.op with
  | .gather => runGather a c.bytes
  | .isect => runIsect a c.bytes
  | .copy => runCopy a c.bytes
  | .build => runBuild a c.bytes
  | .lookup => runLookup a c.bytes
  | .down => runDown a c.bytes
  | .probe => runProbe a c.bytes
  | .gx | .mcast => pure ()

/-- Run the whole of a command of the stream or the coordinate engine; a geyser job or a multicast is done once all its
tasks or lines are (R184). -/
def State.runCmd (s : State) (lc e : Nat) (c : Cmd) : CmdRes :=
  let a := s.agent lc e c
  match c.op with
  | .gx =>
    (match (gxTasks a (gxOf c.bytes)).run { s } with
      | .ok (ts, x) => if ts.length ≤ c.done then .done x.s else .stay s
      | .error r => s.outcome lc e c (.error r))
  | .mcast => if field c.bytes 8 4 ≤ c.done then .done s else .stay (s.mcastStart lc e)
  | .build | .lookup | .down | .probe =>
    if s.coordWaits lc c then .stay s else s.outcome lc e c ((cmdBody a c).run { s })
  | _ => s.outcome lc e c ((cmdBody a c).run { s })

/-- The next task of a geyser job (R187, R188); whether there is one. -/
def gxStep (a : Agent) (slot : Word) (c : Cmd) : EngM Bool := do
  let g := gxOf c.bytes
  let ts ← gxTasks a g
  match ts[c.done]? with
  | some (o, run) => do
    gxTask a slot g c.done o run
    pure true
  | none => pure false

/-- What the command that an engine context runs was about to write when its context stopped (R101). -/
def State.cmdTouches (s : State) (lc e : Nat) : List Touch :=
  match s.headCmd lc e with
  | some c =>
    let a := s.agent lc e c
    let m : EngM Unit := if c.op = .gx then (do let _ ← gxStep a (s.gxSlot c c.bytes) c) else cmdBody a c
    (match m.run { s } with
      | .ok (_, x) => x.wrote
      | .error (.fail _ w _ _) => w
      | .error _ => [])
  | none => []

/-- The next task of a geyser job (R187, R188), on partition j mod 4: it waits for what was sent to the partition's matrix unit before it
(R400; log entry 83) and for the retests that the unit owes (R142); it stays once no task is left. -/
def State.gxNext (s : State) (lc e : Nat) (c : Cmd) : CmdRes :=
  if s.unitOwes lc (c.done % 4) || !(sget [] (s.lcore lc).mtx (c.done % 4)).isEmpty then .stay s
  else match (gxStep (s.agent lc e c) (s.gxSlot c c.bytes) c).run { s } with
  | .ok (true, x) =>
    .done ((x.s.modCmd lc e c.num fun c => { c with done := c.done + 1, wrote := (x.wrote ++ c.wrote).eraseDups }).progress (lc / 128))
  | .ok (false, _) => .stay s
  | .error r => s.outcome lc e c (.error r)

/-- GEYSER_TASK_COMPLETE (R188): the next task of the job that engine context m of logical core n runs. -/
def execGeyserTaskComplete (s : State) : Out :=
  let lc := s.subj.n
  let e := s.subj.m
  .next (match s.headCmd lc e with
    | some c =>
      if !s.clocked || c.op ≠ .gx then s
      else match s.gxNext lc e c with
        | .done s' => s'
        | .stay s' => s'
        | .fails _ _ _ _ => s
    | none => s)

/-- A command has completed (R139, R184): COUNT is its number; its grid and its logical core may end. -/
def State.cmdDone (s : State) (lc e : Nat) (c : Cmd) : State :=
  let s := s.modEc lc e fun x => { x with count := BitVec.ofNat 64 c.num, cmds := x.cmds.tail }
  let s := s.modGrid c.grid fun g => { g with unretired := g.unretired - 1 }
  ((s.progress (lc / 128)).mcastStart lc e).unbind lc

/-- ENGINE_COMMAND_COMPLETE (R184): the command that engine context m of logical core n runs. -/
def execEngineCommandComplete (s : State) : Out :=
  let lc := s.subj.n
  let e := s.subj.m
  .next (if !s.clocked then s else match s.headCmd lc e with
    | some c =>
      (match s.runCmd lc e c with
        | .done s' => s'.cmdDone lc e c
        | .stay s' => s'
        | .fails _ _ _ _ => s)
    | none => s)

/-- ENGINE_COMMAND_FAIL (R201): the command that engine context m of logical core n runs fails. -/
def execEngineCommandFail (s : State) : Out :=
  let lc := s.subj.n
  let e := s.subj.m
  .next (if !s.clocked then s else match s.headCmd lc e with
    | some c =>
      (match (if c.op = .gx then s.gxNext lc e c else s.runCmd lc e c) with
        | .fails s' wrote cause addr => s'.cmdFails lc e c.num wrote cause addr
        | _ => s)
    | none => s)

/-- MCAST_WINDOW_END (R193): the window of merge n ends, 512 core cycles after it opened. -/
def execMcastWindowEnd (s : State) : Out :=
  .next (match s.merges[s.subj.n]? with
    | some m =>
      if s.clocked && decide (m.opened + 512 ≤ s.cycles) && !s.swapping m.line.pl then s.mcastClose m else s
    | none => s)

end Sys2Proof.Machine
end

