-- ==== Sys2Proof/Machine/Image.lean ====
section
/-! DEFINITION. The context image (R136 to R138, R202, R369): what the device writes at SAVEBASE when it saves, and what it reads back
when it restores (log entry 51). -/

namespace Sys2Proof.Machine

/-- Bytes of a number at an offset. -/
def cellsAt (off n x : Nat) : List (Nat × Byte) := ((natToBytes n x).zip (List.range n)).map fun (b, i) => (off + i, b)

/-- Write a region of n bytes: the listed bytes that lie in it, zero elsewhere. -/
def State.imgWrite (s : State) (base n : Nat) (cells : List (Nat × Byte)) : State :=
  let out := fun (w : Nat) => w < base / 4 || (base + n + 3) / 4 ≤ w
  { s with
    mem := (cells.filter fun c => decide (c.1 < n)).foldl (fun m c => Memory.write m (base + c.1) c.2) (s.mem.filter fun e => decide (e.1 < base || base + n ≤ e.1))
    undef := cutUndef s.undef base n
    poison := if s.link.deadWay.isNone then s.poison.filter (fun e => out e.1) else s.poisTable (wordsOf base n) false
    dirty := s.dirty.filter fun e => out e.1
    hidden := s.hidden.filter fun e => out e.1
    writes := s.writes + 1 }

/-- Bits of a set as a number. -/
def bitsFrom (ks : List Nat) : Nat := ks.foldl (fun m k => m ||| 2 ^ k) 0

/-- The logical cores of a context that are saved. -/
def State.savedCores (s : State) (n : Nat) : List Nat :=
  s.lcs.filterMap fun (k, c) => if k / 128 == n && c.saved then some (k % 128) else none

/-- The context header (R137). -/
def State.writeHeader (s : State) (n : Nat) : State :=
  let c := s.ctx n
  let ks := s.savedCores n
  s.imgWrite c.savebase.toNat 0x100
    (cellsAt 0 4 1 ++ cellsAt 4 4 ks.length ++ cellsAt 8 16 (bitsFrom ks) ++ cellsAt 0x18 8 c.evictions.toNat ++
      cellsAt 0x20 4 c.extcnt.toNat ++ cellsAt 0x24 4 c.extloc.toNat ++ cellsAt 0x28 8 c.extaddr.toNat)

/-- Where the slot of a logical core lies (R136). -/
def State.slotBase (s : State) (lc : Nat) : Nat := (s.ctx (lc / 128)).savebase.toNat + 0x1000000 * (lc % 128 + 1)

/-- Whether a block has a crew on a logical core: until its last one there ends, the core is the block's (R147). -/
def State.liveOn (s : State) (b lc : Nat) : Bool := s.crews.any fun (k, c) => c.alive && c.block == b && lcOf k == lc

/-- The blocks resident on a logical core, in the order of BLKTAB (R138). -/
def State.blocksOn (s : State) (lc : Nat) : List (Nat × Block) :=
  s.blocks.filterMap fun (b, x) => match x with
    | some y => if y.cores.any (·.1 == lc) && s.liveOn b lc then some (b, y) else none
    | none => none

/-- The logical cores on which a block has crews (R147). -/
def State.blockCores (s : State) (b : Nat) : List Nat :=
  (((s.block b).map fun x => x.cores.map (·.1)).getD []).filter (s.liveOn b)

/-- Logical cores of the gangs that have a block on the listed ones (R131). -/
def State.groupStep (s : State) (lcs : List Nat) : List Nat :=
  let gangs := lcs.flatMap fun lc => (s.blocksOn lc).map fun b => b.2.gangKey
  dedup (lcs ++ (gangs.flatMap fun g => (s.gangBlocks g).flatMap s.blockCores))

/-- The closure of R131 after n rounds. -/
def State.groupN (s : State) : Nat → List Nat → List Nat
  | 0, lcs => lcs
  | n + 1, lcs => s.groupN n (s.groupStep lcs)

/-- The group of a bound logical core (R131). A group lies within one gallery. -/
def State.groupOf (s : State) (lc : Nat) : List Nat := sortBy id (s.groupN 16 [lc])

/-- The group number of a logical core, unique among the context's groups (R138): that of a saved group, else the lowest of its members'. -/
def State.groupNum (s : State) (lc : Nat) : Nat :=
  if (s.lcore lc).saved then (s.lcore lc).group
  else ((s.groupOf lc).map fun k => (s.lcore k).group).foldl min (s.lcore lc).group

/-- The blocks of a logical core, with the offset at which the segment of each lies in its local memory: in the order of BLKTAB, one
after another (R138; log entry 51). -/
def State.segments (s : State) (lc : Nat) : List (Nat × Block × Nat) :=
  ((s.blocksOn lc).foldl (fun (acc : List (Nat × Block × Nat) × Nat) b =>
    (acc.1 ++ [(b.1, b.2, acc.2)], acc.2 + b.2.lb)) ([], 0)).1

/-- The crews of a logical core. -/
def State.crewsOf (s : State) (lc : Nat) : List Nat :=
  s.crews.filterMap fun (k, c) => if c.alive && lcOf k == lc then some k else none

/-- The core position of a logical core in a block. -/
def Block.position (b : Block) (lc : Nat) : Nat := (b.cores.findIdx? (·.1 == lc)).getD 0

/-- The BLKTAB entry of a block (R138). The grid number of a grid that is not deterministic is the number of its acceptance in the context
(DESIGN CHOICE, log entry 87). -/
def State.blkEntry (s : State) (lc : Nat) (b : Block) : List (Nat × Byte) :=
  let p := b.position lc
  let crews := ((s.grid b.grid).map (·.lr.crews)).getD 0
  cellsAt 0 4 (((s.grid b.grid).map (·.order)).getD 0) ++ cellsAt 4 4 crews ++ cellsAt 8 8 b.id ++ cellsAt 16 4 b.gang ++
    cellsAt 20 4 (b.rank + 256 * b.size + 65536 * p) ++ cellsAt 24 4 ((b.cores.getD p (0, 0)).2)

/-- The barrier record of a block (R369). -/
def Block.barrier (b : Block) : Nat :=
  b.exp + 2 ^ 17 * b.arr + 2 ^ 34 * b.ph.toNat + (if b.rank = 0 then 2 ^ 42 * b.gph.toNat + 2 ^ 50 * b.garr else 0)

/-- Cells moved to an offset. -/
def shiftCells (off : Nat) (cs : List (Nat × Byte)) : List (Nat × Byte) := cs.map fun c => (off + c.1, c.2)

/-- The words of engine context e and its queued commands as they are saved (R138, R202). -/
def Ec.cells (x : Ec) (e : Nat) : List (Nat × Byte) :=
  cellsAt (64 * e) 8 x.count.toNat ++ cellsAt (64 * e + 8) 8 x.issued.toNat ++
    cellsAt (64 * e + 16) 4 (x.kind.code + (if x.err then 16 else 0))

/-- A resume record (R202): the command record, the engine context, the number; the progress is the engine's own. -/
def State.resumeCells (s : State) (off e i : Nat) (c : Cmd) : List (Nat × Byte) :=
  ((c.bytes.zip (List.range 64)).map fun (b, j) => (off + j, b)) ++ cellsAt (off + 64) 1 e ++ cellsAt (off + 72) 8 c.num ++
    ((List.range 12).flatMap fun j => cellsAt (off + 80 + 4 * j) 4 (s.free (2 ^ 24 + 16 * i + j)).toNat)

/-- The crews of a logical core whose state is in its slot (R138). -/
def State.awayCrews (s : State) (lc : Nat) : List Nat :=
  (s.crewsOf lc).filter fun k => match (s.crew k).res with
    | .swapped | .saved => true
    | _ => false

/-- The queued commands of a logical core, each with its engine context, in the order of their resume records (R138, R202). -/
def LCore.cmdsOf (c : LCore) : List (Nat × Cmd) := c.ecs.flatMap fun (e, x) => x.cmds.map fun m => (e, m)

/-- The place of a buffer byte in a slot, by its key (R138). -/
def bufOff (a : Nat) : Nat := 0xD80000 + 0x100000 * (a / 1048576 - 1) + a % 1048576

/-- The regions of a slot but for those of the crews (R138). -/
def State.slotCells (s : State) (lc state : Nat) : List (Nat × Byte) :=
  let c := s.lcore lc
  let blocks := s.blocksOn lc
  let ix := blocks.zip (List.range blocks.length)
  let crews := s.crewsOf lc
  let cmds := c.cmdsOf
  cellsAt 0 4 1 ++ cellsAt 4 4 state ++ cellsAt 8 4 (s.groupNum lc) ++ cellsAt 0xC 4 (c.carve.1 + 16 * c.carve.2.1 + 256 * c.carve.2.2) ++
    cellsAt 0x10 32 (bitsFrom (crews.map slotOf)) ++ cellsAt 0x30 32 (bitsFrom ((s.awayCrews lc).map slotOf)) ++
    cellsAt 0x50 4 (s.siteOf lc) ++
    (ix.flatMap fun ((_, b), i) => if b.position lc = 0 then cellsAt (0x800 + 8 * i) 8 b.barrier else []) ++
    (ix.flatMap fun ((_, b), i) => shiftCells (0x1000 + 32 * i) (s.blkEntry lc b)) ++
    shiftCells 0x8000 (c.ecs.flatMap fun (e, x) => x.cells e) ++
    ((cmds.zip (List.range cmds.length)).flatMap fun ((e, m), i) => s.resumeCells (0x9000 + 128 * i) e i m) ++
    ((s.segments lc).flatMap fun (_, b, at_) => b.mem.filterMap fun (o, x) =>
      let p := b.position lc
      if p * b.lb ≤ o && o < (p + 1) * b.lb then some (0xA40000 + at_ + (o - p * b.lb), x) else none) ++
    c.buf.map fun (a, x) => (bufOff a, x)

/-- The bytes of FEBITS that hold a full bit (R138). -/
def LCore.febits (c : LCore) : SMap Byte :=
  c.full.foldl (fun m (g, _) =>
    let o := 0x3000 + 0x2000 * (g / 65536 - 1) + g % 65536 / 8
    sset 0 m o (sget 0 m o ||| (1#8 <<< (g % 8)))) []

/-- Write the slot of a logical core, its crews' regions apart (R136, R138). -/
def State.writeSlot (s : State) (lc state : Nat) : State :=
  let base := s.slotBase lc
  let cells := s.slotCells lc state ++ (s.lcore lc).febits
  let low := cells.filter fun c => c.1 < 0x40000
  let high := (cells.filter fun c => 0xA40000 ≤ c.1).map fun c => (c.1 - 0xA40000, c.2)
  let locPois := (s.segments lc).flatMap fun (_, b, at_) => b.pois.filterMap fun (w, _) =>
    let p := b.position lc
    if p * b.lb ≤ 4 * w && 4 * w < (p + 1) * b.lb then some ((base + 0xA40000 + at_ + (4 * w - p * b.lb)) / 4) else none
  let s := (s.imgWrite base 0x40000 low).imgWrite (base + 0xA40000) (0x1000000 - 0xA40000) high
  s.poisonWords (((s.lcore lc).pois.map fun (w, _) => (base + bufOff (4 * w)) / 4) ++ locPois)

/-- STATE, GROUP and SWAPMAP of the slot of a bound logical core are brought up to date: a crew has come back (R138). -/
def State.markSlot (s : State) (lc : Nat) : State :=
  let away := s.awayCrews lc
  let base := s.slotBase lc
  (s.devWrite 0 (base + 4) (natToBytes 4 (if away.isEmpty then 0 else 1) ++ natToBytes 4 (s.groupNum lc))).devWrite 0 (base + 0x30)
    (natToBytes 32 (bitsFrom (away.map slotOf)))

/-- A thread as R132 saves it: blocked threads stand at their instruction, with the ticks of a waitc that are left; a thread
in mwait is past it. -/
def savedLane (now : Nat) (x : Lane) : Lane :=
  match x.st, x.wait with
  | .blocked, some .mwait => { wakeLane x with watch := none }
  | .blocked, w =>
    { wakeLane x with
      pc := x.waitPc, mark := true
      remain := match w with
        | some (.waitc _ _ (some due) _ _ _) => some (due - now)
        | _ => x.remain }
  | _, _ => x

/-- The blocked threads of a crew as R132 saves them. -/
def Crew.saveLanes (c : Crew) (now : Nat) : Crew :=
  { (List.range 64).foldl (fun c l => c.modLane l (savedLane now)) c with regroup := none }

/-- A lane's word at 0x0200 of CREWCTL (R138); an EXITED lane still holds its item (R154). -/
def Lane.code (x : Lane) : Nat :=
  let b := fun (v : Bool) (i : Nat) => if v then 2 ^ i else 0
  let held := x.st != .vacant
  x.item.toNat + b held 48 + b (x.st == .exited) 49 + b x.yld 50 + b (x.st == .parked) 51 + b x.inTrap 52 + b x.mark 53 +
    2 ^ 56 * x.age.toNat

/-- The 64 bits at 0x18 of a thread's trap region: the fields of the trapping word, extracted by position (R294). -/
def TrapRegs.packed (t : TrapRegs) : Nat :=
  let w := t.word.toNat
  t.cls.toNat + 2 ^ 3 * bits w 26 6 + 2 ^ 9 * bits w 18 8 + 2 ^ 17 * bits w 10 8 + 2 ^ 25 * bits w 2 8 + 2 ^ 33 * bits w 0 22

/-- The CREWCTL region of a crew (R138), its threads as R132 saves them. -/
def State.crewCells (s : State) (k : Nat) : List (Nat × Byte) :=
  let c := (s.crew k).saveLanes s.tick
  let lanes := List.range 64
  let bix := ((s.blocksOn (lcOf k)).findIdx? (·.1 == c.block)).getD 0
  (lanes.flatMap fun l => cellsAt (8 * l) 8 (c.lane l).pc.toNat ++ cellsAt (0x200 + 8 * l) 8 (c.lane l).code) ++
    (c.s.flatMap fun (j, w) => cellsAt (0x400 + 4 * j) 4 w.toNat) ++
    (c.m.flatMap fun (j, w) => if j < 14 then cellsAt (0x580 + 8 * j) 8 w.toNat else []) ++
    cellsAt 0x5F0 4 (s.free 700).toNat ++ cellsAt 0x5F4 4 (s.free 701).toNat ++ cellsAt 0x5F8 8 c.present.toNat ++
    (c.t.flatMap fun (j, w) => cellsAt (0x600 + 16 * j) 16 w.toNat) ++
    cellsAt 0x700 4 c.status.toNat ++ cellsAt 0x704 4 bix ++ cellsAt 0x708 8 c.stamp ++
    (lanes.flatMap fun l => if (c.lane l).st == .parked then
      (List.range 4).flatMap fun i =>
        cellsAt (0x800 + 16 * l + 4 * i) 4 (((sget [] c.lat l)[i]?).getD (s.free (800 + 4 * l + i))).toNat else []) ++
    (lanes.flatMap fun l =>
      let t := (c.lane l).tr
      if t = {} then [] else
        cellsAt (0xC00 + 32 * l) 4 t.word.toNat ++ cellsAt (0xC04 + 32 * l) 8 t.pc.toNat ++ cellsAt (0xC0C + 32 * l) 8 t.addr.toNat ++
        cellsAt (0xC14 + 32 * l) 4 t.cause.toNat ++ cellsAt (0xC18 + 32 * l) 8 t.packed) ++
    (lanes.flatMap fun l => cellsAt (0x1400 + 4 * l) 4 ((c.lane l).remain.getD 0))

/-- Write the regions of a crew (R132, R138). -/
def State.writeCrew (s : State) (k : Nat) : State :=
  let base := s.slotBase (lcOf k)
  let c := s.crew k
  let ctl := base + 0x40000 + 0x2000 * slotOf k
  let reg := base + 0x240000 + 0x8000 * slotOf k
  let s := s.imgWrite ctl 0x2000 (s.crewCells k)
  let s := s.imgWrite reg 0x8000 (c.v.flatMap fun (i, w) => cellsAt (4 * i) 4 w.toNat)
  s.poisonWords ((c.vPois.map fun (i, _) => reg / 4 + i) ++ c.sPois.map fun (j, _) => (ctl + 0x400) / 4 + j)

/-! ## Reading the image back -/

/-- The n bytes at an address as one number. -/
def State.imgNat (s : State) (a n : Nat) : Nat := bytesToNat ((List.range n).map fun i => s.devByte (a + i))

/-- The first n entries of a table. -/
def tabulate {α : Type} [DecidableEq α] (d : α) (n : Nat) (f : Nat → α) : SMap α :=
  (List.range n).filterMap fun i => if f i = d then none else some (i, f i)

/-- A thread as the image gives it (R136, R138). What the image does not hold is the device's own: the record a parked thread waits
for, whether a waitc's ticks count, and the timers of waits that R135 keeps armed. -/
def State.readLane (s : State) (ctl l now : Nat) (old : Lane) : Lane :=
  let code := s.imgNat (ctl + 0x200 + 8 * l) 8
  let x := savedLane now old
  let tr := ctl + 0xC00 + 32 * l
  { x with
    st := if !bit code 48 then .vacant else if bit code 49 then .exited else if bit code 51 && x.park.isSome then .parked else .live
    pc := BitVec.ofNat 64 (s.imgNat (ctl + 8 * l) 8), item := BitVec.ofNat 48 code, age := BitVec.ofNat 8 (bits code 56 8)
    yld := bit code 50, inTrap := bit code 52, mark := bit code 53
    tr := { word := BitVec.ofNat 32 (s.imgNat tr 4), pc := BitVec.ofNat 64 (s.imgNat (tr + 4) 8)
            addr := BitVec.ofNat 64 (s.imgNat (tr + 0xC) 8), cause := BitVec.ofNat 32 (s.imgNat (tr + 0x14) 4)
            cls := BitVec.ofNat 3 (s.imgNat (tr + 0x18) 8) }
    remain := if old.st = .blocked then x.remain else x.remain.map fun _ => s.imgNat (ctl + 0x1400 + 4 * l) 4 }

/-- A crew as the image gives it (R134, R136, R138): it runs on its site again. A poisoned word of its v- and s-registers is a poisoned
register. -/
def State.readCrew (s : State) (k : Nat) : State :=
  let ctl := s.slotBase (lcOf k) + 0x40000 + 0x2000 * slotOf k
  let reg := s.slotBase (lcOf k) + 0x240000 + 0x8000 * slotOf k
  s.modCrew k fun c => { c with
    v := tabulate 0 8192 fun i => BitVec.ofNat 32 (s.imgNat (reg + 4 * i) 4)
    vPois := tabulate false 8192 fun i => s.wordPois (reg / 4 + i)
    s := tabulate 0 96 fun j => BitVec.ofNat 32 (s.imgNat (ctl + 0x400 + 4 * j) 4)
    sPois := tabulate false 96 fun j => s.wordPois ((ctl + 0x400) / 4 + j)
    m := tabulate 0 14 fun j => BitVec.ofNat 64 (s.imgNat (ctl + 0x580 + 8 * j) 8)
    t := tabulate 0 16 fun j => BitVec.ofNat 128 (s.imgNat (ctl + 0x600 + 16 * j) 16)
    status := BitVec.ofNat 32 (s.imgNat (ctl + 0x700) 4), stamp := s.imgNat (ctl + 0x708) 8
    lat := (List.range 64).foldl (fun m l => if bit (s.imgNat (ctl + 0x200 + 8 * l) 8) 51 then
      sset [] m l ((List.range 4).map fun i => BitVec.ofNat 32 (s.imgNat (ctl + 0x800 + 16 * l + 4 * i) 4)) else m) c.lat
    lanes := tabulate {} 64 fun l => s.readLane ctl l s.tick (c.lane l)
    regroup := none, res := .resident, waiting := false, wakeDue := none, idleSince := none }

/-- The segment of a block on a logical core as the image gives it, with the block's barrier record where the core holds its position 0
(R138, R147, R369). -/
def State.readBlock (s : State) (lc i : Nat) (x : Nat × Block × Nat) : State :=
  let (b, y, at_) := x
  let base := s.slotBase lc
  let lo := y.position lc * y.lb
  let src := base + 0xA40000 + at_
  let r := s.imgNat (base + 0x800 + 8 * i) 8
  let below := fun {α : Type} (m : SMap α) (n : Nat) => m.filter fun e => decide (e.1 < n)
  let above := fun {α : Type} (m : SMap α) (n : Nat) => m.filter fun e => decide (n ≤ e.1)
  s.modBlock b fun z : Block =>
    let z : Block := { z with
      mem := below z.mem lo ++ shiftCells lo (tabulate 0 y.lb fun o => s.devByte (src + o)) ++ above z.mem (lo + y.lb)
      pois := below z.pois (lo / 4) ++ ((tabulate false (y.lb / 4) fun w => s.wordPois (src / 4 + w)).map fun e => (lo / 4 + e.1, e.2)) ++
        above z.pois ((lo + y.lb) / 4) }
    if y.position lc = 0 then
      let z : Block := { z with exp := bits r 0 17, arr := bits r 17 17, ph := BitVec.ofNat 8 (bits r 34 8) }
      if z.rank = 0 then { z with gph := BitVec.ofNat 8 (bits r 42 8), garr := bits r 50 5 } else z
    else z

/-- The slot of a logical core is read back (R136, R138): its blocks, its typed buffers with their full bits and poison, its engine
contexts and the records of their commands. -/
def State.readSlot (s : State) (lc : Nat) : State :=
  let base := s.slotBase lc
  let segs := s.segments lc
  let s := (segs.zip (List.range segs.length)).foldl (fun s (x, i) => s.readBlock lc i x) s
  s.modLcore lc fun c =>
    let cmds := c.cmdsOf
    let bytesOf := fun (e : Nat) (m : Cmd) => match cmds.findIdx? (· == (e, m)) with
      | some i => if m.accepted then (List.range 64).map fun j => s.devByte (base + 0x9000 + 128 * i + j) else m.bytes
      | none => m.bytes
    { c with
      buf := (tabulate 0 0x280000 fun o => s.devByte (base + 0xD80000 + o)).map fun e => (0x100000 + e.1, e.2)
      pois := (tabulate false 0xA0000 fun w => s.wordPois ((base + 0xD80000) / 4 + w)).map fun e => (0x40000 + e.1, e.2)
      full := (tabulate false 0x28000 fun g => bit (s.imgNat (base + 0x3000 + g / 8) 1) (g % 8)).map fun e => (0x10000 + e.1, e.2)
      ecs := c.ecs.map fun (e, x) =>
        let at_ := base + 0x8000 + 64 * e
        let w := s.imgNat (at_ + 16) 4
        (e, { x with count := BitVec.ofNat 64 (s.imgNat at_ 8), issued := BitVec.ofNat 64 (s.imgNat (at_ + 8) 8)
                     kind := kindOf (bits w 0 4), err := bit w 4, cmds := x.cmds.map fun m => { m with bytes := bytesOf e m } }) }

end Sys2Proof.Machine
end

