-- ==== Sys2Proof/WellFormed.lean ====
section
/-! DEFINITION. Well-formed instructions: the word earns no ILLEGAL reason by its text, its literal words are as
many as R306 says, and a word without X carries no literal. An event is well formed when its operands have the sizes
the manual gives them. -/

namespace Sys2Proof

/-- The literal word of R283 is present exactly with X. -/
def litFits (f : FmtM) (ix : Word) : Bool := f.e == 1 || ix == 0

/-- The literal words of an instruction have the number that R306 gives. -/
def Instr.literalsFit : Instr → Bool
  | .ldI8 f ix | .ldN8 f ix | .ldI16 f ix | .ldN16 f ix | .ldW32 f ix | .ldW64 f ix | .ldW128 f ix
  | .stN8 f ix | .stN16 f ix | .stW32 f ix | .stW64 f ix | .stW128 f ix | .ldbPeek f ix | .ldbTake f ix
  | .stb f ix | .stbMark f ix | .amoAdd f ix | .amoAnd f ix | .amoOr f ix | .amoXor f ix | .amoExch f ix
  | .amoMin f ix | .amoMax f ix | .amoCas f ix _ | .redAddI f ix | .redAddF32 f ix | .redAnd f ix | .redOr f ix
  | .redXor f ix | .redMin f ix | .redMax f ix | .redAddX f ix | .xflush f ix | .append f ix | .sealPage f ix
  | .prefetch f ix | .cwb f ix | .cinv f ix => litFits f ix
  | .waitcAny f c | .waitcAll f c => c.length == 2 * ((f.f.extractLsb' 0 2).toNat + 1)
  | .switch f lits => lits.length == (f.m.extractLsb' 0 3).toNat + 2
  | .evc f | .dbg f => f.f.getLsbD 4 == false
  | .evcSel f | .dbgHalt f => f.f.getLsbD 4
  | .clock f => f.f.getLsbD 0 == false
  | .clockCore f => f.f.getLsbD 0
  | .ecRead f => f.flags.extractLsb' 0 2 == 0
  | .ecReadIssued f => f.flags.extractLsb' 0 2 == 1
  | .ecReadState f => f.flags.extractLsb' 0 2 == 2
  | .powerEvaluation _ temps => temps.length == 5
  | .ageingSampleDone a => a.counts.length == 8
  | .eccCorrected die _ => die < 5
  | .eccUncorrectable die _ => die < 5
  | _ => true

/-- A well-formed instruction. -/
def Instr.wf (i : Instr) : Bool := (Machine.textReasons i).isEmpty && i.literalsFit

/-- A well-formed instruction, as a proposition. -/
abbrev Instr.WellFormed (i : Instr) : Prop := i.wf = true

end Sys2Proof
end

