-- ==== Sys2Proof/Decode.lean ====
section
/-! DEFINITION. The decoder: a word, the class of its clause and its literal words give an instruction or nothing
(R281, R304 to R316). The encoder follows it, written from the same tables. A decoded instruction keeps every bit
of its word; which bit patterns are legal is said in Checks.lean and WellFormed.lean. -/

namespace Sys2Proof

/-- Format A of a word (R281). -/
def fmtA (w : Word) : FmtA :=
  ⟨w.extractLsb' 18 8, w.extractLsb' 10 8, w.extractLsb' 2 8, w.extractLsb' 1 1, w.extractLsb' 0 1⟩
/-- Format I of a word (R281). -/
def fmtI (w : Word) : FmtI := ⟨w.extractLsb' 18 8, w.extractLsb' 10 8, w.extractLsb' 0 10⟩
/-- Format K of a word (R281). -/
def fmtK (w : Word) : FmtK := ⟨w.extractLsb' 18 8, w.extractLsb' 16 2, w.extractLsb' 0 16⟩
/-- Format M of a word (R281). -/
def fmtM (w : Word) : FmtM :=
  ⟨w.extractLsb' 18 8, w.extractLsb' 10 8, w.extractLsb' 7 3, w.extractLsb' 4 3, w.extractLsb' 2 2,
    w.extractLsb' 1 1, w.extractLsb' 0 1⟩
/-- Format T of a word (R281). -/
def fmtT (w : Word) : FmtT :=
  ⟨w.extractLsb' 22 4, w.extractLsb' 18 4, w.extractLsb' 14 4, w.extractLsb' 11 3, w.extractLsb' 9 2,
    w.extractLsb' 0 9⟩
/-- Format E of a word (R281). -/
def fmtE (w : Word) : FmtE :=
  ⟨w.extractLsb' 20 6, w.extractLsb' 12 8, w.extractLsb' 4 8, w.extractLsb' 0 4⟩
/-- Format C of a word (R281). -/
def fmtC (w : Word) : FmtC := ⟨w.extractLsb' 22 4, w.extractLsb' 0 22⟩
/-- Format S of a word (R281). -/
def fmtS (w : Word) : FmtS := ⟨w.extractLsb' 18 8, w.extractLsb' 10 8, w.extractLsb' 0 10⟩

/-- The opcode of a word (R281). -/
def opcodeOf (w : Word) : Nat := (w.extractLsb' 26 6).toNat

/-- The index literal of a format M word, zero where X is zero (R283, R306). -/
def litM (w : Word) (lits : List Word) : Word := if (fmtM w).e == 1 then lits.headD 0 else 0
/-- The compare operand word of amo.cas: after the index literal where there is one (R306, R360). -/
def litCas (w : Word) (lits : List Word) : Word := if (fmtM w).e == 1 then lits.tail.headD 0 else lits.headD 0

/-- LiteralCount of R288: how many literal words a word of class `cls` takes (R306, R308 to R314). -/
def literalCount (cls : Nat) (w : Word) : Nat :=
  let op := opcodeOf w
  let x := (fmtM w).e.toNat
  match cls with
  | 0 => if op == 0x05 || op == 0x17 || op == 0x2E then 1 else 0
  | 1 => if op == 0x04 || op == 0x1A || op == 0x1B || op == 0x20 then 1 else 0
  | 2 =>
    if op == 0 || op == 0x27 || 0x2B ≤ op then 0
    else if 0x11 ≤ op && op ≤ 0x13 then 1
    else if op == 0x1B then x + 1
    else x
  | 5 => if op == 0x05 || op == 0x06 then 2 * ((w.extractLsb' 0 2).toNat + 1) else 0
  | 6 => if op == 0x06 then (w.extractLsb' 22 3).toNat + 2 else 0
  | _ => 0

/-- Class 0 (R308). -/
def decode0 (w : Word) (lits : List Word) : Option Instr :=
  match (w.extractLsb' 26 6).toNat with
  | 0x00 => some (.nop (w.truncate 26))
  | 0x01 => some (.add (fmtA w))
  | 0x02 => some (.sub (fmtA w))
  | 0x03 => some (.mul (fmtA w))
  | 0x04 => some (.mulhi (fmtA w))
  | 0x05 => some (.mad (fmtA w) (lits.headD 0))
  | 0x06 => some (.min (fmtA w))
  | 0x07 => some (.max (fmtA w))
  | 0x08 => some (.abs (fmtA w))
  | 0x09 => some (.neg (fmtA w))
  | 0x0A => some (.and (fmtA w))
  | 0x0B => some (.or (fmtA w))
  | 0x0C => some (.xor (fmtA w))
  | 0x0D => some (.andn (fmtA w))
  | 0x0E => some (.shl (fmtA w))
  | 0x0F => some (.shr (fmtA w))
  | 0x10 => some (.sar (fmtA w))
  | 0x11 => some (.rot (fmtA w))
  | 0x12 => some (.clz (fmtA w))
  | 0x13 => some (.popc (fmtA w))
  | 0x14 => some (.brev (fmtA w))
  | 0x15 => some (.bfx (fmtI w))
  | 0x16 => some (.bfi (fmtI w))
  | 0x17 => some (.sel (fmtA w) (lits.headD 0))
  | 0x18 => some (.cmpEq (fmtA w))
  | 0x19 => some (.cmpNe (fmtA w))
  | 0x1A => some (.cmpLt (fmtA w))
  | 0x1B => some (.cmpLe (fmtA w))
  | 0x1C => some (.cmpGt (fmtA w))
  | 0x1D => some (.cmpGe (fmtA w))
  | 0x1E => some (.mov (fmtA w))
  | 0x1F => some (.movi (fmtK w))
  | 0x20 => some (.movhi (fmtK w))
  | 0x21 => some (.ext (fmtI w))
  | 0x22 => some (.lea (fmtA w))
  | 0x23 => some (.add64 (fmtA w))
  | 0x24 => some (.sub64 (fmtA w))
  | 0x25 => some (.mulw (fmtA w))
  | 0x26 => some (.shfl (fmtA w))
  | 0x27 => some (.qxch (fmtI w))
  | 0x28 => some (.vote (fmtA w))
  | 0x29 => some (.popm (fmtA w))
  | 0x2A => some (.elect (fmtA w))
  | 0x2B => some (.matchLow (fmtA w))
  | 0x2C => some (.credInt (fmtA w))
  | 0x2D => some (.cscanInt (fmtA w))
  | 0x2E => some (.csredInt (fmtA w) (lits.headD 0))
  | 0x2F => some (.rngStep (fmtA w))
  | 0x30 => some (.rngSkip (fmtA w))
  | 0x3F => some (.brk (w.truncate 26))
  | _ => none

/-- Class 1 (R309). -/
def decode1 (w : Word) (lits : List Word) : Option Instr :=
  match (w.extractLsb' 26 6).toNat with
  | 0x00 => some (.nop (w.truncate 26))
  | 0x01 => some (.fadd (fmtA w))
  | 0x02 => some (.fsub (fmtA w))
  | 0x03 => some (.fmul (fmtA w))
  | 0x04 => some (.ffma (fmtA w) (lits.headD 0))
  | 0x05 => some (.fmin (fmtA w))
  | 0x06 => some (.fmax (fmtA w))
  | 0x07 => some (.fcmpEq (fmtA w))
  | 0x08 => some (.fcmpNe (fmtA w))
  | 0x09 => some (.fcmpLt (fmtA w))
  | 0x0A => some (.fcmpLe (fmtA w))
  | 0x0B => some (.fcmpGt (fmtA w))
  | 0x0C => some (.fcmpGe (fmtA w))
  | 0x0D => some (.frcp (fmtA w))
  | 0x0E => some (.frsq (fmtA w))
  | 0x0F => some (.fsqrt (fmtA w))
  | 0x10 => some (.fdiv (fmtA w))
  | 0x11 => some (.fexp2 (fmtA w))
  | 0x12 => some (.flog2 (fmtA w))
  | 0x13 => some (.fsin (fmtA w))
  | 0x14 => some (.fcos (fmtA w))
  | 0x15 => some (.fround (fmtI w))
  | 0x16 => some (.fcvt (fmtI w))
  | 0x17 => some (.i2f (fmtA w))
  | 0x18 => some (.f2i (fmtA w))
  | 0x19 => some (.fscale (fmtA w))
  | 0x1A => some (.dp4 (fmtA w) (lits.headD 0))
  | 0x1B => some (.dp8 (fmtA w) (lits.headD 0))
  | 0x1C => some (.pk (fmtI w))
  | 0x1D => some (.upk (fmtI w))
  | 0x1E => some (.credFloat (fmtA w))
  | 0x1F => some (.cscanFloat (fmtA w))
  | 0x20 => some (.csredFloat (fmtA w) (lits.headD 0))
  | 0x3F => some (.brk (w.truncate 26))
  | _ => none

/-- Class 2 (R310). -/
def decode2 (w : Word) (lits : List Word) : Option Instr :=
  match (w.extractLsb' 26 6).toNat with
  | 0x00 => some (.nop (w.truncate 26))
  | 0x01 => some (.ldI8 (fmtM w) (litM w lits))
  | 0x02 => some (.ldN8 (fmtM w) (litM w lits))
  | 0x03 => some (.ldI16 (fmtM w) (litM w lits))
  | 0x04 => some (.ldN16 (fmtM w) (litM w lits))
  | 0x05 => some (.ldW32 (fmtM w) (litM w lits))
  | 0x06 => some (.ldW64 (fmtM w) (litM w lits))
  | 0x07 => some (.ldW128 (fmtM w) (litM w lits))
  | 0x08 => some (.stN8 (fmtM w) (litM w lits))
  | 0x09 => some (.stN16 (fmtM w) (litM w lits))
  | 0x0A => some (.stW32 (fmtM w) (litM w lits))
  | 0x0B => some (.stW64 (fmtM w) (litM w lits))
  | 0x0C => some (.stW128 (fmtM w) (litM w lits))
  | 0x0D => some (.ldbPeek (fmtM w) (litM w lits))
  | 0x0E => some (.ldbTake (fmtM w) (litM w lits))
  | 0x0F => some (.stb (fmtM w) (litM w lits))
  | 0x10 => some (.stbMark (fmtM w) (litM w lits))
  | 0x11 => some (.tld (fmtM w) (lits.headD 0))
  | 0x12 => some (.tst (fmtM w) (lits.headD 0))
  | 0x13 => some (.tldWin (fmtM w) (lits.headD 0))
  | 0x14 => some (.amoAdd (fmtM w) (litM w lits))
  | 0x15 => some (.amoMin (fmtM w) (litM w lits))
  | 0x16 => some (.amoMax (fmtM w) (litM w lits))
  | 0x17 => some (.amoAnd (fmtM w) (litM w lits))
  | 0x18 => some (.amoOr (fmtM w) (litM w lits))
  | 0x19 => some (.amoXor (fmtM w) (litM w lits))
  | 0x1A => some (.amoExch (fmtM w) (litM w lits))
  | 0x1B => some (.amoCas (fmtM w) (litM w lits) (litCas w lits))
  | 0x1C => some (.redAddI (fmtM w) (litM w lits))
  | 0x1D => some (.redAddF32 (fmtM w) (litM w lits))
  | 0x1E => some (.redAddX (fmtM w) (litM w lits))
  | 0x1F => some (.redMin (fmtM w) (litM w lits))
  | 0x20 => some (.redMax (fmtM w) (litM w lits))
  | 0x21 => some (.redAnd (fmtM w) (litM w lits))
  | 0x22 => some (.redOr (fmtM w) (litM w lits))
  | 0x23 => some (.redXor (fmtM w) (litM w lits))
  | 0x24 => some (.xflush (fmtM w) (litM w lits))
  | 0x25 => some (.append (fmtM w) (litM w lits))
  | 0x26 => some (.sealPage (fmtM w) (litM w lits))
  | 0x27 => some (.fenceInsn (fmtM w))
  | 0x28 => some (.prefetch (fmtM w) (litM w lits))
  | 0x29 => some (.cwb (fmtM w) (litM w lits))
  | 0x2A => some (.cinv (fmtM w) (litM w lits))
  | 0x3F => some (.brk (w.truncate 26))
  | _ => none

/-- Class 3 (R311). -/
def decode3 (w : Word) (_ : List Word) : Option Instr :=
  match (w.extractLsb' 26 6).toNat with
  | 0x00 => some (.nop (w.truncate 26))
  | 0x01 => some (.tset (fmtT w))
  | 0x02 => some (.tget (fmtT w))
  | 0x03 => some (.tzero (fmtT w))
  | 0x04 => some (.mma (fmtT w))
  | 0x05 => some (.mmaG (fmtT w))
  | 0x06 => some (.tcvt (fmtT w))
  | 0x07 => some (.tadd (fmtT w))
  | 0x3F => some (.brk (w.truncate 26))
  | _ => none

/-- Class 4 (R312). -/
def decode4 (w : Word) (_ : List Word) : Option Instr :=
  match (w.extractLsb' 26 6).toNat with
  | 0x00 => some (.nop (w.truncate 26))
  | 0x01 => some (.gxRun (fmtE w))
  | 0x02 => some (.ceBuild (fmtE w))
  | 0x03 => some (.ceLookup (fmtE w))
  | 0x04 => some (.ceDown (fmtE w))
  | 0x05 => some (.ceProbe (fmtE w))
  | 0x06 => some (.seGather (fmtE w))
  | 0x07 => some (.seIsect (fmtE w))
  | 0x08 => some (.seCopy (fmtE w))
  | 0x09 => some (.seMcast (fmtE w))
  | 0x0A => some (.gqSubmit (fmtE w))
  | 0x0B => some (.ecBind (fmtE w))
  | 0x0C => some (match ((fmtE w).flags.extractLsb' 0 2).toNat with
      | 1 => .ecReadIssued (fmtE w)
      | 2 => .ecReadState (fmtE w)
      | _ => .ecRead (fmtE w))
  | 0x3F => some (.brk (w.truncate 26))
  | _ => none

/-- Class 5 (R313). -/
def decode5 (w : Word) (lits : List Word) : Option Instr :=
  match (w.extractLsb' 26 6).toNat with
  | 0x00 => some (.nop (w.truncate 26))
  | 0x01 => some (.barInit (fmtS w))
  | 0x02 => some (.barArrive (fmtS w))
  | 0x03 => some (.barWait (fmtS w))
  | 0x04 => some (.gbar (fmtS w))
  | 0x05 => some (.waitcAny (fmtS w) lits)
  | 0x06 => some (.waitcAll (fmtS w) lits)
  | 0x07 => some (.mwatch (fmtS w))
  | 0x08 => some (.mwait (fmtS w))
  | 0x09 => some (.yield (fmtS w))
  | 0x0A => some (.refill (fmtS w))
  | 0x0B => some (.drain (fmtS w))
  | 0x0C => some (.regroup (fmtS w))
  | 0x0D => some (.launch (fmtS w))
  | 0x0E => some (.srd (fmtS w))
  | 0x0F => some (.swr (fmtS w))
  | 0x10 => some (if (fmtS w).f.getLsbD 4 then .evcSel (fmtS w) else .evc (fmtS w))
  | 0x11 => some (.vhop (fmtS w))
  | 0x12 => some (if (fmtS w).f.getLsbD 0 then .clockCore (fmtS w) else .clock (fmtS w))
  | 0x13 => some (.trap (fmtS w))
  | 0x14 => some (.trapret (fmtS w))
  | 0x15 => some (if (fmtS w).f.getLsbD 4 then .dbgHalt (fmtS w) else .dbg (fmtS w))
  | 0x3F => some (.brk (w.truncate 26))
  | _ => none

/-- Class 6 (R314). -/
def decode6 (w : Word) (lits : List Word) : Option Instr :=
  match (w.extractLsb' 26 6).toNat with
  | 0x00 => some (.nop (w.truncate 26))
  | 0x01 => some (.br (fmtC w))
  | 0x02 => some (.brD (fmtC w))
  | 0x03 => some (.brAny (fmtC w))
  | 0x04 => some (.brAll (fmtC w))
  | 0x05 => some (.brNone (fmtC w))
  | 0x06 => some (.switch (fmtC w) lits)
  | 0x07 => some (.call (fmtC w))
  | 0x08 => some (.callr (fmtC w))
  | 0x09 => some (.ret (fmtC w))
  | 0x0A => some (.exit (fmtC w))
  | 0x3F => some (.brk (w.truncate 26))
  | _ => none

/-- Decode a word of class `cls` with its literal words; `none` for an opcode that the class leaves unassigned
(R304, reason 7) and for class 7. -/
def decodeWord (cls : Nat) (w : Word) (lits : List Word) : Option Instr :=
  match cls with
  | 0 => decode0 w lits
  | 1 => decode1 w lits
  | 2 => decode2 w lits
  | 3 => decode3 w lits
  | 4 => decode4 w lits
  | 5 => decode5 w lits
  | 6 => decode6 w lits
  | _ => none

/-- The four bytes of a word as memory stores them, lowest address first (R5). -/
def wordBytes (w : Word) : List Byte :=
  [w.extractLsb' 0 8, w.extractLsb' 8 8, w.extractLsb' 16 8, w.extractLsb' 24 8]

/-- The words that a run of bytes holds, little-endian; a rest of fewer than four bytes holds none (R5). -/
def bytesWords : List Byte → List Word
  | a :: b :: c :: d :: rest => (d ++ c ++ b ++ a) :: bytesWords rest
  | _ => []

/-- Decode the instruction of class `cls` that a run of bytes begins with: its word, then as many literal words as
R306 gives. -/
def decodeBytes (cls : Nat) (bs : List Byte) : Option Instr :=
  match bytesWords bs with
  | [] => none
  | w :: rest =>
    if literalCount cls w ≤ rest.length then decodeWord cls w (rest.take (literalCount cls w)) else none

/-- The words of a table entry: its bits, then operand words of zeros up to the longest instruction. -/
def tableWords (nbits w : Nat) : List Word :=
  (List.range 10).map fun k => if 32 * k < nbits then BitVec.ofNat 32 (w >>> (32 * k)) else 0

/-- The bytes of a table entry as the hardware stores them. -/
def tableBytes (nbits w : Nat) : List Byte := (tableWords nbits w).flatMap wordBytes

/-- The first class among the given in which the bytes decode to an instruction that satisfies `ok`. -/
def firstClass (ok : Instr → Bool) (bs : List Byte) : List Nat → Option (Nat × Instr)
  | [] => none
  | c :: cs =>
    match decodeBytes c bs with
    | some i => if ok i then some (c, i) else firstClass ok bs cs
    | none => firstClass ok bs cs

/-- The clause class is not among a table word's bits. The word is read in the first class, in ascending order, in
which it is a well-formed instruction, and failing that in the first class that assigns its opcode (log entry 23). -/
def tableClass (nbits w : Nat) : Option (Nat × Instr) :=
  let bs := tableBytes nbits w
  match firstClass Instr.wf bs [0, 1, 2, 3, 4, 5, 6] with
  | some r => some r
  | none => firstClass (fun _ => true) bs [0, 1, 2, 3, 4, 5, 6]

/-- The instruction that the decoder reads from a table entry's bits, laid out as memory stores them. -/
def decodeTableWord (nbits w : Nat) : Option Instr := (tableClass nbits w).map (·.2)

/-- Format A, encoded (R281). -/
def encA (op : Nat) (f : FmtA) : Word := BitVec.ofNat 6 op ++ f.d ++ f.a ++ f.b ++ f.w ++ f.v
/-- Format I, encoded (R281). -/
def encI (op : Nat) (f : FmtI) : Word := BitVec.ofNat 6 op ++ f.d ++ f.a ++ f.imm
/-- Format K, encoded (R281). -/
def encK (op : Nat) (f : FmtK) : Word := BitVec.ofNat 6 op ++ f.d ++ f.h ++ f.imm
/-- Format M, encoded (R281). -/
def encM (op : Nat) (f : FmtM) : Word :=
  BitVec.ofNat 6 op ++ f.x ++ f.a ++ f.lc ++ f.ag ++ f.st ++ f.e ++ f.v
/-- Format T, encoded (R281). -/
def encT (op : Nat) (f : FmtT) : Word :=
  BitVec.ofNat 6 op ++ f.tc ++ f.ta ++ f.tb ++ f.fs ++ f.acc ++ f.flags
/-- Format E, encoded (R281). -/
def encE (op : Nat) (f : FmtE) : Word := BitVec.ofNat 6 op ++ f.ec ++ f.a ++ f.b ++ f.flags
/-- Format C, encoded (R281). -/
def encC (op : Nat) (f : FmtC) : Word := BitVec.ofNat 6 op ++ f.m ++ f.off
/-- Format S, encoded (R281). -/
def encS (op : Nat) (f : FmtS) : Word := BitVec.ofNat 6 op ++ f.a ++ f.b ++ f.f
/-- The literal word of R283 stands only with X. -/
def encLit (f : FmtM) (ix : Word) : List Word := if f.e == 1 then [ix] else []


/-- The clause class that a word of this instruction is decoded in; `nop` and `brk` stand in every class, an event in none. -/
def Instr.cls : Instr → Nat
  | .nop _ | .brk _ | .add _ | .sub _ | .mul _ | .mulhi _ | .mad _ _ | .min _ | .max _ | .abs _ | .neg _ | .and _ | .or _ | .xor _ | .andn _ | .shl _ | .shr _ | .sar _ | .rot _ | .clz _ | .popc _ | .brev _ | .bfx _ | .bfi _ | .sel _ _ | .cmpEq _ | .cmpNe _ | .cmpLt _ | .cmpLe _ | .cmpGt _ | .cmpGe _ | .mov _ | .movi _ | .movhi _ | .ext _ | .lea _ | .add64 _ | .sub64 _ | .mulw _ | .shfl _ | .qxch _ | .vote _ | .popm _ | .elect _ | .matchLow _ | .credInt _ | .cscanInt _ | .csredInt _ _ | .rngStep _ | .rngSkip _ => 0
  | .fadd _ | .fsub _ | .fmul _ | .ffma _ _ | .fmin _ | .fmax _ | .fcmpEq _ | .fcmpNe _ | .fcmpLt _ | .fcmpLe _ | .fcmpGt _ | .fcmpGe _ | .frcp _ | .frsq _ | .fsqrt _ | .fdiv _ | .fexp2 _ | .flog2 _ | .fsin _ | .fcos _ | .fround _ | .fcvt _ | .i2f _ | .f2i _ | .fscale _ | .dp4 _ _ | .dp8 _ _ | .pk _ | .upk _ | .credFloat _ | .cscanFloat _ | .csredFloat _ _ => 1
  | .ldI8 _ _ | .ldN8 _ _ | .ldI16 _ _ | .ldN16 _ _ | .ldW32 _ _ | .ldW64 _ _ | .ldW128 _ _ | .stN8 _ _ | .stN16 _ _ | .stW32 _ _ | .stW64 _ _ | .stW128 _ _ | .ldbPeek _ _ | .ldbTake _ _ | .stb _ _ | .stbMark _ _ | .tld _ _ | .tst _ _ | .tldWin _ _ | .amoAdd _ _ | .amoMin _ _ | .amoMax _ _ | .amoAnd _ _ | .amoOr _ _ | .amoXor _ _ | .amoExch _ _ | .amoCas _ _ _ | .redAddI _ _ | .redAddF32 _ _ | .redAddX _ _ | .redMin _ _ | .redMax _ _ | .redAnd _ _ | .redOr _ _ | .redXor _ _ | .xflush _ _ | .append _ _ | .sealPage _ _ | .fenceInsn _ | .prefetch _ _ | .cwb _ _ | .cinv _ _ => 2
  | .tset _ | .tget _ | .tzero _ | .mma _ | .mmaG _ | .tcvt _ | .tadd _ => 3
  | .gxRun _ | .ceBuild _ | .ceLookup _ | .ceDown _ | .ceProbe _ | .seGather _ | .seIsect _ | .seCopy _ | .seMcast _ | .gqSubmit _ | .ecBind _ | .ecRead _ | .ecReadIssued _ | .ecReadState _ => 4
  | .barInit _ | .barArrive _ | .barWait _ | .gbar _ | .waitcAny _ _ | .waitcAll _ _ | .mwatch _ | .mwait _ | .yield _ | .refill _ | .drain _ | .regroup _ | .launch _ | .srd _ | .swr _ | .evc _ | .evcSel _ | .vhop _ | .clock _ | .clockCore _ | .trap _ | .trapret _ | .dbg _ | .dbgHalt _ => 5
  | .br _ | .brD _ | .brAny _ | .brAll _ | .brNone _ | .switch _ _ | .call _ | .callr _ | .ret _ | .exit _ => 6
  | _ => 7

/-- The words of an instruction, its own word first and then its literal words (R281, R306); an event has none.
In a clause the literal words of a control word stand before it (R279). -/
def encode : Instr → List Word
  | .nop z => [0#6 ++ z]
  | .brk t => [0x3F#6 ++ t]
  | .add f => encA 0x01 f :: []
  | .sub f => encA 0x02 f :: []
  | .mul f => encA 0x03 f :: []
  | .mulhi f => encA 0x04 f :: []
  | .mad f lit => encA 0x05 f :: [lit]
  | .min f => encA 0x06 f :: []
  | .max f => encA 0x07 f :: []
  | .abs f => encA 0x08 f :: []
  | .neg f => encA 0x09 f :: []
  | .and f => encA 0x0A f :: []
  | .or f => encA 0x0B f :: []
  | .xor f => encA 0x0C f :: []
  | .andn f => encA 0x0D f :: []
  | .shl f => encA 0x0E f :: []
  | .shr f => encA 0x0F f :: []
  | .sar f => encA 0x10 f :: []
  | .rot f => encA 0x11 f :: []
  | .clz f => encA 0x12 f :: []
  | .popc f => encA 0x13 f :: []
  | .brev f => encA 0x14 f :: []
  | .bfx f => encI 0x15 f :: []
  | .bfi f => encI 0x16 f :: []
  | .sel f lit => encA 0x17 f :: [lit]
  | .cmpEq f => encA 0x18 f :: []
  | .cmpNe f => encA 0x19 f :: []
  | .cmpLt f => encA 0x1A f :: []
  | .cmpLe f => encA 0x1B f :: []
  | .cmpGt f => encA 0x1C f :: []
  | .cmpGe f => encA 0x1D f :: []
  | .mov f => encA 0x1E f :: []
  | .movi f => encK 0x1F f :: []
  | .movhi f => encK 0x20 f :: []
  | .ext f => encI 0x21 f :: []
  | .lea f => encA 0x22 f :: []
  | .add64 f => encA 0x23 f :: []
  | .sub64 f => encA 0x24 f :: []
  | .mulw f => encA 0x25 f :: []
  | .shfl f => encA 0x26 f :: []
  | .qxch f => encI 0x27 f :: []
  | .vote f => encA 0x28 f :: []
  | .popm f => encA 0x29 f :: []
  | .elect f => encA 0x2A f :: []
  | .matchLow f => encA 0x2B f :: []
  | .credInt f => encA 0x2C f :: []
  | .cscanInt f => encA 0x2D f :: []
  | .csredInt f lit => encA 0x2E f :: [lit]
  | .rngStep f => encA 0x2F f :: []
  | .rngSkip f => encA 0x30 f :: []
  | .fadd f => encA 0x01 f :: []
  | .fsub f => encA 0x02 f :: []
  | .fmul f => encA 0x03 f :: []
  | .ffma f lit => encA 0x04 f :: [lit]
  | .fmin f => encA 0x05 f :: []
  | .fmax f => encA 0x06 f :: []
  | .fcmpEq f => encA 0x07 f :: []
  | .fcmpNe f => encA 0x08 f :: []
  | .fcmpLt f => encA 0x09 f :: []
  | .fcmpLe f => encA 0x0A f :: []
  | .fcmpGt f => encA 0x0B f :: []
  | .fcmpGe f => encA 0x0C f :: []
  | .frcp f => encA 0x0D f :: []
  | .frsq f => encA 0x0E f :: []
  | .fsqrt f => encA 0x0F f :: []
  | .fdiv f => encA 0x10 f :: []
  | .fexp2 f => encA 0x11 f :: []
  | .flog2 f => encA 0x12 f :: []
  | .fsin f => encA 0x13 f :: []
  | .fcos f => encA 0x14 f :: []
  | .fround f => encI 0x15 f :: []
  | .fcvt f => encI 0x16 f :: []
  | .i2f f => encA 0x17 f :: []
  | .f2i f => encA 0x18 f :: []
  | .fscale f => encA 0x19 f :: []
  | .dp4 f lit => encA 0x1A f :: [lit]
  | .dp8 f lit => encA 0x1B f :: [lit]
  | .pk f => encI 0x1C f :: []
  | .upk f => encI 0x1D f :: []
  | .credFloat f => encA 0x1E f :: []
  | .cscanFloat f => encA 0x1F f :: []
  | .csredFloat f lit => encA 0x20 f :: [lit]
  | .ldI8 f ix => encM 0x01 f :: encLit f ix
  | .ldN8 f ix => encM 0x02 f :: encLit f ix
  | .ldI16 f ix => encM 0x03 f :: encLit f ix
  | .ldN16 f ix => encM 0x04 f :: encLit f ix
  | .ldW32 f ix => encM 0x05 f :: encLit f ix
  | .ldW64 f ix => encM 0x06 f :: encLit f ix
  | .ldW128 f ix => encM 0x07 f :: encLit f ix
  | .stN8 f ix => encM 0x08 f :: encLit f ix
  | .stN16 f ix => encM 0x09 f :: encLit f ix
  | .stW32 f ix => encM 0x0A f :: encLit f ix
  | .stW64 f ix => encM 0x0B f :: encLit f ix
  | .stW128 f ix => encM 0x0C f :: encLit f ix
  | .ldbPeek f ix => encM 0x0D f :: encLit f ix
  | .ldbTake f ix => encM 0x0E f :: encLit f ix
  | .stb f ix => encM 0x0F f :: encLit f ix
  | .stbMark f ix => encM 0x10 f :: encLit f ix
  | .tld f lit => encM 0x11 f :: [lit]
  | .tst f lit => encM 0x12 f :: [lit]
  | .tldWin f lit => encM 0x13 f :: [lit]
  | .amoAdd f ix => encM 0x14 f :: encLit f ix
  | .amoMin f ix => encM 0x15 f :: encLit f ix
  | .amoMax f ix => encM 0x16 f :: encLit f ix
  | .amoAnd f ix => encM 0x17 f :: encLit f ix
  | .amoOr f ix => encM 0x18 f :: encLit f ix
  | .amoXor f ix => encM 0x19 f :: encLit f ix
  | .amoExch f ix => encM 0x1A f :: encLit f ix
  | .amoCas f ix c => encM 0x1B f :: (encLit f ix ++ [c])
  | .redAddI f ix => encM 0x1C f :: encLit f ix
  | .redAddF32 f ix => encM 0x1D f :: encLit f ix
  | .redAddX f ix => encM 0x1E f :: encLit f ix
  | .redMin f ix => encM 0x1F f :: encLit f ix
  | .redMax f ix => encM 0x20 f :: encLit f ix
  | .redAnd f ix => encM 0x21 f :: encLit f ix
  | .redOr f ix => encM 0x22 f :: encLit f ix
  | .redXor f ix => encM 0x23 f :: encLit f ix
  | .xflush f ix => encM 0x24 f :: encLit f ix
  | .append f ix => encM 0x25 f :: encLit f ix
  | .sealPage f ix => encM 0x26 f :: encLit f ix
  | .fenceInsn f => encM 0x27 f :: []
  | .prefetch f ix => encM 0x28 f :: encLit f ix
  | .cwb f ix => encM 0x29 f :: encLit f ix
  | .cinv f ix => encM 0x2A f :: encLit f ix
  | .tset f => encT 0x01 f :: []
  | .tget f => encT 0x02 f :: []
  | .tzero f => encT 0x03 f :: []
  | .mma f => encT 0x04 f :: []
  | .mmaG f => encT 0x05 f :: []
  | .tcvt f => encT 0x06 f :: []
  | .tadd f => encT 0x07 f :: []
  | .gxRun f => encE 0x01 f :: []
  | .ceBuild f => encE 0x02 f :: []
  | .ceLookup f => encE 0x03 f :: []
  | .ceDown f => encE 0x04 f :: []
  | .ceProbe f => encE 0x05 f :: []
  | .seGather f => encE 0x06 f :: []
  | .seIsect f => encE 0x07 f :: []
  | .seCopy f => encE 0x08 f :: []
  | .seMcast f => encE 0x09 f :: []
  | .gqSubmit f => encE 0x0A f :: []
  | .ecBind f => encE 0x0B f :: []
  | .ecRead f => encE 0x0C f :: []
  | .ecReadIssued f => encE 0x0C f :: []
  | .ecReadState f => encE 0x0C f :: []
  | .barInit f => encS 0x01 f :: []
  | .barArrive f => encS 0x02 f :: []
  | .barWait f => encS 0x03 f :: []
  | .gbar f => encS 0x04 f :: []
  | .waitcAny f l => encS 0x05 f :: l
  | .waitcAll f l => encS 0x06 f :: l
  | .mwatch f => encS 0x07 f :: []
  | .mwait f => encS 0x08 f :: []
  | .yield f => encS 0x09 f :: []
  | .refill f => encS 0x0A f :: []
  | .drain f => encS 0x0B f :: []
  | .regroup f => encS 0x0C f :: []
  | .launch f => encS 0x0D f :: []
  | .srd f => encS 0x0E f :: []
  | .swr f => encS 0x0F f :: []
  | .evc f => encS 0x10 f :: []
  | .evcSel f => encS 0x10 f :: []
  | .vhop f => encS 0x11 f :: []
  | .clock f => encS 0x12 f :: []
  | .clockCore f => encS 0x12 f :: []
  | .trap f => encS 0x13 f :: []
  | .trapret f => encS 0x14 f :: []
  | .dbg f => encS 0x15 f :: []
  | .dbgHalt f => encS 0x15 f :: []
  | .br f => encC 0x01 f :: []
  | .brD f => encC 0x02 f :: []
  | .brAny f => encC 0x03 f :: []
  | .brAll f => encC 0x04 f :: []
  | .brNone f => encC 0x05 f :: []
  | .switch f l => encC 0x06 f :: l
  | .call f => encC 0x07 f :: []
  | .callr f => encC 0x08 f :: []
  | .ret f => encC 0x09 f :: []
  | .exit f => encC 0x0A f :: []
  | _ => []

end Sys2Proof
end

