-- ==== Sys2Proof/Machine/Pulse.lean ====
section
/-! DEFINITION. The life of a pulse: the candidate of a crew (R156), crew-uniform clauses (R164), the decoding of the clause
(R288), choosing a ready crew (R128, R129), the word that runs next, and the end of the pulse (R157, R158, R166, R387). -/

namespace Sys2Proof.Machine

/-! ## The clause -/

/-- The source codes that must be of scalar kind where the destination is (R286). -/
def kindSources : Instr → List (BitVec 8)
  | .add f | .sub f | .mul f | .mulhi f | .min f | .max f | .and f | .or f | .xor f | .andn f
  | .shl f | .shr f | .sar f | .rot f | .sel f _ | .lea f | .add64 f | .sub64 f | .mulw f | .fadd f | .fsub f | .fmul f
  | .fmin f | .fmax f | .fdiv f | .fscale f => [f.a, f.b]
  | .mad f lit | .ffma f lit | .dp4 f lit | .dp8 f lit => [f.a, f.b, lit.truncate 8]
  | .abs f | .neg f | .clz f | .popc f | .brev f | .mov f | .frcp f | .frsq f | .fsqrt f | .fexp2 f | .flog2 f | .fsin f
  | .fcos f | .i2f f | .f2i f => [f.a]
  | .bfx f | .bfi f | .ext f | .fround f | .fcvt f | .pk f | .upk f => [f.a]
  | _ => []

/-- CheckLatchKinds of R288: the first word at which a scalar instruction reads a latch of vector kind. `kinds` holds, b0
first, whether each filled position is of vector kind. -/
def latchFault : List (Nat × Option Instr) → List Bool → Option Nat
  | [], _ => none
  | (w, i) :: rest, kinds =>
    match i with
    | none => latchFault rest kinds
    | some i =>
      match pushDest i with
      | none => latchFault rest kinds
      | some d =>
        if isS d && (kindSources i).any (fun x => isLatch x && kinds.getD (x.toNat - 0xE0) false) then some w
        else latchFault rest ((isV d :: kinds).take 4)

/-- The starts of the body words from position w on, up to `last`; none where literal words run past the body (R288). -/
def bodyStarts (cls : Nat) (words : List Word) (last : Nat) : Nat → Nat → Option (List Nat)
  | 0, _ => some []
  | fuel + 1, w =>
    if last < w then some []
    else
      let n := literalCount cls (words.getD w 0)
      if last < w + n then none else (bodyStarts cls words last fuel (w + n + 1)).map (w :: ·)

/-- The literal words of the word at position w of a clause: before a T word, after any other (R279, R284). -/
def litsAt (words : List Word) (cls w : Nat) : List Word :=
  let n := literalCount cls (words.getD w 0)
  if cls = 6 then (words.drop (w - n)).take n else (words.drop (w + 1)).take n

/-- The instruction at position w of a clause decoded in class `cls`. -/
def instrAt (words : List Word) (cls w : Nat) : Option Instr := decodeWord cls (words.getD w 0) (litsAt words cls w)

/-- How the decoding of a clause ends (R288): the starts, or an ILLEGAL reason with the position it names. -/
inductive DecRes where
  | ok (starts : List Nat)
  | illegal (pos reason : Nat)
deriving DecidableEq, Repr

/-- The checks of R288 on the header alone. -/
def headerFault (h : DWord) (hd : Word) : Option Nat :=
  if hdrN hd = 0 then some 1
  else if hdrClass hd = 7 then some 2
  else if hd.extractLsb' 0 16 != 0 then some 3
  else if h.toNat / 64 ≠ (h.toNat + 4 * hdrN hd) / 64 || h.extractLsb' 0 2 != 0 then some 4
  else none

/-- Decode of R288 after the header's own checks, for a pulse that starts at position `at_` (0 for the header). -/
def clauseStarts (words : List Word) (at_ : Nat) : DecRes :=
  let hd := words.headD 0
  let n := hdrN hd
  let cls := hdrClass hd
  let lt := if hdrT hd then literalCount 6 (words.getD n 0) else 0
  let last := if hdrT hd then n - lt - 1 else n
  if hdrT hd && n - 1 < lt then .illegal 0 6
  else if !hdrT hd && cls = 6 then .illegal 0 5
  else if cls = 6 && last ≠ 0 then .illegal 0 5
  else
    match bodyStarts cls words last 16 1 with
    | none => .illegal 0 6
    | some body =>
      let starts := if hdrT hd then body ++ [n] else body
      if at_ ≠ 0 && !starts.contains at_ then .illegal at_ 4
      else
        match latchFault (body.map fun w => (w, instrAt words cls w)) [] with
        | some w => if cls < 2 then .illegal w 9 else .ok starts
        | none => .ok starts

/-- The positions that the loop of R288 reaches in turn. -/
def walkStarts (cls : Nat) (words : List Word) (last : Nat) : Nat → Nat → List Nat
  | 0, _ => []
  | fuel + 1, w => if last < w then [] else w :: walkStarts cls words last fuel (w + literalCount cls (words.getD w 0) + 1)

/-- The positions whose words Decode fetches, in its order, before it has found the starts or the clause illegal (R288). -/
def visited (words : List Word) : List Nat :=
  let hd := words.headD 0
  let n := hdrN hd
  let cls := hdrClass hd
  let lt := if hdrT hd then literalCount 6 (words.getD n 0) else 0
  let last := if hdrT hd then n - lt - 1 else n
  (if hdrT hd then [n] else []) ++
    (if (hdrT hd && n - 1 < lt) || (!hdrT hd && cls = 6) || (cls = 6 && last ≠ 0) then [] else walkStarts cls words last 16 1)

/-- Whether a clause is crew-uniform (R164). -/
def crewUniform (words : List Word) (starts : List Nat) : Bool :=
  let cls := hdrClass (words.headD 0)
  cls = 3 || cls = 4 || (cls = 5 && starts.any fun w =>
    !(hdrT (words.headD 0) && w == hdrN (words.headD 0)) &&
      (match instrAt words cls w with
        | some (.drain _) | some (.regroup _) => true
        | _ => false))

/-! ## The candidate pulse -/

/-- A candidate pulse (R156): the PC, whether its threads carry the resume mark, the threads, whether the yield flags were
all cleared to form it, and whether it holds every runnable thread whose flag was clear. -/
structure Cand where
  pc : DWord
  mark : Bool
  part : LaneSet
  clear : Bool
  whole : Bool
deriving DecidableEq, Repr

/-- The lowest PC of the listed lanes. -/
def Crew.lowPc (c : Crew) (ls : List Nat) : Option DWord := (listMin (ls.map fun l => (c.lane l).pc.toNat)).map (BitVec.ofNat 64)

/-- The candidate pulse of a crew among its LIVE threads (R156). -/
def Crew.candidate (c : Crew) : Option Cand :=
  let r := lanesOf (c.inState .live)
  let calm := r.filter fun l => !(c.lane l).yld
  let clear := calm.isEmpty
  let from_ := if clear then r else calm
  match c.lowPc from_ with
  | none => none
  | some pc =>
    let a := from_.filter fun l => (c.lane l).pc == pc
    let marked := a.filter fun l => (c.lane l).mark
    let p := if marked.isEmpty then a else marked
    some { pc, mark := !marked.isEmpty, part := laneSet p, clear, whole := p.length = from_.length }

/-- The PC of a host halt's or a step's report (R387). -/
def Crew.reportPc (c : Crew) : DWord :=
  match c.candidate with
  | some x => x.pc
  | none => (c.lowPc (lanesOf c.present)).getD 0

/-- The lanes that help a participant set (R165): VACANT or EXITED, in a quad with a lane of it. -/
def Crew.helpersOf (c : Crew) (part : LaneSet) : LaneSet :=
  let quads := (lanesOf part).map (· / 4)
  laneSet ((lanesOf (c.inState .vacant ||| c.inState .exited)).filter fun l => quads.contains (l / 4))

/-! ## The end of a pulse -/

/-- The new PC, mark and yield flag of a lane at the end of a pulse (R157, R158, R290). -/
def endLane (p : Pulse) (l : Nat) (x : Lane) : Lane :=
  let x := if p.whole then { x with yld := false } else x
  let x := if p.yields.getLsbD l then { x with yld := true } else x
  if !p.part.getLsbD l then x
  else if p.exits.getLsbD l then { x with st := .exited, mark := false, wpSkip := false }
  else
    match p.targets.find? (·.1 == l) with
    | some (_, t) => { x with pc := t, mark := false, wpSkip := false, yld := x.yld || (hdrY p.hd && t.toNat ≤ p.hdr.toNat) }
    | none => { x with pc := p.nextPc, mark := false, wpSkip := false }

/-- The report at the end of a pulse (R387, R388): of a debug cause, else of a step, else of the host's halt. -/
def State.endReport (s : State) (p : Pulse) : State :=
  let k := p.crew
  let c := s.crew k
  match p.debugStop with
  | some (cause, tid, pc, addr) => s.report k cause tid pc addr p.p0 c.present
  | none =>
    if p.step then s.report k 0x0F 0 c.reportPc 0 p.p0 c.present
    else if p.hostHalt then s.report k 0x00 0 c.reportPc 0 0 c.present
    else s

/-- The debug side of the end of a pulse (R386 to R388): the crew halts, and its report is written. -/
def State.endDebug (s : State) (p : Pulse) : State :=
  let s := if p.halt || p.hostHalt || p.step || p.debugStop.isSome then
      s.modCrew p.crew fun c => { c with halted := true, stepping := false } else s
  s.endReport p

/-- What exits leave to check in replay (R261). -/
def State.exitLeftovers (s : State) (k : Nat) (ls : List Nat) : State :=
  match s.grid (s.crew k).grid with
  | some g =>
    if g.lr.replay then
      ls.foldl (fun s l =>
        let item := ((s.crew k).lane l).item.toNat
        s.leftover (ctxOf k) (fun e => e.grid = g.det % 4096 && 4 ≤ e.kind && e.item = item) (crewInfo k l 0)
          (s.crew k).pendingAtoms) s
    else s
  | none => s

/-- A crew without threads ends, unless an implicit refill is due (R166, R168). -/
def State.emptyCrew (s : State) (k : Nat) : State :=
  let c := s.crew k
  if c.alive && !c.ending && c.noThreads && c.refill.isNone then s.endCrew k else s

/-- The end of a pulse. A crew that the pulse has ended writes its report too: no thread of it is present (R387, R388). -/
def State.endPulse (s : State) (p : Pulse) : State :=
  let s := { s with cur := none }
  let k := p.crew
  if !(s.crew k).alive then s.endReport p
  else
    let gone := lanesOf (p.exits &&& p.part)
    let s := s.modCrew k fun c =>
      (List.range 64).foldl (fun c l => c.modLane l (endLane p l)) { c with status := c.status ||| p.flags.setWidth 32 }
    if p.drain then (s.endCrew k).endReport p
    else
      let s := if gone.isEmpty then s else (s.exitLeftovers k gone).barriers (s.crew k).block
      ((s.endDebug p).emptyCrew k).markIdle k

/-- After a word: the pulse is held, ends, or goes on. -/
def State.advance (s : State) : State :=
  match s.cur with
  | none => s
  | some p =>
    if p.hold.isSome then
      ({ s with cur := none }).modCrew p.crew fun c => { c with held := some { p with todo := p.pos :: p.todo } }
    else if p.part == 0 || p.todo.isEmpty then s.endPulse p
    else s

/-! ## Issue -/

/-- Whether what a held pulse waits for has come (R150, R177, R178, R183, R238, R355, R391, R404). -/
def State.holdOver (s : State) (k : Nat) (p : Pulse) : Bool :=
  let c := s.crew k
  let lc := lcOf k
  match p.hold with
  | none => true
  | some (.counter n) => sget 0 c.lcs n < 63
  | some .atoms => !c.atomsBlock p
  | some (.granules gs) => gs.all (s.lcore lc).isFull
  | some (.take gs n) => gs.all (s.lcore lc).isFull && !s.earlierTake lc gs n
  | some (.engine e) => s.engineRoom lc e
  | some (.ecIdle e) => ((s.lcore lc).ec e).count == ((s.lcore lc).ec e).issued
  | some (.matrix gs) => !s.mtxBusy k gs
  | some (.unit ser) => !(c.queue.any (·.ser == ser)) && !(s.homeQ.any fun h => h.crew == k && h.e.ser == ser)
  | some .replay => true
  | some .drained => !s.queueHeld k
  | some (.exchange ps) => !ps.any s.swapping

/-- An issue counts as progress and in the event counters (R139, R382). -/
def State.countIssue (s : State) (k : Nat) (part : LaneSet) : State :=
  let site := s.siteOf (lcOf k)
  let s := s.modCrew k fun c => { c with lastIssue := s.cycles, idleSince := none }
  ((s.countEvt site 2 1).countEvt site 3 (lanesOf part).length).progress (ctxOf k)

/-- A pulse without words for causes that its decoding raises: the address and the word they are found at (R288, R289). -/
def bareParticipants (k : Nat) (x : Cand) (h : DWord) (hd : Word) (step : Bool) : Pulse :=
  { crew := k, hdr := h, words := [hd], todo := [], p0 := x.part, part := x.part, whole := x.whole, step }

/-- Every thread of the candidate takes one cause before any word runs, and the pulse ends (R289). -/
def State.decodeCause (s : State) (k : Nat) (x : Cand) (h : DWord) (hd : Word) (word : Word) (pc : DWord) (c : Cause) (faddr : DWord) :
    State :=
  let p := bareParticipants k x h hd (s.crew k).stepping
  let s := (s.countIssue k x.part).deliver p word (hd.extractLsb' 25 3) pc
    ((lanesOf x.part).map fun l => { lane := l, cause := c, faddr })
  s.endPulse (s.cur.getD p)

/-- The threads of a candidate park because the page of their code is not present (R162, R412); their marks stay. -/
def State.parkFetch (s : State) (k : Nat) (x : Cand) (key : Nat × Bool) : State :=
  let site := s.siteOf (lcOf k)
  let s := s.countEvt site 7 (lanesOf x.part).length
  ((s.markIdle k).modCrew k fun c => (lanesOf x.part).foldl (fun c l =>
    c.modLane l fun y => { parkLane key x.pc y with mark := x.mark }) c).markIdle k

/-- A failed fetch for the threads of a candidate (R291, R412): the address fetched, and how it failed. -/
def State.fetchFails (s : State) (k : Nat) (x : Cand) (a : DWord) (f : FetchRes) : State :=
  let n := ctxOf k
  match f with
  | .ok _ | .wait => s
  | .absent va lvl =>
    let r := faultRecOf k (lowLane x.part) a x.pc va lvl .fetch
    (s.joinRecord n r).parkFetch k x (r.va, r.write)
  | .ats d => (s.openFor n none (some (d, faultRecOf k (lowLane x.part) a x.pc a.toNat 0 .fetch))).parkFetch k x (atsKey d)
  | .fail c d => s.decodeCause k x x.pc 0 0 (if c = .poison then a else x.pc) c d

/-- The candidate of a crew meets a failed fetch: it is not ready while the frame is exchanged (R225). -/
def State.notFetched (s : State) (k : Nat) (x : Cand) (a : DWord) (f : FetchRes) : Option State :=
  match f with
  | .wait => none
  | _ => some (s.fetchFails k x a f)

/-- The word at position w of the clause at h, zero where it cannot be fetched, and the failed fetch. -/
def State.fetchAt (s : State) (n : Nat) (h : DWord) (v : Option CodeSnap) (w : Nat) : Word × Option (DWord × FetchRes) :=
  let a := h + BitVec.ofNat 64 (4 * w)
  match s.fetch n a v with
  | .ok x => (x, none)
  | f => (0, some (a, f))

/-- The pulse of a candidate over its decoded clause, and its start (R156 to R158, R287): the bypass latches are undefined
at a clause start; marked threads keep theirs. `refilled` says that the clause holds a refill before the words still to run (R368). -/
def State.startPulse (s : State) (k : Nat) (x : Cand) (h : DWord) (words : List Word) (todo : List Nat) (refilled : Bool := false) : State :=
  let helpers := (s.crew k).helpersOf x.part
  let fresh := if x.mark then helpers else x.part ||| helpers
  let s := s.modCrew k fun c => { c with lat := ssetAll [] c.lat (lanesOf fresh) [] }
  let p : Pulse := { crew := k, hdr := h, words, todo, p0 := x.part, part := x.part, helpers, whole := x.whole
                     step := (s.crew k).stepping, refilled }
  { (s.countIssue k x.part).cacheFetch (ctxOf k) h with cur := some p }

/-- What the rules of R164 decide for a crew-uniform clause. -/
inductive Uniform where
  | go (x : Cand)
  | wait
  | iconv (x : Cand)
deriving DecidableEq, Repr

/-- The rules of R164. -/
def Crew.uniform (c : Crew) (x : Cand) : Uniform :=
  let joined := (lanesOf (c.inState .live)).filter fun l => (c.lane l).pc == x.pc && (c.lane l).mark == x.mark
  let others := (lanesOf c.present).filter fun l => !joined.contains l
  let y := { x with part := laneSet joined, whole := x.whole || others.isEmpty }
  if others.isEmpty then .go y
  else if others.all fun l =>
      let z := c.lane l
      z.st == .parked || (z.st == .blocked && z.pc == x.pc) then .wait
  else .iconv y

/-- Try to issue the candidate pulse of a crew at a clause whose words have been fetched; `none`: the crew is not ready. `missing`
names what could not be fetched: a literal word is reached when the starts are known, before the latches are looked at (R288). -/
def State.tryClause (s : State) (k : Nat) (x : Cand) (h : DWord) (words : List Word) (missing : Option (DWord × FetchRes)) : Option State :=
  let hd := words.headD 0
  let c := s.crew k
  let at_ := if (x.pc - h).extractLsb' 0 2 != 0 then 16 else (x.pc - h).toNat / 4
  let stop := fun (pos reason : Nat) =>
    some (s.decodeCause k x h hd (words.getD pos hd) (if pos = 16 then x.pc else h + BitVec.ofNat 64 (4 * pos)) (.illegal reason) 0)
  match clauseStarts words at_, missing with
  | .illegal pos 9, none => stop pos 9
  | .illegal _ 9, some (a, f) | .ok _, some (a, f) => s.notFetched k x a f
  | .illegal pos reason, _ => stop pos reason
  | .ok starts, none =>
    let todo := starts.filter fun w => (x.pc - h).toNat / 4 ≤ w
    let refilled := starts.any fun w => decide (w < (x.pc - h).toNat / 4) && (instrAt words (hdrClass hd) w).any isRefill
    if !crewUniform words starts then some (s.startPulse k x h words todo refilled)
    else
      match c.uniform x with
      | .go y => some (s.startPulse k y h words todo refilled)
      | .wait => none
      | .iconv y => some (s.decodeCause k y h hd hd x.pc .iconv 0)

/-- Whether the wait field and the E bit of a header let the clause start (R150, R156). -/
def Crew.headerReady (c : Crew) (hd : Word) : Bool :=
  (hdrWait hd).all (fun n => sget 0 c.lcs n == 0) && (!hdrE hd || c.unaccepted == 0)

/-- Try to issue the candidate pulse of a crew (R156, R164, R288, R290); `none`: the crew is not ready. -/
def State.tryCand (s : State) (k : Nat) (x : Cand) : Option State :=
  let n := ctxOf k
  let v := (s.crew k).code
  match (if x.mark then s.headerOf n x.pc v else .at x.pc) with
  | .illegal =>
    let w := match s.fetch n x.pc v with
      | .ok w => w
      | _ => s.free 590
    some (s.decodeCause k x x.pc w w x.pc (.illegal 4) 0)
  | .stop q f => s.notFetched k x q f
  | .at h =>
    match s.fetch n h v with
    | .ok hd =>
      if !(s.crew k).headerReady hd then none
      else
        (match headerFault h hd with
          | some r => some (s.decodeCause k x h hd hd h (.illegal r) 0)
          | none =>
            let got := (List.range (hdrN hd + 1)).map (s.fetchAt n h v)
            let words := got.map (·.1)
            match (visited words).findSome? fun w => (s.fetchAt n h v w).2 with
            | some (a, f) => s.notFetched k x a f
            | none => s.tryClause k x h words (got.findSome? (·.2)))
    | f => s.notFetched k x h f

/-- Whether a crew's pulse stands at an append whose units are on their way (R227): it goes on to its clause's end even
when the crew is to leave its site (R132). -/
def Crew.unitHeld (c : Crew) : Bool :=
  match c.held with
  | some p => p.unit.isSome
  | none => false

/-- Whether a crew may issue: it is on its site and not leaving it (R132). -/
def Crew.mayIssue (c : Crew) : Bool :=
  match c.res with
  | .resident => true
  | .leaving _ => c.unitHeld
  | _ => false

/-- Whether a crew has an issue opportunity: it runs on its site, and no lane of its partition is being remapped (R30). -/
def State.mayTry (s : State) (k : Nat) : Bool :=
  let c := s.crew k
  c.alive && !c.ending && !c.stuck && c.mayIssue && ((s.ctx (ctxOf k)).st == .on || c.unitHeld) && (!c.halted || c.stepping) &&
    !s.remapping (lcOf k) (slotOf k % 4)

/-- The candidate of a crew with an issue opportunity is formed: the yield flags are cleared where every runnable thread has its flag
set, whether the crew then proves ready or not (R156). -/
def State.formed (s : State) (k : Nat) : State :=
  if s.mayTry k && (s.crew k).held.isNone then
    match (s.crew k).candidate with
    | some x => if x.clear then s.modCrew k fun c => (List.range 64).foldl (fun c l => c.modLane l fun y => { y with yld := false }) c else s
    | none => s
  else s

/-- Try to issue a crew: its held pulse goes on at the word it stands at, or its candidate pulse is issued. -/
def State.tryCrew (s : State) (k : Nat) : Option State :=
  let c := s.crew k
  if !s.mayTry k then none
  else
    match c.held with
    | some p =>
      if s.holdOver k p then
        some { s.setCrew k { c with held := none } with cur := some { p with hold := none, step := c.stepping } }
      else none
    | none => match c.candidate with
      | some x =>
        let q := if x.mark then BitVec.ofNat 64 (x.pc.toNat / 64 * 64) else x.pc
        (s.tryCand k x).map fun t => t.sawCode s k (s.walkWords (ctxOf k) x.pc c.code 16 q)
      | none => none

/-- The core clock in MHz (R13). -/
def State.coreMhz (s : State) : Nat := [2200, 2000, 1600, 1200, 800].getD s.health.cur.toNat 800

/-- The effective priority of a crew (R115). -/
def State.crewPrio (s : State) (k : Nat) : Nat := ((s.grid (s.crew k).grid).map (·.prio)).getD 0

/-- Crews of a partition in the order in which issue looks at them (R128, R129): those not issued for 65,536 cycles, then
by priority, then by age. -/
def State.issueOrder (s : State) (site part : Nat) : List Nat :=
  match (s.site site).bound with
  | none => []
  | some lc =>
    let ks := s.crews.filterMap fun (k, c) => if c.alive && lcOf k == lc && slotOf k % 4 == part then some k else none
    let aged := sortBy (fun k => (s.crew k).stamp) ks
    let starved := aged.filter fun k => 65536 ≤ s.cycles - (s.crew k).lastIssue
    starved ++ sortBy (fun k => 7 - s.crewPrio k) (aged.filter fun k => !starved.contains k)

/-- Issue the first crew of a list that is ready. -/
def State.issueFirst (s : State) : List Nat → State
  | [] => s
  | k :: ks =>
    let s := s.formed k
    match s.tryCrew k with
    | some s' => s'
    | none => s.issueFirst ks

/-- ISSUE_PULSE (R128, R129, R156): the partition m of site n. A thermal trip stops issue (R23). -/
def execIssuePulse (s : State) : Out :=
  .next (if s.dev.st ≠ .run || !s.clocked then s else s.issueFirst (s.issueOrder s.subj.n s.subj.m))

/-! ## The word that runs -/

/-- The pulse moves to its next word (R288). -/
def State.nextWord (s : State) (p : Pulse) : State :=
  match p.todo with
  | [] => s
  | w :: rest => { s with cur := some { p with pos := w, todo := rest, hold := none } }

/-- The instruction of the word that runs, with its literal words. -/
def Pulse.instr (p : Pulse) : Option Instr := instrAt p.words (p.clsAt p.pos) p.pos

end Sys2Proof.Machine
end

