-- ==== Sys2Proof/Machine/Time.lean ====
section
/-! DEFINITION. The passing of reference ticks (R16, R139, R382, R383): the tick counter, the core cycles, the watchdogs. -/

namespace Sys2Proof.Machine

/-- Core cycles in one reference tick: none while the core clock is gated (R13, R15, R16). -/
def State.cyclesPerTick (s : State) : Nat := if s.clocked then s.coreMhz / 100 else 0

/-- Crews of a context that are on a site (R139). -/
def State.residentCrews (s : State) (n : Nat) : List Nat :=
  s.crews.filterMap fun (k, c) =>
    if c.alive && ctxOf k == n && (match c.res with
      | .resident | .leaving _ => true
      | _ => false) then some k else none

/-- Whether a thread of a context waits externally (R58, R139). -/
def State.waitsOutside (s : State) (n : Nat) : Bool :=
  s.crews.any fun (k, c) => c.alive && ctxOf k == n &&
    c.lanes.any fun (_, l) => l.st == .blocked && l.extSince.isSome

/-- Whether the watchdog of a context advances (R139). -/
def State.wdogRuns (s : State) (n : Nat) : Bool :=
  !(s.residentCrews n).isEmpty && !s.waitsOutside n &&
    !(s.crews.any fun (k, c) => c.alive && ctxOf k == n && c.halted)

/-- The watchdogs of the listed contexts advance. -/
def State.wdogTicks (s : State) (n : Nat) : List Nat → State
  | [] => s
  | c :: cs => (if s.wdogRuns c then s.modCtx c fun x => { x with wdog := x.wdog + n } else s).wdogTicks n cs

/-- The cycle counters of a site (source 1 of R382). -/
def Site.addCycles (x : Site) (n : Nat) : Site :=
  { x with evCnt := (List.range 16).foldl (fun m k =>
      if (sget 0 x.evSel k).toNat = 1 then sset 0 m k (sget 0 m k + BitVec.ofNat 64 n) else m) x.evCnt }

/-- n reference ticks pass. -/
def State.ticks (s : State) (n : Nat) : State :=
  if n = 0 then s
  else
    let c := n * s.cyclesPerTick
    let s := s.wdogTicks n (s.ctxs.map (·.1))
    let s := if c = 0 then s else { s with sites := s.sites.map fun (x : Nat × Site) => (x.1, x.2.addCycles c) }
    { s with tick := s.tick + n, cycles := s.cycles + c }

end Sys2Proof.Machine
end

