-- ==== Sys2Proof/Machine/Returns.lean ====
section
/-! DEFINITION. Events of crews outside their pulses: loads, stores, atomics, appends and seals reaching their places (R150,
R227, R229, R238, R247, R251), matrix instructions completing (R390), the implicit refill (R168), the ends of waits (R373,
R374), the watchdog (R139), external-wait reports (R140) and the host's debug control (R388). An event that finds nothing to
do has no effect (log entry 1). -/

namespace Sys2Proof.Machine

/-- LOAD_RETURN (R150): load m in flight of crew n returns. -/
def execLoadReturn (s : State) : Out := 
  .next (if s.clocked then (s.loadArrive s.subj.n s.subj.m).settleEnd s.subj.n else s)

/-- STORE_QUEUE_DRAIN (R238): the oldest entry of the store queue of crew n leaves it. -/
def execStoreQueueDrain (s : State) : Out := 
  .next (if s.clocked then (s.drainOne s.subj.n).settleEnd s.subj.n else s)

/-- Whether the pending operation of a crew that is performed next is one on an exact record. -/
def State.exactNext (s : State) (k : Nat) : Option Bool :=
  (s.nextAtom k).bind fun i => (s.crew k).atoms[i]?.map (·.op.exact)

/-- ATOMIC_PERFORM (R247): the next pending atomic or reduction of crew n is performed. -/
def execAtomicPerform (s : State) : Out :=
  .next (if s.clocked && s.exactNext s.subj.n = some false then (s.atomOne s.subj.n).settleEnd s.subj.n else s)

/-- EXACT_ADD_PERFORM (R251, R252): the next pending exact operation of crew n is performed. -/
def execExactAddPerform (s : State) : Out :=
  .next (if s.clocked && s.exactNext s.subj.n = some true then (s.atomOne s.subj.n).settleEnd s.subj.n else s)

/-- Whether the next request of a crew at the home slices is an append. -/
def State.homeNext (s : State) (k : Nat) : Option Bool :=
  (s.homeQ.find? (·.crew == k)).map fun h => match h.e.op with
    | .append _ _ _ _ _ => true
    | _ => false

/-- The next request of a crew at the home slices is performed. -/
def State.homeOne (s : State) (k : Nat) : State := (s.homeArrive (s.homeQ.findIdx (·.crew == k))).settleEnd k

/-- APPEND_UNIT (R227): the next append unit of crew n is placed or refused. -/
def execAppendUnit (s : State) : Out :=
  .next (if s.clocked && s.homeNext s.subj.n = some true then s.homeOne s.subj.n else s)

/-- SEAL_ARRIVE (R229): the next seal of crew n is performed. -/
def execSealArrive (s : State) : Out :=
  .next (if s.clocked && s.homeNext s.subj.n = some false then s.homeOne s.subj.n else s)

/-- MATRIX_COMPLETE (R390): the oldest matrix instruction of partition m of logical core n completes, unless retests of the
unit come first (R142). -/
def execMatrixComplete (s : State) : Out :=
  .next (if s.clocked then s.mtxOne s.subj.n s.subj.m else s)

/-- IMPLICIT_REFILL (R168): crew n has no thread left and refills at its last declared point; left without an item, it ends. -/
def execImplicitRefill (s : State) : Out :=
  let k := s.subj.n
  let c := s.crew k
  .next (match c.refill with
    | some (first, n, cont) =>
      if s.clocked && c.alive && !c.ending && c.noThreads && !c.halted && c.res == .resident && c.held.isNone && (s.ctx (ctxOf k)).st == .on then
        let s := (s.refillCrew k first n cont).refreshGrid c.grid
        if (s.crew k).noThreads && !(s.crew k).stuck then s.endCrew k else s
      else s
    | none => s)

/-! ## Waits -/

/-- Causes that an evaluation of a waitc raises in blocked threads (R373): they are taken at the waitc word. -/
def State.waitTaken (s : State) (k : Nat) (peers : List Nat) (t : Taken) : State :=
  let r := s.recOf k
  let c := s.crew k
  let low := peers.headD 0
  let x := c.lane low
  match t.cause.group r x.inTrap (s.feature 12) with
  | .fatal => s.contextFault (ctxOf k) (threadFault k { t with lane := low } x.waitPc)
  | .park =>
    s.modCrew k fun c => peers.foldl (fun c l => c.modLane l fun x =>
      { parkLane t.park x.waitPc (wakeLane x) with
        wpSkip := x.wpSkip
        remain := match x.wait with
          | some (.waitc _ _ (some due) _ _ _) => some (due - s.tick)
          | _ => none }) c
  | .user =>
    s.modCrew k fun c => peers.foldl (fun c l => c.modLane l fun x =>
      trapEntry { t with lane := l } x.waitWord 5 x.waitPc r.trappc (wakeLane x)) c
  | .debug =>
    let s := s.modCrew k fun c => { (peers.foldl (fun c l => c.modLane l fun x =>
      { wakeLane x with pc := x.waitPc, mark := true, wpSkip := true }) c) with halted := true }
    (s.report k (BitVec.ofNat 8 t.cause.code) (BitVec.ofNat 6 low) x.waitPc t.addr 0 (s.crew k).present).markIdle k

/-- A blocked waitc is evaluated again (R373): the thread and those that share its outcome wake, take a cause or stay. -/
def State.waitAgain (s : State) (k l : Nat) : State :=
  let x := (s.crew k).lane l
  match x.wait with
  | some (.waitc all conds due dest scalar peers) =>
    let timed := match due with
      | some d => decide (d ≤ s.tick)
      | none => false
    let ls := lanesOf peers
    if s.condsHeld k l x.waitPc conds then s
    else (match s.evalConds k l x.waitPc conds with
      | (some (t, r, a), _, _) => ((s.openFor (ctxOf k) r a).countParks k (ls.map fun j => { t with lane := j })).waitTaken k ls t
      | (none, ext, cs) =>
        let s := s.cacheHits (ctxOf k) (s.condHits k l x.waitPc conds)
        match s.waitDecide k l x.waitPc all due.isSome timed cs with
        | .done s o =>
          let s := s.putDest k dest [(l, BitVec.ofNat 32 o)]
          s.modCrew k fun c => ls.foldl (fun c j => c.modLane j wakeLane) c
        | .stop s => s
        | .stay =>
          s.modCrew k fun c => ls.foldl (fun c j => c.modLane j fun y =>
            { y with wait := some (.waitc all cs due dest scalar peers)
                     extSince := if ext then some (y.extSince.getD s.tick) else none
                     extTold := ext && y.extTold }) c)
  | _ => s

/-- Whether threads of a crew may wake where they are: it is on its site and its context is not stopping (R132, R135). -/
def State.awake (s : State) (k : Nat) : Bool :=
  (s.crew k).alive && (s.crew k).res == .resident && (s.ctx (ctxOf k)).st == .on

/-- The blocked lane of a crew, if events may reach it. -/
def State.blockedLane (s : State) (k l : Nat) : Option Lane :=
  if s.awake k && ((s.crew k).lane l).st == .blocked then some ((s.crew k).lane l) else none

/-- WAITC_WAKE (R373): the waitc of lane m of crew n is evaluated again. -/
def execWaitcWake (s : State) : Out :=
  .next (if s.clocked && (s.blockedLane s.subj.n s.subj.m).isSome then s.waitAgain s.subj.n s.subj.m else s)

/-- Whether the timeout of a wait has expired. -/
def State.expired (s : State) (x : Lane) : Bool :=
  match x.wait with
  | some (.waitc _ _ (some d) _ _ _) => decide (d ≤ s.tick)
  | _ => false

/-- WAITC_TIMEOUT (R373): the timeout of the waitc of lane m of crew n has expired. -/
def execWaitcTimeout (s : State) : Out :=
  .next (match s.blockedLane s.subj.n s.subj.m with
    | some x => if s.clocked && s.expired x then s.waitAgain s.subj.n s.subj.m else s
    | none => s)

/-- A thread leaves its mwait; the watch is disarmed (R374). -/
def wakeWatch (x : Lane) : Lane := { wakeLane x with watch := none }

/-- MWAIT_WAKE (R374): the watched line of lane m of crew n has been written. -/
def execMwaitWake (s : State) : Out :=
  .next (match s.blockedLane s.subj.n s.subj.m with
    | some x =>
      (match x.wait, x.watch with
        | some .mwait, some w => if s.clocked && s.watched w then s.modLane s.subj.n s.subj.m wakeWatch else s
        | _, _ => s)
    | none => s)

/-- MWAIT_WAKE_OTHER_REASON (R374): an implementation may wake the thread for other reasons. -/
def execMwaitWakeOtherReason (s : State) : Out :=
  .next (match s.blockedLane s.subj.n s.subj.m with
    | some x => if s.clocked && decide (x.wait = some .mwait) then s.modLane s.subj.n s.subj.m wakeWatch else s
    | none => s)

/-! ## Watchdog and reports -/

/-- Reference ticks in a millisecond. -/
def ticksPerMs : Nat := 100000

/-- The oldest crew of a context that is on a site (R139). -/
def State.oldestCrew (s : State) (n : Nat) : Option Nat :=
  (sortBy (fun k => (s.crew k).stamp) (s.residentCrews n)).head?

/-- WATCHDOG_EXPIRY (R139): the watchdog of context n has reached its limit. -/
def execWatchdogExpiry (s : State) : Out :=
  let n := s.subj.n
  let c := s.ctx n
  let limit := (if c.wdogLimit = 0 then 100 else c.wdogLimit.toNat) * ticksPerMs
  .next (if limit ≤ c.wdog then
      (match s.oldestCrew n with
        | some k => s.contextFault n { cause := 0x11, lcore := BitVec.ofNat 7 (lcNum k), crew := BitVec.ofNat 8 (slotOf k) }
        | none => s)
    else s)

/-- Whether a MEM condition waits on an external word (R58). -/
def State.extCond (s : State) (k l : Nat) (pc : DWord) (c : Cond) : Bool :=
  !c.sat && c.kind = 2 && (match s.access k l pc c.p 4 4 .read with
    | .ok h => s.external h.pl
    | _ => false)

/-- The address that a report of an external wait names (R137). -/
def State.extAddrOf (s : State) (k l : Nat) (x : Lane) : DWord :=
  match x.wait with
  | some (.waitc _ conds _ _ _ _) => ((conds.find? (s.extCond k l x.waitPc)).map (·.p)).getD 0
  | _ => (x.watch.map (·.ea)).getD 0

/-- Send the context's fault vector, if it is enabled (R100, R102, R140). -/
def State.sendFvec (s : State) (n : Nat) : State :=
  let v := (s.ctx n).fvec
  if v.getLsbD 7 then s.sendVec (v.extractLsb' 0 7).toNat else s

/-- EXTERNAL_WAIT_REPORT (R137, R140): lane m of crew n has stayed in one external wait for EXTLIM ms. -/
def execExternalWaitReport (s : State) : Out :=
  let k := s.subj.n
  let l := s.subj.m
  let n := ctxOf k
  let x := (s.crew k).lane l
  .next (match x.extSince with
    | none => s
    | some t =>
      if x.st ≠ .blocked || x.extTold || (s.ctx n).extlim = 0 || s.tick < t + (s.ctx n).extlim.toNat * ticksPerMs then s
      else
        let c := s.ctx n
        let cnt := c.extcnt + 1
        let loc : Word := BitVec.ofNat 32 (lcNum k + 256 * slotOf k + 65536 * l)
        let addr := s.extAddrOf k l x
        let s := s.setCtx n { c with extcnt := cnt, extloc := loc, extaddr := addr }
        let s := s.devWrite 0 (c.savebase.toNat + 0x20)
          (natToBytes 4 cnt.toNat ++ natToBytes 4 loc.toNat ++ natToBytes 8 addr.toNat)
        (s.modLane k l fun y => { y with extTold := true }).sendFvec n)

/-! ## Debug control -/

/-- Halt a crew at its next clause boundary (R388). -/
def State.hostHalt (s : State) (k : Nat) : State :=
  let c := s.crew k
  if c.halted then s
  else
    match c.held with
    | some p => s.setCrew k { c with held := some { p with hostHalt := true } }
    | none =>
      let t := (s.markIdle k).modCrew k fun c => { c with halted := true }
      (t.report k 0x00 0 c.reportPc 0 0 c.present).markIdle k

/-- A write of DBGCTL (R94, R100, R388): one that names no live crew is ignored. -/
def State.dbgctl (s : State) (n : Nat) (v : BitVec 32) : State :=
  if !s.feature 12 then s
  else
    let lc : BitVec 7 := v.extractLsb' 4 7
    let slot : BitVec 8 := v.extractLsb' 16 8
    let k := crewKey n lc.toNat slot.toNat
    let c := s.crew k
    if !c.alive || c.ending then s
    else
      let s := s.modCtx n fun c => { c with dbgLcore := lc, dbgCrew := slot }
      match v.getLsbD 0, v.getLsbD 1, v.getLsbD 2 with
      | true, false, false => s.hostHalt k
      | false, true, false =>
        (s.setCrew k { c with halted := false, stepping := false, code := some s.codeSnap
                              held := c.held.map fun p => { p with hostHalt := false, step := false } }).markIdle k
      | false, false, true =>
        if c.halted then (s.setCrew k { c with stepping := true, code := some s.codeSnap }).markIdle k
        else s.setCrew k { c with code := some s.codeSnap }
      | _, _, _ => s

/-- DBGCTL_HALT (R388). -/
def execDbgctlHalt (n : Nat) (v : BitVec 32) (s : State) : Out := .next (if v.getLsbD 0 then s.dbgctl n v else s)
/-- DBGCTL_RESUME (R388). -/
def execDbgctlResume (n : Nat) (v : BitVec 32) (s : State) : Out := .next (if v.getLsbD 1 then s.dbgctl n v else s)
/-- DBGCTL_STEP (R388). -/
def execDbgctlStep (n : Nat) (v : BitVec 32) (s : State) : Out := .next (if v.getLsbD 2 then s.dbgctl n v else s)

end Sys2Proof.Machine
end

