-- ==== Sys2Proof/Machine/Save.lean ====
section
/-! DEFINITION. Pre-emption (R130 to R135): groups, evictions, level-1 swaps, saving a crew and a group, coming back to a
site, restoring a group. -/

namespace Sys2Proof.Machine

/-! ## Groups -/

/-- The crews of a group. -/
def State.groupCrews (s : State) (lcs : List Nat) : List Nat := lcs.flatMap s.crewsOf

/-- The effective priority of a group: the highest of its crews' (R115). -/
def State.groupPrio (s : State) (lcs : List Nat) : Nat := (s.groupCrews lcs).foldl (fun p k => max p (s.crewPrio k)) 0

/-- Bound logical cores of a context. -/
def State.boundCores (s : State) (n : Nat) : List Nat :=
  s.lcs.filterMap fun (k, c) => if k / 128 == n && c.site.isSome then some k else none

/-! ## Guest queues -/

/-- PREEMPT for a RUN queue (R84). -/
def State.preemptQueue (s : State) (q : Nat) : State :=
  let g := s.gq q
  if g.st = .run && g.asked.isNone then
    (s.modGq q fun g => { g with asked := some (s.tick, false) }).toGuest (guestMsg 0x02 (BitVec.ofNat 4 q))
  else s

/-- PREEMPT for the queues that satisfy a predicate. -/
def State.preemptQueues (s : State) (ok : GuestQ → Bool) : State :=
  ((List.range 16).filter fun q => (s.gq q).en && ok (s.gq q)).foldl State.preemptQueue s

/-- Whether a queue has stopped (R84): the image is incomplete until it is STOPPED, HALTED or fenced. -/
def GuestQ.still (g : GuestQ) : Bool := g.st != .run

/-- RESUME for a stopped queue (R87). -/
def State.resumeQueue (s : State) (q : Nat) : State :=
  (s.modGq q fun g => { g with st := .run, asked := none }).toGuest
    (guestMsg 0x03 (BitVec.ofNat 4 q) (BitVec.ofNat 64 (s.gq q).widx))

/-- RESUME for the stopped queues that satisfy a predicate (R87). -/
def State.resumeQueues (s : State) (ok : GuestQ → Bool) : State :=
  ((List.range 16).filter fun q => (s.gq q).st == .stopped && ok (s.gq q)).foldl State.resumeQueue s

/-! ## Saving -/

/-- A pulse held at a word ends there (R132, R178): its threads stand at that word, with the resume mark. -/
def State.breakHeld (s : State) (k : Nat) : State :=
  match (s.crew k).held with
  | none => s
  | some p =>
    let s := s.modCrew k fun c =>
      let c := { c with held := none, status := c.status ||| p.flags.setWidth 32 }
      (List.range 64).foldl (fun c l => c.modLane l fun x =>
        let x := if p.yields.getLsbD l then { x with yld := true } else x
        if p.part.getLsbD l then { x with pc := p.pc, mark := true } else x) c
    s.endDebug p

/-- What a crew does before it is saved (R132): its held pulse ends, its matrix instructions, loads and stores complete. -/
def State.stopCrew (s : State) (k : Nat) : State :=
  let s := ((s.breakHeld k).completeMtx k).quiesce k
  s.cleanDie (s.dieOf k)

/-- Whether the home slices hold accesses to the slot of a logical core or to the header of its context's image (R53, R225). -/
def State.slotHeld (s : State) (lc : Nat) : Bool :=
  s.rangeHeld (s.slotBase lc) 0x1000000 || s.rangeHeld (s.ctx (lc / 128)).savebase.toNat 4096

/-- Whether all of a group's crews have been saved, nothing of its engines and queues is on its way, and its slots can be written (R84,
R132, R202, R225). -/
def State.groupStill (s : State) (lcs : List Nat) : Bool :=
  !lcs.any s.slotHeld &&
  ((s.groupCrews lcs).all fun k => match (s.crew k).res with
    | .swapped | .saved => true
    | _ => false) &&
  lcs.all fun lc =>
    !(s.merges.any fun m => m.joined.any (·.1 == lc)) &&
    !(s.adit.gqs.any fun (_, g) => (g.bound.map (·.1)) == some lc && !g.still)

/-- A group leaves its sites (R130): the slots of its logical cores are written last. -/
def State.saveGroup (s : State) (lcs : List Nat) : State :=
  match lcs with
  | [] => s
  | lc0 :: _ =>
    let n := lc0 / 128
    let grids := dedup ((s.groupCrews lcs).map fun k => (s.crew k).grid)
    let gal := galOfSite (s.siteOf lc0)
    let num := (s.ctx n).nextGroup
    let s := s.modCtx n fun c => { c with nextGroup := num + 1, evictions := c.evictions + 1 }
    let s := (s.groupCrews lcs).foldl (fun s k => s.modCrew k fun c => { c with res := .saved }) s
    let s := lcs.foldl (fun s lc =>
      let site := s.siteOf lc
      let s := s.modLcore lc fun c => { c with saved := true, leaving := none, group := num, site := none, lastSite := site, waitSince := none }
      let s := s.modSite site fun x => { x with bound := none }
      s.writeSlot lc 2) s
    let s := grids.foldl (fun s g => s.returnCached g gal) s
    s.writeHeader n

/-- The groups whose eviction is complete leave their sites. -/
def State.settleGroups (s : State) : State :=
  (s.lcs.map (·.1)).foldl (fun s lc =>
    if (s.lcore lc).leaving.isSome && (s.lcore lc).site.isSome then
      let g := s.groupOf lc
      if s.groupStill g then s.saveGroup g else s
    else s) s

/-- Evict a group (R130, R132): its crews stop at their next clause boundaries. `waits` says that it leaves under R135. -/
def State.evict (s : State) (lcs : List Nat) (level : Nat) (waits : Bool) : State :=
  let s := lcs.foldl (fun s lc => s.modLcore lc fun c => { c with leaving := some level }) s
  let s := (s.groupCrews lcs).foldl (fun s k => s.modCrew k fun c => match c.res with
    | .resident | .leaving _ => { c with res := .leaving level, waiting := waits }
    | _ => c) s
  let s := s.preemptQueues fun g => match g.bound with
    | some (lc, _) => lcs.contains lc
    | none => false
  s.settleGroups

/-- A level-1 swap takes the crew's state into its slot (R130, R136). -/
def State.swapSlot (s : State) (k : Nat) : State := s.writeSlot (lcOf k) 1

/-- CREW_SAVE_COMPLETE (R132): crew n, which is leaving its site, has stopped and its state is written. -/
def execCrewSaveComplete (s : State) : Out :=
  let k := s.subj.n
  let c := s.crew k
  .next (if !s.clocked then s else match c.res with
    | .leaving level =>
      if !c.alive || c.ending || c.unitHeld || s.slotHeld (lcOf k) then s.settleGroups
      else
        let s' := s.stopCrew k
        if s'.crewBusy k then s.settleGroups
        else
          let s := s'.modCrew k fun c =>
            { (if c.waiting then c else c.saveLanes s'.tick) with
              res := if level = 1 then .swapped else .saved, armed := s'.writes, idleSince := none }
          let s := s.writeCrew k
          (if level = 1 then s.swapSlot k else s).settleGroups
    | _ => s.settleGroups)

/-! ## Coming back -/

/-- Whether what a saved waiting thread waits for has come: its line was written since the watch was armed, its condition
holds, or its timeout has expired (R135). -/
def State.laneWakes (s : State) (k l : Nat) (x : Lane) : Bool :=
  let written := fun (p : Place) => (s.crew k).armed < s.lineSer p
  match x.st, x.wait with
  | .blocked, some .mwait => (match x.watch with
      | some w => s.watched w || written w.line
      | none => true)
  | .blocked, some (.waitc _ cs _ _ _ _) =>
    s.expired x || cs.any fun c =>
      (match s.condHolds k l x.waitPc c with
        | .no _ => false
        | _ => true) || (c.kind == 2 && (match s.access k l x.waitPc c.p 4 4 .read with
        | .ok h => written h.pl
        | _ => false))
  | _, _ => false

/-- Whether a crew that waits off its site is to come back (R135). -/
def State.crewWakes (s : State) (k : Nat) : Bool :=
  let c := s.crew k
  (!c.halted && c.inState .live != 0) || (List.range 64).any fun l => s.laneWakes k l (c.lane l)

/-- Register bytes of a crew (R147). -/
def State.regBytes (s : State) (k : Nat) : Nat := 256 * (s.recOf k).vregs

/-- Whether a crew holds registers of its site (R130). -/
def Crew.holdsRegs (c : Crew) : Bool :=
  match c.res with
  | .resident | .leaving _ => true
  | _ => false

/-- Register bytes that the crews of a logical core hold. -/
def State.usedRegs (s : State) (lc : Nat) : Nat :=
  (s.crewsOf lc).foldl (fun n k => if (s.crew k).holdsRegs then n + s.regBytes k else n) 0

/-- A swapped crew returns to its site if its registers fit there (R134, R135); its state is read back from its slot (R136). -/
def State.swapBack (s : State) (k : Nat) : State :=
  let lc := lcOf k
  let c := s.lcore lc
  if c.site.isSome && c.leaving.isNone && !s.slotHeld lc && s.usedRegs lc + s.regBytes k ≤ c.carve.1 * 262144 then (s.readCrew k).markSlot lc
  else s

/-- SWAPPED_WAIT_WAKE (R135): crew n, swapped or saved while it waits, is ready to come back; a swapped one returns to its
site once its registers fit. -/
def execSwappedWaitWake (s : State) : Out :=
  let k := s.subj.n
  let c := s.crew k
  let off := match c.res with
    | .swapped | .saved => true
    | _ => false
  .next (if !s.clocked || !c.alive || !off || (s.ctx (ctxOf k)).st ≠ .on then s
    else
      let s := if c.waiting && s.crewWakes k then
          s.modCrew k fun c => { c with waiting := false, wakeDue := some s.tick }
        else s
      if c.res = .swapped && (s.crew k).wakeDue.isSome then s.swapBack k else s)

/-- SWAP_RETURN_TIMEOUT (R135): crew n has not come back within 100,000 ticks; its group is evicted. -/
def execSwapReturnTimeout (s : State) : Out :=
  let k := s.subj.n
  let c := s.crew k
  .next (match c.res, c.wakeDue with
    | .swapped, some t =>
      if s.clocked && c.alive && t + 100000 ≤ s.tick && (s.lcore (lcOf k)).leaving.isNone && (s.ctx (ctxOf k)).st == .on then
        s.evict (s.groupOf (lcOf k)) 2 false
      else s
    | _, _ => s)

end Sys2Proof.Machine
end

