-- ==== Sys2Proof/Machine/Place.lean ====
section
/-! DEFINITION. The distributor (R110 to R125, R133, R134, R143): candidates, rooms on the sites, gangs and groups placed,
sites closed and re-carved, groups evicted for a waiting candidate, wait-swaps, spare cores. -/

namespace Sys2Proof.Machine

/-! ## Candidates -/

/-- A candidate (R116): the next gang of a grid, or a saved group. -/
structure Wish where
  ctx : Nat
  prio : Nat
  group : Bool
  ref : Nat
  age : Nat
  ahead : Bool := false
  since : Option Nat := none
deriving DecidableEq, Repr

/-- The saved logical cores of a group of a context. -/
def State.savedGroup (s : State) (n g : Nat) : List Nat :=
  s.lcs.filterMap fun (k, c) => if k / 128 == n && c.saved && c.group == g then some k else none

/-- Whether a saved group is restorable (R134). -/
def State.restorable (s : State) (n g : Nat) : Bool :=
  !(s.savedGroup n g).isEmpty && (s.groupCrews (s.savedGroup n g)).all fun k => !(s.crew k).waiting

/-- Whether the choice of a grid's next gang arises: in replay a crew of the grid takes the untaken items while the log
holds no further GANG entry of the grid (R261, R262; log entry 28). -/
def State.gangArises (s : State) (n id : Nat) (g : Grid) : Bool :=
  !(g.lr.det && g.lr.replay) ||
    match s.logFind n (fun e => e.kind = 2 && e.grid = g.det % 4096) with
    | .ended _ => !s.crews.any fun (_, c) => c.alive && c.grid == id
    | _ => true

/-- The candidates of a context (R116). -/
def State.wishesOf (s : State) (n : Nat) : List Wish :=
  if (s.ctx n).st ≠ .on then []
  else
    let nums := dedup (s.lcs.filterMap fun (k, c) => if k / 128 == n && c.saved then some c.group else none)
    let groups := (nums.filter (s.restorable n)).map fun g =>
      let lcs := s.savedGroup n g
      let age := (s.groupCrews lcs).foldl (fun a k => min a (((s.grid (s.crew k).grid).map (·.order)).getD a)) (2 ^ 64)
      ({ ctx := n, prio := s.groupPrio lcs, group := true, ref := g, age
         ahead := lcs.any fun k => (s.lcore k).ahead
         since := (lcs.head?.map fun k => (s.lcore k).waitSince).getD none } : Wish)
    let grids := s.grids.filterMap fun (g, x) => match x with
      | some y => if y.ctx == n && (y.st == .queued || y.st == .running) && 0 < y.untaken && s.gangArises n g y then
          some ({ ctx := n, prio := y.prio, group := false, ref := g, age := y.order, since := y.since } : Wish) else none
      | none => none
    sortBy (fun w => if w.ahead then 0 else 1) (sortBy (·.age) groups) ++ sortBy (·.age) grids

/-- All candidates. -/
def State.wishes (s : State) : List Wish := (List.range 64).flatMap s.wishesOf

/-- Whether a candidate has waited 10 ms (R116, R133). -/
def State.aged (s : State) (w : Wish) : Bool :=
  match w.since with
  | some t => decide (t + 1000000 ≤ s.tick)
  | none => false

/-- The candidates that the distributor looks at, in its order (R116): those of the highest priority, for each context in
round-robin order its first; the one of them all that has waited longest, where that is 10 ms, stands alone; a group that R143
restores comes before all. -/
def State.turn (s : State) : List Wish :=
  let ws := s.wishes
  match ws.find? (·.ahead) with
  | some w => [w]
  | none =>
    let p := ws.foldl (fun p w => max p w.prio) 0
    let ptr := sget 0 s.dist.rr p
    let order := (List.range 64).map fun i => (ptr + i) % 64
    match (sortBy (fun w => w.since.getD 0) (ws.filter fun w => w.prio == p && s.aged w)).head? with
    | some w => [w]
    | none => order.filterMap fun n => ws.find? fun w => w.ctx == n && w.prio == p

/-! ## Rooms -/

/-- What a site has free for a grid's blocks (R118). -/
structure Room where
  site : Nat
  unbound : Bool
  slots : Nat
  regs : Nat
  loc : Nat
deriving DecidableEq, Repr

/-- Whether a site is open to placement (R33, R41, R110). -/
def State.openSite (s : State) (site : Nat) : Bool :=
  s.link.online.getLsbD (vdOfSite site) && !s.ret.siteoff.getLsbD site

/-- Whether the distributor may use a site now: that of a failing core waits for the spare (R143). -/
def State.siteReady (s : State) (site : Nat) : Bool := s.openSite site && !s.health.failing.contains site

/-- Whether a site is kept for a saved group that R143 restores to the same sites. -/
def State.keptSite (s : State) (site : Nat) : Bool := s.lcs.any fun (_, c) => c.saved && c.ahead && c.lastSite == site

/-- The carve of a launch record. -/
def LaunchRec.carve (r : LaunchRec) : Nat × Nat × Nat := (r.vrf, r.loc, r.l1)

/-- Local bytes that the blocks of a logical core hold: a segment ends with the last crew of its block there (R147). -/
def State.usedLocal (s : State) (lc : Nat) : Nat := (s.blocksOn lc).foldl (fun n b => n + b.2.lb) 0

/-- Whether a crew of a logical core waits to come back to its site (R135). -/
def State.comingBack (s : State) (lc : Nat) : Bool :=
  (s.crewsOf lc).any fun k => (s.crew k).res == .swapped && (s.crew k).wakeDue.isSome

/-- The room of an empty site that has a carve. -/
def emptyRoom (carve : Nat × Nat × Nat) (site : Nat) : Room :=
  { site, unbound := true, slots := 256, regs := carve.1 * 262144, loc := carve.2.1 * 262144 }

/-- The room of a site for a carve in context n; sites in `empty` count as unbound. -/
def State.room (s : State) (n : Nat) (carve : Nat × Nat × Nat) (empty : List Nat) (site : Nat) : Option Room :=
  let x := s.site site
  let fresh := some (emptyRoom carve site)
  if !s.siteReady site || s.keptSite site then none
  else if empty.contains site then fresh
  else if x.closed.isSome then none
  else match x.bound with
    | none => fresh
    | some lc =>
      if lc / 128 = n && x.carve = carve && (s.lcore lc).leaving.isNone && !s.comingBack lc then
        some { site, unbound := false, slots := 256 - (s.crewsOf lc).length, regs := carve.1 * 262144 - s.usedRegs lc,
               loc := carve.2.1 * 262144 - s.usedLocal lc }
      else none

/-- The shape of a block (R117). -/
structure BlockShape where
  m : Nat
  cpc : Nat
  rb : Nat
  lb : Nat
deriving DecidableEq, Repr

/-- The shape of a grid's blocks (R117). -/
def LaunchRec.shape (r : LaunchRec) : BlockShape :=
  let m := r.cores + 1
  let cpc := r.crews / m
  let rb := 256 * r.vregs * cpc
  let k := min (256 / cpc) (r.vrf * 262144 / rb)
  { m, cpc, rb, lb := r.loc * 262144 / (k * 4096) * 4096 }

/-- The sites of one block: the m fitting sites with the most free crew slots, lower numbers first (R119). -/
def pickSites (b : BlockShape) (rooms : List Room) : Option (List Nat) :=
  let fit := rooms.filter fun r => b.cpc ≤ r.slots && b.rb ≤ r.regs && b.lb ≤ r.loc
  let best := (sortBy (fun r => 256 - r.slots) (sortBy (·.site) fit)).take b.m
  if best.length = b.m then some (sortBy id (best.map (·.site))) else none

/-- A room after a block has taken its share. -/
def Room.take (b : BlockShape) (sites : List Nat) (r : Room) : Room :=
  if sites.contains r.site then
    { r with unbound := false, slots := r.slots - b.cpc, regs := r.regs - b.rb, loc := r.loc - b.lb }
  else r

/-- The sites of g blocks in turn, and how many of them are bound newly (R119). -/
def planGang (b : BlockShape) : Nat → List Room → Nat → Option (List (List Nat) × Nat)
  | 0, _, new => some ([], new)
  | g + 1, rooms, new =>
    match pickSites b rooms with
    | none => none
    | some sites =>
      let fresh := (rooms.filter fun r => r.unbound && sites.contains r.site).length
      (planGang b g (rooms.map (Room.take b sites)) (new + fresh)).map fun (l, n) => (sites :: l, n)

/-- FEAT.LCORES (R94): every context has that many logical cores (R111). -/
def State.lcores (s : State) : Nat := (s.dev.feat.extractLsb' 36 8).toNat

/-- The free logical cores of a context, ascending (R111). -/
def State.freeCores (s : State) (n : Nat) : List Nat :=
  ((List.range s.lcores).map fun i => n * 128 + i).filter fun k => (s.lcore k).site.isNone && !(s.lcore k).saved

/-- The sites of a gallery. -/
def sitesOf (gal : Nat) : List Nat := (List.range 16).map fun i => 16 * gal + i

/-- A plan for a gang on a gallery (R119): no plan where the context has too few free logical cores (R112). -/
def State.plan (s : State) (n : Nat) (r : LaunchRec) (size gal : Nat) (empty : List Nat) : Option (List (List Nat)) :=
  match planGang r.shape size ((sitesOf gal).filterMap (s.room n r.carve empty)) 0 with
  | some (l, new) => if new ≤ (s.freeCores n).length then some l else none
  | none => none

/-- Galleries in scan order (R120). -/
def State.scan (s : State) : List Nat :=
  let start := match s.dist.lastGal with
    | some g => g + 1
    | none => 0
  (List.range 8).map fun i => (start + i) % 8

/-- The first gallery in scan order that fits a gang, with its plan (R120). -/
def State.firstPlan (s : State) (n : Nat) (r : LaunchRec) (size : Nat) : Option (Nat × List (List Nat)) :=
  s.scan.findSome? fun gal => (s.plan n r size gal []).map fun l => (gal, l)

/-! ## Placing a gang -/

/-- A site takes a logical core: its counters start at zero (R112, R121, R382); the core has a group number of its own (R138). -/
def State.bindSite (s : State) (site lc : Nat) (carve : Nat × Nat × Nat) : State :=
  let s := s.modSite site fun x => { x with bound := some lc, carve, evCnt := [], wanted := none }
  let num := (s.ctx (lc / 128)).nextGroup
  let s := s.modCtx (lc / 128) fun c => { c with nextGroup := num + 1 }
  { s with lcs := sset {} s.lcs lc { site := some site, lastSite := site, carve, since := s.tick, group := num } }

/-- The logical core of a site, bound now if it is unbound (R112). -/
def State.coreOn (s : State) (n site : Nat) (carve : Nat × Nat × Nat) : State × Nat :=
  match (s.site site).bound with
  | some lc => (s, lc)
  | none =>
    let lc := (s.freeCores n).headD (n * 128)
    (s.bindSite site lc carve, lc)

/-- The logical cores of the sites of a block, ascending. -/
def State.coresOn (s : State) (n : Nat) (carve : Nat × Nat × Nat) : List Nat → State × List Nat
  | [] => (s, [])
  | site :: rest =>
    let (s, lc) := s.coreOn n site carve
    let (s, lcs) := s.coresOn n carve rest
    (s, lc :: lcs)

/-- Free crew slots of a logical core, ascending (R118). -/
def State.freeSlots (s : State) (lc : Nat) : List Nat := (List.range 256).filter fun c => !(s.crew (256 * lc + c)).alive

/-- A crew as it starts, before its lanes are filled (R151). -/
def newCrew (r : LaunchRec) (grid block index stamp cycle : Nat) : Crew :=
  { alive := true, grid, block, index, serial := stamp, stamp, lastIssue := cycle, entries := r.childres
    s := (List.range 16).foldl (fun m k => sset 0 m (80 + k) (r.consts.getD k 0)) []
    status := (if r.det then 0x200 else 0) ||| (if r.replay then 0x400 else 0) }

/-- Put the crews of a block in their slots, in ascending index: the list of their keys (R118). -/
def State.addCrews (s : State) (r : LaunchRec) (grid block : Nat) : List (Nat × Nat) → State
  | [] => s
  | (k, j) :: rest =>
    let st := s.dist.stamp + 1
    let s := { s with dist := { s.dist with stamp := st } }
    (s.setCrew k (newCrew r grid block j st s.cycles)).addCrews r grid block rest

/-- One block of a gang: its crews' keys in ascending index (R117, R118). -/
def State.addBlock (s : State) (n grid : Nat) (g : Grid) (gangKey rank size : Nat) (sites : List Nat) : State × List Nat :=
  let b := g.lr.shape
  let (s, lcs) := s.coresOn n g.lr.carve sites
  let slots := lcs.map fun lc => ((s.freeSlots lc).take b.cpc).map fun c => 256 * lc + c
  let key := s.dist.nextId
  let blk : Block :=
    { ctx := n, grid, id := g.blocks + rank, gang := g.gangs, rank, size, cpc := b.cpc, lb := b.lb, gangKey
      cores := (lcs.zip slots).map fun (lc, l) => (lc, slotOf (l.headD 0)) }
  let s := { s with dist := { s.dist with nextId := key + 1 }, blocks := sset none s.blocks key (some blk) }
  let ks := slots.flatten
  (s.addCrews g.lr grid key (ks.zip (List.range ks.length)), ks)

/-- The blocks of a gang in ascending rank. -/
def State.addBlocks (s : State) (n grid : Nat) (g : Grid) (gangKey size : Nat) : Nat → List (List Nat) → State × List Nat
  | _, [] => (s, [])
  | rank, sites :: rest =>
    let (s, ks) := s.addBlock n grid g gangKey rank size sites
    let (s, ks') := s.addBlocks n grid g gangKey size (rank + 1) rest
    (s, ks ++ ks')

/-- Crew starts (R124, R151): each crew fills its lanes before the next takes an item, so that where one waits for an item the crews
after it wait too. -/
def State.startCrews (s : State) (entry : DWord) : List Nat → State
  | [] => s
  | k :: rest =>
    let s := s.fillLanes k 0 0 entry (List.range 64)
    if (s.crew k).stuck then rest.foldl (fun s j => s.modCrew j fun c => { c with stuck := true }) s else s.startCrews entry rest

/-- Crews that received no item end before their first clause (R124). -/
def State.endEmpty (s : State) (ks : List Nat) : State :=
  ks.foldl (fun s k => if (s.crew k).alive && (s.crew k).noThreads && !(s.crew k).stuck then s.endCrew k else s) s

/-- The round-robin pointer and the last gallery after a placement (R116, R120); stopped queues of the context that no logical core
holds resume, as the context runs again (R87). -/
def State.placed (s : State) (w : Wish) (gal : Nat) : State :=
  { s with dist := { s.dist with lastGal := some gal, rr := sset 0 s.dist.rr w.prio ((w.ctx + 1) % 64) } }.resumeQueues fun g =>
    g.bound.isNone && g.ctx.toNat == w.ctx

/-- How an attempt to place a candidate ends. -/
inductive Try where
  | placed (s : State)
  | waits
  | faults (s : State)

/-- Place a gang by a plan (R120, R123 to R125). -/
def State.placeGang (s : State) (w : Wish) (g : Grid) (size gal : Nat) (plan : List (List Nat)) : State :=
  let key := s.dist.nextId
  let s := { s with dist := { s.dist with nextId := key + 1, pool := s.dist.pool - g.lr.childres * g.lr.crews * size } }
  let (s, ks) := s.addBlocks w.ctx w.ref g key size 0 plan
  let s := s.modGrid w.ref fun x => { x with gangs := x.gangs + 1, blocks := x.blocks + size, since := none, st := .running }
  let s := (s.placed w gal).startCrews g.lr.entry ks
  (s.endEmpty ks).refreshGrid w.ref

/-- Whether the pool can supply the reservation of a gang (R125). -/
def State.poolHas (s : State) (r : LaunchRec) (size : Nat) : Bool := r.childres * r.crews * size ≤ s.dist.pool

/-- The first of the sizes that fits a gallery and that the pool can supply (R120). -/
def State.firstFit (s : State) (n : Nat) (r : LaunchRec) : List Nat → Option (Nat × Nat × List (List Nat))
  | [] => none
  | size :: rest =>
    match s.firstPlan n r size with
    | some (gal, l) => if s.poolHas r size then some (size, gal, l) else s.firstFit n r rest
    | none => s.firstFit n r rest

/-- Whether a gallery open to placement, taken empty, could hold a gang (R120). -/
def State.couldHold (s : State) (r : LaunchRec) (size : Nat) : Bool :=
  (List.range 8).any fun gal =>
    (planGang r.shape size (((sitesOf gal).filter s.openSite).map (emptyRoom r.carve)) 0).isSome

/-- Try to place the next gang of a grid (R120, R125, R258, R261). -/
def State.tryGang (s : State) (w : Wish) : Try :=
  match s.grid w.ref with
  | none => .waits
  | some g =>
    let r := g.lr
    let num := g.det % 4096
    let entry := fun (size : Nat) => ({ kind := 2, grid := num, item := 0, key := g.blocks % 2 ^ 48 + size * 2 ^ 48 } : LogEnt)
    let same := fun (e : LogEnt) => e.kind = 2 && e.grid = num
    if !s.couldHold r r.fallback then .faults (s.launchFault w.ctx 4 0)
    else if 65536 < r.childres * r.crews * r.fallback then .faults (s.launchFault w.ctx 9 0)
    else
      let sizes := if r.replay then
          (match s.logFind w.ctx same with
            | .found i => [bits (s.logEnt w.ctx i).key 48 5]
            | _ => [r.pref, r.fallback])
        else [r.pref, r.fallback]
      match s.firstFit w.ctx r sizes with
      | none => .waits
      | some (size, gal, plan) =>
        match s.choose w.ctx g (entry size) same { cause := 0x10 } with
        | .go s => .placed (s.placeGang w g size gal plan)
        | .wait => .waits
        | .fault s => .faults s

/-! ## Restoring a group -/

/-- The sites of a gallery that a saved group may take (R134); those in `empty` count as unbound. -/
def State.groupRoom (s : State) (gal : Nat) (empty : List Nat) : List Nat :=
  (sitesOf gal).filter fun site => s.siteReady site && !s.keptSite site && (empty.contains site ||
    ((s.site site).bound.isNone && (s.site site).closed.isNone))

/-- The sites for a saved group: its own where R143 brings it back, else unbound ones of the first gallery in scan order
that has enough (R134). -/
def State.groupSites (s : State) (lcs : List Nat) (ahead : Bool) : Option (List Nat) :=
  let own := lcs.map fun k => (s.lcore k).lastSite
  if ahead then
    if own.all fun site => s.siteReady site && (s.site site).bound.isNone && (s.site site).closed.isNone then some own else none
  else s.scan.findSome? fun gal =>
    let l := s.groupRoom gal []
    if lcs.length ≤ l.length then some (l.take lcs.length) else none

/-- Bind a saved logical core to a site again (R134): after a restore the site's counters are undefined, but for a remapping
in place (R382, R383). -/
def State.rebind (s : State) (lc site : Nat) (ahead : Bool) : State :=
  let noise := fun i => pair (s.free (900 + 2 * i)) (s.free (901 + 2 * i))
  let old := s.site (s.lcore lc).lastSite
  let s := s.modSite site fun x =>
    let x := { x with bound := some lc, carve := (s.lcore lc).carve, wanted := none }
    if ahead && (s.lcore lc).lastSite = site then x
    else { x with evSel := old.evSel, cycles := noise 16
                  evCnt := (List.range 16).foldl (fun m i => if sget 0 old.evSel i = 0 then sset 0 m i 0 else sset 0 m i (noise i)) [] }
  let num := (s.ctx (lc / 128)).nextGroup
  (s.modCtx (lc / 128) fun c => { c with nextGroup := num + 1 }).modLcore lc fun c =>
    { c with site := some site, lastSite := site, saved := false, group := num, since := s.tick, waitSince := none, ahead := false, leaving := none }

/-- Restore a group onto sites (R134): its slots are read back (R136), and every crew returns to its slot; its waiting threads execute
their words again (R132); guest queues resume (R87). -/
def State.restoreGroup (s : State) (w : Wish) (lcs sites : List Nat) : State :=
  let s := (lcs.zip sites).foldl (fun s (lc, site) => s.rebind lc site w.ahead) s
  let s := lcs.foldl State.readSlot s
  let s := (s.groupCrews lcs).foldl State.readCrew s
  let s := s.resumeQueues fun g => match g.bound with
    | some (lc, _) => lcs.contains lc
    | none => false
  let s := lcs.foldl State.markSlot s
  ((s.writeHeader w.ctx).placed w (galOfSite (sites.headD 0))).progress w.ctx

/-- Try to restore a group. -/
def State.tryRestore (s : State) (w : Wish) : Try :=
  let lcs := sortBy id (s.savedGroup w.ctx w.ref)
  if lcs.any s.slotHeld then .waits
  else match s.groupSites lcs w.ahead with
  | some sites => .placed (s.restoreGroup w lcs sites)
  | none => .waits

/-! ## A candidate that waits -/

/-- The number of blocks that the next gang of a grid needs room for: the logged one in replay, else the smaller of its two (R120,
R261). -/
def State.gangNeeds (s : State) (n : Nat) (g : Grid) : Nat :=
  if g.lr.replay then
    match s.logFind n (fun e => e.kind = 2 && e.grid = g.det % 4096) with
    | .found i => bits (s.logEnt n i).key 48 5
    | _ => g.lr.fallback
  else g.lr.fallback

/-- Whether a saved group fits a gallery when some sites are taken as empty: one that R143 restores to its own sites fits there alone. -/
def State.groupFits (s : State) (w : Wish) (gal : Nat) (empty : List Nat) : Bool :=
  let lcs := s.savedGroup w.ctx w.ref
  if w.ahead then (lcs.map fun k => (s.lcore k).lastSite).all fun site => (sitesOf gal).contains site && s.siteReady site &&
    (empty.contains site || ((s.site site).bound.isNone && (s.site site).closed.isNone))
  else lcs.length ≤ (s.groupRoom gal empty).length

/-- Whether a candidate fits a gallery when some sites are taken as empty. -/
def State.fitsOn (s : State) (w : Wish) (gal : Nat) (empty : List Nat) : Bool :=
  if w.group then s.groupFits w gal empty
  else match s.grid w.ref with
    | some g => (s.plan w.ctx g.lr (s.gangNeeds w.ctx g) gal empty).isSome
    | none => false

/-- The shortest prefix of a list of site lists that makes a candidate fit a gallery. -/
def State.fewest (s : State) (w : Wish) (gal : Nat) (already : List Nat) (l : List (List Nat)) : Option Nat :=
  (List.range (l.length + 1)).find? fun n => s.fitsOn w gal (already ++ (l.take n).flatten)

/-- Sites of a gallery whose groups leave. -/
def State.leavingSites (s : State) (gal : Nat) : List Nat :=
  (sitesOf gal).filter fun site => match (s.site site).bound with
    | some lc => (s.lcore lc).leaving.isSome
    | none => false

/-- The groups on a gallery that are not leaving yet. -/
def State.galleryGroups (s : State) (gal : Nat) : List (List Nat) :=
  ((sitesOf gal).filterMap fun site => (s.site site).bound).foldl (fun gs lc =>
    if (s.lcore lc).leaving.isSome || gs.any (·.contains lc) then gs else gs ++ [s.groupOf lc]) []

/-- When a group was placed: the last binding among its logical cores. -/
def State.groupSince (s : State) (lcs : List Nat) : Nat := lcs.foldl (fun t k => max t (s.lcore k).since) 0

/-- Groups of lower priority in the order of R133: lowest priority first, most recently placed first. -/
def State.lowerGroups (s : State) (p gal : Nat) : List (List Nat) :=
  let gs := (s.galleryGroups gal).filter fun g => s.groupPrio g < p
  sortBy s.groupPrio (sortBy (fun g => s.tick - s.groupSince g) gs)

/-- The groups of lower priority whose eviction makes a candidate fit, on the first gallery where there are such (R133). -/
def State.toEvict (s : State) (w : Wish) : Option (List (List Nat)) :=
  s.scan.findSome? fun gal =>
    let l := s.lowerGroups w.prio gal
    (s.fewest w gal (s.leavingSites gal) (l.map fun g => g.map s.siteOf)).map fun n => l.take n

/-- A candidate of priority p that waits for sites evicts groups of lower priority on the first gallery where that makes it fit (R133),
unless it fits some gallery now or once the groups have gone that leave already. -/
def State.preemptFor (s : State) (w : Wish) : State :=
  if s.scan.any fun gal => s.fitsOn w gal (s.leavingSites gal) then s
  else match s.toEvict w with
    | some gs => gs.foldl (fun s g => s.evict g 2 false) s
    | none => s

/-- The sites of a gallery that are closed for a carve. -/
def State.closedFor (s : State) (carve : Nat × Nat × Nat) (gal : Nat) : List Nat :=
  (sitesOf gal).filter fun x => (s.site x).closed.isSome && (s.site x).wanted == some carve

/-- Close sites for a carve (R122): on the first gallery where that lets the candidate fit, the fewest, those with the fewest
resident crews first; none where it fits a gallery already, or will once the sites closed for its carve are empty and the groups that
leave have gone. -/
def State.closeFor (s : State) (w : Wish) : State :=
  match s.grid w.ref with
  | none => s
  | some g =>
    let carve := g.lr.carve
    if w.group || s.scan.any fun gal => s.fitsOn w gal (s.closedFor carve gal ++ s.leavingSites gal) then s
    else
      let find := fun (gal : Nat) =>
        let already := s.closedFor carve gal
        let can := (sitesOf gal).filter fun x => s.openSite x && (s.site x).closed.isNone && (s.site x).carve != carve &&
          (match (s.site x).bound with
            | some lc => decide (s.groupPrio (s.groupOf lc) ≤ w.prio)
            | none => false)
        let l := sortBy (fun x => match (s.site x).bound with
          | some lc => ((s.crewsOf lc).filter fun k => (s.crew k).holdsRegs).length
          | none => 0) can
        (s.fewest w gal already (l.map fun x => [x])).map fun n => l.take n
      match s.scan.findSome? find with
      | some xs => xs.foldl (fun s x => s.modSite x fun y => { y with closed := some s.tick, wanted := some carve, closePrio := w.prio }) s
      | none => s

/-- The tick since which a candidate waits is kept (R116). -/
def State.markWait (s : State) (w : Wish) : State :=
  if w.group then (s.savedGroup w.ctx w.ref).foldl (fun s k => s.modLcore k fun c =>
    { c with waitSince := some (c.waitSince.getD s.tick) }) s
  else s.modGrid w.ref fun g => { g with since := some (g.since.getD s.tick) }

/-- Look at the candidates in turn, which all wait since their first turn; `first` is the chosen one, for which the distributor makes room if it waits. -/
def State.serve (s : State) (group : Bool) : Bool → List Wish → State
  | _, [] => s
  | first, w :: rest =>
    match (if w.group then s.tryRestore w else s.tryGang w) with
    | .placed s' => if w.group == group then s' else s
    | .faults s' => if w.group == group then s' else s
    | .waits =>
      let s := if first then (s.preemptFor w).closeFor w else s
      s.serve group false rest

/-- A turn of the distributor: every candidate waits from its first turn on (R116). -/
def State.serveAll (s : State) (group : Bool) : State :=
  let s := s.wishes.foldl State.markWait s
  s.serve group true s.turn

/-- GANG_PLACEMENT (R120): the distributor serves its candidates; the one whose turn it is is the next gang of a grid. -/
def execGangPlacement (s : State) : Out := .next (if s.dev.st ≠ .run || !s.clocked then s else s.serveAll false)

/-- GROUP_RESTORE (R134): the candidate whose turn it is is a saved group. -/
def execGroupRestore (s : State) : Out := .next (if s.dev.st ≠ .run || !s.clocked then s else s.serveAll true)

/-- RECARVE_DONE (R121, R122): the closed site n is empty and has its new carve. -/
def execRecarveDone (s : State) : Out :=
  let x := s.site s.subj.n
  .next (if s.clocked && x.bound.isNone && x.closed.isSome then
      s.modSite s.subj.n fun x => { x with closed := none, carve := x.wanted.getD x.carve, wanted := none }
    else s)

/-- CARVE_DRAIN_TIMEOUT (R122): the group on site n is still bound 1 ms after the close; a group of higher priority than the candidate
for which the site is closed stays. -/
def execCarveDrainTimeout (s : State) : Out :=
  let x := s.site s.subj.n
  .next (match x.closed, x.bound with
    | some t, some lc =>
      if s.clocked && t + 100000 ≤ s.tick && (s.lcore lc).leaving.isNone && s.groupPrio (s.groupOf lc) ≤ x.closePrio then
        s.evict (s.groupOf lc) 2 false
      else s
    | _, _ => s)

/-- The bound groups of a context. -/
def State.boundGroups (s : State) (n : Nat) : List (List Nat) :=
  (s.boundCores n).foldl (fun gs lc => if gs.any (·.contains lc) then gs else gs ++ [s.groupOf lc]) []

/-- Since when the groups of priority p of a context have held their sites. -/
def State.heldSince (s : State) (n p : Nat) : Option Nat :=
  listMin (((s.boundGroups n).filter fun g => s.groupPrio g = p).map fun g => s.groupSince g)

/-- STARVATION_PREEMPTION (R133): a candidate has waited 10 ms and no lower group is left that it could take; the context whose groups
of its priority have held sites the longest loses them. -/
def execStarvationPreemption (s : State) : Out :=
  .next (match (if s.clocked then s.turn else []) with
    | w :: _ =>
      let lower := (s.toEvict w).isSome
      let cands := (List.range 64).filterMap fun n =>
        if n = w.ctx then none else (s.heldSince n w.prio).map fun t => (t, n)
      (match (sortBy (·.1) cands).head? with
        | some (held, n) =>
          if s.aged w && held + 1000000 ≤ s.tick && !lower then
            let gs := (s.boundGroups n).filter fun g => s.groupPrio g ≤ w.prio
            let level := if gs.length = (s.boundGroups n).length then 3 else 2
            let s := if level = 3 then s.preemptQueues fun q => q.ctx.toNat = n else s
            gs.foldl (fun s g => s.evict g level false) s
          else s
        | none => s)
    | [] => s)

/-- Whether a candidate waits for which a crew of a context may be swapped out (R135). -/
def State.swapWanted (s : State) (n p : Nat) : Bool :=
  s.wishes.any fun w => w.since.isSome && (w.ctx == n || p ≤ w.prio)

/-- Whether a whole group waits (R135). -/
def State.groupIdle (s : State) (lcs : List Nat) : Bool :=
  ((s.groupCrews lcs).all fun k => (s.crew k).waitIdle || (s.crew k).res == .swapped) &&
    lcs.all fun lc => (s.lcore lc).ecs.all fun (_, e) => e.cmds.isEmpty && (e.kind != .guest || e.count == e.issued)

/-- Whether crew k may be swapped out (R135): it has been wait-idle for 500 ticks while a candidate waits. -/
def State.maySwap (s : State) (k : Nat) : Bool :=
  let c := s.crew k
  s.awake k && c.waitIdle && s.swapWanted (ctxOf k) (s.crewPrio k) && (match c.idleSince with
    | some t => decide (t + 500 ≤ s.tick)
    | none => false)

/-- WAIT_SWAP (R135), for crew n: its whole group is evicted, where every crew of it is wait-idle or swapped, or the crew is swapped out;
the distributor chooses. -/
def execWaitSwap (s : State) : Out :=
  let k := s.subj.n
  let c := s.crew k
  let lc := lcOf k
  .next (if !s.clocked || !c.alive || (s.lcore lc).site.isNone || (s.lcore lc).leaving.isSome || (s.ctx (ctxOf k)).st ≠ .on then s
    else
      let g := s.groupOf lc
      if s.groupIdle g && (!s.maySwap k || Config.freeBool s.fresh 0) then s.evict g 2 true
      else if s.maySwap k then s.setCrew k { c with res := .leaving 1, waiting := true }
      else s)

/-! ## Spare cores -/

/-- The die and gallery of a site: bit 2d + g of SPAREUSE (R9, R12, R110). -/
def State.spareBit (s : State) (site : Nat) : Nat := 2 * s.dies.getD (vdOfSite site) (vdOfSite site) + galOfSite site % 2

/-- The physical number of core c of a site's gallery (R9). -/
def State.physCore (s : State) (site c : Nat) : Nat := 17 * s.spareBit site + c

/-- Whether the spare of a site's gallery serves no site and is sound (R32). -/
def State.spareSound (s : State) (site : Nat) : Bool :=
  !s.health.spareuse.getLsbD (s.spareBit site) && !s.ret.coreret.getLsbD (s.physCore site 16)

/-- Whether the spare of a site's gallery is free (R32): no other failing core of the gallery waits for it. -/
def State.spareFree (s : State) (site : Nat) : Bool :=
  s.spareSound site && !s.health.failing.any fun x => s.spareBit x == s.spareBit site

/-- The groups to which a site belongs, or whose site it was when they were saved, are no longer restored ahead to the same sites
(R143). -/
def State.notAhead (s : State) (site : Nat) : State :=
  (s.lcs.map (·.1)).foldl (fun s lc =>
    let c := s.lcore lc
    let mates := if c.saved then s.savedGroup (lc / 128) c.group else s.groupOf lc
    if (c.saved || c.site.isSome) && s.siteOf lc = site then
      mates.foldl (fun s k => s.modLcore k fun c => { c with ahead := false }) s
    else s) s

/-- A core whose gallery has no spare left retires: its site leaves placement at once, and a group of the site is restored wherever R134
allows (R32, R143). -/
def State.loseSite (s : State) (site : Nat) : State :=
  (({ s with ret := { s.ret with
      siteoff := s.ret.siteoff ||| (1#128 <<< site), coreret := s.ret.coreret ||| (1#136 <<< s.physOf site) } } : State).setEvt 6).notAhead site

/-- A core begins to retire (R32, R143): the group on its site is evicted; where the gallery's spare is in use already, the
site leaves placement at once. -/
def State.retireSite (s : State) (site : Nat) : State :=
  if s.health.failing.contains site || s.ret.siteoff.getLsbD site then s
  else
    let ok := s.spareFree site
    let s := if ok then { s with health := { s.health with failing := site :: s.health.failing } } else s.loseSite site
    match (s.site site).bound with
    | some lc =>
      let g := s.groupOf lc
      let s := if ok then g.foldl (fun s k => s.modLcore k fun c => { c with ahead := true }) s else s
      s.evict g 2 false
    | none => s

/-- SPARE_ASSIGN (R143): the spare takes the place of the failing core of site n; where the spare has been lost meanwhile, the site leaves
placement. -/
def execSpareAssign (s : State) : Out :=
  let site := s.subj.n
  .next (if s.health.failing.contains site && (s.site site).bound.isNone then
      let s := { s with health := { s.health with failing := s.health.failing.filter (· != site) } }
      if s.spareSound site then
        ({ s with
          health := { s.health with spareuse := s.health.spareuse ||| (1#8 <<< s.spareBit site) }
          ret := { s.ret with coreret := s.ret.coreret ||| (1#136 <<< s.physCore site (site % 16)) } } : State).setEvt 4
      else s.loseSite site
    else s)

end Sys2Proof.Machine
end

