-- ==== Sys2Proof/Machine/Context.lean ====
section
/-! DEFINITION. Contexts (R100 to R108, R114 to R116, R125 to R127): enabling and stopping a context, the queue processor and
its slots, the launch record, child launches, the completion of a grid. -/

namespace Sys2Proof.Machine

/-! ## Enabling -/

/-- Whether a write that sets EN is refused (R101). -/
def State.enableRefused (s : State) (n : Nat) : Bool :=
  let c := s.ctx n
  s.dev.st != .run || c.ptroot == 0 || c.savebase == 0 || (!c.cpaddr.getLsbD 0 && !s.feature 0) ||
    s.ctxs.any fun (m, x) => m != n && x.en && x.pasid == c.pasid

/-- A context as an accepted enable leaves it (R101): the registers of the driver are kept. -/
def Ctx.enabled (c : Ctx) : Ctx :=
  { en := true, st := .on, pasid := c.pasid, cap := c.cap, ptroot := c.ptroot, cpaddr := c.cpaddr, savebase := c.savebase
    logbase := c.logbase, logsize := c.logsize, fvec := c.fvec, wdogLimit := c.wdogLimit, extlim := c.extlim
    dbgLcore := c.dbgLcore, dbgCrew := c.dbgCrew, inval := c.inval }

/-- A write that sets EN (R101): it takes effect in DISABLED only. -/
def State.enableCtx (s : State) (n : Nat) : State :=
  if (s.ctx n).st ≠ .disabled then s
  else if s.enableRefused n then s.modCtx n fun c => { c with cfgerr := true }
  else s.modCtx n Ctx.enabled

/-- A write that clears EN (R101). -/
def State.disableCtx (s : State) (n : Nat) : State :=
  match (s.ctx n).st with
  | .on | .faulted => (s.modCtx n fun c => { c with en := false, st := .stopping, pendFault := none }).abortQueues n
  | _ => s

/-- CTXCTL_ENABLE (R101): the host sets EN of context n, where its writes take effect (R96). -/
def execCtxctlEnable (s : State) : Out := .next (if s.hostOpen && s.subj.n < 64 then s.enableCtx s.subj.n else s)

/-- CTXCTL_DISABLE (R101): the host clears EN of context n, where its writes take effect (R96). -/
def execCtxctlDisable (s : State) : Out := .next (if s.hostOpen && s.subj.n < 64 then s.disableCtx s.subj.n else s)

/-! ## Stopping -/

/-- The crews of a context. -/
def State.ctxCrews (s : State) (n : Nat) : List Nat :=
  s.crews.filterMap fun (k, c) => if c.alive && ctxOf k == n then some k else none

/-- The bytes of a store or a reduction that had not completed are undefined (R101). -/
def State.spoilPlace (s : State) (p : Place) (n : Nat) : State :=
  match p with
  | .loc _ _ => s
  | _ => s.undefineAt p n

/-- What a crew of a stopped context had not performed (R101). -/
def State.spoilCrew (s : State) (k : Nat) : State :=
  let c := s.crew k
  let s := c.queue.foldl (fun s e => match e.op with
    | .store p bs => s.spoilPlace p bs.length
    | _ => s) s
  c.atoms.foldl (fun s a => a.args.foldl (fun s g =>
    if a.op.exact then
      let m := splitAt g.va
      (s.spoilPlace g.place (min 48 m)).spoilPlace g.place2 (48 - min 48 m)
    else s.spoilPlace g.place 4) s) s

/-- What the engines of a stopped context were about to write (R101). -/
def State.spoilEngines (s : State) (n : Nat) : State :=
  let on := s.modCtx n fun c => { c with st := .on }
  let todo := s.lcs.flatMap fun (lc, c) =>
    if lc / 128 = n then c.ecs.flatMap fun (e, _) => (on.cmdTouches lc e).map fun t => (lc, t) else []
  todo.foldl (fun s (_, t) => match t with
    | .place p m => s.spoilPlace p m
    | .buf _ _ _ => s) s

/-- Cached translations of a range of context n's PASID are dropped, and the walks of the PASID in flight start again from the root (R223,
R224); results of ATS are dropped with them (R212). -/
def State.dropRange (s : State) (n : Nat) (base : DWord) (log2 : Nat) : State :=
  let pasid := (s.ctx n).pasid
  { s with
    walks := s.walks.map fun r => if r.pasid = pasid then { r with first := s.walk n r.va, pinned := false } else r
    misses := s.misses.filter fun m => m.pasid != pasid
    tlb := s.tlb.filter fun t => t.pasid != pasid || !overlaps t.va t.leaf.size base.toNat (2 ^ log2)
    wcache := s.wcache.filter fun w =>
      w.pasid != pasid || !overlaps w.va (2 ^ (21 + 9 * w.lvl)) base.toNat (2 ^ log2)
    atsCache := s.atsCache.filter fun e => e.pasid != pasid }

/-- A frame exchange is over: the next chunk of a migrating channel moves (R53, R225). -/
def State.swapOver (s : State) : State := { s with swap := none, link := { s.link with moving := s.link.mcBusy } }

/-- Nothing of a context is left on the machine but its registers, its queues and its translation page (R101, R222). A page request of the
guest that waited for one of its records gets no PGRSP and its TAG stays in use (DESIGN CHOICE, log entry 84). -/
def State.dropCtx (s : State) (n : Nat) : State :=
  let mine := fun (k : Nat) => ctxOf k == n
  let back := s.crews.foldl (fun m (k, c) => if mine k then m + c.entries else m) 0 + (s.ctx n).children.length
  let s := { s with
    crews := s.crews.filter fun (e : Nat × Crew) => !mine e.1
    homeQ := s.homeQ.filter fun h => !mine h.crew
    grids := s.grids.filter fun (e : Nat × Option Grid) => (e.2.map Grid.ctx) != some n
    blocks := s.blocks.filter fun (e : Nat × Option Block) => (e.2.map Block.ctx) != some n
    lcs := s.lcs.filter fun (e : Nat × LCore) => e.1 / 128 != n
    hidden := s.hidden.filter fun (e : Nat × Option Exact) => (e.2.map Exact.ctx) != some n
    hostHidden := s.hostHidden.filter fun (e : Nat × Option Exact) => (e.2.map Exact.ctx) != some n
    sites := s.sites.map fun (x : Nat × Site) =>
      (x.1, if (x.2.bound.map (· / 128)) == some n then { x.2 with bound := none } else x.2)
    merges := (s.merges.map fun (m : Merge) =>
      { m with joined := m.joined.filter fun j => j.1 / 128 != n }).filter fun m => !m.joined.isEmpty
    ats := s.ats.filter fun q => q.ctx != n
    misses := s.misses.filter fun m => m.pasid != (s.ctx n).pasid
    dist := { s.dist with pool := s.dist.pool + back }
    adit := { s.adit with gqs := s.adit.gqs.map fun (x : Nat × GuestQ) =>
      (x.1, if x.2.ctx.toNat == n then { x.2 with bound := none } else x.2) } }
  s.modCtx n fun c => { c with children := [], recs := [], slotWait := none, childWait := none, watchCp := none }

/-- Whether a site lies on a compute die that is lost (R144). -/
def State.lostSite (s : State) (site : Nat) : Bool := !s.link.online.getLsbD (vdOfSite site)

/-- Save a bound group of a context that faults (R136, R144): the slot of a site on a lost die is undefined. -/
def State.saveFaulted (s : State) (n : Nat) (g : List Nat) : State :=
  let lost := fun (lc : Nat) => s.lostSite (s.siteOf lc)
  let live := g.filter fun lc => !lost lc
  let s := (s.groupCrews live).foldl (fun s k =>
    let s := (s.stopCrew k).modCrew k fun c => { (c.saveLanes s.tick) with res := .saved }
    s.writeCrew k) s
  let num := (s.ctx n).nextGroup
  let s := s.modCtx n fun c => { c with nextGroup := num + 1 }
  let s := live.foldl (fun s lc => (s.modLcore lc fun c => { c with saved := true, group := num }).writeSlot lc 2) s
  (g.filter lost).foldl (fun s lc => s.undefine (s.slotBase lc) 0x1000000) s

/-- Every bound group of a context that faults is saved (R136). -/
def State.saveAll (s : State) (n : Nat) : State := ((s.boundGroups n).foldl (fun s g => s.saveFaulted n g) s).writeHeader n

/-- The queues of a disabled context are disabled (R65). -/
def State.clearQueues (s : State) (n : Nat) : State :=
  { s with adit := { s.adit with gqs := s.adit.gqs.map fun (x : Nat × GuestQ) =>
      (x.1, if x.2.en && x.2.ctx.toNat == n then { x.2 with en := false, st := .idle, asked := none } else x.2) } }

/-- Whether a queue of the context still runs or waits for STOPPED (R88). -/
def State.queuesOut (s : State) (n : Nat) : Bool :=
  s.adit.gqs.any fun (_, g) => g.en && g.ctx.toNat == n && (g.st == .run || g.st == .stopped)

/-- The stop through EN is complete (R101): the image area is undefined (R136). What an ATS invalidation in progress covers is dropped from
the caches; it is completed to the host once the guest has answered (R212, R223). -/
def State.stopDisabled (s : State) (n : Nat) : State :=
  let s := (s.ctxCrews n).foldl (fun s k => s.spoilCrew k) (s.spoilEngines n)
  let s := ((s.dropCtx n).clearQueues n).undefine (s.ctx n).savebase.toNat (0x1000000 * (s.lcores + 1))
  let s := (s.ctx n).inval.foldl (fun s r => s.dropRange n r.1 r.2) s
  let s := s.modCtx n fun c => { c with st := .disabled, cmd := none }
  match s.swap with
  | some x => if x.ctx = n then s.swapOver else s
  | none => s

/-- The stop of a fault is complete (R102): the groups are saved, the fault is described, VEC is sent. -/
def State.stopFaulted (s : State) (n : Nat) (f : FaultInfo) : State :=
  let s := ((s.spoilEngines n).saveAll n).dropCtx n
  let s := s.modCtx n fun c =>
    { c with st := .faulted, pendFault := none, cause := f.cause, sub := f.sub, faddr := f.addr, fpc := f.pc
             floc := BitVec.ofNat 22 (f.lcore.toNat + 256 * f.crew.toNat + 65536 * f.tid.toNat) }
  s.sendFvec n

/-- Whether a crew of a context has something outstanding that cannot be performed now: its frame is exchanged (R225), or the matrix unit
owes retests (R142). -/
def State.heldBack (s : State) (n : Nat) : Bool :=
  (s.ctxCrews n).any fun k =>
    s.queueHeld k || (s.crew k).atoms.any (fun a => a.args.any fun g => s.swapping g.place || s.swapping g.place2) ||
      (s.mtxBusy k none && s.unitOwes (lcOf k) (slotOf k % 4))

/-- Whether the home slices hold accesses to the image header or to the slot of a bound logical core of a context (R53, R225). -/
def State.imageHeld (s : State) (n : Nat) : Bool := (s.boundCores n).any s.slotHeld

/-- CONTEXT_STOP_DONE (R101, R102): context n, which is stopping, has stopped. -/
def execContextStopDone (s : State) : Out :=
  let n := s.subj.n
  .next (if !s.clocked || (s.ctx n).st ≠ .stopping || s.queuesOut n || s.heldBack n then s
    else match (s.ctx n).pendFault with
      | none => s.stopDisabled n
      | some f => if s.imageHeld n then s else s.stopFaulted n f)

/-! ## The command page -/

/-- A place on the command page of a context (R103). -/
def State.cpPlace (s : State) (n off : Nat) : Place :=
  let a := (s.ctx n).cpaddr.toNat
  if bit a 0 then .dev (bits a 12 27 * 4096 + off) else .host (a / 4096 * 4096 + off)

/-- CPADDR.ADDR plus an offset, as FADDR names it (R105). -/
def State.cpAddr (s : State) (n off : Nat) : DWord :=
  let a := (s.ctx n).cpaddr.toNat
  BitVec.ofNat 64 ((if bit a 0 then bits a 12 27 * 4096 else a / 4096 * 4096) + off)

/-- Whether the home slices hold accesses to the command page (R53, R225). -/
def State.cpHeld (s : State) (n : Nat) : Bool :=
  match s.cpPlace n 0 with
  | .dev a => s.rangeHeld a 4096
  | _ => false

/-- QUEUE_PROCESSOR_WAKE (R105): the line of TAIL of context n has been written since it was last read, or has not been read
since the enable; the watch is armed before the read. -/
def execQueueProcessorWake (s : State) : Out :=
  let n := s.subj.n
  let c := s.ctx n
  let p := s.cpPlace n 0
  let fired := match c.watchCp with
    | some w => decide (w < s.lineSer p)
    | none => true
  .next (if !s.clocked || c.st ≠ .on || c.head < c.tail || !fired || s.cpHeld n then s
    else
      let t := bytesToNat (s.placeRead p 8)
      let s := s.modCtx n fun c => { c with watchCp := some s.writes }
      if t < c.head || 64 < t - c.head then s.launchFault n 10 (s.cpAddr n 0)
      else s.modCtx n fun c => { c with tail := t })

/-- A slot of the command page (R104). -/
structure Slot where
  lrec : DWord
  op : Nat
  vec : Option Nat
  bad : Bool
deriving DecidableEq, Repr

/-- The offset of the slot at HEAD (R103). -/
def Ctx.slotOff (c : Ctx) : Nat := 0x400 + 16 * (c.head % 64)

/-- The slot at HEAD (R103, R104). -/
def State.slotAt (s : State) (n : Nat) : Slot :=
  let bs := s.placeRead (s.cpPlace n (s.ctx n).slotOff) 16
  let w := field bs 8 8
  { lrec := BitVec.ofNat 64 (field bs 0 8), op := bits w 0 8, vec := if bit w 15 then some (bits w 8 7) else none
    bad := 2 < bits w 0 8 || bits w 16 48 != 0 }

/-- The slot that the queue processor serves next, if there is one (R105). -/
def State.nextSlot (s : State) (n : Nat) : Option Slot :=
  if s.clocked && (s.ctx n).st == .on && (s.ctx n).head < (s.ctx n).tail && !s.cpHeld n then some (s.slotAt n) else none

/-- The slot is consumed: HEAD and HEADMIR (R105). -/
def State.slotDone (s : State) (n : Nat) : State :=
  let h := (s.ctx n).head + 1
  (s.modCtx n fun c => { c with head := h, slotWait := none }).placeWrite 0 (s.cpPlace n 0x80) (natToBytes 8 h)

/-- Serve the next slot: one that breaks R104 faults with subcode 10. -/
def State.serveSlot (s : State) (n op : Nat) (body : Slot → State) : State :=
  match s.nextSlot n with
  | none => s
  | some x =>
    if x.bad then s.launchFault n 10 (s.cpAddr n (s.ctx n).slotOff)
    else if x.op ≠ op then s
    else body x

/-- SLOT_NOP (R104): the next slot of context n is a NOP. -/
def execSlotNop (s : State) : Out := .next (s.serveSlot s.subj.n 0 fun _ => s.slotDone s.subj.n)

/-- Grids of a context. -/
def State.ctxGrids (s : State) (n : Nat) : List (Nat × Grid) :=
  s.grids.filterMap fun (g, x) => match x with
    | some y => if y.ctx = n then some (g, y) else none
    | none => none

/-- SLOT_BARRIER (R104, R253): it is consumed once every earlier grid has completed; the context's hidden records end. -/
def execSlotBarrier (s : State) : Out :=
  let n := s.subj.n
  .next (s.serveSlot n 2 fun _ =>
    if (s.ctxGrids n).isEmpty && (s.ctx n).children.isEmpty then
      let others := fun (m : SMap (Option Exact)) => m.filter fun e => (e.2.map Exact.ctx) != some n
      ({ s with hidden := others s.hidden, hostHidden := others s.hostHidden }).slotDone n
    else s)

/-! ## The launch record -/

/-- The fields of a launch record (R106). -/
def recordOf (bs : List Byte) : LaunchRec :=
  let w := fun o => field bs o 4
  let d := fun o => BitVec.ofNat 64 (field bs o 8)
  { entry := d 0, trappc := d 8, items := field bs 0x10 8, itembase := field bs 0x18 8
    crews := bits (w 0x20) 0 11, cores := bits (w 0x20) 11 2, pref := bits (w 0x24) 0 5, fallback := bits (w 0x24) 8 5
    vregs := bits (w 0x28) 0 8, vrf := bits (w 0x28) 8 4, loc := bits (w 0x28) 12 4, l1 := bits (w 0x28) 16 4
    stack := w 0x2C, stackbase := d 0x30, args := d 0x38
    slots := (List.range 8).map fun f => BitVec.ofNat 32 (w (0x40 + 4 * f))
    prio := bits (w 0x60) 0 3, det := bit (w 0x60) 8, replay := bit (w 0x60) 9
    tmis := bit (w 0x64) 0, twse := bit (w 0x64) 1, tamo := bit (w 0x64) 2, childres := bits (w 0x68) 0 16
    compaddr := d 0x70, compval := d 0x78, consts := (List.range 16).map fun k => BitVec.ofNat 32 (w (0x80 + 4 * k)) }

/-- A PC of the record: in the global window, 4-byte aligned. -/
def pcOk (x : DWord) : Bool := x.extractLsb' 56 8 == 0 && x.extractLsb' 0 2 == 0

/-- Whether a format slot is unused or valid (R267); FP6, FP4 and INT4 need NARROW. -/
def slotOk (narrow : Bool) (w : Word) : Bool :=
  let x := w.toNat
  let elem := bits x 0 4
  let scale := bits x 4 3
  x == 0 || (1 ≤ elem && elem ≤ 10 && (narrow || !([6, 7, 8, 10].contains elem)) && scale ≤ 4 &&
    !(1 ≤ scale && scale ≤ 3 && elem ≤ 3) && bits x 8 3 ≤ 4 && (bits x 8 3 == 4 || bits x 11 7 == 0) &&
    bits x 18 2 ≤ 2 && bits x 20 12 == 0)

/-- Subcode 4 but for the fit of a gang (R106). -/
def blockOk (r : LaunchRec) (bs : List Byte) : Bool :=
  let w20 := field bs 0x20 4
  let w24 := field bs 0x24 4
  1 ≤ r.crews && r.crews ≤ 1024 && r.crews % (r.cores + 1) == 0 && r.crews / (r.cores + 1) ≤ 256 && bits w20 13 19 == 0 &&
    1 ≤ r.pref && r.pref ≤ 16 && bits w24 5 3 == 0 && 1 ≤ r.fallback && r.fallback ≤ r.pref && bits w24 13 19 == 0

/-- Whether a block of the record has a shape (R117): its crews' registers are some, and fit their site. -/
def shapeOk (r : LaunchRec) : Bool :=
  0 < r.vregs && 0 < r.vrf && 256 * r.vregs * r.crews / (r.cores + 1) ≤ r.vrf * 262144

/-- Subcode 5 (R106). -/
def carveOk (r : LaunchRec) (bs : List Byte) : Bool :=
  16 ≤ r.vregs && r.vregs ≤ 128 && r.vregs % 8 == 0 && 1 ≤ r.vrf && r.vrf ≤ 8 && 2 ≤ r.l1 && r.vrf + r.loc + r.l1 == 16 &&
    bits (field bs 0x28 4) 20 12 == 0 && 256 * r.vregs * r.crews / (r.cores + 1) ≤ r.vrf * 262144

/-- Whether a fallback gang fits an empty gallery (R106, R119). -/
def gangFits (r : LaunchRec) : Bool :=
  (planGang r.shape r.fallback ((List.range 16).map fun i =>
    { site := i, unbound := true, slots := 256, regs := r.vrf * 262144, loc := r.loc * 262144 }) 0).isSome

/-- Whether grids with REPLAY and grids with DET alone would be queued or running at once (R261). -/
def State.mixes (s : State) (n : Nat) (r : LaunchRec) : Bool :=
  r.det && (s.ctxGrids n).any fun (_, g) => g.lr.det && g.lr.replay != r.replay

/-- The subcode of the first check that a record fails (R106); the fit of a gang is judged where its blocks have a
shape (log entry 36). -/
def State.recordFails (s : State) (n : Nat) (bs : List Byte) : Option Nat :=
  let r := recordOf bs
  let w60 := field bs 0x60 4
  let w64 := field bs 0x64 4
  if !pcOk r.entry || !pcOk r.trappc then some 2
  else if r.items = 0 || 2 ^ 48 < r.itembase + r.items then some 3
  else if !blockOk r bs then some 4
  else if shapeOk r && !gangFits r then some 4
  else if !carveOk r bs then some 5
  else if 65536 < r.stack || r.stack % 16 != 0 || r.stackbase.extractLsb' 0 12 != 0 || (r.stackbase == 0 && r.stack != 0) then some 6
  else if !(r.slots.all (slotOk (s.feature 10))) then some 7
  else if bits w60 3 5 != 0 || bits w60 10 22 != 0 || (r.det && !s.feature 3) || (r.replay && (!r.det || !s.feature 4)) ||
      bits w64 3 29 != 0 || ((r.tmis || r.twse || r.tamo) && r.trappc == 0) || s.mixes n r then some 8
  else if (r.childres != 0 && !s.feature 5) || bits (field bs 0x68 4) 16 16 != 0 || field bs 0x6C 4 != 0 then some 9
  else if r.compaddr.extractLsb' 0 3 != 0 || r.compaddr.extractLsb' 56 8 != 0 then some 11
  else if (bs.drop 0xC0).any (· != 0) then some 9
  else none

/-- How the read of a launch record ends (R106): a read of a frame that is exchanged is held (R225). -/
inductive LaunchRead where
  | ok (s : State) (bs : List Byte)
  | waits (s : State) (key : Nat × Bool)
  | held
  | fails

/-- The fault record of an access of the queue processor: no agent of R217 is named for it, so its SRC and unit are free. -/
def State.procRec (s : State) (va lvl : Nat) (wr : Bool) : FaultRec :=
  { va := va / 4096 * 4096, write := wr, acc := if wr then 1 else 0, src := BitVec.ofNat 2 ((s.free 610).toNat % 3)
    level := BitVec.ofNat 2 lvl, lcore := (s.free 611).setWidth 7, unit := (s.free 612).setWidth 8, ea := BitVec.ofNat 64 va }

/-- Read a launch record in a context's PASID (R106, row 1). -/
def State.readRecord (s : State) (n : Nat) (a : DWord) : LaunchRead :=
  if a.extractLsb' 0 8 != 0 || a.extractLsb' 56 8 != 0 then .fails
  else match s.translate n a.toNat 256 .read 600 with
    | .ok pl l =>
      let h : Hit := { pl, leaf := some l, va := a.toNat }
      if s.spanHeld pl 256 then .held
      else if (List.range 256).any (s.hitPois h) then .fails
      else .ok (s.cacheLeaf n a.toNat l) ((List.range 256).map (s.leafByte h))
    | .notPresent lvl =>
      let r := s.procRec a.toNat lvl false
      .waits (s.joinRecord n r) (r.va, r.write)
    | .ats x => .waits (s.openFor n none (some (x, s.procRec a.toNat 0 false))) (atsKey x)
    | .fail _ _ => .fails
    | .hold _ => .held

/-- How a record is taken (R114). -/
inductive Accept where
  | grid (s : State)
  | wait
  | fault (s : State)

/-- Accept a record that has passed its checks: the grid is QUEUED (R114, R115); a deterministic one is logged (R258). -/
def State.acceptGrid (s : State) (n : Nat) (r : LaunchRec) (vec : Option Nat) (item key : Nat) : Accept :=
  let c := s.ctx n
  let g : Grid := { ctx := n, lr := r, vec, prio := min r.prio c.cap.toNat, next := r.itembase, last := r.itembase + r.items
                    order := c.gridsLaunched, det := c.detCount }
  let ent : LogEnt := { kind := 1, grid := c.detCount % 4096, item, key }
  match s.choose n g ent (fun e => e.kind = 1 && e.item = item && e.key = key) { cause := 0x10 } with
  | .wait => .wait
  | .fault s => .fault s
  | .go s =>
    let id := s.dist.nextId
    let s := { s with dist := { s.dist with nextId := id + 1 } }
    .grid ((s.setGrid id (some g)).modCtx n fun c =>
      { c with gridsLaunched := c.gridsLaunched + 1, detCount := if r.det then c.detCount + 1 else c.detCount })

/-- The first slot entry of a replayed log that is not consumed names this HEAD (R261). -/
def State.slotEntry (s : State) (n head : Nat) : Option Nat :=
  match s.logFind n (fun e => e.kind = 1 && bit e.key 63) with
  | .found i => if bits (s.logEnt n i).key 0 16 = head % 65536 then none else some i
  | _ => none

/-- SLOT_LAUNCH (R105, R106, R261): the next slot of context n is a LAUNCH. -/
def execSlotLaunch (s : State) : Out :=
  let n := s.subj.n
  let c := s.ctx n
  .next (if c.slotWait.isSome then s
    else s.serveSlot n 1 fun x =>
      match s.readRecord n x.lrec with
      | .held => s
      | .fails => s.launchFault n 1 x.lrec
      | .waits s key => s.modCtx n fun c => { c with slotWait := some key }
      | .ok s bs =>
        match s.recordFails n bs with
        | some sub => s.launchFault n sub x.lrec
        | none =>
          match (if (recordOf bs).replay then s.slotEntry n c.head else none) with
          | some i => s.launchFault n 12 (s.logAddr n i)
          | none =>
            match s.acceptGrid n (recordOf bs) x.vec 0 (c.head % 65536 + 2 ^ 63) with
            | .grid s => s.slotDone n
            | .wait => s
            | .fault s => s)

/-! ## Child launches -/

/-- The entry of a popped child returns to the crew that launched it, while that crew lives (R126); that of a deterministic
context does not. -/
def State.returnEntry (s : State) (x : Child) : State :=
  if !x.det && (s.crew x.crew).alive && (s.crew x.crew).serial == x.serial then
    s.modCrew x.crew fun c => { c with entries := c.entries + 1 }
  else { s with dist := { s.dist with pool := s.dist.pool + 1 } }

/-- Pop the first child that can be accepted: a replayed one waits for its turn in the log (R127, R261). -/
def State.popFirst (s : State) (n : Nat) : Nat → List Child → State
  | _, [] => s
  | i, x :: rest =>
    match s.readRecord n x.raddr with
    | .held => s
    | .fails => s.launchFault n 1 x.raddr
    | .waits s key => s.modCtx n fun c => { c with childWait := some key }
    | .ok s' bs =>
      match s'.recordFails n bs with
      | some sub => s'.launchFault n sub x.raddr
      | none =>
        match s'.acceptGrid n (recordOf bs) none x.item.toNat (x.ordinal % 65536 + 65536 * x.parent) with
        | .grid s => (s.modCtx n fun c => { c with children := listDel c.children i }).returnEntry x
        | .wait => s.popFirst n (i + 1) rest
        | .fault s => s

/-- CHILD_POP (R127): the distributor pops a child of context n. -/
def execChildPop (s : State) : Out :=
  let n := s.subj.n
  let c := s.ctx n
  .next (if !s.clocked || c.st ≠ .on || c.childWait.isSome then s else s.popFirst n 0 c.children)

/-! ## Completion -/

/-- The grid is done: the release, the completion word, the vector (R108). -/
def State.gridDone (s : State) (id : Nat) (g : Grid) : State :=
  let s := (s.setGrid id none).progress g.ctx
  match g.vec with
  | some v => s.sendVec v
  | none => s

/-- GRID_COMPLETE (R108): grid n has retired. -/
def execGridComplete (s : State) : Out :=
  let id := s.subj.n
  .next (match s.grid id with
    | none => s
    | some g =>
      if !s.clocked || (s.ctx g.ctx).st ≠ .on || g.st ≠ .retiring || g.unretired ≠ 0 || g.compWait.isSome then s
      else
        let s := { s with dirty := [] }
        let a := g.lr.compaddr
        if a = 0 then s.gridDone id g
        else match s.translate g.ctx a.toNat 8 .write 601 with
          | .ok pl l =>
            if s.swapping pl then s
            else ((s.cacheLeaf g.ctx a.toNat l).placeWrite 0 pl (natToBytes 8 g.lr.compval.toNat)).gridDone id g
          | .notPresent lvl =>
            let r := s.procRec a.toNat lvl true
            (s.joinRecord g.ctx r).modGrid id fun g => { g with compWait := some (r.va, r.write) }
          | .ats x => (s.openFor g.ctx none (some (x, s.procRec a.toNat 0 true))).modGrid id fun g => { g with compWait := some (atsKey x) }
          | .fail _ _ => s.contextFault g.ctx { cause := 0x09, addr := a }
          | .hold _ => s)

end Sys2Proof.Machine
end

