-- ==== Sys2Proof/Machine/Xlate.lean ====
section
/-! DEFINITION. The translation page and its commands (R216 to R226, R231), fault records (R217, R220 to R222), the guest's walks
(R76, R207) and what a shootdown waits for (R78, R223, R224). -/

namespace Sys2Proof.Machine

/-! ## The translation page -/

/-- The DPA of the translation page of a context (R216). -/
def State.xlBase (s : State) (n : Nat) : Nat := (s.ctx n).ptroot.toNat + 0x100000

/-- Whether the device serves the translation page of a context: it is enabled or still stopping. -/
def State.xlServed (s : State) (n : Nat) : Bool := (s.ctx n).st != .disabled

/-- Whether the home slices hold accesses to the translation page (R53, R225). -/
def State.xlHeld (s : State) (n : Nat) : Bool := s.rangeHeld (s.xlBase n) 4096

/-- The address of command j (R216). -/
def State.cmdBase (s : State) (n j : Nat) : Nat := s.xlBase n + 0x800 + 32 * (j % 64)

/-- The command at CRIDX, if the driver has written one (R216, R219). -/
def State.nextCmd (s : State) (n : Nat) : Option (List Byte) :=
  let c := s.ctx n
  if s.xlServed n && !s.xlHeld n && c.cmd.isNone && c.cridx < s.read64 (s.xlBase n + 0x80) then
    some ((List.range 32).map fun i => s.devByte (s.cmdBase n c.cridx + i))
  else none

/-- The fields of a command (R218). -/
def xcmdOf (bs : List Byte) : XCmd :=
  let w := field bs 0 4
  { op := BitVec.ofNat 8 (bits w 0 8), all := bit w 8, psz := BitVec.ofNat 2 (bits w 10 2), host := bit w 12
    log2 := field bs 4 4, va := BitVec.ofNat 64 (field bs 8 8), dpa := BitVec.ofNat 64 (field bs 16 8)
    second := BitVec.ofNat 64 (field bs 24 8) }

/-- The size that PSZ names (R218). -/
def pageSize (psz : BitVec 2) : Nat := [4096, 65536, 2097152, 1073741824].getD psz.toNat 4096

/-- Whether an address is a frame of a size: a DPA, or a host physical address (R219, R225). -/
def frameOk (a : DWord) (size : Nat) (host : Bool) : Bool := a.toNat % size == 0 && (host || a.toNat < 2 ^ 39)

/-- Whether a command ends in BADCMD (R218, R219). A field that names its command in R218 belongs to that command alone. -/
def cmdBad (bs : List Byte) : Bool :=
  let w := field bs 0 4
  let x := xcmdOf bs
  let size := pageSize x.psz
  bits w 13 11 != 0 || 5 < x.op.toNat ||
    match x.op.toNat with
    | 2 => !x.all && (decide (x.log2 < 12) || decide (56 < x.log2) || x.va.toNat % 2 ^ x.log2 != 0)
    | 3 | 4 => (x.psz != 1 && x.psz != 2) || !frameOk x.dpa size false
    | 5 => x.psz == 3 || !frameOk x.dpa size false || !frameOk x.second size x.host
    | _ => false

/-- The command at CRIDX is complete: STATUS, then CRIDX (R219). -/
def State.cmdEnds (s : State) (n status : Nat) : State :=
  let j := (s.ctx n).cridx
  let s := s.devWrite 0 (s.cmdBase n j + 3) [BitVec.ofNat 8 status]
  let s := s.devWrite 0 (s.xlBase n + 0xC0) (natToBytes 8 (j + 1))
  s.modCtx n fun c => { c with cridx := j + 1, cmd := none }

/-- Serve the command at CRIDX if it is of the kind; a bad one ends in BADCMD. -/
def State.serveCmd (s : State) (n op : Nat) (body : XCmd → State) : State :=
  match (if s.clocked then s.nextCmd n else none) with
  | none => s
  | some bs =>
    if cmdBad bs then s.cmdEnds n 0xFF
    else if (xcmdOf bs).op.toNat ≠ op then s
    else body (xcmdOf bs)

/-- XLATE_CMD_NOP (R218): the next command of context n is a NOP. -/
def execXlateCmdNop (s : State) : Out := .next (s.serveCmd s.subj.n 0 fun _ => s.cmdEnds s.subj.n 0x01)

/-! ## Waking what waits for a page -/

/-- The threads of a context that wait for a page: crew and lane (R162). -/
def State.parkedOn (s : State) (n : Nat) (key : Nat × Bool) : List (Nat × Nat) :=
  (s.ctxCrews n).flatMap fun k =>
    ((List.range 64).filter fun l => ((s.crew k).lane l).st == .parked && ((s.crew k).lane l).park == some key).map fun l => (k, l)

/-- The engine commands of a context that wait for a page (R200): logical core, engine context, number. -/
def State.suspendedOn (s : State) (n : Nat) (key : Nat × Bool) : List (Nat × Nat × Nat) :=
  s.lcs.flatMap fun (lc, c) =>
    if lc / 128 = n then c.ecs.flatMap fun (e, x) =>
      (x.cmds.filter fun (c : Cmd) => c.susp == some key).map fun c => (lc, e, c.num)
    else []

/-- Answer the guest's page requests for a page (R76). -/
def State.answerPages (s : State) (n : Nat) (key : Nat × Bool) (st : BitVec 2) : State :=
  let mine := fun (r : GuestReq) => r.waitRec && r.pasid == (s.ctx n).pasid && r.va / 4096 * 4096 == key.1 && r.write == key.2
  let rs := s.adit.reqs.filter mine
  let s := { s with adit := { s.adit with reqs := s.adit.reqs.filter fun r => !mine r } }
  rs.foldl (fun s r => s.toGuest { guestMsg 0x07 with tag := r.tag, st }) s

/-- Every agent that waits for a page walks again (R163, R200, R221). -/
def State.wakePage (s : State) (n : Nat) (key : Nat × Bool) : State :=
  let s := (s.parkedOn n key).foldl (fun s (k, l) => s.modLane k l fun x => { x with st := .live, park := none }) s
  let s := (s.suspendedOn n key).foldl (fun s (lc, e, num) => s.modCmd lc e num fun (c : Cmd) => { c with susp := none }) s
  let s := s.walkOver (s.ctx n).pasid (key.1 / 4096)
  let clear := fun (w : Option (Nat × Bool)) => if w = some key then none else w
  let s := s.modCtx n fun c => { c with slotWait := clear c.slotWait, childWait := clear c.childWait }
  let s := (s.ctxGrids n).foldl (fun s (g, _) => s.modGrid g fun x => { x with compWait := clear x.compWait }) s
  s.answerPages n key 0

/-- The fault of a page that will not be provided (R222): the recorded thread, else a waiting engine, else a waiting thread,
else the queue processor or the distributor. `any` stands for an address that the record does not hold. -/
def State.denyFault (s : State) (n : Nat) (key : Nat × Bool) (r : Option FaultRec) (any : DWord) : Option FaultInfo :=
  let threads := s.parkedOn n key
  let engines := s.suspendedOn n key
  let recorded := match r with
    | some r =>
      let k := crewKey n r.lcore.toNat r.unit.toNat
      if r.src = 0 && threads.contains (k, r.tid.toNat) then
        some ({ cause := 0x08, addr := r.ea, pc := r.pc, lcore := r.lcore, crew := r.unit, tid := r.tid } : FaultInfo)
      else if r.src = 1 && engines.any (fun (lc, e, _) => lc % 128 == r.lcore.toNat && e == r.unit.toNat) then
        some { cause := 0x08, addr := r.ea, lcore := r.lcore }
      else none
    | none => none
  match recorded, threads, engines with
  | some f, _, _ => some f
  | none, _, (lc, _, _) :: _ => some { cause := 0x08, addr := any, lcore := BitVec.ofNat 7 (lc % 128) }
  | none, (k, l) :: _, [] => some (threadFault k { lane := l, cause := .xfault, addr := any } ((s.crew k).lane l).pc)
  | none, [], [] =>
    if (s.ctx n).slotWait = some key then some { cause := 0x10, sub := 1, addr := (s.slotAt n).lrec }
    else if (s.ctx n).childWait = some key then
      some { cause := 0x10, sub := 1, addr := ((s.ctx n).children.head?.map (·.raddr)).getD 0 }
    else ((s.ctxGrids n).find? fun (_, g) => g.compWait == some key).map fun (_, g) => { cause := 0x09, addr := g.lr.compaddr }

/-- A page will not be provided (R222): waiting engines get their error bits, the context faults, the guest hears DENIED. -/
def State.denyPage (s : State) (n : Nat) (key : Nat × Bool) (r : Option FaultRec) (any : DWord) : State :=
  let f := s.denyFault n key r any
  let s := (s.suspendedOn n key).foldl (fun s (lc, e, num) =>
    (s.spoilCmd lc e num []).modEc lc e fun x => { x with err := true }) s
  let s := match f with
    | some f => s.contextFault n f
    | none => s
  s.answerPages n key 2

/-- XLATE_RESOLVE (R221, R222): the next command of context n is a RESOLVE. The faulting address of a thread or engine that
the record does not name lies in the page of the record. -/
def execXlateResolve (s : State) : Out :=
  let n := s.subj.n
  .next (match (if s.clocked then s.nextCmd n else none) with
    | none => s
    | some bs =>
      s.serveCmd n 1 fun _ =>
        match (s.ctx n).recs.find? fun r => r.written && r.tag.toNat == field bs 4 4 with
        | none => s.cmdEnds n 0x05
        | some r =>
          let s := s.modCtx n fun c => { c with recs := c.recs.filter fun x => x != r }
          let key := (r.va, r.write)
          let any := BitVec.ofNat 64 (r.va + (s.free 620).toNat % 4096)
          let s := if bit (field bs 0 4) 9 then s.denyPage n key (some r) any else s.wakePage n key
          s.cmdEnds n 0x01)

/-! ## Shootdowns -/

/-- Whether a queue of a PASID is enabled (R78). -/
def State.pasidQueue (s : State) (pasid : BitVec 20) : Option Nat :=
  (List.range 16).find? fun q => (s.gq q).en && (s.ctx (s.gq q).ctx.toNat).pasid == pasid

/-- Send SHOOTDOWN to the guest where a queue of the PASID is enabled (R78). -/
def State.shootGuest (s : State) (pasid : BitVec 20) (base : DWord) (log2 : Nat) : State :=
  if s.adit.st ≠ .ready || (s.pasidQueue pasid).isNone then s
  else
    let tag := s.adit.nextTag
    let sd : GuestSd := { tag, pasid, all := false, base, log2 := BitVec.ofNat 6 log2, due := s.tick + 1000 }
    let s := { s with adit := { s.adit with nextTag := tag + 1, sds := s.adit.sds ++ [sd] } }
    s.toGuest { guestMsg 0x05 with tag, pasid, arg := base / 4096 * 4096 + BitVec.ofNat 64 log2 }

/-- The range of a command: first address and log2 of the size (R223). -/
def XCmd.range (x : XCmd) : DWord × Nat :=
  if x.op = 2 then (if x.all then (0, 56) else (x.va, x.log2))
  else
    let size := pageSize x.psz
    (BitVec.ofNat 64 (x.va.toNat / size * size), if x.psz = 1 then 16 else 21)

/-- A command that shoots down a range starts (R223, R231). -/
def State.startShoot (s : State) (n : Nat) (x : XCmd) : State :=
  (s.modCtx n fun c => { c with cmd := some x }).shootGuest (s.ctx n).pasid x.range.1 x.range.2

/-- XLATE_SHOOTDOWN (R223): the next command of context n is a SHOOTDOWN. -/
def execXlateShootdown (s : State) : Out := .next (s.serveCmd s.subj.n 2 fun x => s.startShoot s.subj.n x)

/-- Whether a place lies in the n bytes of device memory from a base on. -/
def Place.within (p : Place) (base n : Nat) : Bool :=
  match p with
  | .dev a => base ≤ a && a < base + n
  | _ => false

/-- Whether an entry of a queue, or a unit on its way, ends in the n bytes of device memory from a base on. -/
def QEntry.meets (e : QEntry) (base n : Nat) : Bool :=
  match e.op with
  | .store p bs => (p.within base n) || ((p.add (bs.length - 1)).within base n)
  | .append f _ _ _ _ | .seal f _ => base ≤ f && f < base + n

/-- Whether no access of any crew that was translated earlier has still to reach a frame (R231). -/
def State.frameQuiet (s : State) (base n : Nat) : Bool :=
  s.homeQ.all (fun h => !h.e.meets base n) && s.merges.all (fun m => !m.line.pl.within base n) &&
    s.crews.all fun (_, c) => !c.alive || (c.queue.all (fun e => !e.meets base n) &&
      c.atoms.all fun a => a.args.all fun g => !g.place.within base n && !g.place2.within base n)

/-- Whether every access of a context that holds a translation has been performed (R223). -/
def State.accessesDone (s : State) (n : Nat) : Bool :=
  (s.ctxCrews n).all (fun k => !s.crewBusy k) && !(s.merges.any fun m => m.pasid == (s.ctx n).pasid)

/-- Whether the guest has acknowledged (R78, R223). -/
def State.guestDone (s : State) (pasid : BitVec 20) (base : DWord) (log2 : Nat) : Bool :=
  !(s.adit.sds.any fun d => d.pasid == pasid && d.base == base && d.log2.toNat == log2)

/-- SHOOTDOWN_COMPLETE (R212, R223): a SHOOTDOWN of context n, or the oldest ATS invalidation of its PASID, is complete. -/
def execShootdownComplete (s : State) : Out :=
  let n := s.subj.n
  let c := s.ctx n
  .next (if !s.clocked || !s.accessesDone n then s
    else match c.cmd, c.inval with
      | some x, inval =>
        let (base, log2) := x.range
        if x.op = 2 && s.guestDone c.pasid base log2 && !s.xlHeld n then (s.dropRange n base log2).cmdEnds n 0x01
        else (match inval with
          | (base, log2) :: rest =>
            if s.guestDone c.pasid base log2 then
              let s := (s.dropRange n base log2).modCtx n fun c => { c with inval := rest }
              { s with dev := { s.dev with atsDone := s.dev.atsDone + 1 } }
            else s
          | [] => s)
      | none, (base, log2) :: rest =>
        if s.guestDone c.pasid base log2 then
          let s := (s.dropRange n base log2).modCtx n fun c => { c with inval := rest }
          { s with dev := { s.dev with atsDone := s.dev.atsDone + 1 } }
        else s
      | none, [] => s)

/-! ## Sinter states and the swap engine -/

/-- Sinter states of a home slice (R226). -/
def State.slotsOfSlice (s : State) (way : Nat) : Nat :=
  (s.sinter.filter fun (b, x) => x.isSome && wayOf b == way).length

/-- XLATE_OPEN (R226): the next command of context n is an OPEN. -/
def execXlateOpen (s : State) : Out :=
  let n := s.subj.n
  .next (s.serveCmd n 3 fun x =>
    let frame := x.dpa.toNat
    if (sget none s.sinter frame).isSome then s.cmdEnds n 0x02
    else if 4096 ≤ s.slotsOfSlice (wayOf frame) then s.cmdEnds n 0x03
    else ({ s with sinter := sset none s.sinter frame (some { sealed := false, tail := 0, size := pageSize x.psz }) }).cmdEnds n 0x01)

/-- XLATE_FREE (R231): the next command of context n is a FREE; its shootdown starts. -/
def execXlateFree (s : State) : Out := .next (s.serveCmd s.subj.n 4 fun x => s.startShoot s.subj.n x)

/-- FREE_COMPLETE (R231): the shootdown of the FREE of context n is complete; the sinter state is deleted. -/
def execFreeComplete (s : State) : Out :=
  let n := s.subj.n
  let c := s.ctx n
  .next (match c.cmd with
    | some x =>
      let (base, log2) := x.range
      if s.clocked && x.op = 4 && s.accessesDone n && s.frameQuiet x.dpa.toNat (pageSize x.psz) && s.guestDone c.pasid base log2 &&
          !s.xlHeld n then
        let s := s.dropRange n base log2
        let had := (sget none s.sinter x.dpa.toNat).isSome
        ({ s with sinter := sset none s.sinter x.dpa.toNat none }).cmdEnds n (if had then 0x01 else 0x04)
      else s
    | none => s)

/-- Poison the listed words from a place on. -/
def State.poisonFrom (s : State) (p : Place) (ws : List Nat) : State :=
  match p with
  | .dev a => s.poisonWords (ws.map fun w => a / 4 + w)
  | .host a => { s with hostPois := ssetAll false s.hostPois (ws.map fun w => a / 4 + w) true }
  | _ => s

/-- A coordinate table that lies in a frame moves with it (R195). -/
def movePlace (a b : Place) (size : Nat) (p : Place) : Place :=
  let inside := fun (f : Place) => match f, p with
    | .dev x, .dev y | .host x, .host y => x ≤ y && y < x + size
    | _, _ => false
  if inside a then b.add (p.off - a.off) else if inside b then a.add (p.off - b.off) else p

/-- The contents of two frames are exchanged, poison bits included (R225). What a crew's next fetches return is then the contents as they
stand (R415; log entry 82). -/
def State.exchange (s : State) (a b : Place) (size : Nat) : State :=
  let words := List.range (size / 4)
  let xs := s.placeRead a size
  let ys := s.placeRead b size
  let px := words.filter fun w => s.placePois (a.add (4 * w))
  let py := words.filter fun w => s.placePois (b.add (4 * w))
  let s := (s.placeWrite 0 a ys).placeWrite 0 b xs
  let s := (s.poisonFrom a py).poisonFrom b px
  { s with tables := s.tables.map fun t => { t with addr := movePlace a b size t.addr }
           crews := s.crews.map fun (k, c) => (k, { c with code := none }) }

/-- XLATE_SWAP (R225): the next command of context n is a SWAP. The frames are exchanged at its start: every access to them
is held until it completes. It starts at a chunk boundary of a channel that migrates (R53). -/
def execXlateSwap (s : State) : Out :=
  let n := s.subj.n
  .next (s.serveCmd n 5 fun x =>
    if s.swap.isSome || s.link.moving then s
    else
      let size := pageSize x.psz
      let a := Place.dev x.dpa.toNat
      let b := if x.host then Place.host x.second.toNat else .dev x.second.toNat
      let s := if a = b then s else s.exchange a b size
      { (s.modCtx n fun c => { c with cmd := some x }) with
        swap := some { ctx := n, first := x.dpa.toNat, second := x.second.toNat, host := x.host, size } })

/-- SWAP_COMPLETE (R225): the SWAP of context n is complete; the groups that waited for a held image leave their sites. -/
def execSwapComplete (s : State) : Out :=
  let n := s.subj.n
  .next (match (s.ctx n).cmd, s.swap with
    | some x, some w =>
      if s.clocked && x.op = 5 && w.ctx = n && !s.swapOver.xlHeld n then (s.swapOver.cmdEnds n 0x01).settleGroups else s
    | _, _ => s)

/-! ## Fault records -/

/-- The 32 bytes of a fault record (R217). -/
def FaultRec.bytes (r : FaultRec) : List Byte :=
  natToBytes 8 r.va ++ natToBytes 4 r.tag.toNat ++ natToBytes 4 (r.acc.toNat + 4 * r.src.toNat + 16 * r.level.toNat) ++
    natToBytes 4 (r.lcore.toNat + 256 * r.unit.toNat) ++ natToBytes 12 0

/-- FAULT_RECORD_WRITE (R220, R221): the oldest record of context n that waits is written, if the page has room. -/
def execFaultRecordWrite (s : State) : Out :=
  let n := s.subj.n
  let c := s.ctx n
  .next (match c.recs.find? fun r => !r.written with
    | none => s
    | some r =>
      let used := (c.fwidx + 2 ^ 64 - s.read64 (s.xlBase n + 0x40)) % 2 ^ 64
      if !s.clocked || c.st ≠ .on || s.xlHeld n || 32 ≤ used then s
      else
        let s := s.walkOver c.pasid (r.va / 4096)
        let r' := { r with tag := c.nextTag, written := true }
        let s := s.devWrite 0 (s.xlBase n + 0x400 + 32 * (c.fwidx % 32)) r'.bytes
        let s := s.devWrite 0 (s.xlBase n) (natToBytes 8 (c.fwidx + 1))
        let s := s.modCtx n fun c => { c with
          fwidx := c.fwidx + 1, nextTag := c.nextTag + 1, recs := c.recs.map fun x => if x = r then r' else x }
        let xvec := s.read64 (s.xlBase n + 8)
        if bit xvec 7 then s.sendVec (bits xvec 0 7) else s)

/-! ## Walks of the guest -/

/-- The context of a PASID: the enabled one, or else one that still stops, whose queues finish their packets (R65, R88). -/
def State.ctxOfPasid (s : State) (pasid : BitVec 20) : Option Nat :=
  let mine := fun (ok : Ctx → Bool) => (List.range 64).find? fun n => ok (s.ctx n) && (s.ctx n).pasid == pasid
  match mine (·.en) with
  | some n => some n
  | none => mine fun c => c.st != .disabled

/-- PSZ of a page size (R72). -/
def pszOf (size : Nat) : BitVec 2 := if size = 4096 then 0 else if size = 65536 then 1 else if size = 2097152 then 2 else 3

/-- What a TRS says: ST, W, PSZ, CLS and the DPA of the page (R76). -/
structure TrsRes where
  st : BitVec 2
  w : Bool := false
  psz : BitVec 2 := 0
  cls : BitVec 2 := 0
  base : Nat := 0
deriving DecidableEq, Repr

/-- The answer to a TRQ by a page that is found (R76). A TRQ with W set to a sinter page is DENIED (log entry 66). -/
def State.trsLeaf (s : State) (l : Leaf) (wr : Bool) : TrsRes :=
  match l.cls.toNat with
  | 0 => if wr && !l.w then { st := 2 } else { st := 0, w := l.w, psz := pszOf l.size, base := l.base }
  | 1 =>
    if wr || (s.leafFails l .read 4 0).isSome then { st := 2 }
    else { st := 0, psz := pszOf l.size, cls := 1, base := l.base }
  | _ => { st := 2 }

/-- Ranges of acknowledged drops without the page that the guest is given again (R77). -/
def cutAcked (ps : List (BitVec 20 × Nat × Nat)) (pasid : BitVec 20) (va n : Nat) : List (BitVec 20 × Nat × Nat) :=
  ps.flatMap fun (p, lo, hi) =>
    if p == pasid && va < hi && lo < va + n then
      (if lo < va then [(p, lo, va)] else []) ++ (if va + n < hi then [(p, va + n, hi)] else [])
    else [(p, lo, hi)]

/-- Send the TRS of a request (R76). -/
def State.sendTrs (s : State) (r : GuestReq) (t : TrsRes) : State :=
  s.toGuest { guestMsg 0x06 with
    tag := r.tag, st := t.st, w := if t.w then 1 else 0, psz := t.psz, cls := t.cls, arg := BitVec.ofNat 64 t.base }

/-- The walk of a guest request (R78, R214, R215): what a miss that joined it has taken, else what it finds at its end or, by free choice,
what it found at its start; while a shootdown of the PASID is in progress, no TRS holds an older translation. -/
def State.guestWalk (s : State) (n : Nat) (r : GuestReq) : WalkRes :=
  let c := s.ctx n
  let shooting := !c.inval.isEmpty || (match c.cmd with
    | some x => x.op == 2 || x.op == 4
    | none => false)
  let late := s.lookup n r.va 630
  if shooting then s.walk n r.va
  else if r.pinned then r.first
  else match r.first with
    | .held _ => late
    | x => if Config.freeBool s.fresh 631 then x else late

/-- The context, and the result, with which the walk of a guest request ends now; none where no context has the PASID. -/
def State.walkOf (s : State) (r : GuestReq) : Option (Nat × WalkRes) :=
  (if r.va < 2 ^ 56 then s.ctxOfPasid r.pasid else none).map fun n => (n, s.guestWalk n r)

/-- A walk of the guest ends (log entry 67 for a walk that fails PROT) with no context, a leaf, a page that is absent, or a failure (R76, R207).
The record names the lowest enabled queue of the PASID, and logical core 0 where that queue is unbound (DESIGN CHOICE, log entry 94). -/
def State.walkEnds (s : State) (res : Option (Nat × WalkRes)) (r : GuestReq) : State :=
  match res with
  | none => if r.page then s.toGuest { guestMsg 0x07 with tag := r.tag, st := 2 } else s.sendTrs r { st := 2 }
  | some (n, w) =>
    match w with
    | .notPresent lvl =>
      let q := s.pasidQueue r.pasid
      let lcore := ((q.bind fun q => (s.gq q).bound).map fun b => b.1 % 128).getD 0
      let s := if r.page then { s with adit := { s.adit with reqs := s.adit.reqs ++ [{ r with waitRec := true }] } }
        else s.sendTrs r { st := 1 }
      s.joinRecord n { va := r.va / 4096 * 4096, write := r.write, acc := if r.write then 1 else 0, src := 2
                       level := BitVec.ofNat 2 lvl, lcore := BitVec.ofNat 7 lcore, unit := BitVec.ofNat 8 (q.getD 0) }
    | .leaf l =>
      if r.page then s.toGuest { guestMsg 0x07 with tag := r.tag }
      else
        let t := s.trsLeaf l r.write
        let s := if t.st = 0 then { s with adit := { s.adit with acked := cutAcked s.adit.acked r.pasid (r.va / l.size * l.size) l.size } }
          else s
        (s.cacheLeaf n r.va l).sendTrs r t
    | _ => if r.page then s.toGuest { guestMsg 0x07 with tag := r.tag } else s.sendTrs r { st := 2 }

/-- WALK_COMPLETE (R76, R207, R214): walk n of the guest ends, and with it every request of the page that has joined it, which take its
result; it waits while the read of an entry is held (R225). -/
def execWalkComplete (s : State) : Out :=
  .next (match s.walks[s.subj.n]? with
    | some r =>
      let joined := fun (x : GuestReq) => x.pasid == r.pasid && x.va / 4096 == r.va / 4096
      let res := s.walkOf r
      let held := match res with
        | some (_, .held _) => true
        | _ => false
      if s.clocked && !held then
        (s.walks.filter joined).foldl (fun s x => s.walkEnds res x) { s with walks := s.walks.filter fun x => !joined x }
      else s
    | none => s)

end Sys2Proof.Machine
end

