-- ==== Sys2Proof/Machine/Adit.lean ====
section
/-! DEFINITION. The Adit socket (R59 to R90): its states, the guest queues' registers, the guest's messages and memory requests,
deadlines, the fence. -/

namespace Sys2Proof.Machine

/-! ## Fencing -/

/-- The error bit of a queue's bound engine context, and the fault of its context (R83): the manual names no cause code and no
address for it, so both are free. -/
def State.queueFault (s : State) (q : Nat) : State :=
  match (s.gq q).bound with
  | some (lc, e) => s.ecFail lc e ((s.free (640 + 3 * q)).setWidth 8) (pair (s.free (641 + 3 * q)) (s.free (642 + 3 * q)))
  | none => s

/-- Bytes that the packets of a queue from a SEQ on have written become undefined (R83, R88). -/
def State.spoilPackets (s : State) (q : Nat) (seq : Nat) : State :=
  let mine := fun (w : PortBytes) => w.q == q && decide (seq ≤ w.seq.toNat)
  let ws := s.adit.wrote.filter mine
  let s := { s with adit := { s.adit with wrote := s.adit.wrote.filter fun w => !mine w } }
  ws.foldl (fun s w => s.undefine w.addr 4) s

/-- Queues that run or are stopped. -/
def State.liveQueues (s : State) : List Nat :=
  (List.range 16).filter fun q => (s.gq q).en && ((s.gq q).st == .run || (s.gq q).st == .stopped)

/-- A breach: the socket is fenced (R90). Evictions that waited for the guest complete. -/
def State.fence (s : State) (cause : BitVec 4) (q : Option Nat) : State :=
  if s.adit.st ≠ .ready then s
  else
    let qs := s.liveQueues
    let s := { s with
      walks := []
      adit := { s.adit with reqs := [], sds := [] } }
    let s := qs.foldl (fun s q => (s.modGq q fun g => { g with st := .halted, asked := none }).spoilPackets q 0) s
    let s := qs.foldl State.queueFault s
    let s := { s with adit := { s.adit with
      st := .fenced, resetting := false, cause, cqv := if q.isSome then 1 else 0, cq := BitVec.ofNat 4 (q.getD 0)
      fences := if s.adit.fences = 0xFFFF then 0xFFFF else s.adit.fences + 1 } }
    (s.setEvt 1).settleGroups

/-! ## The states of the socket -/


/-- ABORT for every running and stopped queue (R64, R88). -/
def State.abortAll (s : State) : State :=
  s.liveQueues.foldl (fun s q =>
    (s.modGq q fun g => { g with asked := some (s.tick, true) }).toGuest (guestMsg 0x04 (BitVec.ofNat 4 q))) s

/-- Whether a module of the socket's link is ACTIVE. -/
def State.aditUp (s : State) : Bool := [24, 25].any fun m => (sget {} s.link.mods m : LinkMod).st == .active

/-- RESET is left for READY when GRST is zero and a module is ACTIVE; one that stayed ACTIVE through the reset counts at once (R64; log
entry 68). -/
def State.settleReady (s : State) : State :=
  if s.adit.st = .reset && !s.adit.grst && s.aditUp then { s with adit := { s.adit with st := .ready } } else s

/-- READY is left for RESET once GRST has been written one and every queue has been aborted (R64). -/
def State.settleReset (s : State) : State :=
  if s.adit.st = .ready && s.adit.resetting && s.liveQueues.isEmpty then
    ({ s with adit := { s.adit with st := .reset, resetting := false, reqs := [], sds := [] }, walks := [] }).settleReady
  else s

/-- Modules 24 and 25, where DOWN, begin to train as the guest leaves reset (R37, R64; log entry 61). -/
def State.trainAdit (s : State) : State :=
  let up := fun (x : LinkMod) => if x.st = .down then { x with st := .train } else x
  [24, 25].foldl (fun s m => { s with link := { s.link with mods := sset {} s.link.mods m (up (sget {} s.link.mods m)) } }) s

/-- A write of ADCTL.GRST (R62, R64). -/
def State.writeGrst (s : State) (on : Bool) : State :=
  let s := { s with adit := { s.adit with grst := on } }
  if on then
    (if s.adit.st = .ready && !s.adit.resetting then
      ({ s with adit := { s.adit with resetting := true } }).abortAll.settleReset else s)
  else if s.adit.st = .absent then s
  else s.trainAdit.settleReady

/-- ADCTL_GRST (R64, R96): the host or Ramord writes GRST; in LOAD and VERIFY no write of the host takes effect, and no Ramord runs. -/
def execAdctlGrst (on : Bool) (s : State) : Out :=
  .next (if s.dev.st = .load || s.dev.st = .verify then s else s.writeGrst on)

/-- A write of ADCTL.UNFENCE (R62). -/
def State.unfence (s : State) : State :=
  if s.adit.st = .fenced && s.adit.grst then { s with adit := { s.adit with st := .reset } } else s

/-- ADCTL_UNFENCE (R62, R64): UNFENCE is written one. -/
def execAdctlUnfence (s : State) : Out := .next s.unfence

/-- ADIT_LINK_ACTIVE (R37, R63, R64): module m of the socket reaches ACTIVE, and the guest has presented its identity. The training
gives 64 or 32 lanes and may have repaired some, by free choice. -/
def execAditLinkActive (m : Nat) (id : BitVec 32) (s : State) : Out :=
  .next (if (m ≠ 24 && m ≠ 25) || s.adit.st = .absent || s.adit.grst then s
    else
      let w : BitVec 7 := if Config.freeBool s.fresh m then 64 else 32
      let s := { s with
        link := { s.link with mods := sset {} s.link.mods m { (sget {} s.link.mods m : LinkMod) with
          st := .active, width := w, repaired := (s.free m).setWidth 3 } }
        adit := { s.adit with adid := id } }
      s.settleReady)

/-! ## Queue registers -/

/-- Whether a write that sets EN is refused (R65). -/
def State.queueRefused (s : State) (g : GuestQ) : Bool :=
  g.sz.toNat < 4 || 12 < g.sz.toNat || s.adit.st != .ready || g.gqva == 0 || g.gqrrec == 0 || !(s.ctx g.ctx.toNat).en

/-- A write of GQCFGq (R65). One that sets EN of an enabled queue changes nothing, its CFGERR included (log entry 69). A queue that another
context takes over is bound to no engine context (R68; log entry 70). -/
def State.writeGqcfg (s : State) (q : Nat) (v : BitVec 32) : State :=
  let g := s.gq q
  if !s.feature 2 || 16 ≤ q then s
  else if !g.en then
    let g := { g with sz := v.extractLsb' 1 4, ctx := v.extractLsb' 8 6 }
    if !v.getLsbD 0 then s.modGq q fun _ => g
    else if s.queueRefused g then s.modGq q fun _ => { g with cfgerr := true }
    else
      let keep := g.bound.filter fun b => b.1 / 128 == g.ctx.toNat
      let s := s.modGq q fun _ =>
        { g with en := true, cfgerr := false, st := .run, bound := keep, widx := 0, ridx := 0, seqs := [], asked := none, torn := false }
      { s with adit := { s.adit with wrote := s.adit.wrote.filter fun w => w.q != q } }
  else if v.getLsbD 0 then s
  else if g.st = .stopped || g.st = .halted || (g.st = .run && g.ridx = g.widx) then
    (s.modGq q fun g => { g with en := false, st := .idle, asked := none }).settleReset
  else s

/-- GQCFG_ENABLE (R65): the host writes GQCFGq with EN set. -/
def execGqcfgEnable (q : Nat) (v : BitVec 32) (s : State) : Out := .next (if v.getLsbD 0 then s.writeGqcfg q v else s)

/-- GQCFG_DISABLE (R65): the host writes GQCFGq with EN clear. -/
def execGqcfgDisable (q : Nat) (v : BitVec 32) (s : State) : Out := .next (if v.getLsbD 0 then s else s.writeGqcfg q v)

/-! ## Messages of the guest -/

/-- Whether the fields that a message type does not name are zero (R72, R73): `q`, `tag`, `page` (PASID and W) and `arg` say
which it names. -/
def guestClean (m : GuestMsg) (q tag page arg : Bool) : Bool :=
  m.z1 == 0 && m.z2 == 0 && m.all == 0 && m.st == 0 && m.psz == 0 && m.cls == 0 && (q || m.q == 0) && (tag || m.tag == 0) &&
    (page || (m.pasid == 0 && m.w == 0)) && (arg || m.arg == 0)

/-- Accept a message of a queue (R73): one that is not clean, or names a disabled queue, is a breach of cause BADMSG. -/
def State.queueMsg (s : State) (m : GuestMsg) (ty : BitVec 8) (arg : Bool) (body : Nat → State) : State :=
  if s.adit.st ≠ .ready || m.ty ≠ ty then s
  else if !guestClean m true false false arg || !(s.gq m.q.toNat).en then s.fence 5 (some m.q.toNat)
  else body m.q.toNat

/-- RIDX in the queue region is written where its page can be (R67, R80). -/
def State.writeRidx (s : State) (q : Nat) : State :=
  let g := s.gq q
  match s.translate g.ctx.toNat (g.gqva.toNat + 0x40) 8 .write 650 with
  | .ok pl l => (s.cacheLeaf g.ctx.toNat (g.gqva.toNat + 0x40) l).placeWrite 0 pl (natToBytes 8 g.ridx)
  | _ => s

/-- Whether the home slices hold the write of RIDX (R53, R225). -/
def State.ridxHeld (s : State) (q : Nat) : Bool :=
  let g := s.gq q
  match s.translate g.ctx.toNat (g.gqva.toNat + 0x40) 8 .write 650 with
  | .ok pl _ => s.swapping pl
  | .hold _ => true
  | _ => false

/-- An accepted RETIRE (R80): RIDX, then the counter of the bound engine context. -/
def State.retirePacket (s : State) (q : Nat) (seq : DWord) : State :=
  let s := (s.modGq q fun g => { g with ridx := g.ridx + 1, seqs := g.seqs.tail }).writeRidx q
  let s := { s with adit := { s.adit with wrote := s.adit.wrote.filter fun w => !(w.q == q && w.seq == seq) } }
  match (s.gq q).bound with
  | some (lc, e) => ((s.modEc lc e fun x => { x with count := seq }).progress (lc / 128)).unbind lc
  | none => s

/-- RETIRE (R73, R79, R80): of a queue in RUN, with the SEQ of its oldest packet; any other is a breach of cause BADRET, for a queue in
IDLE too (log entry 71). It is not acted on while the write of RIDX is held (R225). -/
def execRetire (m : GuestMsg) (s : State) : Out :=
  let q := m.q.toNat
  .next (if s.adit.st ≠ .ready || m.ty ≠ 0x81 || s.ridxHeld q then s
    else if !guestClean m true false false true then s.fence 5 (some q)
    else if (s.gq q).st = .run && (s.gq q).seqs.head? = some m.arg then s.retirePacket q m.arg
    else s.fence 3 (some q))

/-- FAULT (R83): the queue is HALTED, and what the faulting packet and later ones wrote is undefined; the context's other queues are
aborted as it stops. It is taken whatever the queue's state and whatever packet SEQ names (DESIGN CHOICE, log entry 85). -/
def execFault (m : GuestMsg) (s : State) : Out :=
  .next (s.queueMsg m 0x82 true fun q =>
    (((s.modGq q fun g => { g with st := .halted, asked := none }).spoilPackets q m.arg.toNat).queueFault q).settleGroups.settleReset)

/-- Whether a context runs: a logical core of it is bound and does not leave its site. -/
def State.placedCtx (s : State) (n : Nat) : Bool := (s.boundCores n).any fun lc => (s.lcore lc).leaving.isNone

/-- STOPPED (R84, R88): a queue that was pre-empted is STOPPED, one that was aborted HALTED; a late one is a breach. A queue
that no logical core holds resumes at once where its context runs again already (R87). -/
def execStopped (m : GuestMsg) (s : State) : Out :=
  .next (s.queueMsg m 0x83 false fun q =>
    match (s.gq q).asked with
    | some (t, abort) =>
      if t + 5000 < s.tick then s.fence 2 (some q)
      else
        let s := s.modGq q fun g => { g with st := if abort then .halted else .stopped, asked := none }
        let s := (if abort then s.spoilPackets q 0 else s).settleGroups
        (if (s.gq q).st == .stopped && (s.gq q).bound.isNone && s.placedCtx (s.gq q).ctx.toNat then s.resumeQueue q else s).settleReset
    | none => s)

/-- STOPPED_DEADLINE (R84, R88): queue n has not stopped within 5,000 ticks. -/
def execStoppedDeadline (s : State) : Out :=
  .next (match (s.gq s.subj.n).asked with
    | some (t, _) => if (s.gq s.subj.n).en && t + 5000 < s.tick then s.fence 2 (some s.subj.n) else s
    | none => s)

/-- Accept a message that names no queue: one that is not clean is a breach of cause BADMSG (R73). -/
def State.plainMsg (s : State) (m : GuestMsg) (ty : BitVec 8) (page arg : Bool) (body : State) : State :=
  if s.adit.st ≠ .ready || m.ty ≠ ty then s
  else if !guestClean m false true page arg then s.fence 5 none
  else body

/-- SDACK (R77, R78); a late one is a breach. -/
def execSdack (m : GuestMsg) (s : State) : Out :=
  .next (s.plainMsg m 0x84 false false
    (match s.adit.sds.find? (·.tag == m.tag) with
      | some d =>
        if d.due < s.tick then s.fence 1 none
        else { s with adit := { s.adit with
          sds := s.adit.sds.filter (·.tag != m.tag)
          acked := s.adit.acked ++ [(d.pasid, d.base.toNat, d.base.toNat + 2 ^ d.log2.toNat)] } }
      | none => s.fence 5 none))

/-- SDACK_DEADLINE (R78): the SHOOTDOWN of the tag has waited longer than 1,000 ticks. -/
def execSdackDeadline (tag : BitVec 16) (s : State) : Out :=
  .next (if s.adit.sds.any (fun d => d.tag == tag && decide (d.due < s.tick)) then s.fence 1 none else s)

/-- Requests whose answer is outstanding (R73). -/
def State.openReqs (s : State) : List GuestReq := s.walks ++ s.adit.reqs

/-- What a walk that starts now finds, and whether it is settled (R215); a request for a page whose walk is in flight joins that walk
(R214). -/
def State.firstWalk (s : State) (pasid : BitVec 20) (va : Nat) : WalkRes × Bool :=
  match s.walks.find? fun r => r.pasid == pasid && r.va / 4096 == va / 4096 with
  | some r => (r.first, r.pinned)
  | none =>
    match s.ctxOfPasid pasid with
    | some n => (s.walk n va, false)
    | none => (.prot, false)

/-- A TRQ or a PGREQ (R73, R76). -/
def State.guestAsks (s : State) (m : GuestMsg) (page : Bool) : State :=
  if 64 ≤ s.openReqs.length || s.openReqs.any (·.tag == m.tag) then s.fence 5 none
  else { s with walks := s.walks ++
    [{ tag := m.tag, page, q := m.q.toNat, pasid := m.pasid, va := m.arg.toNat, write := m.w == 1
       first := (s.firstWalk m.pasid m.arg.toNat).1, pinned := (s.firstWalk m.pasid m.arg.toNat).2 }] }

/-- TRQ (R76). -/
def execTrq (m : GuestMsg) (s : State) : Out := .next (s.plainMsg m 0x85 true true (s.guestAsks m false))

/-- PGREQ (R76). -/
def execPgreq (m : GuestMsg) (s : State) : Out := .next (s.plainMsg m 0x86 true true (s.guestAsks m true))

/-- GUEST_MESSAGE_UNLISTED_TYPE (R73). -/
def execGuestMessageUnlistedType (m : GuestMsg) (s : State) : Out :=
  .next (if s.adit.st ≠ .ready || (0x81 ≤ m.ty.toNat && m.ty.toNat ≤ 0x86) then s else s.fence 5 none)

/-! ## Memory requests of the guest -/

/-- Entries of a table of n entries that may be valid: those that hold a byte that is not zero, or is undefined. -/
def State.tableEntries (s : State) (base n : Nat) : List Nat :=
  let inside := fun (a : Nat) => base ≤ a && a < base + 8 * n
  let listed := (s.mem.filter fun c => inside c.1).map fun c => (c.1 - base) / 8
  let open' := s.undef.flatMap fun (lo, hi, _) => ((List.range n).filter fun i => overlaps (base + 8 * i) 8 lo (hi - lo))
  dedup (listed ++ open')

/-- How the walks below a table end, each with the virtual address of the entry at which it ends (R207 to R209). -/
def State.walksFrom (s : State) (lvl base va n : Nat) : List (Nat × WalkRes) :=
  (s.tableEntries base n).flatMap fun i =>
    let v := va + i * 2 ^ (12 + 9 * lvl)
    let ea := base + 8 * i
    match lvl with
    | 0 => [(v, s.walkFrom v 0 ea)]
    | m + 1 =>
      let e := s.read64 ea
      if !s.swapping (.dev ea) && !s.wordPois (ea / 4) && !s.wordPois (ea / 4 + 1) && bit e 0 && !bit e 1 && !entryBad (m + 1) e then
        s.walksFrom m (bits e 12 40 * 4096) v 512
      else [(v, s.walkFrom v (m + 1) ea)]

/-- How the walks of a context end. -/
def State.walksOf (s : State) (n : Nat) : List (Nat × WalkRes) := s.walksFrom 3 (s.ctx n).ptroot.toNat 0 131072

/-- The leaves of a context, each with the address of its page (R207). -/
def State.leaves (s : State) (n : Nat) : List (Nat × Leaf) :=
  (s.walksOf n).filterMap fun (v, r) => match r with
    | .leaf l => some (v / l.size * l.size, l)
    | _ => none

/-- Whether the guest has acknowledged dropping a page and has not been given it again (R77). -/
def State.ackedPage (s : State) (pasid : BitVec 20) (va size : Nat) : Bool :=
  s.adit.acked.any fun (p, lo, hi) => p == pasid && overlaps va size lo (hi - lo)

/-- The pages that the walkers would give for a PASID (R77): those of its tables or, by free choice, old ones that are still cached and
that no shootdown has covered (R215). -/
def State.portPages (s : State) (n : Nat) : List (Nat × Leaf) :=
  let old := (s.tlb.filter fun t => t.pasid == (s.ctx n).pasid && s.walk n t.va != .leaf t.leaf).map fun t => (t.va, t.leaf)
  if Config.freeBool s.fresh 632 then old ++ (s.leaves n).filter fun p => !old.any fun o => overlaps o.1 o.2.size p.1 p.2.size
  else s.leaves n

/-- The context whose pages a request of the guest may use (R75, R77). -/
def State.portCtx (s : State) (r : PortReq) : Option Nat := if (s.pasidQueue r.pasid).isSome then s.ctxOfPasid r.pasid else none

/-- Whether the home slices hold a table entry that the check of a request may need (R53, R225). -/
def State.portHeld (s : State) (r : PortReq) : Bool :=
  ((s.portCtx r).map fun n => (s.walksOf n).any fun (_, w) => match w with
    | .held _ => true
    | _ => false).getD false

/-- The page through which a request of the guest is allowed (R75 to R77). -/
def State.portLeaf (s : State) (r : PortReq) : Option (Nat × Leaf) :=
  match s.portCtx r with
  | none => none
  | some n => (s.portPages n).find? fun (va, l) =>
      l.base ≤ r.dpa.toNat && r.dpa.toNat + r.size ≤ l.base + l.size && !s.ackedPage r.pasid va l.size &&
        match l.cls.toNat with
        | 0 => !r.write || l.w
        | 1 => !r.write && (s.leafFails l .read 4 0).isNone
        | _ => false

/-- Whether a request has the form of R75; its size and its address are multiples of a word (log entry 72). -/
def portFormed (r : PortReq) : Bool :=
  4 ≤ r.size && r.size ≤ 128 && r.size % 4 == 0 && r.dpa.toNat % 4 == 0 && r.dpa.toNat % 128 + r.size ≤ 128 &&
    r.data.all fun (i, _, _) => 4 * i + 4 ≤ r.size

/-- A word written by the guest for a packet, with its poison bit (R77, R83). -/
def State.portWrite (s : State) (r : PortReq) (a : Nat) (w : Word) (bad : Bool) : State :=
  let s := s.devWrite 0 a (natToBytes 4 w.toNat)
  let s := { s with adit := { s.adit with wrote := s.adit.wrote ++ [{ q := r.q, seq := r.seq, addr := a }] } }
  if bad then s.poisonWords [a / 4] else s

/-- GUEST_PORT_REQUEST (R75, R77): the request is checked and served at the home slice, or is a breach of cause ISOL. For one
that is not of the form of R75 the manual names no cause: it is one of the six. While the home slices hold its line, or a table entry
without which no page is found for it, the request is held (R53, R225). -/
def execGuestPortRequest (r : PortReq) (s : State) : Out :=
  .next (if s.adit.st ≠ .ready || s.swapping (.dev r.dpa.toNat) then s
    else if !portFormed r then s.fence (BitVec.ofNat 4 (1 + (s.free 660).toNat % 6)) none
    else match s.portLeaf r with
      | none => if s.portHeld r then s else s.fence 4 none
      | some (va, l) =>
        let a := r.dpa.toNat
        if r.write then r.data.foldl (fun s (i, w, bad) => s.portWrite r (a + 4 * i) w bad) s
        else
          let h : Hit := { pl := .dev a, leaf := some l, va := va / l.size * l.size + (a - l.base) }
          let ws := (List.range (r.size / 4)).map fun i =>
            (bytesToWord ((List.range 4).map fun j => s.leafByte h (4 * i + j)), s.hitPois h (4 * i))
          { s with adit := { s.adit with toPort := ws } })

end Sys2Proof.Machine
end

