-- ==== Sys2Proof/Machine/CrewOps.lean ====
section
/-! DEFINITION. Crew operations and the generator (R171, R274, R275, R339 to R346). -/

namespace Sys2Proof.Machine

/-- A source read from lane l by an instruction that another lane computes (R339): a vacant or exited lane gives zero
for every kind of source, a latch of a lane that does not compute is undefined. -/
def State.srcFrom (s : State) (p : Pulse) (l : Nat) (x : BitVec 8) : Word :=
  if (p.part ||| p.helpers).getLsbD l then s.src p.crew l x
  else if !((s.crew p.crew).lane l).present then 0
  else if isLatch x then s.free (256 + l)
  else s.src p.crew l x

/-- A crew operation's results, written only in the lanes of P (R339). -/
def State.crewOp (s : State) (p : Pulse) (d : BitVec 8) (write : Bool) (f : Nat → Result) : State :=
  let rs := (lanesOf p.part).map fun l => (l, f l)
  (s.setCrew p.crew ((s.crew p.crew).writeResults d write rs))

/-- shfl (R340): a vacant or exited lane gives zero. -/
def execShfl (f : FmtA) (s : State) : Out :=
  s.word (.shfl f) fun s p => s.crewOp p f.d (f.w == 1) fun t =>
    let u := shflLane (f.v == 1) t (s.src p.crew t f.b)
    if ((s.crew p.crew).lane u).present then .w (s.srcFrom p u f.a) else .w 0

/-- qxch (R341): P and its helpers. -/
def execQxch (f : FmtI) (s : State) : Out :=
  s.word (.qxch f) fun s p =>
    s.compute p f.d true fun l => .w (s.srcFrom p (qxchLane l (f.imm.extractLsb' 0 2).toNat) f.a)

/-- The lanes of P whose source is not zero (R342). -/
def State.nonzero (s : State) (p : Pulse) (a : BitVec 8) : List Nat :=
  (lanesOf p.part).filter fun l => s.src p.crew l a != 0

/-- vote (R342). -/
def execVote (f : FmtA) (s : State) : Out :=
  s.word (.vote f) fun s p =>
    let q := laneSet (s.nonzero p f.a)
    s.crewOp p f.d (f.w == 1) fun _ => .w (if f.v == 1 then hiWord q else loWord q)

/-- popm (R342). -/
def execPopm (f : FmtA) (s : State) : Out :=
  s.word (.popm f) fun s p =>
    let q := s.nonzero p f.a
    s.crewOp p f.d (f.w == 1) fun t =>
      .w (BitVec.ofNat 32 (if f.v == 1 then q.length else (q.filter (· < t)).length))

/-- elect (R342). -/
def execElect (f : FmtA) (s : State) : Out :=
  s.word (.elect f) fun s p =>
    let q := s.nonzero p f.a
    s.crewOp p f.d (f.w == 1) fun t => .w (if q.head? = some t then 1 else 0)

/-- match (R342). -/
def execMatchLow (f : FmtA) (s : State) : Out :=
  s.word (.matchLow f) fun s p =>
    let val := fun l => if f.v == 1 then s.src64 p.crew l f.a else (s.src p.crew l f.a).setWidth 64
    s.crewOp p f.d (f.w == 1) fun t =>
      .w (BitVec.ofNat 32 (((lanesOf p.part).find? fun u => val u == val t).getD t))

/-- One level of the tree of R274: neighbouring entries combine, an absent one passes the other. -/
def treeLevel {α : Type} (op : α → α → α) : List (Option α) → List (Option α)
  | a :: b :: rest =>
    (match a, b with
      | some x, some y => some (op x y)
      | some x, none => some x
      | none, y => y) :: treeLevel op rest
  | l => l

/-- The root of the tree over lane index (R274). -/
def treeRoot {α : Type} (op : α → α → α) (l : List (Option α)) : Option α :=
  (treeLevel op (treeLevel op (treeLevel op (treeLevel op (treeLevel op (treeLevel op l)))))).headD none

/-- The reduction over a set of lanes (R344). -/
def reduce {α : Type} (op : α → α → α) (val : Nat → α) (set : LaneSet) : Option α :=
  treeRoot op ((List.range 64).map fun l => if set.getLsbD l then some (val l) else none)

/-- The operations of class 0 (R343). -/
def redIntOp (b : BitVec 8) (unsigned : Bool) (x y : Word) : Word :=
  match b.toNat with
  | 0xE4 => x + y
  | 0xE5 => if below unsigned y x then y else x
  | 0xE6 => if below unsigned x y then y else x
  | 0xE7 => x &&& y
  | 0xE8 => x ||| y
  | _ => x ^^^ y

/-- The format of a float operation code (R343). -/
def redFmt (b : BitVec 8) : Fmt :=
  if b.toNat < 0xE7 then fp32 else if b.toNat < 0xEA then fp16 else bf16

/-- The operations of class 1 on encodings with the flags so far (R274, R343, R344). -/
def redFloatOp (b : BitVec 8) (x y : Nat × BitVec 4) : Nat × BitVec 4 :=
  let f := redFmt b
  match (b.toNat - 0xE4) % 3 with
  | 0 =>
    let (r, fl) := f.add (f.decode x.1) (f.decode y.1)
    (r, fl ||| x.2 ||| y.2)
  | 1 => (f.minmax false x.1 y.1, x.2 ||| y.2)
  | _ => (f.minmax true x.1 y.1, x.2 ||| y.2)

/-- The value of a reduction over a set of lanes as a word, with its flags. -/
def State.redOf (s : State) (p : Pulse) (float : Bool) (a b : BitVec 8) (v : BitVec 1) (set : LaneSet) : Result :=
  if float then
    let f := redFmt b
    let val := fun l => (bits (s.src p.crew l a).toNat 0 f.n, (0 : BitVec 4))
    match reduce (redFloatOp b) val set with
    | some (r, fl) => { words := [BitVec.ofNat 32 r], flags := fl }
    | none => .w 0
  else
    match reduce (redIntOp b (v == 1)) (fun l => s.src p.crew l a) set with
    | some r => .w r
    | none => .w 0

/-- The lanes of P at or below t (R344). -/
def upTo (part : LaneSet) (t : Nat) : LaneSet := laneSet ((lanesOf part).filter (· ≤ t))

/-- The head of t's segment (R344): the greatest lane at or below t among the lowest lane of P and the heads in P. -/
def segHead (part heads : LaneSet) (t : Nat) : Nat :=
  ((lanesOf part).filter fun u => u ≤ t && (u == lowLane part || heads.getLsbD u)).getLastD t

/-- The segment of t (R344). -/
def segment (part heads : LaneSet) (t : Nat) : LaneSet :=
  laneSet ((lanesOf part).filter fun u => segHead part heads u == segHead part heads t)

/-- A reduction instruction: each thread's set of lanes, the results, and the flags of the trees (R344). -/
def State.redOp (s : State) (p : Pulse) (f : FmtA) (float : Bool) (setOf : Nat → LaneSet) : State :=
  let res := fun t => s.redOf p float f.a f.b f.v (setOf t)
  let fl := (lanesOf p.part).foldl (fun x t => x ||| (res t).flags) 0
  (s.crewOp p f.d (f.w == 1) res).raiseFlags p fl

/-- cred of an integer type (R344). -/
def execCredInt (f : FmtA) (s : State) : Out :=
  s.word (.credInt f) fun s p => s.redOp p f false fun _ => p.part
/-- cscan of an integer type (R344). -/
def execCscanInt (f : FmtA) (s : State) : Out :=
  s.word (.cscanInt f) fun s p => s.redOp p f false (upTo p.part)
/-- csred of an integer type (R344). -/
def execCsredInt (f : FmtA) (lit : Word) (s : State) : Out :=
  s.word (.csredInt f lit) fun s p => s.redOp p f false (segment p.part (s.mask p (lit.extractLsb' 0 4).toNat))
/-- cred of a float type (R274, R344). -/
def execCredFloat (f : FmtA) (s : State) : Out :=
  s.word (.credFloat f) fun s p => s.redOp p f true fun _ => p.part
/-- cscan of a float type (R274, R344). -/
def execCscanFloat (f : FmtA) (s : State) : Out :=
  s.word (.cscanFloat f) fun s p => s.redOp p f true (upTo p.part)
/-- csred of a float type (R274, R344). -/
def execCsredFloat (f : FmtA) (lit : Word) (s : State) : Out :=
  s.word (.csredFloat f lit) fun s p => s.redOp p f true (segment p.part (s.mask p (lit.extractLsb' 0 4).toNat))

/-- The words of consecutive registers. -/
def State.srcBlock (s : State) (k l : Nat) (x : BitVec 8) (n : Nat) : List Word :=
  (List.range n).map fun i => s.src k l (regAt x i)

/-- 128 bits of four words, word 0 lowest, and back. -/
def words128 (ws : List Word) : Nat := bytesToNat (wordsToBytes ws)
/-- Four words of a number. -/
def to128 (x : Nat) : List Word := (List.range 4).map fun i => BitVec.ofNat 32 (x / 2 ^ (32 * i))

/-- rng.step (R345): output, counter plus one, push of the first output word. -/
def execRngStep (f : FmtA) (s : State) : Out :=
  s.word (.rngStep f) fun s p =>
    let c := p.computing.foldl (fun (c : Crew) l =>
      let k := s.srcBlock p.crew l f.a 4
      let n := s.srcBlock p.crew l (regAt f.a 4) 4
      let out := scg128 k n
      let c := if f.w == 1 then c.putAll l f.d out else c
      (c.putAll l (regAt f.a 4) (to128 (words128 n + 1))).push l (out.headD 0)) (s.crew p.crew)
    s.setCrew p.crew c

/-- rng.skip (R346): pushes no latch. -/
def execRngSkip (f : FmtA) (s : State) : Out :=
  s.word (.rngSkip f) fun s p =>
    let c := p.computing.foldl (fun (c : Crew) l =>
      let n := s.srcBlock p.crew l (regAt f.a 4) 4
      let k := s.srcBlock p.crew l f.b 4
      c.putAll l (regAt f.a 4) (to128 (words128 n + words128 k))) (s.crew p.crew)
    s.setCrew p.crew c

end Sys2Proof.Machine
end

