-- ==== Sys2Proof/Machine/Ctl.lean ====
section
/-! DEFINITION. Class 6: control words (R407 to R412). They set the targets that the end of the pulse applies (R158). -/

namespace Sys2Proof.Machine

/-- The address that a 22-bit offset names, relative to the clause header (R282, R408). -/
def Pulse.tgt (p : Pulse) (off : BitVec 22) : DWord := p.hdr + (off.signExtend 64 <<< 2)

/-- The threads that take a transfer, with their targets (R158). -/
def State.transfer (s : State) (p : Pulse) (ts : List (Nat × DWord)) : State :=
  { s with cur := some { p with targets := ts } }

/-- A uniform transfer of every thread of P, where the condition holds (R408). -/
def State.transferAll (s : State) (p : Pulse) (ok : Bool) (t : DWord) : State :=
  if ok then s.transfer p ((lanesOf p.part).map fun l => (l, t)) else s

/-- br (R408). -/
def execBr (f : FmtC) (s : State) : Out :=
  s.word (.br f) fun s p => s.transferAll p true (p.tgt f.off)

/-- br.d (R408): the threads whose mask bit is set. -/
def execBrD (f : FmtC) (s : State) : Out :=
  s.word (.brD f) fun s p =>
    s.transfer p ((lanesOf (p.part &&& s.mask p f.m.toNat)).map fun l => (l, p.tgt f.off))

/-- br.any (R408). -/
def execBrAny (f : FmtC) (s : State) : Out :=
  s.word (.brAny f) fun s p => s.transferAll p (s.mask p f.m.toNat &&& p.part != 0) (p.tgt f.off)

/-- br.all (R408). -/
def execBrAll (f : FmtC) (s : State) : Out :=
  s.word (.brAll f) fun s p => s.transferAll p (p.part &&& ~~~(s.mask p f.m.toNat) == 0) (p.tgt f.off)

/-- br.none (R408). -/
def execBrNone (f : FmtC) (s : State) : Out :=
  s.word (.brNone f) fun s p => s.transferAll p (s.mask p f.m.toNat &&& p.part == 0) (p.tgt f.off)

/-- The target of a switch for a value: the lowest case that matches, or the default (R409). -/
def switchTarget (p : Pulse) (dflt : BitVec 22) (x : Word) (cases : List Word) : DWord :=
  match cases.find? fun c => (c.extractLsb' 22 10).setWidth 32 == x with
  | some c => p.tgt (c.extractLsb' 0 22)
  | none => p.tgt dflt

/-- switch (R409): the operand word, then the case words. -/
def execSwitch (f : FmtC) (lits : List Word) (s : State) : Out :=
  s.word (.switch f lits) fun s p =>
    let x : BitVec 8 := (lits.headD 0).truncate 8
    s.transfer p ((lanesOf p.part).map fun l =>
      (l, switchTarget p f.off (s.src p.crew l x) (lits.tail.take ((f.m.extractLsb' 0 3).toNat + 1))))

/-- The register pair of a call or return (R407). -/
def linkReg (f : FmtC) : BitVec 8 := BitVec.ofNat 8 (2 * f.m.toNat)

/-- Write the return address into the pairs of the given lanes (R410). -/
def State.putLink (s : State) (p : Pulse) (f : FmtC) (ls : List Nat) : State :=
  s.setCrew p.crew (ls.foldl (fun c l => c.putAll l (linkReg f) [loWord p.nextPc, hiWord p.nextPc]) (s.crew p.crew))

/-- call (R410): a helper writes the return address into its own pair. -/
def execCall (f : FmtC) (s : State) : Out :=
  s.word (.call f) fun s p => (s.putLink p f p.computing).transferAll p true (p.tgt f.off)

/-- The threads of P that take MISALIGN because their pair is not a word address (R410). -/
def State.unaligned (s : State) (p : Pulse) (f : FmtC) : List Nat :=
  (lanesOf p.part).filter fun l => (s.src64 p.crew l (linkReg f)).extractLsb' 0 2 != 0

/-- What the threads of P take at an indirect transfer: MISALIGN, or behind it POISON of a poisoned pair (R289, R410). -/
def State.strays (s : State) (p : Pulse) (bad : LaneSet) (f : FmtC) : List Taken :=
  let off := s.unaligned p f
  (lanesOf p.part).filterMap fun l =>
    if off.contains l then some { lane := l, cause := .misalign, addr := s.src64 p.crew l (linkReg f) }
    else if bad.getLsbD l then some { lane := l, cause := .poison }
    else none

/-- Transfers to the addresses in the pairs; threads that take a cause stay (R410). -/
def State.indirect (s : State) (p : Pulse) (bad : LaneSet) (f : FmtC) (call : Bool) : State :=
  let takes := s.strays p bad f
  let good := (lanesOf p.part).filter fun l => !takes.any fun t => t.lane == l
  let ts := good.map fun l => (l, s.src64 p.crew l (linkReg f))
  let s := if call then s.putLink p f (good ++ lanesOf p.helpers) else s
  let s := s.transfer p ts
  s.deliverAt { p with targets := ts } takes

/-- callr (R410). -/
def execCallr (f : FmtC) (s : State) : Out := s.wordLate (.callr f) fun s p bad => s.indirect p bad f true
/-- ret (R410). -/
def execRet (f : FmtC) (s : State) : Out := s.wordLate (.ret f) fun s p bad => s.indirect p bad f false

/-- exit (R411): the threads of P become EXITED at the end of the pulse. -/
def execExit (f : FmtC) (s : State) : Out :=
  s.word (.exit f) fun s p => { s with cur := some { p with exits := p.part } }

end Sys2Proof.Machine
end

