-- ==== Sys2Proof/Machine/Fips.lean ====
section
/-! DEFINITION. The functions of FIPS 202 and FIPS 204 that R98 names: SHAKE256 and the verification of an ML-DSA-65 signature in its pure
form with the empty context string (log entry 5). -/

namespace Sys2Proof.Machine.Fips

/-! ## Keccak and SHAKE (FIPS 202) -/

/-- The round constants of Keccak-f[1600]. -/
def roundConsts : List DWord :=
  [0x0000000000000001, 0x0000000000008082, 0x800000000000808A, 0x8000000080008000, 0x000000000000808B, 0x0000000080000001,
   0x8000000080008081, 0x8000000000008009, 0x000000000000008A, 0x0000000000000088, 0x0000000080008009, 0x000000008000000A] ++
  [0x000000008000808B, 0x800000000000008B, 0x8000000000008089, 0x8000000000008003, 0x8000000000008002, 0x8000000000000080,
   0x000000000000800A, 0x800000008000000A, 0x8000000080008081, 0x8000000000008080, 0x0000000080000001, 0x8000000080008008]

/-- The rotations of rho, by x + 5 y. -/
def rotations : List Nat :=
  [0, 1, 62, 28, 27, 36, 44, 6, 55, 20, 3, 10, 43] ++ [25, 39, 41, 45, 15, 21, 8, 18, 2, 61, 56, 14]

/-- Lane (x, y) of a state of 25 lanes; the coordinates count modulo 5. -/
def lane (a : List DWord) (x y : Nat) : DWord := a.getD (x % 5 + 5 * (y % 5)) 0

/-- A state given lane by lane. -/
def lanes (f : Nat → Nat → DWord) : List DWord := (List.range 25).map fun i => f (i % 5) (i / 5)

/-- One round: theta, rho, pi, chi, iota. -/
def keccakRound (a : List DWord) (rc : DWord) : List DWord :=
  let c := (List.range 5).map fun x => lane a x 0 ^^^ lane a x 1 ^^^ lane a x 2 ^^^ lane a x 3 ^^^ lane a x 4
  let t := lanes fun x y => lane a x y ^^^ c.getD ((x + 4) % 5) 0 ^^^ (c.getD ((x + 1) % 5) 0).rotateLeft 1
  let r := List.zipWith (fun v n => v.rotateLeft n) t rotations
  let b := lanes fun x y => lane r (x + 3 * y) x
  let d := lanes fun x y => lane b x y ^^^ (~~~(lane b (x + 1) y) &&& lane b (x + 2) y)
  (lane d 0 0 ^^^ rc) :: d.tail

/-- Keccak-f[1600]. -/
def keccakF (a : List DWord) : List DWord := roundConsts.foldl keccakRound a

/-- The n lanes of a byte string. -/
def toLanes (bs : List Byte) (n : Nat) : List DWord :=
  (List.range n).map fun i => BitVec.ofNat 64 (bytesToNat ((bs.drop (8 * i)).take 8))

/-- A block is absorbed. -/
def absorbBlock (a : List DWord) (bs : List Byte) : List DWord :=
  keccakF (List.zipWith (· ^^^ ·) a (toLanes bs 25))

/-- The last block of a message: the suffix of SHAKE and the padding. -/
def lastBlock (rate : Nat) (bs : List Byte) : List Byte :=
  let b := bs ++ [0x1F] ++ List.replicate (rate - 1 - bs.length) 0
  b.take (rate - 1) ++ [b.getD (rate - 1) 0 ^^^ 0x80]

/-- Absorb a message: `fuel` is at least the number of its whole blocks. -/
def absorb (rate : Nat) : Nat → List DWord → List Byte → List DWord
  | 0, a, bs => absorbBlock a (lastBlock rate bs)
  | fuel + 1, a, bs =>
    if bs.length < rate then absorbBlock a (lastBlock rate bs)
    else absorb rate fuel (absorbBlock a (bs.take rate)) (bs.drop rate)

/-- The bytes of the first `rate` bytes of a state. -/
def stateBytes (rate : Nat) (a : List DWord) : List Byte := (a.take (rate / 8)).flatMap fun w => natToBytes 8 w.toNat

/-- The next n blocks of output. -/
def squeeze (rate : Nat) : Nat → List DWord → List Byte
  | 0, _ => []
  | n + 1, a => stateBytes rate a ++ squeeze rate n (keccakF a)

/-- SHAKE with a rate: n bytes of output. -/
def shake (rate : Nat) (msg : List Byte) (n : Nat) : List Byte :=
  (squeeze rate (n / rate + 1) (absorb rate (msg.length / rate) (List.replicate 25 0) msg)).take n

/-- SHAKE128: n bytes of output. -/
def shake128 (msg : List Byte) (n : Nat) : List Byte := shake 168 msg n

/-- SHAKE256: n bytes of output. -/
def shake256 (msg : List Byte) (n : Nat) : List Byte := shake 136 msg n

/-! ## ML-DSA-65 (FIPS 204) -/

/-- The modulus q. -/
def q : Nat := 8380417

/-- Powers modulo q. -/
def powMod (b : Nat) : Nat → Nat
  | 0 => 1
  | n + 1 => b * powMod b n % q

/-- The bits of a number below 256 in reverse. -/
def rev8 (n : Nat) : Nat := (List.range 8).foldl (fun r i => 2 * r + n / 2 ^ i % 2) 0

/-- The forward transform of 2^depth coefficients at node m of the tree: zeta is 1753. -/
def ntt : Nat → Nat → List Nat → List Nat
  | 0, _, l => l
  | d + 1, m, l =>
    let z := powMod 1753 (rev8 m)
    let lo := l.take (2 ^ d)
    let t := (l.drop (2 ^ d)).map fun x => z * x % q
    ntt d (2 * m) (List.zipWith (fun a b => (a + b) % q) lo t) ++ ntt d (2 * m + 1) (List.zipWith (fun a b => (a + q - b) % q) lo t)

/-- The inverse transform but for the factor 1/256. -/
def inttGo : Nat → Nat → List Nat → List Nat
  | 0, _, l => l
  | d + 1, m, l =>
    let z := powMod 1753 (512 - rev8 m)
    let lo := inttGo d (2 * m) (l.take (2 ^ d))
    let hi := inttGo d (2 * m + 1) (l.drop (2 ^ d))
    List.zipWith (fun a b => (a + b) % q) lo hi ++ List.zipWith (fun a b => z * (a + q - b) % q) lo hi

/-- The inverse transform. -/
def intt (l : List Nat) : List Nat := (inttGo 8 1 l).map fun x => 8347681 * x % q

/-- n unsigned values of w bits, low bits first. -/
def unpackBits (w n : Nat) (bs : List Byte) : List Nat :=
  let x := bytesToNat bs
  (List.range n).map fun i => x / 2 ^ (w * i) % 2 ^ w

/-- The coefficients below q among three-byte groups (RejNTTPoly). -/
def rejGo : List Byte → List Nat
  | a :: b :: c :: rest =>
    let z := a.toNat + 256 * b.toNat + 65536 * (c.toNat % 128)
    if z < q then z :: rejGo rest else rejGo rest
  | _ => []

/-- The polynomial in row r, column s of the matrix (ExpandA); of the 2,016 bytes drawn some 770 are used. -/
def expandA (rho : List Byte) (r s : Nat) : List Nat :=
  (rejGo (shake128 (rho ++ [BitVec.ofNat 8 s, BitVec.ofNat 8 r]) 2016)).take 256

/-- The challenge polynomial: positions from byte draws, for i from 207 on (SampleInBall). -/
def ballGo (signs : Nat) : Nat → List Byte → List Nat → List Nat
  | _, [], c => c
  | i, b :: bs, c =>
    if 256 ≤ i then c
    else if i < b.toNat then ballGo signs i bs c
    else
      let c := c.set i (c.getD b.toNat 0)
      ballGo signs (i + 1) bs (c.set b.toNat (if bit signs (i - 207) then q - 1 else 1))

/-- The challenge polynomial of a hash. -/
def sampleInBall (h : List Byte) : List Nat :=
  let out := shake256 h 1080
  ballGo (bytesToNat (out.take 8)) 207 (out.drop 8) (List.replicate 256 0)

/-- The positions of one polynomial's hint among the listed bytes: strictly ascending. -/
def ascending : List Nat → Bool
  | a :: b :: rest => a < b && ascending (b :: rest)
  | _ => true

/-- The hint of six polynomials, as positions of each (HintBitUnpack); none where it is not well-formed. -/
def hintOf (y : List Nat) : Option (List (List Nat)) :=
  let ends := (List.range 6).map fun i => y.getD (55 + i) 0
  let starts := 0 :: ends.take 5
  let ok := (List.zipWith (fun a b => decide (a ≤ b) && decide (b ≤ 55)) starts ends).all id
  let hs := List.zipWith (fun a b => ((y.take 55).drop a).take (b - a)) starts ends
  if ok && hs.all ascending && ((y.take 55).drop (ends.getD 5 0)).all (· == 0) then some hs else none

/-- The high part of a coefficient corrected by its hint (UseHint): 2 γ2 is 523,776. -/
def useHint (h : Bool) (r : Nat) : Nat :=
  let g := 523776
  let m := r % g
  let neg := decide (g / 2 < m)
  let hi := if neg then r / g + 1 else r / g
  let top := decide (hi = 16)
  let r1 := if top then 0 else hi
  if !h then r1 else if !neg && !top && m != 0 then (r1 + 1) % 16 else (r1 + 15) % 16

/-- The product of a row of the matrix with a vector, in the transform domain. -/
def dotRow (row v : List (List Nat)) : List Nat :=
  (List.zipWith (fun a b => List.zipWith (fun x y => x * y % q) a b) row v).foldl
    (fun acc p => List.zipWith (fun x y => (x + y) % q) acc p) (List.replicate 256 0)

/-- ML-DSA.Verify for the parameter set 65, with a message and the empty context string. -/
def mlDsa65Verify (key msg sig : List Byte) : Bool :=
  let rho := key.take 32
  let t1 := (List.range 6).map fun i => unpackBits 10 256 ((key.drop (32 + 320 * i)).take 320)
  let ch := sig.take 48
  let zs := (List.range 5).map fun i => unpackBits 20 256 ((sig.drop (48 + 640 * i)).take 640)
  let small := zs.all fun p => p.all fun v => decide (196 < v) && decide (v < 1048576 - 196)
  match hintOf ((sig.drop 3248).map (·.toNat)) with
  | none => false
  | some hs =>
    let mu := shake256 (shake256 key 64 ++ [0, 0] ++ msg) 64
    let zHat := zs.map fun p => ntt 8 1 (p.map fun v => (q + 524288 - v) % q)
    let c := ntt 8 1 (sampleInBall ch)
    let w := (List.range 6).map fun r =>
      let az := dotRow ((List.range 5).map (expandA rho r)) zHat
      let ct := List.zipWith (fun x y => x * y % q) c (ntt 8 1 ((t1.getD r []).map fun v => v * 8192 % q))
      intt (List.zipWith (fun x y => (x + q - y) % q) az ct)
    let w1 := List.zipWith (fun p h => (p.zip (List.range 256)).map fun (v, i) => useHint (h.contains i) v) w hs
    let packed := w1.flatMap fun p => (List.range 128).map fun i => BitVec.ofNat 8 (p.getD (2 * i) 0 + 16 * p.getD (2 * i + 1) 0)
    key.length == 1952 && sig.length == 3309 && small && shake256 (mu ++ packed) 48 == ch

end Sys2Proof.Machine.Fips
end

