-- ==== Sys2Proof/Machine/HostIo.lean ====
section
/-! DEFINITION. What the host and peers do to memory (R57, R97, R232), the host link's losses (R56), ATS and PRI (R212). -/

namespace Sys2Proof.Machine

/-- Bytes of the staging buffer (R97). -/
def stagingSize : Nat := 2 ^ 26

/-- Whether the HDM decoders are enabled (R55, R94): CXLM is acknowledged. Log entry 65. -/
def State.cxlMemOpen (s : State) : Bool := s.feature 1

/-- Update the posted writes that are not visible yet. -/
def State.modPosted (s : State) (f : List Posted → List Posted) : State :=
  { s with link := { s.link with posted := f s.link.posted } }

/-- Whether BAR2 addresses the staging buffer (R97). -/
def State.staged (s : State) : Bool := s.dev.st == .load || s.dev.st == .verify

/-- A write through BAR2 (R96, R97, R232): the staging buffer, or device memory by DPA, as far as it lies in usable memory; none
takes effect in BOOT. -/
def State.bar2Write (s : State) (a : Nat) (bs : List Byte) : State :=
  if s.dev.st = .boot then s
  else if s.staged then { s with dev := { s.dev with staging := Memory.writeN s.dev.staging a (bs.take (stagingSize - a)) } }
  else s.devWrite 0 a (bs.take (s.usable - a))

/-- A byte read through BAR2. -/
def State.bar2Byte (s : State) (a : Nat) : Byte :=
  if s.staged then (if a < stagingSize then Memory.read s.dev.staging a else 0)
  else if a < s.usable then s.devByte a else 0

/-- HOST_MEMORY_WRITE (R94, R97, R105, R232): the host writes its own memory, or device memory through BAR2 or CXL.mem. -/
def execHostMemoryWrite (path : HostPath) (addr : Nat) (data : List (BitVec 8)) (s : State) : Out :=
  .next (match path with
    | .host => s.hostWrite addr data
    | .bar2 => s.bar2Write addr data
    | .cxlMem => if s.cxlMemOpen then s.bar2Write addr data else s)

/-- HOST_MEMORY_READ (R94, R232): the host reads m bytes from n on through BAR2, or through CXL.mem where k is not 0. -/
def execHostMemoryRead (s : State) : Out :=
  .next (if s.subj.k ≠ 0 && !s.cxlMemOpen then s
    else { s with dev := { s.dev with hostData := (List.range s.subj.m).map fun i => s.bar2Byte (s.subj.n + i) } })

/-- Held posted writes become visible: all of a requester whose write without relaxed ordering arrives, any of the others (R57). -/
def State.showPosted (s : State) (requester : Option Nat) : List Posted → Nat → State
  | [], _ => s
  | w :: rest, i =>
    let s := if requester = some w.requester || Config.freeBool s.fresh (600 + i) then s.bar2Write w.addr w.data
      else s.modPosted (· ++ [w])
    s.showPosted requester rest (i + 1)

/-- PEER_POSTED_WRITE (R57): a posted write of the peer `subj.n` arrives. Without relaxed ordering it becomes visible now, after every earlier
write of its requester; with relaxed ordering it may be held, and become visible when a later write arrives. -/
def execPeerPostedWrite (relaxed : Bool) (dpa : Nat) (data : List (BitVec 8)) (s : State) : Out :=
  let requester := s.subj.n
  let held := s.link.posted
  let s := (s.modPosted fun _ => []).showPosted (if relaxed then none else some requester) held 0
  .next (if relaxed && Config.freeBool s.fresh 599 then s.modPosted (· ++ [{ requester, addr := dpa, data }])
    else s.bar2Write dpa data)

/-- HOST_LINK_WRITE_DROP (R56): the host link cannot complete the oldest store, or else the oldest reduction, of crew n, which
goes to a host-class page: it is dropped. -/
def execHostLinkWriteDrop (s : State) : Out :=
  let k := s.subj.n
  let c := s.crew k
  .next (match c.queue, c.atoms with
    | e :: rest, _ =>
      (match e.op with
        | .store p _ =>
          if p.onLink then ((s.setCrew k { c with queue := rest }).fall k e.lc e.ser).dropFault k e.va else s
        | _ => s)
    | [], a :: rest =>
      (match a.args.find? AtomArg.onLink with
        | some g =>
          if a.ret then s
          else
            let left := a.args.filter fun g => !g.onLink
            let s := s.setCrew k { c with atoms := if left.isEmpty then rest else { a with args := left } :: rest }
            (s.fall k a.lc a.ser).dropFault k g.linkVa
        | none => s)
    | [], [] => s)

/-! ## ATS and PRI -/

/-- ATS_INVALIDATION (R212): the host invalidates a range of a PASID; it is served as a shootdown in the context that owns the
PASID, and is complete at once where none does. -/
def execAtsInvalidation (pasid : BitVec 20) (base : BitVec 64) (log2 : Nat) (s : State) : Out :=
  .next (match s.ctxOfPasid pasid with
    | some n => (s.modCtx n fun c => { c with inval := c.inval ++ [(base, log2)] }).shootGuest pasid base log2
    | none => { s with dev := { s.dev with atsDone := s.dev.atsDone + 1 }, atsCache := s.atsCache.filter fun e => e.pasid != pasid })

/-- ATS_COMPLETION (R212): request i is answered with a host page, or negatively, which sends a PRI page request. -/
def execAtsCompletion (i : Nat) (pa : Option Nat) (s : State) : Out :=
  .next (match s.ats[i]? with
    | some q =>
      if q.pri then s
      else match pa with
        | some p =>
          let s := { s with ats := listDel s.ats i
                            atsCache := { pasid := (s.ctx q.ctx).pasid, addr := q.addr, hpa := p / 4096 * 4096 } :: s.atsCache }
          s.wakePage q.ctx (atsKey q.addr)
        | none => { s with ats := listSet s.ats i { q with pri := true } }
    | none => s)

/-- PRI_RESPONSE (R212, R222): a successful response repeats the translation; a failed one makes the access unresolvable. Where the
access that made the request no longer waits, another one that does is named, at an address that the request does not hold. -/
def execPriResponse (i : Nat) (ok : Bool) (s : State) : Out :=
  .next (match s.ats[i]? with
    | some q =>
      if !q.pri then s
      else if ok then { s with ats := listSet s.ats i { q with pri := false } }
      else ({ s with ats := listDel s.ats i }).denyPage q.ctx (atsKey q.addr) q.who (pair (s.free 670) (s.free 671))
    | none => s)

end Sys2Proof.Machine
end

