-- ==== Sys2Proof/Machine/Power.lean ====
section
/-! DEFINITION. Operating points, power, temperature, ageing (R12 to R28, R141 to R145), error counters (R26), lanes and
cores that retire (R29 to R33). -/

namespace Sys2Proof.Machine

/-- Reference ticks in 24 hours. -/
def ticksPerDay : Nat := 8640000000000

/-- Ticks of a list that lie within the last 24 hours. -/
def State.lastDay (s : State) (ts : List Nat) : List Nat := ts.filter fun t => s.tick < t + ticksPerDay

/-- Update the health block. -/
def State.modHealth (s : State) (f : Health → Health) : State := { s with health := f s.health }

/-! ## Lost dies -/

/-- The virtual die of a compute die (R10, R41). -/
def State.vdOf (s : State) (d : Nat) : Nat := (s.dies.findIdx? (· == d)).getD 4

/-- Whether a compute die is in service. -/
def State.inService (s : State) (d : Nat) : Bool := s.fuse.cdpres.getLsbD d && s.link.online.getLsbD (s.vdOf d)

/-- Whether a context holds a logical core bound on a virtual die (R144). -/
def State.boundOnDie (s : State) (n v : Nat) : Bool :=
  (s.boundCores n).any fun lc => vdOfSite (s.siteOf lc) == v

/-- The directory walk of R256: words that the die owned dirty are poisoned; requests of the die that were not performed, at the home
slices or still with its crews, are dropped. -/
def State.walkDirectory (s : State) (v : Nat) : State :=
  let owned := (s.dirty.filter fun e => e.2 = v + 1).map (·.1)
  let s := { s with dirty := s.dirty.filter fun e => e.2 != v + 1 }
  let s := s.poisonWords owned
  let mine := fun (k : Nat) => vdOfSite (s.siteOf (lcOf k)) == v
  { s with
    homeQ := s.homeQ.filter fun h => !mine h.crew
    crews := s.crews.map fun (e : Nat × Crew) => (e.1, if mine e.1 && e.2.holdsRegs then { e.2 with queue := [], atoms := [] } else e.2) }

/-- A compute die is lost (R17, R39, R144, R256). -/
def State.loseDie (s : State) (d : Nat) : State :=
  if !s.inService d then s
  else
    let v := s.vdOf d
    let s := { s with link := { s.link with online := s.link.online &&& ~~~(1#4 <<< v) } }
    let s := s.walkDirectory v
    let s := (List.range 64).foldl (fun s n => if s.boundOnDie n v then s.contextFault n { cause := 0x12 } else s) s
    s.setEvt 2

/-! ## Operating points -/

/-- Base core rail of a point in mV (R13). -/
def baseRail (p : Nat) : Nat := [750, 675, 640, 615, 600].getD p 600

/-- The guardband of a compute die in 5 mV steps. -/
def State.guardOf (s : State) (d : Nat) : Nat := (sget 0 s.dev.guard d : BitVec 8).toNat

/-- What a point needs on a die in mV (R13, R14). -/
def State.needs (s : State) (p d : Nat) : Nat := baseRail p + 5 * s.guardOf d

/-- The rail of a die at a point (R13), which never exceeds 780 mV (R14). -/
def State.railFor (s : State) (p d : Nat) : Nat := min 780 (s.needs p d)

/-- Compute dies in service. -/
def State.servedDies (s : State) : List Nat := (List.range 4).filter s.inService

/-- Whether a point is disabled (R14). -/
def State.pointOff (s : State) (p : Nat) : Bool := p < 4 && s.servedDies.any fun d => decide (780 < s.needs p d)

/-- The highest point that may be used now (R14, R18). -/
def State.topPoint (s : State) : Nat :=
  let t := min 4 s.health.target.toNat
  let t := if t = 0 && !(s.health.boost && s.feature 6) then 1 else t
  ((List.range 5).find? fun p => t ≤ p && !s.pointOff p).getD 4

/-- AGECAP (R14, R19): at least one point is disabled on the dies in service. -/
def State.agecap (s : State) : Bool := (List.range 4).any s.pointOff

/-- The rails of the dies in service take the values of a point; after a thermal trip they stay off (R23). -/
def State.setRails (s : State) (p : Nat) : State :=
  if s.dev.st = .trip then s
  else s.modHealth fun h => { h with rail := s.servedDies.foldl (fun m d => sset 0 m d (s.railFor p d)) h.rail }

/-- The point whose rails are applied now: CUR or, once the rails of an upward change are ramped, its target (R15). -/
def State.railPoint (s : State) : Nat :=
  match s.health.change with
  | some c => if (c.phase = .stall || c.phase = .gated) && c.target < s.health.cur.toNat then c.target else s.health.cur.toNat
  | none => s.health.cur.toNat

/-- The rail of one die takes the value of the point whose rails are applied now (R13, R15). -/
def State.railOf (s : State) (d : Nat) : State :=
  if s.dev.st = .trip then s else s.modHealth fun h => { h with rail := sset 0 h.rail d (s.railFor s.railPoint d) }

/-- The rails of the dies in service rise to what the guardbands need now; none falls (R13, R15). -/
def State.raiseRails (s : State) : State :=
  if s.dev.st = .trip then s
  else s.modHealth fun h => { h with rail := s.servedDies.foldl (fun m d =>
    sset 0 m d (max (sget 0 m d) (s.railFor s.railPoint d))) h.rail }

/-- A change of operating point starts (R15): a rising rail is ramped first, else the stall is broadcast. -/
def State.startChange (s : State) (p : Nat) : State :=
  let up := p < s.health.cur.toNat
  s.modHealth fun h => { h with change := some { target := p, phase := if up then .rampUp else .stall, start := s.tick } }

/-- Ticks that the ramp of a change takes at 10 mV per microsecond (R15). -/
def State.rampTicks (s : State) (p : Nat) : Nat :=
  s.servedDies.foldl (fun m d =>
    let old := sget 0 s.health.rail d
    let new := s.railFor p d
    max m (10 * (max old new - min old new))) 0

/-- RAIL_RAMP_DONE (R15): the rails have reached the new point's values. -/
def execRailRampDone (s : State) : Out :=
  .next (match s.health.change with
    | some c =>
      if c.start + s.rampTicks c.target ≤ s.tick then
        (match c.phase with
          | .rampUp => (s.setRails c.target).modHealth fun h => { h with change := some { c with phase := .stall, start := s.tick } }
          | .rampDown => (s.setRails c.target).modHealth fun h => { h with change := none }
          | _ => s)
      else s
    | none => s)

/-- Whether a compute die can acknowledge a stall: one of its modules to the control die is ACTIVE (R35, R40). -/
def State.canAck (s : State) (d : Nat) : Bool :=
  [0, 1, 2, 3].any fun i => (sget {} s.link.mods (4 * d + i)).st == .active

/-- STALL_ACK_TIMEOUT (R17, R40): the listed dies have not acknowledged the stall by tick 40, nor have those without an ACTIVE
module to the control die. -/
def execStallAckTimeout (dies : BitVec 4) (s : State) : Out :=
  .next (match s.health.change with
    | some c =>
      if c.phase = .stall && c.start + 40 ≤ s.tick then
        ((List.range 4).filter fun d => dies.getLsbD d || !s.canAck d).foldl State.loseDie s
      else s
    | none => s)

/-- CLOCK_GATE (R15, R40): every die in service has acknowledged, through an ACTIVE module, and the core clock is gated. -/
def execClockGate (s : State) : Out :=
  .next (match s.health.change with
    | some c =>
      if c.phase = .stall && s.servedDies.all s.canAck then
        s.modHealth fun h => { h with change := some { c with phase := .gated, start := s.tick } }
      else s
    | none => s)

/-- PLL_LOCK (R15, R19, R21): the PLL has locked, the clock is released and CUR shows the new point; a falling rail is ramped
now. -/
def execPllLock (s : State) : Out :=
  .next (match s.health.change with
    | some c =>
      if c.phase ≠ .gated then s
      else
        let down := s.health.cur.toNat < c.target
        let lim := s.health.pwrltd && !(c.target ≤ s.topPoint && !down)
        s.modHealth fun h => { h with
          cur := BitVec.ofNat 3 c.target, changes := h.changes + 1, pwrltd := lim
          change := if down then some { c with phase := .rampDown, start := s.tick } else none }
    | none => s)

/-- OPCTL_WRITE (R18): the host writes OPCTL. -/
def execOpctlWrite (v : BitVec 32) (s : State) : Out :=
  .next (if s.hostOpen then s.modHealth fun h => { h with target := v.extractLsb' 0 3, boost := v.getLsbD 3 } else s)

/-- PWRLIM_WRITE (R20): the host writes PWRLIM. -/
def execPwrlimWrite (v : BitVec 32) (s : State) : Out :=
  .next (if s.hostOpen then
      s.modHealth fun h => { h with limit := BitVec.ofNat 10 (max 200 (min 600 (v.extractLsb' 0 10).toNat)) } else s)

/-- A temperature in quarters of a degree (R22). -/
def tempOf (t : BitVec 12) : Int := t.toInt

/-- POWER_EVALUATION (R18, R21 to R23): the average power in watts and the junction temperatures of CD0 to CD3 and the control
die, every 10,000 ticks. `Any die` of R23 are the dies in service and the control die (log entry 59); after a thermal trip no point
changes. -/
def execPowerEvaluation (watts : Nat) (temps : List (BitVec 12)) (s : State) : Out :=
  .next (if s.tick < s.health.lastEval + 10000 then s
    else
      let h := s.health
      let cur := h.cur.toNat
      let top := s.topPoint
      let seen := ((temps.zip (List.range 5)).filter fun (_, n) => n = 4 || s.inService n).map fun (t, _) => tempOf t
      let above := h.limit.toNat < watts
      let hot := seen.any fun t => decide (460 ≤ t)
      let therm := if hot then true else if seen.all (fun t => decide (t < 440)) then false else h.therm
      let below := if 100 * watts < 95 * h.limit.toNat then min 10 (h.below95 + 1) else 0
      let trip := if cur = 4 && seen.any (fun t => decide (500 ≤ t)) then min 10 (h.hot + 1) else 0
      let limited := above || (h.pwrltd && !(below = 10 && cur ≤ top))
      let s := s.modHealth fun h => { h with
        lastEval := s.tick, therm, below95 := below, hot := trip, pwrltd := limited
        tj := (temps.zip (List.range 5)).foldl (fun m (t, n) => sset 0 m n t) h.tj }
      if s.health.change.isSome || s.dev.st = .trip then s
      else if (above || hot || cur < top) && cur < 4 then s.startChange (cur + 1)
      else if below = 10 && !above && !hot && !therm && top < cur && !s.pointOff (cur - 1) then s.startChange (cur - 1)
      else s)

/-- THERMAL_TRIP (R23, R96): ten evaluations in a row have found 125 °C at OP4. -/
def execThermalTrip (s : State) : Out :=
  .next (if s.health.hot < 10 || s.dev.st = .trip then s
    else
      let s := s.modHealth fun h => { h with rail := [], change := none }
      ({ s with dev := { s.dev with st := .trip } }).setEvt 0)

/-! ## Ageing -/

/-- The monitors of a core. -/
def State.agmOf (s : State) (p : Nat) : Agm := sget {} s.health.agm p
/-- Update the monitors of a core. -/
def State.modAgm (s : State) (p : Nat) (f : Agm → Agm) : State :=
  s.modHealth fun h => { h with agm := sset {} h.agm p (f (sget {} h.agm p)) }

/-- Reference ticks of a window (R27): 0 acts as 1. -/
def windowTicks (w : BitVec 8) : Nat := 100 * max 1 w.toNat

/-- AGMCTL_START (R11, R27): Ramord writes the word m to AGMCTL of core n: WINDOW takes its bits [15:8], and with START one a sample
of that window starts unless one is in progress. -/
def execAgmctlStart (s : State) : Out :=
  let w := BitVec.ofNat 8 (s.subj.m / 256)
  let start := s.subj.m % 2 = 1
  .next (if s.subj.n < 136 then
      s.modAgm s.subj.n fun a => { a with
        window := w, busy := a.busy || start, due := if start && !a.busy then s.tick + windowTicks w else a.due }
    else s)

/-- A sample is in the registers of its core. -/
def State.storeSample (s : State) (a : AgeSample) : State :=
  s.modAgm a.core fun x => { x with
    busy := false, temp := a.temp
    counts := ((a.counts.take 8).zip (List.range 8)).foldl (fun m (c, k) => sset 0 m k c) x.counts }

/-- AGEING_SAMPLE_DONE (R27): the window of the sample of a core is over. -/
def execAgeingSampleDone (a : AgeSample) (s : State) : Out :=
  .next (if (s.agmOf a.core).busy && decide ((s.agmOf a.core).due ≤ s.tick) then s.storeSample a
    else s)

/-- Steps of 5 mV that one monitor asks for (R28): the ceiling of 200 times the slowdown, exactly. -/
def monitorSteps (base : Nat) (tc : Int) (temp : Int) (count : Nat) : Nat :=
  let n4 : Int := 4 * count - tc * (temp - 340)
  let d4 : Int := 4 * base - n4
  if base = 0 || d4 ≤ 0 then 0 else ceilDiv (200 * d4.toNat) (4 * base)

/-- Whether a physical core is active (R28, which does not define the word): its die is in service and it is not retired, whether or not it
serves a site (DESIGN CHOICE, log entry 80). -/
def State.coreActive (s : State) (p : Nat) : Bool := s.inService (p / 34) && !s.ret.coreret.getLsbD p

/-- The guardband that the samples ask for on a die (R28). -/
def State.newGuard (s : State) (d : Nat) (samples : List AgeSample) : Nat :=
  (samples.filter fun a => a.core / 34 == d && s.coreActive a.core).foldl (fun g a =>
    ((a.counts.take 8).zip (List.range 8)).foldl (fun g (c, k) =>
      max g (monitorSteps (sget 0 s.fuse.agmBase (8 * a.core + k)).toNat (sget 0 s.fuse.agmTc (8 * a.core + k)).toInt
        (tempOf a.temp) c.toNat)) g) 0

/-- A die whose guardband exceeds 180 mV leaves service for good, whether or not its links have trained (R14, R33). -/
def State.dropOld (s : State) (d : Nat) : State :=
  if s.fuse.cdpres.getLsbD d && !s.ret.dieoff.getLsbD d && 36 < s.guardOf d then
    (({ s with ret := { s.ret with dieoff := s.ret.dieoff ||| (1#4 <<< d) } }).loseDie d).setEvt 2
  else s

/-- The dies that have grown too old leave service, and the rails follow the guardbands (R13, R14). -/
def State.settleGuard (s : State) : State := ((List.range 4).foldl State.dropOld s).raiseRails

/-- Before RUN, a current point that the guardbands disable gives way to the next lower one at once (R14, R19; log entry 29). -/
def State.startPoint (s : State) : State :=
  match (List.range 5).find? fun p => s.health.cur.toNat ≤ p && !s.pointOff p with
  | some p => (s.modHealth fun h => { h with cur := BitVec.ofNat 3 p }).setRails p
  | none => s

/-- The guardbands are recomputed from samples of the cores; they never fall (R28). -/
def State.recompute (s : State) (samples : List AgeSample) : State :=
  let s' := samples.foldl (fun s a => (s.modAgm a.core fun x => { x with window := 0x0A }).storeSample a) s
  let g := (List.range 4).foldl (fun m d =>
    if s.inService d then sset 0 m d (BitVec.ofNat 8 (min 255 (max (s.guardOf d) (s.newGuard d samples)))) else m) s.dev.guard
  (({ s' with dev := { s'.dev with guard := g } }).modHealth fun h => { h with guardTick := s.tick }).settleGuard

/-- GUARDBAND_RECOMPUTE (R14, R28): at a cold start, once Ramord runs, and after every 24 hours. -/
def execGuardbandRecompute (samples : List AgeSample) (s : State) : Out :=
  .next (if s.dev.st = .negotiate then (s.recompute samples).startPoint
    else if s.health.guardTick + ticksPerDay ≤ s.tick then s.recompute samples else s)

/-! ## Lanes and cores -/

/-- LANECTL of partition 4p + q (R31). -/
def State.laneCtl (s : State) (part : Nat) : LaneCtl := sget {} s.health.lanes part
/-- Update LANECTL of a partition. -/
def State.modLaneCtl (s : State) (part : Nat) (f : LaneCtl → LaneCtl) : State :=
  s.modHealth fun h => { h with lanes := sset {} h.lanes part (f (sget {} h.lanes part)) }

/-- The physical lanes that logical lanes 0 to 31 of a partition name, in that order (R29): the 32 lowest that are not retired. -/
def LaneCtl.physical (l : LaneCtl) : List Nat :=
  ((List.range 34).filter fun i => i ≠ l.first.toNat && i ≠ l.second.toNat).take 32

/-- USED (R31). -/
def LaneCtl.used (l : LaneCtl) : Nat := (if l.first = 0x3F then 0 else 1) + (if l.second = 0x3F then 0 else 1)

/-- The site that a physical core serves (R9, R32). -/
def State.siteOfCore (s : State) (p : Nat) : Option Nat :=
  (List.range 128).find? fun site => vdOfSite site < s.dies.length && s.physOf site == p && !s.ret.siteoff.getLsbD site

/-- A physical core is retired (R32, R33); a core that serves no site only enters the record. -/
def State.retireCore (s : State) (p : Nat) : State :=
  if s.ret.coreret.getLsbD p then s
  else match s.siteOfCore p with
    | some site => s.retireSite site
    | none => { s with ret := { s.ret with coreret := s.ret.coreret ||| (1#136 <<< p) } }

/-- A request to retire a lane (R31, R32). -/
def State.laneRequest (s : State) (part lane : Nat) : State :=
  let l := s.laneCtl part
  let s := s.modLaneCtl part fun l => { l with req := BitVec.ofNat 6 lane }
  if l.busy.isSome || 33 < lane || l.first.toNat = lane || l.second.toNat = lane then s
  else if l.used = 2 then (s.modLaneCtl part fun l => { l with nospare := true }).retireCore (part / 4)
  else s.modLaneCtl part fun l => { l with busy := some (BitVec.ofNat 6 lane) }

/-- LANECTL_REQ (R11, R30, R31): Ramord writes the word m to LANECTL of partition n: REQLANE takes its bits [5:0], and bit 6 is REQ. -/
def execLanectlReq (s : State) : Out :=
  .next (if 544 ≤ s.subj.n then s
    else if bit s.subj.m 6 then s.laneRequest s.subj.n (s.subj.m % 64)
    else s.modLaneCtl s.subj.n fun l => { l with req := BitVec.ofNat 6 s.subj.m })

/-- A lane is marked retired (R29, R31). -/
def LaneCtl.retire (l : LaneCtl) (lane : BitVec 6) : LaneCtl :=
  if l.first = 0x3F then { l with first := lane } else { l with second := lane }

/-- LANE_REMAP (R30): the lane of partition n whose retirement is in progress is marked retired, once no clause runs on the
partition (log entry 60). -/
def execLaneRemap (s : State) : Out :=
  .next (match (s.laneCtl s.subj.n).busy with
    | some lane =>
      if s.clocked && s.cur.isNone then (s.modLaneCtl s.subj.n fun l => { (l.retire lane) with busy := none }).setEvt 5 else s
    | none => s)

/-- MATRIX_SELF_TEST (R16, R141, R142): a self-test of the matrix unit n = 4p + q has run, one in each period of 200,000 ticks;
after a mismatch the next two are the retests, which run at once. -/
def execMatrixSelfTest (pass : Bool) (s : State) : Out :=
  let u := s.subj.n
  let left := sget 0 s.health.retest u
  let set := fun (s : State) (n : Nat) => s.modHealth fun h => { h with retest := sset 0 h.retest u n }
  .next (if !s.clocked || 544 ≤ u then s
    else if 0 < left then
      (if pass then set s (left - 1) else (set s 0).retireCore (u / 4))
    else if s.tick / 200000 < sget 0 s.health.tested u then s
    else
      let s := s.modHealth fun h => { h with tested := sset 0 h.tested u (s.tick / 200000 + 1) }
      if pass then s
      else
        let seen := s.lastDay (sget [] s.health.mismatch u) ++ [s.tick]
        let s := (set s 2).modHealth fun h => { h with mismatch := sset [] h.mismatch u seen }
        if 3 ≤ seen.length then s.retireCore (u / 4) else s)

/-! ## Errors -/

/-- A saturating 16-bit counter. -/
def sat16 (x : BitVec 16) : BitVec 16 := if x = 0xFFFF then x else x + 1

/-- ERRCNT.CE of a die advances (R26). -/
def State.countCe (s : State) (n : Nat) : State :=
  s.modHealth fun h => { h with ceCount := sset 0 h.ceCount n (sat16 (sget 0 h.ceCount n)) }
/-- ERRCNT.UE of a die advances (R26). -/
def State.countUe (s : State) (n : Nat) : State :=
  s.modHealth fun h => { h with ueCount := sset 0 h.ueCount n (sat16 (sget 0 h.ueCount n)) }

end Sys2Proof.Machine
end

