-- ==== Sys2Proof/Machine/Links.lean ====
section
/-! DEFINITION. Die links (R35 to R41, R145), memory channels, scrubbing and channel retirement (R45 to R54), errors of
structures (R25, R30). -/

namespace Sys2Proof.Machine

/-- Update the link and memory block. -/
def State.modLink (s : State) (f : Link → Link) : State := { s with link := f s.link }

/-! ## Modules -/

/-- A link module (R37). -/
def State.lmod (s : State) (m : Nat) : LinkMod := sget {} s.link.mods m
/-- Update a link module. -/
def State.modMod (s : State) (m : Nat) (f : LinkMod → LinkMod) : State :=
  s.modLink fun l => { l with mods := sset {} l.mods m (f (sget {} l.mods m)) }

/-- Whether a module exists on the part (R35, R37). -/
def State.modPresent (s : State) (m : Nat) : Bool :=
  if m < 16 then s.fuse.cdpres.getLsbD (m / 4)
  else if m < 24 then s.fuse.cdpres.getLsbD ((m - 16) / 2) && s.fuse.cdpres.getLsbD (((m - 16) / 2 + 1) % 4)
  else m < 26

/-- LINK_CRC_ERROR (R36, R38, R39): a flit on module m fails its CRC and is replayed. Whether the error strikes the flit of the
error before it is not known to the model; the eighth of one flit puts the module into RETRAIN. -/
def execLinkCrcError (s : State) : Out :=
  let m := s.subj.n
  let x := s.lmod m
  .next (if x.st ≠ .active || !s.modPresent m then s
    else
      let n := if Config.freeBool s.fresh m then x.consecutive + 1 else 1
      let y := { x with crcerr := sat16 x.crcerr, replays := sat16 x.replays, consecutive := n }
      s.modMod m fun _ => if 8 ≤ n then { y with st := .retrain, retrains := sat16 x.retrains, consecutive := 0 } else y)

/-- What a module that went DOWN means for its link (R39). -/
def State.linkDown (s : State) (m : Nat) : State :=
  let down := fun (k : Nat) => (s.lmod k).st == .down
  if m < 16 then (if [0, 1, 2, 3].all (fun i => down (4 * (m / 4) + i)) then s.loseDie (m / 4) else s)
  else if m = 24 || m = 25 then (if down 24 && down 25 then s.fence 6 none else s)
  else s

/-- RETRAIN_END (R39): retraining of module m ends: with lanes repaired, at half width where repair lanes are exhausted, or
DOWN. REPAIRED counts modulo 8 (log entry 61). A module of the socket that is ACTIVE again may make the guest READY (R64). -/
def execRetrainEnd (m : Nat) (ok : Bool) (repaired : Nat) (half : Bool) (s : State) : Out :=
  .next (if (s.lmod m).st ≠ .retrain then s
    else if ok then
      (s.modMod m fun x =>
        { x with st := .active, repaired := x.repaired + BitVec.ofNat 3 repaired, width := if half then 32 else x.width }).settleReady
    else (s.modMod m fun x => { x with st := .down, width := 0 }).linkDown m)

/-- The modules of a die that rejoins have trained again (log entry 62): those to the control die that were DOWN are ACTIVE, at a
width that is free. -/
def State.retrainDie (s : State) (d : Nat) : State :=
  [0, 1, 2, 3].foldl (fun s i => s.modMod (4 * d + i) fun x =>
    if x.st = .down then { x with st := .active, width := if Config.freeBool s.fresh (640 + i) then 64 else 32 } else x) s

/-- DIE_REJOIN (R145): the lost compute die n has been reset and has passed its self-tests. -/
def execDieRejoin (s : State) : Out :=
  let d := s.subj.n
  .next (if d < 4 && s.fuse.cdpres.getLsbD d && !s.inService d && !s.ret.dieoff.getLsbD d && s.dev.st = .run then
      ((s.retrainDie d).modLink fun l => { l with online := l.online ||| (1#4 <<< s.vdOf d) }).railOf d
    else s)

/-! ## Channels -/

/-- Update a memory channel. -/
def State.modChan (s : State) (c : Nat) (f : Chan → Chan) : State :=
  s.modLink fun l => { l with chans := sset {} l.chans c (f (sget {} l.chans c)) }

/-- Channel capacity in bytes (R46). -/
def State.chanBytes (s : State) : Nat := 2 ^ (30 + s.link.cap.toNat)

/-- The channel to which way c moves the line at offset o (R50). -/
def State.moveTarget (s : State) (c o : Nat) : Nat :=
  let k := o / (s.chanBytes / 32)
  if k < c then k else k + 1

/-- 2 MiB chunks that a migration moves (R53). -/
def State.chunks (s : State) : Nat := 31 * s.chanBytes / 32 / 2097152

/-- The offset in the reserve to which way c moves the line at offset o (R50). -/
def State.movedOffset (s : State) (o : Nat) : Nat := 31 * s.chanBytes / 32 + o % (s.chanBytes / 32)

/-- Whether the line at offset o of way c is served from the reserve: in a migration the chunks that have moved are; the one that moves
now is held until it has moved (R50, R53; `State.chunkMoves`). -/
def State.isMoved (s : State) (c o : Nat) : Bool :=
  match (s.chan c).st with
  | .active => false
  | .retired => true
  | .migrating => decide (o / 2097152 < (s.chan c).done.toNat)

/-- The channel, and the offset within it, that serve a DPA (R44, R50, R53). -/
def State.storedAt (s : State) (dpa : Nat) : Nat × Nat :=
  let c := wayOf dpa
  let o := chanOffset dpa
  if s.isMoved c o then (s.moveTarget c o, s.movedOffset o) else (c, o)

/-- The channel that serves a DPA. -/
def State.channelOf (s : State) (dpa : Nat) : Nat := (s.storedAt dpa).1

/-- The channel that is not ACTIVE, if there is one. -/
def State.goneChannel (s : State) : Option Nat := (List.range 32).find? fun c => (s.chan c).st != .active

/-- A request to retire a channel (R51, R53). -/
def State.retireChannel (s : State) (c : Nat) : State :=
  let s := s.modLink fun l => { l with reqch := BitVec.ofNat 5 c }
  if s.link.mcBusy then s
  else if !s.link.resv || s.goneChannel.isSome then s.modLink fun l => { l with nores := true }
  else (s.modLink fun l => { l with mcBusy := true, nores := false, moving := s.swap.isNone }).modChan c fun x =>
    { x with st := .migrating, done := 0 }

/-- MCRET_REQ (R51): the host writes MCRET. -/
def execMcretReq (v : BitVec 32) (s : State) : Out :=
  .next (if !s.hostOpen then s
    else if v.getLsbD 5 then s.retireChannel (v.extractLsb' 0 5).toNat
    else s.modLink fun l => { l with reqch := v.extractLsb' 0 5 })

/-- Whether a context's next translation command is a SWAP, which starts at the next chunk boundary (R53, R225). -/
def State.swapWaits (s : State) : Bool :=
  (List.range 64).any fun n => match s.nextCmd n with
    | some bs => !cmdBad bs && (xcmdOf bs).op == 5
    | none => false

/-- MIGRATION_CHUNK_DONE (R16, R53): the swap engine has moved a chunk; after the last one the channel is RETIRED. At the boundary a
frame exchange that waits goes first; while one is in progress no chunk moves (R225). -/
def execMigrationChunkDone (s : State) : Out :=
  .next (match s.goneChannel with
    | some c =>
      if !s.clocked || !s.link.mcBusy || (s.chan c).st ≠ .migrating || s.swap.isSome then s
      else
        let n := (s.chan c).done.toNat + 1
        let s := s.modChan c fun x => { x with done := BitVec.ofNat 13 n }
        if n < s.chunks then (s.modLink fun l => { l with moving := !s.swapWaits }).settleGroups
        else
          let s := (s.modChan c fun x => { x with st := .retired }).modLink fun l => { l with mcBusy := false, moving := false }
          ({ s with ret := { s.ret with chret := some c } }).setEvt 3
    | none => s)

/-- The channel of way c returns no data any more: its words arrive poisoned, but for those that a die L2 holds dirty (R53). -/
def State.loseWay (s : State) (c : Nat) : State :=
  let mine := fun (w : Nat) => wayOf (4 * w) == c
  let kept := (s.dirty.filter fun e => mine e.1 && !s.wordPois e.1).map (·.1)
  let s := { s with poison := s.poison.filter fun e => !mine e.1 }
  { (s.modLink fun l => { l with deadWay := some c }) with poison := kept.foldl (fun m w => sset false m w true) s.poison }

/-- CHANNEL_RETRAIN_FAIL (R51, R53, R54): channel n fails retraining in RUN; Ramord retires it, and every word of it arrives
poisoned. Where the request is refused the channel stays in service as it is (log entry 63). -/
def execChannelRetrainFail (s : State) : Out :=
  let c := s.subj.n
  .next (if s.dev.st ≠ .run || 32 ≤ c || (s.chan c).st ≠ .active then s
    else
      let ok := !s.link.mcBusy && s.link.resv && s.goneChannel.isNone
      let s := s.retireChannel c
      if ok then s.loseWay c else s)

/-- A corrected error of a channel (R48, R49, R51). -/
def State.chanCe (s : State) (c : Nat) : State :=
  let seen := s.lastDay (s.chan c).recent ++ [s.tick]
  let s := s.modChan c fun x => { x with ce := sat16 x.ce, recent := seen }
  if s.link.cethr ≠ 0 && s.link.cethr.toNat ≤ seen.length && (s.chan c).st = .active then s.retireChannel c else s

/-- ECC_CORRECTED (R25, R49): a corrected error on a die (4 for the control die), on a channel where it is one's. -/
def execEccCorrected (die : Nat) (chan : Option Nat) (s : State) : Out :=
  let s := s.countCe die
  .next (match chan with
    | some c => s.chanCe c
    | none => s)

/-- SCRUBCTL_WRITE (R48): the host writes SCRUBCTL. -/
def execScrubctlWrite (v : BitVec 32) (s : State) : Out :=
  .next (if s.hostOpen then s.modLink fun l => { l with period := v.extractLsb' 0 8, cethr := v.extractLsb' 16 8 } else s)

/-- PATROL_SCRUB_READ (R45, R48): a patrol read of the sector that holds a DPA. -/
def execPatrolScrubRead (dpa : Nat) (found : ReadOutcome) (s : State) : Out :=
  let c := s.channelOf dpa
  .next (if s.link.period = 0 || s.usable ≤ dpa then s
    else match found with
      | .clean => s
      | .corrected => s.chanCe c
      | .uncorrectable =>
        let s := s.modChan c fun x => { x with ue := sat16 x.ue }
        s.poisonWords (((List.range 8).map fun i => dpa / 32 * 8 + i).filter fun w => sget 0 s.dirty w = 0))

/-! ## Errors of structures -/

/-- A register of crew k is poisoned. -/
def Crew.poisonReg (c : Crew) (r : Bool × Nat × Nat) : Crew :=
  if r.1 then { c with sPois := sset false c.sPois r.2.1 true }
  else { c with vPois := sset false c.vPois (64 * r.2.1 + r.2.2) true }

/-- The two words of the 64 bits that hold an address (R25). -/
def pairOf (a : Nat) : List Nat := [2 * (a / 8), 2 * (a / 8) + 1]

/-- What an uncorrectable error does where it strikes (R25); a sector of a memory channel is
poisoned but for the words that a write brings and those that a die L2 holds (R45, R49). -/
def State.strike (s : State) (w : ErrorSite) : State :=
  match w with
  | .data false a => s.poisonWords (pairOf a)
  | .data true a => { s with hostPois := ssetAll false s.hostPois (pairOf a) true }
  | .tags false v a words =>
    let ws := (List.range words).map fun i => a / 4 + i
    let s := { s with dirty := s.dirty.filter fun e => e.2 != v + 1 || !ws.contains e.1 }
    s.poisonWords ws
  | .tags true _ a words => { s with hostPois := ssetAll false s.hostPois ((List.range words).map fun i => a / 4 + i) true }
  | .vreg k r l => if (s.crew k).alive then s.modCrew k fun c => c.poisonReg (false, r, l) else s
  | .buffer lc buf off => s.modLcore lc fun c => { c with pois := sset false c.pois (bufKey buf off / 4) true }
  | .local b off => s.modBlock b fun x => { x with pois := sset false x.pois (off / 4) true }
  | .sector dpa written =>
    let c := s.channelOf dpa
    let s := s.modChan c fun x => { x with ue := sat16 x.ue }
    s.poisonWords (((List.range 8).map fun i => dpa / 32 * 8 + i).filter fun w => sget 0 s.dirty w = 0 && !written.contains w)
  | .control k => s.contextFault (ctxOf k) { cause := 0x0B }

/-- ECC_UNCORRECTABLE (R25): an uncorrectable error on a die (4 for the control die). -/
def execEccUncorrectable (die : Nat) (w : ErrorSite) (s : State) : Out := .next ((s.countUe die).strike w)

/-- PARITY_ERROR (R25, R29, R30): the words that the affected instruction writes are poisoned; the error is attributed to the
physical lane that the logical lane names, and three errors of a lane within 24 hours retire it. -/
def execParityError (e : ParityHit) (s : State) : Out :=
  let s := s.countUe (e.part / 4 / 34)
  let s := if (s.crew e.crew).alive then s.modCrew e.crew fun c => e.regs.foldl Crew.poisonReg c else s
  let s := e.words.foldl State.strike s
  let lane := (s.laneCtl e.part).physical.getD (e.lane % 32) 0
  let key := 64 * e.part + lane
  let seen := s.lastDay (sget [] s.health.parity key) ++ [s.tick]
  let s := s.modHealth fun h => { h with parity := sset [] h.parity key seen }
  .next (if 3 ≤ seen.length then s.laneRequest e.part lane else s)

end Sys2Proof.Machine
end

