-- ==== Sys2Proof/Machine/Device.lean ====
section
/-! DEFINITION. The device block (R91 to R99): cold start, verification of the firmware image, start-up, features, attestation. -/

namespace Sys2Proof.Machine

/-- Update the device block. -/
def State.modDev (s : State) (f : Dev → Dev) : State := { s with dev := f s.dev }

/-! ## Cold start -/

/-- COLD_START (R96): everything is as after reset but what does not belong to the device: the fuses, host memory, whether a
guest die fills the socket, and the model's own schedule and numbering. -/
def execColdStart (s : State) : Out :=
  let r := State.reset
  .next { r with
    schedule := s.schedule, subj := s.subj, fresh := s.fresh, fuse := s.fuse
    adit := { r.adit with st := if s.adit.st = .absent then .absent else .reset }
    hostMem := s.hostMem, hostPois := s.hostPois, hostLineW := s.hostLineW, writes := s.writes }

/-! ## Verification -/

/-- DEVCTL.LOAD written one (R96). -/
def State.startLoad (s : State) : State := if s.dev.st = .load then s.modDev fun d => { d with st := .verify } else s

/-- DEVCTL_LOAD (R96). -/
def execDevctlLoad (s : State) : Out := .next s.startLoad

/-- n bytes of the image from an offset (R97). -/
def State.image (s : State) (o n : Nat) : List Byte := Memory.readN s.dev.staging o n

/-- A 32-bit word of the image. -/
def State.imageWord (s : State) (o : Nat) : Nat := bytesToNat (s.image o 4)

/-- The first check of R98 that fails. -/
def State.verifyFails (s : State) : Option (BitVec 4) :=
  let body := s.imageWord 8
  let key := s.image 0x40 1952
  let digest := Fips.shake256 (s.image 0 0x800 ++ s.image 0x2000 body) 64
  if s.imageWord 0 ≠ 0x444D524F || s.imageWord 4 ≠ 1 then some 1
  else if body % 4096 ≠ 0 || s.dev.fwlen.toNat ≠ 0x3000 + body || 2 ^ 26 < s.dev.fwlen.toNat then some 2
  else if Fips.shake256 key 32 ≠ natToBytes 32 s.fuse.keyHash.toNat then some 3
  else if !Fips.mlDsa65Verify key digest (s.image 0x800 3309) then some 4
  else if s.imageWord 12 < s.fuse.svnMin.toNat then some 5
  else none

/-- The device stops in FWFAIL (R96). -/
def State.fwFail (s : State) (n : BitVec 4) : State := s.modDev fun d => { d with st := .fwfail, fwerr := n }

/-- A field of the board data (R97). -/
def State.boardField (s : State) (o n : Nat) : Nat := field s.dev.board o n

/-- A field of the retirement record in the board data; a record of another FORMAT is taken as empty (R33). -/
def State.recField (s : State) (o n : Nat) : Nat := if s.boardField 0x800 4 = 1 then s.boardField (0x800 + o) n else 0

/-- The channel that the record in the board data names (R33). -/
def State.recChannel (s : State) : Option Nat := if bit (s.recField 4 4) 5 then some (bits (s.recField 4 4) 0 5) else none

/-- The die-link modules begin to train (R37; log entry 61). -/
def State.trainLinks (s : State) : State :=
  ((List.range 24).filter s.modPresent).foldl (fun s m => s.modMod m fun x => { x with st := .train }) s

/-- BOOT is entered (R37, R54): the die links train, and with the reserve withheld the channel that the record names is RETIRED. -/
def State.enterBoot (s : State) : State :=
  let s := s.trainLinks
  match s.recChannel with
  | some c => if bit (s.boardField 4 4) 3 then s.modChan c fun x => { x with st := .retired } else s
  | none => s

/-- VERIFICATION_END (R96 to R98): the image has been checked; the staging contents are lost at BOOT. -/
def execVerificationEnd (s : State) : Out :=
  .next (if s.dev.st ≠ .verify then s
    else match s.verifyFails with
      | some n => s.fwFail n
      | none =>
        let body := s.imageWord 8
        let board := s.image (0x2000 + body) 4096
        (s.modDev fun d => { d with
          st := .boot, board, staging := []
          imgdig := BitVec.ofNat 512 (bytesToNat (Fips.shake256 (s.image 0 (0x2000 + body)) 64))
          brddig := BitVec.ofNat 512 (bytesToNat (Fips.shake256 board 64))
          fwver := BitVec.ofNat 32 (s.imageWord 16), fwsvn := BitVec.ofNat 32 (s.imageWord 12) }).enterBoot)

/-! ## Start-up -/

/-- Whether the board data is valid (R97): every byte that R97 does not name is zero. -/
def State.boardOk (s : State) : Bool :=
  s.boardField 0 4 == 1 && bits (s.boardField 4 4) 0 3 ≤ 4 && bits (s.boardField 4 4) 4 28 == 0 &&
    ((s.dev.board.drop 0xC).take (0x800 - 0xC)).all (· == 0)

/-- The lanes that the record names for a partition (R33). -/
def State.recLanes (s : State) (part : Nat) : BitVec 6 × BitVec 6 :=
  if s.boardField 0x800 4 = 1 then
    let w := s.boardField (0x900 + 2 * part) 2
    (BitVec.ofNat 6 (bits w 0 6), BitVec.ofNat 6 (bits w 6 6))
  else (0x3F, 0x3F)

/-- Bit 2d + g: a core of the gallery is retired and its site has not left placement, so the spare has its identity (R33). -/
def State.recSpares (s : State) : BitVec 8 :=
  (List.range 8).foldl (fun m b =>
    let site := fun (c : Nat) => 32 * s.vdOf (b / 2) + 16 * (b % 2) + c
    if (List.range 16).any fun c => s.ret.coreret.getLsbD (17 * b + c) && !s.ret.siteoff.getLsbD (site c) then m ||| (1#8 <<< b)
    else m) 0

/-- The retirement record is applied (R33). -/
def State.applyRecord (s : State) : State :=
  let s := { s with ret := { chret := s.recChannel, dieoff := BitVec.ofNat 4 (s.recField 8 4), coreret := BitVec.ofNat 136 (s.recField 0x10 32)
                             siteoff := BitVec.ofNat 128 (s.recField 0x30 16) } }
  let s := (List.range 544).foldl (fun s part => s.modLaneCtl part fun l =>
    { l with first := (s.recLanes part).1, second := (s.recLanes part).2 }) s
  s.modHealth fun h => { h with spareuse := s.recSpares }

/-- A core that fails a start-up test is retired (R32, R33). -/
def State.bootRetire (s : State) (p : Nat) : State :=
  if s.ret.coreret.getLsbD p then s
  else
    let mark := fun (s : State) => { s with ret := { s.ret with coreret := s.ret.coreret ||| (1#136 <<< p) } }
    match s.siteOfCore p with
    | some site =>
      if s.spareFree site then
        ((mark s).modHealth fun h => { h with spareuse := h.spareuse ||| (1#8 <<< s.spareBit site) }).setEvt 4
      else
        let s := mark s
        ({ s with ret := { s.ret with siteoff := s.ret.siteoff ||| (1#128 <<< site) } }).setEvt 6
    | none => mark s

/-- A lane that fails its start-up test is retired: Ramord writes REQLANE and REQ (R30 to R33). -/
def State.bootLane (s : State) (key : Nat) : State :=
  let part := key / 64
  let lane := key % 64
  let l := s.laneCtl part
  let s := if 544 ≤ part || 33 < lane then s else s.modLaneCtl part fun l => { l with req := BitVec.ofNat 6 lane }
  if 544 ≤ part || 33 < lane || l.first.toNat = lane || l.second.toNat = lane then s
  else if l.used = 2 then (s.modLaneCtl part fun l => { l with nospare := true }).bootRetire (part / 4)
  else (s.modLaneCtl part fun l => l.retire (BitVec.ofNat 6 lane)).setEvt 5

/-- Channel training (R54): the channel that stays out of service, with whether it fails now, or FWERR 7. -/
def State.trainChannels (s : State) (fails : List Nat) : Option (Option (Nat × Bool)) :=
  let named := if s.link.resv then s.ret.chret else none
  match (dedup fails).filter fun c => some c != named, named with
  | [], none => some none
  | [], some c => some (some (c, false))
  | [c], none => if s.link.resv then some (some (c, true)) else none
  | _, _ => none

/-- The channel that is retired at cold start (R54). The record keeps an entry that is ignored because RESV is clear (log
entry 64). -/
def State.bootChannel (s : State) (x : Option (Nat × Bool)) : State :=
  match x with
  | none => s
  | some (c, new) =>
    let s := (s.modChan c fun x => { x with st := .retired }).modDev fun d => { d with chretPending := new }
    { s with ret := { s.ret with chret := some c } }

/-- Training of the die links has ended (R37, R39, R41): those that have trained are ACTIVE at their width with their repaired lanes,
the others DOWN; and the dies that they bring into service. -/
def State.bootLinks (s : State) (ls : List (Nat × Nat × Nat)) : State :=
  let s := (List.range 24).foldl (fun s m => s.modMod m fun x => if x.st = .train then { x with st := .down } else x) s
  let s := ls.foldl (fun s (m, w, r) =>
    if m < 24 && s.modPresent m && (w = 64 || w = 32) then
      s.modMod m fun x => { x with st := .active, width := BitVec.ofNat 7 w, repaired := BitVec.ofNat 3 r }
    else s) s
  let up := fun (d : Nat) => s.fuse.cdpres.getLsbD d && !s.ret.dieoff.getLsbD d &&
    [0, 1, 2, 3].any fun i => (s.lmod (4 * d + i)).st == .active
  s.modLink fun l => { l with online := (List.range 4).foldl (fun m d => if up d then m ||| (1#4 <<< s.vdOf d) else m) 0 }

/-- FEAT (R94). -/
def State.features (s : State) (r : BootReport) : BitVec 128 :=
  let one := fun (b : Bool) (n : Nat) => if b then n else 0
  let lcores := ((List.range 128).filter s.openSite).length
  BitVec.ofNat 128 (one r.cxlCache 1 + one r.cxlMem 2 + one (s.adit.st != .absent) 4 + 0x1FF8 + 2 ^ 32 * s.dies.length +
    2 ^ 36 * lcores + 2 ^ 44)

/-- Ramord's start-up (R33, R54, R94, R97). -/
def State.boot (s : State) (r : BootReport) : State :=
  if !s.boardOk then s.fwFail 6
  else
    let w := s.boardField 4 4
    let s := s.modLink fun l => { l with cap := BitVec.ofNat 3 (bits w 0 3), resv := bit w 3 }
    let s := s.applyRecord
    match s.trainChannels r.chanFail with
    | none => s.fwFail 7
    | some x =>
      let s := ((s.bootChannel x).bootLinks r.links).modDev fun d => { d with
        guard := s.dies.foldl (fun m d => sset 0 m d (BitVec.ofNat 8 (s.boardField (8 + d) 1))) [] }
      let s := r.coreFail.foldl State.bootRetire (r.laneFail.foldl State.bootLane s)
      let s := s.settleGuard.startPoint
      s.modDev fun d => { d with st := .negotiate, negotiated := true, feat := s.features r }

/-- BOOT_COMPLETE (R96). -/
def execBootComplete (r : BootReport) (s : State) : Out := .next (if s.dev.st = .boot then s.boot r else s)

/-! ## Features and RUN -/

/-- The value that a write of FEATACK stores (R95). -/
def ackOf (feat v : BitVec 128) : BitVec 128 :=
  let x := v &&& feat &&& 0x1FFF
  let clear := fun (x : BitVec 128) (i : Nat) (need : Nat) => if x.getLsbD need then x else x &&& ~~~(1#128 <<< i)
  clear (clear (clear x 3 7) 4 3) 9 8

/-- FEATACK_WRITE (R95). -/
def execFeatackWrite (v : BitVec 128) (s : State) : Out :=
  .next (if s.dev.st = .negotiate then s.modDev fun d => { d with featack := ackOf d.feat v } else s)

/-- DEVCTL.GO written one (R54, R95, R96). -/
def State.go (s : State) : State :=
  if s.dev.st ≠ .negotiate then s
  else
    let s := s.modDev fun d => { d with st := .run, ran := true }
    if s.dev.chretPending then (s.modDev fun d => { d with chretPending := false }).setEvt 3 else s

/-- DEVCTL_GO (R96). -/
def execDevctlGo (s : State) : Out := .next s.go

/-- A write of ones to DEVEVT (R92). -/
def State.clearEvt (s : State) (v : BitVec 32) : State :=
  if s.hostOpen then s.modDev fun d => { d with devevt := d.devevt &&& ~~~(v.extractLsb' 0 7) } else s

/-- DEVEVT_CLEAR (R92). -/
def execDevevtClear (v : BitVec 32) (s : State) : Out := .next (s.clearEvt v)

/-! ## Attestation -/

/-- ATTCTL.REQ written one (R92, R99). -/
def State.attRequest (s : State) : State :=
  if (s.dev.st = .negotiate || s.dev.st = .run) && !s.dev.attBusy then
    s.modDev fun d => { d with attBusy := true, attNonce := d.nonce }
  else s

/-- ATTCTL_REQ (R99). -/
def execAttctlReq (s : State) : Out := .next s.attRequest

/-- FUSE (R12). -/
def State.fuseWord (s : State) : Nat := s.fuse.cdpres.toNat + 256 * s.health.spareuse.toNat + 65536 * s.fuse.sku.toNat

/-- GBSAVE (R92): zero for an absent die. -/
def State.gbsave (s : State) : Nat :=
  (List.range 4).foldl (fun w d => if s.fuse.cdpres.getLsbD d then w + 256 ^ d * s.guardOf d else w) 0

/-- Bytes [0, 0x8A0) of the report, which is the `count`-th since the cold start (R99). -/
def State.reportHead (s : State) (count : Word) : List Byte :=
  natToBytes 4 0x54535441 ++ natToBytes 4 1 ++ natToBytes 8 s.fuse.serial.toNat ++ natToBytes 4 s.dev.fwver.toNat ++
    natToBytes 4 s.dev.fwsvn.toNat ++ natToBytes 4 s.fuseWord ++ natToBytes 4 0 ++ natToBytes 16 s.dev.feat.toNat ++
    natToBytes 16 (if s.dev.ran then s.dev.featack.toNat else 0) ++ natToBytes 64 s.dev.imgdig.toNat ++
    natToBytes 64 s.dev.brddig.toNat ++ natToBytes 32 s.dev.attNonce.toNat ++ natToBytes 4 s.gbsave ++
    natToBytes 4 count.toNat ++ natToBytes 24 0 ++ (List.range 1952).map Config.identityKey

/-- ATTESTATION_REPORT_DONE (R99): the report stands in the window and BUSY is clear. -/
def execAttestationReportDone (s : State) : Out :=
  .next (if !s.dev.attBusy then s
    else
      let count := s.dev.attCount + 1
      let head := s.reportHead count
      let sig := (List.range 3309).map (Config.identitySign head)
      s.modDev fun d => { d with attBusy := false, attCount := count, report := head ++ sig ++ natToBytes 115 0 })

end Sys2Proof.Machine
end

