-- ==== Sys2Proof/Machine/Eng.lean ====
section
/-! DEFINITION. Class 4: engine commands as they are issued, and engine contexts (R401 to R406). What the engines do with a
command stands in Engine.lean. -/

namespace Sys2Proof.Machine

/-- Write a 64-bit value into the s-register pair that a field names; code 0 names none (R401). -/
def State.putPair (s : State) (k : Nat) (b : BitVec 8) (x : DWord) : State :=
  if b = 0 then s else s.modCrew k fun c => c.putAll 0 b [loWord x, hiWord x]

/-- The number of the next command of an engine context (R182). -/
def State.nextNumber (s : State) (k e : Nat) : DWord := ((s.lcore (lcOf k)).ec e).issued + 1

/-- Take the next number (R402, R406). -/
def State.takeNumber (s : State) (k e : Nat) : State := s.modEc (lcOf k) e fun x => { x with issued := x.issued + 1 }

/-- A command to an engine context of another kind takes its number and fails with TSHAPE (R402). -/
def State.wrongKind (s : State) (k e : Nat) (base : DWord) : State := (s.takeNumber k e).ecFail (lcOf k) e 0x04 base

/-- Issue a command (R402): alignment, a poisoned source (R289), the wait of R391, the kind, room in the queue, then the number, the release of die
scope and the entry. -/
def State.issueCmd (s : State) (p : Pulse) (bad : LaneSet) (f : FmtE) (op : CmdOp) (kind : EcKind) : State :=
  let lc := lcOf p.crew
  let e := f.ec.toNat
  let base := s.src64 p.crew 0 f.a
  let n := s.nextNumber p.crew e
  if base.extractLsb' 0 6 != 0 then s.deliverAll p .misalign base
  else if bad != 0 then s.deliverAll p .poison
  else if s.mtxBusy p.crew none then s.holdAt p (.matrix none)
  else if ((s.lcore lc).ec e).kind ≠ kind then (s.putPair p.crew f.b n).wrongKind p.crew e base
  else if !s.engineRoom lc e then s.holdAt p (.engine e)
  else
    let s := ((s.putPair p.crew f.b n).takeNumber p.crew e).release p.crew 4
    let cmd : Cmd := { op, num := n.toNat, raddr := base, crew := p.crew, serial := (s.crew p.crew).serial,
                        grid := (s.crew p.crew).grid, pc := p.pc, arrival := s.arrival }
    let s := s.modEc lc e fun x => { x with cmds := x.cmds ++ [cmd] }
    let s := s.modGrid (s.crew p.crew).grid fun g => { g with unretired := g.unretired + 1 }
    let s := s.modCrew p.crew fun c => { c with unaccepted := c.unaccepted + 1 }
    { s with arrival := s.arrival + 1 }

/-- gx.run (R402). -/
def execGxRun (f : FmtE) (s : State) : Out := s.edgeWord (.gxRun f) fun s p bad => s.issueCmd p bad f .gx .geyser
/-- ce.build (R402). -/
def execCeBuild (f : FmtE) (s : State) : Out := s.edgeWord (.ceBuild f) fun s p bad => s.issueCmd p bad f .build .coord
/-- ce.lookup (R402). -/
def execCeLookup (f : FmtE) (s : State) : Out := s.edgeWord (.ceLookup f) fun s p bad => s.issueCmd p bad f .lookup .coord
/-- ce.down (R402). -/
def execCeDown (f : FmtE) (s : State) : Out := s.edgeWord (.ceDown f) fun s p bad => s.issueCmd p bad f .down .coord
/-- ce.probe (R402). -/
def execCeProbe (f : FmtE) (s : State) : Out := s.edgeWord (.ceProbe f) fun s p bad => s.issueCmd p bad f .probe .coord
/-- se.gather (R402). -/
def execSeGather (f : FmtE) (s : State) : Out := s.edgeWord (.seGather f) fun s p bad => s.issueCmd p bad f .gather .stream
/-- se.isect (R402). -/
def execSeIsect (f : FmtE) (s : State) : Out := s.edgeWord (.seIsect f) fun s p bad => s.issueCmd p bad f .isect .stream
/-- se.copy (R402). -/
def execSeCopy (f : FmtE) (s : State) : Out := s.edgeWord (.seCopy f) fun s p bad => s.issueCmd p bad f .copy .stream
/-- se.mcast (R402). -/
def execSeMcast (f : FmtE) (s : State) : Out := s.edgeWord (.seMcast f) fun s p bad => s.issueCmd p bad f .mcast .stream

/-- A packet as the device writes it: the program's OPC, ORD, CR, CREC, FREC and ARGS, the device's fields (R69, R70). -/
def packetBytes (image : List Byte) (pasid : BitVec 20) (lcore ec : Nat) (seq : DWord) : List Byte :=
  natToBytes 4 (bits (field image 0 4) 0 10 + 65536) ++ natToBytes 4 pasid.toNat ++ natToBytes 4 (lcore + 256 * ec) ++
    natToBytes 4 0 ++ natToBytes 8 seq.toNat ++ image.drop 24

/-- The packet enters the queue (R67, R70, R71, R403): its bytes and WIDX are written at the home slices after the release,
then the guest gets DOORBELL, unless a PREEMPT or ABORT is out (R84, R88). -/
def State.submit (s : State) (p : Pulse) (f : FmtE) (q : Nat) (image : List Byte) (pkt widx : Place) : State :=
  let e := f.ec.toNat
  let n := s.nextNumber p.crew e
  let g := s.gq q
  let s := (s.takeNumber p.crew e).release p.crew 5
  let s := s.placeWrite 0 pkt (packetBytes image (s.ctx (ctxOf p.crew)).pasid (lcNum p.crew) e n)
  let s := if g.torn then s.undefineAt pkt 64 else s
  let s := s.placeWrite 0 widx (natToBytes 8 (g.widx + 1))
  let s := s.modGq q fun g => { g with widx := g.widx + 1, seqs := g.seqs ++ [n] }
  let s := if g.asked.isSome then s else s.toGuest (guestMsg 0x01 (BitVec.ofNat 4 q) (BitVec.ofNat 64 (g.widx + 1)))
  s.putPair p.crew f.b n

/-- gq.submit of the crew (R403): an access of the queue region that faults is the crew's (log entry 25). -/
def State.gqSubmit (s : State) (p : Pulse) (bad : LaneSet) (f : FmtE) : State :=
  let e := f.ec.toNat
  let base := s.src64 p.crew 0 f.a
  let x := (s.lcore (lcOf p.crew)).ec e
  if base.extractLsb' 0 6 != 0 then s.deliverAll p .misalign base
  else if s.mtxBusy p.crew none then s.holdAt p (.matrix none)
  else if x.kind ≠ .guest then
    (if bad != 0 then s.deliverAll p .poison else (s.putPair p.crew f.b 0).wrongKind p.crew e base)
  else
    match s.readCrewRec p bad base 64 with
    | .wait s' | .no s' => s'
    | .ok s' image =>
      let l := lowLane p.part
      let q := x.gq.getD 0
      let g := s.gq q
      if g.st ≠ .run || g.bound ≠ some (lcOf p.crew, e) || decide (2 ^ g.sz.toNat ≤ g.widx - g.ridx) then s'.putPair p.crew f.b 0
      else
        let off := 0x80 + 64 * (g.widx % 2 ^ g.sz.toNat)
        let at_ := fun (o : Nat) => g.gqva + BitVec.ofNat 64 o
        let accs := [(l, at_ off, s'.access p.crew l p.pc (at_ off) 64 64 .write), (l, at_ 0, s'.access p.crew l p.pc (at_ 0) 8 8 .write)]
        match s'.readsHold p 64 accs with
        | some c => s'.holdAt p c
        | none => match s'.settle p 0 true accs with
          | (s'', [(_, _, a), (_, _, b)]) => s''.submit p f q image a.pl b.pl
          | (s'', _) => s''

/-- gq.submit (R403). -/
def execGqSubmit (f : FmtE) (s : State) : Out :=
  s.edgeWord (.gqSubmit f) fun s p bad => (s.gqSubmit p bad f).memDone s p

/-- The guest queue bound to an engine context: another context may have taken it over since it was bound (R68; log entry 70). -/
def State.queueOf (s : State) (lc e : Nat) : Option Nat :=
  ((s.lcore lc).ec e).gq.filter fun q => (s.gq q).bound == some (lc, e)

/-- Whether ec.bind to a guest queue raises PROT (R404). -/
def State.bindRefused (s : State) (k e q : Nat) : Bool :=
  let g := s.gq q
  !g.en || g.ctx.toNat != ctxOf k || (match g.bound with
    | some b => b != (lcOf k, e)
    | none => false)

/-- ec.bind (R404). -/
def execEcBind (f : FmtE) (s : State) : Out :=
  s.wordLate (.ecBind f) fun s p bad =>
    let lc := lcOf p.crew
    let e := f.ec.toNat
    let x := (s.lcore lc).ec e
    let q := (s.src p.crew 0 f.a).toNat % 16
    let kind := kindOf f.flags.toNat
    if s.mtxBusy p.crew none then s.holdAt p (.matrix none)
    else if x.count ≠ x.issued then s.holdAt p (.ecIdle e)
    else if kind = .guest && s.bindRefused p.crew e q then s.deliverAll p .prot 0 (some (BitVec.ofNat 64 q))
    else if bad != 0 then s.deliverAll p .poison
    else
      let keep := kind = .guest && x.gq = some q
      let s := match s.queueOf lc e with
        | some old => if keep then s else s.modGq old fun g => { g with bound := none }
        | none => s
      let s := if kind = .guest then s.modGq q fun g => { g with bound := some (lc, e) } else s
      s.modEc lc e fun x => { x with kind, gq := if kind = .guest then some q else none }

/-- A read of an engine context: it waits for earlier matrix instructions (R391, R405). -/
def State.readEc (s : State) (p : Pulse) (f : FmtE) (val : Ec → DWord) : State :=
  if s.mtxBusy p.crew none then s.holdAt p (.matrix none)
  else s.putPair p.crew f.a (val ((s.lcore (lcOf p.crew)).ec f.ec.toNat))

/-- ec.read (R405). -/
def execEcRead (f : FmtE) (s : State) : Out := s.word (.ecRead f) fun s p => s.readEc p f fun x => x.count
/-- ec.read.issued (R405). -/
def execEcReadIssued (f : FmtE) (s : State) : Out := s.word (.ecReadIssued f) fun s p => s.readEc p f fun x => x.issued
/-- ec.read.state (R405). -/
def execEcReadState (f : FmtE) (s : State) : Out :=
  s.word (.ecReadState f) fun s p => s.readEc p f fun x =>
    BitVec.ofNat 64 (x.kind.code + (if x.err then 16 else 0) +
      (if x.kind = .guest then 32 * (s.queueOf (lcOf p.crew) f.ec.toNat).getD 0 else 0))

end Sys2Proof.Machine
end

