-- ==== Sys2Proof/Machine/Regs.lean ====
section
/-! DEFINITION. BAR0 as 32-bit words: what a host read returns and what a host write does (R6, R7, R11, R34, R60, R91, R92,
R96, R100). A 64-bit or longer register is written word by word; FEATACK takes effect with its first word (R95). -/

namespace Sys2Proof.Machine

/-! ## Writes -/

/-- Replace word i of a 64-bit value. -/
def putHalf (x : DWord) (i : Nat) (v : Word) : DWord := if i = 0 then pair v (hiWord x) else pair (loWord x) v

/-- A write of a context register other than CTXCTL and DBGCTL (R100); PASID changes only while the context is disabled (R65). -/
def Ctx.write (c : Ctx) (o : Nat) (v : Word) : Ctx :=
  let locked := fun (x : Ctx) => if c.en then c else x
  let i := o / 4 % 2
  match o with
  | 0x008 => if c.en || c.st != .disabled then c else { c with pasid := v.extractLsb' 0 20 }
  | 0x00C => { c with cap := v.extractLsb' 0 3 }
  | 0x010 | 0x014 => locked { c with ptroot := (putHalf (c.ptroot.setWidth 64) i v).extractLsb' 12 27 ++ (0 : BitVec 12) }
  | 0x018 | 0x01C => locked { c with cpaddr := putHalf c.cpaddr i v &&& 0xFFFFFFFFFFFFF001 }
  | 0x028 | 0x02C => locked { c with savebase := (putHalf (c.savebase.setWidth 64) i v).extractLsb' 12 27 ++ (0 : BitVec 12) }
  | 0x030 | 0x034 => locked { c with logbase := (putHalf (c.logbase.setWidth 64) i v).extractLsb' 12 27 ++ (0 : BitVec 12) }
  | 0x038 => { c with logsize := v }
  | 0x048 => { c with fvec := v.extractLsb' 0 8 }
  | 0x04C => { c with wdogLimit := v.extractLsb' 0 16, extlim := v.extractLsb' 16 16 }
  | _ => c

/-- A write of a context register (R100, R101, R388). -/
def State.writeCtxReg (s : State) (n o : Nat) (v : Word) : State :=
  if !s.hostOpen then s
  else match o with
    | 0x000 => if v.getLsbD 0 then s.enableCtx n else s.disableCtx n
    | 0x080 => s.dbgctl n v
    | _ => s.modCtx n fun c => c.write o v

/-- A byte of the MSI-X table is written (R93). -/
def State.writeMsixByte (s : State) (off : Nat) (b : Byte) : State :=
  s.modDev fun d => { d with msixTable := sset 0 d.msixTable off (b ^^^ (if off % 16 = 12 then 1 else 0)) }

/-- A word of the MSI-X table is written (R93): a vector that is unmasked while its pending bit is set is sent. -/
def State.writeMsix (s : State) (off : Nat) (v : Word) : State :=
  let s := ((natToBytes 4 v.toNat).zip (List.range 4)).foldl (fun s (b, i) => s.writeMsixByte (off + i) b) s
  let k := off / 16
  if off % 16 = 12 && !s.msixMasked k && s.dev.pba.getLsbD k then
    (s.modDev fun d => { d with pba := d.pba &&& ~~~(1#128 <<< k) }).sendMsix k
  else s

/-- A write of the device block (R92). -/
def State.writeDevReg (s : State) (o : Nat) (v : Word) : State :=
  if o = 0x004 then
    let s := if v.getLsbD 0 then s.startLoad else s
    if v.getLsbD 1 then s.go else s
  else if o = 0x008 then s.clearEvt v
  else if o = 0x010 then (if s.dev.st = .load then s.modDev fun d => { d with fwlen := v } else s)
  else if o = 0x030 then
    (if s.dev.st = .negotiate then s.modDev fun d => { d with featack := ackOf d.feat (v.setWidth 128) } else s)
  else if o = 0x048 then (if v.getLsbD 0 then s.attRequest else s)
  else if 0x050 ≤ o && o < 0x070 && s.hostOpen then
    let i := (o - 0x050) / 4
    s.modDev fun d => { d with nonce := (d.nonce &&& ~~~(0xFFFFFFFF#256 <<< (32 * i))) ||| (v.setWidth 256 <<< (32 * i)) }
  else s

/-- A write of the Adit block (R60, R62, R65, R66, R94). In one write of ADCTL, GRST takes its value before UNFENCE is looked at (log
entry 75). -/
def State.writeAditReg (s : State) (o : Nat) (v : Word) : State :=
  let q := (o - 0x100) / 0x20
  let r := (o - 0x100) % 0x20
  let va := fun (x : DWord) (lo : Nat) => putHalf x (r / 4 % 2) v &&& (0x00FFFFFFFFFFFFFF - BitVec.ofNat 64 (2 ^ lo - 1))
  if !s.hostOpen || !s.feature 2 then s
  else if o = 0x004 then
    let s := s.writeGrst (v.getLsbD 0)
    if v.getLsbD 1 then s.unfence else s
  else if o < 0x100 || 0x300 ≤ o then s
  else if r = 0 then s.writeGqcfg q v
  else if (s.gq q).en then s
  else if r = 0x08 || r = 0x0C then s.modGq q fun g => { g with gqva := va g.gqva 12 }
  else if r = 0x10 || r = 0x14 then s.modGq q fun g => { g with gqrrec := va g.gqrrec 8 }
  else s

/-- A write of the link and memory block (R34, R48, R51, R58, R94). -/
def State.writeLinkReg (s : State) (o : Nat) (v : Word) : State :=
  if !s.hostOpen then s
  else if o = 0x1004 then s.modLink fun l => { l with period := v.extractLsb' 0 8, cethr := v.extractLsb' 16 8 }
  else if o = 0x1008 then
    (if v.getLsbD 5 then s.retireChannel (v.extractLsb' 0 5).toNat else s.modLink fun l => { l with reqch := v.extractLsb' 0 5 })
  else if 0x500 ≤ o && o < 0x580 && s.feature 11 then
    let k := (o - 0x500) / 0x10
    let r := o % 0x10
    if r < 8 then s.modLink fun l => { l with extB := sset 0 l.extB k (putHalf (sget 0 l.extB k) (r / 4) v &&& 0x7FFFFFFF81) }
    else s.modLink fun l => { l with extL := sset 0 l.extL k (putHalf (sget 0 l.extL k) (r / 4 % 2) v &&& 0x7FFFFFFF80) }
  else s

/-- A write of the health block (R11). -/
def State.writeHealthReg (s : State) (o : Nat) (v : Word) : State :=
  if !s.hostOpen then s
  else if o = 0x10 then s.modHealth fun h => { h with target := v.extractLsb' 0 3, boost := v.getLsbD 3 }
  else if o = 0x18 then s.modHealth fun h => { h with limit := BitVec.ofNat 10 (max 200 (min 600 (v.extractLsb' 0 10).toNat)) }
  else s

/-- A host write of the aligned word at an offset of BAR0 (R91). -/
def State.writeReg (s : State) (off : Nat) (v : Word) : State :=
  if off % 4 ≠ 0 then s
  else if off < 0x1000 then s.writeDevReg off v
  else if 0x10000 ≤ off && off < 0x50000 then s.writeCtxReg ((off - 0x10000) / 0x1000) (off % 0x1000) v
  else if 0x60000 ≤ off && off < 0x60800 then s.writeMsix (off - 0x60000) v
  else if 0x800000 ≤ off && off < 0x810000 then s.writeHealthReg (off - 0x800000) v
  else if 0x810000 ≤ off && off < 0x812000 then s.writeLinkReg (off - 0x810000) v
  else if 0x820000 ≤ off && off < 0x821000 then s.writeAditReg (off - 0x820000) v
  else s

/-- REGISTER_WRITE (R6, R91). -/
def execRegisterWrite (off : BitVec 24) (v : BitVec 32) (s : State) : Out := .next (s.writeReg off.toNat v)

/-! ## Reads -/

/-- A bit as a number. -/
def bitNat (b : Bool) : Nat := if b then 1 else 0

/-- DEVSTAT.STATE (R92). -/
def DevState.code : DevState → Nat
  | .load => 0
  | .verify => 1
  | .boot => 2
  | .negotiate => 3
  | .run => 4
  | .fwfail => 5
  | .trip => 6

/-- Word i of a long value. -/
def wordAt (x i : Nat) : Nat := bits x (32 * i) 32

/-- A read of the device block (R92). -/
def State.readDevReg (s : State) (o : Nat) : Nat :=
  let d := s.dev
  match o with
  | 0x000 => d.st.code + 256 * d.fwerr.toNat
  | 0x008 => d.devevt.toNat
  | 0x010 => d.fwlen.toNat
  | 0x014 => d.fwver.toNat
  | 0x018 => d.fwsvn.toNat
  | 0x01C => s.fuse.svnMin.toNat
  | 0x020 | 0x024 | 0x028 | 0x02C => wordAt d.feat.toNat ((o - 0x020) / 4)
  | 0x030 | 0x034 | 0x038 | 0x03C => wordAt d.featack.toNat ((o - 0x030) / 4)
  | 0x040 | 0x044 => wordAt s.fuse.serial.toNat ((o - 0x040) / 4)
  | 0x048 => 2 * bitNat d.attBusy
  | 0x050 | 0x054 | 0x058 | 0x05C | 0x060 | 0x064 | 0x068 | 0x06C => wordAt d.nonce.toNat ((o - 0x050) / 4)
  | 0x070 => s.gbsave
  | _ => 0

/-- CTXSTAT.STATE (R100, R101). -/
def State.ctxStateCode (s : State) (n : Nat) : Nat :=
  match (s.ctx n).st with
  | .disabled => 0
  | .on => if (s.ctxGrids n).isEmpty then 1 else 2
  | .faulted => 3
  | .stopping => 4

/-- A read of a context register (R100). -/
def State.readCtxReg (s : State) (n o : Nat) : Nat :=
  let c := s.ctx n
  match o with
  | 0x000 => bitNat c.en + 2 * bitNat c.cfgerr
  | 0x004 => s.ctxStateCode n + 256 * c.cause.toNat + 65536 * c.sub.toNat
  | 0x008 => c.pasid.toNat
  | 0x00C => c.cap.toNat
  | 0x010 | 0x014 => wordAt c.ptroot.toNat ((o - 0x010) / 4)
  | 0x018 | 0x01C => wordAt c.cpaddr.toNat ((o - 0x018) / 4)
  | 0x020 | 0x024 => wordAt c.head ((o - 0x020) / 4)
  | 0x028 | 0x02C => wordAt c.savebase.toNat ((o - 0x028) / 4)
  | 0x030 | 0x034 => wordAt c.logbase.toNat ((o - 0x030) / 4)
  | 0x038 => c.logsize.toNat
  | 0x040 | 0x044 => wordAt c.logpos ((o - 0x040) / 4)
  | 0x048 => c.fvec.toNat
  | 0x04C => c.wdogLimit.toNat + 65536 * c.extlim.toNat
  | 0x050 | 0x054 => wordAt c.faddr.toNat ((o - 0x050) / 4)
  | 0x058 | 0x05C => wordAt c.fpc.toNat ((o - 0x058) / 4)
  | 0x060 => c.floc.toNat
  | 0x080 =>
    let k := s.crew (crewKey n c.dbgLcore.toNat c.dbgCrew.toNat)
    8 * bitNat (k.alive && k.halted) + 16 * c.dbgLcore.toNat + 65536 * c.dbgCrew.toNat
  | 0x084 => c.dbgseq.toNat
  | _ => if 0x0C0 ≤ o && o < 0x100 then (sget 0 c.mbx ((o - 0x0C0) / 4)).toNat else 0

/-- A word of the retirement record (R33). -/
def State.recordWord (s : State) (o : Nat) : Nat :=
  let r := s.ret
  let lanes := fun (part : Nat) => if part < 544 then (s.laneCtl part).first.toNat + 64 * (s.laneCtl part).second.toNat else 0
  if o = 0 then 1
  else if o = 4 then (match r.chret with
    | some c => 32 + c
    | none => 0)
  else if o = 8 then r.dieoff.toNat
  else if 0x10 ≤ o && o < 0x30 then wordAt r.coreret.toNat ((o - 0x10) / 4)
  else if 0x30 ≤ o && o < 0x40 then wordAt r.siteoff.toNat ((o - 0x30) / 4)
  else if 0x100 ≤ o && o < 0x540 then lanes ((o - 0x100) / 2) + 65536 * lanes ((o - 0x100) / 2 + 1)
  else 0

/-- A read of a per-core block (R27, R31). -/
def State.readCoreReg (s : State) (p o : Nat) : Nat :=
  let a := s.agmOf p
  if o = 0 then 2 * bitNat a.busy + 256 * a.window.toNat
  else if o = 4 then a.temp.toNat
  else if 0x20 ≤ o && o < 0x40 then (sget 0 a.counts ((o - 0x20) / 4)).toNat
  else if 0x40 ≤ o && o < 0x60 then (sget 0 s.fuse.agmBase (8 * p + (o - 0x40) / 4)).toNat
  else if 0x60 ≤ o && o < 0x80 then (sget 0 s.fuse.agmTc (8 * p + (o - 0x60) / 4)).toNat
  else if 0x80 ≤ o && o < 0x90 then
    let l := s.laneCtl (4 * p + (o - 0x80) / 4)
    l.req.toNat + 128 * bitNat l.busy.isSome + 256 * l.used + 1024 * bitNat l.nospare + 65536 * l.first.toNat + 2 ^ 22 * l.second.toNat
  else 0

/-- A read of the health block (R11 to R31). -/
def State.readHealthReg (s : State) (o : Nat) : Nat :=
  let h := s.health
  if o = 0 then s.fuseWord
  else if o = 0x10 then h.target.toNat + 8 * bitNat h.boost
  else if o = 0x14 then
    h.cur.toNat + 8 * bitNat h.pwrltd + 16 * bitNat h.therm + 32 * bitNat s.agecap +
      256 * (s.servedDies.foldl (fun g d => max g (s.guardOf d)) 0) + 65536 * h.changes.toNat
  else if o = 0x18 then h.limit.toNat
  else if 0x20 ≤ o && o < 0x34 then (sget 0 h.tj ((o - 0x20) / 4)).toNat
  else if 0x40 ≤ o && o < 0x54 then
    (sget 0 h.ceCount ((o - 0x40) / 4)).toNat + 65536 * (sget 0 h.ueCount ((o - 0x40) / 4)).toNat
  else if 0x1000 ≤ o && o < 0x1000 + 0x100 * 136 then s.readCoreReg ((o - 0x1000) / 0x100) (o % 0x100)
  else 0

/-- STATE of a module (R37). -/
def ModState.code : ModState → Nat
  | .down => 0
  | .train => 1
  | .active => 2
  | .retrain => 3

/-- STATE of a channel (R52). -/
def ChanState.code : ChanState → Nat
  | .active => 0
  | .migrating => 1
  | .retired => 2

/-- VDTAB (R41). -/
def State.vdtab (s : State) : Nat :=
  (List.range 4).foldl (fun w v => match s.dies[v]? with
    | some d => w + 16 ^ v * (d + 4 + 8 * bitNat (s.link.online.getLsbD v))
    | none => w) 0

/-- HOPMAT (R42). -/
def State.hopmat (s : State) : Nat :=
  (List.range 4).foldl (fun w a => (List.range 4).foldl (fun w b => w + 2 ^ (8 * a + 2 * b) * s.hop a b) w) 0

/-- A read of the link and memory block (R34 to R58). -/
def State.readLinkReg (s : State) (o : Nat) : Nat :=
  let l := s.link
  let m := o / 0x10
  let c := (o - 0x1100) / 0x10
  if o < 0x1A0 then
    let x := s.lmod m
    if o % 0x10 = 0 then
      x.st.code + 8 * bitNat (s.modPresent m) + 16 * x.width.toNat + 2048 * x.repaired.toNat + 65536 * x.retrains.toNat
    else if o % 0x10 = 4 then x.crcerr.toNat + 65536 * x.replays.toNat
    else 0
  else if o = 0x400 then s.vdtab
  else if o = 0x404 then s.hopmat
  else if 0x500 ≤ o && o < 0x580 then
    let k := (o - 0x500) / 0x10
    if o % 0x10 < 8 then wordAt (sget 0 l.extB k).toNat (o % 0x10 / 4) else wordAt (sget 0 l.extL k).toNat (o % 0x10 / 4 - 2)
  else if o = 0x1000 then l.cap.toNat + 8 * bitNat l.resv
  else if o = 0x1004 then l.period.toNat + 65536 * l.cethr.toNat
  else if o = 0x1008 then l.reqch.toNat + 64 * bitNat l.mcBusy + 128 * bitNat l.nores
  else if 0x1100 ≤ o && o < 0x1300 then
    (if o % 0x10 = 0 then (s.chan c).st.code + 16 * (s.chan c).done.toNat
     else if o % 0x10 = 4 then (s.chan c).ce.toNat + 65536 * (s.chan c).ue.toNat
     else 0)
  else 0

/-- ADSTAT.STATE (R61). -/
def AditState.code : AditState → Nat
  | .absent => 0
  | .reset => 1
  | .ready => 2
  | .fenced => 3

/-- QSTATE (R65). -/
def QState.code : QState → Nat
  | .idle => 0
  | .run => 1
  | .stopped => 2
  | .halted => 3

/-- A read of the Adit block (R60 to R66). -/
def State.readAditReg (s : State) (o : Nat) : Nat :=
  let a := s.adit
  if o = 0 then a.st.code + 4 * a.cqv.toNat + 256 * a.cause.toNat + 4096 * a.cq.toNat + 65536 * a.fences.toNat
  else if o = 4 then bitNat a.grst
  else if o = 8 then (match a.st with
    | .absent | .reset => 0
    | _ => a.adid.toNat)
  else if o < 0x100 || 0x300 ≤ o then 0
  else
    let g := s.gq ((o - 0x100) / 0x20)
    match (o - 0x100) % 0x20 with
    | 0x00 => bitNat g.en + 2 * g.sz.toNat + 256 * g.ctx.toNat + 16384 * g.st.code + 65536 * bitNat g.cfgerr
    | 0x08 => wordAt g.gqva.toNat 0
    | 0x0C => wordAt g.gqva.toNat 1
    | 0x10 => wordAt g.gqrrec.toNat 0
    | 0x14 => wordAt g.gqrrec.toNat 1
    | _ => 0

/-- Whether the retirement record can be read: NEGOTIATE has been entered since the cold start (R33, R91). -/
def State.negotiated (s : State) : Bool := s.dev.negotiated

/-- What a host read of the aligned word at an offset of BAR0 returns (R6, R7, R91). -/
def State.readReg (s : State) (off : Nat) : Word :=
  BitVec.ofNat 32 (
    if off < 0x1000 then s.readDevReg off
    else if 0x10000 ≤ off && off < 0x50000 then s.readCtxReg ((off - 0x10000) / 0x1000) (off % 0x1000)
    else if 0x60000 ≤ off && off < 0x60800 then bytesToNat ((List.range 4).map fun i => s.msixByte (off - 0x60000 + i))
    else if 0x60800 ≤ off && off < 0x60810 then wordAt s.dev.pba.toNat ((off - 0x60800) / 4)
    else if 0x70000 ≤ off && off < 0x72000 then
      (if s.dev.attBusy then 0 else field s.dev.report (off - 0x70000) 4)
    else if 0x72000 ≤ off && off < 0x72800 then (if s.negotiated then s.recordWord (off - 0x72000) else 0)
    else if 0x800000 ≤ off && off < 0x810000 then s.readHealthReg (off - 0x800000)
    else if 0x810000 ≤ off && off < 0x812000 then s.readLinkReg (off - 0x810000)
    else if 0x820000 ≤ off && off < 0x821000 then s.readAditReg (off - 0x820000)
    else 0)

end Sys2Proof.Machine
end

