-- ==== Sys2Proof/Machine/Dispatch.lean ====
section
/-! DEFINITION. One arm per constructor of Instr, each a direct call of the meaning. -/

namespace Sys2Proof.Machine

/-- What an instruction word or an event of the device does. -/
def exec (i : Instr) (s : State) : Host.Outcome State Fault Refusal :=
  match i with
  | .bootComplete r => Sys2Proof.Machine.execBootComplete r s
  | .featackWrite v => Sys2Proof.Machine.execFeatackWrite v s
  | .devevtClear v => Sys2Proof.Machine.execDevevtClear v s
  | .registerWrite off v => Sys2Proof.Machine.execRegisterWrite off v s
  | .opctlWrite v => Sys2Proof.Machine.execOpctlWrite v s
  | .pwrlimWrite v => Sys2Proof.Machine.execPwrlimWrite v s
  | .powerEvaluation watts temps => Sys2Proof.Machine.execPowerEvaluation watts temps s
  | .stallAckTimeout dies => Sys2Proof.Machine.execStallAckTimeout dies s
  | .guardbandRecompute samples => Sys2Proof.Machine.execGuardbandRecompute samples s
  | .ageingSampleDone a => Sys2Proof.Machine.execAgeingSampleDone a s
  | .eccCorrected die chan => Sys2Proof.Machine.execEccCorrected die chan s
  | .eccUncorrectable die w => Sys2Proof.Machine.execEccUncorrectable die w s
  | .parityError e => Sys2Proof.Machine.execParityError e s
  | .matrixSelfTest pass => Sys2Proof.Machine.execMatrixSelfTest pass s
  | .retrainEnd m ok repaired half => Sys2Proof.Machine.execRetrainEnd m ok repaired half s
  | .scrubctlWrite v => Sys2Proof.Machine.execScrubctlWrite v s
  | .patrolScrubRead dpa found => Sys2Proof.Machine.execPatrolScrubRead dpa found s
  | .mcretReq v => Sys2Proof.Machine.execMcretReq v s
  | .hostMemoryWrite path addr data => Sys2Proof.Machine.execHostMemoryWrite path addr data s
  | .peerPostedWrite relaxed dpa data => Sys2Proof.Machine.execPeerPostedWrite relaxed dpa data s
  | .atsInvalidation pasid base log2 => Sys2Proof.Machine.execAtsInvalidation pasid base log2 s
  | .atsCompletion n pa => Sys2Proof.Machine.execAtsCompletion n pa s
  | .priResponse n ok => Sys2Proof.Machine.execPriResponse n ok s
  | .adctlGrst on => Sys2Proof.Machine.execAdctlGrst on s
  | .aditLinkActive m id => Sys2Proof.Machine.execAditLinkActive m id s
  | .gqcfgEnable q v => Sys2Proof.Machine.execGqcfgEnable q v s
  | .gqcfgDisable q v => Sys2Proof.Machine.execGqcfgDisable q v s
  | .retire m => Sys2Proof.Machine.execRetire m s
  | .fault m => Sys2Proof.Machine.execFault m s
  | .stopped m => Sys2Proof.Machine.execStopped m s
  | .sdack m => Sys2Proof.Machine.execSdack m s
  | .trq m => Sys2Proof.Machine.execTrq m s
  | .pgreq m => Sys2Proof.Machine.execPgreq m s
  | .guestPortRequest r => Sys2Proof.Machine.execGuestPortRequest r s
  | .sdackDeadline tag => Sys2Proof.Machine.execSdackDeadline tag s
  | .dbgctlHalt n v => Sys2Proof.Machine.execDbgctlHalt n v s
  | .dbgctlResume n v => Sys2Proof.Machine.execDbgctlResume n v s
  | .dbgctlStep n v => Sys2Proof.Machine.execDbgctlStep n v s
  | .nop z => Sys2Proof.Machine.execNop z s
  | .brk tag => Sys2Proof.Machine.execBrk tag s
  | .add f => Sys2Proof.Machine.execAdd f s
  | .sub f => Sys2Proof.Machine.execSub f s
  | .mul f => Sys2Proof.Machine.execMul f s
  | .mulhi f => Sys2Proof.Machine.execMulhi f s
  | .mad f lit => Sys2Proof.Machine.execMad f lit s
  | .min f => Sys2Proof.Machine.execMin f s
  | .max f => Sys2Proof.Machine.execMax f s
  | .abs f => Sys2Proof.Machine.execAbs f s
  | .neg f => Sys2Proof.Machine.execNeg f s
  | .and f => Sys2Proof.Machine.execAnd f s
  | .or f => Sys2Proof.Machine.execOr f s
  | .xor f => Sys2Proof.Machine.execXor f s
  | .andn f => Sys2Proof.Machine.execAndn f s
  | .shl f => Sys2Proof.Machine.execShl f s
  | .shr f => Sys2Proof.Machine.execShr f s
  | .sar f => Sys2Proof.Machine.execSar f s
  | .rot f => Sys2Proof.Machine.execRot f s
  | .clz f => Sys2Proof.Machine.execClz f s
  | .popc f => Sys2Proof.Machine.execPopc f s
  | .brev f => Sys2Proof.Machine.execBrev f s
  | .bfx f => Sys2Proof.Machine.execBfx f s
  | .bfi f => Sys2Proof.Machine.execBfi f s
  | .sel f lit => Sys2Proof.Machine.execSel f lit s
  | .cmpEq f => Sys2Proof.Machine.execCmpEq f s
  | .cmpNe f => Sys2Proof.Machine.execCmpNe f s
  | .cmpLt f => Sys2Proof.Machine.execCmpLt f s
  | .cmpLe f => Sys2Proof.Machine.execCmpLe f s
  | .cmpGt f => Sys2Proof.Machine.execCmpGt f s
  | .cmpGe f => Sys2Proof.Machine.execCmpGe f s
  | .mov f => Sys2Proof.Machine.execMov f s
  | .movi f => Sys2Proof.Machine.execMovi f s
  | .movhi f => Sys2Proof.Machine.execMovhi f s
  | .ext f => Sys2Proof.Machine.execExt f s
  | .lea f => Sys2Proof.Machine.execLea f s
  | .add64 f => Sys2Proof.Machine.execAdd64 f s
  | .sub64 f => Sys2Proof.Machine.execSub64 f s
  | .mulw f => Sys2Proof.Machine.execMulw f s
  | .shfl f => Sys2Proof.Machine.execShfl f s
  | .qxch f => Sys2Proof.Machine.execQxch f s
  | .vote f => Sys2Proof.Machine.execVote f s
  | .popm f => Sys2Proof.Machine.execPopm f s
  | .elect f => Sys2Proof.Machine.execElect f s
  | .matchLow f => Sys2Proof.Machine.execMatchLow f s
  | .credInt f => Sys2Proof.Machine.execCredInt f s
  | .cscanInt f => Sys2Proof.Machine.execCscanInt f s
  | .csredInt f lit => Sys2Proof.Machine.execCsredInt f lit s
  | .rngStep f => Sys2Proof.Machine.execRngStep f s
  | .rngSkip f => Sys2Proof.Machine.execRngSkip f s
  | .fadd f => Sys2Proof.Machine.execFadd f s
  | .fsub f => Sys2Proof.Machine.execFsub f s
  | .fmul f => Sys2Proof.Machine.execFmul f s
  | .ffma f lit => Sys2Proof.Machine.execFfma f lit s
  | .fmin f => Sys2Proof.Machine.execFmin f s
  | .fmax f => Sys2Proof.Machine.execFmax f s
  | .fcmpEq f => Sys2Proof.Machine.execFcmpEq f s
  | .fcmpNe f => Sys2Proof.Machine.execFcmpNe f s
  | .fcmpLt f => Sys2Proof.Machine.execFcmpLt f s
  | .fcmpLe f => Sys2Proof.Machine.execFcmpLe f s
  | .fcmpGt f => Sys2Proof.Machine.execFcmpGt f s
  | .fcmpGe f => Sys2Proof.Machine.execFcmpGe f s
  | .frcp f => Sys2Proof.Machine.execFrcp f s
  | .frsq f => Sys2Proof.Machine.execFrsq f s
  | .fsqrt f => Sys2Proof.Machine.execFsqrt f s
  | .fdiv f => Sys2Proof.Machine.execFdiv f s
  | .fexp2 f => Sys2Proof.Machine.execFexp2 f s
  | .flog2 f => Sys2Proof.Machine.execFlog2 f s
  | .fsin f => Sys2Proof.Machine.execFsin f s
  | .fcos f => Sys2Proof.Machine.execFcos f s
  | .fround f => Sys2Proof.Machine.execFround f s
  | .fcvt f => Sys2Proof.Machine.execFcvt f s
  | .i2f f => Sys2Proof.Machine.execI2f f s
  | .f2i f => Sys2Proof.Machine.execF2i f s
  | .fscale f => Sys2Proof.Machine.execFscale f s
  | .dp4 f lit => Sys2Proof.Machine.execDp4 f lit s
  | .dp8 f lit => Sys2Proof.Machine.execDp8 f lit s
  | .pk f => Sys2Proof.Machine.execPk f s
  | .upk f => Sys2Proof.Machine.execUpk f s
  | .credFloat f => Sys2Proof.Machine.execCredFloat f s
  | .cscanFloat f => Sys2Proof.Machine.execCscanFloat f s
  | .csredFloat f lit => Sys2Proof.Machine.execCsredFloat f lit s
  | .ldI8 f ix => Sys2Proof.Machine.execLdI8 f ix s
  | .ldN8 f ix => Sys2Proof.Machine.execLdN8 f ix s
  | .ldI16 f ix => Sys2Proof.Machine.execLdI16 f ix s
  | .ldN16 f ix => Sys2Proof.Machine.execLdN16 f ix s
  | .ldW32 f ix => Sys2Proof.Machine.execLdW32 f ix s
  | .ldW64 f ix => Sys2Proof.Machine.execLdW64 f ix s
  | .ldW128 f ix => Sys2Proof.Machine.execLdW128 f ix s
  | .stN8 f ix => Sys2Proof.Machine.execStN8 f ix s
  | .stN16 f ix => Sys2Proof.Machine.execStN16 f ix s
  | .stW32 f ix => Sys2Proof.Machine.execStW32 f ix s
  | .stW64 f ix => Sys2Proof.Machine.execStW64 f ix s
  | .stW128 f ix => Sys2Proof.Machine.execStW128 f ix s
  | .ldbPeek f ix => Sys2Proof.Machine.execLdbPeek f ix s
  | .ldbTake f ix => Sys2Proof.Machine.execLdbTake f ix s
  | .stb f ix => Sys2Proof.Machine.execStb f ix s
  | .stbMark f ix => Sys2Proof.Machine.execStbMark f ix s
  | .tld f lit => Sys2Proof.Machine.execTld f lit s
  | .tst f lit => Sys2Proof.Machine.execTst f lit s
  | .tldWin f lit => Sys2Proof.Machine.execTldWin f lit s
  | .amoAdd f ix => Sys2Proof.Machine.execAmoAdd f ix s
  | .amoMin f ix => Sys2Proof.Machine.execAmoMin f ix s
  | .amoMax f ix => Sys2Proof.Machine.execAmoMax f ix s
  | .amoAnd f ix => Sys2Proof.Machine.execAmoAnd f ix s
  | .amoOr f ix => Sys2Proof.Machine.execAmoOr f ix s
  | .amoXor f ix => Sys2Proof.Machine.execAmoXor f ix s
  | .amoExch f ix => Sys2Proof.Machine.execAmoExch f ix s
  | .amoCas f ix cmp => Sys2Proof.Machine.execAmoCas f ix cmp s
  | .redAddI f ix => Sys2Proof.Machine.execRedAddI f ix s
  | .redAddF32 f ix => Sys2Proof.Machine.execRedAddF32 f ix s
  | .redAddX f ix => Sys2Proof.Machine.execRedAddX f ix s
  | .redMin f ix => Sys2Proof.Machine.execRedMin f ix s
  | .redMax f ix => Sys2Proof.Machine.execRedMax f ix s
  | .redAnd f ix => Sys2Proof.Machine.execRedAnd f ix s
  | .redOr f ix => Sys2Proof.Machine.execRedOr f ix s
  | .redXor f ix => Sys2Proof.Machine.execRedXor f ix s
  | .xflush f ix => Sys2Proof.Machine.execXflush f ix s
  | .append f ix => Sys2Proof.Machine.execAppend f ix s
  | .sealPage f ix => Sys2Proof.Machine.execSealPage f ix s
  | .fenceInsn f => Sys2Proof.Machine.execFenceInsn f s
  | .prefetch f ix => Sys2Proof.Machine.execPrefetch f ix s
  | .cwb f ix => Sys2Proof.Machine.execCwb f ix s
  | .cinv f ix => Sys2Proof.Machine.execCinv f ix s
  | .tset f => Sys2Proof.Machine.execTset f s
  | .tget f => Sys2Proof.Machine.execTget f s
  | .tzero f => Sys2Proof.Machine.execTzero f s
  | .mma f => Sys2Proof.Machine.execMma f s
  | .mmaG f => Sys2Proof.Machine.execMmaG f s
  | .tcvt f => Sys2Proof.Machine.execTcvt f s
  | .tadd f => Sys2Proof.Machine.execTadd f s
  | .gxRun f => Sys2Proof.Machine.execGxRun f s
  | .ceBuild f => Sys2Proof.Machine.execCeBuild f s
  | .ceLookup f => Sys2Proof.Machine.execCeLookup f s
  | .ceDown f => Sys2Proof.Machine.execCeDown f s
  | .ceProbe f => Sys2Proof.Machine.execCeProbe f s
  | .seGather f => Sys2Proof.Machine.execSeGather f s
  | .seIsect f => Sys2Proof.Machine.execSeIsect f s
  | .seCopy f => Sys2Proof.Machine.execSeCopy f s
  | .seMcast f => Sys2Proof.Machine.execSeMcast f s
  | .gqSubmit f => Sys2Proof.Machine.execGqSubmit f s
  | .ecBind f => Sys2Proof.Machine.execEcBind f s
  | .ecRead f => Sys2Proof.Machine.execEcRead f s
  | .ecReadIssued f => Sys2Proof.Machine.execEcReadIssued f s
  | .ecReadState f => Sys2Proof.Machine.execEcReadState f s
  | .barInit f => Sys2Proof.Machine.execBarInit f s
  | .barArrive f => Sys2Proof.Machine.execBarArrive f s
  | .barWait f => Sys2Proof.Machine.execBarWait f s
  | .gbar f => Sys2Proof.Machine.execGbar f s
  | .waitcAny f conds => Sys2Proof.Machine.execWaitcAny f conds s
  | .waitcAll f conds => Sys2Proof.Machine.execWaitcAll f conds s
  | .mwatch f => Sys2Proof.Machine.execMwatch f s
  | .mwait f => Sys2Proof.Machine.execMwait f s
  | .yield f => Sys2Proof.Machine.execYield f s
  | .refill f => Sys2Proof.Machine.execRefill f s
  | .drain f => Sys2Proof.Machine.execDrain f s
  | .regroup f => Sys2Proof.Machine.execRegroup f s
  | .launch f => Sys2Proof.Machine.execLaunch f s
  | .srd f => Sys2Proof.Machine.execSrd f s
  | .swr f => Sys2Proof.Machine.execSwr f s
  | .evc f => Sys2Proof.Machine.execEvc f s
  | .evcSel f => Sys2Proof.Machine.execEvcSel f s
  | .vhop f => Sys2Proof.Machine.execVhop f s
  | .clock f => Sys2Proof.Machine.execClock f s
  | .clockCore f => Sys2Proof.Machine.execClockCore f s
  | .trap f => Sys2Proof.Machine.execTrap f s
  | .trapret f => Sys2Proof.Machine.execTrapret f s
  | .dbg f => Sys2Proof.Machine.execDbg f s
  | .dbgHalt f => Sys2Proof.Machine.execDbgHalt f s
  | .br f => Sys2Proof.Machine.execBr f s
  | .brD f => Sys2Proof.Machine.execBrD f s
  | .brAny f => Sys2Proof.Machine.execBrAny f s
  | .brAll f => Sys2Proof.Machine.execBrAll f s
  | .brNone f => Sys2Proof.Machine.execBrNone f s
  | .switch f lits => Sys2Proof.Machine.execSwitch f lits s
  | .call f => Sys2Proof.Machine.execCall f s
  | .callr f => Sys2Proof.Machine.execCallr f s
  | .ret f => Sys2Proof.Machine.execRet f s
  | .exit f => Sys2Proof.Machine.execExit f s
  | .guestMessageUnlistedType m => Sys2Proof.Machine.execGuestMessageUnlistedType m s
  | .coldStart => Sys2Proof.Machine.execColdStart s
  | .devctlLoad => Sys2Proof.Machine.execDevctlLoad s
  | .verificationEnd => Sys2Proof.Machine.execVerificationEnd s
  | .devctlGo => Sys2Proof.Machine.execDevctlGo s
  | .attctlReq => Sys2Proof.Machine.execAttctlReq s
  | .attestationReportDone => Sys2Proof.Machine.execAttestationReportDone s
  | .thermalTrip => Sys2Proof.Machine.execThermalTrip s
  | .railRampDone => Sys2Proof.Machine.execRailRampDone s
  | .clockGate => Sys2Proof.Machine.execClockGate s
  | .pllLock => Sys2Proof.Machine.execPllLock s
  | .agmctlStart => Sys2Proof.Machine.execAgmctlStart s
  | .lanectlReq => Sys2Proof.Machine.execLanectlReq s
  | .laneRemap => Sys2Proof.Machine.execLaneRemap s
  | .spareAssign => Sys2Proof.Machine.execSpareAssign s
  | .linkCrcError => Sys2Proof.Machine.execLinkCrcError s
  | .dieRejoin => Sys2Proof.Machine.execDieRejoin s
  | .channelRetrainFail => Sys2Proof.Machine.execChannelRetrainFail s
  | .migrationChunkDone => Sys2Proof.Machine.execMigrationChunkDone s
  | .hostMemoryRead => Sys2Proof.Machine.execHostMemoryRead s
  | .hostLinkWriteDrop => Sys2Proof.Machine.execHostLinkWriteDrop s
  | .adctlUnfence => Sys2Proof.Machine.execAdctlUnfence s
  | .stoppedDeadline => Sys2Proof.Machine.execStoppedDeadline s
  | .ctxctlEnable => Sys2Proof.Machine.execCtxctlEnable s
  | .ctxctlDisable => Sys2Proof.Machine.execCtxctlDisable s
  | .contextStopDone => Sys2Proof.Machine.execContextStopDone s
  | .queueProcessorWake => Sys2Proof.Machine.execQueueProcessorWake s
  | .slotNop => Sys2Proof.Machine.execSlotNop s
  | .slotLaunch => Sys2Proof.Machine.execSlotLaunch s
  | .slotBarrier => Sys2Proof.Machine.execSlotBarrier s
  | .xlateCmdNop => Sys2Proof.Machine.execXlateCmdNop s
  | .xlateResolve => Sys2Proof.Machine.execXlateResolve s
  | .xlateShootdown => Sys2Proof.Machine.execXlateShootdown s
  | .shootdownComplete => Sys2Proof.Machine.execShootdownComplete s
  | .xlateOpen => Sys2Proof.Machine.execXlateOpen s
  | .xlateFree => Sys2Proof.Machine.execXlateFree s
  | .freeComplete => Sys2Proof.Machine.execFreeComplete s
  | .xlateSwap => Sys2Proof.Machine.execXlateSwap s
  | .swapComplete => Sys2Proof.Machine.execSwapComplete s
  | .faultRecordWrite => Sys2Proof.Machine.execFaultRecordWrite s
  | .walkComplete => Sys2Proof.Machine.execWalkComplete s
  | .gangPlacement => Sys2Proof.Machine.execGangPlacement s
  | .recarveDone => Sys2Proof.Machine.execRecarveDone s
  | .carveDrainTimeout => Sys2Proof.Machine.execCarveDrainTimeout s
  | .starvationPreemption => Sys2Proof.Machine.execStarvationPreemption s
  | .waitSwap => Sys2Proof.Machine.execWaitSwap s
  | .swappedWaitWake => Sys2Proof.Machine.execSwappedWaitWake s
  | .swapReturnTimeout => Sys2Proof.Machine.execSwapReturnTimeout s
  | .crewSaveComplete => Sys2Proof.Machine.execCrewSaveComplete s
  | .groupRestore => Sys2Proof.Machine.execGroupRestore s
  | .issuePulse => Sys2Proof.Machine.execIssuePulse s
  | .loadReturn => Sys2Proof.Machine.execLoadReturn s
  | .storeQueueDrain => Sys2Proof.Machine.execStoreQueueDrain s
  | .atomicPerform => Sys2Proof.Machine.execAtomicPerform s
  | .exactAddPerform => Sys2Proof.Machine.execExactAddPerform s
  | .appendUnit => Sys2Proof.Machine.execAppendUnit s
  | .sealArrive => Sys2Proof.Machine.execSealArrive s
  | .matrixComplete => Sys2Proof.Machine.execMatrixComplete s
  | .engineAccept => Sys2Proof.Machine.execEngineAccept s
  | .geyserTaskComplete => Sys2Proof.Machine.execGeyserTaskComplete s
  | .engineCommandComplete => Sys2Proof.Machine.execEngineCommandComplete s
  | .engineCommandFail => Sys2Proof.Machine.execEngineCommandFail s
  | .mcastWindowEnd => Sys2Proof.Machine.execMcastWindowEnd s
  | .implicitRefill => Sys2Proof.Machine.execImplicitRefill s
  | .childPop => Sys2Proof.Machine.execChildPop s
  | .gridComplete => Sys2Proof.Machine.execGridComplete s
  | .waitcWake => Sys2Proof.Machine.execWaitcWake s
  | .waitcTimeout => Sys2Proof.Machine.execWaitcTimeout s
  | .mwaitWake => Sys2Proof.Machine.execMwaitWake s
  | .watchdogExpiry => Sys2Proof.Machine.execWatchdogExpiry s
  | .externalWaitReport => Sys2Proof.Machine.execExternalWaitReport s
  | .mwaitWakeOtherReason => Sys2Proof.Machine.execMwaitWakeOtherReason s

end Sys2Proof.Machine
end

