-- ==== Sys2Proof/Machine/Start.lean ====
section
/-! DEFINITION. A machine that runs one clause: context 0 with one grid of one block of one crew of one thread, bound to
site 0, and a pulse that stands at a given word (log entry 27). It stands for everything that loads a program: the boot of
the device, the driver's context, the launch record and the issue of the crew's first pulse. -/

namespace Sys2Proof.Machine

/-- The clause that holds one instruction of class c: its header, then its word and literal words, a control word last
(R277 to R279). -/
def oneClause (c : Nat) (words : List Word) : List Word :=
  let n := literalCount c (words.headD 0)
  if c = 6 then BitVec.ofNat 32 ((n + 1) * 2 ^ 28 + 6 * 2 ^ 25 + 2 ^ 24) :: ((words.tail.take n) ++ [words.headD 0])
  else BitVec.ofNat 32 ((n + 1) * 2 ^ 28 + c * 2 ^ 25) :: words.take (n + 1)

/-- The pulse of crew 0 that stands at that word, for thread 0. -/
def onePulse (c : Nat) (words : List Word) : Pulse :=
  { crew := 0, hdr := 0x10000, words := oneClause c words
    todo := [if c = 6 then literalCount c (words.headD 0) + 1 else 1]
    p0 := 1, part := 1, whole := true }

/-- The launch record of the grid: 128 registers (R106). -/
def oneRecord : LaunchRec := { entry := 0x10000, items := 1, vregs := 128 }

/-- Context 0 runs one crew, and its pulse stands at the word. -/
def State.withClause (s : State) (c : Nat) (words : List Word) : State :=
  { s with
    cur := some (onePulse c words)
    dev := { s.dev with st := .run, featack := 0x1FFF }
    ctxs := sset {} s.ctxs 0 { s.ctx 0 with en := true, st := .on }
    grids := sset none s.grids 0 (some { ctx := 0, lr := oneRecord, st := .tail, next := 1, last := 1, gangs := 1, blocks := 1 })
    blocks := sset none s.blocks 0 (some { ctx := 0, grid := 0, id := 0, gang := 0, rank := 0, size := 1, cores := [(0, 0)], cpc := 1, lb := 0 })
    sites := sset {} s.sites 0 { s.site 0 with bound := some 0, carve := (1, 0, 15) }
    lcs := sset {} s.lcs 0 { s.lcore 0 with site := some 0, carve := (1, 0, 15) }
    crews := sset {} s.crews 0 { alive := true, lanes := [(0, { st := .live, pc := 0x10000 })] } }

end Sys2Proof.Machine
end

