-- ==== Sys2Proof/Machine/Step.lean ====
section
/-! DEFINITION. One step of the machine: the next word of the pulse in progress, or the next event of the schedule
(log entry 1); and the placing of one instruction where the next step runs it. -/

namespace Sys2Proof.Machine

/-- What is left to do after a word has run: the pulse is held, ends or goes on. -/
def afterWord : Host.Outcome State Fault Refusal → Host.Outcome State Fault Refusal
  | .next s => .next s.advance
  | .fault f => .fault f
  | .refused r => .refused r

/-- The pulse in progress runs its next word (R288): an opcode that its class leaves unassigned raises ILLEGAL. -/
def runWord (s : State) (p : Pulse) : Host.Outcome State Fault Refusal :=
  match p.todo with
  | [] => .next (s.endPulse p)
  | w :: _ =>
    if w = 0 || p.words.length ≤ w then .fault .lostPulse
    else
      let s := s.nextWord p
      let q := s.pulse p
      match q.instr with
      | some i => afterWord (exec i s)
      | none => afterWord (.next (s.deliverAll q (.illegal 7)))

/-- The next event of the schedule happens, after the ticks that pass before it; without one, a tick passes. -/
def runEvent (s : State) : Host.Outcome State Fault Refusal :=
  match s.schedule with
  | [] => .next (s.ticks 1)
  | a :: rest => exec a.ev { s.ticks a.wait with schedule := rest, subj := a.subj }

/-- One step. -/
def step (s : State) : Host.Outcome State Fault Refusal :=
  let s := { s with fresh := s.fresh + 1 }
  match s.cur with
  | some p => runWord s p
  | none => runEvent s

/-- The state with an instruction placed where `step` runs its next word: the clause that the pulse of context 0 has
fetched (log entries 23 and 27). Bits that no class decodes are placed in a clause of class 0. -/
def State.withFetchWord (s : State) (nbits w : Nat) : State :=
  s.withClause (((tableClass nbits w).map (·.1)).getD 0) (tableWords nbits w)

end Sys2Proof.Machine
end

