-- ==== Sys2Proof/Safety.lean ====
section
/-! DEFINITION. What counts as a safe state and a safe run, in the terms that claims use. -/

namespace Sys2Proof.Machine

/-- Every word that a pulse has still to run lies in the body of the clause it fetched (R277, R288). -/
def Pulse.held (p : Pulse) : Bool := p.todo.all fun w => decide (0 < w) && decide (w < p.words.length)

/-- The pulse in progress holds the words that it has still to run. -/
def State.pulseHeld (s : State) : Bool :=
  match s.cur with
  | some p => p.held
  | none => true

/-- Device and host memory have their canonical form (log entry 2). -/
def State.memoryCanonical (s : State) : Bool := Memory.wf s.mem && Memory.wf s.hostMem

/-- The machine goes on: the step answers a next state. -/
def State.Runs (s : State) : Prop := ∃ t, step s = .next t

/-- A run of k steps stops nowhere. -/
def State.RunsFor : Nat → State → Prop
  | 0, _ => True
  | k + 1, s => ∃ t, step s = .next t ∧ State.RunsFor k t

end Sys2Proof.Machine
end

