-- ==== Sys2Proof/Certificates/Slice0/Obligations.lean ====
section
/-! DEFINITION. The statements for the provers, and the vocabulary they are written in. A statement that rests on a choice
of the model says so and names the log entry. -/

namespace Sys2Proof.Claims

open Sys2Proof.Machine

/-! ## Vocabulary -/

/-- The pulse `p` stands at a word that it may execute: a pulse is in progress that waits for nothing, the word earns no ILLEGAL reason
there, and no thread of P reads a poisoned register (R289, R295, R255). -/
def Ready (s : State) (p : Pulse) (i : Instr) : Prop :=
  s.cur = some p ∧ s.reasons p i = [] ∧ s.poisonTaken p i = [] ∧ p.hold = none

/-- Nothing but crew `k` and the pulse in progress differs between two states. -/
def OnlyCrew (k : Nat) (s t : State) : Prop :=
  t = { s with crews := t.crews, cur := t.cur } ∧ ∀ j, j ≠ k → t.crew j = s.crew j

/-- Every byte of device, host and local memory reads as before. -/
def SameBytes (s t : State) : Prop := ∀ q : Place, t.placeByte q = s.placeByte q

/-- Every register of a crew, its masks, descriptors, counters and status word are as before. -/
def SameRegisters (c d : Crew) : Prop :=
  d.v = c.v ∧ d.s = c.s ∧ d.m = c.m ∧ d.t = c.t ∧ d.lcs = c.lcs ∧ d.status = c.status ∧ d.vPois = c.vPois ∧
    d.sPois = c.sPois ∧ d.lat = c.lat

/-- A 64-bit number as the words of a register pair, low half first (R148). -/
def two (x : Int) : List Word := [BitVec.ofInt 32 x, BitVec.ofInt 32 (x / 2 ^ 32)]

/-- What a register instruction computes (R317): its destination, whether it writes it, the words of each lane and the
flags of each lane. -/
structure Computed where
  dest : BitVec 8
  write : Bool
  words : Nat → List Word
  flags : Nat → BitVec 4 := fun _ => 0

/-- The lanes in which the pulse computes: P and its helpers (R165, R317). -/
def Pulse.lanes (p : Pulse) : List Nat := (List.range 64).filter fun l => p.part.getLsbD l || p.helpers.getLsbD l

/-- The lanes of P. -/
def Pulse.members (p : Pulse) : List Nat := (List.range 64).filter fun l => p.part.getLsbD l

/-- The lowest lane of P. -/
def Pulse.low (p : Pulse) : Nat := (Pulse.members p).headD 0

/-- The words that lane l writes: its own for a vector destination, those of the lowest lane of P for a scalar one. -/
def Computed.inLane (x : Computed) (p : Pulse) (l : Nat) : List Word :=
  if isV x.dest then x.words l else x.words (Pulse.low p)

/-- Whether the instruction writes register j of lane l, and its word there (R148, R317). -/
def Computed.vWord (x : Computed) (p : Pulse) (lanes : List Nat) (j l : Nat) : Option Word :=
  if x.write = true ∧ isV x.dest = true ∧ l ∈ lanes ∧ x.dest.toNat ≤ j then (x.inLane p l)[j - x.dest.toNat]? else none

/-- Whether the instruction writes scalar register j, and its word. -/
def Computed.sWord (x : Computed) (p : Pulse) (j : Nat) : Option Word :=
  if x.write = true ∧ isV x.dest = false ∧ sNum x.dest ≤ j then (x.inLane p 0)[j - sNum x.dest]? else none

/-- A helper lane for which the instruction reads a poisoned register: what it writes and pushes there is undefined (R165). -/
def blind (s : State) (p : Pulse) (i : Instr) (l : Nat) : Prop := p.helpers.getLsbD l = true ∧ s.readsPoison p i l = true

/-- The whole effect of a register instruction on the crew: its destination in the given lanes and nothing else among the
registers, the low word pushed into b0 of each of those lanes, and the poison of what was written gone (R255, R287). Of the lanes
`dark`, what is written there is left open. -/
def Computed.Effect (x : Computed) (p : Pulse) (lanes : List Nat) (dark : Nat → Prop) (c d : Crew) : Prop :=
  d = { c with v := d.v, s := d.s, vPois := d.vPois, sPois := d.sPois, lat := d.lat } ∧
  (∀ j l, j < 128 → l < 64 → (dark l → x.vWord p lanes j l = none) → d.vreg j l = (x.vWord p lanes j l).getD (c.vreg j l)) ∧
  (∀ j l, j < 128 → l < 64 →
    sget false d.vPois (64 * j + l) = (sget false c.vPois (64 * j + l) && (x.vWord p lanes j l).isNone)) ∧
  (∀ j, d.sreg j = (x.sWord p j).getD (c.sreg j)) ∧
  (∀ j, sget false d.sPois j = (sget false c.sPois j && (x.sWord p j).isNone)) ∧
  (∀ l, (dark l → l ∉ lanes) →
    sget [] d.lat l = if l ∈ lanes then ((x.inLane p l).headD 0 :: sget [] c.lat l).take 4 else sget [] c.lat l)

/-- The flags that the pulse raises: those of the threads of P, or those of the one computation of a scalar instruction;
helpers raise none (R321). -/
def Computed.raised (x : Computed) (p : Pulse) : BitVec 4 :=
  if isV x.dest then (Pulse.members p).foldl (fun a l => a ||| x.flags l) 0 else x.flags (Pulse.low p)

/-- The pulse goes on with more flags (R321). -/
def withFlags (p : Pulse) (fl : BitVec 4) : Pulse := { p with flags := p.flags ||| fl }

/-- The instruction answers the state that differs in its result, written in the given lanes, alone. -/
def Computed.Runs (x : Computed) (i : Instr) (s : State) (p : Pulse) (lanes : List Nat) : Prop :=
  ∃ t, exec i s = .next t ∧ OnlyCrew p.crew s t ∧ t.cur = some (withFlags p (x.raised p)) ∧
    x.Effect p lanes (blind s p i) (s.crew p.crew) (t.crew p.crew)

/-! ## Integer results -/

/-- The unsigned number of a source in lane l (R285). -/
def num (s : State) (p : Pulse) (x : BitVec 8) (l : Nat) : Nat := (s.src p.crew l x).toNat
/-- The signed number of a source in lane l. -/
def sig (s : State) (p : Pulse) (x : BitVec 8) (l : Nat) : Int := (s.src p.crew l x).toInt
/-- The number of a 64-bit source in lane l. -/
def num64 (s : State) (p : Pulse) (x : BitVec 8) (l : Nat) : Nat := (s.src64 p.crew l x).toNat
/-- One word of a natural number, modulo 2^32. -/
def nat32 (x : Nat) : List Word := [BitVec.ofNat 32 x]
/-- One word of an integer, modulo 2^32. -/
def int32 (x : Int) : List Word := [BitVec.ofInt 32 x]

/-- The integer instructions of class 0 with a register result, as arithmetic of numbers (R322 to R324, R326 to R328). -/
def integer (s : State) (p : Pulse) : Instr → Option Computed
  | .add f => some ⟨f.d, f.w == 1, fun l => nat32 (num s p f.a l + num s p f.b l), fun _ => 0⟩
  | .sub f => some ⟨f.d, f.w == 1, fun l => int32 ((num s p f.a l : Int) - num s p f.b l), fun _ => 0⟩
  | .mul f => some ⟨f.d, f.w == 1, fun l => nat32 (num s p f.a l * num s p f.b l), fun _ => 0⟩
  | .mulhi f => some ⟨f.d, f.w == 1, fun l =>
      if f.v == 1 then nat32 (num s p f.a l * num s p f.b l / 2 ^ 32) else int32 (sig s p f.a l * sig s p f.b l / 2 ^ 32),
      fun _ => 0⟩
  | .mad f lit => some ⟨f.d, f.w == 1, fun l =>
      nat32 (num s p f.a l * num s p f.b l + num s p (lit.truncate 8) l), fun _ => 0⟩
  | .min f => some ⟨f.d, f.w == 1, fun l =>
      if f.v == 1 then nat32 (min (num s p f.a l) (num s p f.b l)) else int32 (min (sig s p f.a l) (sig s p f.b l)),
      fun _ => 0⟩
  | .max f => some ⟨f.d, f.w == 1, fun l =>
      if f.v == 1 then nat32 (max (num s p f.a l) (num s p f.b l)) else int32 (max (sig s p f.a l) (sig s p f.b l)),
      fun _ => 0⟩
  | .abs f => some ⟨f.d, f.w == 1, fun l => nat32 (sig s p f.a l).natAbs, fun _ => 0⟩
  | .neg f => some ⟨f.d, f.w == 1, fun l => int32 (-(sig s p f.a l)), fun _ => 0⟩
  | .and f => some ⟨f.d, f.w == 1, fun l => nat32 (num s p f.a l &&& num s p f.b l), fun _ => 0⟩
  | .or f => some ⟨f.d, f.w == 1, fun l => nat32 (num s p f.a l ||| num s p f.b l), fun _ => 0⟩
  | .xor f => some ⟨f.d, f.w == 1, fun l => nat32 (num s p f.a l ^^^ num s p f.b l), fun _ => 0⟩
  | .andn f => some ⟨f.d, f.w == 1, fun l => nat32 (num s p f.a l &&& (2 ^ 32 - 1 - num s p f.b l)), fun _ => 0⟩
  | .shl f => some ⟨f.d, f.w == 1, fun l => nat32 (num s p f.a l * 2 ^ (num s p f.b l % 256)), fun _ => 0⟩
  | .shr f => some ⟨f.d, f.w == 1, fun l => nat32 (num s p f.a l / 2 ^ (num s p f.b l % 256)), fun _ => 0⟩
  | .sar f => some ⟨f.d, f.w == 1, fun l => int32 (sig s p f.a l / 2 ^ (min (num s p f.b l % 256) 31)), fun _ => 0⟩
  | .rot f => some ⟨f.d, f.w == 1, fun l =>
      let r := num s p f.b l % 32
      if f.v == 1 then nat32 (num s p f.a l / 2 ^ r + num s p f.a l * 2 ^ (32 - r))
      else nat32 (num s p f.a l * 2 ^ r + num s p f.a l / 2 ^ (32 - r)), fun _ => 0⟩
  | .clz f => some ⟨f.d, f.w == 1, fun l => nat32 (32 - Nat.size (num s p f.a l)), fun _ => 0⟩
  | .popc f => some ⟨f.d, f.w == 1, fun l => nat32 (Nat.digits 2 (num s p f.a l)).sum, fun _ => 0⟩
  | .brev f => some ⟨f.d, f.w == 1, fun l => [(s.src p.crew l f.a).reverse], fun _ => 0⟩
  | .mov f => some ⟨f.d, f.w == 1, fun l => nat32 (num s p f.a l), fun _ => 0⟩
  | .bfx f =>
    let w := f.imm.toNat / 32 % 32 + 1
    let o := f.imm.toNat % 32
    some ⟨f.d, true, fun l => nat32 (num s p f.a l / 2 ^ o % 2 ^ w), fun _ => 0⟩
  | .bfi f =>
    let o := f.imm.toNat % 32
    let w := min (f.imm.toNat / 32 % 32 + 1) (32 - o)
    some ⟨f.d, true, fun l =>
      nat32 (num s p f.d l % 2 ^ o + num s p f.a l % 2 ^ w * 2 ^ o + num s p f.d l / 2 ^ (o + w) * 2 ^ (o + w)), fun _ => 0⟩
  | .ext f =>
    let w := f.imm.toNat % 32 + 1
    some ⟨f.d, true, fun l =>
      if f.imm.getLsbD 5 then int32 ((num s p f.a l : Int).bmod (2 ^ w)) else nat32 (num s p f.a l % 2 ^ w), fun _ => 0⟩
  | .sel f lit =>
    let m := s.mask p (lit.toNat % 16)
    some ⟨f.d, f.w == 1, fun l =>
      if (if isV f.d then m.getLsbD l else (m &&& p.part != 0)) then nat32 (num s p f.a l)
      else nat32 (num s p f.b l), fun _ => 0⟩
  | .movi f => some ⟨f.d, true, fun _ =>
      if f.h = 0 then int32 f.imm.toInt else if f.h = 1 then nat32 f.imm.toNat else nat32 (f.imm.toNat * 2 ^ 16), fun _ => 0⟩
  | .movhi f =>
    let r := if f.h.toNat < 2 then f.d else f.d + 1
    some ⟨r, true, fun l =>
      if f.h.toNat % 2 = 1 then nat32 (f.imm.toNat * 2 ^ 16 + num s p r l % 2 ^ 16)
      else nat32 (num s p r l / 2 ^ 16 * 2 ^ 16 + f.imm.toNat), fun _ => 0⟩
  | .lea f => some ⟨f.d, f.w == 1, fun l =>
      two ((num64 s p f.a l : Int) + (if f.v == 1 then (num s p f.b l : Int) else sig s p f.b l)), fun _ => 0⟩
  | .add64 f => some ⟨f.d, f.w == 1, fun l => two ((num64 s p f.a l : Int) + num64 s p f.b l), fun _ => 0⟩
  | .sub64 f => some ⟨f.d, f.w == 1, fun l => two ((num64 s p f.a l : Int) - num64 s p f.b l), fun _ => 0⟩
  | .mulw f => some ⟨f.d, f.w == 1, fun l =>
      if f.v == 1 then two ((num s p f.a l : Int) * num s p f.b l) else two (sig s p f.a l * sig s p f.b l), fun _ => 0⟩
  | _ => none

end Sys2Proof.Claims

open Sys2Proof Sys2Proof.Machine Sys2Proof.Claims

/-- R317, R322 to R324, R326 to R328: what each integer instruction writes, in every form; all else stays. -/
def Obligations.IntegerResults : Prop :=
  ∀ (i : Instr) (s : State) (p : Pulse) (x : Computed), integer s p i = some x → Ready s p i → x.Runs i s p (Pulse.lanes p)

namespace Sys2Proof.Claims

/-! ## Compares -/

/-- The rational number that a finite value is. -/
def value (n : Machine.Num) : ℚ := (if n.neg then -1 else 1) * n.m * (2 : ℚ) ^ n.e

/-- A value on the extended line: NaN is none (R263). -/
def ext : FVal → Option (WithBot (WithTop ℚ))
  | .nan => none
  | .inf true => some ⊥
  | .inf false => some ⊤
  | .fin n => some (((value n : ℚ) : WithTop ℚ) : WithBot (WithTop ℚ))

/-- An ordered relation of two FP32 words: false where one is a NaN (R271). -/
def ordered (r : WithBot (WithTop ℚ) → WithBot (WithTop ℚ) → Prop) (a b : Word) : Prop :=
  ∃ x y, ext (f32 a) = some x ∧ ext (f32 b) = some y ∧ r x y

/-- The relation of a compare between the values of two lanes, and its operands (R325, R330). -/
def relation (s : State) (p : Pulse) : Instr → Option (FmtA × (Nat → Prop))
  | .cmpEq f => some (f, fun l => num s p f.a l = num s p f.b l)
  | .cmpNe f => some (f, fun l => num s p f.a l ≠ num s p f.b l)
  | .cmpLt f => some (f, fun l => if f.v == 1 then num s p f.a l < num s p f.b l else sig s p f.a l < sig s p f.b l)
  | .cmpLe f => some (f, fun l => if f.v == 1 then num s p f.a l ≤ num s p f.b l else sig s p f.a l ≤ sig s p f.b l)
  | .cmpGt f => some (f, fun l => if f.v == 1 then num s p f.a l > num s p f.b l else sig s p f.a l > sig s p f.b l)
  | .cmpGe f => some (f, fun l => if f.v == 1 then num s p f.a l ≥ num s p f.b l else sig s p f.a l ≥ sig s p f.b l)
  | .fcmpEq f => some (f, fun l => ordered (· = ·) (s.src p.crew l f.a) (s.src p.crew l f.b))
  | .fcmpNe f => some (f, fun l => ¬ ordered (· = ·) (s.src p.crew l f.a) (s.src p.crew l f.b))
  | .fcmpLt f => some (f, fun l => ordered (· < ·) (s.src p.crew l f.a) (s.src p.crew l f.b))
  | .fcmpLe f => some (f, fun l => ordered (· ≤ ·) (s.src p.crew l f.a) (s.src p.crew l f.b))
  | .fcmpGt f => some (f, fun l => ordered (· > ·) (s.src p.crew l f.a) (s.src p.crew l f.b))
  | .fcmpGe f => some (f, fun l => ordered (· ≥ ·) (s.src p.crew l f.a) (s.src p.crew l f.b))
  | _ => none

end Sys2Proof.Claims

/-- R325, R330: a compare writes the mask bits of the threads of P and keeps every other bit, mask, register and flag. -/
def Obligations.CompareResults : Prop :=
  ∀ (i : Instr) (s : State) (p : Pulse) (f : FmtA) (r : Nat → Prop), relation s p i = some (f, r) → Ready s p i →
    ∃ t, exec i s = .next t ∧ OnlyCrew p.crew s t ∧ t.cur = s.cur ∧
      t.crew p.crew = { s.crew p.crew with m := (t.crew p.crew).m } ∧
      (∀ j l, l < 64 → ¬ (j = f.d.toNat ∧ p.part.getLsbD l = true) →
        (sget 0 (t.crew p.crew).m j).getLsbD l = (sget 0 (s.crew p.crew).m j).getLsbD l) ∧
      (∀ l, l < 64 → p.part.getLsbD l = true → ((sget 0 (t.crew p.crew).m f.d.toNat).getLsbD l = true ↔ r l))

namespace Sys2Proof.Claims

/-! ## Float results -/

/-- A float result: one word with its flags. -/
def flt (f : FmtA) (g : Nat → Word × BitVec 4) : Option Computed :=
  some ⟨f.d, f.w == 1, fun l => [(g l).1], fun l => (g l).2⟩

/-- The class 1 instructions with a register result (R329, R331, R333 to R338): the words and flags of each lane, by the
operations of Flags.lean on the values of the words. -/
def float (s : State) (p : Pulse) : Instr → Option Computed
  | .fadd f => flt f fun l => asWord (fp32.add (f32 (s.src p.crew l f.a)) (f32 (s.src p.crew l f.b)))
  | .fsub f => flt f fun l => asWord (fp32.add (f32 (s.src p.crew l f.a)) (f32 (s.src p.crew l f.b)).neg)
  | .fmul f => flt f fun l => asWord (fp32.mul (f32 (s.src p.crew l f.a)) (f32 (s.src p.crew l f.b)))
  | .ffma f lit => flt f fun l =>
      asWord (fp32.fma (f32 (s.src p.crew l f.a)) (f32 (s.src p.crew l f.b)) (f32 (s.src p.crew l (lit.truncate 8))))
  | .fmin f => flt f fun l => (fminmax32 false (s.src p.crew l f.a) (s.src p.crew l f.b), 0)
  | .fmax f => flt f fun l => (fminmax32 true (s.src p.crew l f.a) (s.src p.crew l f.b), 0)
  | .fdiv f => flt f fun l => asWord (fp32.div (f32 (s.src p.crew l f.a)) (f32 (s.src p.crew l f.b)))
  | .frcp f => flt f fun l => frcpV (s.src p.crew l f.a)
  | .frsq f => flt f fun l => frsqV (s.src p.crew l f.a)
  | .fsqrt f => flt f fun l => asWord (fsqrtV (f32 (s.src p.crew l f.a)))
  | .fexp2 f => flt f fun l => fexp2V (s.src p.crew l f.a)
  | .flog2 f => flt f fun l => flog2V (s.src p.crew l f.a)
  | .fsin f => flt f fun l => ftrigV false (s.src p.crew l f.a)
  | .fcos f => flt f fun l => ftrigV true (s.src p.crew l f.a)
  | .i2f f => flt f fun l =>
      asWord (fp32.rne (Num.ofInt (if f.v == 1 then (num s p f.a l : Int) else sig s p f.a l) 0 false))
  | .f2i f => flt f fun l => f2iV (f.v == 1) (s.src p.crew l f.a)
  | .fscale f => flt f fun l => fscaleV (s.src p.crew l f.a) (s.src p.crew l f.b)
  | .fround f => some ⟨f.d, true, fun l => [froundV (f.imm.toNat % 4) (s.src p.crew l f.a)], fun _ => 0⟩
  | .fcvt f =>
    let slot := (s.recOf p.crew).slot (f.imm.toNat % 8)
    some ⟨f.d, true,
      fun l => if f.imm.getLsbD 3 then [elemToF32 (slotElem slot) (num s p f.a l % 2 ^ elemBits (slotElem slot))]
        else [(asWord (f32ToElem slot ((s.crew p.crew).vreg (slotSreg slot) l) (s.src p.crew l f.a))).1],
      fun l => if f.imm.getLsbD 3 then 0
        else (f32ToElem slot ((s.crew p.crew).vreg (slotSreg slot) l) (s.src p.crew l f.a)).2⟩
  | .pk f =>
    let w := 4 * 2 ^ (f.imm.toNat / 8 % 4)
    let o := w * (f.imm.toNat % 8)
    some ⟨f.d, true, fun l =>
      nat32 (num s p f.d l % 2 ^ o + num s p f.a l % 2 ^ w * 2 ^ o + num s p f.d l / 2 ^ (o + w) * 2 ^ (o + w)), fun _ => 0⟩
  | .upk f =>
    let w := 4 * 2 ^ (f.imm.toNat / 8 % 4)
    let o := w * (f.imm.toNat % 8)
    some ⟨f.d, true, fun l =>
      if f.imm.getLsbD 5 then int32 (((num s p f.a l / 2 ^ o : Nat) : Int).bmod (2 ^ w)) else nat32 (num s p f.a l / 2 ^ o % 2 ^ w),
      fun _ => 0⟩
  | .dp4 f lit => flt f fun l =>
      packedDot (slotElem ((s.recOf p.crew).slot (lit.toNat / 256 % 8))) 8 (s.src p.crew l f.a) (s.src p.crew l f.b)
        (s.src p.crew l (lit.truncate 8))
  | .dp8 f lit => flt f fun l =>
      packedDot (slotElem ((s.recOf p.crew).slot (lit.toNat / 256 % 8))) 4 (s.src p.crew l f.a) (s.src p.crew l f.b)
        (s.src p.crew l (lit.truncate 8))
  | _ => none

end Sys2Proof.Claims

/-- R317, R321, R329, R331, R333 to R338: what each float instruction writes and which flags it raises; all else stays. The
six functions of R332 rest on the free functions of log entry 15. -/
def Obligations.FloatResults : Prop :=
  ∀ (i : Instr) (s : State) (p : Pulse) (x : Computed), float s p i = some x → Ready s p i → x.Runs i s p (Pulse.lanes p)

namespace Sys2Proof.Claims

/-- A finite value of a format, by its encoding. -/
def finiteOf (f : Fmt) (x : Nat) : Option ℚ :=
  match f.decode x with
  | .fin n => some (value n)
  | _ => none

/-- The formats of R263. -/
def formats : List Fmt := [fp32, fp16, bf16, e4m3, e5m2, e3m2, e2m3, e2m1]

end Sys2Proof.Claims

namespace Sys2Proof.Claims

/-- The result of an overflow (R269), by its table: saturated with OVF 0; with OVF 1 what the rounding mode gives, E4M3 its NaN, and the
formats without infinity or NaN their largest value. -/
def overflowed (f : Fmt) (ovf : Bool) (mode : Nat) (neg : Bool) : Nat :=
  let sign := if neg then 2 ^ (f.n - 1) else 0
  if ovf = false ∨ f ∈ [e3m2, e2m3, e2m1] then sign + f.maxEnc
  else if f = e4m3 then sign + 0x7F
  else if mode = 1 ∨ mode = 2 ∧ neg = false ∨ mode = 3 ∧ neg = true then sign + f.maxEnc
  else sign + (2 ^ f.eb - 1) * 2 ^ f.mb

/-- The largest finite value of a format (R263). -/
def largest (f : Fmt) : ℚ := (finiteOf f f.maxEnc).getD 0

/-- `r` is the real number v, whose sign is `neg`, converted to a format as R268, R269 and R272 say: its magnitude truncated to the format's
precision, one unit more where the mode asks for it; beyond the largest finite value the overflow result with OF and NX; else the
encoding of that value with the sign of v, with NX where it is inexact, and UF where it is then also below the smallest normal. -/
def Rounded (f : Fmt) (ovf : Bool) (mode rb : Nat) (v : ℝ) (neg : Bool) (r : Nat × BitVec 4) : Prop :=
  let x := |v|
  let u : ℝ := (2 : ℝ) ^ (max (Int.log 2 x) (1 - (f.bias : ℤ)) - (f.mb : ℤ))
  let t : ℝ := ⌊x / u⌋ * u
  let q := (x - t) / u
  let up : Prop := match mode with
    | 0 => 1 / 2 < q ∨ q = 1 / 2 ∧ ⌊x / u⌋ % 2 = 1
    | 1 => False
    | 2 => 0 < q ∧ neg = true
    | 3 => 0 < q ∧ neg = false
    | _ => (rb : ℤ) < ⌊q * 2 ^ 32⌋
  ∃ m : ℝ, (up → m = t + u) ∧ (¬ up → m = t) ∧
    ((largest f : ℝ) < m → r = (overflowed f ovf mode neg, flOF ||| flNX)) ∧
    (m ≤ (largest f : ℝ) →
      (∃ y : ℚ, finiteOf f r.1 = some y ∧ (y : ℝ) = if neg then -m else m) ∧ r.1 < 2 ^ f.n ∧ r.1.testBit (f.n - 1) = neg ∧
      (m = x → r.2 = 0) ∧
      (m ≠ x → r.2 = if r.1 % 2 ^ (f.n - 1) < 2 ^ f.mb then flNX ||| flUF else flNX))

/-- R268, R269, R272: a finite exact value is converted to each format, in each mode, as the rules say; no finite value of the format is
above the largest one. -/
def RoundingFollowsTheRules : Prop :=
  ∀ f ∈ formats,
    (∀ (n : Machine.Num) (ovf : Bool) (mode rb : Nat), Rounded f ovf mode rb (value n) n.neg (f.round ovf mode rb n)) ∧
    ∀ (e : Nat) (z : ℚ), e < 2 ^ f.n → finiteOf f e = some z → z ≤ largest f

/-- R268, R272: to nearest even, a value that does not overflow gives a finite value of the format that no other finite value of the format
is nearer to, of two that are equally near the even encoding, and NX is raised exactly where the result differs from the value. It
overflows exactly where the value lies more than half a unit beyond the largest finite one, or half a unit where that one is odd. -/
def NearestEven : Prop :=
  ∀ f ∈ formats, ∀ (n : Machine.Num) (ovf : Bool),
    let r := f.round ovf 0 0 n
    let half : ℚ := (largest f - (finiteOf f (f.maxEnc - 1)).getD 0) / 2
    let beyond : Prop := largest f + half < |value n| ∨ |value n| = largest f + half ∧ f.maxEnc % 2 = 1
    (beyond ↔ r.2 = flOF ||| flNX) ∧
    (¬ beyond → ∃ y : ℚ, finiteOf f r.1 = some y ∧
      (∀ (e : Nat) (z : ℚ), e < 2 ^ f.n → finiteOf f e = some z → |value n - y| ≤ |value n - z|) ∧
      (∀ (e : Nat) (z : ℚ), e < 2 ^ f.n → finiteOf f e = some z → z ≠ y → |value n - y| = |value n - z| → r.1 % 2 = 0) ∧
      (r.2 &&& flNX ≠ 0 ↔ y ≠ value n))

/-- R268, R271, R329, R331: the sum, the product, the fused sum, the quotient and the square root of finite FP32 values are the exact real
results rounded to nearest even; an exact zero sum is +0 unless all its terms are −0. -/
def ExactThenRounded : Prop :=
  let rounds := fun (v : ℝ) (neg : Bool) (r : Nat × BitVec 4) => Rounded fp32 true 0 0 v neg r
  let below := fun (v : ℝ) (zero neg : Bool) => (v < 0 → neg = true) ∧ (0 < v → neg = false) ∧ (v = 0 → neg = zero)
  ∀ a b c : Machine.Num,
    let x : ℝ := value a
    let y : ℝ := value b
    let z : ℝ := value c
    (∃ neg, below (x + y) (a.neg && b.neg && a.m == 0 && b.m == 0) neg ∧ rounds (x + y) neg (fp32.add (.fin a) (.fin b))) ∧
    rounds (x * y) (a.neg != b.neg) (fp32.mul (.fin a) (.fin b)) ∧
    (∃ neg, below (x * y + z) ((a.neg != b.neg) && c.neg && (a.m == 0 || b.m == 0) && c.m == 0) neg ∧
      rounds (x * y + z) neg (fp32.fma (.fin a) (.fin b) (.fin c))) ∧
    (b.m ≠ 0 → rounds (x / y) (a.neg != b.neg) (fp32.div (.fin a) (.fin b))) ∧
    (a.neg = false ∨ a.m = 0 → rounds (Real.sqrt x) a.neg (fsqrtV (.fin a)))

end Sys2Proof.Claims

/-- R268, R269, R271, R272, R329, R331: the conversion of a value to a format in every rounding mode, what to nearest even means, and the
sum, product, fused sum, quotient and root of FP32 as the exact results rounded once. -/
def Obligations.RoundingIsNearestEven : Prop := RoundingFollowsTheRules ∧ NearestEven ∧ ExactThenRounded

namespace Sys2Proof.Claims

/-- The word and the flags that a float instruction computes in lane l (R329, R331). -/
def gives (s : State) (p : Pulse) (i : Instr) (l : Nat) : Option (Word × BitVec 4) :=
  (float s p i).map fun x => ((x.words l).headD 0, x.flags l)

/-- The canonical NaN of FP32 (R270). -/
def canonical : Word := 0x7FC00000

/-- A zero of either sign. -/
def zeroWord (w : Word) : Prop := w = 0 ∨ w = 0x80000000

/-- An infinity of either sign. -/
def infWord (w : Word) : Prop := w = 0x7F800000 ∨ w = 0xFF800000

/-- A NaN of FP32, by its encoding. -/
def nanWord (w : Word) : Prop := 0x7F800000 < w.toNat % 2 ^ 31

/-- The sign of an FP32 word. -/
def signOf (w : Word) : Bool := w.getLsbD 31

/-- The infinity of a sign. -/
def infOf (neg : Bool) : Word := if neg then 0xFF800000 else 0x7F800000

end Sys2Proof.Claims

/-- R271: every row of the table of special operands, as what the float instructions and compares compute in a lane: a NaN operand,
the invalid operations, division by zero, and fmin, fmax and the compares of NaNs and of the two zeros. fmin and fmax are
commutative and associative on every input, and red.min and red.max give one result whatever the order of arrival. (0 × inf in ffma
sets NV even where c is a NaN: R329.) -/
def Obligations.FloatSpecialCases : Prop :=
  (∀ (s : State) (p : Pulse) (f : FmtA) (lit : Word) (l : Nat),
    let a := s.src p.crew l f.a
    let b := s.src p.crew l f.b
    let c := s.src p.crew l (lit.truncate 8)
    let r := fun i => gives s p i l
    let invalid := fun i => r i = some (canonical, flNV)
    let quiet := fun i => r i = some (canonical, 0)
    let product : Prop := zeroWord a ∧ infWord b ∨ infWord a ∧ zeroWord b
    (nanWord a ∨ nanWord b → quiet (.fadd f) ∧ quiet (.fsub f) ∧ quiet (.fmul f) ∧ quiet (.fdiv f)) ∧
    (nanWord a → quiet (.fsqrt f)) ∧
    (nanWord a ∨ nanWord b ∨ nanWord c → ¬ product → quiet (.ffma f lit)) ∧
    (infWord a → infWord b → a ≠ b → invalid (.fadd f)) ∧ (infWord a → a = b → invalid (.fsub f)) ∧
    (product → invalid (.fmul f) ∧ invalid (.ffma f lit)) ∧
    (infWord a ∧ ¬ nanWord b ∧ ¬ zeroWord b ∨ infWord b ∧ ¬ nanWord a ∧ ¬ zeroWord a →
      c = infOf (signOf a == signOf b) → invalid (.ffma f lit)) ∧
    (zeroWord a → zeroWord b → invalid (.fdiv f)) ∧ (infWord a → infWord b → invalid (.fdiv f)) ∧
    (signOf a = true → ¬ zeroWord a → ¬ nanWord a → invalid (.fsqrt f)) ∧
    (¬ nanWord a → ¬ infWord a → ¬ zeroWord a → zeroWord b → r (.fdiv f) = some (infOf (signOf a != signOf b), 0)) ∧
    (nanWord a → nanWord b → quiet (.fmin f) ∧ quiet (.fmax f)) ∧
    (nanWord a → ¬ nanWord b → r (.fmin f) = some (b, 0) ∧ r (.fmax f) = some (b, 0)) ∧
    (nanWord b → ¬ nanWord a → r (.fmin f) = some (a, 0) ∧ r (.fmax f) = some (a, 0)) ∧
    (zeroWord a → zeroWord b → a ≠ b → r (.fmin f) = some (0x80000000, 0) ∧ r (.fmax f) = some (0, 0)) ∧
    (nanWord a ∨ nanWord b → ∀ cc, fcompare cc (f32 a) (f32 b) = (cc == 1))) ∧
  (∀ (isMax : Bool) (a b c : Word), fminmax32 isMax a b = fminmax32 isMax b a ∧
    fminmax32 isMax (fminmax32 isMax a b) c = fminmax32 isMax a (fminmax32 isMax b c)) ∧
  ∀ (op : AtomOp), (op = .minF ∨ op = .maxF) → ∀ (xs ys : List Word) (old z : Word), xs.Perm ys →
    xs.foldl (fun o x => newValue op o x z) old = ys.foldl (fun o x => newValue op o x z) old

namespace Sys2Proof.Claims

/-! ## Crew operations -/

/-- What a lane reads of lane u (R339): nothing of a lane without a thread that does not compute; a latch of a lane that does
not compute is a free value (log entry 3). -/
def fromLane (s : State) (p : Pulse) (u : Nat) (a : BitVec 8) : Word :=
  if u ∈ Pulse.lanes p then s.src p.crew u a
  else if ((s.crew p.crew).lane u).present = false then 0
  else if isLatch a then s.free (256 + u)
  else s.src p.crew u a

/-- Q of R342: the lanes of P whose source is not zero. -/
def nonZero (s : State) (p : Pulse) (a : BitVec 8) : List Nat := (Pulse.members p).filter fun u => decide (s.src p.crew u a ≠ 0)

/-- The value that match compares (R342). -/
def matched (s : State) (p : Pulse) (f : FmtA) (u : Nat) : Nat := if f.v == 1 then num64 s p f.a u else num s p f.a u

/-- shfl, qxch, vote, popm, elect and match, with the lanes they write (R340 to R342). -/
def crewMove (s : State) (p : Pulse) : Instr → Option (Computed × List Nat)
  | .shfl f => some (⟨f.d, f.w == 1, fun t =>
      let b := num s p f.b t % 64
      let u := if f.v == 1 then t ^^^ b else b
      if ((s.crew p.crew).lane u).present then [fromLane s p u f.a] else [0], fun _ => 0⟩, Pulse.members p)
  | .qxch f => some (⟨f.d, true, fun l => [fromLane s p (l ^^^ (f.imm.toNat % 4 + 1)) f.a], fun _ => 0⟩, Pulse.lanes p)
  | .vote f => some (⟨f.d, f.w == 1, fun _ =>
      if f.v == 1 then nat32 ((((nonZero s p f.a).filter (32 ≤ ·)).map fun u => 2 ^ (u - 32)).sum)
      else nat32 ((((nonZero s p f.a).filter (· < 32)).map fun u => 2 ^ u).sum), fun _ => 0⟩, Pulse.members p)
  | .popm f => some (⟨f.d, f.w == 1, fun t =>
      nat32 (if f.v == 1 then (nonZero s p f.a).length else ((nonZero s p f.a).filter (· < t)).length), fun _ => 0⟩,
      Pulse.members p)
  | .elect f => some (⟨f.d, f.w == 1, fun t =>
      nat32 (if t ∈ nonZero s p f.a ∧ ∀ u ∈ nonZero s p f.a, t ≤ u then 1 else 0), fun _ => 0⟩, Pulse.members p)
  | .matchLow f => some (⟨f.d, f.w == 1, fun t =>
      nat32 (((Pulse.members p).filter fun u => decide (matched s p f u = matched s p f t)).headD t), fun _ => 0⟩,
      Pulse.members p)
  | _ => none

/-- The lanes of P whose values a thread t combines (R344). -/
def segmentOf (heads : LaneSet) (p : Pulse) (t : Nat) : List Nat :=
  let isHead := fun u => u = Pulse.low p ∨ heads.getLsbD u = true
  let start := fun t => ((Pulse.members p).filter fun u => decide (u ≤ t ∧ isHead u)).getLastD t
  (Pulse.members p).filter fun u => decide (start u = start t)

/-- The reduction of the integer type over a list of words (R343, R344). -/
def reduceInt (b : BitVec 8) (v : BitVec 1) (ws : List Word) : Word :=
  match b.toNat with
  | 0xE4 => BitVec.ofNat 32 ((ws.map fun w => w.toNat).sum)
  | 0xE5 => if v == 1 then BitVec.ofNat 32 (ws.foldr (fun w m => min w.toNat m) (2 ^ 32 - 1))
      else BitVec.ofInt 32 (ws.foldr (fun w m => min w.toInt m) (2 ^ 31 - 1))
  | 0xE6 => if v == 1 then BitVec.ofNat 32 (ws.foldr (fun w m => max w.toNat m) 0)
      else BitVec.ofInt 32 (ws.foldr (fun w m => max w.toInt m) (-2 ^ 31))
  | 0xE7 => ws.foldr (· &&& ·) (BitVec.allOnes 32)
  | 0xE8 => ws.foldr (· ||| ·) 0
  | _ => ws.foldr (· ^^^ ·) 0

/-- An integer reduction with the lanes that thread t combines. -/
def redInt (s : State) (p : Pulse) (f : FmtA) (set : Nat → List Nat) : Option Computed :=
  some ⟨f.d, f.w == 1, fun t => [reduceInt f.b f.v ((set t).map fun u => s.src p.crew u f.a)], fun _ => 0⟩

/-- The tree of R274 over the 2^n lanes from `lo` on: absent lanes pass their neighbour's value. -/
def tree {α : Type} (op : α → α → α) (val : Nat → Option α) : Nat → Nat → Option α
  | 0, lo => val lo
  | n + 1, lo =>
    match tree op val n lo, tree op val n (lo + 2 ^ n) with
    | some x, some y => some (op x y)
    | some x, none => some x
    | none, y => y

/-- The type of a float reduction (R343). -/
def typeOf (b : BitVec 8) : Fmt := [fp32, fp16, bf16].getD ((b.toNat - 0xE4) / 3) fp32

/-- One combination of encodings with the flags of both sides (R271, R274, R343). -/
def combine (b : BitVec 8) (x y : Nat × BitVec 4) : Nat × BitVec 4 :=
  let f := typeOf b
  let fl := x.2 ||| y.2
  match (b.toNat - 0xE4) % 3 with
  | 0 => ((f.add (f.decode x.1) (f.decode y.1)).1, (f.add (f.decode x.1) (f.decode y.1)).2 ||| fl)
  | 1 => (f.minmax false x.1 y.1, fl)
  | _ => (f.minmax true x.1 y.1, fl)

/-- A float reduction over lanes (R344). -/
def redFloat (s : State) (p : Pulse) (f : FmtA) (set : Nat → List Nat) : Option Computed :=
  let r := fun t => (tree (combine f.b) (fun u => if u ∈ set t then some (num s p f.a u % 2 ^ (typeOf f.b).n, 0) else none) 6 0).getD (0, 0)
  some ⟨f.d, f.w == 1, fun t => nat32 (r t).1, fun t => (r t).2⟩

/-- The reductions (R343, R344). -/
def reduction (s : State) (p : Pulse) : Instr → Option Computed
  | .credInt f => redInt s p f fun _ => Pulse.members p
  | .cscanInt f => redInt s p f fun t => (Pulse.members p).filter (· ≤ t)
  | .csredInt f lit => redInt s p f (segmentOf (s.mask p (lit.toNat % 16)) p)
  | .credFloat f => redFloat s p f fun _ => Pulse.members p
  | .cscanFloat f => redFloat s p f fun t => (Pulse.members p).filter (· ≤ t)
  | .csredFloat f lit => redFloat s p f (segmentOf (s.mask p (lit.toNat % 16)) p)
  | _ => none

end Sys2Proof.Claims

/-- R339 to R342: what shfl, qxch, vote, popm, elect and match write, in the lanes that they write; all else stays. -/
def Sys2Proof.Claims.CrewMoves : Prop :=
  ∀ (i : Instr) (s : State) (p : Pulse) (x : Computed) (lanes : List Nat), crewMove s p i = some (x, lanes) → Ready s p i →
    x.Runs i s p lanes

/-- R274, R343, R344: what cred, cscan and csred write in the threads of P: the sum, least, greatest or bitwise combination of
the integer values of its set of lanes, or the root of the float tree over them; all else stays. -/
def Sys2Proof.Claims.CrewReductions : Prop :=
  ∀ (i : Instr) (s : State) (p : Pulse) (x : Computed), reduction s p i = some x → Ready s p i → x.Runs i s p (Pulse.members p)

namespace Sys2Proof.Claims

/-! ## The generator -/

/-- The number that four consecutive registers of a lane hold, the first lowest (R345). -/
def block4 (s : State) (p : Pulse) (x : BitVec 8) (l : Nat) : Nat :=
  num s p x l + 2 ^ 32 * num s p (x + 1) l + 2 ^ 64 * num s p (x + 2) l + 2 ^ 96 * num s p (x + 3) l

/-- Four registers of a lane as words. -/
def words4 (s : State) (p : Pulse) (x : BitVec 8) (l : Nat) : List Word :=
  [s.src p.crew l x, s.src p.crew l (x + 1), s.src p.crew l (x + 2), s.src p.crew l (x + 3)]

/-- Word i of a number. -/
def wordOf (n i : Nat) : Word := BitVec.ofNat 32 (n / 2 ^ (32 * i))

end Sys2Proof.Claims

/-- R345, R346: rng.step writes the generator's four words of key and counter where W is set, adds one to the 128-bit counter
and pushes the first word, and rng.skip adds the 128-bit number to the counter and pushes nothing, in every computing lane;
all else stays. -/
def Obligations.GeneratorSteps : Prop :=
  ∀ (s : State) (p : Pulse) (f : FmtA),
    (Ready s p (.rngStep f) → ∃ t, exec (.rngStep f) s = .next t ∧ OnlyCrew p.crew s t ∧ t.cur = s.cur ∧
      let c := s.crew p.crew
      let d := t.crew p.crew
      d = { c with v := d.v, vPois := d.vPois, lat := d.lat } ∧
      (∀ j l, j < 128 → l < 64 → ¬ blind s p (.rngStep f) l → d.vreg j l =
        if l ∈ Pulse.lanes p ∧ f.a.toNat + 4 ≤ j ∧ j < f.a.toNat + 8 then
          wordOf (block4 s p (f.a + 4) l + 1) (j - (f.a.toNat + 4))
        else if l ∈ Pulse.lanes p ∧ f.w = 1 ∧ f.d.toNat ≤ j ∧ j < f.d.toNat + 4 then
          (scg128 (words4 s p f.a l) (words4 s p (f.a + 4) l)).getD (j - f.d.toNat) 0
        else c.vreg j l) ∧
      (∀ j l, j < 128 → l < 64 → ¬ (f.a.toNat + 4 ≤ j ∧ j < f.a.toNat + 8) → ¬ (f.w = 1 ∧ f.d.toNat ≤ j ∧ j < f.d.toNat + 4) →
        d.vreg j l = c.vreg j l) ∧
      (∀ l, ¬ blind s p (.rngStep f) l → sget [] d.lat l = if l ∈ Pulse.lanes p then
        ((scg128 (words4 s p f.a l) (words4 s p (f.a + 4) l)).headD 0 :: sget [] c.lat l).take 4 else sget [] c.lat l)) ∧
    (Ready s p (.rngSkip f) → ∃ t, exec (.rngSkip f) s = .next t ∧ OnlyCrew p.crew s t ∧ t.cur = s.cur ∧
      let c := s.crew p.crew
      let d := t.crew p.crew
      d = { c with v := d.v, vPois := d.vPois } ∧
      (∀ j l, j < 128 → l < 64 → ¬ blind s p (.rngSkip f) l → d.vreg j l =
        if l ∈ Pulse.lanes p ∧ f.a.toNat + 4 ≤ j ∧ j < f.a.toNat + 8 then
          wordOf (block4 s p (f.a + 4) l + block4 s p f.b l) (j - (f.a.toNat + 4))
        else c.vreg j l) ∧
      (∀ j l, j < 128 → l < 64 → ¬ (f.a.toNat + 4 ≤ j ∧ j < f.a.toNat + 8) → d.vreg j l = c.vreg j l))

namespace Sys2Proof.Claims

/-! ## Causes -/

/-- A lane whose thread enters its trap handler at the word that runs (R293, R294). -/
def entering (s : State) (p : Pulse) (cause reason : Nat) (addr : DWord) (x : Lane) : Lane :=
  { x with
    tr := { word := p.word, cls := BitVec.ofNat 3 (p.clsAt p.pos), pc := p.hdr + BitVec.ofNat 64 (4 * p.pos),
            cause := BitVec.ofNat 32 (cause + 256 * reason), addr }
    inTrap := true, pc := (s.recOf p.crew).trappc, mark := false, wpSkip := false }

/-- The pulse without the listed lanes, which have left it. -/
def leaving (p : Pulse) (ls : List Nat) : Pulse := { p with part := p.part &&& ~~~laneSet ls }

/-- The lanes of crew k change as `f` says in the listed lanes; nothing else of the machine changes but the pulse. -/
def LanesBecome (k : Nat) (s t : State) (ls : List Nat) (f : Nat → Lane → Lane) : Prop :=
  OnlyCrew k s t ∧ t.crew k = { s.crew k with lanes := (t.crew k).lanes } ∧
  ∀ l, (t.crew k).lane l = if l ∈ ls then f l ((s.crew k).lane l) else (s.crew k).lane l

/-- A context stops because of a fault: it is the one recorded, and nothing of the machine changes but the context, the lanes
of the faulting crew, the pulse, and the ABORT messages to the context's guest queues (R101, R102, R88). -/
def ContextStops (n k : Nat) (f : FaultInfo) (s t : State) : Prop :=
  t = { s with crews := t.crews, cur := t.cur, ctxs := t.ctxs, adit := t.adit } ∧
  (∀ j, j ≠ k → t.crew j = s.crew j) ∧ t.crew k = { s.crew k with lanes := (t.crew k).lanes } ∧
  (∀ m, t.ctx m = if m = n then { s.ctx n with st := .stopping, pendFault := some f } else s.ctx m)

/-- The fault of a thread at the word that runs (R100, R102). -/
def faultAt (p : Pulse) (cause : Nat) (addr : DWord) (l : Nat) : FaultInfo :=
  { cause := BitVec.ofNat 8 cause, addr, pc := p.hdr + BitVec.ofNat 64 (4 * p.pos), lcore := BitVec.ofNat 7 (p.crew / 256 % 128),
    crew := BitVec.ofNat 8 (p.crew % 256), tid := BitVec.ofNat 6 l }

/-- Every instruction word of the tables: what is decoded in one of the classes 0 to 6. -/
def isWord (i : Instr) : Prop := i.cls < 7

/-- The words that meet a poisoned register and raise nothing that R289 lists before POISON: every word of the classes 0 and 1, and
those of the other classes that only read registers. -/
def tamePoison (i : Instr) : Prop :=
  i.cls < 2 ∨ match i with
    | .barInit _ | .barWait _ | .swr _ | .evcSel _ | .vhop _ | .dbg _ | .dbgHalt _ | .switch _ _ | .tset _ => True
    | _ => False

/-- Every thread of P is outside a handler, and its grid names one (R292). -/
def Trappable (s : State) (p : Pulse) : Prop :=
  (s.recOf p.crew).trappc ≠ 0 ∧ ∀ l ∈ Pulse.members p, ((s.crew p.crew).lane l).inTrap = false

end Sys2Proof.Claims

/-- R289, R293 to R295: a word of any class that earns ILLEGAL has no effect but that every thread of P enters its handler,
with the lowest reason in tr.cause. -/
def Sys2Proof.Claims.IllegalWordsTrap : Prop :=
  ∀ (i : Instr) (s : State) (p : Pulse) (r : Nat), isWord i → s.cur = some p → r ∈ s.reasons p i →
    (∀ q ∈ s.reasons p i, r ≤ q) → Trappable s p →
    ∃ t, exec i s = .next t ∧ t.cur = some (leaving p (Pulse.members p)) ∧
      LanesBecome p.crew s t (Pulse.members p) fun _ x => entering s p 1 r 0 x

/-- R102, R289, R292: where the grid names no handler, the same word stops the context with the fault of the lowest thread of
P; a word that raises no other cause and reads a poisoned register in some thread of P stops it with POISON of the lowest such
thread (R255). -/
def Sys2Proof.Claims.FatalCausesStopTheContext : Prop :=
  ∀ (i : Instr) (s : State) (p : Pulse), isWord i → s.cur = some p → (s.ctx (ctxOf p.crew)).st = .on →
    (Pulse.members p ≠ [] → s.reasons p i ≠ [] → (s.recOf p.crew).trappc = 0 →
      ∃ t, exec i s = .next t ∧ ContextStops (ctxOf p.crew) p.crew (faultAt p 1 0 (Pulse.low p)) s t ∧
        t.cur = some (leaving p (Pulse.members p))) ∧
    (∀ x xs, tamePoison i → s.reasons p i = [] → s.poisonTaken p i = x :: xs →
      ∃ t, exec i s = .next t ∧ ContextStops (ctxOf p.crew) p.crew (faultAt p 0x0B 0 x.lane) s t ∧
        t.cur = some (leaving p ((x :: xs).map (·.lane))))

/-- R292 to R294, R384, R385, R386, R387, R414: trap sends every thread of P to its handler with cause 2; trapret of threads
inside their handler sends each to its tr.pc with its latches lost, and of threads outside it raises ILLEGAL with reason 11;
brk, with DEBUG acknowledged, leaves every thread of P at the word and records a BRK of the lowest, unless a debug cause is recorded
already; a trap without a handler and a brk without DEBUG stop the context; dbg and dbg.halt write
one mailbox word, advance DBGSEQ, and dbg.halt asks for the halt at the end of the pulse. -/
def Obligations.TrapAndDebugWords : Prop :=
  ∀ (s : State) (p : Pulse) (f : FmtS) (tag : BitVec 26),
    (Ready s p (.trap f) → Trappable s p →
      ∃ t, exec (.trap f) s = .next t ∧ t.cur = some (leaving p (Pulse.members p)) ∧
        LanesBecome p.crew s t (Pulse.members p) fun _ x => entering s p 2 0 0 x) ∧
    (Ready s p (.trapret f) → (∀ l ∈ Pulse.members p, ((s.crew p.crew).lane l).inTrap = true) →
      ∃ t, exec (.trapret f) s = .next t ∧ t.cur = some (leaving p (Pulse.members p)) ∧ OnlyCrew p.crew s t ∧
        t.crew p.crew = { s.crew p.crew with lanes := (t.crew p.crew).lanes, lat := (t.crew p.crew).lat } ∧
        (∀ l, (t.crew p.crew).lane l =
          let x := (s.crew p.crew).lane l
          if l ∈ Pulse.members p then { x with pc := x.tr.pc, inTrap := false, mark := s.returnMark (ctxOf p.crew) x.tr.pc (s.crew p.crew).code } else x) ∧
        (∀ l, sget [] (t.crew p.crew).lat l = if l ∈ Pulse.members p then [] else sget [] (s.crew p.crew).lat l)) ∧
    (Ready s p (.trapret f) → Trappable s p →
      ∃ t, exec (.trapret f) s = .next t ∧ t.cur = some (leaving p (Pulse.members p)) ∧
        LanesBecome p.crew s t (Pulse.members p) fun _ x => entering s p 1 11 0 x) ∧
    (Ready s p (.trap f) → (s.recOf p.crew).trappc = 0 → Pulse.members p ≠ [] → (s.ctx (ctxOf p.crew)).st = .on →
      ∃ t, exec (.trap f) s = .next t ∧ ContextStops (ctxOf p.crew) p.crew (faultAt p 2 0 (Pulse.low p)) s t ∧
        t.cur = some (leaving p (Pulse.members p))) ∧
    (Ready s p (.brk tag) → s.feature 12 = false → Pulse.members p ≠ [] → (s.ctx (ctxOf p.crew)).st = .on →
      ∃ t, exec (.brk tag) s = .next t ∧ ContextStops (ctxOf p.crew) p.crew (faultAt p 0x0D 0 (Pulse.low p)) s t ∧
        t.cur = some (leaving p (Pulse.members p))) ∧
    (Ready s p (.brk tag) → s.feature 12 = true → Pulse.members p ≠ [] →
      ∃ t, exec (.brk tag) s = .next t ∧
        t.cur = some { leaving p (Pulse.members p) with
          debugStop := some (p.debugStop.getD (0x0D, BitVec.ofNat 6 (Pulse.low p), p.hdr + BitVec.ofNat 64 (4 * p.pos), 0)) } ∧
        LanesBecome p.crew s t (Pulse.members p) fun _ x =>
          { x with pc := p.hdr + BitVec.ofNat 64 (4 * p.pos), mark := decide (BitVec.ofNat 64 (4 * p.pos) ≠ 0), wpSkip := false }) ∧
    (∀ halt : Bool, Ready s p (if halt then .dbgHalt f else .dbg f) →
      ∃ t, exec (if halt then .dbgHalt f else .dbg f) s = .next t ∧ t = { s with ctxs := t.ctxs, cur := t.cur } ∧
        t.cur = some (if halt then { p with halt := true } else p) ∧
        (∀ n, n ≠ ctxOf p.crew → t.ctx n = s.ctx n) ∧
        t.ctx (ctxOf p.crew) = { s.ctx (ctxOf p.crew) with
          mbx := (t.ctx (ctxOf p.crew)).mbx, dbgseq := (s.ctx (ctxOf p.crew)).dbgseq + 1 } ∧
        (∀ w, sget 0 (t.ctx (ctxOf p.crew)).mbx w =
          if w = f.f.toNat % 16 then s.src p.crew (Pulse.low p) f.b else sget 0 (s.ctx (ctxOf p.crew)).mbx w))

namespace Sys2Proof.Claims

/-! ## Control -/

/-- The address that a 22-bit offset names (R282): H + 4 × off22, sign-extended. -/
def away (p : Pulse) (off : BitVec 22) : DWord := p.hdr + BitVec.ofInt 64 (4 * off.toInt)

/-- The pulse with the targets of the listed threads, which the end of the pulse applies (R158). -/
def sent (p : Pulse) (ls : List Nat) (goal : Nat → DWord) : Pulse :=
  { p with targets := ls.map fun l => (l, goal l) }

/-- The pulse after br and its conditional forms (R408). -/
def branched (s : State) (p : Pulse) : Instr → Option Pulse
  | .br f => some (sent p (Pulse.members p) fun _ => away p f.off)
  | .brD f => some (sent p ((Pulse.members p).filter fun l => (s.mask p f.m.toNat).getLsbD l) fun _ => away p f.off)
  | .brAny f => some (if (Pulse.members p).any fun l => (s.mask p f.m.toNat).getLsbD l then
      sent p (Pulse.members p) fun _ => away p f.off else p)
  | .brAll f => some (if (Pulse.members p).all fun l => (s.mask p f.m.toNat).getLsbD l then
      sent p (Pulse.members p) fun _ => away p f.off else p)
  | .brNone f => some (if (Pulse.members p).any fun l => (s.mask p f.m.toNat).getLsbD l then p
      else sent p (Pulse.members p) fun _ => away p f.off)
  | .switch f lits => some (sent p (Pulse.members p) fun l =>
      match ((lits.drop 1).take (f.m.toNat % 8 + 1)).filter fun c => decide (c.toNat / 2 ^ 22 = num s p ((lits.headD 0).truncate 8) l) with
      | c :: _ => away p (c.truncate 22)
      | [] => away p f.off)
  | .ret f =>
    if (Pulse.members p).all fun l => decide (num64 s p (BitVec.ofNat 8 (2 * f.m.toNat)) l % 4 = 0) then
      some (sent p (Pulse.members p) fun l => s.src64 p.crew l (BitVec.ofNat 8 (2 * f.m.toNat)))
    else none
  | .exit _ => some { p with exits := p.part }
  | .yield _ => some { p with yields := p.yields ||| p.part }
  | .nop _ => some p
  | _ => none

end Sys2Proof.Claims

/-- R305, R375, R408, R409, R410, R411, R413: the control words that write no register, yield and nop change nothing but the
pulse: the targets, exits or yields of the threads that they name. -/
def Sys2Proof.Claims.ControlWords : Prop :=
  ∀ (i : Instr) (s : State) (p q : Pulse), branched s p i = some q → Ready s p i → exec i s = .next { s with cur := some q }

/-- R410: call, and callr of threads whose pair holds a word address, write the address of the next header into the pair of
every computing lane and send the threads of P; all else stays. A thread of callr or ret whose pair is no word address takes
MISALIGN with the pair's address and stays, with its pair unchanged. -/
def Sys2Proof.Claims.CallsAndReturns : Prop :=
  ∀ (s : State) (p : Pulse) (f : FmtC),
    let x : BitVec 8 := BitVec.ofNat 8 (2 * f.m.toNat)
    let fall : DWord := p.hdr + BitVec.ofNat 64 (4 * (hdrN p.hd + 1))
    let linked := fun (t : State) => OnlyCrew p.crew s t ∧
      t.crew p.crew = { s.crew p.crew with v := (t.crew p.crew).v, vPois := (t.crew p.crew).vPois } ∧
      ∀ j l, j < 128 → l < 64 → (t.crew p.crew).vreg j l =
        if l ∈ Pulse.lanes p ∧ j = x.toNat then BitVec.ofNat 32 fall.toNat
        else if l ∈ Pulse.lanes p ∧ j = x.toNat + 1 then BitVec.ofNat 32 (fall.toNat / 2 ^ 32)
        else (s.crew p.crew).vreg j l
    (Ready s p (.call f) → ∃ t, exec (.call f) s = .next t ∧ linked t ∧
      t.cur = some (sent p (Pulse.members p) fun _ => away p f.off)) ∧
    (Ready s p (.callr f) → (∀ l ∈ Pulse.members p, num64 s p x l % 4 = 0) →
      ∃ t, exec (.callr f) s = .next t ∧ linked t ∧ t.cur = some (sent p (Pulse.members p) fun l => s.src64 p.crew l x)) ∧
    (∀ call : Bool, Ready s p (if call then .callr f else .ret f) → Trappable s p →
      (s.recOf p.crew).tmis = true → (∀ l ∈ Pulse.members p, num64 s p x l % 4 ≠ 0) →
      ∃ t, exec (if call then .callr f else .ret f) s = .next t ∧
        t.cur = some { leaving p (Pulse.members p) with targets := [] } ∧ OnlyCrew p.crew s t ∧
        t.crew p.crew = { s.crew p.crew with
          lanes := (t.crew p.crew).lanes, v := (t.crew p.crew).v, vPois := (t.crew p.crew).vPois } ∧
        (∀ l, (t.crew p.crew).lane l = if l ∈ Pulse.members p then entering s p 6 0 (s.src64 p.crew l x) ((s.crew p.crew).lane l)
          else (s.crew p.crew).lane l) ∧
        ∀ j l, j < 128 → l < 64 → (t.crew p.crew).vreg j l =
          if call = true ∧ p.helpers.getLsbD l = true ∧ j = x.toNat then BitVec.ofNat 32 fall.toNat
          else if call = true ∧ p.helpers.getLsbD l = true ∧ j = x.toNat + 1 then BitVec.ofNat 32 (fall.toNat / 2 ^ 32)
          else (s.crew p.crew).vreg j l)

namespace Sys2Proof.Claims

/-! ## Memory and the log of a deterministic context -/

/-- The n low bytes of a number, lowest first (R5). -/
def bytesLe (n x : Nat) : List Byte := (List.range n).map fun i => BitVec.ofNat 8 (x / 256 ^ i)

/-- How far a place lies behind another in the same memory. -/
def inside : Place → Place → Option Nat
  | .dev a, .dev b | .host a, .host b => if a ≤ b then some (b - a) else none
  | .loc x a, .loc y b => if x = y ∧ a ≤ b then some (b - a) else none
  | _, _ => none

/-- The byte that bytes stored at a place put at another place, if it lies among them. -/
def byteOf (pl : Place) (bs : List Byte) (q : Place) : Option Byte := (inside pl q).bind fun i => bs[i]?

/-- Memory after stores in order, the last winning: every other byte reads as before. -/
def StoresLand (xs : List (Place × List Byte)) (s t : State) : Prop :=
  ∀ q, t.placeByte q = (xs.reverse.findSome? fun x => byteOf x.1 x.2 q).getD (s.placeByte q)

/-- Nothing but device, host and local memory, with what they record of a write, differs; a queue of the guest may be known to have been
written to (R67). -/
def OnlyMemory (s t : State) : Prop :=
  t = { s with mem := t.mem, undef := t.undef, poison := t.poison, dirty := t.dirty, hidden := t.hidden, hostMem := t.hostMem,
               hostPois := t.hostPois, hostHidden := t.hostHidden, writes := t.writes, lineW := t.lineW, hostLineW := t.hostLineW, blocks := t.blocks
               adit := { s.adit with gqs := t.adit.gqs } } ∧
  t.adit.gqs.map (fun x => (x.1, { x.2 with torn := false })) = s.adit.gqs.map (fun x => (x.1, { x.2 with torn := false })) ∧
  ∀ b, t.block b = (s.block b).map fun x => { x with
    mem := ((t.block b).map (·.mem)).getD [], pois := ((t.block b).map (·.pois)).getD []
    hidden := ((t.block b).map (·.hidden)).getD [], lineW := ((t.block b).map (·.lineW)).getD [] }

/-- A program's write of n bytes at a place spoils the packets of the enabled queues whose region it meets, and of no other (R67; log entry
81). -/
def TornBy (pl : Place) (n : Nat) (s t : State) : Prop :=
  ∀ q, (t.gq q).torn = ((s.gq q).torn || ((s.gq q).en && (s.queueRegion (s.gq q)).any fun x => pl.meets n x.1 x.2))

/-- Only context n changes. -/
def CtxBecomes (n : Nat) (c : Ctx) (s t : State) : Prop :=
  t = { s with ctxs := t.ctxs } ∧ ∀ m, t.ctx m = if m = n then c else s.ctx m

/-- The 16 bytes of a log entry (R259). -/
def entryBytes (e : LogEnt) : List Byte := bytesLe 8 (e.kind + 16 * (e.grid % 4096) + 65536 * e.item) ++ bytesLe 8 e.key

/-- The first entry of a replayed log that satisfies `same` and is not consumed, in a log without an entry of an unknown kind (R261). -/
def FirstEntry (s : State) (n : Nat) (same : LogEnt → Bool) (i : Nat) : Prop :=
  let c := s.ctx n
  let cap := c.logsize.toNat * 256
  let inLog := fun j => j < cap ∧ ∀ m, m ≤ j → (s.logEnt n m).kind ≠ 0
  inLog i ∧ same (s.logEnt n i) = true ∧ i ∉ c.logUsed ∧ (∀ j, j < i → same (s.logEnt n j) = true → j ∈ c.logUsed) ∧
    ∀ j, inLog j → (s.logEnt n j).kind < 8

/-- Whether grid g may make choice e now (R258, R259, R261): it is free without DET; with DET the log has room; with REPLAY the first
entry of its key names it. -/
def MayChoose (s : State) (n : Nat) (g : Grid) (e : LogEnt) (same : LogEnt → Bool) : Prop :=
  g.lr.det = false ∨ (g.lr.det = true ∧ g.lr.replay = false ∧ (s.ctx n).logpos ≠ (s.ctx n).logsize.toNat * 256) ∨
    (g.lr.det = true ∧ g.lr.replay = true ∧ ∃ i, FirstEntry s n same i ∧ s.logEnt n i = e)

/-- Grid g has made choice e (R258 to R261): with DET it stands in the log at LOGPOS; with REPLAY its entry is consumed. -/
def Chosen (n : Nat) (g : Grid) (e : LogEnt) (same : LogEnt → Bool) (s t : State) : Prop :=
  let c := s.ctx n
  (g.lr.det = false → t = s) ∧
  (g.lr.det = true → g.lr.replay = false → ∃ a, OnlyMemory s a ∧
    StoresLand [(.dev (c.logbase.toNat + 16 * c.logpos), entryBytes e)] s a ∧ CtxBecomes n { c with logpos := c.logpos + 1 } a t) ∧
  (g.lr.det = true → g.lr.replay = true → ∃ i, FirstEntry s n same i ∧ s.logEnt n i = e ∧
    CtxBecomes n { c with logUsed := i :: c.logUsed, logpos := c.logpos + 1 } s t)

/-- Choices of a grid, made one after the other. -/
def AllChosen (n : Nat) (g : Grid) (same : LogEnt → LogEnt → Bool) : List LogEnt → State → State → Prop
  | [], s, t => t = s
  | e :: es, s, t => ∃ a, Chosen n g e (same e) s a ∧ AllChosen n g same es a t

/-- Whether each of them may be made after those before it. -/
def MayChooseAll (n : Nat) (g : Grid) (same : LogEnt → LogEnt → Bool) : List LogEnt → State → Prop
  | [], _ => True
  | e :: es, s => MayChoose s n g e (same e) ∧ ∀ t, Chosen n g e (same e) s t → MayChooseAll n g same es t

/-- An entry of a grid (R259). -/
def ofGrid (g : Grid) (e : LogEnt) : LogEnt := { e with grid := g.det % 4096 }

/-- Entries of one kind and key (R261). -/
def sameKey (e x : LogEnt) : Bool := decide (x.kind = e.kind ∧ x.key = e.key)

/-- Whether a thread of crew k may make these choices now, and has made them; a crew without a grid chooses freely. -/
def CrewMay (s : State) (k : Nat) (es : List LogEnt) : Prop :=
  ∀ g, s.grid (s.crew k).grid = some g → MayChooseAll (ctxOf k) g sameKey (es.map (ofGrid g)) s

/-- Crew k has made these choices. -/
def CrewChose (k : Nat) (es : List LogEnt) (s t : State) : Prop :=
  (s.grid (s.crew k).grid = none → t = s) ∧
  ∀ g, s.grid (s.crew k).grid = some g → AllChosen (ctxOf k) g sameKey (es.map (ofGrid g)) s t

/-- What follows once an access of crew k has been performed (R166, R169): a crew that stands ending and has nothing left ends, and a
regroup that waited for it is performed; else nothing. -/
def Settles (k : Nat) (a t : State) : Prop :=
  t = a.settleEnd k ∧ ((a.crew k).ending = false → (a.crew k).regroup = none → t = a)

/-! ## System words -/

/-- A destination of crew k receives words (R367): a v-register takes `w l` in each listed lane, an s-register the word of the
first listed lane; what is written loses its poison, and nothing else of the machine changes. -/
def Wrote (k : Nat) (d : BitVec 8) (ls : List Nat) (w : Nat → Word) (s t : State) : Prop :=
  t = { s with crews := t.crews } ∧ (∀ j, j ≠ k → t.crew j = s.crew j) ∧
  (let c := s.crew k
   let e := t.crew k
   e = { c with v := e.v, s := e.s, vPois := e.vPois, sPois := e.sPois } ∧
   (∀ j l, j < 128 → l < 64 → e.vreg j l = if isV d = true ∧ l ∈ ls ∧ j = d.toNat then w l else c.vreg j l) ∧
   (∀ j l, j < 128 → l < 64 → sget false e.vPois (64 * j + l) =
     (sget false c.vPois (64 * j + l) && !decide (isV d = true ∧ l ∈ ls ∧ j = d.toNat))) ∧
   (∀ j, e.sreg j = if isV d = false ∧ ls ≠ [] ∧ j = sNum d then w (ls.headD 0) else c.sreg j) ∧
   (∀ j, sget false e.sPois j = (sget false c.sPois j && !decide (isV d = false ∧ ls ≠ [] ∧ j = sNum d))))

/-- The address of the word that runs. -/
def here (p : Pulse) : DWord := p.hdr + BitVec.ofNat 64 (4 * p.pos)

/-- The address after the clause. -/
def fall (p : Pulse) : DWord := p.hdr + BitVec.ofNat 64 (4 * (hdrN p.hd + 1))

/-- A thread that waits (R155, R368): BLOCKED, to go on at the next header. -/
def waiting (s : State) (p : Pulse) (w : WaitIn) (ext : Bool) (x : Lane) : Lane :=
  { x with st := .blocked, pc := fall p, waitPc := here p, waitWord := p.words.getD p.pos 0, wait := some w, mark := false,
           extSince := if ext then some s.tick else none, extTold := false, remain := none }

/-- A thread that goes on from its wait (R155). -/
def awoken (x : Lane) : Lane :=
  { x with st := .live, wait := none, extSince := none, extTold := false, remain := none, wpSkip := false }

/-- A word that is the release side of an edge goes ahead (R225, R238, R241): no atomic or reduction of the crew is pending, none of P
waits for the value of one, and nothing of the crew's queue is held for a frame exchange. -/
def Settled (s : State) (p : Pulse) : Prop := (s.crew p.crew).atomsBlock p = false ∧ s.queueHeld p.crew = false

/-- The phase of the block of the pulse's crew. -/
def phase (s : State) (p : Pulse) : BitVec 8 := ((s.block (s.crew p.crew).block).map (·.ph)).getD 0

/-- What each thread of a crew that waits in a barrier of the block becomes when the phase passes. -/
def passed (ph : BitVec 8) (x : Lane) : Lane :=
  match x.st, x.wait with
  | .blocked, some (.bar q) => if q = ph then x else awoken x
  | _, _ => x

end Sys2Proof.Claims

namespace Sys2Proof.Claims

/-- A lane at the end of a pulse (R155, R157, R158): a thread of P that executed exit has left, another one stands at its target or at the
next header without a resume mark; one that took a backward transfer in a clause with Y = 1, or executed yield, has its yield flag set. -/
def atEnd (p : Pulse) (l : Nat) (x : Lane) : Lane :=
  let kept := if p.whole then false else x.yld
  let yields := kept || p.yields.getLsbD l
  let fall : DWord := p.hdr + BitVec.ofNat 64 (4 * (hdrN p.hd + 1))
  if p.part.getLsbD l = false then { x with yld := yields }
  else if p.exits.getLsbD l = true then { x with st := .exited, mark := false, wpSkip := false, yld := yields }
  else match p.targets.find? (·.1 == l) with
    | some (_, a) => { x with pc := a, mark := false, wpSkip := false, yld := yields || (hdrY p.hd && decide (a.toNat ≤ p.hdr.toNat)) }
    | none => { x with pc := fall, mark := false, wpSkip := false, yld := yields }

/-- The crew's report stands in words 0 to 8 of its context's mailbox, and DBGSEQ has advanced (R387). -/
def Reported (k cause tid : Nat) (pc addr m14 m15 : DWord) (s t : State) : Prop :=
  let n := ctxOf k
  let half := fun (x : DWord) (h : Nat) => BitVec.ofNat 32 (x.toNat / 2 ^ (32 * h))
  CtxBecomes n { s.ctx n with mbx := (t.ctx n).mbx, dbgseq := (s.ctx n).dbgseq + 1 } s t ∧
  ∀ w, sget 0 (t.ctx n).mbx w = match w with
    | 0 => BitVec.ofNat 32 (cause + 256 * (k / 256 % 128) + 65536 * (k % 256) + 2 ^ 24 * tid)
    | 1 => half pc 0
    | 2 => half pc 1
    | 3 => half addr 0
    | 4 => half addr 1
    | 5 => half m14 0
    | 6 => half m14 1
    | 7 => half m15 0
    | 8 => half m15 1
    | _ => sget 0 (s.ctx n).mbx w

/-- The address in the report of a halt or a step (R387): the candidate's, else the lowest of a present thread, else zero. -/
def standsAt (c : Crew) : DWord :=
  match c.candidate with
  | some x => x.pc
  | none => BitVec.ofNat 64 ((((List.range 64).filter fun l => c.present.getLsbD l).map fun l => (c.lane l).pc.toNat).min?.getD 0)

/-- What the end of pulse p reports of its crew as it stands then (R387, R388): a debug cause, else a step, else the host's halt. -/
def EndReported (p : Pulse) (s t : State) : Prop :=
  let k := p.crew
  let c := s.crew k
  match p.debugStop with
  | some (cause, tid, pc, addr) => Reported k cause.toNat tid.toNat pc addr p.p0 c.present s t
  | none =>
    (p.step = true → Reported k 0x0F 0 (standsAt c) 0 p.p0 c.present s t) ∧
    (p.step = false → p.hostHalt = true → Reported k 0 0 (standsAt c) 0 0 c.present s t) ∧
    (p.step = false → p.hostHalt = false → t = s)

/-- Since when a crew is wait-idle (R135): no thread is runnable, one at least waits on memory words only, none at a barrier. -/
def idleSinceOf (s : State) (c : Crew) : Option Nat :=
  let blocked := (List.range 64).filter fun l => (c.lane l).st == .blocked
  if c.held.isNone = true ∧ ((∀ l ∈ List.range 64, (c.lane l).st ≠ .live) ∨ c.halted = true ∧ c.stepping = false) ∧
      (∃ l ∈ blocked, (c.lane l).memWait = true) ∧ ∀ l ∈ blocked, (c.lane l).atBarrier = false then
    some (c.idleSince.getD s.tick)
  else none

/-- Crew k has ended (R166): what it had outstanding is performed, its slot and registers are free, and its launch entries are the pool's
again; where a replayed choice of it still waits it stands ending without threads. A regroup that waited for it is looked at again. -/
def CrewEnded (k : Nat) (s t : State) : Prop :=
  let q := ((s.completeMtx k).quiesce k).crewLeftover k
  t = s.endCrew k ∧ t.cur = q.cur ∧
  (q.crewBusy k = true → (t.crew k).alive = true ∧ (t.crew k).ending = true ∧ (t.crew k).noThreads = true) ∧
  (q.crewBusy k = false → t.crew k = {} ∧ (s.regrouping (lcOf k) ⊆ [k] → t.dist.pool = q.dist.pool + (q.crew k).entries))

end Sys2Proof.Claims

/-- R135, R157, R158, R166, R168, R377, R386 to R388: at the end of a pulse each thread of P stands at its target or at the next header, or has
exited; a thread outside P keeps its place; the flags of the pulse are in the status word. drain ends the crew. Where threads have exited
the barriers of the block are looked at again. A dbg.halt, a debug cause, a host's halt or a step halts the crew, with the one report that
each of the last three makes. A crew that is left without threads, and that never executed refill, ends. -/
def Obligations.EndOfPulse : Prop :=
  ∀ (s : State) (p : Pulse), s.cur = some p → p.todo = [] → p.hold = none → (s.crew p.crew).alive = true →
    let k := p.crew
    let gone := p.exits &&& p.part ≠ 0
    let stop := p.halt || p.hostHalt || p.step || p.debugStop.isSome
    ∃ (a b h d e t : State), s.advance = t ∧ t.cur = none ∧
      (a = { s with cur := none, crews := a.crews } ∧ (∀ j, j ≠ k → a.crew j = s.crew j) ∧
        a.crew k = { s.crew k with lanes := (a.crew k).lanes, status := (s.crew k).status ||| p.flags.setWidth 32 } ∧
        ∀ l, l < 64 → (a.crew k).lane l = atEnd p l ((s.crew k).lane l)) ∧
      (p.drain = true → CrewEnded k a b ∧ EndReported p b t) ∧
      (p.drain = false →
        (¬ gone → b = a) ∧
        (gone → b = (a.exitLeftovers k ((List.range 64).filter fun l => (p.exits &&& p.part).getLsbD l)).barriers (s.crew k).block) ∧
        (gone → (s.recOf k).replay = false → b = { a with crews := b.crews, blocks := b.blocks } ∧
          ∀ j, b.crew j = { a.crew j with lanes := (b.crew j).lanes } ∧
            ∀ l, (b.crew j).lane l = (a.crew j).lane l ∨ (b.crew j).lane l = awoken ((a.crew j).lane l)) ∧
        ((∀ j, j ≠ k → h.crew j = b.crew j) ∧ h = { b with crews := h.crews } ∧
          h.crew k = if stop = true then { b.crew k with halted := true, stepping := false } else b.crew k) ∧
        EndReported p h d ∧
        (let empty : Prop := (d.crew k).alive = true ∧ (d.crew k).ending = false ∧ (d.crew k).noThreads = true ∧ (d.crew k).refill = none
         (empty → CrewEnded k d e) ∧ (¬ empty → e = d)) ∧
        t = { e with crews := t.crews } ∧ (∀ j, j ≠ k → t.crew j = e.crew j) ∧
        t.crew k = { e.crew k with idleSince := idleSinceOf e (e.crew k) })

/-- R370, R371, R391: bar.init sets EXP of a block whose ARR is 0 and raises ICONV otherwise; bar.arrive, after its release,
gives every thread the phase, adds the threads to ARR, and where EXP (the present threads of the block for 0) is reached
advances the phase, keeps the rest in ARR and wakes what waits for an earlier phase; bar.wait blocks the threads whose
operand is the phase. -/
def Sys2Proof.Claims.BlockBarrier : Prop :=
  ∀ (s : State) (p : Pulse) (f : FmtS) (x : Block),
    let k := p.crew
    let b := (s.crew k).block
    let n := (s.src k (Pulse.low p) f.b).toNat
    (Ready s p (.barInit f) → s.block b = some x → x.arr = 0 → 1 ≤ n → n ≤ 65536 →
      ∃ t, exec (.barInit f) s = .next t ∧ t = { s with blocks := t.blocks } ∧
        ∀ j, t.block j = if j = b then some { x with exp := n } else s.block j) ∧
    (Ready s p (.barInit f) → s.block b = some x → x.arr ≠ 0 ∨ n < 1 ∨ 65536 < n → Pulse.members p ≠ [] →
      (s.ctx (ctxOf k)).st = .on →
      ∃ t, exec (.barInit f) s = .next t ∧ ContextStops (ctxOf k) k (faultAt p 3 0 (Pulse.low p)) s t ∧
        t.cur = some (leaving p (Pulse.members p))) ∧
    (let u := s.release k 3
     Ready s p (.barArrive f) → Settled s p → s.mtxBusy k none = false → u.block b = some x →
      ∃ v t, Wrote k f.a (Pulse.members p) (fun _ => x.ph.setWidth 32) u v ∧ exec (.barArrive f) s = .next t ∧
        (let a := x.arr + (Pulse.members p).length
         let need := if x.exp = 0 then ((v.blockCrews b).map fun j => (lanesOf (v.crew j).present).length).sum else x.exp
         let done : Prop := 0 < need ∧ need ≤ a
         let ph := x.ph + BitVec.ofNat 8 (a / need)
         t = { v with blocks := t.blocks, crews := t.crews } ∧
         (¬ done → t.crews = v.crews ∧ ∀ j, t.block j = if j = b then some { x with arr := a } else v.block j) ∧
         (done → (∀ j, t.block j = if j = b then some { x with arr := a % need, ph := ph } else v.block j) ∧
           ∀ j, t.crew j = { v.crew j with lanes := (t.crew j).lanes } ∧
             ∀ l, (t.crew j).lane l = if j ∈ v.blockCrews b ∧ l < 64 then passed ph ((v.crew j).lane l) else (v.crew j).lane l))) ∧
    (Ready s p (.barWait f) →
      let ls := (Pulse.members p).filter fun l => s.src k l f.b == (phase s p).setWidth 32
      ∃ t, exec (.barWait f) s = .next t ∧ t.cur = some (leaving p ls) ∧
        LanesBecome k s t ls fun _ y => waiting s p (.bar (phase s p)) false y)

/-- R371, R391: after its release gbar blocks every thread of P; where every present thread of the gang's resident blocks is
then in gbar, each block's GPH advances and all of them go on; GARR counts the arrived blocks, those without crews among them. -/
def Sys2Proof.Claims.GangBarrier : Prop :=
  ∀ (s : State) (p : Pulse) (f : FmtS) (x : Block),
    let k := p.crew
    let u := s.release k 3
    Ready s p (.gbar f) → Settled s p → s.mtxBusy k none = false → u.block (u.crew k).block = some x →
    (u.gangBlocks x.gangKey).Nodup →
    ∃ v t, exec (.gbar f) s = .next t ∧ v.cur = some (leaving p (Pulse.members p)) ∧
      LanesBecome k u v (Pulse.members p) (fun _ y => waiting u p .gbar false y) ∧
      t = { v with blocks := t.blocks, crews := t.crews } ∧
      (let bs := u.gangBlocks x.gangKey
       let all : Prop := ∀ b ∈ bs, ∀ j ∈ v.blockCrews b, (v.crew j).inGbar = true
       let some' : Prop := ∃ b ∈ bs, ∃ j ∈ v.blockCrews b, (v.crew j).noThreads = false
       (all ∧ some' → (∀ b, t.block b = if b ∈ bs then (u.block b).map (fun y => { y with gph := y.gph + 1, garr := 0 })
            else u.block b) ∧
          ∀ j, t.crew j = { v.crew j with lanes := (t.crew j).lanes } ∧ ∀ l, (t.crew j).lane l =
            let y := (v.crew j).lane l
            if (∃ b ∈ bs, j ∈ v.blockCrews b) ∧ l < 64 ∧ y.st = .blocked ∧ y.wait = some .gbar then awoken y else y) ∧
       (¬ (all ∧ some') → t.crews = v.crews ∧
          ∀ b, t.block b = if b ∈ bs then (u.block b).map (fun y =>
              { y with garr := (bs.filter fun a => (v.blockCrews a).all fun j => (v.crew j).inGbar).length + (y.size - bs.length) })
            else u.block b))

namespace Sys2Proof.Claims

/-- What lets a word that reads n bytes at once go on (R53, R211, R225): the home slices hold no line that it reads, and nothing of the
queue is held where it reads a device register. -/
def ReadsGo (s : State) (p : Pulse) (n : Nat) (hs : List Hit) : Prop :=
  ∀ h ∈ hs, s.spanHeld h.pl (h.span n) = false ∧ (h.pl.isPort = true → s.queueHeld p.crew = false)

/-- The state that a read finds: before one of a device register the crew's earlier accesses are performed (R211). -/
def portFirst (a : State) (p : Pulse) (hs : List Hit) : State := if hs.any fun h => h.pl.isPort then a.drainAll p.crew else a

/-- Two states have the same walks of the guest in flight, but for what each of them finds when it ends (R214). -/
def SameWalks (s a : State) : Prop :=
  a.walks.map (fun r => { r with first := .prot, pinned := false }) = s.walks.map fun r => { r with first := .prot, pinned := false }

/-- Only the translation caches differ, and what the walks in flight find (R213, R214). -/
def OnlyCaches (s a : State) : Prop :=
  a = { s with tlb := a.tlb, wcache := a.wcache, walks := a.walks, misses := a.misses } ∧ SameWalks s a

/-- What a waitc of lane l finds when it runs (R372, R373): its conditions with those that now hold marked, whether it waits
on an external word, its due time and whether it has passed, and its outcome if it has one. -/
structure Waited where
  conds : List Cond
  ext : Bool
  due : Option Nat
  timed : Bool
  out : Option Nat

/-- Whether a replayed waitc may have outcome v now (R261, R373). -/
def Possible (all : Bool) (w : Waited) (v : Nat) : Prop :=
  (4 ≤ v ∧ v < 8 ∧ w.timed = true) ∨ (all = true ∧ v = 0 ∧ ∀ c ∈ w.conds, c.sat = true) ∨
    (all = false ∧ v < 4 ∧ ∃ c, w.conds[v]? = some c ∧ c.sat = true)

/-- The log entry of outcome v of a waitc of lane l (R258, R259). -/
def waitEntry (s : State) (k l : Nat) (g : Grid) (v : Nat) : LogEnt :=
  { kind := 6, grid := g.det % 4096, item := ((s.crew k).lane l).item.toNat, key := v }

/-- The entries of the same waiting item (R261). -/
def sameWait (e x : LogEnt) : Bool := decide (x.kind = 6 ∧ x.item = e.item ∧ x.grid = e.grid)

/-- The outcomes of a waitc that a grid logs: all but those of a waitc.all without a timeout (R258). -/
def Logged (all : Bool) (g : Grid) (w : Waited) : Prop := g.lr.det = true ∧ (all = false ∨ w.due ≠ none)

/-- A waitc of lane l has outcome `o`, or none yet (R258, R261, R373): the one that its conditions give, which is logged where the grid
logs it; in replay the one that its entry names, once it may be had. -/
def Decided (k l : Nat) (all : Bool) (g : Grid) (w : Waited) (o : Option Nat) (s t : State) : Prop :=
  let n := ctxOf k
  let e := waitEntry s k l g
  (¬ Logged all g w → o = w.out ∧ t = s) ∧
  (Logged all g w → (g.lr.replay = false → o = w.out) ∧
    (g.lr.replay = true → ∃ i, FirstEntry s n (sameWait (e 0)) i ∧
      (let v := (s.logEnt n i).key
       (Possible all w v → o = some v) ∧ (¬ Possible all w v → o = none))) ∧
    (o = none → t = s) ∧ ∀ v, o = some v → Chosen n g (e v) (sameWait (e 0)) s t)

/-- Whether it may be decided: the log has room, or has an entry for it. -/
def MayDecide (k l : Nat) (all : Bool) (g : Grid) (w : Waited) (s : State) : Prop :=
  let n := ctxOf k
  Logged all g w → (g.lr.replay = false → w.out.isSome = true → (s.ctx n).logpos ≠ (s.ctx n).logsize.toNat * 256) ∧
    (g.lr.replay = true → ∃ i, FirstEntry s n (sameWait (waitEntry s k l g 0)) i)

/-- The waits of several lanes, decided one after the other. -/
def AllDecided (k : Nat) (all : Bool) (g : Grid) (w : Nat → Waited) (o : Nat → Option Nat) : List Nat → State → State → Prop
  | [], s, t => t = s
  | l :: ls, s, t => ∃ a, Decided k l all g (w l) (o l) s a ∧ AllDecided k all g w o ls a t

/-- Whether each of them may be decided after those before it. -/
def AllMayDecide (k : Nat) (all : Bool) (g : Grid) (w : Nat → Waited) : List Nat → State → Prop
  | [], _ => True
  | l :: ls, s => MayDecide k l all g (w l) s ∧ ∀ o t, Decided k l all g (w l) o s t → AllMayDecide k all g w ls t

/-- The conditions of a waitc as its literal words give them for lane l. -/
def waitConds (s : State) (p : Pulse) (f : FmtS) (lits : List Word) (l : Nat) : List Cond :=
  s.condsOf p.crew l (lits.take (2 * ((f.f.extractLsb' 0 2).toNat + 1)))

/-- The waitc of lane l at the word that runs. -/
def waited (s : State) (p : Pulse) (f : FmtS) (lits : List Word) (all : Bool) (l : Nat) : Waited :=
  let r := s.evalConds p.crew l (here p) (waitConds s p f lits l)
  let t := s.src p.crew l f.b
  let due := match ((s.crew p.crew).lane l).remain with
    | some n => some (s.tick + n)
    | none => if t = 0xFFFFFFFF then none else some (s.tick + t.toNat)
  let timed := match due with
    | some d => decide (d ≤ s.tick)
    | none => false
  let hold := r.2.2.findIdx? (·.sat)
  let miss := r.2.2.findIdx? fun c => !c.sat
  { conds := r.2.2, ext := r.2.1, due, timed
    out := match all, hold, miss with
      | true, _, none => some 0
      | true, _, some i => if timed then some (4 + i) else none
      | false, some i, _ => some i
      | false, none, _ => if timed then some 4 else none }

end Sys2Proof.Claims

/-- R211, R258, R261, R372, R373: each performing thread of a waitc whose conditions raise no fault either has an outcome, which its
destination receives, or waits, with the conditions that held marked; the threads of a scalar waitc share the outcome of the lowest. A grid
that logs its choices logs the outcomes, and one that replays has them from its log. Before a condition reads a device register the crew's
earlier accesses are performed. Nothing else changes but the translation caches (R213). That all threads evaluate in one state, and log in
ascending order, is log entry 78. -/
def Sys2Proof.Claims.Waitc : Prop :=
  ∀ (all : Bool) (s : State) (p : Pulse) (f : FmtS) (lits : List Word) (g : Grid),
    let k := p.crew
    let i : Instr := if all then .waitcAll f lits else .waitcAny f lits
    let ls := if isS f.a then (Pulse.members p).take 1 else Pulse.members p
    let peers := fun l => if isS f.a then Pulse.members p else [l]
    let tries := ls.flatMap fun l => s.condTries k l (here p) (waitConds s p f lits l)
    let b := portFirst s p (ls.flatMap fun l => s.condHits k l (here p) (waitConds s p f lits l))
    let w := waited b p f lits all
    Ready s p i → (s.crew k).atomsBlock p = false → b.grid (b.crew k).grid = some g → AllMayDecide k all g w ls b →
    (∀ x ∈ tries, (∀ q, x.2.2 ≠ .hold q) ∧ ∀ h, x.2.2 = .ok h → ReadsGo s p 4 [h]) →
    (∀ l ∈ ls, (b.evalConds k l (here p) (waitConds b p f lits l)).1 = none) →
    (s.fullGrans p (lits.take (2 * ((f.f.extractLsb' 0 2).toNat + 1))) ls = [] ∨
      s.mtxBusy k (some (s.fullGrans p (lits.take (2 * ((f.f.extractLsb' 0 2).toNat + 1))) ls)) = false) →
    ∃ (a t u : State) (o : Nat → Option Nat), AllDecided k all g w o ls b a ∧
      exec i s = .next t ∧ t.cur = some (leaving p ((ls.filter fun l => (o l).isNone).flatMap peers)) ∧
      Wrote k f.a (ls.filter fun l => (o l).isSome) (fun l => BitVec.ofNat 32 ((o l).getD 0)) a u ∧
      OnlyCrew k u { t with tlb := u.tlb, wcache := u.wcache, walks := u.walks, misses := u.misses } ∧ SameWalks u t ∧
      t.crew k = { u.crew k with lanes := (t.crew k).lanes } ∧
      ∀ l, (t.crew k).lane l =
        let y := (s.crew k).lane l
        match ls.find? fun j => decide (l ∈ peers j) with
        | none => y
        | some j => match o j with
          | some _ => { y with remain := none, wpSkip := false }
          | none => waiting s p (.waitc all (w j).conds (w j).due f.a (isS f.a) (laneSet (peers j))) (w j).ext y

/-- R374: mwatch of threads whose address can be read arms each thread's watch on its line; mwait does nothing in a thread
without a watch, goes on and disarms it where the line has been written, and otherwise waits. -/
def Sys2Proof.Claims.WatchAndWait : Prop :=
  ∀ (s : State) (p : Pulse) (f : FmtS) (hit : Nat → Hit),
    let k := p.crew
    (Ready s p (.mwatch f) → (∀ l ∈ Pulse.members p, s.access k l (here p) (s.src64 k l f.b) 1 1 .read = .ok (hit l)) →
      ∃ a t, exec (.mwatch f) s = .next t ∧ OnlyCaches s a ∧ t = { a with crews := t.crews } ∧ (∀ j, j ≠ k → t.crew j = s.crew j) ∧
        t.crew k = { s.crew k with lanes := (t.crew k).lanes } ∧
        ∀ l, (t.crew k).lane l = let y := (s.crew k).lane l
          if l ∈ Pulse.members p then
            { y with watch := some { line := (hit l).pl.line, ea := s.src64 k l f.b, ser := s.writes }, wpSkip := false } else y) ∧
    (let waits := (Pulse.members p).filter fun l => match ((s.crew k).lane l).watch with
       | some w => !decide (w.ser < s.lineSer w.line)
       | none => false
     Ready s p (.mwait f) →
      ∃ t, exec (.mwait f) s = .next t ∧ t.cur = some (leaving p waits) ∧ OnlyCrew k s t ∧
        t.crew k = { s.crew k with lanes := (t.crew k).lanes } ∧
        ∀ l, (t.crew k).lane l = let y := (s.crew k).lane l
          if l ∈ Pulse.members p then match y.watch with
            | none => y
            | some w => if w.ser < s.lineSer w.line then { y with watch := none } else waiting s p .mwait (s.external w.line) y
          else y)

/-- Items that lanes take one after another from the supply of a gallery (R123, R124); whether the gallery fetches a further batch ahead is
free (log entry 26). -/
def Drawn (gal : Nat) : List Nat → Grid → Grid → Prop
  | [], g, h => h = g
  | i :: is, g, h => ∃ (ahead batch : Bool) (x : Grid), (ahead = true → g.next + 64 < g.last) ∧ g.nextItem gal ahead = some (i, x, batch) ∧
      Drawn gal is x h

/-- The next item of a gallery (R123, R124): the lowest of its current batch, else of its next one; else of a new batch, the lowest 64
items of the returned list or else the next 64 of the queue. There is none only where the queue and the returned list are empty and no
gallery holds a batch fetched ahead. -/
def Supplies : Prop :=
  ∀ (g : Grid) (gal : Nat) (ahead : Bool),
    let held := sget [] g.batches gal
    let after := fun (h : Grid) (bs : List (List (Nat × Nat))) => h = { g with batches := h.batches } ∧
      ∀ j, sget [] h.batches j = if j = gal then bs else sget [] g.batches j
    let less := fun (a b : Nat) (r : List (Nat × Nat)) => if a + 1 < b then (a + 1, b) :: r else r
    (∀ a b r rest, held = ((a, b) :: r) :: rest → ∃ h, g.nextItem gal ahead = some (a, h, false) ∧ after h (less a b r :: rest)) ∧
    (∀ a b r rest, held = [] :: ((a, b) :: r) :: rest → ∃ h, g.nextItem gal ahead = some (a, h, false) ∧ after h (less a b r :: rest)) ∧
    (∀ a b r, held.flatten = [] → g.returned = (a, b) :: r → ∃ h, g.nextItem gal ahead = some (a, h, true)) ∧
    (held.flatten = [] → g.returned = [] → g.next < g.last → ∃ h, g.nextItem gal ahead = some (g.next, h, true) ∧
      h.next = min (g.next + if ahead then 128 else 64) g.last ∧ h.last = g.last) ∧
    (g.nextItem gal ahead = none → held.flatten = [] ∧ g.returned = [] ∧ g.last ≤ g.next ∧
      ∀ x ∈ g.batches, ∀ b ∈ x.2.tail, ∀ r ∈ b, r.2 ≤ r.1)

/-- R123, R124, R165, R167, R376, R377: refill advances the generation and sets the refill point; every thread that was present keeps its lane
and registers, and a lane that was not holds no thread or a new one, at the next header with the new generation as its age and
its named registers zero; a lane with a new thread is no helper any more (log entry 57). The free lanes, in ascending order, take the next
items of the gallery; where it has no more the rest stay VACANT and the status word says so. In a replayed grid the word is held where a
lane's item is not there yet (log entry 78). drain ends the crew with the pulse, before the words after it. -/
def Sys2Proof.Claims.RefillAndDrain : Prop :=
  ∀ (s : State) (p : Pulse) (f : FmtS),
    let k := p.crew
    let first := f.a.toNat
    let n := (f.f.extractLsb' 0 5).toNat
    (Ready s p (.refill f) →
      ∃ t, exec (.refill f) s = .next t ∧ (∀ j, j ≠ k → t.crew j = s.crew j) ∧
        t.cur = some { p with refilled := true, helpers := p.helpers &&& ~~~(t.crew k).inState .live
                              hold := if (t.crew k).stuck then some .replay else p.hold } ∧
        ((s.recOf k).replay = false → (t.crew k).stuck = (s.crew k).stuck) ∧
        (let c := s.crew k
         let d := t.crew k
         let gen : BitVec 8 := c.status.extractLsb' 16 8 + 1
         d = { c with v := d.v, vPois := d.vPois, lanes := d.lanes, status := d.status, refill := d.refill, stuck := d.stuck } ∧
         d.status.extractLsb' 16 8 = gen ∧ d.refill = some (first, n, fall p) ∧
         ∀ l, l < 64 → let x := c.lane l
           let y := d.lane l
           if x.present then y = x ∧ ∀ j, j < 128 → d.vreg j l = c.vreg j l
           else (y = (if x.st = .exited then {} else x) ∧ ∀ j, j < 128 → d.vreg j l = c.vreg j l) ∨
             (∃ item, y = { st := .live, item, age := gen, pc := fall p }) ∧
               ∀ j, first ≤ j → j < first + n → d.vreg j l = 0) ∧
        (∀ g, s.grid (s.crew k).grid = some g → g.lr.det = false → ∃ (items : List Nat) (h x : Grid),
          let c := s.crew k
          let d := t.crew k
          let free := (List.range 64).filter fun l => !(c.lane l).present
          let gal := galOfSite (s.siteOf (lcOf k))
          Drawn gal items g h ∧ t.grid c.grid = some x ∧ x = { h with st := x.st, since := x.since } ∧ items.length ≤ free.length ∧
          (∀ (i l : Nat), free[i]? = some l → match items[i]? with
            | some item => (d.lane l).st = .live ∧ (d.lane l).item = BitVec.ofNat 48 item
            | none => d.lane l = if (c.lane l).st = .exited then {} else c.lane l) ∧
          (items.length < free.length → h.nextItem gal false = none ∧ d.status.getLsbD 8 = true) ∧
          (items.length = free.length → d.status.getLsbD 8 = c.status.getLsbD 8))) ∧
    (Ready s p (.drain f) → s.mtxBusy k none = false → exec (.drain f) s = .next { s with cur := some { p with drain := true, todo := [] } })

namespace Sys2Proof.Claims

/-- A thread as regroup leaves it in its lane (R155, R170): LIVE after the word, or PARKED as it was; without its yield flag. -/
def dealt (x : Lane) : Lane := if x.st = .parked then { x with yld := false } else { awoken x with yld := false, mark := false }

end Sys2Proof.Claims

/-- R155, R169, R170, R378: with a good list (the crew's own slot, no slot twice, every live crew of it of the same block and with
no other list, and named by no other list), regroup blocks every thread of P until the last live crew of the list has executed
it and all that the crews have outstanding is performed; then thread i of the present threads of all of them, in ascending slot and lane,
stands in lane i mod 64 of crew i / 64 of the list with its registers; every other lane is VACANT; each crew that holds threads writes
the mask of the emptied positions and the number of its threads; each emptied crew ends. The stack of a lane into which a thread has
moved is undefined. A bad list raises ICONV. -/
def Obligations.Regroup : Prop :=
  ∀ (s : State) (p : Pulse) (f : FmtS),
    let k := p.crew
    let slots := regroupList ((s.crew k).sreg (sNum f.b))
    let crews := s.regroupLive k slots
    let conflict : Prop := s.regroupBad k slots = true ∨
      ∃ j ∈ s.regrouping (lcOf k), ∃ other d, (s.crew j).regroup = some (other, d) ∧ slotOf k ∈ other ∧ other ≠ slots
    Ready s p (.regroup f) → s.mtxBusy k none = false →
    (conflict → Pulse.members p ≠ [] → (s.ctx (ctxOf k)).st = .on →
      ∃ t, exec (.regroup f) s = .next t ∧ ContextStops (ctxOf k) k (faultAt p 3 0 (Pulse.low p)) s t ∧
        t.cur = some (leaving p (Pulse.members p))) ∧
    (¬ conflict →
      ∃ v t, exec (.regroup f) s = .next t ∧ v.cur = some (leaving p (Pulse.members p)) ∧ OnlyCrew k s v ∧
        v.crew k = { s.crew k with regroup := some (slots, f.a), lanes := (v.crew k).lanes } ∧
        (∀ l, (v.crew k).lane l = let y := (s.crew k).lane l
          if l ∈ Pulse.members p then waiting s p .regroup false y else y) ∧
        ((∃ j ∈ crews, (v.crew j).regroup = none ∨ (v.crew j).res ≠ .resident) → t = v) ∧
        (let q := crews.foldl (fun a j => a.quiesce j) v
         let dest := fun j => ((v.crew j).regroup.map (·.2)).getD 0
         (∀ j ∈ crews, (v.crew j).regroup.isSome = true ∧ (v.crew j).res = .resident ∧ isV (dest j) = false) →
          (crews.any q.crewBusy = true → t = q) ∧
          (crews.any q.crewBusy = false →
           let threads := crews.flatMap fun j => ((List.range 64).filter fun l => (q.crew j).present.getLsbD l).map fun l => (j, l)
           let used := (threads.length + 63) / 64
           let emptied := ((List.range crews.length).filter fun i => used ≤ i).map fun i => 2 ^ i
           let vregs := (q.recOf (crews.headD 0)).vregs
           let moved := (threads.mapIdx fun i x => (x, (crews.getD (i / 64) 0, i % 64))).filter fun x => x.1 ≠ x.2
           let m := moved.foldl (fun (u : State) x => u.freeStack x.2.1 x.2.2) q
           t.cur = some { leaving p (Pulse.members p) with yields := 0 } ∧
           (∀ i j, i < used → crews[i]? = some j →
             let c := q.crew j
             let e := t.crew j
             e = { c with lanes := e.lanes, v := e.v, vPois := e.vPois, s := e.s, sPois := e.sPois, regroup := none } ∧
             (∀ r, e.sreg r = if r = sNum (dest j) then BitVec.ofNat 32 (emptied.sum + 256 * min 64 (threads.length - 64 * i)) else c.sreg r) ∧
             (∀ r, sget false e.sPois r = (sget false c.sPois r && !decide (r = sNum (dest j)))) ∧
             ∀ l, l < 64 → match threads[64 * i + l]? with
               | none => e.lane l = {} ∧ ∀ r, e.vreg r l = c.vreg r l
               | some (j', l') => e.lane l = dealt ((q.crew j').lane l') ∧
                 (∀ r, r < vregs → e.vreg r l = (q.crew j').vreg r l' ∧
                   sget false e.vPois (64 * r + l) = sget false (q.crew j').vPois (64 * r + l')) ∧
                 ∀ r, vregs ≤ r → e.vreg r l = c.vreg r l) ∧
           (∀ i j, used ≤ i → crews[i]? = some j → t.crew j = {}) ∧
           (∀ j, j ∉ crews → t.crew j = { q.crew j with lanes := (t.crew j).lanes } ∧
             ∀ l, (t.crew j).lane l = (q.crew j).lane l ∨ (t.crew j).lane l = awoken ((q.crew j).lane l)) ∧
           (used = crews.length → t = { m with crews := t.crews, cur := t.cur } ∧ ∀ j, j ∉ crews → t.crew j = q.crew j) ∧
           ∀ pl, (∀ b o, pl ≠ .loc b o) → t.placeByte pl = m.placeByte pl)))

namespace Sys2Proof.Claims

/-- The child that thread l launches (R126). -/
def childOf (u : State) (p : Pulse) (f : FmtS) (s : State) (l : Nat) : Child :=
  let c := u.crew p.crew
  let g := u.grid c.grid
  { raddr := s.src64 p.crew l f.b, crew := p.crew, serial := c.serial, det := (g.map (·.lr.det)).getD false
    parent := ((g.map (·.det)).getD 0) % 4096, item := (c.lane l).item, ordinal := (c.lane l).launches }

end Sys2Proof.Claims

/-- R126, R246, R379, R391: launch of threads whose records are 256-byte aligned, after the crew's matrix instructions and its release of device scope, gives the performing
threads in ascending order the launch entries that the crew holds: such a thread's child joins the context's launch queue and
its destination receives 0; the others receive 1. -/
def Sys2Proof.Claims.Launch : Prop :=
  ∀ (s : State) (p : Pulse) (f : FmtS),
    let k := p.crew
    let ls := if isS f.a then (Pulse.members p).take 1 else Pulse.members p
    let u := s.release k 5
    let n := (u.crew k).entries
    let n' := ctxOf k
    Ready s p (.launch f) → Settled s p → s.mtxBusy k none = false → ls ≠ [] → (∀ l ∈ ls, (s.src64 k l f.b).toNat % 256 = 0) →
    ∃ v t, exec (.launch f) s = .next t ∧ v = { u with crews := v.crews, ctxs := v.ctxs } ∧
      (∀ m, v.ctx m = if m = n' then { u.ctx n' with children := (u.ctx n').children ++ (ls.take n).map (childOf u p f s) }
        else u.ctx m) ∧
      (∀ j, j ≠ k → v.crew j = u.crew j) ∧
      v.crew k = { u.crew k with entries := n - ls.length, lanes := (v.crew k).lanes } ∧
      (∀ l, (v.crew k).lane l = let y := (u.crew k).lane l
        if l ∈ ls.take n then { y with launches := y.launches + 1 } else y) ∧
      Wrote k f.a ls (fun l => if l ∈ ls.take n then 0 else 1) v t

namespace Sys2Proof.Claims

/-- The specials of R152, R380 and R381 by number, for lane l of the pulse's crew. -/
def specialAt (s : State) (p : Pulse) (l n : Nat) : Word :=
  let c := s.crew p.crew
  let r := s.recOf p.crew
  let b := s.block c.block
  let site := s.siteOf (lcOf p.crew)
  let tr := (c.lane l).tr
  let thread := fun (w : Word) => if (c.lane l).present then w else s.free (512 + l)
  let half := fun (x : DWord) (h : Nat) => BitVec.ofNat 32 (x.toNat / 2 ^ (32 * h))
  let watch := fun (i : Nat) => sget 0 (s.ctx (ctxOf p.crew)).watch i
  match n with
  | 0x00 => (c.status &&& 0x00FF010F) ||| (if r.det then 0x200 else 0) ||| (if r.replay then 0x400 else 0)
  | 0x01 => BitVec.ofNat 32 ((b.map (·.id)).getD 0)
  | 0x02 => BitVec.ofNat 32 (((b.map (·.id)).getD 0) / 2 ^ 32 % 2 ^ 16)
  | 0x03 => BitVec.ofNat 32 ((b.map (·.size)).getD 0)
  | 0x04 => BitVec.ofNat 32 ((b.map (·.gang)).getD 0)
  | 0x05 => BitVec.ofNat 32 c.index
  | 0x06 => BitVec.ofNat 32 (p.crew / 256 % 128)
  | 0x07 => BitVec.ofNat 32 (site / 32)
  | 0x08 => BitVec.ofNat 32 (site / 16 % 2)
  | 0x09 => BitVec.ofNat 32 r.crews
  | 0x0A => BitVec.ofNat 32 (s.dev.feat.toNat / 2 ^ 32 % 16)
  | 0x0B => BitVec.ofNat 32 (s.dev.feat.toNat / 2 ^ 36 % 256)
  | 0x0C => BitVec.ofNat 32 r.items
  | 0x0D => BitVec.ofNat 32 (r.items / 2 ^ 32 % 2 ^ 16)
  | 0x0E => BitVec.ofNat 32 r.itembase
  | 0x0F => BitVec.ofNat 32 (r.itembase / 2 ^ 32 % 2 ^ 16)
  | 0x10 => half r.args 0
  | 0x11 => half r.args 1
  | 0x20 => thread tr.word
  | 0x21 => thread (tr.cls.setWidth 32)
  | 0x22 => thread (BitVec.ofNat 32 (tr.word.toNat / 2 ^ 26))
  | 0x23 => thread (BitVec.ofNat 32 (tr.word.toNat / 2 ^ 18 % 256))
  | 0x24 => thread (BitVec.ofNat 32 (tr.word.toNat / 2 ^ 10 % 256))
  | 0x25 => thread (BitVec.ofNat 32 (tr.word.toNat / 2 ^ 2 % 256))
  | 0x26 => thread (BitVec.ofNat 32 (tr.word.toNat % 2 ^ 22))
  | 0x27 => thread (half tr.pc 0)
  | 0x28 => thread (half tr.pc 1)
  | 0x29 => thread tr.cause
  | 0x2A => thread (half tr.addr 0)
  | 0x2B => thread (half tr.addr 1)
  | 0x40 => half (watch 0) 0
  | 0x41 => half (watch 0) 1
  | 0x42 => half (watch 1) 0
  | 0x44 => half (watch 2) 0
  | 0x45 => half (watch 2) 1
  | _ => half (watch 3) 0

/-- A pair of s-registers of crew k receives a 64-bit value, low half first; nothing else of the machine changes. -/
def WrotePair (k : Nat) (d : BitVec 8) (x : DWord) (s t : State) : Prop :=
  t = { s with crews := t.crews } ∧ (∀ j, j ≠ k → t.crew j = s.crew j) ∧
  (let c := s.crew k
   let e := t.crew k
   e = { c with s := e.s, sPois := e.sPois } ∧
   (∀ j, e.sreg j = if j = sNum d then BitVec.ofNat 32 x.toNat else if j = sNum d + 1 then BitVec.ofNat 32 (x.toNat / 2 ^ 32)
     else c.sreg j) ∧
   (∀ j, sget false e.sPois j = (sget false c.sPois j && !decide (j = sNum d ∨ j = sNum d + 1))))

/-- A write of a special (R380, R381): the four sticky flags, the halves of tr.pc of the threads inside their handler, the
halves of the watch registers. A special that is not listed here ignores the write. -/
def SpecialBecomes (s : State) (p : Pulse) (n : Nat) (val : Nat → Word) (t : State) : Prop :=
  let k := p.crew
  let w := val (Pulse.low p)
  let m := ctxOf k
  let joined := fun (x : DWord) (hi : Bool) (w : Word) =>
    BitVec.ofNat 64 (if hi then x.toNat % 2 ^ 32 + 2 ^ 32 * w.toNat else x.toNat / 2 ^ 32 * 2 ^ 32 + w.toNat)
  let watched := fun (reg : Nat) (new : DWord) =>
    t = { s with ctxs := t.ctxs } ∧ (∀ i, i ≠ m → t.ctx i = s.ctx i) ∧
    t.ctx m = { s.ctx m with watch := (t.ctx m).watch, watchOld := (t.ctx m).watchOld } ∧
    (∀ i, sget 0 (t.ctx m).watch i = if i = reg then new else sget 0 (s.ctx m).watch i) ∧
    (t.ctx m).watchOld = ((s.ctx m).watchOld.filter fun x => decide (s.tick < x.tick + 1000)) ++
      [{ reg, old := sget 0 (s.ctx m).watch reg, tick := s.tick, crew := k, lanes := p.part }]
  match n with
  | 0x00 => OnlyCrew k s t ∧ t.cur = s.cur ∧
      t.crew k = { s.crew k with status := ((s.crew k).status &&& 0xFFFFFFF0) ||| (w &&& 0xF) }
  | 0x27 | 0x28 => t.cur = s.cur ∧ LanesBecome k s t (Pulse.members p) fun l x =>
      if x.inTrap then { x with tr := { x.tr with pc := joined x.tr.pc (n = 0x28) (val l) } } else x
  | 0x40 | 0x41 => watched 0 (joined (sget 0 (s.ctx m).watch 0) (n = 0x41) w)
  | 0x42 => watched 1 (BitVec.ofNat 64 (w.toNat % 128))
  | 0x44 | 0x45 => watched 2 (joined (sget 0 (s.ctx m).watch 2) (n = 0x45) w)
  | 0x46 => watched 3 (BitVec.ofNat 64 (w.toNat % 128))
  | _ => t = s

end Sys2Proof.Claims

/-- R42, R152, R380 to R383: srd writes the special that its number names (for a helper a trap special is a free value, log
entry 3); swr writes the writable ones and is ignored by the others; vhop writes the hop distance of two virtual dies; clock
and clock.core write the tick and the site's core cycles; evc reads a counter (a free value where its source counts what the
model leaves out, log entry 3) and evc.sel selects a source and clears the counter. Nothing else changes. -/
def Obligations.Specials : Prop :=
  ∀ (s : State) (p : Pulse) (f : FmtS),
    let k := p.crew
    let ls := if isV f.a then Pulse.lanes p else [Pulse.low p]
    let site := s.siteOf (lcOf k)
    let c := (f.f.extractLsb' 0 4).toNat
    let src := (sget 0 (s.site site).evSel c).toNat
    (Ready s p (.srd f) → ∃ t, exec (.srd f) s = .next t ∧ Wrote k f.a ls (fun l => specialAt s p l f.f.toNat) s t) ∧
    (Ready s p (.swr f) → ∃ t, exec (.swr f) s = .next t ∧ SpecialBecomes s p f.f.toNat (fun l => s.src k l f.b) t) ∧
    (Ready s p (.vhop f) → ∃ t, exec (.vhop f) s = .next t ∧ ∃ w,
      (∀ l, ¬ blind s p (.vhop f) l →
        w l = BitVec.ofNat 32 (s.hop ((s.src k l f.b).toNat % 256) ((s.src k l (f.f.truncate 8)).toNat % 256))) ∧
      Wrote k f.a ls w s t) ∧
    (Ready s p (.clock f) → ∃ t, exec (.clock f) s = .next t ∧ WrotePair k f.a (BitVec.ofNat 64 s.tick) s t) ∧
    (Ready s p (.clockCore f) → ∃ t, exec (.clockCore f) s = .next t ∧
      WrotePair k f.a (BitVec.ofNat 64 (s.cycles + (s.site site).cycles.toNat)) s t) ∧
    (Ready s p (.evc f) → ∃ t, exec (.evc f) s = .next t ∧ ∃ x, WrotePair k f.a x s t ∧
      (src ≠ 5 → src ≠ 8 → src ≠ 11 → src ≠ 12 → x = sget 0 (s.site site).evCnt c)) ∧
    (Ready s p (.evcSel f) → ∃ t, exec (.evcSel f) s = .next t ∧ t = { s with sites := t.sites } ∧
      (∀ j, j ≠ site → t.site j = s.site j) ∧
      t.site site = { s.site site with evSel := (t.site site).evSel, evCnt := (t.site site).evCnt } ∧
      (∀ j, sget 0 (t.site site).evSel j = if j = c then BitVec.ofNat 8 (s.src k (Pulse.low p) f.b).toNat
        else sget 0 (s.site site).evSel j) ∧
      ∀ j, sget 0 (t.site site).evCnt j = if j = c then 0 else sget 0 (s.site site).evCnt j)

namespace Sys2Proof.Claims

/-! ## Memory words -/

/-- The threads that perform a memory word: all of P, or the lowest alone where it is scalar (R350). -/
def performing (p : Pulse) (scalar : Bool) : List Nat := if scalar then (Pulse.members p).take 1 else Pulse.members p

/-- What lets a memory word go on at once: room in its load counter (R150), no atomic that its threads wait for (R238). -/
def MayIssue (s : State) (p : Pulse) (lc : BitVec 3) : Prop :=
  Pulse.members p ≠ [] ∧ (lc.toNat < 6 → sget 0 (s.crew p.crew).lcs lc.toNat < 63) ∧ (s.crew p.crew).atomsBlock p = false

/-- What lets a word that is a release or is performed behind the crew's queue go on (R225, R238, R391): no matrix instruction that it
waits for, and nothing of the queue held for a frame exchange. -/
def MayRelease (s : State) (p : Pulse) (i : Instr) : Prop :=
  s.releaseWaits p i = false ∧ (drains i = true → s.queueHeld p.crew = false)

/-- The segments of local memory that n bytes at a place lie in have not ended (R147). -/
def Whole (s : State) (pl : Place) (n : Nat) : Prop :=
  ∀ b o, pl = .loc b o → ∃ x, s.block b = some x ∧ ∀ i, i < n → x.ended (o + i) = false

/-- The threads of P have executed the word: the watchpoints apply to them again (R381); nothing else changes. -/
def Executed (p : Pulse) (u t : State) : Prop :=
  t = { u with crews := t.crews } ∧ (∀ j, j ≠ p.crew → t.crew j = u.crew j) ∧
  t.crew p.crew = { u.crew p.crew with lanes := (t.crew p.crew).lanes } ∧
  ∀ l, (t.crew p.crew).lane l =
    let x := (u.crew p.crew).lane l
    if l ∈ Pulse.members p then { x with wpSkip := false } else x

/-- The load counters after an instruction has named counter lc (R150). -/
def Risen (c d : Crew) (lc : BitVec 3) : Prop :=
  d.nextSer = c.nextSer + 1 ∧ ∀ i, sget 0 d.lcs i = if i = lc.toNat ∧ lc.toNat < 6 then sget 0 c.lcs i + 1 else sget 0 c.lcs i

/-- The n registers from x on are zero in the helpers' lanes, for a vector destination (R165); every other register and its
poison is as before. -/
def HelpersZero (p : Pulse) (x : BitVec 8) (n : Nat) (c d : Crew) : Prop :=
  let cleared := fun (j l : Nat) => isV x = true ∧ p.helpers.getLsbD l = true ∧ x.toNat ≤ j ∧ j < x.toNat + n
  (∀ j l, j < 128 → l < 64 → d.vreg j l = if cleared j l then 0 else c.vreg j l) ∧
  ∀ j l, j < 128 → l < 64 → sget false d.vPois (64 * j + l) = (sget false c.vPois (64 * j + l) && !decide (cleared j l))

/-- Of the sites only event counters change. -/
def OnlyCounts (s t : State) : Prop := ∀ i, t.site i = { s.site i with evCnt := (t.site i).evCnt }

/-- The number that bytes hold, little-endian, as the words of a load of r registers (R352); `signed` extends it. -/
def loaded (signed : Bool) (bs : List Byte) (r : Nat) : List Word :=
  let x : Int := (bs.mapIdx fun i b => (b.toNat : Int) * 256 ^ i).sum
  let x := if signed ∧ (2 : Int) ^ (8 * bs.length - 1) ≤ x then x - 2 ^ (8 * bs.length) else x
  (List.range r).map fun i => BitVec.ofInt 32 (x / 2 ^ (32 * i))

/-- The load instructions: their fields, index literal, bytes, registers, sign extension. -/
def loadForm : Instr → Option (FmtM × Word × Nat × Nat × Bool)
  | .ldI8 f ix => some (f, ix, 1, 1, true)
  | .ldN8 f ix => some (f, ix, 1, 1, false)
  | .ldI16 f ix => some (f, ix, 2, 1, true)
  | .ldN16 f ix => some (f, ix, 2, 1, false)
  | .ldW32 f ix => some (f, ix, 4, 1, false)
  | .ldW64 f ix => some (f, ix, 8, 2, false)
  | .ldW128 f ix => some (f, ix, 16, 4, false)
  | _ => none

/-- The flights that a load of threads `ls` adds, each with what it reads at its hit. -/
def flightsOf (s : State) (p : Pulse) (dest : BitVec 8) (lc : BitVec 3) (ls : List Nat) (words : Nat → List Word)
    (bad : Nat → Option DWord) : List Flight :=
  ls.map fun l => { lane := l, dest, words := words l, poison := bad l, lc := lc.toNat,
                    ser := (s.crew p.crew).nextSer + 1, pc := here p }

/-- The state after an instruction that reads: its flights, its counter, the helpers; only translations are cached, only event
counters count, and every byte of memory reads as before (R352). -/
def ReadIssued (s : State) (p : Pulse) (dest : BitVec 8) (r : Nat) (lc : BitVec 3) (fs : List Flight) (u : State) : Prop :=
  u = { s with crews := u.crews, sites := u.sites } ∧ OnlyCounts s u ∧ (∀ j, j ≠ p.crew → u.crew j = s.crew j) ∧
  (let c := s.crew p.crew
   let d := u.crew p.crew
   d = { c with v := d.v, vPois := d.vPois, nextSer := d.nextSer, lcs := d.lcs, flights := c.flights ++ fs } ∧
   Risen c d lc ∧ HelpersZero p dest r c d)

end Sys2Proof.Claims

/-- R150, R211, R352: a load whose performing threads' accesses go ahead reads the bytes at each address and sends their words on
the way to its registers; its counter rises; helpers receive zero. That it reads at its issue is the model's choice (log entry 33).
No byte of memory changes; before a device register is read the
crew's earlier accesses are performed. -/
def Sys2Proof.Claims.LoadsIssue : Prop :=
  ∀ (i : Instr) (s : State) (p : Pulse) (f : FmtM) (ix : Word) (n r : Nat) (sg : Bool) (ok : Nat → Hit),
    let k := p.crew
    let ls := performing p (isS f.x)
    let ea := fun l => s.ea k l f ix
    loadForm i = some (f, ix, n, r, sg) → Ready s p i → MayIssue s p f.lc → ReadsGo s p n (ls.map ok) →
    (∀ l ∈ ls, s.access k l (here p) (ea l) n n .read = .ok (ok l)) →
    ∃ a u t, exec i s = .next t ∧ OnlyCaches s a ∧ Executed p u t ∧
      let b := portFirst a p (ls.map ok)
      SameBytes b t ∧ t.cur = b.cur ∧
      ReadIssued b p f.x r f.lc (flightsOf b p f.x f.lc ls (fun l => loaded sg (b.loadBytes k (ok l) n) r)
        fun l => (b.loadPoison k (ok l) n).map fun i => BitVec.ofNat 64 ((ea l + BitVec.ofNat 64 i).toNat / 4 * 4)) u

/-- R150, R255, R349: a load that returns writes its words, which are no longer poisoned; its counter falls with the last
piece of its instruction; a poisoned word stops the context with the address of the word. -/
def Sys2Proof.Claims.LoadReturns : Prop :=
  ∀ (s : State) (f : Flight),
    let k := s.subj.n
    let c := s.crew k
    let rest := listDel c.flights s.subj.m
    let last := fun (d : Crew) => f.lc < 6 ∧ d.outstanding f.ser = false ∧ ∀ h ∈ s.homeQ, h.crew ≠ k ∨ h.e.ser ≠ f.ser
    s.clocked = true → c.flights[s.subj.m]? = some f →
    ∃ (u v t : State), exec .loadReturn s = .next t ∧ Settles k v t ∧ u = { s with crews := u.crews } ∧ (∀ j, j ≠ k → u.crew j = s.crew j) ∧
      u.crew k = { c.putAll f.lane f.dest f.words with flights := rest, lcs := (u.crew k).lcs } ∧
      (∀ i, sget 0 (u.crew k).lcs i =
        if i = f.lc ∧ last { c with flights := rest } then sget 0 c.lcs i - 1 else sget 0 c.lcs i) ∧
      (f.poison = none ∨ (s.ctx (ctxOf k)).st ≠ .on → v = u) ∧
      ∀ a, f.poison = some a → (s.ctx (ctxOf k)).st = .on →
        v = { u with ctxs := v.ctxs, adit := v.adit } ∧ ∀ m, v.ctx m = if m = ctxOf k then { s.ctx m with
          st := .stopping, pendFault := some { cause := 0x0B, addr := a, pc := f.pc, lcore := BitVec.ofNat 7 (k / 256 % 128),
                                               crew := BitVec.ofNat 8 (k % 256), tid := BitVec.ofNat 6 f.lane } } else s.ctx m

namespace Sys2Proof.Claims

/-- The store instructions: their fields, index literal, bytes and registers. -/
def storeForm : Instr → Option (FmtM × Word × Nat × Nat)
  | .stN8 f ix => some (f, ix, 1, 1)
  | .stN16 f ix => some (f, ix, 2, 1)
  | .stW32 f ix => some (f, ix, 4, 1)
  | .stW64 f ix => some (f, ix, 8, 2)
  | .stW128 f ix => some (f, ix, 16, 4)
  | _ => none

/-- The bytes that lane l stores: the low bytes of its registers, or of a constant extended by zeros (R285, R353). -/
def storedBytes (s : State) (p : Pulse) (f : FmtM) (n : Nat) (l : Nat) : List Byte :=
  (List.range n).map fun i =>
    if i < 4 ∨ isV f.x = true ∨ isS f.x = true then
      BitVec.ofNat 8 ((s.src p.crew l (regAt f.x (i / 4))).toNat / 256 ^ (i % 4))
    else 0

/-- Whether a place is in a block's local memory. -/
def isLoc : Place → Bool
  | .loc _ _ => true
  | _ => false

/-- Stores of the listed addresses, places and bytes enter after the state b: in the queue in their order, or in place at once
where local; the counter lc has risen for as long as an entry is left (R238, R239). -/
def StoreIssued (p : Pulse) (lc : BitVec 3) (home : Bool) (xs : List (Nat × Place × List Byte)) (b u : State) : Prop :=
  let k := p.crew
  let c := b.crew k
  let ents := (xs.filter fun x => !isLoc x.2.1).map fun x =>
    ({ op := .store x.2.1 x.2.2, lc := lc.toNat, ser := c.nextSer + 1, pc := here p, va := x.1, home } : QEntry)
  let stays := (u.crew k).outstanding (c.nextSer + 1) ∨ ∃ h ∈ b.homeQ, h.crew = k ∧ h.e.ser = c.nextSer + 1
  OnlyMemory { b with crews := u.crews } u ∧ (∀ j, j ≠ k → u.crew j = b.crew j) ∧
  StoresLand ((xs.filter fun x => isLoc x.2.1).map (·.2)) b u ∧
  u.crew k = { c with queue := c.queue ++ ents, nextSer := c.nextSer + 1, lcs := (u.crew k).lcs } ∧
  ∀ j, sget 0 (u.crew k).lcs j = if j = lc.toNat ∧ j < 6 ∧ stays then sget 0 c.lcs j + 1 else sget 0 c.lcs j

/-- The state a word of scope `ag` and storage scope `st` starts from: with V = 1 the release comes first (R353). -/
def afterRelease (v : BitVec 1) (ag : BitVec 3) (st : BitVec 2) (s : State) (p : Pulse) : State :=
  if v = 1 then s.release p.crew ag.toNat st else s

end Sys2Proof.Claims

/-- R238, R239, R350, R353: a store whose performing threads' accesses go ahead, after its release where V is 1, enters the
bytes of each thread in the crew's queue in ascending thread order; what lies in local memory is in place at once. Its
counter rises until its last entry has left. No other byte of memory changes. -/
def Sys2Proof.Claims.StoresIssue : Prop :=
  ∀ (i : Instr) (s : State) (p : Pulse) (f : FmtM) (ix : Word) (n r : Nat) (ok : Nat → Hit),
    let k := p.crew
    let ls := performing p (allScalar (f.x :: addrOperands f ix))
    storeForm i = some (f, ix, n, r) → Ready s p i → MayIssue s p f.lc → MayRelease s p i →
    (∀ l ∈ ls, s.access k l (here p) (s.ea k l f ix) n n .write = .ok (ok l)) →
    ∃ a u t, exec i s = .next t ∧ OnlyCaches s a ∧ Executed p u t ∧
      let b := afterRelease f.v f.ag f.st a p
      (∀ l ∈ ls, Whole b (ok l).pl n) →
      StoreIssued p f.lc (f.v == 1 && decide (5 ≤ f.ag.toNat)) (ls.map fun l => ((ok l).va, (ok l).pl, storedBytes s p f n l)) b u

/-- R67, R225, R238, R254: the oldest entry of a store queue leaves it, where no earlier append or seal of the crew is on its way and its
frame is not exchanged: the bytes of a store are then in place, the words it writes whole are no longer poisoned, and no other byte
changes; the packets of a guest's queue that it meets are undefined from then on; an append or a seal goes to its home slice. -/
def Sys2Proof.Claims.StoreQueueDrains : Prop :=
  ∀ (s : State) (e : QEntry) (rest : List QEntry),
    let k := s.subj.n
    let c := s.crew k
    let gone := { c with queue := rest }
    s.clocked = true → c.queue = e :: rest → s.onWay k = false → s.opHeld e.op = false →
    ∃ (t u : State), exec .storeQueueDrain s = .next u ∧ Settles k t u ∧ (∀ j, j ≠ k → t.crew j = s.crew j) ∧
      (∀ pl bs, e.op = .store pl bs → Whole s pl bs.length →
        OnlyMemory { s with crews := t.crews } t ∧ StoresLand [(pl, bs)] s t ∧ TornBy pl bs.length s t ∧
        (∀ w, (∀ i, i < 4 → (byteOf pl bs (.dev (4 * w + i))).isSome) → t.wordPois w = false) ∧
        (∀ w, byteOf pl bs (.dev (4 * w)) = none → t.wordPois w = s.wordPois w) ∧
        t.crew k = { gone with lcs := (t.crew k).lcs } ∧
        ∀ i, sget 0 (t.crew k).lcs i = if i = e.lc ∧ e.lc < 6 ∧ gone.outstanding e.ser = false ∧
            (∀ h ∈ s.homeQ, h.crew ≠ k ∨ h.e.ser ≠ e.ser) then sget 0 c.lcs i - 1 else sget 0 c.lcs i) ∧
      ((∀ pl bs, e.op ≠ .store pl bs) → t = { s with crews := t.crews, homeQ := s.homeQ ++ [{ crew := k, e }] } ∧ t.crew k = gone)

namespace Sys2Proof.Claims

/-- The byte offset of coordinates in a shape (R359): the element size times the sum of each coordinate with its stride, the
address bits 4 to 6 exchanged by the swizzle. -/
def tensorOffset (sh : Shape) (c : List Int) : Nat :=
  let off := 2 ^ sh.esz * ((List.range sh.rank).map fun d => (c.getD d 0).toNat * sh.strides.getD d 0).sum
  if sh.swz = 0 then off else off ^^^ (off / 128 % 2 ^ sh.swz * 16)

/-- Whether coordinate d lies in the shape, whose DIM holds the extent less one (R357, R359). -/
def inShape (sh : Shape) (c : List Int) (d : Nat) : Prop := 0 ≤ c.getD d 0 ∧ c.getD d 0 ≤ (sh.dims.getD d 0 : Int)

end Sys2Proof.Claims

/-- R357, R359: coordinates inside the shape name the element at the base plus their offset; outside it, clip 0 reads as the
pad and stores nothing, clip 1 takes the nearest element in each dimension and stores nothing, and clip 2 faults. A tap of tld.win is
taken apart by the extents of the enabled windows; each scales its coordinate by its stride and adds its part of the tap, dilated, less
the low padding; a tap with a rest names no element. -/
def Sys2Proof.Claims.TensorElements : Prop :=
  (∀ (w j : Nat), j < 3 →
    let part := fun (lo n : Nat) => w / 2 ^ (21 * j + lo) % 2 ^ n
    let x := winOf w j
    x.dim = part 0 3 ∧ x.k = part 3 3 + 1 ∧ x.st = part 6 3 + 1 ∧ x.dil = part 9 3 + 1 ∧ x.pl = part 12 5 ∧
      (x.en = true ↔ part 17 1 = 1)) ∧
  (∀ (sh : Shape) (c : List Int) (tap : Nat) (w : Nat → TWin), sh.wins = (List.range 3).map w →
    (∀ j, j < 3 → (w j).en = true → (w j).dim < c.length) →
    (∀ i j, i < j → j < 3 → (w i).en = true → (w j).en = true → (w i).dim ≠ (w j).dim) →
    let size := fun j => if (w j).en then (w j).k else 1
    let part := fun j => tap / ((List.range j).map size).prod % size j
    (tap / ((List.range 3).map size).prod ≠ 0 → elemAt sh false c tap true = .shape) ∧
    (tap / ((List.range 3).map size).prod = 0 → ∃ c' : List Int,
      elemAt sh false c tap true = elemAt sh false c' 0 false ∧ c'.length = c.length ∧
      (∀ j, j < 3 → (w j).en = true → c'.getD (w j).dim 0 =
        c.getD (w j).dim 0 * ((w j).st : ℤ) + (part j : ℤ) * ((w j).dil : ℤ) - ((w j).pl : ℤ)) ∧
      ∀ d, (∀ j, j < 3 → (w j).en = true → (w j).dim ≠ d) → c'.getD d 0 = c.getD d 0)) ∧
  ∀ (sh : Shape) (store : Bool) (c : List Int),
    let e := elemAt sh store c 0 false
    let near := (List.range sh.rank).map fun d => max 0 (min (c.getD d 0) (sh.dims.getD d 0 : Int))
    let at' := fun (c : List Int) => Elem.at (BitVec.ofNat 64 (sh.base + tensorOffset sh c))
    ((∀ d, d < sh.rank → inShape sh c d) → e = at' c) ∧
    ((∃ d, d < sh.rank ∧ ¬ inShape sh c d) → sh.rank ≤ c.length →
      (sh.clip = 0 → e = if store then .none else .pad) ∧ (sh.clip = 1 → e = if store then .none else at' near) ∧
      (2 ≤ sh.clip → e = .fault))

namespace Sys2Proof.Claims

/-- A record of n bytes that the crew reads whole, in the parts that its pages make (R205, R351): its access goes ahead, and no word of
it is poisoned. -/
def RecordReads (s : State) (p : Pulse) (a : BitVec 8) (n : Nat) (hs : List Hit) (bs : List Byte) : Prop :=
  (∃ h, s.spanAccess p.crew (Pulse.low p) (here p) (s.src64 p.crew (Pulse.low p) a) n n .read = (.ok h, hs)) ∧
  ReadsGo s p n hs ∧ s.spanPoison p.crew n hs = none ∧ bs = s.spanBytes p.crew n hs

/-- What lets a tensor word go on: the crew reads a good shape record, with no poisoned word in it, and the coordinates of
every thread of P are registers that exist and hold no poison (R357, R358, R255). -/
def ShapeReads (s : State) (p : Pulse) (f : FmtM) (lit : Word) (win : Bool) (hs : List Hit) (sh : Shape) : Prop :=
  let c : BitVec 8 := lit.truncate 8
  (∃ bs, RecordReads s p f.a 64 hs bs ∧ sh = shapeOf bs win) ∧ sh.bad = false ∧
  coordsPast (s.recOf p.crew) c sh.rank = false ∧ s.coordTaint p c sh.rank = 0

end Sys2Proof.Claims

/-- R357 to R359: tld and tld.win send each performing thread the element at its coordinates, or the pad, extended as the shape
says; tst stores the low bytes of its register at the element, and nothing where the coordinates are clipped. That tld and tld.win read
when the word runs is the model's choice (log entry 33). -/
def Sys2Proof.Claims.TensorAccess : Prop :=
  ∀ (s : State) (p : Pulse) (f : FmtM) (lit : Word) (hs : List Hit) (sh : Shape) (ok : Nat → Hit),
    let k := p.crew
    let c : BitVec 8 := lit.truncate 8
    let n := 2 ^ sh.esz
    MayIssue s p f.lc →
    (∀ win : Bool, ShapeReads s p f lit win hs sh →
      let i : Instr := if win then .tldWin f lit else .tld f lit
      let ls := performing p (isS f.x)
      let el := fun l => elemAt sh false (s.coords k l c sh.rank) (s.src k l (lit.extractLsb' 8 8)).toNat win
      let rows := ls.filter fun l => el l ≠ .pad
      Ready s p i → ReadsGo s p n (rows.map ok) →
      (∀ l ∈ ls, el l = .pad ∨ ∃ ea, el l = .at ea ∧ s.access k l (here p) ea n n .read = .ok (ok l)) →
      ∃ a u t bad, exec i s = .next t ∧ OnlyCaches s a ∧ Executed p u t ∧
        let b := portFirst a p (rows.map ok)
        SameBytes b t ∧ t.cur = b.cur ∧ (∀ l ∈ rows, (bad l).isSome = (b.loadPoison k (ok l) n).isSome) ∧
        ReadIssued b p f.x 1 f.lc (flightsOf b p f.x f.lc rows (fun l => loaded sh.sx (b.loadBytes k (ok l) n) 1) bad ++
          flightsOf b p f.x f.lc (ls.filter fun l => el l = .pad) (fun _ => loaded sh.sx
            ((List.range n).map fun i => BitVec.ofNat 8 (sh.pad.toNat / 256 ^ i)) 1) fun _ => none) u) ∧
    (ShapeReads s p f lit false hs sh →
     let ls := performing p (allScalar [f.x, c])
     let el := fun l => elemAt sh true (s.coords k l c sh.rank) 0 false
     let rows := ls.filter fun l => el l ≠ .none
     Ready s p (.tst f lit) →
      (∀ l ∈ ls, el l = .none ∨ ∃ ea, el l = .at ea ∧ s.access k l (here p) ea n n .write = .ok (ok l)) →
      (∀ l ∈ rows, Whole s (ok l).pl n) →
      ∃ a u t, exec (.tst f lit) s = .next t ∧ OnlyCaches s a ∧ Executed p u t ∧
        (rows = [] → u = a) ∧
        (rows ≠ [] → StoreIssued p f.lc false (rows.map fun l => ((ok l).va, (ok l).pl, storedBytes s p f n l)) a u))

namespace Sys2Proof.Claims

/-! ## Atomics -/

/-- The returning atomics and the reductions of R360 and R361: fields, index literal, operation, compare operand. -/
def atomForm : Instr → Option (FmtM × Word × AtomOp × Option (BitVec 8))
  | .amoAdd f ix => some (f, ix, .add, none)
  | .amoMin f ix => some (f, ix, if f.v = 1 then .minU else .minS, none)
  | .amoMax f ix => some (f, ix, if f.v = 1 then .maxU else .maxS, none)
  | .amoAnd f ix => some (f, ix, .and, none)
  | .amoOr f ix => some (f, ix, .or, none)
  | .amoXor f ix => some (f, ix, .xor, none)
  | .amoExch f ix => some (f, ix, .exch, none)
  | .amoCas f ix c => some (f, ix, .cas, some (c.truncate 8))
  | .redAddI f ix => some (f, ix, .add, none)
  | .redAddF32 f ix => some (f, ix, .addF, none)
  | .redMin f ix => some (f, ix, if f.v = 1 then .minF else .minS, none)
  | .redMax f ix => some (f, ix, if f.v = 1 then .maxF else .maxS, none)
  | .redAnd f ix => some (f, ix, .and, none)
  | .redOr f ix => some (f, ix, .or, none)
  | .redXor f ix => some (f, ix, .xor, none)
  | _ => none

/-- Whether a word returns the old value to its threads (R360). -/
def returning : Instr → Bool
  | .amoAdd _ _ | .amoMin _ _ | .amoMax _ _ | .amoAnd _ _ | .amoOr _ _ | .amoXor _ _ | .amoExch _ _ | .amoCas _ _ _ => true
  | _ => false

/-- An atomic joins those pending of the crew after every earlier entry of its queue has left it (R238, R247). -/
def AtomPends (p : Pulse) (lc : BitVec 3) (x : BitVec 8) (cleared : Nat) (a : Atom) (b u : State) : Prop :=
  u = { b with crews := u.crews } ∧ (∀ j, j ≠ p.crew → u.crew j = b.crew j) ∧
  (let c := b.crew p.crew
   let d := u.crew p.crew
   d = { c with v := d.v, vPois := d.vPois, nextSer := d.nextSer, lcs := d.lcs
                atoms := c.atoms ++ [{ a with lc := lc.toNat, ser := c.nextSer + 1, pc := here p }] } ∧
   Risen c d lc ∧ HelpersZero p x cleared c d)

end Sys2Proof.Claims

/-- R238, R249, R348, R360, R361: an atomic or a reduction whose performing threads' accesses go ahead, and for one that
returns no two of its threads name one word, waits to be performed, after its release where V asks for one and after the
queue has drained. Where two threads of a returning one name one word every thread takes AMOCOL with its address (log entry 48). -/
def Sys2Proof.Claims.AtomicsIssue : Prop :=
  ∀ (i : Instr) (s : State) (p : Pulse) (f : FmtM) (ix : Word) (op : AtomOp) (cmp : Option (BitVec 8)) (ok : Nat → Hit),
    let k := p.crew
    let scalar := if returning i then isS f.x else allScalar (f.x :: addrOperands f ix)
    let ls := performing p scalar
    let ea := fun l => s.ea k l f ix
    let distinct : Prop := (ls.map fun l => s.window k l (ea l) 4).Nodup
    let rel : Prop := f.v = 1 ∧ op ∉ [AtomOp.minS, .minU, .maxS, .maxU, .minF, .maxF]
    atomForm i = some (f, ix, op, cmp) → Ready s p i → MayIssue s p f.lc → MayRelease s p i →
    (∀ l ∈ ls, s.access k l (here p) (ea l) 4 4 .atomic = .ok (ok l)) →
    ((returning i = true → distinct) → ∃ (a b u t : State), exec i s = .next t ∧ OnlyCaches s a ∧
      (rel → b = a.release k f.ag.toNat f.st) ∧ (¬ rel → b = a) ∧ Executed p u t ∧
      AtomPends p f.lc f.x (if returning i then 1 else 0)
        { op, ret := returning i, scope := max 1 f.ag.toNat, dest := if returning i then f.x else 0
          det := !returning i && (s.recOf k).det
          args := ls.map fun l => { lane := l, place := (ok l).pl, place2 := (ok l).pl, ea := ea l
                                    va := if (ok l).leaf.isSome then (ok l).va else (ea l).toNat
                                    x := s.src k l f.x, cmp := (cmp.map (s.src k l)).getD 0
                                    item := ((s.crew k).lane l).item } } (b.drainAll k) u) ∧
    (returning i = true → ¬ distinct → Trappable s p → (s.recOf k).tamo = true →
      ∃ t, exec i s = .next t ∧ t.cur = some (leaving p (Pulse.members p)) ∧
        LanesBecome k s t (Pulse.members p) fun l x => entering s p 5 0 (ea l) x)

namespace Sys2Proof.Claims

/-- The word at a place, little-endian. -/
def wordAt (s : State) (pl : Place) : Word :=
  BitVec.ofNat 32 ((List.range 4).map fun i => (s.placeByte (pl.add i)).toNat * 256 ^ i).sum

/-- The bytes of a word, lowest first. -/
def wordLe (w : Word) : List Byte := (List.range 4).map fun i => BitVec.ofNat 8 (w.toNat / 256 ^ i)

/-- What an operation leaves in its word (R360, R361). -/
def updated (op : AtomOp) (old x cmp : Word) : Word :=
  match op with
  | .add => BitVec.ofNat 32 (old.toNat + x.toNat)
  | .minS => if x.toInt < old.toInt then x else old
  | .minU => if x.toNat < old.toNat then x else old
  | .maxS => if old.toInt < x.toInt then x else old
  | .maxU => if old.toNat < x.toNat then x else old
  | .and => old &&& x
  | .or => old ||| x
  | .xor => old ^^^ x
  | .exch => x
  | .cas => if old = cmp then x else old
  | .addF => (asWord (fp32.add (f32 old) (f32 x))).1
  | .minF => fminmax32 false old x
  | .maxF => fminmax32 true old x
  | _ => old

/-- One thread's operation on its word (R247, R253, R254): a poisoned word stays; a deterministic sum of FP32 goes to the word's
hidden record, which the first one makes from the word, unless the context holds 262,080; a reduction that the host link cannot complete
is dropped, reported, and stops the context (R56). -/
def AtomOne (k : Nat) (a : Atom) (g : AtomArg) (s t : State) : Prop :=
  let old := wordAt s g.place
  let sum := exactAdd ((s.hiddenAt g.place).getD { hiddenOf old with ctx := ctxOf k }) (f32 g.x)
  let det := decide (a.op = .addF) && a.det
  if a.ret = false ∧ s.linkLost g.place = true then t = s.dropFault k g.va
  else if s.placePois g.place = true then t = s
  else if det = true ∧ s.hiddenAt g.place = none ∧ 262080 ≤ s.hiddenCount (ctxOf k) then
    t = s.contextFault (ctxOf k) { cause := 0x10, sub := 14, addr := g.ea }
  else if det = true then OnlyMemory s t ∧ StoresLand [(g.place, wordLe (exactValue sum).1)] s t ∧ TornBy g.place 4 s t ∧
    (g.place.isPort = false → t.hiddenAt g.place = some sum)
  else OnlyMemory s t ∧ StoresLand [(g.place, wordLe (updated a.op old g.x g.cmp))] s t ∧ (a.op ≠ .cas → TornBy g.place 4 s t)

/-- The choice that a returning operation of a thread is in a deterministic grid (R258, R260). -/
def atomEntry (a : Atom) (g : AtomArg) : List LogEnt :=
  if a.ret = true then [{ kind := 4, grid := 0, item := g.item.toNat, key := g.va % 2 ^ 56 }] else []

/-- The threads' operations in ascending order, each logged or forced, and what a returning one sends back to each. -/
def AtomRun (k : Nat) (a : Atom) : List AtomArg → State → State → List Flight → Prop
  | [], s, t, fs => t = s ∧ fs = []
  | g :: gs, s, t, fs => ∃ h m rest, CrewChose k (atomEntry a g) s h ∧ AtomOne k a g h m ∧ AtomRun k a gs m t rest ∧
      fs = (if a.ret = true then
        [{ lane := g.lane, dest := a.dest, words := [wordAt h g.place], poison := if h.placePois g.place = true then some g.ea else none
           lc := a.lc, ser := a.ser, pc := a.pc, atomic := true }] else []) ++ rest

/-- Whether the threads' operations may be performed now, each after those before it. -/
def AtomsMay (k : Nat) (a : Atom) : List AtomArg → State → Prop
  | [], _ => True
  | g :: gs, s => CrewMay s k (atomEntry a g) ∧
      ∀ h m, CrewChose k (atomEntry a g) s h → AtomOne k a g h m → AtomsMay k a gs m

/-- The crew after its oldest pending operation has gone: its counter falls with the last piece of the instruction (R349). -/
def AtomGone (s : State) (k : Nat) (a : Atom) (fs : List Flight) (c d : Crew) : Prop :=
  let e := { c with atoms := c.atoms.tail, flights := c.flights ++ fs }
  let last : Prop := a.lc < 6 ∧ e.outstanding a.ser = false ∧ ∀ h ∈ s.homeQ, h.crew ≠ k ∨ h.e.ser ≠ a.ser
  d = { e with status := d.status, lcs := d.lcs } ∧
  ∀ i, sget 0 d.lcs i = if i = a.lc ∧ last then sget 0 c.lcs i - 1 else sget 0 c.lcs i

end Sys2Proof.Claims

/-- R247, R249, R253, R254, R258, R261, R360, R361: the oldest atomic or reduction of a crew is performed on the words of its threads in
ascending order, each in one step and, where the grid logs its choices and the old value returns, logged or in its turn of the log; the
old values are on their way to the registers of a returning one. That the parts of all threads are performed in one step is log entry 34. -/
def Sys2Proof.Claims.AtomicsPerform : Prop :=
  ∀ (s : State) (a : Atom) (rest : List Atom),
    let k := s.subj.n
    let c := s.crew k
    s.clocked = true → c.atoms = a :: rest → c.queue = [] → s.onWay k = false → a.op ≠ .addX → a.op ≠ .xflush → a.args ≠ [] →
    (∀ g ∈ a.args, s.swapping g.place = false ∧ Whole s g.place 4) →
    ∀ v : State, v = { s with crews := v.crews } → (∀ j, j ≠ k → v.crew j = s.crew j) → v.crew k = { c with atoms := rest } →
    AtomsMay k a a.args v →
    ∃ u t w fs, exec .atomicPerform s = .next w ∧ Settles k t w ∧ AtomRun k a a.args v u fs ∧ t = { u with crews := t.crews } ∧
      (∀ j, j ≠ k → t.crew j = s.crew j) ∧ AtomGone s k a fs c (t.crew k) ∧ (t.crew k).status = c.status

namespace Sys2Proof.Claims

/-- The place of byte i of a thread's exact record, which may go on in a second page (R250). -/
def recordByte (g : AtomArg) (i : Nat) : Place :=
  if i < 4096 - g.va % 4096 then g.place.add i else g.place2.add (i - (4096 - g.va % 4096))

/-- The access of byte i of a thread's exact record. -/
def recordHit (g : AtomArg) (i : Nat) : Hit × Nat :=
  let n := 4096 - g.va % 4096
  if i < n then ({ pl := g.place, leaf := g.leaf, va := g.va }, i) else ({ pl := g.place2, leaf := g.leaf2, va := g.va + n }, i - n)

/-- A byte of the record as it is read: zero at and above TAIL of a sinter page (R228). -/
def recordRead (s : State) (g : AtomArg) (i : Nat) : Byte := s.leafByte (recordHit g i).1 (recordHit g i).2

/-- The exact record of a thread (R250): VALUE in its first 40 bytes, the flags in the low bits of the next. -/
def record (s : State) (g : AtomArg) : Exact :=
  { value := BitVec.ofNat 320 ((List.range 40).map fun i => (recordRead s g i).toNat * 256 ^ i).sum
    flags := BitVec.ofNat 4 (recordRead s g 40).toNat }

/-- Whether a word of the record is poisoned. -/
def spoiled (s : State) (g : AtomArg) : Prop := ∃ i, i < 48 ∧ s.hitPois (recordHit g i).1 (recordHit g i).2 = true

/-- Whether the host link cannot complete a read of the record (R56). -/
def cutOff (s : State) (g : AtomArg) : Prop := ∃ i, i < 48 ∧ s.linkLost ((recordHit g i).1.pl.add (recordHit g i).2) = true

/-- The exact sums of the threads of crew k in ascending order (R251): a record with a poisoned word stays as it is, and one that the host
link cannot complete stops the context (R56); of another, VALUE and the four flags change. -/
def ExactRun (k : Nat) : List AtomArg → State → State → Prop
  | [], s, t => t = s
  | g :: gs, s, t => ∃ m, ExactRun k gs m t ∧
      (cutOff s g → m = s.dropFault k g.linkVa) ∧
      (¬ cutOff s g → spoiled s g → m = s) ∧
      (¬ cutOff s g → ¬ spoiled s g → OnlyMemory s m ∧
        (let r := exactAdd (record s g) (f32 g.x)
         let high := (s.placeByte (recordByte g 40)).toNat / 16 * 16
         StoresLand ((List.range 40).map (fun i => (recordByte g i, [BitVec.ofNat 8 (r.value.toNat / 256 ^ i)])) ++
           [(recordByte g 40, [BitVec.ofNat 8 (high + r.flags.toNat)])]) s m))

end Sys2Proof.Claims

/-- R251, R252: adding a value to a record sets the flag of a NaN or an infinity, or adds the value in units of 2^-160 modulo 2^320 and sets
OVF where the exact sum leaves the range; and the value of a record is the canonical NaN with NV, an infinity, zero, or VALUE rounded
to nearest even, which FP32 can hold or round. -/
def Sys2Proof.Claims.ExactArithmetic : Prop :=
  ∀ (r : Exact),
    (∀ w : Word, let t := exactAdd r (f32 w)
      t.ctx = r.ctx ∧
      (nanWord w → t.value = r.value ∧ t.flags = r.flags ||| 1) ∧ (w = infOf false → t.value = r.value ∧ t.flags = r.flags ||| 2) ∧
      (w = infOf true → t.value = r.value ∧ t.flags = r.flags ||| 4) ∧
      (∀ n, f32 w = .fin n → ∃ sum : ℤ, (sum : ℚ) = r.value.toInt + value n * 2 ^ 160 ∧ t.value = BitVec.ofInt 320 sum ∧
        t.flags = if sum < -2 ^ 319 ∨ 2 ^ 319 ≤ sum then r.flags ||| 8 else r.flags)) ∧
    (let f := fun i => r.flags.getLsbD i
     let invalid : Prop := f 0 = true ∨ f 1 = true ∧ f 2 = true ∨ f 3 = true ∧ f 1 = false ∧ f 2 = false
     (invalid → exactValue r = (canonical, flNV)) ∧
     (¬ invalid → (f 1 = true → exactValue r = (infOf false, 0)) ∧ (f 2 = true → exactValue r = (infOf true, 0)) ∧
       (f 1 = false → f 2 = false → r.value = 0 → exactValue r = (0, 0)) ∧
       (f 1 = false → f 2 = false → r.value ≠ 0 →
         Rounded fp32 true 0 0 (r.value.toInt * (2 : ℝ) ^ (-160 : ℤ)) (decide (r.value.toInt < 0))
           ((exactValue r).1.toNat, (exactValue r).2))))

/-- R251, R252, R254, R362: red.add.x and xflush issue like the other reductions and atomics, on 48-byte records; performed,
red.add.x adds each thread's value to its record, and xflush sends each thread the record's value, with NV for an invalid sum,
and leaves memory as it is. What adding a value does to a record, and the value of a record, are stated as arithmetic. That the parts of
all threads of one word are performed in one step is log entry 34. -/
def Obligations.ExactRecords : Prop := ExactArithmetic ∧
  (∀ (x : Bool) (s : State) (p : Pulse) (f : FmtM) (ix : Word) (ok next : Nat → Hit),
    let k := p.crew
    let i : Instr := if x then .redAddX f ix else .xflush f ix
    let ls := performing p (if x then allScalar (f.x :: addrOperands f ix) else isS f.x)
    Ready s p i → MayIssue s p f.lc → MayRelease s p i →
    (∀ l ∈ ls, let r := s.exactAccess k l (here p) (s.ea k l f ix) (if x then .atomic else .read)
      r.1 = .ok (ok l) ∧ r.2.getLastD (ok l) = next l) →
    ∃ (a u t : State), exec i s = .next t ∧ OnlyCaches s a ∧ Executed p u t ∧
      AtomPends p f.lc f.x (if x then 0 else 1)
        { op := if x then .addX else .xflush, ret := !x, dest := if x then 0 else f.x
          args := ls.map fun l => { lane := l, place := (ok l).pl, place2 := (next l).pl, ea := s.ea k l f ix, va := (ok l).va
                                    leaf := (ok l).leaf, leaf2 := (next l).leaf
                                    x := if x then (if f.v = 1 then BitVec.ofNat 32 ((s.src k l f.x).toNat * 65536)
                                      else s.src k l f.x) else 0
                                    item := ((s.crew k).lane l).item } } (a.drainAll k) u) ∧
  (∀ (s : State) (a : Atom) (rest : List Atom),
    let k := s.subj.n
    let c := s.crew k
    s.clocked = true → c.atoms = a :: rest → c.queue = [] → s.onWay k = false →
    (∀ g ∈ a.args, ∀ i, i < 48 → s.swapping ((recordHit g i).1.pl.add (recordHit g i).2) = false) →
    (∀ g ∈ a.args, ∀ i, i < 48 → Whole s (recordByte g i) 1) →
    (a.op = .addX → ∃ (v u t w : State), exec .exactAddPerform s = .next w ∧ Settles k t w ∧ v = { s with crews := v.crews } ∧
      (∀ j, j ≠ k → v.crew j = s.crew j) ∧ v.crew k = { c with atoms := rest } ∧ ExactRun k a.args v u ∧
      t = { u with crews := t.crews } ∧ (∀ j, j ≠ k → t.crew j = s.crew j) ∧ AtomGone s k a [] c (t.crew k) ∧
      (t.crew k).status = c.status) ∧
    (a.op = .xflush →
      let sum := fun g => exactValue (record s g)
      let fs := a.args.map fun g => ({ lane := g.lane, dest := a.dest, words := [(sum g).1], lc := a.lc, ser := a.ser, pc := a.pc
                                       atomic := true, poison := (s.exactPoison g).map fun i =>
                                         BitVec.ofNat 64 ((g.ea + BitVec.ofNat 64 i).toNat / 4 * 4) } : Flight)
      ∃ t w : State, exec .exactAddPerform s = .next w ∧ Settles k t w ∧ t = { s with crews := t.crews } ∧ (∀ j, j ≠ k → t.crew j = s.crew j) ∧
        AtomGone s k a fs c (t.crew k) ∧
        (t.crew k).status = (a.args.filter fun g => (s.exactPoison g).isNone).foldl (fun w g => w ||| (sum g).2.setWidth 32) c.status))

/-- R251: the sum of an exact record and its NAN, PINF and NINF flags do not depend on the order in which values are added.
(Whether a partial sum leaves the range of VALUE, the OVF flag, may depend on it.) -/
def Obligations.ExactSumsAreOrderFree : Prop :=
  ∀ (r : Exact) (xs ys : List FVal), xs.Perm ys →
    let a := xs.foldl exactAdd r
    let b := ys.foldl exactAdd r
    a.value = b.value ∧ a.flags.extractLsb' 0 3 = b.flags.extractLsb' 0 3 ∧ a.ctx = b.ctx

namespace Sys2Proof.Claims

/-! ## Appends and seals -/

/-- The sinter frame of a hit: the base of its leaf. -/
def frameOf (h : Hit) : Nat := (h.leaf.map (·.base)).getD 0

/-- The virtual base of a hit's page. -/
def pageBase (h : Hit) : DWord :=
  let size := (h.leaf.map (·.size)).getD 4096
  BitVec.ofNat 64 (h.va / size * size)

/-- The units of an append in ascending lowest thread: the threads that name one frame, each unit with its frame (R227). -/
def units (ok : Nat → Hit) : List Nat → List (Nat × List Nat)
  | [] => []
  | l :: ls => (frameOf (ok l), l :: ls.filter fun m => frameOf (ok m) = frameOf (ok l)) ::
      (units ok ls).filter fun u => u.1 ≠ frameOf (ok l)

end Sys2Proof.Claims

/-- R227, R229, R363, R364: an append whose performing threads' pages can be appended to sends one unit for each frame, and its
pulse stands at the word until they have been placed or refused (log entry 24); then the threads of refused units take WSEAL with their
address and the others go on. A seal, after its release where V is 1, sends one seal for each performing thread. -/
def Sys2Proof.Claims.AppendsAndSealsIssue : Prop :=
  ∀ (s : State) (p : Pulse) (f : FmtM) (ix : Word) (ok : Nat → Hit),
    let k := p.crew
    let ls := performing p (isS f.x)
    let n := if f.v = 1 then 8 else 4
    MayIssue s p f.lc →
    (Ready s p (.append f ix) → p.unit = none →
      (∀ l ∈ ls, s.access k l (here p) (s.ea k l f ix) 1 1 .append = .ok (ok l)) →
      ∃ (a u t : State), exec (.append f ix) s = .next t ∧ OnlyCaches s a ∧ u = { a with crews := u.crews, cur := u.cur } ∧
        (∀ j, j ≠ k → u.crew j = s.crew j) ∧
        (let c := s.crew k
         let ser := c.nextSer + 1
         u.cur = some { p with unit := some ser, hold := some (.unit ser) } ∧ Executed p u t ∧
         let unit := fun (x : Nat × List Nat) =>
           ({ op := .append x.1 0 (pageBase (ok (x.2.headD 0))) (x.2.map fun l => (l, storedBytes s p f n l)) (c.lane (x.2.headD 0)).item
              dest := f.x, lc := f.lc.toNat, ser, pc := here p, va := (s.ea k (x.2.headD 0) f ix).toNat } : QEntry)
         ∃ d, u.crew k = d ∧ Risen c d f.lc ∧
           d = { c with nextSer := d.nextSer, lcs := d.lcs, queue := c.queue ++ (units ok ls).map unit })) ∧
    (Ready s p (.append f ix) → p.unit.isSome = true →
      let out := (Pulse.members p).filter fun l => p.refused.getLsbD l || (isS f.x && decide (p.refused ≠ 0))
      let q := { p with unit := none, refused := 0 }
      (out = [] → ∃ t, exec (.append f ix) s = .next t ∧ Executed p { s with cur := some q } t) ∧
      (out ≠ [] → Trappable s p → (s.recOf k).twse = true → p.debugStop = none →
        ∃ t, exec (.append f ix) s = .next t ∧ t.cur = some (leaving q out) ∧
          LanesBecome k s t (Pulse.members p) fun l x =>
            if l ∈ out then entering s p 0x0A 0 (s.ea k l f ix) x else { x with wpSkip := false })) ∧
    (Ready s p (.sealPage f ix) → MayRelease s p (.sealPage f ix) →
      (∀ l ∈ ls, s.access k l (here p) (s.ea k l f ix) 1 1 .append = .ok (ok l)) →
      ∃ (a u t : State), exec (.sealPage f ix) s = .next t ∧ OnlyCaches s a ∧
        (let b := afterRelease f.v f.ag f.st a p
         u = { b with crews := u.crews } ∧ (∀ j, j ≠ k → u.crew j = b.crew j) ∧ Executed p u t ∧
         let ent := fun (l : Nat) =>
           ({ op := .seal (frameOf (ok l)) l, dest := f.x, lc := f.lc.toNat, ser := (b.crew k).nextSer + 1
              pc := here p, va := (s.ea k l f ix).toNat } : QEntry)
         ∃ d, u.crew k = d ∧ Risen (b.crew k) d f.lc ∧
           d = { b.crew k with nextSer := d.nextSer, lcs := d.lcs, queue := (b.crew k).queue ++ ls.map ent }))

namespace Sys2Proof.Claims

/-- Where the elements of a unit go from TAIL on (R227): each at the next multiple of its size. -/
def placed : Nat → List (Nat × List Byte) → List (Nat × Nat × List Byte)
  | _, [] => []
  | t, (l, bs) :: rest =>
    let o := (t + bs.length - 1) / bs.length * bs.length
    (l, o, bs) :: placed (o + bs.length) rest

/-- TAIL after placed elements. -/
def tailAfter (t : Nat) (xs : List (Nat × Nat × List Byte)) : Nat := (xs.getLast?.map fun x => x.2.1 + x.2.2.length).getD t

/-- The result of an append or a seal on its way to a thread. -/
def answer (e : QEntry) (l : Nat) (w : Word) : Flight := { lane := l, dest := e.dest, words := [w], lc := e.lc, ser := e.ser, pc := e.pc }

end Sys2Proof.Claims

/-- R225 to R229, R258, R261: the first request of a crew at its home slice, where its frame is not exchanged and, for an append in a grid
that logs its choices, in its turn of the log. A
request for a frame that is no sinter frame any more stops the context with PROT of its lowest thread. A unit for a sealed frame is
refused. One that does not fit leaves the page and answers 0xFFFFFFFF. Otherwise its elements
lie one after another from TAIL on, each at a multiple of its size, TAIL is the end of the last, bytes between TAIL and an
element are zero, and each thread is answered its offset. A seal seals the frame and is answered TAIL. -/
def Sys2Proof.Claims.HomeSlice : Prop :=
  ∀ (s : State) (h : HomeReq) (i : Nat),
    let k := s.subj.n
    let c := s.crew k
    let rest := listDel s.homeQ i
    let fault := fun (lane : Nat) =>
      ({ cause := 0x09, addr := BitVec.ofNat 64 h.e.va, pc := h.e.pc, lcore := BitVec.ofNat 7 (k / 256 % 128),
         crew := BitVec.ofNat 8 (k % 256), tid := BitVec.ofNat 6 lane } : FaultInfo)
    let gone := fun (lane : Nat) (b t : State) => t = { b with crews := t.crews, ctxs := t.ctxs, adit := t.adit } ∧
      (∀ j, j ≠ k → t.crew j = s.crew j) ∧ t.crew k = { c with lcs := (t.crew k).lcs } ∧
      ((s.ctx (ctxOf k)).st = .on → ∀ m, t.ctx m =
        if m = ctxOf k then { b.ctx m with st := .stopping, pendFault := some (fault lane) } else b.ctx m)
    let taken := { s with homeQ := rest }
    s.clocked = true → s.homeQ.findIdx (·.crew == k) = i → s.homeQ[i]? = some h → s.opHeld h.e.op = false →
    (∀ frame page va elems item, h.e.op = .append frame page va elems item → (∀ e ∈ elems, e.2 ≠ []) → elems ≠ [] →
      let es : List LogEnt := [{ kind := 5, grid := 0, item := BitVec.toNat item, key := va.toNat % 2 ^ 56 }]
      CrewMay s k es →
      ∃ (b t w : State), exec .appendUnit s = .next w ∧ Settles k t w ∧ CrewChose k es taken b ∧ t.homeQ = rest ∧ (∀ j, j ≠ k → t.crew j = s.crew j) ∧
        (sget none s.sinter frame = none → gone ((elems.headD (0, [])).1) b t) ∧
        (let tail := ((sget none s.sinter frame).map (·.tail)).getD 0
         let size := ((sget none s.sinter frame).map (·.size)).getD 0
         let xs := placed tail elems
         let opened : Prop := ∃ x, sget none s.sinter frame = some x ∧ x.sealed = false
         let refused := fun (p : Pulse) =>
           if p.unit = some h.e.ser then { p with refused := p.refused ||| laneSet (elems.map (·.1)) } else p
         ((∃ x, sget none s.sinter frame = some x ∧ x.sealed = true) → t = { b with crews := t.crews } ∧
           t.crew k = { c with lcs := (t.crew k).lcs, held := c.held.map refused }) ∧
         (opened → size < tailAfter tail xs → t = { b with crews := t.crews } ∧
           t.crew k = { c with lcs := (t.crew k).lcs, flights := c.flights ++ elems.map (fun x => answer h.e x.1 0xFFFFFFFF) }) ∧
         (opened → tailAfter tail xs ≤ size → OnlyMemory { b with crews := t.crews, sinter := t.sinter } t ∧
           (∀ f, sget none t.sinter f = if f = frame then some ⟨false, tailAfter tail xs, size⟩ else sget none s.sinter f) ∧
           StoresLand (((Place.dev (frame + tail)), (List.replicate (tailAfter tail xs - tail) 0)) ::
             xs.map fun x => (Place.dev (frame + x.2.1), x.2.2)) b t ∧
           t.crew k = { c with lcs := (t.crew k).lcs
                               flights := c.flights ++ xs.map (fun x => answer h.e x.1 (BitVec.ofNat 32 x.2.1)) }))) ∧
    (∀ frame lane, h.e.op = .seal frame lane →
      ∃ t w : State, exec .sealArrive s = .next w ∧ Settles k t w ∧ (sget none s.sinter frame = none → gone lane taken t) ∧
        ∀ x, sget none s.sinter frame = some x →
          t = { s with homeQ := rest, crews := t.crews, sinter := t.sinter } ∧ (∀ j, j ≠ k → t.crew j = s.crew j) ∧
          (∀ f, sget none t.sinter f = if f = frame then some { x with sealed := true } else sget none s.sinter f) ∧
          t.crew k = { c with lcs := (t.crew k).lcs, flights := c.flights ++ [answer h.e lane (BitVec.ofNat 32 x.tail)] })

/-- R53, R225, R243, R348, R365, R366: a fence is the release of its scopes; a prefetch changes nothing; cwb and cinv, where the home slices
hold no walk of theirs, write the dirty words of the named lines back, and no byte, register or flag changes. That a release or a fence of
one storage class drains the crew's whole store queue is log entry 35. -/
def Sys2Proof.Claims.FencesAndCaches : Prop :=
  ∀ (s : State) (p : Pulse) (f : FmtM) (ix : Word),
    (Ready s p (.fenceInsn f) → MayIssue s p 7 → MayRelease s p (.fenceInsn f) →
      ∃ t, exec (.fenceInsn f) s = .next t ∧ Executed p (s.release p.crew f.ag.toNat f.st) t) ∧
    (Ready s p (.prefetch f ix) → exec (.prefetch f ix) s = .next s) ∧
    (∀ inv : Bool,
      let i : Instr := if inv then .cinv f ix else .cwb f ix
      let gone := fun (e : Nat × Nat) => e.2 = s.dieOf p.crew ∧ e.1 / 32 ∈ s.linesOf p f ix
      Ready s p i → s.opHolds p f ix = [] → ∃ t, exec i s = .next t ∧ t = { s with dirty := t.dirty } ∧ SameBytes s t ∧
        ∀ e, e ∈ t.dirty ↔ e ∈ s.dirty ∧ ¬ gone e)

/-- R238, R241, R243: a release of core scope or wider, of a storage scope that covers memory, leaves nothing of the crew in its
store queue, where no frame exchange holds it (R225) and no append of the crew is on its way (its pulse waits for those: R363); one of device or system scope leaves no word dirty on the crew's die; one of crew scope, or of the typed buffers
alone, changes nothing. The registers, the threads and the masks of every crew stay. -/
def Sys2Proof.Claims.Releases : Prop :=
  ∀ (s : State) (k scope : Nat) (storage : BitVec 2),
    let t := s.release k scope storage
    (scope ≤ 1 ∨ storage = 2 → t = s) ∧
    (¬ (scope ≤ 1 ∨ storage = 2) →
      (let appends := fun (e : QEntry) => ∃ f g v es i, e.op = .append f g v es i
       s.queueHeld k = false → (∀ e ∈ (s.crew k).queue, ¬ appends e) → (∀ h ∈ s.homeQ, h.crew = k → ¬ appends h.e) →
        (s.homeQ.filter (·.crew == k)).length ≤ 1 → (t.crew k).queue = [] ∧ t.onWay k = false) ∧
      (5 ≤ scope → ∀ e ∈ t.dirty, e.2 ≠ s.dieOf k)) ∧
    t.cur = s.cur ∧ ∀ j, SameRegisters { s.crew j with lcs := (t.crew j).lcs } (t.crew j) ∧ (t.crew j).lanes = (s.crew j).lanes

namespace Sys2Proof.Claims

/-! ## Typed buffers -/

/-- The bytes of a buffer access of lane l, 4 or 16 (R354). -/
def bufBytes (f : FmtM) : Nat := if f.v = 1 then 16 else 4

/-- The granules, by key, that the threads of an access name, each once (R177). -/
def namedGranules (ls : List Nat) (at_ : Nat → Nat × Nat) : List Nat :=
  dedup (ls.map fun l => 65536 * (at_ l).1 + (at_ l).2 / 16)

/-- The n bytes of a buffer from an offset on. -/
def bufferBytes (c : LCore) (b o n : Nat) : List Byte := (List.range n).map fun i => sget 0 c.buf (1048576 * b + o + i)

/-- The buffer address of the first poisoned word among n bytes of a buffer, if there is one. -/
def bufferPoison (c : LCore) (b o n : Nat) : Option DWord :=
  ((List.range n).find? fun i => sget false c.pois ((1048576 * b + o + i) / 4)).map fun i =>
    BitVec.ofNat 64 (1048576 * b + (o + i) / 4 * 4)

end Sys2Proof.Claims

/-- R174 to R177, R255, R258, R261, R354, R355: ldb of threads with good buffer addresses reads them once every granule is full, and a take
once every earlier take of them has gone and, in a grid that logs its choices, in its turn of the log; a take empties them. Until then its
pulse stands at the word. That they read when the word runs is the model's choice (log entry 33). -/
def Sys2Proof.Claims.BufferLoads : Prop :=
  ∀ (take : Bool) (s : State) (p : Pulse) (f : FmtM) (ix : Word) (at_ : Nat → Nat × Nat),
    let k := p.crew
    let i : Instr := if take then .ldbTake f ix else .ldbPeek f ix
    let lc := lcOf k
    let n := bufBytes f
    let ls := performing p (isS f.x)
    let gs := namedGranules ls at_
    let seq := if take then some (p.takeSeq.getD (s.lcore lc).nextTake) else none
    let next := if take && p.takeSeq.isNone then (s.lcore lc).nextTake + 1 else (s.lcore lc).nextTake
    let ready : Prop := (∀ g ∈ gs, sget false (s.lcore lc).full g = true) ∧
      ∀ q, seq = some q → s.earlierTake lc gs q = false
    Ready s p i → MayIssue s p f.lc → (∀ l ∈ ls, bufAddr (s.bufWord k l f ix) n = .ok (at_ l)) →
    s.mtxBusy k (some gs) = false →
    let es : List LogEnt := if take then gs.map fun g =>
      { kind := 7, grid := 0, key := g, item := ((s.crew k).lane ((ls.find? fun l => 65536 * (at_ l).1 + (at_ l).2 / 16 == g).getD 0)).item.toNat }
      else []
    (ready → CrewMay s k es →
      ∃ (h a u t : State), exec i s = .next t ∧ CrewChose k es s h ∧ a = { h with lcs := a.lcs, cur := some { p with takeSeq := none } } ∧
        (∀ j, j ≠ lc → a.lcore j = s.lcore j) ∧ a.lcore lc = { s.lcore lc with nextTake := next, full := (a.lcore lc).full } ∧
        (∀ g, sget false (a.lcore lc).full g = if take = true ∧ g ∈ gs then false else sget false (s.lcore lc).full g) ∧
        Executed p u t ∧ ReadIssued a p f.x (n / 4) f.lc (flightsOf s p f.x f.lc ls
          (fun l => loaded false (bufferBytes (s.lcore lc) (at_ l).1 (at_ l).2 n) (n / 4))
          fun l => bufferPoison (s.lcore lc) (at_ l).1 (at_ l).2 n) u) ∧
    (¬ ready → ∃ (a t : State), exec i s = .next t ∧
      a = { s with lcs := a.lcs, cur := some { p with takeSeq := seq, hold := some (match seq with
        | some q => .take gs q
        | none => .granules gs) } } ∧ (∀ j, j ≠ lc → a.lcore j = s.lcore j) ∧
      a.lcore lc = { s.lcore lc with nextTake := next } ∧ Executed p a t)

/-- R174, R176, R177, R354, R356: stb and stb.mark of threads with good buffer addresses write their bytes at once in ascending
thread order; stb.mark also sets the full bits of the granules they touch; the written words are no longer poisoned. No other
byte, full bit, register or memory changes. -/
def Sys2Proof.Claims.BufferStores : Prop :=
  ∀ (mark : Bool) (s : State) (p : Pulse) (f : FmtM) (ix : Word) (at_ : Nat → Nat × Nat),
    let k := p.crew
    let i : Instr := if mark then .stbMark f ix else .stb f ix
    let lc := lcOf k
    let n := bufBytes f
    let ls := performing p (allScalar (f.x :: addrOperands f ix))
    let gs := namedGranules ls at_
    let start := fun l => 1048576 * (at_ l).1 + (at_ l).2
    let wrote := fun (j l : Nat) => decide (start l ≤ j ∧ j < start l + n)
    Ready s p i → MayIssue s p f.lc → (∀ l ∈ ls, bufAddr (s.bufWord k l f ix) n = .ok (at_ l)) →
    s.mtxBusy k (some gs) = false →
    ∃ (u t : State), exec i s = .next t ∧ Executed p u t ∧ u = { s with lcs := u.lcs } ∧
      (∀ j, j ≠ lc → u.lcore j = s.lcore j) ∧
      (let c := s.lcore lc
       let d := u.lcore lc
       d = { c with buf := d.buf, full := d.full, pois := d.pois } ∧
       (∀ j, sget 0 d.buf j = match ls.reverse.find? (wrote j) with
         | some l => (storedBytes s p f n l).getD (j - start l) 0
         | none => sget 0 c.buf j) ∧
       (∀ g, sget false d.full g = (sget false c.full g || (mark && gs.contains g))) ∧
       ∀ w, sget false d.pois w = (sget false c.pois w && (ls.find? (wrote (4 * w))).isNone))

namespace Sys2Proof.Claims

/-! ## Tiles -/

/-- A descriptor that the checks of R181 accept, ungathered or, where the instruction allows it, gathered. -/
def GoodTile (r : LaunchRec) (d : BitVec 128) (gather : Bool) : Prop :=
  let t := tileOf r d
  let b := d.toNat
  t.buf ≠ 0 ∧ b / 2 ^ 59 % 32 = 0 ∧ b / 2 ^ 96 = 0 ∧
  (t.buf = 3 → b / 2 ^ 50 % 8 ≤ 1 ∧ t.layout = false) ∧
  (b / 2 ^ 54 % 2 = 1 → t.layout = false ∧ gather = true) ∧ t.lineGrans ≤ t.pitch ∧
  (b / 2 ^ 54 % 2 = 0 → t.base + (t.lineCount - 1) * t.pitch + t.lineGrans ≤ bufSize t.buf / 16 ∧ t.scaleBeyond = false)

/-- The descriptors that a matrix word names. -/
def named (s : State) (p : Pulse) (i : BitVec 4) : BitVec 128 := sget 0 (s.crew p.crew).t i.toNat

/-- A matrix instruction joins the queue of its partition's unit (R390). -/
def Sent (s : State) (p : Pulse) (o : MtxOp) (reads writes : List Nat) (t : State) : Prop :=
  let lc := lcOf p.crew
  let q := slotOf p.crew % 4
  t = { s with lcs := t.lcs } ∧ (∀ j, j ≠ lc → t.lcore j = s.lcore j) ∧
  t.lcore lc = { s.lcore lc with mtx := (t.lcore lc).mtx } ∧
  ∀ j, sget [] (t.lcore lc).mtx j = if j = q then
    sget [] (s.lcore lc).mtx q ++ [{ op := o, crew := p.crew, pc := here p, tid := Pulse.low p, reads, writes }]
    else sget [] (s.lcore lc).mtx j

/-- Sent once every granule it reads is full; until then its pulse stands at the word (R178, R390). -/
def SentWhenFull (i : Instr) (s : State) (p : Pulse) (o : MtxOp) (reads writes : List Nat) : Prop :=
  ((∀ g ∈ reads, sget false (s.lcore (lcOf p.crew)).full g = true) → ∃ t, exec i s = .next t ∧ Sent s p o reads writes t) ∧
  ((∃ g ∈ reads, sget false (s.lcore (lcOf p.crew)).full g = false) →
    exec i s = .next { s with cur := some { p with hold := some (.granules reads) } })

end Sys2Proof.Claims

/-- R180, R392: tset and tget move a descriptor of the crew from and to four s-registers, lowest bits first; nothing else
changes. -/
def Obligations.Descriptors : Prop :=
  ∀ (s : State) (p : Pulse) (f : FmtT),
    let k := p.crew
    let r := f.flags.toNat % 128
    let old := s.crew k
    (Ready s p (.tset f) → ∃ t, exec (.tset f) s = .next t ∧ OnlyCrew k s t ∧ t.cur = s.cur ∧
      t.crew k = { old with t := (t.crew k).t } ∧
      ∀ j, sget 0 (t.crew k).t j = if j = f.tc.toNat then BitVec.ofNat 128 ((old.sreg r).toNat + 2 ^ 32 * (old.sreg (r + 1)).toNat +
        2 ^ 64 * (old.sreg (r + 2)).toNat + 2 ^ 96 * (old.sreg (r + 3)).toNat) else sget 0 old.t j) ∧
    (Ready s p (.tget f) → ∃ t, exec (.tget f) s = .next t ∧ OnlyCrew k s t ∧ t.cur = s.cur ∧
      t.crew k = { old with s := (t.crew k).s, sPois := (t.crew k).sPois } ∧
      ∀ j, (t.crew k).sreg j = if r ≤ j ∧ j < r + 4 then BitVec.ofNat 32 ((named s p f.tc).toNat / 2 ^ (32 * (j - r))) else old.sreg j)

/-- R178, R181, R390, R393 to R398: tzero, mma, mma.g, tcvt and tadd with operands of the right buffers, formats and shapes are
sent to the matrix unit of their partition once every granule they read is full. -/
def Obligations.MatrixIssue : Prop :=
  ∀ (s : State) (p : Pulse) (f : FmtT),
    let r := s.recOf p.crew
    let lc := s.lcore (lcOf p.crew)
    let dc := named s p f.tc
    let da := named s p f.ta
    let db := named s p f.tb
    let c := tileOf r dc
    let a := tileOf r da
    let b := tileOf r db
    let idx := fun (d : BitVec 128) => sget 0 (s.crew p.crew).t (d.toNat / 2 ^ 55 % 16)
    let slot := fun (d : BitVec 128) => d.toNat / 2 ^ 50 % 8
    let int := fun (e : Nat) => decide (e = 9 ∨ e = 10)
    let usable := fun (d : BitVec 128) => dBuf d ≠ 3 ∧ slot d ≠ 0 ∧ r.slot (slot d) ≠ 0 ∧ slotElem (r.slot (slot d)) ≠ 1
    let elem := fun (d : BitVec 128) => slotElem (r.slot (slot d))
    let acc := f.acc.toNat
    (Ready s p (.tzero f) → dBuf dc = 3 → GoodTile r dc true → ∀ c', gatherTile lc c dc (idx dc) = .ok c' →
      SentWhenFull (.tzero f) s p (.tzero c') c'.idx c'.grans) ∧
    (∀ g : Bool, Ready s p (if g then .mmaG f else .mma f) → usable da → usable db → int (elem da) = int (elem db) →
      (int (elem da) = true → slotScale (r.slot (slot da)) = 0 ∧ slotScale (r.slot (slot db)) = 0) →
      slot dc = (if int (elem da) then 1 else 0) → dBuf dc = 3 → GoodTile r dc g → GoodTile r da g → GoodTile r db false →
      a.cols = b.rows → c.rows = a.rows → c.cols = b.cols → a.rows ≤ 64 → b.cols ≤ 64 → a.cols ≤ 256 →
      ∀ a' c', gatherTile lc a da (idx da) = .ok a' → gatherTile lc c dc (idx dc) = .ok c' →
      SentWhenFull (if g then .mmaG f else .mma f) s p (.mma c' a' b acc (f.flags.extractLsb' 0 2))
        (a'.idx ++ c'.idx ++ a'.reads ++ b.reads ++ (if acc = 1 then [] else c'.reads)) c'.grans) ∧
    (let w := r.slot f.fs.toNat
     let n := if slot dc = 0 then 0 else r.slot (slot dc)
     Ready s p (.tcvt f) → f.fs ≠ 0 → w ≠ 0 → slotElem w = slotElem n → slotScale w = slotScale n → slotScale w ≠ 3 → slotRnd w ≠ 4 →
      dBuf da = 3 → dBuf dc = 2 → GoodTile r dc false → GoodTile r da false → c.rows = a.rows → c.cols = a.cols →
      SentWhenFull (.tcvt f) s p (.tcvt c a w (f.flags.getLsbD 0))
        (a.reads ++ (if slotScale w = 4 then [granKey c.buf c.sbase] else []))
        (c.grans ++ (if slotScale w = 4 then [] else c.scaleGrans))) ∧
    (let inWA : Prop := dBuf da = 1 ∨ dBuf da = 2
     let int32 : Prop := dBuf da = 3 ∧ slot da = 1
     let intElem : Prop := inWA ∧ int (elem da) = true
     Ready s p (.tadd f) → (inWA → slot da ≠ 0 ∧ r.slot (slot da) ≠ 0) →
      (slot dc = 1 → int32 ∨ intElem ∧ slotScale (r.slot (slot da)) = 0) → (slot dc = 0 → ¬ int32 ∧ ¬ intElem) →
      dBuf dc = 3 → GoodTile r dc false → GoodTile r da false → c.rows = a.rows → c.cols = a.cols →
      SentWhenFull (.tadd f) s p (.tadd c a acc (f.flags.getLsbD 0)) (a.reads ++ (if acc = 1 then [] else c.reads)) c.grans)

namespace Sys2Proof.Claims

/-- A byte of the words in which the elements of a tile lie (R181, R264). -/
abbrev Destined (d : Tile) (j : Nat) : Prop :=
  ∃ i ∈ d.lines, let start := 1048576 * d.buf + 16 * (d.base + i * d.pitch)
    start ≤ j ∧ j < start + 4 * ((d.lineLen * d.width + 31) / 32)

end Sys2Proof.Claims

namespace Sys2Proof.Claims

/-- The number in the w bits from bit b on of a line of a typed buffer whose first byte is o, bits counted from bit 0 of that byte (R264). -/
def lineBits (x : LCore) (o b w : Nat) : Nat :=
  ((List.range w).map fun u => if (sget 0 x.buf (o + (b + u) / 8)).getLsbD ((b + u) % 8) then 2 ^ u else 0).sum

/-- The first byte of stored line i of a tile (R181). -/
def lineStart (t : Tile) (i : Nat) : Nat := 1048576 * t.buf + 16 * (t.base + i * t.pitch)

/-- The width of an element, 32 bits in C (R181). -/
def widthOf (t : Tile) : Nat := if t.buf = 3 then 32 else elemBits (slotElem t.fmt)

/-- The scale code of a tile; C has none (R265). -/
def scaleOf (t : Tile) : Nat := if t.buf = 3 then 0 else slotScale t.fmt

/-- The first byte of the scale of block k of stored line i, and the per-tensor scale's (R181). -/
def scaleStart (t : Tile) (i k : Nat) : Nat :=
  1048576 * t.buf + 16 * (t.sbase + if scaleOf t = 4 then 0 else i * t.spitch) + if scaleOf t = 4 then 0 else k

/-- How many elements share a scale (R265). -/
def blockOf (t : Tile) : Nat := if scaleOf t = 1 then 32 else 16

/-- The exact product of two values (R266, R273): NaN of a NaN and of zero with an infinity. -/
def times : FVal → FVal → FVal
  | .nan, _ => .nan
  | _, .nan => .nan
  | .fin a, .fin b => .fin ⟨a.neg != b.neg, a.m * b.m, a.e + b.e⟩
  | .inf a, .inf b => .inf (a != b)
  | .inf a, .fin n | .fin n, .inf a => if n.m = 0 then .nan else .inf (a != n.neg)

/-- The value of a word of C (R180, R263). -/
def wordValue (t : Tile) (w : Word) : FVal := if t.isInt then .fin (Num.ofInt w.toInt 0 false) else f32 w

/-- Element j of stored line i, with its scale (R181, R264 to R266). -/
def lineElem (x : LCore) (t : Tile) (i j : Nat) : FVal :=
  let b := lineBits x (lineStart t i) (widthOf t * j) (widthOf t)
  let v := if t.buf = 3 then wordValue t (BitVec.ofNat 32 b) else fromElem (slotElem t.fmt) b
  let scale := lineBits x (scaleStart t i (j / blockOf t)) 0 (if scaleOf t = 4 then 32 else 8)
  if scaleOf t = 0 then v
  else if scaleOf t = 4 then times v (f32 (BitVec.ofNat 32 scale))
  else if scaleOf t = 3 then times v (e4m3.decode scale)
  else times v (if scale = 255 then .nan else .fin ⟨false, 1, (scale : ℤ) - 127⟩)

/-- Element (i, k) of a tile (R395, R396): of the i-th listed line, or with LAYOUT set element i of line k. -/
def elemOf (x : LCore) (t : Tile) (i k : Nat) : FVal :=
  if t.layout then lineElem x t k i else lineElem x t (t.lines.getD i 0) k

/-- Element j of line r of a C tile. -/
def wordOn (x : LCore) (t : Tile) (r j : Nat) : Word := BitVec.ofNat 32 (lineBits x (lineStart t r) (32 * j) 32)

/-- A tile that the checks of R181 let through: lines that do not overlap, inside the buffer with their scales. -/
def Fits (t : Tile) : Prop :=
  1 ≤ t.buf ∧ t.buf ≤ 3 ∧ t.lineGrans ≤ t.pitch ∧ t.lines.length = t.lineCount ∧ (t.gather ≠ none → t.layout = false) ∧
  (t.buf = 3 → t.layout = false) ∧ ∀ i ∈ t.lines, t.base + i * t.pitch + t.lineGrans ≤ bufSize t.buf / 16 ∧
    (scaleOf t = 4 → t.sbase < bufSize t.buf / 16) ∧
    (scaleOf t = 1 ∨ scaleOf t = 2 ∨ scaleOf t = 3 →
      16 * (t.sbase + i * t.spitch) + (t.lineLen + blockOf t - 1) / blockOf t ≤ bufSize t.buf)

/-- A byte in which an element of the tile lies. -/
def InLines (t : Tile) (n : Nat) : Prop :=
  ∃ i ∈ t.lines, lineStart t i ≤ n ∧ n < lineStart t i + (t.lineLen * widthOf t + 7) / 8

/-- A byte of a block scale of the tile. -/
def InScales (t : Tile) (n : Nat) : Prop :=
  (scaleOf t = 1 ∨ scaleOf t = 2) ∧ ∃ i ∈ t.lines, ∃ k, k < (t.lineLen + blockOf t - 1) / blockOf t ∧ n = scaleStart t i k

/-- A granule that a byte of the elements lies in. -/
def InGranules (t : Tile) (g : Nat) : Prop := ∃ n, InLines t n ∧ n / 16 = g

/-- The sum s of one chunk of products (R273). -/
def ChunkSum (ps : List FVal) (s : Word) : Prop :=
  let nan : Prop := .nan ∈ ps ∨ .inf false ∈ ps ∧ .inf true ∈ ps
  (nan → s = canonical) ∧ (¬ nan → ∀ neg, .inf neg ∈ ps → s = infOf neg) ∧
  ∀ ns : List Machine.Num, ps = ns.map .fin →
    ((∀ n ∈ ns, n.m = 0) → s = 0) ∧
    ∀ E : ℤ, (∃ n ∈ ns, (2 : ℚ) ^ E ≤ |value n|) → (∀ n ∈ ns, |value n| < (2 : ℚ) ^ (E + 1)) →
      let g : ℚ := (2 : ℚ) ^ (E - 36)
      let sum : ℚ := (ns.map fun n => (if n.neg then -1 else 1) * (⌊|value n| / g⌋ : ℚ) * g).sum
      ∃ fl, Rounded fp32 true 0 0 sum (decide (sum < 0)) (s.toNat, fl)

/-- The flag of a matrix result (R272, R399): NV of a NaN, OF of an infinity that finite values gave. -/
def matrixFlag (r : Word) (from_ : List FVal) : BitVec 4 :=
  match f32 r with
  | .nan => flNV
  | .inf _ => if from_.all fun v => v.finite then flOF else 0
  | .fin _ => 0

/-- An FP32 element after its products, l of them to a chunk, in ascending order (R273). -/
def chunked (l : Nat) (c : Word) (ps : List FVal) : Word × BitVec 4 :=
  (ps.toChunks l).foldl (fun x ch =>
    let r := BitVec.ofNat 32 (fp32.add (f32 x.1) (f32 (chunkSum ch))).1
    (r, x.2 ||| matrixFlag r (f32 x.1 :: ch))) (c, 0)

/-- What the matrix unit writes: the bytes of the destination and its scales, whose words lose their poison, and full bits. -/
def TilesOnly (d : Tile) (x y : LCore) : Prop :=
  y = { x with buf := y.buf, full := y.full, pois := y.pois } ∧
  (∀ n, ¬ InLines d n → ¬ InScales d n → sget 0 y.buf n = sget 0 x.buf n) ∧
  ∀ w, sget false y.pois w = true → sget false x.pois w = true

end Sys2Proof.Claims

/-- R272, R273: a product's chunk and the accumulation of a float element: the products of a chunk truncated to multiples of 2^(E-36),
summed and rounded once, and added to the element, chunk after chunk; a float element reads negated products for acc 2. -/
def Sys2Proof.Claims.ChunkRule : Prop :=
  (∀ ps, ChunkSum ps (chunkSum ps)) ∧
  (∀ x y : FVal, (x.mulExact y).1 = times x y) ∧
  ∀ (l acc : Nat) (c : Word) (xs ys : List FVal), 0 < l →
    accumElem false l acc c xs ys =
      chunked l c ((xs.zip ys).map fun z => if acc = 2 then (times z.1 z.2).neg else times z.1 z.2)

/-- R273, R395, R396: mma and mma.g. Each row of A in ascending order is accumulated with every column of B into its line of C, which
starts from zero for acc 1; the granules of C become full, those of A and B empty where the flags say so. -/
def Sys2Proof.Claims.ProductResults : Prop :=
  ∀ (x : LCore) (c a b : Tile) (acc : Nat) (e : BitVec 2),
    Fits c → Fits a → Fits b → c.buf = 3 → a.buf ≠ 3 → b.buf ≠ 3 → b.gather = none → a.cols = b.rows → c.rows = a.rows →
    c.cols = b.cols →
    let y := (MtxOp.mma c a b acc e).perform x
    let bits := fun (t : Tile) => elemBits (slotElem t.fmt)
    let l := if bits a = 16 ∨ bits b = 16 then 16 else if bits a = 4 ∧ bits b = 4 then 64 else 32
    let line := fun i => c.lines.getD i 0
    let step := fun j w i => accumElem c.isInt l acc w ((List.range a.cols).map (elemOf x a i))
      ((List.range b.rows).map fun k => elemOf x b k j)
    let after := fun n r j => ((List.range n).filter fun i => line i = r).foldl (fun w i => (step j w i).1)
      (if acc = 1 then 0 else wordOn x c r j)
    TilesOnly c x y.1 ∧
    (∀ r ∈ c.lines, ∀ j, j < c.cols → wordOn y.1 c r j = after c.rows r j) ∧
    (∀ u, y.2.getLsbD u = true ↔
      ∃ i j, i < c.rows ∧ j < c.cols ∧ (step j (after i (line i) j) i).2.getLsbD u = true) ∧
    ∀ g, sget false y.1.full g = true ↔ InGranules c g ∨ ¬ (e.getLsbD 0 = true ∧ InGranules a g) ∧
      ¬ (e.getLsbD 1 = true ∧ InGranules b g) ∧ sget false x.full g = true

/-- R268 to R270, R397: tcvt. Each word of C is converted through the slot, by itself, with the scale of its block, which is written, or
with the per-tensor scale, which is read; NV and OF as the conversion gives them. -/
def Sys2Proof.Claims.ConversionResults : Prop :=
  ∀ (x : LCore) (d t : Tile) (slot : Word) (e : Bool),
    Fits d → Fits t → t.buf = 3 → t.gather = none → d.buf = 2 → d.gather = none → d.rows = t.rows → d.cols = t.cols →
    slotElem d.fmt = slotElem slot → slotScale d.fmt = slotScale slot → slotScale slot ≠ 3 →
    (∀ n, InScales d n → ¬ InLines d n) → (d.lineLen + blockOf d - 1) / blockOf d ≤ 16 * d.spitch →
    let y := (MtxOp.tcvt d t slot e).perform x
    let word := fun q p => if d.layout then wordOn x t p q else wordOn x t q p
    let v := fun q p => wordValue t (word q p)
    let conv := fun (v : FVal) (w : Word) =>
      let r := toElem (slotElem slot) (slotOvf slot) (slotRnd slot) (slotNanp slot) 0 v (w.getLsbD 31) (w.toNat % 2 ^ 23)
      ((r.1 % 2 ^ widthOf d, r.2 &&& (flNV ||| flOF)) : Nat × BitVec 4)
    let emax : Nat → ℤ := fun z => if z = 4 then 8 else if z = 5 then 15 else if z = 6 then 4 else if z = 9 then 6 else 2
    let near := fun p p' => p' < d.lineLen ∧ p' / blockOf d = p / blockOf d
    let s := f32 (BitVec.ofNat 32 (lineBits x (scaleStart d 0 0) 0 32))
    ∃ new : Nat → Nat → Nat × BitVec 4,
      (∀ q p, q < d.lineCount → p < d.lineLen →
        lineBits y.1 (lineStart d q) (widthOf d * p) (widthOf d) = (new q p).1 ∧
        (slotScale slot = 0 → new q p = conv (v q p) (word q p)) ∧
        (slotScale slot = 1 ∨ slotScale slot = 2 →
          let scale := lineBits y.1 (scaleStart d q (p / blockOf d)) 0 8
          ((∃ p', near p p' ∧ (v q p').finite = false) → scale = 0xFF ∧ new q p = (0, flNV)) ∧
          (∀ num : Nat → Machine.Num, (∀ p', near p p' → v q p' = .fin (num p')) →
            ∃ X : ℤ, scale = X + 127 ∧ new q p = conv (.fin ⟨(num p).neg, (num p).m, (num p).e - X⟩) (word q p) ∧
              ((∀ p', near p p' → (num p').m = 0) → X = 0) ∧
              ∀ E : ℤ, (∃ p', near p p' ∧ (2 : ℚ) ^ E ≤ |value (num p')|) → (∀ p', near p p' → |value (num p')| < (2 : ℚ) ^ (E + 1)) →
                X = max (-127) (min 127 (E - emax (slotElem slot))))) ∧
        (slotScale slot = 4 →
          ((∀ n, s = .fin n → n.m = 0) → new q p = conv .nan canonical) ∧
          (∀ n, s = .fin n → n.m ≠ 0 →
            (v q p = .nan → new q p = conv .nan (word q p)) ∧
            (∀ neg, v q p = .inf neg → new q p = conv (.inf (neg != n.neg)) (word q p)) ∧
            (∀ m, v q p = .fin m → m.m = 0 → new q p = conv (.fin ⟨m.neg != n.neg, 0, 0⟩) (word q p)) ∧
            (∀ m f, v q p = .fin m → m.m ≠ 0 → fmtOf (slotElem slot) = some f → ∃ r, new q p = (r.1, r.2 &&& flOF) ∧
              Rounded f (slotOvf slot) (slotRnd slot) 0 ((value m / value n : ℚ) : ℝ) (m.neg != n.neg) r)))) ∧
      (∀ q b, q < d.lineCount → d.lineLen * widthOf d ≤ b → b < 8 * ((d.lineLen * widthOf d + 7) / 8) →
        lineBits y.1 (lineStart d q) b 1 = lineBits x (lineStart d q) b 1) ∧
      (∀ u, y.2.getLsbD u = true ↔ ∃ q p, q < d.lineCount ∧ p < d.lineLen ∧ (new q p).2.getLsbD u = true) ∧
      TilesOnly d x y.1 ∧
      ∀ g, sget false y.1.full g = true ↔ InGranules d g ∨ (∃ n, InScales d n ∧ n / 16 = g) ∨
        ¬ (e = true ∧ InGranules t g) ∧ sget false x.full g = true

/-- R397, R398: tadd. Each element of the source, read before anything is written, is added to the word of C, replaces it for acc 1, or is
subtracted from it: the exact sum rounded once, or modulo 2^32. -/
def Sys2Proof.Claims.SumResults : Prop :=
  ∀ (x : LCore) (d t : Tile) (acc : Nat) (e : Bool),
    Fits d → Fits t → d.buf = 3 → t.gather = none → d.gather = none → d.rows = t.rows → d.cols = t.cols →
    let y := (MtxOp.tadd d t acc e).perform x
    let r := fun i j => wordOn y.1 d i j
    let terms := fun i j => (if acc = 1 then [] else [f32 (wordOn x d i j)]) ++
      [if acc = 2 then (elemOf x t i j).neg else elemOf x t i j]
    TilesOnly d x y.1 ∧
    (∀ i j, i < d.rows → j < d.cols →
      (d.isInt = true → ∀ n (z : ℤ), elemOf x t i j = .fin n → 0 ≤ n.e → value n = z → r i j = BitVec.ofInt 32
        (if acc = 1 then z else if acc = 2 then (wordOn x d i j).toInt - z else (wordOn x d i j).toInt + z)) ∧
      (d.isInt = false →
        let nan : Prop := .nan ∈ terms i j ∨ .inf false ∈ terms i j ∧ .inf true ∈ terms i j
        (nan → r i j = canonical) ∧ (¬ nan → ∀ neg, .inf neg ∈ terms i j → r i j = infOf neg) ∧
        ∀ ns : List Machine.Num, terms i j = ns.map .fin → ∃ neg fl,
          let sum : ℚ := (ns.map value).sum
          (sum < 0 → neg = true) ∧ (0 < sum → neg = false) ∧ (sum = 0 → (neg = true ↔ ∀ n ∈ ns, n.neg = true ∧ n.m = 0)) ∧
          Rounded fp32 true 0 0 sum neg ((r i j).toNat, fl))) ∧
    (∀ u, y.2.getLsbD u = true ↔ d.isInt = false ∧
      ∃ i j, i < d.rows ∧ j < d.cols ∧ (matrixFlag (r i j) (terms i j)).getLsbD u = true) ∧
    ((∀ g, InGranules d g → ¬ InGranules t g) →
      ∀ g, sget false y.1.full g = true ↔ InGranules d g ∨ ¬ (e = true ∧ InGranules t g) ∧ sget false x.full g = true)

/-- R390, R399: the oldest matrix instruction of a partition, whose unit owes no retest, is performed: with no poisoned word
among what it reads, on the buffers, and its flags reach the crew's status word; otherwise its context stops with POISON at the
buffer address, and only the words of its destination become undefined. -/
def Sys2Proof.Claims.MatrixUnits : Prop :=
  ∀ (s : State) (m : MtxCmd) (rest : List MtxCmd),
    let lc := s.subj.n
    let q := s.subj.m
    let c := s.lcore lc
    s.clocked = true → sget 0 s.health.retest (4 * s.physOf (s.siteOf lc) + q) = 0 → sget [] c.mtx q = m :: rest →
    lcOf m.crew = lc →
    ∃ b t, exec .matrixComplete s = .next t ∧ b = { c with mtx := b.mtx } ∧
      (∀ j, sget [] b.mtx j = if j = q then rest else sget [] c.mtx j) ∧ (∀ j, j ≠ lc → t.lcore j = s.lcore j) ∧
      (c.granPoison m.reads = none →
        let r := m.op.perform b
        t = { s with lcs := t.lcs, crews := t.crews } ∧ t.lcore lc = r.1 ∧ ∀ k, t.crew k =
          if k = m.crew then { s.crew k with status := (s.crew k).status ||| r.2.setWidth 32 } else s.crew k) ∧
      (∀ a, c.granPoison m.reads = some a → (s.ctx (ctxOf m.crew)).st = .on →
        t = { s with lcs := t.lcs, ctxs := t.ctxs, adit := t.adit } ∧
        t.lcore lc = { b with buf := (t.lcore lc).buf, pois := (t.lcore lc).pois } ∧
        (∀ j, ¬ Destined m.op.dest j → sget 0 (t.lcore lc).buf j = sget 0 b.buf j) ∧
        (∀ w, sget false (t.lcore lc).pois w = (sget false b.pois w && !decide (Destined m.op.dest (4 * w)))) ∧
        let f : FaultInfo := { cause := 0x0B, addr := a, pc := m.pc, lcore := BitVec.ofNat 7 (m.crew / 256 % 128)
                               crew := BitVec.ofNat 8 (m.crew % 256), tid := BitVec.ofNat 6 m.tid }
        ∀ n, t.ctx n = if n = ctxOf m.crew then { s.ctx n with st := .stopping, pendFault := some f } else s.ctx n)

/-- R266, R268 to R273, R390, R395 to R399: a matrix instruction ends, and what mma, mma.g, tcvt and tadd compute. -/
def Obligations.MatrixCompletes : Prop := MatrixUnits ∧ ChunkRule ∧ ProductResults ∧ ConversionResults ∧ SumResults

/-- R273, R395: an INT32 element of C after a product is the exact sum of the old element and the products of the integer
elements, subtracted for acc 2, modulo 2^32, whatever the order of the products; the elements are INT8 and INT4 codes. -/
def Obligations.IntegerProducts : Prop :=
  ∀ (l acc : Nat) (c : Word) (ea eb : Nat) (xs ys : List Nat), (ea = 9 ∨ ea = 10) → (eb = 9 ∨ eb = 10) →
    let signed := fun (e x : Nat) => (if e = 9 then (BitVec.ofNat 8 x).toInt else (BitVec.ofNat 4 x).toInt : Int)
    let sum := ((xs.zip ys).map fun z => signed ea z.1 * signed eb z.2).sum
    accumElem true l acc c (xs.map (fromElem ea)) (ys.map (fromElem eb)) =
      (BitVec.ofInt 32 (if acc = 2 then c.toInt - sum else c.toInt + sum), 0)

/-- R176, R393, R395: after tzero the tile's elements read zero and its granules are full; no byte outside the tile's lines
changes. -/
def Obligations.TileZero : Prop :=
  ∀ (x : LCore) (c : Tile),
    let y := x.doTzero c
    let line := fun (i j : Nat) => decide (3 * 1048576 + 16 * (c.base + i * c.pitch) ≤ j ∧
      j < 3 * 1048576 + 16 * (c.base + i * c.pitch) + 4 * c.cols)
    y = { x with buf := y.buf, full := y.full, pois := y.pois } ∧
    (∀ j, sget 0 y.buf j = if c.lines.any (line · j) then 0 else sget 0 x.buf j) ∧
    (c.buf = 3 → c.layout = false → ∀ g ∈ c.grans, sget false y.full g = true)

namespace Sys2Proof.Claims

/-! ## Engine commands -/

/-- The nine command words: fields, command, kind of its engine context (R402). -/
def commandForm : Instr → Option (FmtE × CmdOp × EcKind)
  | .gxRun f => some (f, .gx, .geyser)
  | .seGather f => some (f, .gather, .stream)
  | .seIsect f => some (f, .isect, .stream)
  | .seCopy f => some (f, .copy, .stream)
  | .seMcast f => some (f, .mcast, .stream)
  | .ceBuild f => some (f, .build, .coord)
  | .ceLookup f => some (f, .lookup, .coord)
  | .ceDown f => some (f, .down, .coord)
  | .ceProbe f => some (f, .probe, .coord)
  | _ => none

/-- The s-register pair that a field of an engine word names receives a value; code 0 names none (R401). -/
def WrotePair? (k : Nat) (b : BitVec 8) (x : DWord) (s t : State) : Prop := if b = 0 then t = s else WrotePair k b x s t

/-- An engine context of a logical core changes, and nothing else of the machine. -/
def EcBecomes (lc e : Nat) (x : Ec) (s t : State) : Prop :=
  t = { s with lcs := t.lcs } ∧ (∀ j, j ≠ lc → t.lcore j = s.lcore j) ∧ t.lcore lc = { s.lcore lc with ecs := (t.lcore lc).ecs } ∧
  ∀ i, (t.lcore lc).ec i = if i = e then x else (s.lcore lc).ec i

end Sys2Proof.Claims

/-- R182, R183, R391, R401, R402: a command with an aligned record for an engine context of its kind with room takes the next
number, writes it to its destination, performs its release of die scope, and enters the queue last; its grid counts it as
unretired, its crew as unaccepted. For a context of another kind it takes its number, and the engine context fails with
TSHAPE. Without room its pulse stands at the word; a queue counts a command from its issue to its completion (log entry 46). -/
def Obligations.EngineCommands : Prop :=
  ∀ (i : Instr) (s : State) (p : Pulse) (f : FmtE) (op : CmdOp) (kind : EcKind),
    let k := p.crew
    let lc := lcOf k
    let e := f.ec.toNat
    let x := (s.lcore lc).ec e
    let base := s.src64 k 0 f.a
    commandForm i = some (f, op, kind) → Ready s p i → Settled s p → base.toNat % 64 = 0 → s.mtxBusy k none = false →
    (x.kind = kind → s.engineRoom lc e = true →
      ∃ a b t, exec i s = .next t ∧ WrotePair? k f.b (x.issued + 1) s a ∧ EcBecomes lc e { x with issued := x.issued + 1 } a b ∧
        (let u := b.release k 4
         let c := u.crew k
         let y := (u.lcore lc).ec e
         let cmd : Cmd := { op, num := (x.issued + 1).toNat, raddr := base, crew := k, serial := c.serial, grid := c.grid,
                            pc := here p, arrival := u.arrival }
         EcBecomes lc e { y with cmds := y.cmds ++ [cmd] } u { u with lcs := t.lcs } ∧
         t = { u with lcs := t.lcs, crews := t.crews, grids := t.grids, arrival := u.arrival + 1 } ∧
         (∀ j, j ≠ k → t.crew j = u.crew j) ∧ t.crew k = { c with unaccepted := c.unaccepted + 1 } ∧
         ∀ g, t.grid g = if g = c.grid then (u.grid g).map fun z => { z with unretired := z.unretired + 1 } else u.grid g)) ∧
    (x.kind ≠ kind → (s.ctx (ctxOf k)).st = .on →
      ∃ a b t, exec i s = .next t ∧ WrotePair? k f.b (x.issued + 1) s a ∧
        EcBecomes lc e { x with issued := x.issued + 1, err := true } a b ∧ t = { b with ctxs := t.ctxs, adit := t.adit } ∧
        (let f : FaultInfo := { cause := 4, addr := base, lcore := BitVec.ofNat 7 (lc % 128) }
         ∀ n, t.ctx n = if n = lc / 128 then { s.ctx n with st := .stopping, pendFault := some f } else s.ctx n)) ∧
    (x.kind = kind → s.engineRoom lc e = false →
      exec i s = .next { s with cur := some { p with hold := some (.engine e) } })

/-- R182, R391, R404, R405: ec.bind gives an idle engine context its kind, and for a guest kind a guest queue that is enabled,
of the context and not bound elsewhere; the queue it leaves is free again. A context that is not idle holds the pulse.
ec.read, ec.read.issued and ec.read.state write the count, the last number, and the kind, error and bound queue. -/
def Sys2Proof.Claims.EngineContexts : Prop :=
  ∀ (s : State) (p : Pulse) (f : FmtE),
    let k := p.crew
    let lc := lcOf k
    let e := f.ec.toNat
    let x := (s.lcore lc).ec e
    let q := (s.src k 0 f.a).toNat % 16
    let boundTo := fun (j : Nat) => x.gq = some j ∧ (s.gq j).bound = some (lc, e)
    let kind : EcKind := match f.flags.toNat with
      | 0 => .unbound
      | 1 => .geyser
      | 2 => .stream
      | 3 => .coord
      | _ => .guest
    s.mtxBusy k none = false →
    (Ready s p (.ecBind f) → x.count = x.issued →
      (kind = .guest → (s.gq q).en = true ∧ (s.gq q).ctx.toNat = ctxOf k ∧ ∀ b, (s.gq q).bound = some b → b = (lc, e)) →
      ∃ (a t : State), exec (.ecBind f) s = .next t ∧ a = { s with adit := a.adit } ∧ a.adit = { s.adit with gqs := a.adit.gqs } ∧
        EcBecomes lc e { x with kind, gq := if kind = .guest then some q else none } a t ∧
        ∀ j, a.gq j = if kind = .guest ∧ j = q then { s.gq j with bound := some (lc, e) }
          else if boundTo j then { s.gq j with bound := none } else s.gq j) ∧
    (Ready s p (.ecBind f) → x.count ≠ x.issued → exec (.ecBind f) s = .next { s with cur := some { p with hold := some (.ecIdle e) } }) ∧
    (Ready s p (.ecRead f) → ∃ t, exec (.ecRead f) s = .next t ∧ WrotePair? k f.a x.count s t) ∧
    (Ready s p (.ecReadIssued f) → ∃ t, exec (.ecReadIssued f) s = .next t ∧ WrotePair? k f.a x.issued s t) ∧
    (∀ j, Ready s p (.ecReadState f) → (x.kind = .guest → boundTo j ∨ ((∀ i, ¬ boundTo i) ∧ j = 0)) →
      ∃ t, exec (.ecReadState f) s = .next t ∧
      WrotePair? k f.a (BitVec.ofNat 64 ((match x.kind with
        | .unbound => 0
        | .geyser => 1
        | .stream => 2
        | .coord => 3
        | .guest => 4 + 32 * j) + if x.err then 16 else 0)) s t)

namespace Sys2Proof.Claims

/-- A packet as the device writes it (R69, R70): OPC and ORD of the image with the packet's valid bit, the PASID, the place of
the engine context, zero, the command's number, and the image's last 40 bytes. -/
def packet (image : List Byte) (pasid : BitVec 20) (lcore ec : Nat) (num : DWord) : List Byte :=
  let first := ((List.range 4).map fun i => (image.getD i 0).toNat * 256 ^ i).sum
  wordLe (BitVec.ofNat 32 (first % 1024 + 65536)) ++ wordLe (BitVec.ofNat 32 pasid.toNat) ++
    wordLe (BitVec.ofNat 32 (lcore + 256 * ec)) ++ wordLe 0 ++
    (List.range 8).map (fun i => BitVec.ofNat 8 (num.toNat / 256 ^ i)) ++ image.drop 24

end Sys2Proof.Claims

/-- R67, R69 to R71, R403: gq.submit to a bound guest queue that runs and has room takes the next number, performs its release
of device scope, writes the packet into its slot and WIDX after it, rings the doorbell unless the guest has been asked to stop,
and writes the number to its destination; where the queue does not run, is full or is bound elsewhere it writes zero and does nothing
else but cache translations. The packets of a queue that a program has written to are undefined (R67; log entry 81). That the accesses of
the queue are the crew's is log entry 25, and that the doorbell rings unless the queue was asked to stop before the release 41. -/
def Sys2Proof.Claims.GuestSubmit : Prop :=
  ∀ (s : State) (p : Pulse) (f : FmtE) (hs : List Hit) (image : List Byte),
    let k := p.crew
    let lc := lcOf k
    let e := f.ec.toNat
    let x := (s.lcore lc).ec e
    let base := s.src64 k 0 f.a
    let l := Pulse.low p
    let q := x.gq.getD 0
    let g := s.gq q
    let slot := 128 + 64 * (g.widx % 2 ^ g.sz.toNat)
    let ready : Prop := g.st = .run ∧ g.bound = some (lc, e) ∧ g.widx - g.ridx < 2 ^ g.sz.toNat
    Ready s p (.gqSubmit f) → Settled s p → base.toNat % 64 = 0 → s.mtxBusy k none = false → x.kind = .guest →
    RecordReads s p f.a 64 hs image →
    ∃ a : State, s.readCrewRec p 0 base 64 = .ok a image ∧ OnlyCaches s a ∧
    (¬ ready → ∃ (w t : State), exec (.gqSubmit f) s = .next t ∧ WrotePair? k f.b 0 a w ∧ Executed p w t) ∧
    (ready → ∀ hp hw : Hit, a.access k l (here p) (g.gqva + BitVec.ofNat 64 slot) 64 64 .write = .ok hp →
       a.access k l (here p) g.gqva 8 8 .write = .ok hw → Whole a hp.pl 64 → Whole a hw.pl 8 → ReadsGo a p 64 [hp, hw] →
       ∃ (b c v w t : State), exec (.gqSubmit f) s = .next t ∧ OnlyCaches a b ∧ EcBecomes lc e { x with issued := x.issued + 1 } b c ∧
        (let u := c.release k 5
         let g' := u.gq q
         let bell : List GuestMsg := if g.asked.isSome then [] else
           [{ ty := 1, q := BitVec.ofNat 4 q, z1 := 0, tag := 0, pasid := 0, all := 0, w := 0, st := 0, psz := 0, cls := 0, z2 := 0
              arg := BitVec.ofNat 64 (g.widx + 1) }]
         let pkt := packet image (s.ctx (ctxOf k)).pasid (lcNum k) e (x.issued + 1)
         let widx := (List.range 8).map fun i => BitVec.ofNat 8 ((g.widx + 1) / 256 ^ i)
         OnlyMemory { u with adit := v.adit } v ∧
         (g.torn = false → StoresLand [(hp.pl, pkt), (hw.pl, widx)] u v) ∧
         (g.torn = true → ∀ pl, byteOf hp.pl pkt pl = none → v.placeByte pl = (byteOf hw.pl widx pl).getD (u.placeByte pl)) ∧
         v.adit = { u.adit with gqs := v.adit.gqs, toGuest := u.adit.toGuest ++ bell } ∧
         (∀ j, v.gq j = if j = q then { g' with widx := g'.widx + 1, seqs := g'.seqs ++ [x.issued + 1] } else u.gq j) ∧
         WrotePair? k f.b (x.issued + 1) v w ∧ Executed p w t))

namespace Sys2Proof.Claims

/-! ## Engines -/

/-- A command of an engine context fails (R201): what it wrote is undefined, its error bit is set, and the context stops with
the cause and its address; nothing else changes. -/
def EngineFails (lc e : Nat) (c : Cause) (addr : DWord) (v t : State) : Prop :=
  t = { v with lcs := t.lcs, ctxs := t.ctxs, adit := t.adit } ∧
  EcBecomes lc e { (v.lcore lc).ec e with err := true } v { v with lcs := t.lcs } ∧
  ((v.ctx (lc / 128)).st = .on →
    let f : FaultInfo := { cause := BitVec.ofNat 8 c.code, addr, lcore := BitVec.ofNat 7 (lc % 128) }
    ∀ n, t.ctx n = if n = lc / 128 then { v.ctx n with st := .stopping, pendFault := some f } else v.ctx n)

/-- The commands of an engine context change by their number, and nothing else. -/
def CmdBecomes (lc e num : Nat) (f : Cmd → Cmd) (s t : State) : Prop :=
  let x := (s.lcore lc).ec e
  EcBecomes lc e { x with cmds := x.cmds.map fun (c : Cmd) => if c.num = num then f c else c } s t

/-- A command waits for a page (R200, R212): its record or its request is open, and it is suspended. -/
def Suspends (lc e : Nat) (c : Cmd) (key : Nat × Bool) (r : Option FaultRec) (ats : Option (Nat × FaultRec)) (wrote : List Touch)
    (s t : State) : Prop :=
  ∃ v : State, v = { s with ctxs := v.ctxs, ats := v.ats, walks := v.walks, misses := v.misses } ∧ SameWalks s v ∧
    (∀ x, r = some x → ∃ y ∈ (v.ctx (lc / 128)).recs, y.va = x.va ∧ y.write = x.write) ∧
    (∀ a, ats = some a → ∃ q ∈ v.ats, q.ctx = lc / 128 ∧ q.addr = a.1) ∧
    CmdBecomes lc e c.num (fun d => { d with susp := some key, wrote := (wrote ++ d.wrote).eraseDups }) v t

/-- The line of a merge reaches W of each command that joined (R193): its 128 bytes with their poison, its granules full; it counts as done. -/
def LinesReach (s : State) (m : Merge) : List (Nat × Nat × Nat × Nat) → State → State → Prop
  | [], a, b => b = a
  | (lc, e, num, k) :: js, a, b => ∃ d : State, LinesReach s m js d b ∧
      match ((a.lcore lc).ec e).cmds.find? (·.num == num) with
      | none => d = a
      | some c =>
        let off := 16 * (field c.bytes 12 2 + 8 * k)
        let at_ := 1048576 + off
        let x := a.lcore lc
        let y := d.lcore lc
        d = { a with lcs := d.lcs, sites := d.sites } ∧ OnlyCounts a d ∧ (∀ j, j ≠ lc → d.lcore j = a.lcore j) ∧
        y = { x with buf := y.buf, full := y.full, pois := y.pois, ecs := y.ecs } ∧
        (∀ o, sget 0 y.buf o = if at_ ≤ o ∧ o < at_ + 128 then s.leafByte m.line (o - at_) else sget 0 x.buf o) ∧
        (∀ g, sget false y.full g = (sget false x.full g || decide (at_ / 16 ≤ g ∧ g < at_ / 16 + 8))) ∧
        (∀ w, sget false y.pois w = if at_ / 4 ≤ w ∧ w < at_ / 4 + 32 then
          (List.range 4).any fun i => s.hitPois m.line (4 * (w - at_ / 4) + i) else sget false x.pois w) ∧
        ∀ i, y.ec i = let z := x.ec i
          if i = e then { z with cmds := z.cmds.map fun (q : Cmd) => if q.num = num then
            { q with done := q.done + 1, wrote := .buf 1 off 128 :: q.wrote } else q } else z

/-- A command is the one at the head of its engine context that may run, and the clocks run (R184). -/
def Running (s : State) (lc e : Nat) (c : Cmd) : Prop :=
  s.clocked = true ∧ s.headCmd lc e = some c

end Sys2Proof.Claims

/-- R183, R185, R200, R201: the oldest command not yet accepted of an engine context whose engines run: its 64 bytes, once they
pass the checks of its record, are kept with it, and its crew has one fewer unaccepted; a record that fails a check fails the
engine context; an absent page suspends it. A multicast that is first in the queue then requests its lines. -/
def Sys2Proof.Claims.EngineAccepts : Prop :=
  ∀ (s : State) (c : Cmd),
    let lc := s.subj.n
    let e := s.subj.m
    let x := (s.lcore lc).ec e
    let r := (acceptCmd (s.agent lc e c) c).run { s }
    s.clocked = true → s.enginesRun lc = true → x.err = false →
    x.cmds.find? (fun c => !c.accepted && c.susp.isNone) = some c →
    (∀ bs y, r = .ok (bs, y) → ∃ (a b t : State), exec .engineAccept s = .next t ∧ OnlyCaches s y.s ∧
      (c.raddr.toNat < 2 ^ 56 ∧ bs.length = 64) ∧
      CmdBecomes lc e c.num (fun c => { c with accepted := true, bytes := bs }) y.s a ∧
      b = { a with crews := b.crews } ∧ (∀ k, b.crew k = if k = c.crew ∧ (s.crew k).serial = c.serial then
        { s.crew k with unaccepted := (s.crew k).unaccepted - 1 } else s.crew k) ∧ t = b.mcastStart lc e) ∧
    (∀ u wrote cause addr, r = .error (.fail u wrote cause addr) →
      ∃ t, exec .engineAccept s = .next t ∧ EngineFails lc e cause addr (u.spoilCmd lc e c.num wrote) t) ∧
    (∀ key q ats wrote, r = .error (.susp key q ats wrote) →
      ∃ t, exec .engineAccept s = .next t ∧ Suspends lc e c key q ats wrote s t)

namespace Sys2Proof.Claims

/-- One act of an engine: bytes read with their poison, bytes read to compute on, bytes written, a buffer row filled, a stretch of C
copied out once its granules are full, a row counted, a table found, a table written, the sinter pages of an area and those of them with
room, a pair appended, the address of the next pair, and a page sealed. -/
inductive EngAct where
  | read (va n : Nat) (bs : List Byte) (po : List Nat)
  | val (va n : Nat) (bs : List Byte)
  | write (va : Nat) (bs : List Byte)
  | fill (b off : Nat) (bs : List Byte) (po : List Nat)
  | copyOut (gran n va : Nat)
  | row
  | find (desc : Nat) (t : Table)
  | table (desc cap spill : Nat) (keys : List (Nat × Nat))
  | area (base n : Nat) (pages : List (Nat × Nat × Nat))
  | room (pages left : List (Nat × Nat × Nat))
  | append (i j : Nat) (pages left : List (Nat × Nat × Nat))
  | tail (stop : Nat) (pages : List (Nat × Nat × Nat)) (va : Nat)
  | seal (frame : Nat)

/-- What one act does. -/
def EngAct.Does (a : Agent) (x y : EngSt) : EngAct → Prop
  | .read va n bs po => (engRead a va n).run x = .ok ((bs, po), y)
  | .val va n bs => (engVal a va n).run x = .ok (bs, y)
  | .write va bs => (engWrite a va bs).run x = .ok ((), y)
  | .fill b off bs po => (engBuf a b off bs po).run x = .ok ((), y)
  | .copyOut gran n va =>
    let c := x.s.lcore a.lc
    (∀ k, k < n / 16 → sget false c.full (3 * 65536 + gran + k) = true) ∧
    (engWrite a va ((List.range n).map fun i => sget 0 c.buf (3 * 1048576 + 16 * gran + i))
      ((List.range n).filter fun i => sget false c.pois ((3 * 1048576 + 16 * gran + i) / 4))).run x = .ok ((), y)
  | .row => (engCount a 10).run x = .ok ((), y)
  | .find desc t => (engFind a desc).run x = .ok (t, y)
  | .table desc cap spill keys => (engTable a desc cap spill keys).run x = .ok ((), y)
  | .area base n pages => (sinterArea a base n (n / 4096 + 1) base).run x = .ok (pages, y)
  | .room pages left => y = x ∧ left = pages.dropWhile fun p => p.2.2 < (x.s.tailOf p.2.1 + 7) / 8 * 8 + 8
  | .append i j pages left => (appendPair a (natToBytes 4 i ++ natToBytes 4 j) pages).run x = .ok (left, y)
  | .tail stop pages va => y = x ∧ va = match pages with
    | [] => stop
    | p :: _ => p.1 + x.s.tailOf p.2.1
  | .seal frame => y = { x with s := { x.s with sinter := y.s.sinter } } ∧
    ∀ g, sget none y.s.sinter g = (sget none x.s.sinter g).map fun z => if g = frame then { z with sealed := true } else z

/-- Acts one after another. -/
def AllDo (a : Agent) : List EngAct → EngSt → EngSt → Prop
  | [], x, y => y = x
  | e :: es, x, y => ∃ z, e.Does a x z ∧ AllDo a es z y

/-- The rounds of the merge of R192: what round r reads of both streams is given; the acts, and how many elements matched. -/
def mergeActs (sa lena sb lenb mout : Nat) (p q : Nat → Nat) : Nat → Nat → Nat → Nat → Nat → List EngAct × Nat
  | 0, _, _, _, cnt => ([], cnt)
  | fuel + 1, r, i, j, cnt =>
    if lena ≤ i ∨ lenb ≤ j then ([], cnt)
    else
      let rest := if p r < q r then mergeActs sa lena sb lenb mout p q fuel (r + 1) (i + 1) j cnt
        else if q r < p r then mergeActs sa lena sb lenb mout p q fuel (r + 1) i (j + 1) cnt
        else mergeActs sa lena sb lenb mout p q fuel (r + 1) (i + 1) (j + 1) (cnt + 1)
      (.val (sa + 4 * i) 4 (natToBytes 4 (p r)) :: .val (sb + 4 * j) 4 (natToBytes 4 (q r)) ::
        (if p r = q r ∧ mout ≠ 0 then [.write (mout + 4 * cnt) (natToBytes 4 (p r))] else []) ++ rest.1, rest.2)

/-- The key that a key becomes at a stride: its coordinates divided, rounded down (R197). -/
def coarse (st k : Nat) : Nat :=
  let c := keyCoords k
  coordKey c.1 (c.2.1 / (st : ℤ)) (c.2.2.1 / (st : ℤ)) (c.2.2.2 / (st : ℤ))

/-- The pairs of one offset of a probe (R198): the value in the table, and the position, of each output key whose neighbour is there. -/
def probeHits (t : Table) (keys : List Nat) (k st dil o : Nat) : List (Nat × Nat) :=
  let d := fun (m : Nat) => ((m : ℤ) - ((k - 1) / 2 : Nat)) * dil
  (List.range keys.length).filterMap fun j =>
    let c := keyCoords (keys.getD j 0)
    let x := c.2.1 * st + d (o / (k * k))
    let y := c.2.2.1 * st + d (o / k % k)
    let z := c.2.2.2 * st + d (o % k)
    if [x, y, z].all (fun v => -32768 ≤ v ∧ v ≤ 32767) then (t.value (coordKey c.1 x y z)).map fun i => (i, j) else none

/-- Keys of 8 bytes each, none with a one in bits [63:56] (R194). -/
def KeysAre (bs : List Byte) (keys : List Nat) : Prop :=
  bs.length = 8 * keys.length ∧ ∀ i, i < keys.length → keys.getD i 0 = field bs (8 * i) 8 ∧ keys.getD i 0 < 2 ^ 56

end Sys2Proof.Claims

/-- R187, R188, R191, R192, R194 to R198: what a stream or coordinate command does that completes, as the acts of its engine, in one step
(DESIGN CHOICE, log entry 47): se.gather and se.copy row by row, se.isect by its procedure, ce.build, ce.lookup and ce.down by the
values of the keys, ce.probe offset by offset; the tasks of a geyser job, and a task in C mode as the mma.g of R188. -/
def Sys2Proof.Claims.CommandResults : Prop :=
  (∀ (s u : State) (lc e : Nat) (c : Cmd), c.op ≠ .gx → c.op ≠ .mcast → s.runCmd lc e c = .done u →
    ∃ y : EngSt, (cmdBody (s.agent lc e c) c).run { s } = .ok ((), y) ∧ y.s = u) ∧
  (∀ (a : Agent) (c : Cmd) (x y : EngSt), (cmdBody a c).run x = .ok ((), y) →
    let f := fun (o n : Nat) => field c.bytes o n
    let keyed := fun (keys : List Nat) => (List.range keys.length).filterMap fun i =>
      if keys.findIdx? (· == keys.getD i 0) = some i then some (keys.getD i 0, i) else none
    (c.op = .gather → ∃ (ix : Nat → Nat) (row : Nat → List Byte) (po : Nat → List Nat),
      (∀ i, ix i = 0xFFFFFFFF → row i = List.replicate (f 0xC 4) 0 ∧ po i = []) ∧
      AllDo a ((List.range (f 8 4)).flatMap fun i => .val (f 0 8 + 4 * i) 4 (natToBytes 4 (ix i)) ::
        (if ix i = 0xFFFFFFFF then [] else [.read (f 0x10 8 + ix i * f 0x18 4) (f 0xC 4) (row i) (po i)]) ++
        [.fill 2 (16 * (f 0x1C 2 + i * f 0x1E 2)) (row i) (po i), .row]) x y) ∧
    (c.op = .copy → ∃ (row : Nat → List Byte) (po : Nat → List Nat),
      AllDo a ((List.range (f 0xC 2)).flatMap fun i =>
        let va := f 0 8 + i * f 0x10 4
        let gran := f 0xA 2 + i * f 0x14 2
        let n := 16 * f 0xE 2
        (if f 8 1 % 4 = 1 then [.read va n (row i) (po i), .fill 1 (16 * gran) (row i) (po i)] else [.copyOut gran n va]) ++ [.row]) x y) ∧
    (c.op = .isect → ∃ p q : Nat → Nat,
      let m := mergeActs (f 0 8) (f 8 4) (f 0x10 8) (f 0xC 4) (f 0x20 8) p q (f 8 4 + f 0xC 4) 0 0 0 0
      AllDo a (m.1 ++ [.write (f 0x18 8) (natToBytes 4 m.2)]) x y) ∧
    (c.op = .build → ∃ (bs : List Byte) (keys : List Nat), KeysAre bs keys ∧
      AllDo a [.val (f 0 8) (8 * f 8 4) bs, .table (f 0x10 8) (f 0xC 4) (f 0x18 8) (keyed keys)] x y) ∧
    (c.op = .lookup → ∃ (t : Table) (bs : List Byte) (keys : List Nat), KeysAre bs keys ∧
      AllDo a [.find (f 0x10 8) t, .val (f 0 8) (8 * f 8 4) bs,
        .write (f 0x18 8) (keys.flatMap fun k => natToBytes 4 ((t.value k).getD 0xFFFFFFFF))] x y) ∧
    (c.op = .down → ∃ (t : Table) (out : List Nat),
      out.Pairwise (fun i j => keyRank i < keyRank j) ∧ (∀ k, k ∈ out ↔ ∃ z ∈ t.keys, k = coarse (f 8 8) z.1) ∧
      AllDo a ([.find (f 0 8) t, .write (f 0x10 8) (out.flatMap (natToBytes 8))] ++
        t.keys.map (fun z => .write (f 0x28 8 + 4 * z.2) (natToBytes 4 (out.idxOf (coarse (f 8 8) z.1)))) ++
        [.table (f 0x18 8) t.keys.length (f 0x20 8) (out.zip (List.range out.length)),
          .write (f 0x30 8) (natToBytes 4 out.length)]) x y) ∧
    (c.op = .probe → ∃ (t : Table) (bs : List Byte) (keys : List Nat) (pages : List (Nat × Nat × Nat))
        (left : Nat → List (Nat × Nat × Nat)) (start : Nat → Nat),
      let k := f 0x14 4 % 16
      let stop := f 0x18 8 + f 0x20 8
      let hits := probeHits t keys k (f 0x14 4 / 16 % 32) (f 0x14 4 / 512 % 32)
      let before := fun o => ((List.range o).map fun i => (hits i).length).sum
      KeysAre bs keys ∧
      AllDo a ([.find (f 0 8) t, .val (f 8 8) (8 * f 0x10 4) bs, .area (f 0x18 8) (f 0x20 8) pages, .room pages (left 0)] ++
        ((List.range (k * k * k)).flatMap fun o => .tail stop (left (before o)) (start o) ::
          ((List.range (hits o).length).map fun m => .append ((hits o).getD m (0, 0)).1 ((hits o).getD m (0, 0)).2
            (left (before o + m)) (left (before o + m + 1))) ++
          [.write (f 0x28 8 + 16 * o) (natToBytes 8 (start o) ++ natToBytes 4 (hits o).length ++ natToBytes 4 0)]) ++
        pages.map (fun p => .seal p.2.1)) x y)) ∧
  (∀ (a : Agent) (g : GxRec) (x y : EngSt) (ts : List (Nat × List (Nat × Nat))), (gxTasks a g).run x = .ok (ts, y) →
    ∃ ent lst : Nat → List Byte,
      AllDo a ((List.range g.noff).flatMap fun o => .val (g.offtab + 16 * o) 12 (ent o) ::
        if field (ent o) 8 4 = 0 then [] else [.val (field (ent o) 0 8) (8 * field (ent o) 8 4) (lst o)]) x y ∧
      ts = (List.range g.noff).flatMap fun o =>
        ((((List.range (field (ent o) 8 4)).map fun i => (field (lst o) (8 * i) 4, field (lst o) (8 * i + 4) 4)).filter fun p =>
          g.rlo ≤ p.2 ∧ p.2 < g.rhi).toChunks 64).map fun r => (o, r)) ∧
  ∀ (a : Agent) (slot : Word) (g : GxRec) (j o : Nat) (run : List (Nat × Nat)) (x y : EngSt), g.xout = false →
    (gxTask a slot g j o run).run x = .ok ((), y) →
    let b := elemBits (slotElem slot)
    let ig := (g.k * b + 127) / 128
    let half := g.stage + j % 2 * (64 * ig)
    let w : Tile := { buf := 1, base := g.wbase + o * g.wstride, rows := g.k, cols := g.n, pitch := (g.n * b + 127) / 128, fmt := slot }
    let ins : Tile := if g.srca
      then { buf := 2, base := g.src, rows := run.length, cols := g.k, pitch := g.spitch, fmt := slot, gather := some (run.map (·.1)) }
      else { buf := 2, base := half, rows := run.length, cols := g.k, pitch := ig, fmt := slot }
    let c : Tile := { buf := 3, base := g.out % 65536, rows := run.length, cols := g.n, pitch := g.out / 65536 % 65536,
                      gather := some (run.map fun p => p.2 - g.rlo), isInt := isIntElem (slotElem slot) }
    ∃ (row : Nat → List Byte) (z : EngSt),
      AllDo a (if g.srca then [] else (List.range run.length).flatMap fun i =>
        [.val (g.src + (run.getD i (0, 0)).1 * g.spitch) ((g.k * b + 7) / 8) (row i), .fill 2 (16 * (half + i * ig)) (row i) []]) x z ∧
      let v := z.s.lcore a.lc
      let r := ((MtxOp.mma c ins w 0 0).perform v).1
      y.s = { z.s with lcs := y.s.lcs, sites := y.s.sites } ∧ (∀ i, i ≠ a.lc → y.s.lcore i = z.s.lcore i) ∧
      OnlyCounts z.s { y.s with lcs := z.s.lcs } ∧
      y.s.lcore a.lc = { v with buf := r.buf, full := (y.s.lcore a.lc).full, pois := r.pois } ∧
      ∀ n, sget false (y.s.lcore a.lc).full n = sget false r.full n

/-- R139, R142, R184, R187, R188, R193, R200, R201, R400: a geyser task that is done, on the partition of its number modulo 4, whose matrix
unit owes no retest and has performed what was sent to it before (log entry 83), counts; a command that is done gives its number to COUNT
and leaves the queue, and its grid has one fewer unretired; either resets the watchdog. A command that fails sets its error bit
and stops the context. A multicast merge whose window has passed is closed, and each joined core receives its line in W. -/
def Sys2Proof.Claims.EngineEvents : Prop :=
  (∀ (s : State) (c : Cmd) (x : EngSt),
    let lc := s.subj.n
    let e := s.subj.m
    Running s lc e c → c.op = .gx → s.unitOwes lc (c.done % 4) = false → sget [] (s.lcore lc).mtx (c.done % 4) = [] → (gxStep (s.agent lc e c) (s.gxSlot c c.bytes) c).run { s } = .ok (true, x) →
    ∃ a t, exec .geyserTaskComplete s = .next t ∧ CmdBecomes lc e c.num (fun d =>
        { d with done := d.done + 1, wrote := (x.wrote ++ d.wrote).eraseDups }) x.s a ∧
      t = { a with ctxs := t.ctxs } ∧ ∀ n, t.ctx n = if n = lc / 128 then { x.s.ctx n with wdog := 0 } else x.s.ctx n) ∧
  (∀ (s u : State) (c : Cmd),
    let lc := s.subj.n
    let e := s.subj.m
    let y := (u.lcore lc).ec e
    Running s lc e c → s.runCmd lc e c = .done u →
    ∃ (a b t : State), exec .engineCommandComplete s = .next t ∧
      EcBecomes lc e { y with count := BitVec.ofNat 64 c.num, cmds := y.cmds.tail } u a ∧
      b = { a with grids := b.grids, ctxs := b.ctxs } ∧
      (∀ g, b.grid g = if g = c.grid then (u.grid g).map fun z => { z with unretired := z.unretired - 1 } else u.grid g) ∧
      (∀ n, b.ctx n = if n = lc / 128 then { u.ctx n with wdog := 0 } else u.ctx n) ∧ t = (b.mcastStart lc e).unbind lc) ∧
  (∀ (s u : State) (c : Cmd) (wrote : List Touch) (cause : Cause) (addr : DWord),
    let lc := s.subj.n
    let e := s.subj.m
    Running s lc e c → (if c.op = .gx then s.gxNext lc e c else s.runCmd lc e c) = .fails u wrote cause addr →
    ∃ t, exec .engineCommandFail s = .next t ∧ EngineFails lc e cause addr (u.spoilCmd lc e c.num wrote) t) ∧
  (∀ (s : State) (m : Merge), s.clocked = true → s.merges[s.subj.n]? = some m → m.opened + 512 ≤ s.cycles →
    s.swapping m.line.pl = false →
    ∃ t, exec .mcastWindowEnd s = .next t ∧ LinesReach s m m.joined { s with merges := s.merges.filter (· ≠ m) } t)

/-- R194, R197: a key is the key of its coordinates; keys are ordered by batch, then x, y and z as signed numbers; a built table
maps each key to its first position. -/
def Obligations.CoordinateKeys : Prop :=
  (∀ k, k < 2 ^ 56 → let c := keyCoords k
    coordKey c.1 c.2.1 c.2.2.1 c.2.2.2 = k ∧ c.1 < 256 ∧ -32768 ≤ c.2.1 ∧ c.2.1 < 32768 ∧ -32768 ≤ c.2.2.1 ∧ c.2.2.1 < 32768 ∧
      -32768 ≤ c.2.2.2 ∧ c.2.2.2 < 32768) ∧
  (∀ j k, j < 2 ^ 56 → k < 2 ^ 56 →
    let a := keyCoords j
    let b := keyCoords k
    (keyRank j < keyRank k ↔ a.1 < b.1 ∨ a.1 = b.1 ∧ (a.2.1 < b.2.1 ∨ a.2.1 = b.2.1 ∧
      (a.2.2.1 < b.2.2.1 ∨ a.2.2.1 = b.2.2.1 ∧ a.2.2.2 < b.2.2.2)))) ∧
  ∀ (ks : List Nat) (k : Nat), ((firstKeys 0 ks []).find? (·.1 == k)).map (·.2) = ks.findIdx? (· == k)

namespace Sys2Proof.Claims

/-! ## The ends of waits -/

/-- What an evaluation of a blocked waitc finds: conditions, whether the wait is external, the outcome (R373). -/
def reevaluated (s : State) (k l : Nat) (pc : DWord) (all : Bool) (conds : List Cond) (due : Option Nat) : Waited :=
  let r := s.evalConds k l pc conds
  let timed := match due with
    | some d => decide (d ≤ s.tick)
    | none => false
  { conds := r.2.2, ext := r.2.1, due, timed
    out := match all, r.2.2.findIdx? (·.sat), r.2.2.findIdx? fun c => !c.sat with
      | true, _, none => some 0
      | true, _, some i => if timed then some (4 + i) else none
      | false, some i, _ => some i
      | false, none, _ => if timed then some 4 else none }

/-- Lane l of crew k waits where an event can reach it (R132, R135): on its site, in a context that runs, with clocks. -/
def Waiting (s : State) (k l : Nat) : Prop :=
  s.clocked = true ∧ (s.crew k).alive = true ∧ (s.crew k).res = .resident ∧ (s.ctx (ctxOf k)).st = .on ∧
    ((s.crew k).lane l).st = .blocked

/-- Only the lanes of crew k change, as `f` says. -/
def LanesOnly (k : Nat) (f : Nat → Lane → Lane) (s t : State) : Prop :=
  t = { s with crews := t.crews } ∧ (∀ j, j ≠ k → t.crew j = s.crew j) ∧
  t.crew k = { s.crew k with lanes := (t.crew k).lanes } ∧ ∀ l, (t.crew k).lane l = f l ((s.crew k).lane l)

end Sys2Proof.Claims

/-- R258, R261, R373, R374: an evaluation of a blocked waitc, at any time or at its timeout, where no frame exchange holds its reads (R225),
that has an outcome, logged or in its turn of the log where the grid logs it, writes it and wakes every
thread that shares it; otherwise the threads wait on with the conditions that have held marked. A thread in mwait wakes once its
line has been written, or for another reason, and its watch is then disarmed. -/
def Obligations.WaitsEnd : Prop :=
  ∀ (s : State) (g : Grid),
    let k := s.subj.n
    let l := s.subj.m
    let x := (s.crew k).lane l
    Waiting s k l → l < 64 →
    (∀ (timeout all : Bool) (conds : List Cond) (due : Option Nat) (dest : BitVec 8) (scalar : Bool) (peers : LaneSet),
      let w := reevaluated s k l x.waitPc all conds due
      x.wait = some (.waitc all conds due dest scalar peers) → s.grid (s.crew k).grid = some g → MayDecide k l all g w s →
      (timeout = true → ∃ d, due = some d ∧ d ≤ s.tick) → s.condsHeld k l x.waitPc conds = false →
      (s.evalConds k l x.waitPc conds).1 = none →
      ∃ (b h a t : State) (out : Option Nat), exec (if timeout then .waitcTimeout else .waitcWake) s = .next t ∧
        OnlyCaches s b ∧ Decided k l all g w out b h ∧
        (∀ o, out = some o → Wrote k dest [l] (fun _ => BitVec.ofNat 32 o) h a ∧
          LanesOnly k (fun j y => if j < 64 ∧ peers.getLsbD j = true then awoken y else y) a t) ∧
        (out = none → LanesOnly k (fun j y => if j < 64 ∧ peers.getLsbD j = true then
          { y with wait := some (.waitc all w.conds due dest scalar peers)
                   extSince := if w.ext then some (y.extSince.getD s.tick) else none, extTold := w.ext && y.extTold } else y) h t)) ∧
    (∀ other : Bool, x.wait = some .mwait → (other = false → ∃ w, x.watch = some w ∧ w.ser < s.lineSer w.line) →
      ∃ t, exec (if other then .mwaitWakeOtherReason else .mwaitWake) s = .next t ∧
        LanesOnly k (fun j y => if j = l then { awoken y with watch := none } else y) s t)

namespace Sys2Proof.Claims

/-- The context's fault vector is sent, where it is enabled; vector 0 serves DEVEVT alone (R93, R100). -/
def vectorSent (n : Nat) (s : State) : State :=
  if (s.ctx n).fvec.getLsbD 7 = true ∧ (s.ctx n).fvec.toNat % 128 ≠ 0 then s.sendMsix ((s.ctx n).fvec.toNat % 128) else s

end Sys2Proof.Claims

/-- R139, R140, R388: a context whose watchdog reaches its limit stops with WDOG of its oldest crew on a site; a thread that has
waited externally for EXTLIM is reported once, in the context's registers and its save area; the host halts, resumes and steps
a live crew that DBGCTL names: a halt writes its report, and a crew that goes on fetches its code as it stood at that write (R415). -/
def Obligations.WatchdogReportsAndDebug : Prop :=
  (∀ (s : State) (k : Nat),
    let n := s.subj.n
    let limit := if (s.ctx n).wdogLimit = 0 then 100 else (s.ctx n).wdogLimit.toNat
    (limit * 100000 ≤ (s.ctx n).wdog → s.oldestCrew n = some k → (s.ctx n).st ≠ .on → exec .watchdogExpiry s = .next s) ∧
    (limit * 100000 ≤ (s.ctx n).wdog → s.oldestCrew n = none → exec .watchdogExpiry s = .next s) ∧
    (limit * 100000 ≤ (s.ctx n).wdog → s.oldestCrew n = some k → (s.ctx n).st = .on →
    ∃ t, exec .watchdogExpiry s = .next t ∧ t = { s with ctxs := t.ctxs, adit := t.adit } ∧
      (let f : FaultInfo := { cause := 0x11, lcore := BitVec.ofNat 7 (k / 256 % 128), crew := BitVec.ofNat 8 (k % 256) }
       ∀ m, t.ctx m = if m = n then { s.ctx n with st := .stopping, pendFault := some f } else s.ctx m))) ∧
  (∀ (s : State) (since : Nat),
    let k := s.subj.n
    let l := s.subj.m
    let n := ctxOf k
    let c := s.ctx n
    let x := (s.crew k).lane l
    let addr := s.extAddrOf k l x
    let loc : Word := BitVec.ofNat 32 (k / 256 % 128 + 256 * (k % 256) + 65536 * l)
    x.extSince = some since → x.st = .blocked → x.extTold = false → c.extlim ≠ 0 → since + c.extlim.toNat * 100000 ≤ s.tick →
    ∃ (a b : State), exec .externalWaitReport s = .next (vectorSent n b) ∧
      a = { s with ctxs := a.ctxs } ∧ (∀ m, a.ctx m = if m = n then
        { c with extcnt := c.extcnt + 1, extloc := loc, extaddr := addr } else s.ctx m) ∧
      OnlyMemory { a with crews := b.crews } b ∧
      StoresLand [(.dev (c.savebase.toNat + 32), wordLe (c.extcnt + 1) ++ wordLe loc ++
        (List.range 8).map fun i => BitVec.ofNat 8 (addr.toNat / 256 ^ i))] s b ∧
      LanesOnly k (fun j y => if j = l then { y with extTold := true } else y) s { s with crews := b.crews }) ∧
  ∀ (s : State) (n : Nat) (v : BitVec 32),
    let lc := v.toNat / 16 % 128
    let slot := v.toNat / 65536 % 256
    let k := crewKey n lc slot
    let c := s.crew k
    let named : State → Prop := fun u => ∃ x : State, x = { s with ctxs := x.ctxs } ∧
      (∀ m, x.ctx m = if m = n then { s.ctx n with dbgLcore := BitVec.ofNat 7 lc, dbgCrew := BitVec.ofNat 8 slot } else s.ctx m) ∧
      u = { x with crews := u.crews, ctxs := u.ctxs } ∧ (∀ m, m ≠ ctxOf k → u.ctx m = x.ctx m) ∧
      (∀ j, j ≠ k → u.crew j = s.crew j)
    let marked := fun (d : Crew) => { d with idleSince := idleSinceOf s d }
    (¬ (s.feature 12 = true ∧ c.alive = true ∧ c.ending = false) →
      ∀ i ∈ [Instr.dbgctlHalt n v, .dbgctlResume n v, .dbgctlStep n v], exec i s = .next s) ∧
    (s.feature 12 = true → c.alive = true → c.ending = false →
    (∀ i b, (i, b) ∈ [(Instr.dbgctlHalt n v, 0), (.dbgctlResume n v, 1), (.dbgctlStep n v, 2)] →
      (v.getLsbD b = false → exec i s = .next s) ∧
      (v.getLsbD b = true → v.toNat % 8 ≠ 2 ^ b → ∃ u, exec i s = .next u ∧
        CtxBecomes n { s.ctx n with dbgLcore := BitVec.ofNat 7 lc, dbgCrew := BitVec.ofNat 8 slot } s u)) ∧
    (v.toNat % 8 = 1 → ∃ t, exec (.dbgctlHalt n v) s = .next t ∧ named t ∧
      (c.halted = true → t.crew k = c) ∧
      (c.halted = false → ∀ p, c.held = some p → t.crew k = { c with held := some { p with hostHalt := true } }) ∧
      (c.halted = false → c.held = none → ∃ u, named u ∧ Reported k 0 0 (standsAt c) 0 0 c.present u t ∧
        u.crew k = marked { marked c with halted := true })) ∧
    (v.toNat % 8 = 2 → ∃ t, exec (.dbgctlResume n v) s = .next t ∧ named t ∧ t.crew k = marked
      { c with halted := false, stepping := false, code := some s.codeSnap
               held := c.held.map fun p => { p with hostHalt := false, step := false } }) ∧
    (v.toNat % 8 = 4 → ∃ t, exec (.dbgctlStep n v) s = .next t ∧ named t ∧
      t.crew k = if c.halted then marked { c with stepping := true, code := some s.codeSnap } else { c with code := some s.codeSnap }))

namespace Sys2Proof.Claims

/-! ## The start of the device -/

/-- DEVEVT bit i is set, and its interrupt is sent if it was clear (R93); of the device block nothing else changes. -/
def Signalled (i : Nat) (s t : State) : Prop :=
  t = { s with dev := { s.dev with devevt := s.dev.devevt ||| BitVec.ofNat 7 (2 ^ i), pba := t.dev.pba, msixSent := t.dev.msixSent } } ∧
  (s.dev.devevt.getLsbD i = true → t = s) ∧
  (s.dev.devevt.getLsbD i = false → if s.msixMasked 0 then t.dev.pba = s.dev.pba ||| 1 ∧ t.dev.msixSent = s.dev.msixSent
    else t.dev.pba = s.dev.pba ∧ t.dev.msixSent = s.dev.msixSent ++ [0])

/-- n bytes of the staged image from an offset, and a word of it (R97). -/
def staged (s : State) (o n : Nat) : List Byte := (List.range n).map fun i => sget 0 s.dev.staging (o + i)

/-- A 32-bit word of the staged image. -/
def stagedWord (s : State) (o : Nat) : Nat := ((List.range 4).map fun i => (sget (0 : Byte) s.dev.staging (o + i)).toNat * 256 ^ i).sum

/-- The number that bytes hold, lowest first. -/
def leNum (bs : List Byte) : Nat := (bs.mapIdx fun i b => b.toNat * 256 ^ i).sum

/-- The checks of R98 in their order, each with its FWERR code. -/
def imageChecks (s : State) : List (Bool × Nat) :=
  let body := stagedWord s 8
  let key := staged s 0x40 1952
  let digest := Fips.shake256 (staged s 0 0x800 ++ staged s 0x2000 body) 64
  [(decide (stagedWord s 0 = 0x444D524F ∧ stagedWord s 4 = 1), 1),
   (decide (body % 4096 = 0 ∧ s.dev.fwlen.toNat = 0x3000 + body ∧ s.dev.fwlen.toNat ≤ 2 ^ 26), 2),
   (decide (Fips.shake256 key 32 = bytesLe 32 s.fuse.keyHash.toNat), 3),
   (Fips.mlDsa65Verify key digest (staged s 0x800 3309), 4),
   (decide (s.fuse.svnMin.toNat ≤ stagedWord s 12), 5)]

end Sys2Proof.Claims

/-- R92, R95 to R99: cold start leaves the device as after reset with its fuses, host memory and socket; LOAD starts the check of
the image, which ends in FWFAIL with the code of the first check that fails, or in BOOT with the digests of the image and an
empty staging window; start-up ends in NEGOTIATE or FWFAIL; GO enters RUN; FEATACK takes the offered bits, each of 3, 4 and 9
only with the bit that it needs; ones clear DEVEVT; an attestation report, requested with the nonce of that time, takes its place
in the window. Each acts in its own device state only. What a cold start keeps, and where the staging buffer answers, is log entry 43;
that the modules of the die links train in BOOT 61, and that a channel entry with RESV clear stays in the record 64. -/
def Obligations.DeviceStart : Prop :=
  ∀ (s : State),
    (∃ t, exec .coldStart s = .next t ∧ t = { State.reset with
      schedule := s.schedule, subj := s.subj, fresh := s.fresh, fuse := s.fuse, adit := t.adit, hostMem := s.hostMem
      hostPois := s.hostPois, hostLineW := s.hostLineW, writes := s.writes } ∧
      t.adit = { State.reset.adit with st := if s.adit.st = .absent then .absent else .reset }) ∧
    (s.dev.st = .load → exec .devctlLoad s = .next { s with dev := { s.dev with st := .verify } }) ∧
    (s.dev.st = .verify → ∃ t, exec .verificationEnd s = .next t ∧ t = { s with dev := t.dev, link := t.link } ∧
      t.link = { s.link with mods := t.link.mods, chans := t.link.chans } ∧
      match (imageChecks s).find? fun c => !c.1 with
      | some c => t.dev = { s.dev with st := .fwfail, fwerr := BitVec.ofNat 4 c.2 } ∧ t.link = s.link
      | none =>
        (∀ m, t.lmod m = if m < 24 ∧ s.modPresent m = true then { s.lmod m with st := .train } else s.lmod m) ∧
        (let withheld := decide (field t.dev.board 4 4 / 8 % 2 = 1)
         ∀ c, sget {} t.link.chans c = if withheld = true ∧ t.recChannel = some c then { sget {} s.link.chans c with st := .retired }
          else sget {} s.link.chans c) ∧
        let board := staged s (0x2000 + stagedWord s 8) 4096
        t.dev = { s.dev with st := .boot, board, staging := []
                             imgdig := BitVec.ofNat 512 (leNum (Fips.shake256 (staged s 0 (0x2000 + stagedWord s 8)) 64))
                             brddig := BitVec.ofNat 512 (leNum (Fips.shake256 board 64))
                             fwver := BitVec.ofNat 32 (stagedWord s 16), fwsvn := BitVec.ofNat 32 (stagedWord s 12) }) ∧
    (∀ r : BootReport, s.dev.st = .boot → ∃ t, exec (.bootComplete r) s = .next t ∧
      (s.boardOk = false → t = { s with dev := { s.dev with st := .fwfail, fwerr := 6 } }) ∧
      (let withheld := decide (field s.dev.board 4 4 / 8 % 2 = 1)
       let named := if withheld then s.recChannel else none
       let new := (dedup r.chanFail).filter fun c => some c != named
       let bad : Prop := 1 < new.length ∨ (new.length = 1 ∧ (withheld = false ∨ named.isSome = true))
       s.boardOk = true → t.link.cap = BitVec.ofNat 3 (field s.dev.board 4 4 % 8) ∧ t.link.resv = withheld ∧
        (bad → t.dev.st = .fwfail ∧ t.dev.fwerr = 7) ∧
        (¬ bad → t.dev.st = .negotiate ∧ t.dev.negotiated = true ∧ t.dev.feat = t.features r ∧ t.dev.chretPending = (new != [] || (named.isNone && s.dev.chretPending)) ∧
          t.ret.chret = (new.head?.or s.recChannel) ∧
          ∀ c, sget {} t.link.chans c = if c ∈ new ∨ named = some c then { sget {} s.link.chans c with st := .retired }
            else sget {} s.link.chans c)) ∧
      t.hostMem = s.hostMem ∧
      ((∀ d, d < 4 → field s.dev.board (8 + d) 1 ≤ 36) → t.mem = s.mem ∧ t.ctxs = s.ctxs ∧ t.crews = s.crews)) ∧
    (s.dev.st = .negotiate → s.dev.chretPending = false → exec .devctlGo s = .next { s with dev := { s.dev with st := .run, ran := true } }) ∧
    (s.dev.st = .negotiate → s.dev.chretPending = true → ∃ t, exec .devctlGo s = .next t ∧
      Signalled 3 { s with dev := { s.dev with st := .run, ran := true, chretPending := false } } t) ∧
    (∀ v : BitVec 128, s.dev.st = .negotiate → ∃ t, exec (.featackWrite v) s = .next t ∧
      t = { s with dev := { s.dev with featack := t.dev.featack } } ∧
      ∀ i, i < 128 → let x := fun j => v.getLsbD j && s.dev.feat.getLsbD j && decide (j < 13)
        t.dev.featack.getLsbD i = (x i && (decide (i ≠ 3) || x 7) && (decide (i ≠ 4) || x 3 && x 7) && (decide (i ≠ 9) || x 8))) ∧
    (∀ v : BitVec 32, s.hostOpen = true → ∃ t, exec (.devevtClear v) s = .next t ∧
      t = { s with dev := { s.dev with devevt := t.dev.devevt } } ∧
      ∀ i, i < 7 → t.dev.devevt.getLsbD i = (s.dev.devevt.getLsbD i && !v.getLsbD i)) ∧
    ((s.dev.st = .negotiate ∨ s.dev.st = .run) → s.dev.attBusy = false →
      exec .attctlReq s = .next { s with dev := { s.dev with attBusy := true, attNonce := s.dev.nonce } }) ∧
    (s.dev.attBusy = true → ∃ t, exec .attestationReportDone s = .next t ∧ t = { s with dev := t.dev } ∧
      t.dev = { s.dev with attBusy := false, attCount := s.dev.attCount + 1, report := t.dev.report } ∧
      (let part := fun (o n : Nat) => (t.dev.report.drop o).take n
       let le := fun (x n : Nat) => (List.range n).map fun i => BitVec.ofNat 8 (x / 256 ^ i)
       t.dev.report.length = 5632 ∧ part 0 8 = wordLe 0x54535441 ++ wordLe 1 ∧ part 0x08 8 = le s.fuse.serial.toNat 8 ∧
       part 0x10 8 = le s.dev.fwver.toNat 4 ++ le s.dev.fwsvn.toNat 4 ∧ part 0x20 16 = le s.dev.feat.toNat 16 ∧
       part 0x30 16 = le (if s.dev.ran = true then s.dev.featack.toNat else 0) 16 ∧ part 0x40 64 = le s.dev.imgdig.toNat 64 ∧
       part 0x80 64 = le s.dev.brddig.toNat 64 ∧ part 0xC0 32 = le s.dev.attNonce.toNat 32 ∧
       part 0xE4 4 = wordLe (s.dev.attCount + 1) ∧ part 0x100 1952 = (List.range 1952).map Config.identityKey ∧
       part 0x8A0 3309 = (List.range 3309).map (Config.identitySign (part 0 0x8A0))))

namespace Sys2Proof.Claims

/-! ## Operating points, power, ageing -/

/-- Nothing but the health block differs, where `h` says what it becomes. -/
def Healthy (s : State) (h : Health) : State := { s with health := h }

/-- What a power evaluation finds (R18, R21 to R23): the temperatures, in quarters of a degree, of the dies in service and of the
control die; whether the limit is exceeded; the evaluations in a row below 95 per cent and at 125 °C. -/
structure Evaluation where
  hot : Bool
  therm : Bool
  above : Bool
  below : Nat
  trip : Nat
  limited : Bool

/-- The evaluation of a period's average power and temperatures. -/
def evaluation (s : State) (watts : Nat) (temps : List (BitVec 12)) : Evaluation :=
  let h := s.health
  let seen := (List.range 5).filterMap fun n => if n = 4 || s.inService n then (temps[n]?).map (·.toInt) else none
  let above := decide (h.limit.toNat < watts)
  let hot := seen.any fun t => decide (115 * 4 ≤ t)
  let below := if 100 * watts < 95 * h.limit.toNat then min 10 (h.below95 + 1) else 0
  { hot, above, below
    therm := hot || !(seen.all fun t => decide (t < 110 * 4)) && h.therm
    trip := if h.cur = 4 ∧ (seen.any fun t => decide (125 * 4 ≤ t)) = true then min 10 (h.hot + 1) else 0
    limited := above || h.pwrltd && !(decide (below = 10) && decide (h.cur.toNat ≤ s.topPoint)) }

end Sys2Proof.Claims

/-- R15, R18, R20 to R23, R96: OPCTL and PWRLIM take the host's values, PWRLIM between 200 and 600 W. A power evaluation takes the
device one point down where power, temperature or the allowed point asks for it, and one point up only after ten evaluations below
95 per cent, unless a change runs or the device has tripped. The dies whose temperatures count are those in service and the control die
(log entry 59). A rising rail is ramped before the stall, a falling one after the PLL has locked, when CUR shows the new point; the
clock is gated between, once every die in service can acknowledge. Ten evaluations at 125 °C and OP4 trip the device. -/
def Obligations.OperatingPoints : Prop :=
  ∀ (s : State),
    let h := s.health
    (∀ v : BitVec 32, s.hostOpen = true → exec (.opctlWrite v) s =
      .next (Healthy s { h with target := BitVec.ofNat 3 v.toNat, boost := v.getLsbD 3 })) ∧
    (∀ v : BitVec 32, s.hostOpen = true → exec (.pwrlimWrite v) s =
      .next (Healthy s { h with limit := BitVec.ofNat 10 (max 200 (min 600 (v.toNat % 1024))) })) ∧
    (∀ watts temps, h.lastEval + 10000 ≤ s.tick →
      let e := evaluation s watts temps
      let cur := h.cur.toNat
      let top := s.topPoint
      let change : Option OpChange :=
        if h.change.isSome ∨ s.dev.st = .trip then h.change
        else if (e.above ∨ e.hot ∨ cur < top) ∧ cur < 4 then some { target := cur + 1, phase := .stall, start := s.tick }
        else if e.below = 10 ∧ e.above = false ∧ e.hot = false ∧ e.therm = false ∧ top < cur ∧ s.pointOff (cur - 1) = false then
          some { target := cur - 1, phase := .rampUp, start := s.tick }
        else none
      ∃ tj, exec (.powerEvaluation watts temps) s = .next (Healthy s { h with
        lastEval := s.tick, therm := e.therm, below95 := e.below, hot := e.trip, pwrltd := e.limited, tj, change }) ∧ ∀ n, sget 0 tj n = if n < 5 then (temps[n]?).getD (sget 0 h.tj n) else sget 0 h.tj n) ∧
    (∀ c, h.change = some c →
      let rails := if s.dev.st = .trip then h.rail else s.servedDies.foldl (fun m d => sset 0 m d (s.railFor c.target d)) h.rail
      let down := decide (h.cur.toNat < c.target)
      (c.phase = .stall → (∀ d, d < 4 → s.inService d = true → ∃ i, i < 4 ∧ (s.lmod (4 * d + i)).st = .active) → exec .clockGate s = .next (Healthy s { h with change := some { c with phase := .gated, start := s.tick } })) ∧
      (let next := if down then some { c with phase := .rampDown, start := s.tick } else none
       c.phase = .gated → ∃ lim, exec .pllLock s = .next (Healthy s
         { h with cur := BitVec.ofNat 3 c.target, changes := h.changes + 1, pwrltd := lim, change := next }) ∧
        (h.pwrltd = false → lim = false)) ∧
      (c.phase = .rampUp → c.start + s.rampTicks c.target ≤ s.tick → exec .railRampDone s = .next (Healthy s
        { h with rail := rails, change := some { c with phase := .stall, start := s.tick } })) ∧
      (c.phase = .rampDown → c.start + s.rampTicks c.target ≤ s.tick → exec .railRampDone s =
        .next (Healthy s { h with rail := rails, change := none }))) ∧
    (10 ≤ h.hot → s.dev.st ≠ .trip → ∃ t, exec .thermalTrip s = .next t ∧
      Signalled 0 { s with dev := { s.dev with st := .trip }, health := { h with rail := [], change := none } } t)

/-- R17, R39, R40, R144, R256: a die in service that has not acknowledged a stall in 40 ticks, or has no ACTIVE module to do so, is lost:
it leaves service, every context that holds a core bound on it stops with DIELOST, the words that it held dirty are poisoned, what its
crews had not performed is dropped, and DEVEVT says so. -/
def Sys2Proof.Claims.LostDies : Prop :=
  ∀ (s : State) (c : OpChange) (dies : BitVec 4),
    let silent := fun (d : Nat) => dies.getLsbD d = true ∨ ∀ i, i < 4 → (s.lmod (4 * d + i)).st ≠ .active
    let lost := fun (v : Nat) => ∃ d, d < 4 ∧ s.inService d = true ∧ silent d ∧ v = s.vdOf d
    let onLost := fun (k : Nat) => lost (vdOfSite (s.siteOf (lcOf k)))
    s.health.change = some c → c.phase = .stall → c.start + 40 ≤ s.tick →
    ∃ t, exec (.stallAckTimeout dies) s = .next t ∧ t.link = { s.link with online := t.link.online } ∧
      (∀ v, v < 4 → (t.link.online.getLsbD v = true ↔ s.link.online.getLsbD v = true ∧ ¬ lost v)) ∧
      (t.dev.devevt.getLsbD 2 = true ↔ s.dev.devevt.getLsbD 2 = true ∨ ∃ v, lost v) ∧ t.dev.st = s.dev.st ∧
      (∀ w, t.wordPois w = true ↔ s.wordPois w = true ∨ ∃ e ∈ s.dirty, ∃ v, lost v ∧ e = (w, v + 1)) ∧
      (∀ e, e ∈ t.dirty ↔ e ∈ s.dirty ∧ ¬ ∃ v, lost v ∧ e.2 = v + 1) ∧ SameBytes s t ∧ t.health = s.health ∧
      (∀ h, h ∈ t.homeQ ↔ h ∈ s.homeQ ∧ ¬ onLost h.crew) ∧
      (∀ k, onLost k → (s.crew k).holdsRegs = true → t.crew k = { s.crew k with queue := [], atoms := [] }) ∧
      (∀ k, ¬ (onLost k ∧ (s.crew k).holdsRegs = true) → t.crew k = s.crew k) ∧
      ∀ n, n < 64 → (s.ctx n).st = .on → (∃ v, lost v ∧ s.boundOnDie n v = true) →
        (t.ctx n).st = .stopping ∧ ((t.ctx n).pendFault.map (·.cause)) = some 0x12

/-- R14, R27, R28: AGMCTL takes its window, and with START a sample of a core's ageing monitors starts unless one runs; after its window its temperature and counts are in the core's
registers; a recomputation, in NEGOTIATE and after 24 hours, never lowers a guardband and gives each die in service what its
samples ask for, at most 255 steps; a present die whose guardband is then above 180 mV leaves service for good, and DEVEVT says so; in RUN
the rail of a die that stays rises to what its guardband needs at the point whose rails are applied, and none falls. -/
def Sys2Proof.Claims.Ageing : Prop :=
  ∀ (s : State),
    (s.subj.n < 136 → ∃ t, exec .agmctlStart s = .next t ∧ t = { s with health := { s.health with agm := t.health.agm } } ∧
      ∀ p, t.agmOf p = let a := s.agmOf p
        let window := s.subj.m / 256 % 256
        let starts := s.subj.m % 2 = 1 ∧ a.busy = false
        if p = s.subj.n then { a with
          window := BitVec.ofNat 8 window, busy := a.busy || decide (s.subj.m % 2 = 1)
          due := if starts then s.tick + 100 * max 1 window else a.due } else a) ∧
    (∀ a : AgeSample, (s.agmOf a.core).busy = true → (s.agmOf a.core).due ≤ s.tick →
      ∃ t, exec (.ageingSampleDone a) s = .next t ∧ t = { s with health := { s.health with agm := t.health.agm } } ∧
        (∀ p, p ≠ a.core → t.agmOf p = s.agmOf p) ∧
        t.agmOf a.core = { s.agmOf a.core with busy := false, temp := a.temp, counts := (t.agmOf a.core).counts } ∧
        ∀ k, sget 0 (t.agmOf a.core).counts k = if k < 8 then (a.counts[k]?).getD (sget 0 (s.agmOf a.core).counts k)
          else sget 0 (s.agmOf a.core).counts k) ∧
    ∀ samples : List AgeSample, s.dev.st = .negotiate ∨ s.health.guardTick + 8640000000000 ≤ s.tick →
      ∃ t, exec (.guardbandRecompute samples) s = .next t ∧ t.health.guardTick = s.tick ∧ SameBytes s t ∧
        ∀ d, d < 4 → t.guardOf d = (if s.inService d then min 255 (max (s.guardOf d) (s.newGuard d samples)) else s.guardOf d) ∧
          (s.fuse.cdpres.getLsbD d = true →
            (36 < t.guardOf d → t.ret.dieoff.getLsbD d = true ∧ (s.ret.dieoff.getLsbD d = false → t.inService d = false ∧ t.dev.devevt.getLsbD 2 = true)) ∧
            (t.guardOf d ≤ 36 → t.ret.dieoff.getLsbD d = s.ret.dieoff.getLsbD d ∧ t.inService d = s.inService d ∧
              (s.dev.st = .run → s.inService d = true → sget 0 t.health.rail d =
                max (sget 0 s.health.rail d) (min 780 ([750, 675, 640, 615, 600].getD s.railPoint 600 + 5 * t.guardOf d)))))

namespace Sys2Proof.Claims

/-! ## Errors, lanes, links, channels -/

/-- A saturating 16-bit counter after one more event. -/
def counted (x : BitVec 16) : BitVec 16 := BitVec.ofNat 16 (min 65535 (x.toNat + 1))

/-- Of the link block only channel c and the named fields change. -/
def ChannelBecomes (c : Nat) (x : Chan) (l : Link) (s t : State) : Prop :=
  t = { s with link := { l with chans := t.link.chans } } ∧ ∀ j, t.chan j = if j = c then x else s.chan j

/-- The DPA of the translation page of a context (R216). -/
def xlPage (s : State) (n : Nat) : Nat := (s.ctx n).ptroot.toNat + 0x100000

/-- The number that bytes hold, lowest first. -/
def numOf (bs : List Byte) (o n : Nat) : Nat := ((List.range n).map fun i => (bs.getD (o + i) 0).toNat * 256 ^ i).sum

/-- The 32 bytes of the next command of a context (R216, R219): the driver has advanced CWIDX past it and none runs; the clocks run, and the
home slices hold nothing of the translation page (R225). -/
def NextCommand (s : State) (n : Nat) (bs : List Byte) : Prop :=
  s.clocked = true ∧ s.xlHeld n = false ∧ (s.ctx n).st ≠ .disabled ∧ (s.ctx n).cmd = none ∧ (s.ctx n).cridx < s.read64 (xlPage s n + 0x80) ∧
    bs = (List.range 32).map fun i => s.placeByte (.dev (xlPage s n + 0x800 + 32 * ((s.ctx n).cridx % 64) + i))

/-- The size that PSZ names (R218). -/
def sizeOfPsz (z : Nat) : Nat := [2 ^ 12, 2 ^ 16, 2 ^ 21, 2 ^ 30].getD z 0

/-- Whether a command is one that R218 and R219 allow: what is zero is zero, its operation exists, and the fields of that
operation are in range and aligned; a DPA lies below 2^39. -/
def GoodCommand (bs : List Byte) : Prop :=
  let op := numOf bs 0 1
  let psz := numOf bs 0 4 / 2 ^ 10 % 4
  let size := sizeOfPsz psz
  let all := numOf bs 0 4 / 2 ^ 8 % 2 = 1
  let host := numOf bs 0 4 / 2 ^ 12 % 2 = 1
  numOf bs 0 4 / 2 ^ 13 % 2 ^ 11 = 0 ∧ op ≤ 5 ∧
  (op = 2 → ¬ all → 12 ≤ numOf bs 4 4 ∧ numOf bs 4 4 ≤ 56 ∧ numOf bs 8 8 % 2 ^ numOf bs 4 4 = 0) ∧
  (op = 3 ∨ op = 4 → (psz = 1 ∨ psz = 2) ∧ numOf bs 16 8 % size = 0 ∧ numOf bs 16 8 < 2 ^ 39) ∧
  (op = 5 → psz ≤ 2 ∧ numOf bs 16 8 % size = 0 ∧ numOf bs 16 8 < 2 ^ 39 ∧ numOf bs 24 8 % size = 0 ∧ (host ∨ numOf bs 24 8 < 2 ^ 39))

/-- A request to retire channel c (R51, R53): refused while a migration runs, and with NORES where no reserve is left; else the
channel migrates from its first chunk on, which moves at once where no frame exchange runs (R225). -/
def RetireAsked (c : Nat) (s t : State) : Prop :=
  let l := { s.link with reqch := BitVec.ofNat 5 c }
  (s.link.mcBusy = true → t = { s with link := l }) ∧
  (s.link.mcBusy = false → (s.link.resv = false ∨ s.goneChannel.isSome = true) → t = { s with link := { l with nores := true } }) ∧
  (s.link.mcBusy = false → s.link.resv = true → s.goneChannel = none →
    ChannelBecomes c { s.chan c with st := .migrating, done := 0 } { l with mcBusy := true, nores := false, moving := s.swap.isNone } s t)

/-- A corrected error of channel c (R48, R49, R51): it counts, and as many within 24 hours as CETHR says ask for its retirement. -/
def ChannelCorrected (c : Nat) (s t : State) : Prop :=
  let seen := s.lastDay (s.chan c).recent ++ [s.tick]
  ∃ a, ChannelBecomes c { s.chan c with ce := counted (s.chan c).ce, recent := seen } s.link s a ∧
    if s.link.cethr ≠ 0 ∧ s.link.cethr.toNat ≤ seen.length ∧ (s.chan c).st = .active then RetireAsked c a t else t = a

/-- What an uncorrectable error makes unreadable, and what else it does (R25, R45, R49). -/
def Struck (s : State) : ErrorSite → State → Prop
  | .data false a, t => t = { s with poison := t.poison } ∧ ∀ w, t.wordPois w = (s.wordPois w || decide (w / 2 = a / 8))
  | .data true a, t => t = { s with hostPois := t.hostPois } ∧
      ∀ w, sget false t.hostPois w = (sget false s.hostPois w || decide (w / 2 = a / 8))
  | .tags false v a n, t => t = { s with poison := t.poison, dirty := t.dirty } ∧
      (∀ w, t.wordPois w = (s.wordPois w || decide (a / 4 ≤ w ∧ w < a / 4 + n))) ∧
      ∀ e, e ∈ t.dirty ↔ e ∈ s.dirty ∧ ¬ (e.2 = v + 1 ∧ a / 4 ≤ e.1 ∧ e.1 < a / 4 + n)
  | .tags true _ a n, t => t = { s with hostPois := t.hostPois } ∧
      ∀ w, sget false t.hostPois w = (sget false s.hostPois w || decide (a / 4 ≤ w ∧ w < a / 4 + n))
  | .vreg k r l, t => if (s.crew k).alive then
        t = { s with crews := t.crews } ∧ (∀ j, j ≠ k → t.crew j = s.crew j) ∧ t.crew k = { s.crew k with vPois := (t.crew k).vPois } ∧
          ∀ w, sget false (t.crew k).vPois w = (sget false (s.crew k).vPois w || decide (w = 64 * r + l))
      else t = s
  | .buffer lc b o, t => t = { s with lcs := t.lcs } ∧ (∀ j, j ≠ lc → t.lcore j = s.lcore j) ∧
      t.lcore lc = { s.lcore lc with pois := (t.lcore lc).pois } ∧
      ∀ w, sget false (t.lcore lc).pois w = (sget false (s.lcore lc).pois w || decide (w = (1048576 * b + o) / 4))
  | .local b o, t => t = { s with blocks := t.blocks } ∧ (∀ j, j ≠ b → t.block j = s.block j) ∧ (s.block b = none → t.block b = none) ∧
      ∀ x, s.block b = some x → ∃ y, t.block b = some y ∧ y = { x with pois := y.pois } ∧
        ∀ w, sget false y.pois w = (sget false x.pois w || decide (w = o / 4))
  | .sector dpa ws, t => let c := s.channelOf dpa
      ∃ b, ChannelBecomes c { s.chan c with ue := counted (s.chan c).ue } s.link s b ∧ t = { b with poison := t.poison } ∧
        ∀ w, t.wordPois w = (s.wordPois w || decide (w / 8 = dpa / 32 ∧ sget 0 s.dirty w = 0 ∧ w ∉ ws))
  | .control k, t => if (s.ctx (ctxOf k)).st = .on then t = { s with ctxs := t.ctxs, adit := t.adit } ∧
        ∀ n, t.ctx n = if n = ctxOf k then { s.ctx n with st := .stopping, pendFault := some { cause := 0x0B } } else s.ctx n
      else t = s

/-- One error after the other. -/
def AllStruck : List ErrorSite → State → State → Prop
  | [], s, t => t = s
  | w :: ws, s, t => ∃ a, Struck s w a ∧ AllStruck ws a t

/-- An uncorrectable error counts on its die, 4 for the control die (R26). -/
def ErrorCounted (die : Nat) (s t : State) : Prop :=
  t = { s with health := { s.health with ueCount := t.health.ueCount } } ∧
  ∀ n, sget 0 t.health.ueCount n = if n = die then counted (sget 0 s.health.ueCount n) else sget 0 s.health.ueCount n

/-- The same for a corrected one. -/
def CorrectionCounted (die : Nat) (s t : State) : Prop :=
  t = { s with health := { s.health with ceCount := t.health.ceCount } } ∧
  ∀ n, sget 0 t.health.ceCount n = if n = die then counted (sget 0 s.health.ceCount n) else sget 0 s.health.ceCount n

/-- Registers of crew k, where it lives, are poisoned (R25, R255): scalar or not, number, lane. -/
def RegsPoisoned (k : Nat) (regs : List (Bool × Nat × Nat)) (s t : State) : Prop :=
  if (s.crew k).alive then
    t = { s with crews := t.crews } ∧ (∀ j, j ≠ k → t.crew j = s.crew j) ∧
    t.crew k = { s.crew k with vPois := (t.crew k).vPois, sPois := (t.crew k).sPois } ∧
    (∀ w, sget false (t.crew k).vPois w = (sget false (s.crew k).vPois w || regs.any fun r => !r.1 && w == 64 * r.2.1 + r.2.2)) ∧
    ∀ j, sget false (t.crew k).sPois j = (sget false (s.crew k).sPois j || regs.any fun r => r.1 && r.2.1 == j)
  else t = s

/-- Only the lane control of one partition changes. -/
def LaneBecomes (part : Nat) (x : LaneCtl) (s t : State) : Prop :=
  t = { s with health := { s.health with lanes := t.health.lanes } } ∧ ∀ j, t.laneCtl j = if j = part then x else s.laneCtl j

/-- A request to retire a physical lane (R31, R32): ignored while one is in progress, for a lane above 33 and for a retired one; with both
spares gone the core is retired; else the lane's retirement is in progress. -/
def LaneAsked (part lane : Nat) (s t : State) : Prop :=
  let x := s.laneCtl part
  let y := { x with req := BitVec.ofNat 6 lane }
  let ignored : Prop := x.busy ≠ none ∨ 33 < lane ∨ x.first.toNat = lane ∨ x.second.toNat = lane
  (ignored → LaneBecomes part y s t) ∧
  (¬ ignored → x.first ≠ 0x3F → x.second ≠ 0x3F → ∃ a, LaneBecomes part { y with nospare := true } s a ∧ t = a.retireCore (part / 4)) ∧
  (¬ ignored → (x.first = 0x3F ∨ x.second = 0x3F) → LaneBecomes part { y with busy := some (BitVec.ofNat 6 lane) } s t)

/-- The physical lane that a logical lane of a partition names (R29): the 32 lowest that are not retired, in ascending order. -/
def physicalLane (x : LaneCtl) (lane : Nat) : Nat :=
  ((List.range 34).filter fun i => decide (i ≠ x.first.toNat ∧ i ≠ x.second.toNat)).getD (lane % 32) 0

/-- Only the account of one matrix unit changes: retests that it owes, its mismatches, the period of its last self-test. -/
def UnitBecomes (u owed : Nat) (seen : List Nat) (period : Nat) (s t : State) : Prop :=
  t = { s with health := { s.health with retest := t.health.retest, mismatch := t.health.mismatch, tested := t.health.tested } } ∧
  (∀ j, sget 0 t.health.retest j = if j = u then owed else sget 0 s.health.retest j) ∧
  (∀ j, sget [] t.health.mismatch j = if j = u then seen else sget [] s.health.mismatch j) ∧
  ∀ j, sget 0 t.health.tested j = if j = u then period else sget 0 s.health.tested j

end Sys2Proof.Claims

/-- R25, R26, R29 to R32, R45, R49, R141, R142: an uncorrectable error counts on its die and poisons what it strikes, or stops the
context whose control state it strikes; a corrected one counts, on its channel too; a parity error poisons what the instruction wrote,
is attributed to the physical lane, and the third within 24 hours asks for its retirement; a self-test runs once in each period of
200,000 ticks, a mismatch owes two retests, and the third within 24 hours or a retest that fails retires the core; a lane that is
requested is refused, or its retirement begins; remapped, it takes the first free place of its partition. That an error named with a
channel counts on its die and on the channel, that control state leaves FLOC zero and that UE counts parity errors is log entry 42. -/
def Obligations.ErrorsAndLanes : Prop :=
  ∀ (s : State),
    (∀ die w, ∃ a t, exec (.eccUncorrectable die w) s = .next t ∧ ErrorCounted die s a ∧ Struck a w t) ∧
    (∀ die, ∃ t, exec (.eccCorrected die none) s = .next t ∧ CorrectionCounted die s t) ∧
    (∀ die c, ∃ a t, exec (.eccCorrected die (some c)) s = .next t ∧ CorrectionCounted die s a ∧ ChannelCorrected c a t) ∧
    (∀ e : ParityHit,
      let lane := physicalLane (s.laneCtl e.part) e.lane
      let key := 64 * e.part + lane
      let seen := s.lastDay (sget [] s.health.parity key) ++ [s.tick]
      ∃ (a b c d t : State), exec (.parityError e) s = .next t ∧ ErrorCounted (e.part / 4 / 34) s a ∧ RegsPoisoned e.crew e.regs a b ∧
        AllStruck e.words b c ∧ d = { c with health := { c.health with parity := d.health.parity } } ∧
        (∀ j, sget [] d.health.parity j = if j = key then seen else sget [] s.health.parity j) ∧
        (if 3 ≤ seen.length then LaneAsked e.part lane d t else t = d)) ∧
    (let u := s.subj.n
     let left := sget 0 s.health.retest u
     let old := sget [] s.health.mismatch u
     let tested := sget 0 s.health.tested u
     let seen := s.lastDay old ++ [s.tick]
     s.clocked = true → u < 544 →
       (0 < left → (∃ t, exec (.matrixSelfTest true) s = .next t ∧ UnitBecomes u (left - 1) old tested s t) ∧
         ∃ a, UnitBecomes u 0 old tested s a ∧ exec (.matrixSelfTest false) s = .next (a.retireCore (u / 4))) ∧
       (left = 0 → tested ≤ s.tick / 200000 →
         (∃ t, exec (.matrixSelfTest true) s = .next t ∧ UnitBecomes u 0 old (s.tick / 200000 + 1) s t) ∧
         ∃ a, UnitBecomes u 2 seen (s.tick / 200000 + 1) s a ∧
           exec (.matrixSelfTest false) s = .next (if 3 ≤ seen.length then a.retireCore (u / 4) else a)) ∧
       (left = 0 → s.tick / 200000 < tested → ∀ pass, exec (.matrixSelfTest pass) s = .next s)) ∧
    (let part := s.subj.n
     let x := s.laneCtl part
     part < 544 → (s.subj.m / 64 % 2 = 1 → ∃ t, exec .lanectlReq s = .next t ∧ LaneAsked part (s.subj.m % 64) s t) ∧
       (s.subj.m / 64 % 2 = 0 → ∃ t, exec .lanectlReq s = .next t ∧ LaneBecomes part { x with req := BitVec.ofNat 6 s.subj.m } s t)) ∧
    (let part := s.subj.n
     let x := s.laneCtl part
     ∀ lane, x.busy = some lane → s.clocked = true → s.cur = none → ∃ a t, exec .laneRemap s = .next t ∧ Signalled 5 a t ∧
       LaneBecomes part (if x.first = 0x3F then { x with first := lane, busy := none } else { x with second := lane, busy := none }) s a)

namespace Sys2Proof.Claims

/-- Of the link block only module m changes. -/
def ModuleBecomes (m : Nat) (x : LinkMod) (s t : State) : Prop :=
  t = { s with link := { s.link with mods := t.link.mods } } ∧ ∀ j, t.lmod j = if j = m then x else s.lmod j

/-- A module of the socket is ACTIVE (R59, R64). -/
def socketUp (s : State) : Prop := (s.lmod 24).st = .active ∨ (s.lmod 25).st = .active

/-- The socket leaves RESET where GRST is zero and a module of it is ACTIVE (R64). -/
def Readied (a t : State) : Prop :=
  (a.adit.st = .reset ∧ a.adit.grst = false ∧ socketUp a → t = { a with adit := { a.adit with st := .ready } }) ∧
  (¬ (a.adit.st = .reset ∧ a.adit.grst = false ∧ socketUp a) → t = a)

/-- What follows when a module has gone DOWN (R39, R90): the die whose four modules to the control die are DOWN is lost, and the
socket with both of its modules DOWN is fenced. -/
def LinkLost (m : Nat) (a t : State) : Prop :=
  let down := fun j => (a.lmod j).st = .down
  let die : Prop := m < 16 ∧ ∀ i, i < 4 → down (4 * (m / 4) + i)
  let socket : Prop := (m = 24 ∨ m = 25) ∧ down 24 ∧ down 25
  (die → t = a.loseDie (m / 4)) ∧ (socket → t = a.fence 6 none) ∧ (¬ die → ¬ socket → t = a)

end Sys2Proof.Claims

/-- R36 to R39, R45, R48 to R54, R145: a flit that fails its CRC counts and is replayed, and the eighth failure of one flit
puts its module into RETRAIN; retraining ends with the module active again, or DOWN, which may lose a die or fence the socket; a lost
die comes back into service, its modules trained again (log entry 62); the host sets the patrol period and the threshold; a request to
retire a channel, with a reserve and every channel active, starts a migration, which moves one chunk at a time and at its end records
the channel; a channel that stops answering poisons every word of its way but those that a die holds; a patrol read counts what it
finds, and poisons the words that it cannot read. That a flit that fails again is the same one or another is a free choice, and where a
patrol read counts, log entry 42; REPAIRED modulo 8 is 61, the words of a lost way 56, a channel that fails and cannot be retired 63. -/
def Obligations.LinksAndChannels : Prop :=
  ∀ (s : State),
    (let m := s.subj.n
     let x := s.lmod m
     x.st = .active → s.modPresent m = true → ∃ n y t, exec .linkCrcError s = .next t ∧ ModuleBecomes m y s t ∧
       (n = 1 ∨ n = x.consecutive + 1) ∧ y = if 8 ≤ n then { x with crcerr := counted x.crcerr, replays := counted x.replays,
                                                                     st := .retrain, retrains := counted x.retrains, consecutive := 0 }
         else { x with crcerr := counted x.crcerr, replays := counted x.replays, consecutive := n }) ∧
    (∀ m repaired half, (s.lmod m).st = .retrain →
      (∃ a t, exec (.retrainEnd m true repaired half) s = .next t ∧ Readied a t ∧
        ModuleBecomes m { s.lmod m with st := .active, repaired := (s.lmod m).repaired + BitVec.ofNat 3 repaired
                                        width := if half then 32 else (s.lmod m).width } s a) ∧
      ∃ a t, exec (.retrainEnd m false repaired half) s = .next t ∧ LinkLost m a t ∧
        ModuleBecomes m { s.lmod m with st := .down, width := 0 } s a) ∧
    (let d := s.subj.n
     d < 4 → s.fuse.cdpres.getLsbD d = true → s.inService d = false → s.ret.dieoff.getLsbD d = false → s.dev.st = .run →
       ∃ t, exec .dieRejoin s = .next t ∧ t = { s with
           link := { s.link with mods := t.link.mods, online := s.link.online ||| BitVec.ofNat 4 (2 ^ s.vdOf d) }
           health := { s.health with rail := t.health.rail } } ∧
         t.inService d = true ∧
         (let point := match s.health.change with
            | some c => if (c.phase = .stall ∨ c.phase = .gated) ∧ c.target < s.health.cur.toNat then c.target else s.health.cur.toNat
            | none => s.health.cur.toNat
          ∀ e, sget 0 t.health.rail e = if e = d then s.railFor point d else sget 0 s.health.rail e) ∧
         ∀ j, if j / 4 = d ∧ (s.lmod j).st = .down then
             ∃ w : BitVec 7, (w = 64 ∨ w = 32) ∧ t.lmod j = { s.lmod j with st := .active, width := w }
           else t.lmod j = s.lmod j) ∧
    (∀ v : BitVec 32, s.hostOpen = true → ∃ t, exec (.scrubctlWrite v) s = .next t ∧
      t = { s with link := { s.link with period := BitVec.ofNat 8 v.toNat, cethr := BitVec.ofNat 8 (v.toNat / 65536) } }) ∧
    (∀ v : BitVec 32, s.hostOpen = true →
      let c := v.toNat % 32
      (v.toNat / 32 % 2 = 0 → exec (.mcretReq v) s = .next { s with link := { s.link with reqch := BitVec.ofNat 5 c } }) ∧
      (v.toNat / 32 % 2 = 1 → ∃ t, exec (.mcretReq v) s = .next t ∧ RetireAsked c s t)) ∧
    (s.swap ≠ none → exec .migrationChunkDone s = .next s) ∧
    (∀ c, s.goneChannel = some c → s.link.mcBusy = true → (s.chan c).st = .migrating → s.clocked = true → s.swap = none →
      let n := (s.chan c).done.toNat + 1
      let x := { s.chan c with done := BitVec.ofNat 13 n }
      (n < s.chunks → ∃ (a b : State), exec .migrationChunkDone s = .next b.settleGroups ∧ ChannelBecomes c x s.link s a ∧
        b = { a with link := { a.link with moving := b.link.moving } } ∧
        (b.link.moving = false ↔ ∃ m bs, m < 64 ∧ NextCommand a m bs ∧ GoodCommand bs ∧ numOf bs 0 1 = 5)) ∧
      (s.chunks ≤ n → ∃ a t, exec .migrationChunkDone s = .next t ∧
        ChannelBecomes c { x with st := .retired } { s.link with mcBusy := false, moving := false } s a ∧
        Signalled 3 { a with ret := { a.ret with chret := some c } } t)) ∧
    (let c := s.subj.n
     let refused : Prop := s.link.mcBusy = true ∨ s.link.resv = false ∨ s.goneChannel ≠ none
     s.dev.st = .run → c < 32 → (s.chan c).st = .active →
       (refused → ∃ t, exec .channelRetrainFail s = .next t ∧ RetireAsked c s t) ∧
       (¬ refused → s.link.deadWay = none → ∃ a t, exec .channelRetrainFail s = .next t ∧ RetireAsked c s a ∧
         t = { a with link := { a.link with deadWay := some c }, poison := t.poison } ∧
         (∀ w, wayOf (4 * w) ≠ c → t.wordPois w = s.wordPois w) ∧
         ∀ w, wayOf (4 * w) = c → t.wordPois w = !(s.dirty.any (fun e => e.1 == w) && !s.wordPois w))) ∧
    ∀ dpa, s.link.period ≠ 0 → dpa < s.usable →
      let c := s.channelOf dpa
      exec (.patrolScrubRead dpa .clean) s = .next s ∧
      (∃ t, exec (.patrolScrubRead dpa .corrected) s = .next t ∧ ChannelCorrected c s t) ∧
      ∃ a t, exec (.patrolScrubRead dpa .uncorrectable) s = .next t ∧
        ChannelBecomes c { s.chan c with ue := counted (s.chan c).ue } s.link s a ∧ t = { a with poison := t.poison } ∧
        ∀ w, t.wordPois w = (s.wordPois w || decide (w / 8 = dpa / 32 ∧ sget 0 s.dirty w = 0))

namespace Sys2Proof.Claims

/-! ## The host -/

/-- The host writes bytes through BAR2 (R96, R97, R232): device memory below the usable size, whose words that are wholly written
lose their poison; the staging buffer in LOAD and VERIFY; nothing in BOOT. -/
def Bar2Written (a : Nat) (bs : List Byte) (s t : State) : Prop :=
  match s.dev.st with
  | .boot => t = s
  | .load | .verify => t = { s with dev := { s.dev with staging := t.dev.staging } } ∧
      ∀ i, sget (0 : Byte) t.dev.staging i = if a ≤ i ∧ i < a + bs.length ∧ i < 2 ^ 26 then bs.getD (i - a) 0 else sget 0 s.dev.staging i
  | _ =>
    let fit := bs.take (s.usable - a)
    OnlyMemory s t ∧ StoresLand [(.dev a, fit)] s t ∧
      ∀ w, t.wordPois w = (s.wordPois w && !decide (a ≤ 4 * w ∧ 4 * w + 4 ≤ a + fit.length))

/-- A place behind the host link. -/
def onHostLink : Place → Bool
  | .host _ => true
  | _ => false

/-- Whether a reduction's part, or one of an exact record's two places, lies behind the host link. -/
def argOnLink (g : AtomArg) : Bool := onHostLink g.place || onHostLink g.place2

/-- Posted writes that were held, oldest first, become visible or stay held; those of a requester whose plain write arrives now become
visible (R57). -/
def Shown (requester : Option Nat) : List Posted → State → State → Prop
  | [], s, t => t = s
  | w :: rest, s, t => ∃ a, (Bar2Written w.addr w.data s a ∨
      (requester ≠ some w.requester ∧ a = { s with link := { s.link with posted := s.link.posted ++ [w] } })) ∧ Shown requester rest a t

/-- The guest of a machine changes, and nothing else: of its queues those that `f` changes, as `f` says. -/
def QueuesBecome (f : Nat → GuestQ → GuestQ) (a : Adit) (s t : State) : Prop :=
  t = { s with adit := { a with gqs := t.adit.gqs } } ∧ ∀ q, t.gq q = f q (s.gq q)

/-- ABORT for every queue of context n that runs or is stopped (R65, R83, R88). -/
def QueuesAborted (n : Nat) (s t : State) : Prop :=
  let qs := (List.range 16).filter fun q => (s.gq q).en && decide ((s.gq q).ctx.toNat = n) && ((s.gq q).st == .run || (s.gq q).st == .stopped)
  QueuesBecome (fun q g => if q ∈ qs then { g with asked := some (s.tick, true) } else g)
    { s.adit with toGuest := s.adit.toGuest ++ qs.map fun q => guestMsg 4 (BitVec.ofNat 4 q) } s t

/-- The context stops with a fatal fault, and its guest queues hear ABORT; nothing else changes (R102, R88). -/
def Faulted (n : Nat) (f : FaultInfo) (s t : State) : Prop :=
  ∃ a : State, CtxBecomes n { s.ctx n with st := .stopping, pendFault := some f } s a ∧ QueuesAborted n a t

/-- A guest that has an enabled queue of the PASID is sent a SHOOTDOWN with the next tag (R78). -/
def GuestShot (pasid : BitVec 20) (base : DWord) (log2 : Nat) (s t : State) : Prop :=
  let tag := s.adit.nextTag
  if s.adit.st = .ready ∧ ((List.range 16).any fun q => (s.gq q).en && (s.ctx (s.gq q).ctx.toNat).pasid == pasid) = true then
    t = { s with adit := { s.adit with
      nextTag := tag + 1
      sds := s.adit.sds ++ [{ tag, pasid, all := false, base, log2 := BitVec.ofNat 6 log2, due := s.tick + 1000 }]
      toGuest := s.adit.toGuest ++ [{ ty := 5, q := 0, z1 := 0, tag, pasid, all := 0, w := 0, st := 0, psz := 0, cls := 0, z2 := 0
                                      arg := base / 4096 * 4096 + BitVec.ofNat 64 log2 }] } }
  else t = s

/-- The walks of a page in flight end with NotPresent, and a later miss may still join this one (R214). -/
def Missed (m va lvl : Nat) (s t : State) : Prop :=
  let pasid := (s.ctx m).pasid
  let mine := fun (p : BitVec 20) (page : Nat) => p == pasid && page == va / 4096
  t = { s with
    walks := s.walks.map fun r => if mine r.pasid (r.va / 4096) && !r.pinned then { r with first := .notPresent lvl, pinned := true } else r
    misses := { pasid, page := va / 4096, lvl } :: s.misses.filter fun x => !mine x.pasid x.page }

/-- A fault record of a page is open in context m (R217, R220): one that stands there for it, or a new one after the others. -/
def RecordOpen (m va : Nat) (write : Bool) (s t : State) : Prop :=
  (∃ lvl, lvl < 4 ∧ Missed m va lvl s { t with ctxs := s.ctxs }) ∧ (∀ j, j ≠ m → t.ctx j = s.ctx j) ∧ t.ctx m = { s.ctx m with recs := (t.ctx m).recs } ∧
  (∃ x ∈ (t.ctx m).recs, x.va = va ∧ x.write = write) ∧ ∃ new, (t.ctx m).recs = (s.ctx m).recs ++ new

/-- Page requests of the guest that wait for a page are answered (R76): each hears PGRSP with its tag and a status. -/
def Answered (n : Nat) (key : Nat × Bool) (st : BitVec 2) (a b : Adit) (s : State) : Prop :=
  let mine := fun (r : GuestReq) => r.waitRec && r.pasid == (s.ctx n).pasid && r.va / 4096 * 4096 == key.1 && r.write == key.2
  b = { a with reqs := a.reqs.filter fun r => !mine r
               toGuest := a.toGuest ++ (a.reqs.filter mine).map fun r =>
                 { ty := 7, q := 0, z1 := 0, tag := r.tag, pasid := 0, all := 0, w := 0, st, psz := 0, cls := 0, z2 := 0, arg := 0 } }

/-- Every agent of a context that waits for a page goes on (R163, R200, R221): its parked threads are LIVE, its engine commands run,
its queue processor, its children and its completion words wait no longer; the guest is answered. -/
def Awakened (n : Nat) (key : Nat × Bool) (s t : State) : Prop :=
  let clear := fun (w : Option (Nat × Bool)) => if w = some key then none else w
  t = { s with crews := t.crews, lcs := t.lcs, ctxs := t.ctxs, grids := t.grids, adit := t.adit, misses := t.misses } ∧
  (∀ m, m ∈ t.misses ↔ m ∈ s.misses ∧ ¬ (m.pasid = (s.ctx n).pasid ∧ m.page = key.1 / 4096)) ∧
  (∀ k, t.crew k = { s.crew k with lanes := (t.crew k).lanes }) ∧
  (∀ k l, (s.crew k).alive = true → ctxOf k = n → l < 64 → ((s.crew k).lane l).st = .parked → ((s.crew k).lane l).park = some key →
    (t.crew k).lane l = { (s.crew k).lane l with st := .live, park := none }) ∧
  (∀ k l, ((s.crew k).lane l).park ≠ some key → (t.crew k).lane l = (s.crew k).lane l) ∧
  (∀ lc, t.lcore lc = { s.lcore lc with ecs := (t.lcore lc).ecs }) ∧
  (∀ lc e, lc / 128 = n → ∀ c ∈ ((t.lcore lc).ec e).cmds, c.susp ≠ some key) ∧
  (∀ m, t.ctx m = if m = n then { s.ctx n with slotWait := clear (s.ctx n).slotWait, childWait := clear (s.ctx n).childWait }
    else s.ctx m) ∧
  (∀ g x, s.grid g = some x → ∃ y, t.grid g = some y ∧ y = { x with compWait := y.compWait } ∧
    (x.ctx = n → y.compWait = clear x.compWait)) ∧
  Answered n key 0 s.adit t.adit s

end Sys2Proof.Claims

/-- R55 to R57, R94, R96, R97, R232: the host writes its own memory or, through BAR2 or, where CXLM is acknowledged, through CXL.mem, the
device's or the staging buffer; it reads the latter two; a peer's posted write without relaxed ordering is performed as such a write, after
every earlier one of its requester, and one with relaxed ordering now or later. The oldest store of a crew that the host link drops, or
where none waits the parts of its oldest reduction that go to host pages, faults its context with the address of the write. Where BAR2
leads in each device state is log entry 43, and an access by CXL.mem is given by its DPA (log entry 65). -/
def Sys2Proof.Claims.HostAccesses : Prop :=
  (∀ (s : State) (a : Nat) (bs : List (BitVec 8)),
    (∃ t, exec (.hostMemoryWrite .host a bs) s = .next t ∧ OnlyMemory s t ∧ StoresLand [(.host a, bs)] s t ∧
      ∀ w, sget false t.hostPois w = (sget false s.hostPois w && !decide (a ≤ 4 * w ∧ 4 * w + 4 ≤ a + bs.length))) ∧
    (∃ t, exec (.hostMemoryWrite .bar2 a bs) s = .next t ∧ Bar2Written a bs s t) ∧
    (s.feature 1 = true → ∃ t, exec (.hostMemoryWrite .cxlMem a bs) s = .next t ∧ Bar2Written a bs s t) ∧
    (s.feature 1 = false → exec (.hostMemoryWrite .cxlMem a bs) s = .next s) ∧
    (∀ relaxed, let requester := s.subj.n
      ∃ b t, exec (.peerPostedWrite relaxed a bs) s = .next t ∧
      Shown (if relaxed then none else some requester) s.link.posted { s with link := { s.link with posted := [] } } b ∧
      (Bar2Written a bs b t ∨ (relaxed = true ∧
        t = { b with link := { b.link with posted := b.link.posted ++ [{ requester, addr := a, data := bs }] } }))) ∧
    (s.subj.k ≠ 0 → s.feature 1 = false → exec .hostMemoryRead s = .next s) ∧
    (s.subj.k = 0 ∨ s.feature 1 = true → ∃ t, exec .hostMemoryRead s = .next t ∧
      t = { s with dev := { s.dev with hostData := t.dev.hostData } } ∧
      t.dev.hostData.length = s.subj.m ∧ ∀ i, i < s.subj.m → t.dev.hostData[i]? = some
        (if s.dev.st = .load ∨ s.dev.st = .verify then (if s.subj.n + i < 2 ^ 26 then sget 0 s.dev.staging (s.subj.n + i) else 0)
         else if s.subj.n + i < s.usable then s.placeByte (.dev (s.subj.n + i)) else 0))) ∧
  ∀ (s : State),
    let k := s.subj.n
    let c := s.crew k
    let dropped := fun (va : Nat) (a t : State) => exec .hostLinkWriteDrop s = .next t ∧ a = { s with crews := a.crews } ∧
      (∀ j, j ≠ k → a.crew j = s.crew j) ∧
      (let b := { a with dev := { s.dev with aer := s.dev.aer + 1 } }
       let f : FaultInfo := { cause := 0x0B, addr := BitVec.ofNat 64 va, lcore := BitVec.ofNat 7 (k / 256 % 128), crew := BitVec.ofNat 8 (k % 256) }
       ((s.ctx (ctxOf k)).st = .on → Faulted (ctxOf k) f b t) ∧
       ((s.ctx (ctxOf k)).st ≠ .on → t = b))
    (∀ e rest pl bs, c.queue = e :: rest → e.op = .store pl bs → onHostLink pl = true →
      ∃ (a t : State), dropped e.va a t ∧ a.crew k = { c with queue := rest, lcs := (a.crew k).lcs }) ∧
    (∀ x rest g, c.queue = [] → c.atoms = x :: rest → x.ret = false → x.args.find? argOnLink = some g →
      let left := x.args.filter fun g => !argOnLink g
      ∃ (a t : State), dropped (if onHostLink g.place then g.va else (g.va / 4096 + 1) * 4096) a t ∧
        a.crew k = { c with atoms := if left = [] then rest else { x with args := left } :: rest, lcs := (a.crew k).lcs })

/-- R212: an ATS invalidation is served as a shootdown in the context that owns the PASID, and is complete at once where none
does; a positive completion is cached and wakes what waited for it, a negative one asks by PRI; a successful response repeats the
translation, a failed one faults the context of a thread that waits. -/
def Sys2Proof.Claims.HostTranslations : Prop :=
  ∀ (s : State),
    (∀ (pasid : BitVec 20) (base : BitVec 64) (log2 : Nat),
      (∀ n, s.ctxOfPasid pasid = some n → ∃ (a t : State), exec (.atsInvalidation pasid base log2) s = .next t ∧ a = { s with ctxs := a.ctxs } ∧
        (∀ m, a.ctx m = if m = n then { s.ctx n with inval := (s.ctx n).inval ++ [(base, log2)] } else s.ctx m) ∧
        GuestShot pasid base log2 a t) ∧
      (s.ctxOfPasid pasid = none → ∃ t, exec (.atsInvalidation pasid base log2) s = .next t ∧
        t = { s with dev := { s.dev with atsDone := s.dev.atsDone + 1 }, atsCache := t.atsCache } ∧
        ∀ e, e ∈ t.atsCache ↔ e ∈ s.atsCache ∧ e.pasid ≠ pasid)) ∧
    ∀ (i : Nat) (q : AtsReq), s.ats[i]? = some q →
      (q.pri = false → ∀ p : Nat, ∃ (a t : State), exec (.atsCompletion i (some p)) s = .next t ∧
        a = { s with ats := s.ats.eraseIdx i
                     atsCache := { pasid := (s.ctx q.ctx).pasid, addr := q.addr, hpa := p / 4096 * 4096 } :: s.atsCache } ∧
        Awakened q.ctx (atsKey q.addr) a t) ∧
      (q.pri = false → exec (.atsCompletion i none) s = .next { s with ats := s.ats.set i { q with pri := true } }) ∧
      (q.pri = true → exec (.priResponse i true) s = .next { s with ats := s.ats.set i { q with pri := false } }) ∧
      (q.pri = true → ∃ any, exec (.priResponse i false) s =
        .next (State.denyPage { s with ats := s.ats.eraseIdx i } q.ctx (atsKey q.addr) q.who any)) ∧
      (∀ k l, q.pri = true → (s.crew k).alive = true → ctxOf k = q.ctx → l < 64 → ((s.crew k).lane l).st = .parked →
        ((s.crew k).lane l).park = some (atsKey q.addr) → (s.ctx q.ctx).st = .on →
        ∃ t f, exec (.priResponse i false) s = .next t ∧ (t.ctx q.ctx).st = .stopping ∧ (t.ctx q.ctx).pendFault = some f ∧ f.cause = 0x08 ∧
          ∀ r, q.who = some r → r.src = 0 → k = 32768 * q.ctx + 256 * r.lcore.toNat + r.unit.toNat → l = r.tid.toNat →
            f = { cause := 0x08, addr := r.ea, pc := r.pc, lcore := r.lcore, crew := r.unit, tid := r.tid })

namespace Sys2Proof.Claims

/-! ## The guest -/

/-- Queues that run or are stopped. -/
def busyQueues (s : State) : List Nat :=
  (List.range 16).filter fun q => (s.gq q).en && ((s.gq q).st == .run || (s.gq q).st == .stopped)

/-- What packets of a guest queue have written becomes undefined (R83, R88): the words that satisfy `mine`; every other byte stays. -/
def Spoilt (mine : PortBytes → Prop) (s t : State) : Prop :=
  t = { s with mem := t.mem, undef := t.undef, adit := { s.adit with wrote := t.adit.wrote } } ∧
  (∀ w, w ∈ t.adit.wrote ↔ w ∈ s.adit.wrote ∧ ¬ mine w) ∧
  ∀ q : Place, (∀ w ∈ s.adit.wrote, mine w → ∀ i, i < 4 → q ≠ .dev (w.addr + i)) → t.placeByte q = s.placeByte q

/-- The socket is fenced (R83, R88, R90): its cause and queue are shown and counted, what the guest waits for is dropped, every queue that
ran or was stopped is HALTED and what its packets wrote is undefined, DEVEVT.ADFENCE is set. The engine contexts of those queues fail, and
evictions that waited for the guest complete. -/
def Fenced (cause : BitVec 4) (q : Option Nat) (s t : State) : Prop :=
  ∃ a b c d e : State, QueuesBecome (fun j g => if j ∈ busyQueues s then { g with st := .halted, asked := none } else g)
      { s.adit with reqs := [], sds := [] } { s with walks := [] } a ∧ Spoilt (fun w => w.q ∈ busyQueues s) a b ∧
    c = (busyQueues s).foldl State.queueFault b ∧
    d = { c with adit := { c.adit with
      st := .fenced, resetting := false, cause, cqv := if q.isSome then 1 else 0, cq := BitVec.ofNat 4 (q.getD 0)
      fences := if c.adit.fences = 65535 then 65535 else c.adit.fences + 1 } } ∧
    Signalled 1 d e ∧ t = e.settleGroups

/-- The fields of a guest message that R72 does not give its type are zero. -/
def CleanMsg (m : GuestMsg) (queue tag page arg : Bool) : Prop :=
  m.z1 = 0 ∧ m.z2 = 0 ∧ m.all = 0 ∧ m.st = 0 ∧ m.psz = 0 ∧ m.cls = 0 ∧ (queue = true ∨ m.q = 0) ∧ (tag = true ∨ m.tag = 0) ∧
    (page = true ∨ (m.pasid = 0 ∧ m.w = 0)) ∧ (arg = true ∨ m.arg = 0)

/-- ABORT for every queue that runs or is stopped (R64, R88). -/
def Aborted (s t : State) : Prop :=
  QueuesBecome (fun j g => if j ∈ busyQueues s then { g with asked := some (s.tick, true) } else g)
    { s.adit with toGuest := s.adit.toGuest ++ (busyQueues s).map fun q => guestMsg 4 (BitVec.ofNat 4 q) } s t

/-- A reset that GRST has asked for is done once no queue runs or is stopped (R64). -/
def ResetDone (a t : State) : Prop :=
  let free : Prop := a.adit.st = .ready ∧ a.adit.resetting = true ∧ busyQueues a = []
  (free → Readied { a with walks := [], adit := { a.adit with st := .reset, resetting := false, reqs := [], sds := [] } } t) ∧
  (¬ free → t = a)

/-- Groups whose eviction waited for the guest leave, and a reset that waited for it is done (R64, R84). -/
def GuestSettled (a t : State) : Prop := ResetDone a.settleGroups t

/-- An engine context gets its error bit and its context, where it runs, stops, with ABORT for its queues that run or are stopped (R83,
R201); the manual names no cause for it. -/
def EngineErrs (lc e : Nat) (s t : State) : Prop :=
  ∃ a : State, EcBecomes lc e { (s.lcore lc).ec e with err := true } s a ∧
  ((s.ctx (lc / 128)).st = .on → ∃ (c : BitVec 8) (x : DWord), Faulted (lc / 128) { cause := c, addr := x, lcore := BitVec.ofNat 7 (lc % 128) } a t) ∧
  ((s.ctx (lc / 128)).st ≠ .on → t = a)

/-- The home slices hold the write of RIDX of a queue (R53, R225). -/
def RidxWaits (s : State) (q : Nat) : Prop :=
  match s.translate (s.gq q).ctx.toNat ((s.gq q).gqva.toNat + 64) 8 .write 650 with
  | .ok pl _ => s.swapping pl = true
  | .hold _ => True
  | _ => False

/-- Only guest queue q changes. -/
def QueueBecomes (q : Nat) (g : GuestQ) (s t : State) : Prop := QueuesBecome (fun j x => if j = q then g else x) s.adit s t

/-- A page from va on allows a request of the guest (R75 to R77): it holds the bytes asked for, it is a normal page that allows the access or
an open or sealed sinter page that is read, and the guest has not given it up. -/
def Allows (s : State) (r : PortReq) (va : Nat) (l : Leaf) : Prop :=
  l.base ≤ r.dpa.toNat ∧ r.dpa.toNat + r.size ≤ l.base + l.size ∧ s.ackedPage r.pasid va l.size = false ∧
    ((l.cls = 0 ∧ (r.write = true → l.w = true)) ∨
      (l.cls = 1 ∧ r.write = false ∧ s.feature 8 = true ∧ (l.size = 65536 ∨ l.size = 2097152) ∧ (sget none s.sinter l.base).isSome = true))

/-- A page of context n that a walk finds, from va on (R207). -/
def WalkPage (s : State) (n va : Nat) (l : Leaf) : Prop := ∃ v, v < 2 ^ 56 ∧ s.walk n v = .leaf l ∧ va = v / l.size * l.size

/-- A page of the guest's PASID through which a request is allowed (R75 to R77): a walk of the context finds it, or it is still cached
(R215). -/
def GuestPage (s : State) (r : PortReq) (va : Nat) (l : Leaf) : Prop :=
  ∃ n, s.ctxOfPasid r.pasid = some n ∧ (s.pasidQueue r.pasid).isSome = true ∧
    (WalkPage s n va l ∨ ∃ e ∈ s.tlb, e.pasid = (s.ctx n).pasid ∧ e.va = va ∧ e.leaf = l) ∧ Allows s r va l

/-- A request of the guest is performed through a page (R75, R77, R228): it writes the words it names, with their poison, for its packet, and
no other byte; or it is given the words it asks for with theirs, where those of a sinter page from its TAIL on are zero. -/
def Served (s : State) (r : PortReq) (l : Leaf) (t : State) : Prop :=
  let a := r.dpa.toNat
  (r.write = true → OnlyMemory { s with adit := { s.adit with
      wrote := s.adit.wrote ++ r.data.map fun w => ({ q := r.q, seq := r.seq, addr := a + 4 * w.1 } : PortBytes) } } t ∧
    StoresLand (r.data.map fun w => (.dev (a + 4 * w.1), wordLe w.2.1)) s t ∧
    ∀ w, t.wordPois w = ((r.data.reverse.find? fun x => a / 4 + x.1 == w).map (·.2.2)).getD (s.wordPois w)) ∧
  (r.write = false → t = { s with adit := { s.adit with toPort := t.adit.toPort } } ∧ t.adit.toPort.length = r.size / 4 ∧
    ∀ i, i < r.size / 4 →
      (l.cls = 0 → t.adit.toPort[i]? = some (wordAt s (.dev (a + 4 * i)), s.wordPois (a / 4 + i))) ∧
      (∀ x, l.cls = 1 → sget none s.sinter l.base = some x → ∃ w, t.adit.toPort[i]? = some (w, s.wordPois (a / 4 + i) && decide (a + 4 * i < l.base + x.tail)) ∧
        ∀ j, j < 4 → BitVec.ofNat 8 (w.toNat / 256 ^ j) = if a + 4 * i + j < l.base + x.tail then s.placeByte (.dev (a + 4 * i + j)) else 0))

/-- What a walk finds that starts now for a request of the guest, and whether it ends with that: what the one in flight for the same page
found, if there is one (R214). -/
def walkFound (s : State) (pasid : BitVec 20) (va : Nat) : WalkRes × Bool :=
  match s.walks.find? (fun r => r.pasid == pasid && r.va / 4096 == va / 4096), s.ctxOfPasid pasid with
  | some r, _ => (r.first, r.pinned)
  | none, some n => (s.walk n va, false)
  | none, none => (.prot, false)

end Sys2Proof.Claims

/-- R37, R60 to R66, R68, R78, R84, R88, R90: writing GRST one aborts every queue of a READY socket, or resets a socket without any; with
GRST zero the modules train (log entry 61) and the socket comes back with a module ACTIVE; a fenced socket is unfenced under GRST; a queue is
enabled if its configuration is good and refused with CFGERR otherwise, and is disabled once idle; a queue that does not stop in 5,000
ticks, and a shootdown that is not acknowledged in time, are breaches. The lanes of a module that trains are a free choice (log entry 18);
the rest of log entries 68 to 70 is the model's choice. -/
def Obligations.SocketControl : Prop :=
  ∀ (s : State),
    let grst := fun (on : Bool) => { s with adit := { s.adit with grst := on } }
    let free : State := { s with walks := [], adit := { s.adit with grst := true, st := .reset, resetting := false, reqs := [], sds := [] } }
    (s.dev.st = .load ∨ s.dev.st = .verify → ∀ on, exec (.adctlGrst on) s = .next s) ∧
    (s.dev.st ≠ .load → s.dev.st ≠ .verify → s.adit.st = .ready → s.adit.resetting = false →
      (busyQueues s = [] → exec (.adctlGrst true) s = .next free) ∧
      (busyQueues s ≠ [] → ∃ t, exec (.adctlGrst true) s = .next t ∧
        Aborted { s with adit := { s.adit with grst := true, resetting := true } } t)) ∧
    (s.dev.st ≠ .load → s.dev.st ≠ .verify → s.adit.st ≠ .ready ∨ s.adit.resetting = true → exec (.adctlGrst true) s = .next (grst true)) ∧
    (s.dev.st ≠ .load → s.dev.st ≠ .verify → s.adit.st = .absent → exec (.adctlGrst false) s = .next (grst false)) ∧
    (s.dev.st ≠ .load → s.dev.st ≠ .verify → s.adit.st ≠ .absent → ∃ a t, exec (.adctlGrst false) s = .next t ∧ Readied a t ∧
      a = { grst false with link := { s.link with mods := a.link.mods } } ∧
      ∀ j, a.lmod j = if (j = 24 ∨ j = 25) ∧ (s.lmod j).st = .down then { s.lmod j with st := .train } else s.lmod j) ∧
    (s.adit.st = .fenced → s.adit.grst = true → exec .adctlUnfence s = .next { s with adit := { s.adit with st := .reset } }) ∧
    (¬ (s.adit.st = .fenced ∧ s.adit.grst = true) → exec .adctlUnfence s = .next s) ∧
    (∀ m id, (m = 24 ∨ m = 25) → s.adit.st ≠ .absent → s.adit.grst = false → ∃ (a t : State) (w : BitVec 7) (r : BitVec 3),
      (w = 64 ∨ w = 32) ∧ ModuleBecomes m { s.lmod m with st := .active, width := w, repaired := r } s a ∧
      exec (.aditLinkActive m id) s = .next t ∧ Readied { a with adit := { s.adit with adid := id } } t) ∧
    (∀ q (v : BitVec 32), q < 16 → s.feature 2 = true →
      let g := { s.gq q with sz := BitVec.ofNat 4 (v.toNat / 2), ctx := BitVec.ofNat 6 (v.toNat / 256) }
      let good := 4 ≤ g.sz.toNat ∧ g.sz.toNat ≤ 12 ∧ s.adit.st = .ready ∧ g.gqva ≠ 0 ∧ g.gqrrec ≠ 0 ∧ (s.ctx g.ctx.toNat).en = true
      (v.toNat % 2 = 1 → (s.gq q).en = false → good → ∃ t, exec (.gqcfgEnable q v) s = .next t ∧
        QueuesBecome (fun j x => if j = q then { g with
            en := true, cfgerr := false, st := .run, widx := 0, ridx := 0, seqs := [], asked := none, torn := false
            bound := g.bound.filter fun b => b.1 / 128 == g.ctx.toNat } else x)
          { s.adit with wrote := s.adit.wrote.filter fun w => w.q != q } s t) ∧
      (v.toNat % 2 = 1 → (s.gq q).en = false → ¬ good → ∃ t, exec (.gqcfgEnable q v) s = .next t ∧
        QueueBecomes q { g with cfgerr := true } s t) ∧
      (v.toNat % 2 = 1 → (s.gq q).en = true → exec (.gqcfgEnable q v) s = .next s) ∧
      (v.toNat % 2 = 0 → (s.gq q).en = false → ∃ t, exec (.gqcfgDisable q v) s = .next t ∧ QueueBecomes q g s t) ∧
      (v.toNat % 2 = 0 → (s.gq q).en = true →
        ((s.gq q).st = .stopped ∨ (s.gq q).st = .halted ∨ ((s.gq q).st = .run ∧ (s.gq q).ridx = (s.gq q).widx)) →
        ∃ a t, exec (.gqcfgDisable q v) s = .next t ∧ QueueBecomes q { s.gq q with en := false, st := .idle, asked := none } s a ∧
          ResetDone a t) ∧
      (v.toNat % 2 = 0 → (s.gq q).en = true → (s.gq q).st = .run → (s.gq q).ridx ≠ (s.gq q).widx → exec (.gqcfgDisable q v) s = .next s)) ∧
    (s.adit.st = .ready → ∀ t0 abort, (s.gq s.subj.n).en = true → (s.gq s.subj.n).asked = some (t0, abort) → t0 + 5000 < s.tick →
      ∃ t, exec .stoppedDeadline s = .next t ∧ Fenced 2 (some s.subj.n) s t) ∧
    (∀ tag, s.adit.st = .ready → (∃ d ∈ s.adit.sds, d.tag = tag ∧ d.due < s.tick) →
      ∃ t, exec (.sdackDeadline tag) s = .next t ∧ Fenced 1 none s t)

/-- R73, R76 to R84, R88, R214: RETIRE of the oldest packet of a running queue advances RIDX, writes it, then sets the timeline counter, and
any other is a breach (of a disabled queue, too: log entry 71); FAULT halts its queue, spoils what that packet and later ones wrote, and
fails its engine context, whose context stops with ABORT for its other queues; STOPPED ends a pre-emption or an abort, after a pre-emption
the queue goes on at once where no logical core holds it and its context runs again, and late is a breach; SDACK ends its SHOOTDOWN, and late or of an unknown
TAG is a breach; TRQ and PGREQ wait for their walk, joining one in flight for their page, unless 64 wait or the TAG is in use; a message of
an unlisted type, one whose zero fields are not zero and one that names a disabled queue are breaches of cause BADMSG. That RIDX is not
written where its page is absent, what a request of a joined walk hears and that an unlisted type sets CQV to zero is log entry 41. -/
def Obligations.GuestMessages : Prop :=
  ∀ (s : State) (m : GuestMsg), s.adit.st = .ready →
    let q := m.q.toNat
    let g := s.gq q
    (m.ty = 0x81 → RidxWaits s q → exec (.retire m) s = .next s) ∧
    (m.ty = 0x81 → CleanMsg m true false false true → ¬ RidxWaits s q →
      let good := g.st = .run ∧ g.seqs.head? = some m.arg
      (good → ∃ a b c t : State, exec (.retire m) s = .next t ∧
        QueueBecomes q { g with ridx := g.ridx + 1, seqs := g.seqs.tail } s a ∧
        (∀ pl l, a.translate g.ctx.toNat (g.gqva.toNat + 64) 8 .write 650 = .ok pl l →
          OnlyMemory { a with tlb := b.tlb, wcache := b.wcache, walks := b.walks, misses := b.misses } b ∧ SameWalks a b ∧
          StoresLand [(pl, bytesLe 8 (g.ridx + 1))] a b) ∧
        ((∀ pl l, a.translate g.ctx.toNat (g.gqva.toNat + 64) 8 .write 650 ≠ .ok pl l) → b = a) ∧
        c = { b with adit := { b.adit with wrote := s.adit.wrote.filter fun w => !(w.q == q && w.seq == m.arg) } } ∧
        (g.bound = none → t = c) ∧
        ∀ lc e, g.bound = some (lc, e) → ∃ d, EcBecomes lc e { (s.lcore lc).ec e with count := m.arg } c d ∧
          t = (d.progress (lc / 128)).unbind lc) ∧
      (¬ good → ∃ t, exec (.retire m) s = .next t ∧ Fenced 3 (some q) s t)) ∧
    (m.ty = 0x82 → CleanMsg m true false false true → g.en = true → ∃ a b c t : State,
      exec (.fault m) s = .next t ∧ QueueBecomes q { g with st := .halted, asked := none } s a ∧
      Spoilt (fun w => w.q = q ∧ m.arg.toNat ≤ w.seq.toNat) a b ∧ (g.bound = none → c = b) ∧
      (∀ lc e, g.bound = some (lc, e) → EngineErrs lc e b c) ∧ GuestSettled c t) ∧
    (m.ty = 0x83 → CleanMsg m true false false false → g.en = true → ∀ t0 abort, g.asked = some (t0, abort) →
      (s.tick ≤ t0 + 5000 → ∃ a b c t : State, exec (.stopped m) s = .next t ∧
        QueueBecomes q { g with st := if abort then .halted else .stopped, asked := none } s a ∧
        (if abort then Spoilt (fun w => w.q = q) a b else b = a) ∧
        (let u := b.settleGroups
         let goesOn : Prop := abort = false ∧ (u.gq q).bound = none ∧ ∃ lc ∈ u.boundCores (u.gq q).ctx.toNat, (u.lcore lc).leaving = none
         (goesOn → QueuesBecome (fun j x => if j = q then { x with st := .run, asked := none } else x)
           { u.adit with toGuest := u.adit.toGuest ++ [guestMsg 3 (BitVec.ofNat 4 q) (BitVec.ofNat 64 (u.gq q).widx)] } u c) ∧
         (¬ goesOn → c = u)) ∧ ResetDone c t) ∧
      (t0 + 5000 < s.tick → ∃ t, exec (.stopped m) s = .next t ∧ Fenced 2 (some q) s t)) ∧
    (m.ty = 0x84 → CleanMsg m false true false false →
      (∀ d, s.adit.sds.find? (fun d => d.tag == m.tag) = some d →
        (s.tick ≤ d.due → exec (.sdack m) s = .next { s with adit := { s.adit with
          sds := s.adit.sds.filter fun x => x.tag != m.tag
          acked := s.adit.acked ++ [(d.pasid, d.base.toNat, d.base.toNat + 2 ^ d.log2.toNat)] } }) ∧
        (d.due < s.tick → ∃ t, exec (.sdack m) s = .next t ∧ Fenced 1 none s t)) ∧
      ((∀ d ∈ s.adit.sds, d.tag ≠ m.tag) → ∃ t, exec (.sdack m) s = .next t ∧ Fenced 5 none s t)) ∧
    (∀ page, m.ty = (if page then 0x86 else 0x85) → CleanMsg m false true true true →
      let i : Instr := if page then .pgreq m else .trq m
      let bad := 64 ≤ s.walks.length + s.adit.reqs.length ∨ ∃ r ∈ s.walks ++ s.adit.reqs, r.tag = m.tag
      (¬ bad → exec i s = .next { s with walks := s.walks ++
        [{ tag := m.tag, page, q, pasid := m.pasid, va := m.arg.toNat, write := decide (m.w = 1)
           first := (walkFound s m.pasid m.arg.toNat).1, pinned := (walkFound s m.pasid m.arg.toNat).2 }] }) ∧
      (bad → ∃ t, exec i s = .next t ∧ Fenced 5 none s t)) ∧
    ((m.ty.toNat < 0x81 ∨ 0x86 < m.ty.toNat) → ∃ t, exec (.guestMessageUnlistedType m) s = .next t ∧ Fenced 5 none s t) ∧
    (m.ty = 0x81 → ¬ CleanMsg m true false false true → ¬ RidxWaits s q → ∃ t, exec (.retire m) s = .next t ∧ Fenced 5 (some q) s t) ∧
    (m.ty = 0x82 → ¬ CleanMsg m true false false true ∨ g.en = false → ∃ t, exec (.fault m) s = .next t ∧ Fenced 5 (some q) s t) ∧
    (m.ty = 0x83 → ¬ CleanMsg m true false false false ∨ g.en = false → ∃ t, exec (.stopped m) s = .next t ∧ Fenced 5 (some q) s t) ∧
    (m.ty = 0x84 → ¬ CleanMsg m false true false false → ∃ t, exec (.sdack m) s = .next t ∧ Fenced 5 none s t) ∧
    (∀ page : Bool, m.ty = (if page then 0x86 else 0x85) → ¬ CleanMsg m false true true true →
      ∃ t, exec (if page then .pgreq m else .trq m) s = .next t ∧ Fenced 5 none s t)

/-- R75 to R77, R207, R215, R225, R228: a request of the guest at the memory port that a page allows which a walk of its PASID finds is
performed, where no older translation of the PASID is cached; it is performed only through a page that its PASID maps, or has mapped and no
shootdown has covered, that allows it and that it has not given up, and then reads or writes the bytes it names and no other; any other
request is a breach of cause ISOL. Its line, or a table entry without which no page is found, that the home slices hold makes it wait (log
entries 41 and 44). Sizes and addresses are multiples of a word (log entry 72); the cause of a request that does not have the form of R75 is
one of the six. -/
def Obligations.GuestPortIsIsolated : Prop :=
  ∀ (s : State) (r : PortReq), s.adit.st = .ready →
    let formed : Prop := 4 ≤ r.size ∧ r.size ≤ 128 ∧ r.size % 4 = 0 ∧ r.dpa.toNat % 4 = 0 ∧ r.dpa.toNat % 128 + r.size ≤ 128 ∧
      ∀ w ∈ r.data, 4 * w.1 + 4 ≤ r.size
    (s.swapping (.dev r.dpa.toNat) = true → exec (.guestPortRequest r) s = .next s) ∧
    (s.swapping (.dev r.dpa.toNat) = false → ¬ formed → ∃ (c : Nat) (t : State), 1 ≤ c ∧ c ≤ 6 ∧ exec (.guestPortRequest r) s = .next t ∧
      Fenced (BitVec.ofNat 4 c) none s t) ∧
    (s.swapping (.dev r.dpa.toNat) = false → formed →
      (∀ n va l, s.ctxOfPasid r.pasid = some n → (s.pasidQueue r.pasid).isSome = true → WalkPage s n va l → Allows s r va l →
        (∀ e ∈ s.tlb, e.pasid = (s.ctx n).pasid → s.walk n e.va = .leaf e.leaf) →
        ∃ t va' l', exec (.guestPortRequest r) s = .next t ∧ WalkPage s n va' l' ∧ Allows s r va' l' ∧ Served s r l' t) ∧
      ∃ t, exec (.guestPortRequest r) s = .next t ∧
        ((∃ va l, GuestPage s r va l ∧ Served s r l t) ∨
          (t = s ∧ ∃ n v d, s.ctxOfPasid r.pasid = some n ∧ v < 2 ^ 56 ∧ s.walk n v = .held d) ∨
          (Fenced 4 none s t ∧ ∀ n va l, s.ctxOfPasid r.pasid = some n → (s.pasidQueue r.pasid).isSome = true → WalkPage s n va l →
            Allows s r va l → ∃ e ∈ s.tlb, e.pasid = (s.ctx n).pasid ∧ s.walk n e.va ≠ .leaf e.leaf)))

namespace Sys2Proof.Claims

/-! ## Contexts, slots, grids -/

/-- A context as an accepted enable leaves it (R101): what the driver has set is kept, ATS invalidations that still run are kept (R212), and
everything else is as after reset. -/
def fresh (c : Ctx) : Ctx :=
  { en := true, st := .on, pasid := c.pasid, cap := c.cap, ptroot := c.ptroot, cpaddr := c.cpaddr, savebase := c.savebase
    logbase := c.logbase, logsize := c.logsize, fvec := c.fvec, wdogLimit := c.wdogLimit, extlim := c.extlim
    dbgLcore := c.dbgLcore, dbgCrew := c.dbgCrew, inval := c.inval }

/-- Nothing of another context has changed. -/
def Spared (n : Nat) (s t : State) : Prop :=
  (∀ k, ctxOf k ≠ n → t.crew k = s.crew k) ∧ (∀ lc, lc / 128 ≠ n → t.lcore lc = s.lcore lc) ∧
  (∀ g x, s.grid g = some x → x.ctx ≠ n → t.grid g = some x) ∧ (∀ b x, s.block b = some x → x.ctx ≠ n → t.block b = some x) ∧
  ∀ m, m ≠ n → t.ctx m = s.ctx m

/-- Nothing of context n is left on the device but its registers (R101). -/
def Gone (n : Nat) (t : State) : Prop :=
  (∀ k, ctxOf k = n → (t.crew k).alive = false) ∧ (∀ lc, lc / 128 = n → t.lcore lc = {}) ∧
  (∀ g x, t.grid g = some x → x.ctx ≠ n) ∧ (∀ b x, t.block b = some x → x.ctx ≠ n) ∧
  (t.ctx n).children = [] ∧ (t.ctx n).recs = [] ∧ (t.ctx n).slotWait = none ∧ (t.ctx n).childWait = none

/-- A byte of the command page (R103). -/
def commandPage (s : State) (n off : Nat) : Place :=
  let a := (s.ctx n).cpaddr.toNat
  if a % 2 = 1 then .dev (a / 4096 % 2 ^ 27 * 4096 + off) else .host (a / 4096 * 4096 + off)

/-- The address of a byte of the command page as FADDR names it (R105). -/
def commandAddr (s : State) (n off : Nat) : DWord :=
  match commandPage s n off with
  | .dev a | .host a => BitVec.ofNat 64 a
  | _ => 0

/-- The context stops with a LAUNCH fault of a subcode and an address (R105, R106). -/
def LaunchFaults (n sub : Nat) (addr : DWord) (s t : State) : Prop :=
  Faulted n { cause := 0x10, sub := BitVec.ofNat 8 sub, addr } s t

/-- The bytes of the slot at HEAD, where the processor has read a TAIL above it (R103 to R105). -/
def SlotAt (s : State) (n : Nat) (bs : List Byte) : Prop :=
  (s.ctx n).st = .on ∧ (s.ctx n).head < (s.ctx n).tail ∧
    bs = (List.range 16).map fun i => s.placeByte ((commandPage s n (0x400 + 16 * ((s.ctx n).head % 64))).add i)

/-- OP of a slot, and whether the slot is one that R104 allows. -/
def slotOp (bs : List Byte) : Nat := (bs.getD 8 0).toNat

/-- Whether the slot is one that R104 allows. -/
def GoodSlot (bs : List Byte) : Prop := slotOp bs ≤ 2 ∧ ∀ i, 10 ≤ i → i < 16 → bs.getD i 0 = 0

/-- The slot is consumed (R105): HEAD, and its copy on the command page. -/
def SlotConsumed (n : Nat) (s t : State) : Prop :=
  ∃ a : State, CtxBecomes n { s.ctx n with head := (s.ctx n).head + 1, slotWait := none } s a ∧ OnlyMemory a t ∧
    StoresLand [(commandPage s n 0x80, bytesLe 8 ((s.ctx n).head + 1))] a t

/-- A grid that is accepted is QUEUED (R106, R114, R115). -/
def GridQueued (n : Nat) (r : LaunchRec) (vec : Option Nat) (s t : State) : Prop :=
  let c := s.ctx n
  t = { s with grids := t.grids, ctxs := t.ctxs, dist := { s.dist with nextId := s.dist.nextId + 1 } } ∧
  (∀ g, t.grid g = if g = s.dist.nextId then some { ctx := n, lr := r, vec, prio := min r.prio c.cap.toNat, next := r.itembase
                                                    last := r.itembase + r.items, order := c.gridsLaunched, det := c.detCount }
    else s.grid g) ∧
  ∀ m, t.ctx m = if m = n then { c with
      gridsLaunched := c.gridsLaunched + 1, detCount := if r.det then c.detCount + 1 else c.detCount } else s.ctx m

/-- The interrupt of a grid; vector 0 serves DEVEVT alone (R93, R108). -/
def gridVector (v : Option Nat) (s : State) : State :=
  match v with
  | some v => if v = 0 then s else s.sendMsix v
  | none => s

end Sys2Proof.Claims

/-- The offsets of BAR0 that a host write reaches (R11, R34, R60, R91, R92, R100), each a word. -/
def Sys2Proof.Claims.writable (off : Nat) : Bool :=
  off % 4 == 0 && (
    [0x004, 0x008, 0x010, 0x030, 0x048].contains off || (0x050 ≤ off && off < 0x070) ||
    (0x10000 ≤ off && off < 0x50000 && [0x000, 0x008, 0x00C, 0x010, 0x014, 0x018, 0x01C, 0x028, 0x02C, 0x030, 0x034, 0x038, 0x048, 0x04C,
      0x080].contains (off % 0x1000)) ||
    (0x60000 ≤ off && off < 0x60800) || [0x800010, 0x800018, 0x811004, 0x811008, 0x820004].contains off ||
    (0x810500 ≤ off && off < 0x810580) ||
    (0x820100 ≤ off && off < 0x820300 && [0x00, 0x08, 0x0C, 0x10, 0x14].contains (off % 0x20)))

/-- The value of a 64-bit register of which word i is written. -/
def Sys2Proof.Claims.withWord (x : DWord) (i : Nat) (v : Word) : Nat :=
  if i = 0 then x.toNat / 2 ^ 32 * 2 ^ 32 + v.toNat else v.toNat * 2 ^ 32 + x.toNat % 2 ^ 32

/-- R6, R7, R11, R18, R20, R34, R48, R51, R58, R60 to R68, R91 to R101, R388: what a host write of a word of BAR0 does, for every offset:
a register whose write is an event of its own does what that event does; a field takes the bits that its map gives it and keeps the rest;
the configuration of an enabled context or queue keeps its value, PASID until its context is DISABLED; the MSI-X table takes its bytes, and a vector unmasked while it is
pending is sent; every other offset, and every register but DEVCTL and FWLEN until start-up is complete, ignores the write. That one write
of ADCTL sets GRST before UNFENCE is tested is the model's choice (log entry 75), as are the writes that FWFAIL and TRIP take, a register
written word by word and FEATACK with its first word (log entry 43), and the pending bits of MSI-X (log entry 7, from its definition). -/
def Sys2Proof.Claims.RegisterWrites : Prop :=
  ∀ (s : State) (v : BitVec 32),
    let does := fun (off : Nat) => exec (.registerWrite (BitVec.ofNat 24 off) v) s
    let b := fun (i : Nat) => v.getLsbD i
    (∀ off : BitVec 24, writable off.toNat = false → exec (.registerWrite off v) s = .next s) ∧
    (∀ off : BitVec 24, s.hostOpen = false → ¬ (0x60000 ≤ off.toNat ∧ off.toNat < 0x60800) → off.toNat ≠ 0x004 → off.toNat ≠ 0x010 →
      exec (.registerWrite off v) s = .next s) ∧
    (∃ a, (if b 0 then exec .devctlLoad s = .next a else a = s) ∧ does 0x004 = if b 1 then exec .devctlGo a else .next a) ∧
    does 0x008 = exec (.devevtClear v) s ∧
    does 0x010 = .next (if s.dev.st = .load then { s with dev := { s.dev with fwlen := v } } else s) ∧
    does 0x030 = exec (.featackWrite (v.setWidth 128)) s ∧ does 0x048 = (if b 0 then exec .attctlReq s else .next s) ∧
    (∀ off, 0x60000 ≤ off → off < 0x60800 → off % 4 = 0 → ∃ a t, does off = .next t ∧ a = { s with dev := { s.dev with msixTable := a.dev.msixTable } } ∧
      (∀ i, a.msixByte i = if 0x60000 + i / 4 * 4 = off then BitVec.ofNat 8 (v.toNat / 256 ^ (i % 4)) else s.msixByte i) ∧
      (let k := (off - 0x60000) / 16
       let sent : Prop := off % 16 = 12 ∧ b 0 = false ∧ s.dev.pba.getLsbD k = true
       (sent → t = { a with dev := { a.dev with pba := s.dev.pba &&& ~~~(1#128 <<< k), msixSent := s.dev.msixSent ++ [k] } }) ∧
       (¬ sent → t = a))) ∧
    (s.hostOpen = true →
      (∀ i, i < 8 → ∃ t, does (0x050 + 4 * i) = .next t ∧ t = { s with dev := { s.dev with nonce := t.dev.nonce } } ∧
        ∀ j, j < 256 → t.dev.nonce.getLsbD j = if j / 32 = i then b (j % 32) else s.dev.nonce.getLsbD j) ∧
      does 0x800010 = exec (.opctlWrite v) s ∧ does 0x800018 = exec (.pwrlimWrite v) s ∧ does 0x811004 = exec (.scrubctlWrite v) s ∧
      does 0x811008 = exec (.mcretReq v) s ∧
      (s.feature 2 = true → (∃ a, exec (.adctlGrst (b 0)) s = .next a ∧ does 0x820004 = if b 1 then exec .adctlUnfence a else .next a) ∧
        ∀ q, q < 16 →
          does (0x820100 + 0x20 * q) = (if b 0 then exec (.gqcfgEnable q v) s else exec (.gqcfgDisable q v) s) ∧
          (∀ i, i < 2 → ∃ t u, does (0x820108 + 0x20 * q + 4 * i) = .next t ∧ does (0x820110 + 0x20 * q + 4 * i) = .next u ∧
            (let g := s.gq q
             let va := withWord g.gqva i v % 2 ^ 56 / 4096 * 4096
             let rrec := withWord g.gqrrec i v % 2 ^ 56 / 256 * 256
             QueueBecomes q (if g.en then g else { g with gqva := BitVec.ofNat 64 va }) s t ∧
             QueueBecomes q (if g.en then g else { g with gqrrec := BitVec.ofNat 64 rrec }) s u))) ∧
      (s.feature 2 = false → ∀ off, 0x820000 ≤ off → off < 0x821000 → does off = .next s) ∧
      (s.feature 11 = true → ∀ k i, k < 8 → i < 2 → ∃ t u, does (0x810500 + 16 * k + 4 * i) = .next t ∧ does (0x810508 + 16 * k + 4 * i) = .next u ∧
        t = { s with link := { s.link with extB := t.link.extB } } ∧ u = { s with link := { s.link with extL := u.link.extL } } ∧
        (∀ j, sget 0 t.link.extB j = if j = k then (BitVec.ofNat 64 (withWord (sget 0 s.link.extB k) i v)) &&& 0x7FFFFFFF81 else sget 0 s.link.extB j) ∧
        ∀ j, sget 0 u.link.extL j = if j = k then (BitVec.ofNat 64 (withWord (sget 0 s.link.extL k) i v)) &&& 0x7FFFFFFF80 else sget 0 s.link.extL j) ∧
      (s.feature 11 = false → ∀ off, 0x810500 ≤ off → off < 0x810580 → does off = .next s) ∧
      ∀ n, n < 64 →
        let c := s.ctx n
        let block := fun (o : Nat) => 0x10000 + 0x1000 * n + o
        let becomes := fun (o : Nat) (x : Ctx) => ∃ t, does (block o) = .next t ∧ CtxBecomes n x s t
        let kept := fun (x : Ctx) => if c.en then c else x
        (∃ u, exec (if b 0 then .ctxctlEnable else .ctxctlDisable) { s with subj := { s.subj with n } } = .next u ∧
          does (block 0x000) = .next { u with subj := s.subj }) ∧
        becomes 0x008 (if c.en = true ∨ c.st ≠ .disabled then c else { c with pasid := BitVec.ofNat 20 v.toNat }) ∧ becomes 0x00C { c with cap := BitVec.ofNat 3 v.toNat } ∧
        (∀ i, i < 2 → becomes (0x010 + 4 * i) (kept { c with ptroot := BitVec.ofNat 39 (withWord (c.ptroot.setWidth 64) i v / 4096 * 4096) }) ∧
          becomes (0x018 + 4 * i) (kept { c with cpaddr := BitVec.ofNat 64 (withWord c.cpaddr i v / 4096 * 4096 + withWord c.cpaddr i v % 2) }) ∧
          becomes (0x028 + 4 * i) (kept { c with savebase := BitVec.ofNat 39 (withWord (c.savebase.setWidth 64) i v / 4096 * 4096) }) ∧
          becomes (0x030 + 4 * i) (kept { c with logbase := BitVec.ofNat 39 (withWord (c.logbase.setWidth 64) i v / 4096 * 4096) })) ∧
        becomes 0x038 { c with logsize := v } ∧ becomes 0x048 { c with fvec := BitVec.ofNat 8 v.toNat } ∧
        becomes 0x04C { c with wdogLimit := BitVec.ofNat 16 v.toNat, extlim := BitVec.ofNat 16 (v.toNat / 65536) } ∧
        (v.toNat % 8 = 1 → does (block 0x080) = exec (.dbgctlHalt n v) s) ∧ (v.toNat % 8 = 2 → does (block 0x080) = exec (.dbgctlResume n v) s) ∧
        (v.toNat % 8 = 4 → does (block 0x080) = exec (.dbgctlStep n v) s))

/-- R96, R101, R102: a context that may be enabled starts afresh, any other write of EN is refused with CFGERR; clearing EN makes it stop
with its guest queues aborted; once it has stopped nothing of it is left on the device, it is DISABLED with its queues disabled or,
after a fault, FAULTED with the fields of that fault. -/
def Obligations.ContextsStartAndStop : Prop :=
  ∀ (s : State),
    let n := s.subj.n
    let c := s.ctx n
    (s.hostOpen = true → n < 64 → c.st = .disabled →
      let bad := s.dev.st ≠ .run ∨ c.ptroot = 0 ∨ c.savebase = 0 ∨ (c.cpaddr.getLsbD 0 = false ∧ s.feature 0 = false) ∨
        ∃ e ∈ s.ctxs, e.1 ≠ n ∧ e.2.en = true ∧ e.2.pasid = c.pasid
      (bad → ∃ t, exec .ctxctlEnable s = .next t ∧ CtxBecomes n { c with cfgerr := true } s t) ∧
      (¬ bad → ∃ t, exec .ctxctlEnable s = .next t ∧ CtxBecomes n (fresh c) s t)) ∧
    (n < 64 → c.st ≠ .disabled → exec .ctxctlEnable s = .next s) ∧
    (s.hostOpen = true → n < 64 → c.st = .on ∨ c.st = .faulted → ∃ a t, exec .ctxctlDisable s = .next t ∧
      CtxBecomes n { c with en := false, st := .stopping, pendFault := none } s a ∧ QueuesAborted n a t) ∧
    (s.clocked = true → s.heldBack n = false → c.st = .stopping → s.queuesOut n = false →
      (c.pendFault = none → ∃ t, exec .contextStopDone s = .next t ∧ Gone n t ∧ Spared n s t ∧
        (t.ctx n).st = .disabled ∧ ∀ q, (t.gq q).en = true → (t.gq q).ctx.toNat ≠ n) ∧
      ∀ f, c.pendFault = some f → (∀ lc ∈ s.boundCores n, s.slotHeld lc = false) → ∃ t, exec .contextStopDone s = .next t ∧ Gone n t ∧
        (t.ctx n).st = .faulted ∧ (t.ctx n).cause = f.cause ∧ (t.ctx n).sub = f.sub ∧ (t.ctx n).faddr = f.addr ∧ (t.ctx n).fpc = f.pc ∧
        (t.ctx n).floc.toNat = f.lcore.toNat + 256 * f.crew.toNat + 65536 * f.tid.toNat)

namespace Sys2Proof.Claims

/-- The log entry of a child (R258, R259). -/
def childEntry (s : State) (n : Nat) (x : Child) : LogEnt :=
  { kind := 1, grid := (s.ctx n).detCount % 4096, item := x.item.toNat, key := x.ordinal % 65536 + 65536 * x.parent }

/-- A format slot of a record is unused or valid (R267): its element and scale codes, rounding, random register, NaN policy, and what is
zero; FP6, FP4 and INT4 need NARROW. -/
def GoodFormat (narrow : Bool) (w : Nat) : Prop :=
  let elem := w % 16
  let scale := w / 2 ^ 4 % 8
  let rnd := w / 2 ^ 8 % 8
  w = 0 ∨ (1 ≤ elem ∧ elem ≤ 10 ∧ (elem ∈ [6, 7, 8, 10] → narrow = true) ∧ scale ≤ 4 ∧ (1 ≤ scale ∧ scale ≤ 3 → 4 ≤ elem) ∧ rnd ≤ 4 ∧
    (rnd ≠ 4 → w / 2 ^ 11 % 2 ^ 7 = 0) ∧ w / 2 ^ 18 % 4 ≤ 2 ∧ w / 2 ^ 20 % 2 ^ 12 = 0)

/-- The rows of R106 but the first, each with its subcode. The fit of a gang is judged where its blocks have a shape (log entry 36). -/
def recordRows (s : State) (n : Nat) (bs : List Byte) : List (Prop × Nat) :=
  let d := fun (o : Nat) => numOf bs o 8
  let f := fun (o lo k : Nat) => numOf bs o 4 / 2 ^ lo % 2 ^ k
  let crews := f 0x20 0 11
  let cores := f 0x20 11 2 + 1
  let pref := f 0x24 0 5
  let fallback := f 0x24 8 5
  let vregs := f 0x28 0 8
  let vrf := f 0x28 8 4
  let fits := 256 * vregs * crews / cores ≤ vrf * 262144
  let det := f 0x60 8 1 = 1
  let replay := f 0x60 9 1 = 1
  [(d 0 < 2 ^ 56 ∧ d 0 % 4 = 0 ∧ d 8 < 2 ^ 56 ∧ d 8 % 4 = 0, 2),
   (1 ≤ d 0x10 ∧ d 0x18 + d 0x10 ≤ 2 ^ 48, 3),
   (1 ≤ crews ∧ crews ≤ 1024 ∧ crews % cores = 0 ∧ crews / cores ≤ 256 ∧ f 0x20 13 19 = 0 ∧ 1 ≤ pref ∧ pref ≤ 16 ∧ f 0x24 5 3 = 0 ∧
     1 ≤ fallback ∧ fallback ≤ pref ∧ f 0x24 13 19 = 0 ∧ (0 < vregs ∧ 0 < vrf ∧ fits → gangFits (recordOf bs) = true), 4),
   (16 ≤ vregs ∧ vregs ≤ 128 ∧ vregs % 8 = 0 ∧ 1 ≤ vrf ∧ vrf ≤ 8 ∧ 2 ≤ f 0x28 16 4 ∧ vrf + f 0x28 12 4 + f 0x28 16 4 = 16 ∧
     f 0x28 20 12 = 0 ∧ fits, 5),
   (numOf bs 0x2C 4 ≤ 65536 ∧ numOf bs 0x2C 4 % 16 = 0 ∧ d 0x30 % 4096 = 0 ∧ (d 0x30 = 0 → numOf bs 0x2C 4 = 0), 6),
   (∀ k, k < 8 → GoodFormat (s.feature 10) (numOf bs (0x40 + 4 * k) 4), 7),
   (f 0x60 3 5 = 0 ∧ f 0x60 10 22 = 0 ∧ (det → s.feature 3 = true) ∧ (replay → det ∧ s.feature 4 = true) ∧ f 0x64 3 29 = 0 ∧
     (f 0x64 0 3 ≠ 0 → d 8 ≠ 0) ∧
     (det → ∀ e ∈ s.grids, ∀ g, e.2 = some g → g.ctx = n → g.lr.det = true → (g.lr.replay = true ↔ replay)), 8),
   ((f 0x68 0 16 ≠ 0 → s.feature 5 = true) ∧ f 0x68 16 16 = 0 ∧ numOf bs 0x6C 4 = 0, 9),
   (d 0x70 % 8 = 0 ∧ d 0x70 < 2 ^ 56, 11),
   (∀ i, 0xC0 ≤ i → i < 256 → bs.getD i 0 = 0, 9)]

/-- The first row of a list that does not hold. -/
def FirstBroken : List (Prop × Nat) → Option Nat → Prop
  | [], x => x = none
  | r :: rs, x => (¬ r.1 → x = some r.2) ∧ (r.1 → FirstBroken rs x)

/-- The read of a record (R106, row 1): it fails for an address that is not aligned or not in the global window, where its page does not allow
it, and where a word of it is poisoned; it waits for an absent page, with a fault record (log entry 37), and while the home slices hold it. -/
def RecordRead (s : State) (n : Nat) (a : DWord) : Prop :=
  let reads := s.translate n a.toNat 256 .read 600
  (a.toNat % 256 ≠ 0 ∨ 2 ^ 56 ≤ a.toNat → s.readRecord n a = .fails) ∧
  (a.toNat % 256 = 0 → a.toNat < 2 ^ 56 →
    (∀ c d, reads = .fail c d → s.readRecord n a = .fails) ∧ (∀ d, reads = .hold d → s.readRecord n a = .held) ∧
    (∀ lvl, reads = .notPresent lvl → ∃ u, s.readRecord n a = .waits u (a.toNat / 4096 * 4096, false) ∧
      RecordOpen n (a.toNat / 4096 * 4096) false s u) ∧
    (∀ x, reads = .ats x → ∃ u, s.readRecord n a = .waits u (atsKey x) ∧ u = { s with ats := u.ats } ∧ ∃ q ∈ u.ats, q.ctx = n ∧ q.addr = x) ∧
    ∀ pl l, reads = .ok pl l →
      let h : Hit := { pl, leaf := some l, va := a.toNat }
      (s.spanHeld pl 256 = true → s.readRecord n a = .held) ∧
      (s.spanHeld pl 256 = false → (∃ i, i < 256 ∧ s.hitPois h i = true) → s.readRecord n a = .fails) ∧
      (s.spanHeld pl 256 = false → (∀ i, i < 256 → s.hitPois h i = false) →
        ∃ u, s.readRecord n a = .ok u ((List.range 256).map (s.leafByte h)) ∧ OnlyCaches s u))

/-- A replayed child whose turn in the log has not come (R261). -/
def NotYet (s : State) (n : Nat) (x : Child) : Prop :=
  let e := childEntry s n x
  ∃ a rb i, s.readRecord n x.raddr = .ok a rb ∧ a.recordFails n rb = none ∧ (recordOf rb).replay = true ∧
    FirstEntry a n (fun y => decide (y.kind = 1 ∧ y.item = e.item ∧ y.key = e.key)) i ∧ a.logEnt n i ≠ e

end Sys2Proof.Claims

/-- R103 to R108, R114, R115, R125 to R127, R225, R253, R258, R261: a wake of the queue processor reads TAIL once the line of TAIL has been
written, and a TAIL below HEAD or more than 64 above it is a LAUNCH fault; a slot that R104 does not allow is one, too; a NOP is consumed, a
BARRIER once no grid and no child of its context is left, a LAUNCH once its record is read and passes its checks, and its grid is then QUEUED
with its items; the oldest child, in replay the oldest whose turn has come, is popped in the same way; in a deterministic context each is
logged, or waits for its turn in the log. A
grid that has retired writes its completion word and sends its vector. No access goes to a frame that is exchanged. The read of a record
fails with subcode 1 where R106 says so, and its rows are checked in their order, each with its subcode. That an absent page of a record or
of a completion word makes it wait is log entry 37, what a popped child's entry returns to is 38, and 36 the fit of a gang. -/
def Obligations.SlotsAndGrids : Prop :=
  (∀ (s : State) (n : Nat) (a : DWord), RecordRead s n a) ∧
  (∀ (s : State) (n : Nat) (bs : List Byte), bs.length = 256 → FirstBroken (recordRows s n bs) (s.recordFails n bs)) ∧
  (∀ (s : State),
    let n := s.subj.n
    let c := s.ctx n
    s.clocked = true → s.cpHeld n = false →
    (c.st = .on → c.tail ≤ c.head → (∀ w, c.watchCp = some w → w < s.lineSer (commandPage s n 0)) →
      let tail := ((List.range 8).map fun i => (s.placeByte ((commandPage s n 0).add i)).toNat * 256 ^ i).sum
      (c.head ≤ tail → tail ≤ c.head + 64 → ∃ t, exec .queueProcessorWake s = .next t ∧
        CtxBecomes n { c with watchCp := some s.writes, tail } s t) ∧
      (tail < c.head ∨ c.head + 64 < tail → ∃ a t, exec .queueProcessorWake s = .next t ∧
        CtxBecomes n { c with watchCp := some s.writes } s a ∧ LaunchFaults n 10 (commandAddr s n 0) a t)) ∧
    (∀ bs, SlotAt s n bs →
      (GoodSlot bs → slotOp bs = 0 → ∃ t, exec .slotNop s = .next t ∧ SlotConsumed n s t) ∧
      (¬ GoodSlot bs → ∀ i ∈ [Instr.slotNop, .slotBarrier], ∃ t, exec i s = .next t ∧
        LaunchFaults n 10 (commandAddr s n (0x400 + 16 * (c.head % 64))) s t) ∧
      (GoodSlot bs → slotOp bs = 2 → (∀ e ∈ s.grids, ∀ x, e.2 = some x → x.ctx ≠ n) → c.children = [] →
        ∃ a t, exec .slotBarrier s = .next t ∧ a = { s with hidden := a.hidden, hostHidden := a.hostHidden } ∧
          (∀ e, e ∈ a.hidden ↔ e ∈ s.hidden ∧ ∀ x, e.2 = some x → x.ctx ≠ n) ∧
          (∀ e, e ∈ a.hostHidden ↔ e ∈ s.hostHidden ∧ ∀ x, e.2 = some x → x.ctx ≠ n) ∧ SlotConsumed n a t) ∧
      (GoodSlot bs → slotOp bs = 2 → (∃ e ∈ s.grids, ∃ x, e.2 = some x ∧ x.ctx = n) ∨ c.children ≠ [] → exec .slotBarrier s = .next s) ∧
      (let lrec : DWord := BitVec.ofNat 64 ((List.range 8).map fun i => (bs.getD i 0).toNat * 256 ^ i).sum
       let w := (bs.getD 9 0).toNat
       let vec := if 128 ≤ w then some (w % 128) else none
       c.slotWait = none →
       (¬ GoodSlot bs → ∃ t, exec .slotLaunch s = .next t ∧ LaunchFaults n 10 (commandAddr s n (0x400 + 16 * (c.head % 64))) s t) ∧
       (GoodSlot bs → slotOp bs = 1 →
        (s.readRecord n lrec = .held → exec .slotLaunch s = .next s) ∧
        (s.readRecord n lrec = .fails → ∃ t, exec .slotLaunch s = .next t ∧ LaunchFaults n 1 lrec s t) ∧
        (∀ a key, s.readRecord n lrec = .waits a key → ∃ t, exec .slotLaunch s = .next t ∧
          CtxBecomes n { a.ctx n with slotWait := some key } a t) ∧
        ∀ a rb, s.readRecord n lrec = .ok a rb →
          (∀ sub, a.recordFails n rb = some sub → ∃ t, exec .slotLaunch s = .next t ∧ LaunchFaults n sub lrec a t) ∧
          (let e : LogEnt := { kind := 1, grid := c.detCount % 4096, item := 0, key := c.head % 65536 + 2 ^ 63 }
           let same := fun (x : LogEnt) => decide (x.kind = 1 ∧ x.item = 0 ∧ x.key = e.key)
           let r := recordOf rb
           let g : Grid := { ctx := n, lr := r }
           a.recordFails n rb = none → (r.replay = true → a.slotEntry n c.head = none) → MayChoose a n g e same →
             ∃ b d t, exec .slotLaunch s = .next t ∧ Chosen n g e same a b ∧ GridQueued n r vec b d ∧ SlotConsumed n d t)))) ∧
    (∀ (x : Child) (pre rest : List Child), c.st = .on → c.childWait = none → c.children = pre ++ x :: rest → (∀ y ∈ pre, NotYet s n y) →
      (s.readRecord n x.raddr = .held → exec .childPop s = .next s) ∧
      (s.readRecord n x.raddr = .fails → ∃ t, exec .childPop s = .next t ∧ LaunchFaults n 1 x.raddr s t) ∧
      (∀ a key, s.readRecord n x.raddr = .waits a key → ∃ t, exec .childPop s = .next t ∧
        CtxBecomes n { a.ctx n with childWait := some key } a t) ∧
      ∀ (a : State) (rb : List Byte), s.readRecord n x.raddr = .ok a rb →
        (∀ sub, a.recordFails n rb = some sub → ∃ t, exec .childPop s = .next t ∧ LaunchFaults n sub x.raddr a t) ∧
        (let e := childEntry s n x
         let same := fun (y : LogEnt) => decide (y.kind = 1 ∧ y.item = e.item ∧ y.key = e.key)
         let r := recordOf rb
         let g : Grid := { ctx := n, lr := r }
         a.recordFails n rb = none → MayChoose a n g e same → ∃ h b d t : State, exec .childPop s = .next t ∧ Chosen n g e same a h ∧
          GridQueued n r none h b ∧ CtxBecomes n { b.ctx n with children := pre ++ rest } b d ∧
          (if x.det = false ∧ (s.crew x.crew).alive = true ∧ (s.crew x.crew).serial = x.serial then
            t = { d with crews := t.crews } ∧ ∀ j, t.crew j = if j = x.crew then { s.crew j with entries := (s.crew j).entries + 1 } else s.crew j
           else t = { d with dist := { d.dist with pool := d.dist.pool + 1 } })))) ∧
  ∀ (s : State) (g : Grid),
    let id := s.subj.n
    let left := fun (a b : State) => ∃ d : State, b = gridVector g.vec d ∧ d = { a with grids := d.grids, ctxs := d.ctxs } ∧
      (∀ j, d.grid j = if j = id then none else a.grid j) ∧ ∀ m, d.ctx m = if m = g.ctx then { a.ctx m with wdog := 0 } else a.ctx m
    let released := { s with dirty := [] }
    s.clocked = true → s.grid id = some g → (s.ctx g.ctx).st = .on → g.st = .retiring → g.unretired = 0 → g.compWait = none →
    (g.lr.compaddr = 0 → ∃ t, exec .gridComplete s = .next t ∧ left released t) ∧
    (g.lr.compaddr ≠ 0 →
      (∀ pl l, released.translate g.ctx g.lr.compaddr.toNat 8 .write 601 = .ok pl l →
        (s.swapping pl = true → exec .gridComplete s = .next released) ∧
        (s.swapping pl = false → ∃ a t : State, exec .gridComplete s = .next t ∧
          OnlyMemory { released with tlb := a.tlb, wcache := a.wcache, walks := a.walks, misses := a.misses } a ∧ SameWalks s a ∧
          StoresLand [(pl, bytesLe 8 g.lr.compval.toNat)] released a ∧ left a t)) ∧
      (∀ d, released.translate g.ctx g.lr.compaddr.toNat 8 .write 601 = .hold d → exec .gridComplete s = .next released) ∧
      (∀ lvl, released.translate g.ctx g.lr.compaddr.toNat 8 .write 601 = .notPresent lvl → ∃ a t, exec .gridComplete s = .next t ∧
        RecordOpen g.ctx (g.lr.compaddr.toNat / 4096 * 4096) true released a ∧ t = { a with grids := t.grids } ∧
        ∀ j, t.grid j = if j = id then some { g with compWait := some (g.lr.compaddr.toNat / 4096 * 4096, true) } else s.grid j) ∧
      (∀ x, released.translate g.ctx g.lr.compaddr.toNat 8 .write 601 = .ats x → ∃ a t : State, exec .gridComplete s = .next t ∧
        a = { released with ats := a.ats } ∧ (∃ q ∈ a.ats, q.ctx = g.ctx ∧ q.addr = x) ∧ t = { a with grids := t.grids } ∧
        ∀ j, t.grid j = if j = id then some { g with compWait := some (atsKey x) } else s.grid j) ∧
      (∀ c d, released.translate g.ctx g.lr.compaddr.toNat 8 .write 601 = .fail c d → ∃ t, exec .gridComplete s = .next t ∧
        Faulted g.ctx { cause := 0x09, addr := g.lr.compaddr } released t))

namespace Sys2Proof.Claims

/-! ## Translation commands -/

/-- The command at CRIDX is complete (R219): STATUS is written, then CRIDX. -/
def CommandEnds (n status : Nat) (s t : State) : Prop :=
  let j := (s.ctx n).cridx
  ∃ a : State, OnlyMemory s a ∧
    StoresLand [(.dev (xlPage s n + 0x800 + 32 * (j % 64) + 3), [BitVec.ofNat 8 status]), (.dev (xlPage s n + 0xC0), bytesLe 8 (j + 1))] s a ∧
    CtxBecomes n { s.ctx n with cridx := j + 1, cmd := none } a t

/-- A shootdown that starts holds the command (R219), and the guest hears of the range (R78, R223). -/
def ShootStarts (n : Nat) (x : XCmd) (base log2 : Nat) (s t : State) : Prop :=
  ∃ a : State, CtxBecomes n { s.ctx n with cmd := some x } s a ∧ GuestShot (s.ctx n).pasid (BitVec.ofNat 64 base) log2 a t

/-- Cached translations of a range of context n are gone, the walks of its PASID in flight have started again from the root (R223, R224),
and the ATS results of the PASID are gone too (R212). -/
def Dropped (n base log2 : Nat) (s t : State) : Prop :=
  let pasid := (s.ctx n).pasid
  t = { s with
    tlb := t.tlb, wcache := t.wcache, atsCache := t.atsCache
    walks := s.walks.map fun r => if r.pasid = pasid then { r with first := s.walk n r.va, pinned := false } else r
    misses := s.misses.filter fun m => m.pasid != pasid } ∧
  (∀ e, e ∈ t.wcache ↔ e ∈ s.wcache ∧ ¬ (e.pasid = pasid ∧ e.va < base + 2 ^ log2 ∧ base < e.va + 2 ^ (21 + 9 * e.lvl))) ∧
  (∀ e, e ∈ t.tlb ↔ e ∈ s.tlb ∧ ¬ (e.pasid = pasid ∧ e.va < base + 2 ^ log2 ∧ base < e.va + e.leaf.size)) ∧
  ∀ e, e ∈ t.atsCache ↔ e ∈ s.atsCache ∧ e.pasid ≠ pasid

/-- Whether a shootdown of a range may complete (R223): every access of the context has been performed, the guest has answered. -/
def MayComplete (s : State) (n : Nat) (base log2 : Nat) : Prop :=
  s.clocked = true ∧ s.accessesDone n = true ∧ ∀ d ∈ s.adit.sds, ¬ (d.pasid = (s.ctx n).pasid ∧ d.base = BitVec.ofNat 64 base ∧ d.log2.toNat = log2)

/-- The fields of a command as the device holds them while it runs. -/
def heldCommand (bs : List Byte) : XCmd :=
  let w := numOf bs 0 4
  { op := BitVec.ofNat 8 w, all := decide (w / 2 ^ 8 % 2 = 1), psz := BitVec.ofNat 2 (w / 2 ^ 10), host := decide (w / 2 ^ 12 % 2 = 1)
    log2 := numOf bs 4 4, va := BitVec.ofNat 64 (numOf bs 8 8), dpa := BitVec.ofNat 64 (numOf bs 16 8)
    second := BitVec.ofNat 64 (numOf bs 24 8) }

/-- The second frame of a SWAP. -/
def secondFrame (host : Bool) (a : Nat) : Place := if host then .host a else .dev a

/-- The answer of the device to a request of the guest (R72, R76): a TRS, or a PGRSP. -/
def answered (r : GuestReq) (ty : BitVec 8) (st w psz cls base : Nat) (u : State) : State :=
  { u with adit := { u.adit with toGuest := u.adit.toGuest ++
    [{ ty, q := 0, z1 := 0, tag := r.tag, pasid := 0, all := 0, w := BitVec.ofNat 1 w, st := BitVec.ofNat 2 st, psz := BitVec.ofNat 2 psz
       cls := BitVec.ofNat 2 cls, z2 := 0, arg := BitVec.ofNat 64 base }] } }

/-- What the walk of a guest request in context m may have found when it ends (R78, R214, R215): while a shootdown of the PASID runs, what the
tables say now; else what a miss that joined it has taken; else what it found at its start, what a walk finds now, what is cached, or what
another walk in flight has found (the free choice of log entry 16). -/
def WalkFinds (s : State) (m : Nat) (r : GuestReq) (w : WalkRes) : Prop :=
  let shooting : Prop := (s.ctx m).inval ≠ [] ∨ ∃ x, (s.ctx m).cmd = some x ∧ (x.op = 2 ∨ x.op = 4)
  (shooting → w = s.walk m r.va) ∧ (¬ shooting → r.pinned = true → w = r.first) ∧
  (¬ shooting → r.pinned = false → w = r.first ∨ w = s.walkNow m r.va ∨ w ∈ s.cached m r.va ∨ w ∈ s.inFlight m r.va)

/-- A request of the guest whose walk has ended is answered (R76, R207, R220). Without a context, or at an address beyond 2^56, it is
DENIED. Where the page is absent a TRQ hears NP and a PGREQ waits, and both have a fault record. A page is given to a TRQ that it allows,
with its size, its class, W and its address, and is no longer given up; any other TRQ is DENIED (log entries 66 and 67 for a TRQ with W to
a sinter page and for a walk that fails), and a PGREQ hears OK. The leaf is cached. -/
def WalkAnswered (found : Option (Nat × WalkRes)) (r : GuestReq) (s t : State) : Prop :=
  let trs := answered r 6
  let pgrsp := fun (st : Nat) => answered r 7 st 0 0 0 0
  (found = none → t = if r.page then pgrsp 2 s else trs 2 0 0 0 0 s) ∧
  ∀ m w, found = some (m, w) →
    (∀ lvl, w = .notPresent lvl → RecordOpen m (r.va / 4096 * 4096) r.write
      (if r.page then { s with adit := { s.adit with reqs := s.adit.reqs ++ [{ r with waitRec := true }] } } else trs 1 0 0 0 0 s) t) ∧
    (∀ l, w = .leaf l →
      let given : Prop := (l.cls = 0 ∧ (r.write = true → l.w = true)) ∨ (l.cls = 1 ∧ r.write = false ∧ s.leafFails l .read 4 0 = none)
      (r.page = true → t = pgrsp 0 s) ∧
      (r.page = false → ¬ given → t = trs 2 0 0 0 0 (s.cacheLeaf m r.va l)) ∧
      (r.page = false → given → ∃ z acked, z < 4 ∧ (sizeOfPsz z = l.size ∨ (l.size ∉ [2 ^ 12, 2 ^ 16, 2 ^ 21, 2 ^ 30] ∧ z = 3)) ∧
        (∀ e ∈ acked, (∃ o ∈ s.adit.acked, o.1 = e.1 ∧ o.2.1 ≤ e.2.1 ∧ e.2.2 ≤ o.2.2) ∧
          (e.1 = r.pasid → ¬ (r.va / l.size * l.size < e.2.2 ∧ e.2.1 < r.va / l.size * l.size + l.size))) ∧
        t = trs 0 (if l.cls = 0 ∧ l.w = true then 1 else 0) z l.cls.toNat l.base
          (State.cacheLeaf { s with adit := { s.adit with acked } } m r.va l))) ∧
    ((∀ l, w ≠ .leaf l) → (∀ lvl, w ≠ .notPresent lvl) → t = if r.page then pgrsp 0 s else trs 2 0 0 0 0 s)

/-- Requests are answered one after another. -/
def AllAnswered (found : Option (Nat × WalkRes)) : List GuestReq → State → State → Prop
  | [], s, t => t = s
  | r :: rs, s, t => ∃ a, WalkAnswered found r s a ∧ AllAnswered found rs a t

end Sys2Proof.Claims

/-- R216 to R226, R231: the next command of a context ends in BADCMD unless it is one that R219 allows. A NOP ends; a RESOLVE wakes
every agent that waits for the page of its record or, with DENY, faults the context of the recorded thread, and ends in BADTAG where
no record has its tag; a SHOOTDOWN and a FREE start their shootdown, and end once it may complete, with the cached translations of the
range gone; OPEN and FREE make and delete a sinter state; SWAP exchanges two frames with their poison, and waits while another exchange
runs or a chunk of a migrating channel moves (R53). That a field is checked by the commands that use it alone, and where in its page the
address of a denied thread or engine lies that the record does not name, is log entry 40; that a SWAP exchanges at its start, and that a
FREE of a page covers the page that holds VA, are choices of the model (log entries 44 and 45). -/
def Obligations.TranslationCommands : Prop :=
  ∀ (s : State) (bs : List Byte),
    let n := s.subj.n
    let c := s.ctx n
    let op := numOf bs 0 1
    let psz := numOf bs 0 4 / 2 ^ 10 % 4
    let frame := numOf bs 16 8
    NextCommand s n bs →
    (¬ GoodCommand bs → ∀ i ∈ [Instr.xlateCmdNop, .xlateResolve, .xlateShootdown, .xlateOpen, .xlateFree, .xlateSwap],
      ∃ t, exec i s = .next t ∧ CommandEnds n 0xFF s t) ∧
    (GoodCommand bs → op = 0 → ∃ t, exec .xlateCmdNop s = .next t ∧ CommandEnds n 1 s t) ∧
    (GoodCommand bs → op = 1 →
      ((∀ r ∈ c.recs, r.written = true → r.tag.toNat ≠ numOf bs 4 4) → ∃ t, exec .xlateResolve s = .next t ∧ CommandEnds n 5 s t) ∧
      ∀ r, (c.recs.find? fun r => r.written && r.tag.toNat == numOf bs 4 4) = some r →
        (numOf bs 0 4 / 2 ^ 9 % 2 = 0 → ∃ a b t, exec .xlateResolve s = .next t ∧
          CtxBecomes n { c with recs := c.recs.filter fun x => x != r } s a ∧ Awakened n (r.va, r.write) a b ∧ CommandEnds n 1 b t) ∧
        (numOf bs 0 4 / 2 ^ 9 % 2 = 1 → ∃ (a b t : State) (i : Nat), exec .xlateResolve s = .next t ∧
          i < 4096 ∧ CtxBecomes n { c with recs := c.recs.filter fun x => x != r } s a ∧
          b = a.denyPage n (r.va, r.write) (some r) (BitVec.ofNat 64 (r.va + i)) ∧ CommandEnds n 1 b t ∧
          (∀ m, m ≠ n → b.ctx m = s.ctx m) ∧ b.crews = s.crews ∧
          (∀ x, x ∈ b.adit.reqs ↔ x ∈ s.adit.reqs ∧ ¬ (x.waitRec = true ∧ x.pasid = c.pasid ∧ x.va / 4096 * 4096 = r.va ∧ x.write = r.write)) ∧
          (let k := 32768 * n + 256 * r.lcore.toNat + r.unit.toNat
           c.st = .on → r.src = 0 → (s.crew k).alive = true → ((s.crew k).lane r.tid.toNat).st = .parked →
           ((s.crew k).lane r.tid.toNat).park = some (r.va, r.write) → b.ctx n = { c with
             recs := c.recs.filter fun x => x != r, st := .stopping
             pendFault := some { cause := 0x08, addr := r.ea, pc := r.pc, lcore := r.lcore, crew := r.unit, tid := r.tid } }))) ∧
    (GoodCommand bs → op = 2 → ∃ t, exec .xlateShootdown s = .next t ∧ ShootStarts n (heldCommand bs)
      (if numOf bs 0 4 / 2 ^ 8 % 2 = 1 then 0 else numOf bs 8 8) (if numOf bs 0 4 / 2 ^ 8 % 2 = 1 then 56 else numOf bs 4 4) s t) ∧
    (GoodCommand bs → op = 4 → ∃ t, exec .xlateFree s = .next t ∧ ShootStarts n (heldCommand bs)
      (numOf bs 8 8 / sizeOfPsz psz * sizeOfPsz psz) (if psz = 1 then 16 else 21) s t) ∧
    (GoodCommand bs → op = 3 →
      let full := 4096 ≤ (s.sinter.filter fun x => x.2.isSome && wayOf x.1 == wayOf frame).length
      let known := (sget none s.sinter frame).isSome = true
      (known → ∃ t, exec .xlateOpen s = .next t ∧ CommandEnds n 2 s t) ∧
      (¬ known → full → ∃ t, exec .xlateOpen s = .next t ∧ CommandEnds n 3 s t) ∧
      (¬ known → ¬ full → ∃ a t, exec .xlateOpen s = .next t ∧ a = { s with sinter := a.sinter } ∧
        (∀ f, sget none a.sinter f = if f = frame then some { sealed := false, tail := 0, size := sizeOfPsz psz } else sget none s.sinter f) ∧
        CommandEnds n 1 a t)) ∧
    (GoodCommand bs → op = 5 → s.swap ≠ none ∨ s.link.moving = true → exec .xlateSwap s = .next s) ∧
    (GoodCommand bs → op = 5 → s.swap = none → s.link.moving = false →
      let host := decide (numOf bs 0 4 / 2 ^ 12 % 2 = 1)
      let size := sizeOfPsz psz
      let b := secondFrame host (numOf bs 24 8)
      ∃ (a t : State), exec .xlateSwap s = .next t ∧ OnlyMemory { s with tables := a.tables, crews := a.crews } a ∧
        (∀ k, a.crew k = if b = .dev frame then s.crew k else { s.crew k with code := none }) ∧
        CtxBecomes n { c with cmd := some (heldCommand bs) }
          { a with swap := some { ctx := n, first := frame, second := numOf bs 24 8, host, size } } t ∧
        (∀ i, i < size → a.placeByte (.dev (frame + i)) = s.placeByte (b.add i) ∧ a.placeByte (b.add i) = s.placeByte (.dev (frame + i))) ∧
        (∀ w, w < size / 4 → a.wordPois (frame / 4 + w) = s.placePois (b.add (4 * w)) ∧
          (if host then sget false a.hostPois (numOf bs 24 8 / 4 + w) else a.wordPois (numOf bs 24 8 / 4 + w)) = s.wordPois (frame / 4 + w)) ∧
        ∀ q, (∀ i, i < size → q ≠ .dev (frame + i) ∧ q ≠ b.add i) → a.placeByte q = s.placeByte q)

/-- R212, R214, R219 to R225, R231, R76, R207: a SHOOTDOWN, an ATS invalidation and a FREE complete once every access has been performed
and the guest has answered, a FREE also once no access is on its way to its frame, and not before; a SWAP completes, and the groups that
waited for it leave their sites; a fault record that waits is written with the next tag where the page has room, and XVEC is sent; a walk of
the guest ends for every request of its page that has joined it, with one result, and each of them is answered, in turn. Commands and records
wait while the home slices hold accesses to the translation page (log entry 44). That any shootdown drops the ATS results of its PASID is log
entry 40, the page that a FREE shoots down 45, and 41 what a request of a joined walk hears. -/
def Obligations.TranslationEnds : Prop :=
  ∀ (s : State),
    let n := s.subj.n
    let c := s.ctx n
    (∀ x : XCmd, c.cmd = some x →
      (x.op = 2 →
        let base := if x.all then 0 else x.va.toNat
        let log2 := if x.all then 56 else x.log2
        (MayComplete s n base log2 → s.xlHeld n = false →
          ∃ a t, exec .shootdownComplete s = .next t ∧ Dropped n base log2 s a ∧ CommandEnds n 1 a t) ∧
        (¬ MayComplete s n base log2 → ∃ t, exec .shootdownComplete s = .next t ∧ (t.ctx n).cmd = some x ∧ (t.ctx n).cridx = c.cridx)) ∧
      (x.op = 4 → x.psz = 1 ∨ x.psz = 2 →
        let log2 := if x.psz = 1 then 16 else 21
        let base := x.va.toNat / 2 ^ log2 * 2 ^ log2
        let quiet := s.frameQuiet x.dpa.toNat (sizeOfPsz x.psz.toNat)
        (MayComplete s n base log2 → quiet = true → s.xlHeld n = false → ∃ (a b t : State), exec .freeComplete s = .next t ∧ Dropped n base log2 s a ∧
          b = { a with sinter := b.sinter } ∧ (∀ f, sget none b.sinter f = if f = x.dpa.toNat then none else sget none s.sinter f) ∧
          CommandEnds n (if (sget none s.sinter x.dpa.toNat).isSome then 1 else 4) b t) ∧
        (¬ (MayComplete s n base log2 ∧ quiet = true) → exec .freeComplete s = .next s)) ∧
      (x.op = 5 → s.clocked = true → ∀ w, s.swap = some w → w.ctx = n →
        let u := { s with swap := none, link := { s.link with moving := s.link.mcBusy } }
        u.xlHeld n = false → ∃ t, exec .swapComplete s = .next t.settleGroups ∧ CommandEnds n 1 u t)) ∧
    (∀ base log2 rest, c.inval = (base, log2) :: rest →
      ((∀ x, c.cmd = some x → x.op ≠ 2) → MayComplete s n base.toNat log2 →
        ∃ a b : State, exec .shootdownComplete s = .next { b with dev := { s.dev with atsDone := s.dev.atsDone + 1 } } ∧
          Dropped n base.toNat log2 s a ∧ CtxBecomes n { c with inval := rest } a b) ∧
      (¬ MayComplete s n base.toNat log2 → ∃ t, exec .shootdownComplete s = .next t ∧ (t.ctx n).inval = c.inval ∧
        t.dev.atsDone = s.dev.atsDone)) ∧
    (∀ r, (c.recs.find? fun r => !r.written) = some r → c.st = .on → s.clocked = true → s.xlHeld n = false →
      let consumed := s.read64 (xlPage s n + 0x40)
      let room := (c.fwidx + 2 ^ 64 - consumed) % 2 ^ 64 < 32
      let bytes := bytesLe 8 r.va ++ bytesLe 4 c.nextTag.toNat ++ bytesLe 4 (r.acc.toNat + 4 * r.src.toNat + 16 * r.level.toNat) ++
        bytesLe 4 (r.lcore.toNat + 256 * r.unit.toNat) ++ List.replicate 12 0
      (room → ∃ a b : State, exec .faultRecordWrite s = .next (if b.read64 (xlPage s n + 8) / 128 % 2 = 1 then
          gridVector (some (b.read64 (xlPage s n + 8) % 128)) b else b) ∧
        OnlyMemory { s with misses := s.misses.filter fun m => !(m.pasid == c.pasid && m.page == r.va / 4096) } a ∧
        StoresLand [(.dev (xlPage s n + 0x400 + 32 * (c.fwidx % 32)), bytes), (.dev (xlPage s n), bytesLe 8 (c.fwidx + 1))] s a ∧
        CtxBecomes n { c with
          fwidx := c.fwidx + 1, nextTag := c.nextTag + 1
          recs := c.recs.map fun x => if x = r then { r with tag := c.nextTag, written := true } else x } a b) ∧
      (¬ room → exec .faultRecordWrite s = .next s)) ∧
    (∀ r, s.walks[n]? = some r → s.clocked = true →
      let joined := fun (x : GuestReq) => x.pasid == r.pasid && x.va / 4096 == r.va / 4096
      let found := if r.va < 2 ^ 56 then (s.ctxOfPasid r.pasid).map fun m => (m, s.guestWalk m r) else none
      (∀ m w, found = some (m, w) → WalkFinds s m r w) ∧
      (∀ m d, found = some (m, .held d) → exec .walkComplete s = .next s) ∧
      ((∀ m d, found ≠ some (m, .held d)) → ∃ t, exec .walkComplete s = .next t ∧
        AllAnswered found (s.walks.filter joined) { s with walks := s.walks.filter fun x => !joined x } t))

namespace Sys2Proof.Claims

/-! ## Placement, pre-emption, issue -/

/-- A group begins to leave its sites (R84, R130, R132): its logical cores are marked, its crews stop at their next boundary, its
running guest queues are told to pre-empt; where nothing of it runs any more it leaves at once. -/
def Evicted (lcs : List Nat) (level : Nat) (waits : Bool) (s t : State) : Prop :=
  ∃ a : State, a = { s with lcs := a.lcs, crews := a.crews, adit := a.adit } ∧ t = a.settleGroups ∧
    (∀ j, a.lcore j = if j ∈ lcs then { s.lcore j with leaving := some level } else s.lcore j) ∧
    (∀ k, k / 256 ∉ lcs → a.crew k = s.crew k) ∧
    (∀ k, k / 256 ∈ lcs → (s.crew k).alive = true → a.crew k = match (s.crew k).res with
      | .resident | .leaving _ => { s.crew k with res := .leaving level, waiting := waits }
      | _ => s.crew k) ∧
    a.adit = { s.adit with gqs := a.adit.gqs, toGuest := a.adit.toGuest } ∧
    ∀ q, a.gq q = if q < 16 ∧ (s.gq q).en = true ∧ (s.gq q).st = .run ∧ (s.gq q).asked = none ∧ (∃ b, (s.gq q).bound = some b ∧ b.1 ∈ lcs)
      then { s.gq q with asked := some (s.tick, false) } else s.gq q

/-- Groups leave one after the other. -/
def EvictAll (level : Nat) : List (List Nat) → State → State → Prop
  | [], s, t => t = s
  | g :: gs, s, t => ∃ a, Evicted g level false s a ∧ EvictAll level gs a t

/-- A thread as it stands after a save and restore (R132): one that waited executes its word again, one in mwait is past it. -/
def resumed (now : Nat) (x : Lane) : Lane :=
  match x.st, x.wait with
  | .blocked, some .mwait => { awoken x with watch := none }
  | .blocked, some (.waitc _ _ (some due) _ _ _) => { awoken x with pc := x.waitPc, mark := true, remain := some (due - now) }
  | .blocked, _ => { awoken x with pc := x.waitPc, mark := true, remain := x.remain }
  | _, _ => x

/-- The number that n bytes of device memory hold, lowest first. -/
def imageNum (s : State) (a n : Nat) : Nat := ((List.range n).map fun i => (s.placeByte (.dev (a + i))).toNat * 256 ^ i).sum

/-- A thread as the image gives it (R138, R294), with the CREWCTL region at `ctl`; what the image does not hold is the device's own. -/
def laneOfImage (s : State) (ctl l : Nat) (old : Lane) : Lane :=
  let code := imageNum s (ctl + 0x200 + 8 * l) 8
  let x := resumed s.tick old
  let tr := ctl + 0xC00 + 32 * l
  { x with
    st := if code.testBit 48 = false then .vacant else if code.testBit 49 = true then .exited
      else if code.testBit 51 = true ∧ x.park.isSome = true then .parked else .live
    pc := BitVec.ofNat 64 (imageNum s (ctl + 8 * l) 8), item := BitVec.ofNat 48 code, age := BitVec.ofNat 8 (code / 2 ^ 56)
    yld := code.testBit 50, inTrap := code.testBit 52, mark := code.testBit 53
    tr := { word := BitVec.ofNat 32 (imageNum s tr 4), pc := BitVec.ofNat 64 (imageNum s (tr + 4) 8)
            addr := BitVec.ofNat 64 (imageNum s (tr + 12) 8), cause := BitVec.ofNat 32 (imageNum s (tr + 20) 4)
            cls := BitVec.ofNat 3 (imageNum s (tr + 24) 8) }
    remain := if old.st = .blocked then x.remain else x.remain.map fun _ => imageNum s (ctl + 0x1400 + 4 * l) 4 }

/-- Crew k comes back to its site (R134, R136, R138): its registers with their poison, masks, descriptors, status, threads and the
latches of its parked threads are what its place in the image holds. -/
def CrewRead (s : State) (k : Nat) (d : Crew) : Prop :=
  let c := s.crew k
  let ctl := s.slotBase (k / 256) + 0x40000 + 0x2000 * (k % 256)
  let reg := s.slotBase (k / 256) + 0x240000 + 0x8000 * (k % 256)
  d = { c with lanes := d.lanes, v := d.v, vPois := d.vPois, s := d.s, sPois := d.sPois, m := d.m, t := d.t, lat := d.lat
               status := BitVec.ofNat 32 (imageNum s (ctl + 0x700) 4), stamp := imageNum s (ctl + 0x708) 8
               regroup := none, res := .resident, waiting := false, wakeDue := none, idleSince := none } ∧
  (∀ i, i < 8192 → sget 0 d.v i = BitVec.ofNat 32 (imageNum s (reg + 4 * i) 4) ∧ sget false d.vPois i = s.wordPois (reg / 4 + i)) ∧
  (∀ j, j < 96 → sget 0 d.s j = BitVec.ofNat 32 (imageNum s (ctl + 0x400 + 4 * j) 4) ∧
    sget false d.sPois j = s.wordPois ((ctl + 0x400) / 4 + j)) ∧
  (∀ j, j < 14 → sget 0 d.m j = BitVec.ofNat 64 (imageNum s (ctl + 0x580 + 8 * j) 8)) ∧
  (∀ j, j < 16 → sget 0 d.t j = BitVec.ofNat 128 (imageNum s (ctl + 0x600 + 16 * j) 16)) ∧
  ∀ l, l < 64 → d.lane l = laneOfImage s ctl l (c.lane l) ∧
    sget [] d.lat l = if (imageNum s (ctl + 0x200 + 8 * l) 8).testBit 51 = true then
      (List.range 4).map fun i => BitVec.ofNat 32 (imageNum s (ctl + 0x800 + 16 * l + 4 * i) 4) else sget [] c.lat l

/-- The buffers of a logical core with their poison and full bits, its engine contexts and the records of their commands are what its slot
of the image holds (R136, R138, R202). -/
def LCoreRead (s : State) (lc : Nat) (d : LCore) : Prop :=
  let c := s.lcore lc
  let base := s.slotBase lc
  let bare := fun (x : Ec) => { x with cmds := x.cmds.map fun m : Cmd => { m with bytes := [] } }
  d = { c with site := d.site, lastSite := d.lastSite, saved := d.saved, since := d.since, waitSince := d.waitSince, ahead := d.ahead
               leaving := d.leaving, group := d.group, buf := d.buf, pois := d.pois, full := d.full, ecs := d.ecs } ∧
  (∀ o, o < 0x280000 → sget 0 d.buf (0x100000 + o) = s.placeByte (.dev (base + 0xD80000 + o))) ∧
  (∀ w, w < 0xA0000 → sget false d.pois (0x40000 + w) = s.wordPois ((base + 0xD80000) / 4 + w)) ∧
  (∀ g, g < 0x28000 → sget false d.full (0x10000 + g) = (s.placeByte (.dev (base + 0x3000 + g / 8))).getLsbD (g % 8)) ∧
  (d.ecs.map fun x => (x.1, bare x.2)) = (c.ecs.map fun x =>
    let at_ := base + 0x8000 + 64 * x.1
    (x.1, { bare x.2 with count := BitVec.ofNat 64 (imageNum s at_ 8), issued := BitVec.ofNat 64 (imageNum s (at_ + 8) 8)
                          kind := kindOf (imageNum s (at_ + 16) 4 % 16), err := (imageNum s (at_ + 16) 4).testBit 4 })) ∧
  ∀ i x, c.cmdsOf[i]? = some x → (∀ j, j < i → c.cmdsOf[j]? ≠ some x) → x.2.accepted = true →
    (d.cmdsOf[i]?).map (fun y => y.2.bytes) = some ((List.range 64).map fun j => s.placeByte (.dev (base + 0x9000 + 128 * i + j)))

/-- The segments of the blocks on a logical core with their poison, and at a block's core position 0 its barrier record, are what the
slot of the image holds (R136, R138, R147, R369). -/
def BlocksRead (s : State) (lc : Nat) (t : State) : Prop :=
  let base := s.slotBase lc
  ∀ i b y at_, (s.segments lc)[i]? = some (b, y, at_) → ∃ x, t.block b = some x ∧
    x = { y with mem := x.mem, pois := x.pois, exp := x.exp, arr := x.arr, ph := x.ph, gph := x.gph, garr := x.garr } ∧
    (∀ o, o < y.lb → sget 0 x.mem (y.position lc * y.lb + o) = s.placeByte (.dev (base + 0xA40000 + at_ + o))) ∧
    (∀ w, w < y.lb / 4 → sget false x.pois (y.position lc * y.lb / 4 + w) = s.wordPois ((base + 0xA40000 + at_) / 4 + w)) ∧
    (let r := imageNum s (base + 0x800 + 8 * i) 8
     y.position lc = 0 → x.exp = r % 2 ^ 17 ∧ x.arr = r / 2 ^ 17 % 2 ^ 17 ∧ x.ph = BitVec.ofNat 8 (r / 2 ^ 34) ∧
       (y.rank = 0 → x.gph = BitVec.ofNat 8 (r / 2 ^ 42) ∧ x.garr = r / 2 ^ 50 % 2 ^ 5))

/-- Device memory outside the image area of a context, and host memory, read as before (R136). -/
def OutsideImage (n : Nat) (s t : State) : Prop :=
  (∀ a, a < (s.ctx n).savebase.toNat ∨ (s.ctx n).savebase.toNat + 129 * 2 ^ 24 ≤ a → t.placeByte (.dev a) = s.placeByte (.dev a)) ∧
  ∀ a, t.placeByte (.host a) = s.placeByte (.host a)

/-- Only site n changes. -/
def SiteBecomes (n : Nat) (x : Site) (s t : State) : Prop :=
  t = { s with sites := t.sites } ∧ ∀ j, t.site j = if j = n then x else s.site j

/-- Candidates that the distributor has looked at and that cannot be placed now are passed over; for the first one it makes room (R116,
R122, R133). -/
def PassedOver : Bool → List Wish → State → State → Prop
  | _, [], s, t => t = s
  | first, w :: ws, s, t => (if w.group then s.tryRestore w else s.tryGang w) = .waits ∧
      PassedOver false ws (if first then (s.preemptFor w).closeFor w else s) t

/-- The distributor takes a turn, in which every candidate waits from now on, and has come to candidate w, with the state u (R116). -/
def LookedAt (s : State) (w : Wish) (u : State) : Prop :=
  s.dev.st = .run ∧ s.clocked = true ∧
    ∃ pre rest, (s.wishes.foldl State.markWait s).turn = pre ++ w :: rest ∧ PassedOver true pre (s.wishes.foldl State.markWait s) u

/-- What a placement finds of the machine's bookkeeping (R94, R111, R112): a bound site and its logical core name each other, a logical core
that is free holds no crew, and no context has more than 128 logical cores. -/
def Placeable (s : State) (n : Nat) : Prop :=
  (∀ site lc, (s.site site).bound = some lc → (s.lcore lc).site = some site) ∧
  (∀ lc ∈ s.freeCores n, ∀ k, k / 256 = lc → (s.crew k).alive = false) ∧ s.lcores ≤ 128

/-- The crews of a gang stand in slots of the cores that its plan names (R117, R118): block i on the cores `cores[i]`, which its sites
`plan[i]` are bound to, and on the j-th of them the block's crews j × CREWS / (CORES + 1) and on, in free slots. -/
def CrewsPlaced (r : LaunchRec) (plan cores : List (List Nat)) (ks : List Nat) (u a : State) : Prop :=
  let m := r.cores + 1
  let cpc := r.crews / m
  plan.length = cores.length ∧ ks.length = plan.length * (m * cpc) ∧ ks.Nodup ∧
  (∀ (i : Nat) (sites lcs : List Nat), plan[i]? = some sites → cores[i]? = some lcs → sites.length = m ∧ lcs.length = m ∧
    ∀ (j site lc : Nat), sites[j]? = some site → lcs[j]? = some lc →
      (a.site site).bound = some lc ∧ (a.lcore lc).site = some site ∧ (a.site site).carve = (r.vrf, r.loc, r.l1) ∧
      ((u.site site).bound = some lc ∨ ((u.site site).bound = none ∧ (u.lcore lc).site = none)) ∧
      ∀ (c : Nat), c < cpc → ∃ k, ks[i * (m * cpc) + j * cpc + c]? = some k ∧ k / 256 = lc ∧ (a.crew k).index = j * cpc + c ∧
        ∃ x, a.block (a.crew k).block = some x ∧ x.rank = i ∧ x.cores.map (·.1) = lcs ∧ x.cpc = cpc) ∧
  (∀ site, (∀ sites ∈ plan, site ∉ sites) → a.site site = u.site site) ∧ ∀ lc, (∀ lcs ∈ cores, lc ∉ lcs) → a.lcore lc = u.lcore lc

/-- Stopped guest queues that satisfy a condition resume: each runs again and hears RESUME (R87). -/
def Resumed (ok : GuestQ → Prop) (s t : State) : Prop :=
  t = { s with adit := { s.adit with gqs := t.adit.gqs, toGuest := t.adit.toGuest } } ∧
  (∀ q, t.gq q = s.gq q ∨ t.gq q = { s.gq q with st := .run, asked := none }) ∧
  ∀ q, q < 16 → (s.gq q).st = .stopped → ok (s.gq q) → t.gq q = { s.gq q with st := .run, asked := none } ∧
    guestMsg 3 (BitVec.ofNat 4 q) (BitVec.ofNat 64 (s.gq q).widx) ∈ t.adit.toGuest

end Sys2Proof.Claims

/-- R87, R114 to R125, R151, R258, R261: the gang of the grid that the distributor has come to is placed by a plan of the first gallery that
fits it, at the preferred size where the pool has its reservation, else at the fallback size, or in replay at the logged size: its blocks are
numbered on, each on the logical cores of its sites of the plan, new ones where a site was unbound; on each core it takes CREWS / (CORES + 1)
free crew slots, the crews in ascending index; they start with the constants of the record and their entries, the round-robin pointer and the
last gallery move, and stopped queues of the context resume; then the crews take their items, one crew after the other, and those without one
end. A grid that no gallery could hold faults with subcode 4, and one whose reservation is beyond the pool with subcode 9. Where every candidate
waits, nothing is placed. `plan` says how a plan is found. The premise `Placeable` holds where a bound site and its logical core name each
other, a free logical core holds no crew and FEAT.LCORES is at most 128. The order of looking at candidates is log entry 46. -/
def Obligations.GangsArePlaced : Prop :=
  (∀ (s t : State), s.dev.st = .run → s.clocked = true →
    PassedOver true (s.wishes.foldl State.markWait s).turn (s.wishes.foldl State.markWait s) t →
      exec .gangPlacement s = .next t ∧ exec .groupRestore s = .next t) ∧
  ∀ (s : State) (w : Wish) (u : State) (g : Grid),
    let r := g.lr
    let need := fun (size : Nat) => r.childres * r.crews * size
    let n := w.ctx
    LookedAt s w u → w.group = false → u.grid w.ref = some g → (r.replay = true → r.det = true) →
    (u.couldHold r r.fallback = false → (u.ctx n).st = .on → ∃ t, exec .gangPlacement s = .next t ∧ LaunchFaults n 4 0 u t) ∧
    (u.couldHold r r.fallback = true → 65536 < need r.fallback → (u.ctx n).st = .on →
      ∃ t, exec .gangPlacement s = .next t ∧ LaunchFaults n 9 0 u t) ∧
    ∀ size gal plan,
      let e : LogEnt := { kind := 2, grid := g.det % 4096, item := 0, key := g.blocks % 2 ^ 48 + size * 2 ^ 48 }
      let same := fun (x : LogEnt) => decide (x.kind = 2 ∧ x.grid = g.det % 4096)
      u.couldHold r r.fallback = true → need r.fallback ≤ 65536 → u.firstPlan n r size = some (gal, plan) → need size ≤ u.dist.pool →
      (r.replay = false → size = r.pref ∨ (size = r.fallback ∧ ∀ x, u.firstPlan n r r.pref = some x → u.dist.pool < need r.pref)) →
      (r.replay = true → size < 32) → MayChoose u n g e same → Placeable u n →
      ∃ (b a d : State) (cores : List (List Nat)) (ks : List Nat), Chosen n g e same u b ∧ plan.length = size ∧ CrewsPlaced r plan cores ks u a ∧
        exec .gangPlacement s = .next (((d.startCrews r.entry ks).endEmpty ks).refreshGrid w.ref) ∧
        Resumed (fun q => q.bound = none ∧ q.ctx.toNat = n) a d ∧
        a = { b with dist := a.dist, grids := a.grids, blocks := a.blocks, sites := a.sites, lcs := a.lcs, crews := a.crews, ctxs := a.ctxs } ∧
        (∀ m, a.ctx m = if m = n then { b.ctx n with nextGroup := (a.ctx n).nextGroup } else b.ctx m) ∧
        a.dist.lastGal = some gal ∧ a.dist.pool = u.dist.pool - need size ∧ sget 0 a.dist.rr w.prio = (n + 1) % 64 ∧
        (∀ j, a.grid j = if j = w.ref then some { g with gangs := g.gangs + 1, blocks := g.blocks + size, since := none, st := .running }
          else u.grid j) ∧
        (∀ i, i < plan.length → ∃ b x, a.block b = some x ∧ x.ctx = n ∧ x.grid = w.ref ∧ x.id = g.blocks + i ∧ x.gang = g.gangs ∧
          x.rank = i ∧ x.size = size) ∧
        (∀ k ∈ ks, (u.crew k).alive = false ∧ (a.crew k).alive = true ∧ (a.crew k).grid = w.ref ∧ (a.crew k).entries = r.childres ∧
          ∀ j, j < 16 → (a.crew k).sreg (80 + j) = r.consts.getD j 0) ∧
        (∀ k, k ∉ ks → a.crew k = u.crew k) ∧
        (r.det = false → ∃ (items : List Nat) (h : Grid), Drawn gal items { g with gangs := g.gangs + 1, blocks := g.blocks + size, since := none, st := .running } h ∧
          items.length ≤ 64 * ks.length ∧ (items.length < 64 * ks.length → h.nextItem gal false = none) ∧
          ∀ (i l k : Nat), ks[i]? = some k → l < 64 → ((d.startCrews r.entry ks).crew k).lane l = match items[64 * i + l]? with
            | some item => { st := .live, item := BitVec.ofNat 48 item, pc := r.entry }
            | none => {})

/-- R87, R121, R122, R130 to R138, R143: the saved group that the distributor has come to comes back to sites, with what the image holds of
it (log entry 51 for what the device keeps itself); a closed and empty site takes its new carve; a group that stays on a closed site for
1 ms leaves, unless its priority is above the candidate's; the spare takes the place of a failing core, whose site leaves placement where the
spare is gone; the context that has held its sites longest loses them to a starved candidate of equal priority that finds nothing lower;
a crew that has been wait-idle for 500 ticks while a candidate waits is swapped out, or its whole group leaves (the distributor's choice),
as a group does of which every crew waits; a crew that has stopped is saved at its place in the image; one whose wait is over comes back to
its site once its registers fit, and after 100,000 ticks its group leaves instead. Where a group returns to is log entry 46, what is left
of a wait's time across a swap 52. -/
def Obligations.GroupsLeaveAndReturn : Prop :=
  (∀ (s : State) (w : Wish) (u : State) (sites : List Nat),
    let lcs : List Nat := sortBy id (u.savedGroup w.ctx w.ref)
    LookedAt s w u → w.group = true → u.groupSites lcs w.ahead = some sites → (∀ lc ∈ lcs, u.slotHeld lc = false) → lcs.Nodup → sites.Nodup →
    SMap.wfFrom {} none u.crews = true → SMap.wfFrom none none u.blocks = true →
    ∃ t, exec .groupRestore s = .next t ∧ OutsideImage w.ctx u t ∧
      (∀ i lc site : Nat, lcs[i]? = some lc → sites[i]? = some site → (t.site site).bound = some lc ∧ (t.site site).carve = (u.lcore lc).carve ∧
        LCoreRead u lc (t.lcore lc) ∧ BlocksRead u lc t ∧ (t.lcore lc).site = some site ∧ (t.lcore lc).lastSite = site ∧
        (t.lcore lc).saved = false ∧ (t.lcore lc).since = s.tick ∧ (t.lcore lc).waitSince = none ∧ (t.lcore lc).ahead = false ∧
        (t.lcore lc).leaving = none) ∧
      (∀ k, k / 256 ∈ lcs → (u.crew k).alive = true → CrewRead u k (t.crew k)) ∧
      (∀ k, k / 256 ∉ lcs → t.crew k = u.crew k) ∧ (t.ctx w.ctx).wdog = 0 ∧
      ∀ q, q < 16 → (u.gq q).st = .stopped →
        ((∃ b, (u.gq q).bound = some b ∧ b.1 ∈ lcs) ∨ ((u.gq q).bound = none ∧ (u.gq q).ctx.toNat = w.ctx)) →
          t.gq q = { u.gq q with st := .run, asked := none } ∧
            guestMsg 3 (BitVec.ofNat 4 q) (BitVec.ofNat 64 (u.gq q).widx) ∈ t.adit.toGuest) ∧
  (∀ (s : State),
    let site := s.subj.n
    let x := s.site site
    (∀ t0, s.clocked = true → x.bound = none → x.closed = some t0 → ∃ t, exec .recarveDone s = .next t ∧
      SiteBecomes site { x with closed := none, carve := x.wanted.getD x.carve, wanted := none } s t) ∧
    (∀ t0 lc, s.clocked = true → x.closed = some t0 → x.bound = some lc → t0 + 100000 ≤ s.tick → (s.lcore lc).leaving = none →
      s.groupPrio (s.groupOf lc) ≤ x.closePrio → ∃ t, exec .carveDrainTimeout s = .next t ∧ Evicted (s.groupOf lc) 2 false s t) ∧
    (s.health.failing.contains site = true → x.bound = none →
      let rest := s.health.failing.filter (· != site)
      (s.spareSound site = true → ∃ (a t : State), exec .spareAssign s = .next t ∧ Signalled 4 a t ∧
        a = { s with ret := { s.ret with coreret := s.ret.coreret ||| (1#136 <<< s.physCore site (site % 16)) }
                     health := { s.health with failing := rest, spareuse := s.health.spareuse ||| (1#8 <<< s.spareBit site) } }) ∧
      (s.spareSound site = false → ∃ (a b : State), exec .spareAssign s = .next (b.notAhead site) ∧ Signalled 6 a b ∧
        a = { s with ret := { s.ret with siteoff := s.ret.siteoff ||| (1#128 <<< site), coreret := s.ret.coreret ||| (1#136 <<< s.physOf site) }
                     health := { s.health with failing := rest } }))) ∧
  (∀ (s : State) (w : Wish) (rest : List Wish) (t0 n held : Nat), s.clocked = true → s.turn = w :: rest → w.since = some t0 →
    t0 + 1000000 ≤ s.tick → s.toEvict w = none → n < 64 → n ≠ w.ctx → s.heldSince n w.prio = some held → held + 1000000 ≤ s.tick →
    (∀ m h, m < 64 → m ≠ w.ctx → s.heldSince m w.prio = some h → held < h ∨ (held = h ∧ n ≤ m)) →
    let all := s.boundGroups n
    let gs := all.filter fun g => decide (s.groupPrio g ≤ w.prio)
    (gs ≠ all → ∃ t, exec .starvationPreemption s = .next t ∧ EvictAll 2 gs s t) ∧
    (gs = all → ∃ t, exec .starvationPreemption s = .next t ∧ EvictAll 3 gs (s.preemptQueues fun q => q.ctx.toNat = n) t)) ∧
  (∀ (s : State),
    let k := s.subj.n
    let c := s.crew k
    let lc := k / 256
    let slot := k % 256
    let onSite : Prop := c.alive = true ∧ (s.ctx (ctxOf k)).st = .on ∧ (s.lcore lc).site.isSome = true ∧ (s.lcore lc).leaving = none
    s.clocked = true →
    (onSite → s.maySwap k = true → ∃ t, exec .waitSwap s = .next t ∧
        ((s.groupIdle (s.groupOf lc) = true ∧ Evicted (s.groupOf lc) 2 true s t) ∨
          (t = { s with crews := t.crews } ∧ ∀ j, t.crew j = if j = k then { c with res := .leaving 1, waiting := true } else s.crew j))) ∧
    (onSite → s.maySwap k = false → s.groupIdle (s.groupOf lc) = true →
      ∃ t, exec .waitSwap s = .next t ∧ Evicted (s.groupOf lc) 2 true s t) ∧
    (∀ level, c.res = .leaving level → c.alive = true → c.ending = false → c.unitHeld = false → s.slotHeld lc = false → (s.stopCrew k).crewBusy k = false →
      let u := s.stopCrew k
      let c := u.crew k
      (s.crewBusy k = false → (s.crew k).held = none → u = { s with dirty := u.dirty }) ∧
      ∃ (b t : State), exec .crewSaveComplete s = .next t ∧ t = b.settleGroups ∧ OutsideImage (ctxOf k) u b ∧ (∀ j, j ≠ k → b.crew j = u.crew j) ∧
        (let d := b.crew k
         d = { c with lanes := d.lanes, regroup := d.regroup, res := if level = 1 then .swapped else .saved, armed := d.armed, idleSince := none } ∧
         (c.waiting = true → d.lanes = c.lanes) ∧ (c.waiting = false → ∀ l, l < 64 → d.lane l = resumed s.tick (c.lane l))) ∧
        (SMap.wfFrom 0 none c.v = true → ∀ j l, j < 128 → l < 64 →
          wordAt b (.dev (s.slotBase lc + 0x240000 + 0x8000 * slot + 256 * j + 4 * l)) = sget 0 c.v (64 * j + l)) ∧
        (SMap.wfFrom 0 none c.s = true → ∀ j, j < 96 →
          wordAt b (.dev (s.slotBase lc + 0x40000 + 0x2000 * slot + 0x400 + 4 * j)) = sget 0 c.s j)) ∧
    (c.alive = true → (s.ctx (ctxOf k)).st = .on → c.waiting = true → s.crewWakes k = true → c.res = .saved →
      ∃ t, exec .swappedWaitWake s = .next t ∧ t = { s with crews := t.crews } ∧
        ∀ j, t.crew j = if j = k then { c with waiting := false, wakeDue := some s.tick } else s.crew j) ∧
    (onSite → c.res = .swapped → (c.wakeDue.isSome = true ∨ (c.waiting = true ∧ s.crewWakes k = true)) →
      s.usedRegs lc + s.regBytes k ≤ (s.lcore lc).carve.1 * 262144 → s.slotHeld lc = false → SMap.wfFrom {} none s.crews = true →
      ∃ (a t : State) (away : Nat), exec .swappedWaitWake s = .next t ∧ a = { s with crews := a.crews } ∧ (∀ j, j ≠ k → a.crew j = s.crew j) ∧
        CrewRead s k (a.crew k) ∧ OnlyMemory a t ∧
        (∀ i, away.testBit i = true ↔ i < 256 ∧ (a.crew (256 * lc + i)).alive = true ∧
          ((a.crew (256 * lc + i)).res = .swapped ∨ (a.crew (256 * lc + i)).res = .saved)) ∧
        StoresLand [(.dev (s.slotBase lc + 4), bytesLe 4 (if away = 0 then 0 else 1) ++ bytesLe 4 (a.groupNum lc)),
          (.dev (s.slotBase lc + 0x30), bytesLe 32 away)] a t) ∧
    (∀ t0, c.res = .swapped → c.wakeDue = some t0 → c.alive = true → t0 + 100000 ≤ s.tick → (s.lcore lc).leaving = none →
      (s.ctx (ctxOf k)).st = .on → ∃ t, exec .swapReturnTimeout s = .next t ∧ Evicted (s.groupOf lc) 2 false s t))

namespace Sys2Proof.Claims

/-- Crews that have an issue opportunity before the one that issues, and are not ready, are passed over; the candidate of each is formed
(R128, R156). -/
def Unready : List Nat → State → State → Prop
  | [], s, t => t = s
  | k :: ks, s, t => (s.formed k).tryCrew k = none ∧ Unready ks (s.formed k) t

end Sys2Proof.Claims

/-- R30, R115, R128, R132, R139, R150, R154 to R157, R164, R165, R168, R177, R288, R382, R388, R415: a crew has a candidate pulse where a thread is LIVE; it
holds exactly the LIVE threads at the lowest PC of those whose yield flag is clear, or of all where every flag is set, and of these only the
marked ones where one is marked; where every LIVE thread has its flag set the flags are cleared; the
first ready crew in order issues its candidate at a clause that decodes, or goes on with a held pulse whose wait is over, and where none is ready
nothing issues; a crew without threads refills at its last declared point, and ends where it gets none. That a fetch reads memory as it is
is log entry 79, the order of the checks and the marks at a crew-uniform clause 50, and a clause that waits for a lane's remapping 60. -/
def Obligations.PulsesIssue : Prop :=
  (∀ (c : Crew), let live : Nat → Prop := fun l => l < 64 ∧ (c.lane l).st = .live
    (c.candidate = none ↔ ∀ l, ¬ live l) ∧
    ∀ x, c.candidate = some x →
      let from_ : Nat → Prop := fun l => live l ∧ ((c.lane l).yld = false ∨ ∀ j, live j → (c.lane j).yld = true)
      (x.clear = true ↔ ∀ l, live l → (c.lane l).yld = true) ∧
      (∃ l, from_ l ∧ (c.lane l).pc = x.pc) ∧ (∀ l, from_ l → x.pc.toNat ≤ (c.lane l).pc.toNat) ∧
      (x.mark = true ↔ ∃ l, from_ l ∧ (c.lane l).pc = x.pc ∧ (c.lane l).mark = true) ∧
      (∀ l, x.part.getLsbD l = true ↔ from_ l ∧ (c.lane l).pc = x.pc ∧ (x.mark = true → (c.lane l).mark = true)) ∧
      (x.whole = true ↔ ∀ l, from_ l → x.part.getLsbD l = true)) ∧
  (∀ (s : State) (k : Nat), let c := s.crew k
    let unit : Prop := ∃ p, c.held = some p ∧ p.unit.isSome = true
    s.mayTry k = true ↔ c.alive = true ∧ c.ending = false ∧ c.stuck = false ∧ (c.res = .resident ∨ (∃ level, c.res = .leaving level) ∧ unit) ∧
      ((s.ctx (ctxOf k)).st = .on ∨ unit) ∧ (c.halted = true → c.stepping = true) ∧
      (s.laneCtl (4 * s.physOf (s.siteOf (lcOf k)) + slotOf k % 4)).busy = none) ∧
  (∀ (s : State) (k : Nat), s.mayTry k = true → (s.crew k).held = none →
    (∀ x, (s.crew k).candidate = some x → x.clear = true → s.formed k = { s with crews := (s.formed k).crews } ∧
      (∀ j, j ≠ k → (s.formed k).crew j = s.crew j) ∧ (s.formed k).crew k = { s.crew k with lanes := ((s.formed k).crew k).lanes } ∧
      ∀ l, l < 64 → ((s.formed k).crew k).lane l = { (s.crew k).lane l with yld := false }) ∧
    ((∀ x, (s.crew k).candidate = some x → x.clear = false) → s.formed k = s)) ∧
  (∀ (s u : State), s.dev.st = .run → s.clocked = true → Unready (s.issueOrder s.subj.n s.subj.m) s u → exec .issuePulse s = .next u) ∧
  (∀ (s u : State) (k : Nat) (pre ks : List Nat),
    let a := u.formed k
    let c := a.crew k
    let n := ctxOf k
    s.dev.st = .run → s.clocked = true → s.issueOrder s.subj.n s.subj.m = pre ++ k :: ks → Unready pre s u → a.mayTry k = true →
    (∀ (x y : Cand) (h : DWord) (hd : Word) (words : List Word) (starts : List Nat), c.held = none → c.candidate = some x →
      (x.mark = false → h = x.pc) → (x.mark = true → a.headerOf n x.pc c.code = .at h) →
      a.fetch n h c.code = .ok hd → c.headerReady hd = true → headerFault h hd = none → words.length = hdrN hd + 1 →
      (∀ w, w < words.length → a.fetch n (h + BitVec.ofNat 64 (4 * w)) c.code = .ok (words.getD w 0)) →
      clauseStarts words (if (x.pc - h).toNat % 4 = 0 then (x.pc - h).toNat / 4 else 16) = .ok starts →
      (crewUniform words starts = false → y = x) → (crewUniform words starts = true → c.uniform x = .go y) →
      ∃ t, exec .issuePulse s = .next t ∧
        t = { a with cur := t.cur, crews := t.crews, sites := t.sites, ctxs := t.ctxs, tlb := t.tlb, wcache := t.wcache
                     walks := t.walks, misses := t.misses } ∧ SameWalks a t ∧
        t.cur = some { crew := k, hdr := h, words, todo := starts.filter fun w => (x.pc - h).toNat / 4 ≤ w, p0 := y.part, part := y.part
                       helpers := c.helpersOf y.part, whole := y.whole, step := c.stepping
                       refilled := starts.any fun w => decide (w < (x.pc - h).toNat / 4) && (instrAt words (hdrClass hd) w).any isRefill } ∧
        OnlyCounts a t ∧ (∀ j, j ≠ k → t.crew j = a.crew j) ∧
        (let d := t.crew k
         d = { c with lat := d.lat, idleSince := none, lastIssue := s.cycles, code := d.code } ∧
         (∃ seen, d.code = c.code.map (fun v => { v with seen := v.seen ++ seen }) ∧ ∀ w b lf, w < words.length → c.code.isSome = true →
           (let at_ := h + BitVec.ofNat 64 (4 * w)
            a.translate n at_.toNat 4 .fetch (4096 + at_.toNat / 4 % 16) = .ok (.dev b) lf) → b / 4 ∈ seen) ∧
         ∀ l, l < 64 → sget [] d.lat l = if (!y.mark && y.part.getLsbD l) || (c.helpersOf y.part).getLsbD l then [] else sget [] c.lat l) ∧
        ∀ m, t.ctx m = if m = n then { a.ctx n with wdog := 0 } else a.ctx m) ∧
    (∀ p, c.held = some p → a.holdOver k p = true → ∃ t, exec .issuePulse s = .next t ∧
      t = { a with cur := some { p with hold := none, step := c.stepping }, crews := t.crews } ∧
      ∀ j, t.crew j = if j = k then { c with held := none } else a.crew j)) ∧
  ∀ (s : State) (first n : Nat) (cont : DWord),
    let k := s.subj.n
    let c := s.crew k
    c.refill = some (first, n, cont) → s.clocked = true → c.alive = true → c.ending = false → c.noThreads = true → c.halted = false →
    c.res = .resident → c.held = none → (s.ctx (ctxOf k)).st = .on →
    ∃ a, a = (s.refillCrew k first n cont).refreshGrid c.grid ∧
      exec .implicitRefill s = .next (if (a.crew k).noThreads ∧ (a.crew k).stuck = false then a.endCrew k else a)

namespace Sys2Proof.Claims

/-! ## The machine as a whole -/

/-- An instruction with no literal word stands in class c at a word, and the word is what the instruction encodes to. -/
def Stands (c : Nat) (w : Word) (i : Instr) : Prop := decodeWord c w [] = some i ∧ literalCount c w = 0 ∧ encode i = [w]

/-- The same for a word with literal words. -/
def StandsWith (c : Nat) (w : Word) (lits : List Word) (i : Instr) : Prop :=
  decodeWord c w lits = some i ∧ literalCount c w = lits.length ∧ encode i = w :: lits

/-- Every pulse holds the words that it has still to run: the one in progress, whose position lies in its clause once it has
moved to a word, and those held at a word. -/
def PulsesHold (s : State) : Prop :=
  s.pulseHeld = true ∧ ∀ k p, (s.crew k).held = some p → p.held = true

/-- The changes of DEVSTAT.STATE that R96 lists, by the event that may cause them. -/
def StateChange : Instr → DevState → DevState → Prop
  | .coldStart, _, b => b = .load
  | .devctlLoad, a, b => a = .load ∧ b = .verify
  | .verificationEnd, a, b => a = .verify ∧ (b = .boot ∨ b = .fwfail)
  | .bootComplete _, a, b => a = .boot ∧ (b = .negotiate ∨ b = .fwfail)
  | .devctlGo, a, b => a = .negotiate ∧ b = .run
  | .registerWrite off _, a, b => off.toNat = 4 ∧ ((a = .load ∧ b = .verify) ∨ (a = .negotiate ∧ b = .run))
  | .thermalTrip, _, b => b = .trip
  | _, _, _ => False

end Sys2Proof.Claims

/-- R288: a step of a pulse runs the instruction that its next word decodes to, in the class of its clause and with its literal
words, and then ends, holds or goes on with the pulse; a word that its class leaves unassigned raises ILLEGAL with reason 7.
Without a pulse a step runs the next event of the schedule after the ticks before it, and without an event one tick passes (the
model's scheduling: log entry 1). -/
def Obligations.StepRunsTheInstruction : Prop :=
  ∀ (s : State),
    (∀ p w rest, s.cur = some p → p.todo = w :: rest → 0 < w → w < p.words.length →
      let q := { p with pos := w, todo := rest, hold := none }
      let cls := p.clsAt w
      let a := { s with fresh := s.fresh + 1, cur := some q }
      (∀ i, decodeWord cls (p.words.getD w 0) (litsAt p.words cls w) = some i →
        (∀ t, exec i a = .next t → step s = .next t.advance) ∧ (∀ f, exec i a = .fault f → step s = .fault f) ∧
          ∀ r, exec i a = .refused r → step s = .refused r) ∧
      (decodeWord cls (p.words.getD w 0) (litsAt p.words cls w) = none → step s = .next (a.deliverAll q (.illegal 7)).advance)) ∧
    (∀ a rest, s.cur = none → s.schedule = a :: rest →
      step s = exec a.ev { (State.ticks { s with fresh := s.fresh + 1 } a.wait) with schedule := rest, subj := a.subj }) ∧
    (s.cur = none → s.schedule = [] → step s = .next (State.ticks { s with fresh := s.fresh + 1 } 1))

/-- The worked encodings of the manual: each word of the kernel vscale, the word 0x1800_0000 in every class, and 0xB000_0392,
which only class 0 assigns. -/
def Obligations.WorkedEncodings : Prop :=
  StandsWith 2 0x14134002 [0x02000000] (.ldW32 ⟨0x04, 0xD0, 0, 0, 0, 1, 0⟩ 0x02000000) ∧
  StandsWith 2 0x14174882 [0x02000000] (.ldW32 ⟨0x05, 0xD2, 1, 0, 0, 1, 0⟩ 0x02000000) ∧
  Stands 1 0x0C001350 (.fmul ⟨0, 0x04, 0xD4, 0, 0⟩) ∧ Stands 1 0x041B8016 (.fadd ⟨0x06, 0xE0, 0x05, 1, 0⟩) ∧
  Stands 0 0x04080B5A (.add ⟨0x02, 0x02, 0xD6, 1, 0⟩) ∧ Stands 0 0x68040B5D (.cmpLt ⟨0x01, 0x02, 0xD7, 0, 1⟩) ∧
  Stands 0 0x00000000 (.nop 0) ∧ Stands 6 0x087FFFF5 (.brD ⟨1, 0x3FFFF5⟩) ∧ Stands 6 0x28000000 (.exit ⟨0, 0⟩) ∧
  Stands 0 0x18000000 (.min ⟨0, 0, 0, 0, 0⟩) ∧ Stands 1 0x18000000 (.fmax ⟨0, 0, 0, 0, 0⟩) ∧
  Stands 2 0x18000000 (.ldW64 ⟨0, 0, 0, 0, 0, 0, 0⟩ 0) ∧ Stands 3 0x18000000 (.tcvt ⟨0, 0, 0, 0, 0, 0⟩) ∧
  Stands 4 0x18000000 (.seGather ⟨0, 0, 0, 0⟩) ∧ StandsWith 5 0x18000000 [0, 0] (.waitcAll ⟨0, 0, 0⟩ [0, 0]) ∧
  StandsWith 6 0x18000000 [0, 0] (.switch ⟨0, 0⟩ [0, 0]) ∧ Stands 0 0xB0000392 (.credInt ⟨0, 0, 0xE4, 1, 0⟩) ∧
  ∀ c, c ∈ [1, 2, 3, 4, 5, 6] → decodeWord c 0xB0000392 [] = none

/-- R281, R284, R304 to R306: in its class every well-formed instruction decodes from its own words, at any value of every operand,
whatever bytes follow; and a word that decodes is the encoding of its instruction, so no bit of it is dropped. -/
def Obligations.EncodingsAreExact : Prop :=
  (∀ (i : Instr) (c : Nat) (rest : List Byte), i.WellFormed → i.cls < 7 → (c = i.cls ∨ c < 7 ∧ ∃ z, i = .nop z ∨ i = .brk z) →
    decodeBytes c ((encode i).flatMap wordBytes ++ rest) = some i) ∧
  ∀ (c : Nat) (w : Word) (lits : List Word) (i : Instr), lits.length = literalCount c w → decodeWord c w lits = some i → encode i = w :: lits

/-- No meaning stops the machine: every instruction and event answers a next state, for every state and all operands (a choice of
the model where the manual leaves a value open: it is then free). -/
def Obligations.EveryInstructionAnswers : Prop := ∀ (i : Instr) (s : State), ∃ t, exec i s = .next t

/-- R96: the state of the device changes only as the table says, and the fuses never change (R12). -/
def Obligations.DeviceStatesFollowTheTable : Prop :=
  ∀ (i : Instr) (s t : State), exec i s = .next t → t.fuse = s.fuse ∧ (t.dev.st = s.dev.st ∨ StateChange i s.dev.st t.dev.st)

/-- Log entry 2: a step keeps the canonical form of device and host memory, so that equal memories are equal data. -/
def Obligations.MemoryStaysCanonical : Prop :=
  ∀ (s t : State), s.memoryCanonical = true → step s = .next t → t.memoryCanonical = true

/-- R277, R288: a machine whose pulses hold the words that they have still to run never stops, in any number of steps: no event and
no word forms a pulse that names a word outside its clause. -/
def Obligations.PulsesAreNeverLost : Prop :=
  ∀ (s : State) (n : Nat), PulsesHold s → State.RunsFor n s

/-- R11, R20, R34, R60, R64, R92, R96, R100: right after a cold start the device is in LOAD with no features, OP1 and 300 W are set,
the patrol period and threshold have their values, the guest is in reset, every context is disabled with the highest priority
cap, memory is canonical, and no pulse runs. That the guest is present, and the values that the manual does not give, are the
model's (log entries 2 and 9 to 13). -/
def Obligations.ResetState : Prop :=
  let s := State.reset
  s.dev.st = .load ∧ s.dev.fwerr = 0 ∧ s.dev.devevt = 0 ∧ s.dev.featack = 0 ∧ s.health.target = 1 ∧ s.health.cur = 1 ∧ s.health.boost = false ∧
  s.health.limit = 300 ∧ s.link.period = 24 ∧ s.link.cethr = 64 ∧ s.adit.st = .reset ∧ s.adit.grst = true ∧
  (∀ n, (s.ctx n).st = .disabled ∧ (s.ctx n).en = false ∧ (s.ctx n).cap = 7) ∧ (∀ q, (s.gq q).en = false ∧ (s.gq q).st = .idle) ∧
  (∀ k, (s.crew k).alive = false) ∧ s.tick = 0 ∧ s.memoryCanonical = true ∧ PulsesHold s

/-- A word that earns a cause has no effect but that cause: ILLEGAL enters the handler or stops the context, POISON stops it (R102, R255, R289, R292 to R295). -/
def Obligations.CausesOfWords : Prop := IllegalWordsTrap ∧ FatalCausesStopTheContext

/-- What the control words do: transfers, exits, yields, nop, calls and returns (R282, R305, R375, R408 to R413). -/
def Obligations.ControlTransfers : Prop := ControlWords ∧ CallsAndReturns

/-- The block barrier and the gang barrier (R369 to R371). -/
def Obligations.Barriers : Prop := BlockBarrier ∧ GangBarrier

/-- Where an element of a tensor lies, and the tensor loads and stores (R356 to R359). -/
def Obligations.Tensors : Prop := TensorElements ∧ TensorAccess

/-- Fences, cache words, and what a release performs (R241 to R246, R364 to R367). -/
def Obligations.FencesAndReleases : Prop := FencesAndCaches ∧ Releases

/-- A command is accepted from the head of its queue, runs, completes, or fails its engine context (R183 to R202). -/
def Obligations.EnginesRun : Prop := EngineAccepts ∧ EngineEvents ∧ CommandResults

/-- refill, drain and launch (R125 to R127, R167, R376 to R379). -/
def Obligations.RefillDrainAndLaunch : Prop := Supplies ∧ RefillAndDrain ∧ Launch

/-- Moves between lanes and reductions over a crew (R341 to R346). -/
def Obligations.CrewOperations : Prop := CrewMoves ∧ CrewReductions

/-- A load reads at its issue and returns later, with its counter (R150, R238, R347 to R352). -/
def Obligations.Loads : Prop := LoadsIssue ∧ LoadReturns

/-- A store enters its queue and leaves it, with its counter (R238, R239, R347 to R353). -/
def Obligations.Stores : Prop := StoresIssue ∧ StoreQueueDrains

/-- An atomic pends at its issue, and is performed at its place in one step (R247 to R249, R360 to R362). -/
def Obligations.Atomics : Prop := AtomicsIssue ∧ AtomicsPerform

/-- Typed-buffer loads and stores with full-empty bits (R174 to R178, R354, R355). -/
def Obligations.Buffers : Prop := BufferLoads ∧ BufferStores

/-- waitc, mwatch and mwait (R368, R372 to R374). -/
def Obligations.WaitWords : Prop := Waitc ∧ WatchAndWait

/-- A die that does not answer is lost; ageing monitors are read and the guardband follows (R17, R27, R28, R144). -/
def Obligations.LostDiesAndAgeing : Prop := LostDies ∧ Ageing

/-- What the host does to memory and registers, and to translations of its pages (R56, R57, R91, R97, R212, R232). -/
def Obligations.HostSide : Prop := HostAccesses ∧ HostTranslations ∧ RegisterWrites

/-- Binding and reading engine contexts, and submitting a packet to a guest (R68 to R70, R182, R401 to R404). -/
def Obligations.EngineContextWords : Prop := EngineContexts ∧ GuestSubmit

/-- Appends and seals issue, and take effect at their home slice in one step (R226 to R230, R363). -/
def Obligations.AppendsAndSeals : Prop := AppendsAndSealsIssue ∧ HomeSlice
end

