-- ==== Sys2Proof/Laws/State.lean ====
section
/-! SUPPORT. What each update of the state leaves alone and what it writes, one small lemma per field and update, so that
no later proof unfolds a record update; and the laws of reading what was written (R6, R148). -/

namespace Sys2Proof.Machine

/-! ## Sparse tables -/

theorem sget_sput_same {α : Type} (d : α) (m : SMap α) (k : Nat) (x : α) : sget d (sput m k x) k = x := by
  induction m with
  | nil => simp [sput, sget]
  | cons e r ih =>
    obtain ⟨j, y⟩ := e
    simp only [sput]
    split
    · simp [sget]
    · split
      · simp [sget]
      · rename_i h; simp [sget, h, ih]

theorem sget_sput_other {α : Type} (d : α) (m : SMap α) {k j : Nat} (x : α) (h : j ≠ k) :
    sget d (sput m k x) j = sget d m j := by
  have h' : k ≠ j := fun e => h e.symm
  induction m with
  | nil => simp [sput, sget, h']
  | cons e r ih =>
    obtain ⟨i, y⟩ := e
    simp only [sput]
    split
    · simp [sget, h']
    · split
      · rename_i hi; subst hi; simp [sget, h']
      · simp [sget, ih]

theorem sget_sdel_same {α : Type} (d : α) (m : SMap α) (k : Nat) : sget d (sdel m k) k = d := by
  induction m with
  | nil => rfl
  | cons e r ih =>
    obtain ⟨i, y⟩ := e
    simp only [sdel]
    split
    · exact ih
    · rename_i h; simp [sget, h, ih]

theorem sget_sdel_other {α : Type} (d : α) (m : SMap α) {k j : Nat} (h : j ≠ k) : sget d (sdel m k) j = sget d m j := by
  have h' : k ≠ j := fun e => h e.symm
  induction m with
  | nil => rfl
  | cons e r ih =>
    obtain ⟨i, y⟩ := e
    simp only [sdel]
    split
    · rename_i hi; subst hi; simp [sget, h', ih]
    · simp [sget, ih]

/-- A table reads back what was written. -/
@[simp] theorem sget_sset_same {α : Type} [DecidableEq α] (d : α) (m : SMap α) (k : Nat) (x : α) :
    sget d (sset d m k x) k = x := by
  unfold sset
  split
  · rename_i h; simp [sget_sdel_same, h]
  · exact sget_sput_same d m k x

/-- Writing one key leaves every other key alone. -/
theorem sget_sset_other {α : Type} [DecidableEq α] (d : α) (m : SMap α) {k j : Nat} (x : α) (h : j ≠ k) :
    sget d (sset d m k x) j = sget d m j := by
  unfold sset
  split
  · exact sget_sdel_other d m h
  · exact sget_sput_other d m x h

/-- Reading any key after a write. -/
theorem sget_sset {α : Type} [DecidableEq α] (d : α) (m : SMap α) (k j : Nat) (x : α) :
    sget d (sset d m k x) j = if j = k then x else sget d m j := by
  split
  · rename_i h; rw [h, sget_sset_same]
  · rename_i h; exact sget_sset_other d m x h

/-- Reading after the same value was written under a list of keys. -/
theorem sget_ssetAll {α : Type} [DecidableEq α] (d : α) (m : SMap α) (ks : List Nat) (j : Nat) (x : α) :
    sget d (ssetAll d m ks x) j = if j ∈ ks then x else sget d m j := by
  induction ks generalizing m with
  | nil => simp [ssetAll]
  | cons k r ih =>
    have := ih (sset d m k x)
    simp only [ssetAll, List.foldl_cons] at this ⊢
    rw [this, sget_sset]
    by_cases h : j ∈ r <;> by_cases h2 : j = k <;> simp [h, h2]

/-! ## Reading what was written -/

@[simp] theorem State.crew_setCrew (s : State) (k : Nat) (c : Crew) : (s.setCrew k c).crew k = c := sget_sset_same ..
theorem State.crew_setCrew_other (s : State) {k j : Nat} (c : Crew) (h : j ≠ k) : (s.setCrew k c).crew j = s.crew j :=
  sget_sset_other _ _ _ h
@[simp] theorem State.crew_modCrew (s : State) (k : Nat) (f : Crew → Crew) : (s.modCrew k f).crew k = f (s.crew k) :=
  sget_sset_same ..
theorem State.crew_modCrew_other (s : State) {k j : Nat} (f : Crew → Crew) (h : j ≠ k) :
    (s.modCrew k f).crew j = s.crew j := sget_sset_other _ _ _ h
@[simp] theorem State.ctx_setCtx (s : State) (n : Nat) (c : Ctx) : (s.setCtx n c).ctx n = c := sget_sset_same ..
theorem State.ctx_setCtx_other (s : State) {n j : Nat} (c : Ctx) (h : j ≠ n) : (s.setCtx n c).ctx j = s.ctx j :=
  sget_sset_other _ _ _ h
@[simp] theorem State.ctx_modCtx (s : State) (n : Nat) (f : Ctx → Ctx) : (s.modCtx n f).ctx n = f (s.ctx n) :=
  sget_sset_same ..
theorem State.ctx_modCtx_other (s : State) {n j : Nat} (f : Ctx → Ctx) (h : j ≠ n) : (s.modCtx n f).ctx j = s.ctx j :=
  sget_sset_other _ _ _ h
@[simp] theorem State.lcore_modLcore (s : State) (k : Nat) (f : LCore → LCore) :
    (s.modLcore k f).lcore k = f (s.lcore k) := sget_sset_same ..
theorem State.lcore_modLcore_other (s : State) {k j : Nat} (f : LCore → LCore) (h : j ≠ k) :
    (s.modLcore k f).lcore j = s.lcore j := sget_sset_other _ _ _ h
@[simp] theorem State.site_modSite (s : State) (k : Nat) (f : Site → Site) : (s.modSite k f).site k = f (s.site k) :=
  sget_sset_same ..
theorem State.site_modSite_other (s : State) {k j : Nat} (f : Site → Site) (h : j ≠ k) :
    (s.modSite k f).site j = s.site j := sget_sset_other _ _ _ h
@[simp] theorem State.grid_setGrid (s : State) (g : Nat) (x : Option Grid) : (s.setGrid g x).grid g = x :=
  sget_sset_same ..
theorem State.grid_setGrid_other (s : State) {g j : Nat} (x : Option Grid) (h : j ≠ g) :
    (s.setGrid g x).grid j = s.grid j := sget_sset_other _ _ _ h
@[simp] theorem State.grid_modGrid (s : State) (g : Nat) (f : Grid → Grid) : (s.modGrid g f).grid g = (s.grid g).map f :=
  sget_sset_same ..
theorem State.grid_modGrid_other (s : State) {g j : Nat} (f : Grid → Grid) (h : j ≠ g) :
    (s.modGrid g f).grid j = s.grid j := sget_sset_other _ _ _ h
@[simp] theorem State.block_modBlock (s : State) (b : Nat) (f : Block → Block) :
    (s.modBlock b f).block b = (s.block b).map f := sget_sset_same ..
theorem State.block_modBlock_other (s : State) {b j : Nat} (f : Block → Block) (h : j ≠ b) :
    (s.modBlock b f).block j = s.block j := sget_sset_other _ _ _ h
@[simp] theorem State.gq_modGq (s : State) (q : Nat) (f : GuestQ → GuestQ) : (s.modGq q f).gq q = f (s.gq q) :=
  sget_sset_same ..
theorem State.gq_modGq_other (s : State) {q j : Nat} (f : GuestQ → GuestQ) (h : j ≠ q) :
    (s.modGq q f).gq j = s.gq j := sget_sset_other _ _ _ h
@[simp] theorem Crew.lane_setLane (c : Crew) (l : Nat) (x : Lane) : (c.setLane l x).lane l = x := sget_sset_same ..
theorem Crew.lane_setLane_other (c : Crew) {l j : Nat} (x : Lane) (h : j ≠ l) : (c.setLane l x).lane j = c.lane j :=
  sget_sset_other _ _ _ h
@[simp] theorem Crew.lane_modLane (c : Crew) (l : Nat) (f : Lane → Lane) : (c.modLane l f).lane l = f (c.lane l) :=
  sget_sset_same ..
theorem Crew.lane_modLane_other (c : Crew) {l j : Nat} (f : Lane → Lane) (h : j ≠ l) : (c.modLane l f).lane j = c.lane j :=
  sget_sset_other _ _ _ h
@[simp] theorem LCore.ec_ecs (c : LCore) (e : Nat) (x : Ec) : LCore.ec { c with ecs := sset {} c.ecs e x } e = x :=
  sget_sset_same ..
@[simp] theorem State.ec_modEc (s : State) (k e : Nat) (f : Ec → Ec) :
    ((s.modEc k e f).lcore k).ec e = f ((s.lcore k).ec e) := by
  simp [State.modEc, LCore.ec]
@[simp] theorem State.pulse_some (s : State) (p q : Pulse) : State.pulse { s with cur := some q } p = q := rfl

/-! ## What an update leaves alone -/

@[simp] theorem State.setCtx_schedule (s : State) (n : Nat) (c : Ctx) : (s.setCtx n c).schedule = s.schedule := rfl
@[simp] theorem State.setCtx_subj (s : State) (n : Nat) (c : Ctx) : (s.setCtx n c).subj = s.subj := rfl
@[simp] theorem State.setCtx_cur (s : State) (n : Nat) (c : Ctx) : (s.setCtx n c).cur = s.cur := rfl
@[simp] theorem State.setCtx_fresh (s : State) (n : Nat) (c : Ctx) : (s.setCtx n c).fresh = s.fresh := rfl
@[simp] theorem State.setCtx_arrival (s : State) (n : Nat) (c : Ctx) : (s.setCtx n c).arrival = s.arrival := rfl
@[simp] theorem State.setCtx_tick (s : State) (n : Nat) (c : Ctx) : (s.setCtx n c).tick = s.tick := rfl
@[simp] theorem State.setCtx_cycles (s : State) (n : Nat) (c : Ctx) : (s.setCtx n c).cycles = s.cycles := rfl
@[simp] theorem State.setCtx_fuse (s : State) (n : Nat) (c : Ctx) : (s.setCtx n c).fuse = s.fuse := rfl
@[simp] theorem State.setCtx_dev (s : State) (n : Nat) (c : Ctx) : (s.setCtx n c).dev = s.dev := rfl
@[simp] theorem State.setCtx_ret (s : State) (n : Nat) (c : Ctx) : (s.setCtx n c).ret = s.ret := rfl
@[simp] theorem State.setCtx_health (s : State) (n : Nat) (c : Ctx) : (s.setCtx n c).health = s.health := rfl
@[simp] theorem State.setCtx_link (s : State) (n : Nat) (c : Ctx) : (s.setCtx n c).link = s.link := rfl
@[simp] theorem State.setCtx_adit (s : State) (n : Nat) (c : Ctx) : (s.setCtx n c).adit = s.adit := rfl
@[simp] theorem State.setCtx_dist (s : State) (n : Nat) (c : Ctx) : (s.setCtx n c).dist = s.dist := rfl
@[simp] theorem State.setCtx_sites (s : State) (n : Nat) (c : Ctx) : (s.setCtx n c).sites = s.sites := rfl
@[simp] theorem State.setCtx_lcs (s : State) (n : Nat) (c : Ctx) : (s.setCtx n c).lcs = s.lcs := rfl
@[simp] theorem State.setCtx_crews (s : State) (n : Nat) (c : Ctx) : (s.setCtx n c).crews = s.crews := rfl
@[simp] theorem State.setCtx_grids (s : State) (n : Nat) (c : Ctx) : (s.setCtx n c).grids = s.grids := rfl
@[simp] theorem State.setCtx_blocks (s : State) (n : Nat) (c : Ctx) : (s.setCtx n c).blocks = s.blocks := rfl
@[simp] theorem State.setCtx_mem (s : State) (n : Nat) (c : Ctx) : (s.setCtx n c).mem = s.mem := rfl
@[simp] theorem State.setCtx_undef (s : State) (n : Nat) (c : Ctx) : (s.setCtx n c).undef = s.undef := rfl
@[simp] theorem State.setCtx_poison (s : State) (n : Nat) (c : Ctx) : (s.setCtx n c).poison = s.poison := rfl
@[simp] theorem State.setCtx_dirty (s : State) (n : Nat) (c : Ctx) : (s.setCtx n c).dirty = s.dirty := rfl
@[simp] theorem State.setCtx_sinter (s : State) (n : Nat) (c : Ctx) : (s.setCtx n c).sinter = s.sinter := rfl
@[simp] theorem State.setCtx_hidden (s : State) (n : Nat) (c : Ctx) : (s.setCtx n c).hidden = s.hidden := rfl
@[simp] theorem State.setCtx_hostMem (s : State) (n : Nat) (c : Ctx) : (s.setCtx n c).hostMem = s.hostMem := rfl
@[simp] theorem State.setCtx_hostPois (s : State) (n : Nat) (c : Ctx) : (s.setCtx n c).hostPois = s.hostPois := rfl
@[simp] theorem State.setCtx_hostHidden (s : State) (n : Nat) (c : Ctx) : (s.setCtx n c).hostHidden = s.hostHidden := rfl
@[simp] theorem State.setCtx_writes (s : State) (n : Nat) (c : Ctx) : (s.setCtx n c).writes = s.writes := rfl
@[simp] theorem State.setCtx_lineW (s : State) (n : Nat) (c : Ctx) : (s.setCtx n c).lineW = s.lineW := rfl
@[simp] theorem State.setCtx_hostLineW (s : State) (n : Nat) (c : Ctx) : (s.setCtx n c).hostLineW = s.hostLineW := rfl
@[simp] theorem State.setCtx_homeQ (s : State) (n : Nat) (c : Ctx) : (s.setCtx n c).homeQ = s.homeQ := rfl
@[simp] theorem State.setCtx_tlb (s : State) (n : Nat) (c : Ctx) : (s.setCtx n c).tlb = s.tlb := rfl
@[simp] theorem State.setCtx_wcache (s : State) (n : Nat) (c : Ctx) : (s.setCtx n c).wcache = s.wcache := rfl
@[simp] theorem State.setCtx_walks (s : State) (n : Nat) (c : Ctx) : (s.setCtx n c).walks = s.walks := rfl
@[simp] theorem State.setCtx_misses (s : State) (n : Nat) (c : Ctx) : (s.setCtx n c).misses = s.misses := rfl
@[simp] theorem State.setCtx_ats (s : State) (n : Nat) (c : Ctx) : (s.setCtx n c).ats = s.ats := rfl
@[simp] theorem State.setCtx_atsCache (s : State) (n : Nat) (c : Ctx) : (s.setCtx n c).atsCache = s.atsCache := rfl
@[simp] theorem State.setCtx_merges (s : State) (n : Nat) (c : Ctx) : (s.setCtx n c).merges = s.merges := rfl
@[simp] theorem State.setCtx_swap (s : State) (n : Nat) (c : Ctx) : (s.setCtx n c).swap = s.swap := rfl
@[simp] theorem State.setCtx_tables (s : State) (n : Nat) (c : Ctx) : (s.setCtx n c).tables = s.tables := rfl

@[simp] theorem State.modCtx_schedule (s : State) (n : Nat) (f : Ctx → Ctx) : (s.modCtx n f).schedule = s.schedule := rfl
@[simp] theorem State.modCtx_subj (s : State) (n : Nat) (f : Ctx → Ctx) : (s.modCtx n f).subj = s.subj := rfl
@[simp] theorem State.modCtx_cur (s : State) (n : Nat) (f : Ctx → Ctx) : (s.modCtx n f).cur = s.cur := rfl
@[simp] theorem State.modCtx_fresh (s : State) (n : Nat) (f : Ctx → Ctx) : (s.modCtx n f).fresh = s.fresh := rfl
@[simp] theorem State.modCtx_arrival (s : State) (n : Nat) (f : Ctx → Ctx) : (s.modCtx n f).arrival = s.arrival := rfl
@[simp] theorem State.modCtx_tick (s : State) (n : Nat) (f : Ctx → Ctx) : (s.modCtx n f).tick = s.tick := rfl
@[simp] theorem State.modCtx_cycles (s : State) (n : Nat) (f : Ctx → Ctx) : (s.modCtx n f).cycles = s.cycles := rfl
@[simp] theorem State.modCtx_fuse (s : State) (n : Nat) (f : Ctx → Ctx) : (s.modCtx n f).fuse = s.fuse := rfl
@[simp] theorem State.modCtx_dev (s : State) (n : Nat) (f : Ctx → Ctx) : (s.modCtx n f).dev = s.dev := rfl
@[simp] theorem State.modCtx_ret (s : State) (n : Nat) (f : Ctx → Ctx) : (s.modCtx n f).ret = s.ret := rfl
@[simp] theorem State.modCtx_health (s : State) (n : Nat) (f : Ctx → Ctx) : (s.modCtx n f).health = s.health := rfl
@[simp] theorem State.modCtx_link (s : State) (n : Nat) (f : Ctx → Ctx) : (s.modCtx n f).link = s.link := rfl
@[simp] theorem State.modCtx_adit (s : State) (n : Nat) (f : Ctx → Ctx) : (s.modCtx n f).adit = s.adit := rfl
@[simp] theorem State.modCtx_dist (s : State) (n : Nat) (f : Ctx → Ctx) : (s.modCtx n f).dist = s.dist := rfl
@[simp] theorem State.modCtx_sites (s : State) (n : Nat) (f : Ctx → Ctx) : (s.modCtx n f).sites = s.sites := rfl
@[simp] theorem State.modCtx_lcs (s : State) (n : Nat) (f : Ctx → Ctx) : (s.modCtx n f).lcs = s.lcs := rfl
@[simp] theorem State.modCtx_crews (s : State) (n : Nat) (f : Ctx → Ctx) : (s.modCtx n f).crews = s.crews := rfl
@[simp] theorem State.modCtx_grids (s : State) (n : Nat) (f : Ctx → Ctx) : (s.modCtx n f).grids = s.grids := rfl
@[simp] theorem State.modCtx_blocks (s : State) (n : Nat) (f : Ctx → Ctx) : (s.modCtx n f).blocks = s.blocks := rfl
@[simp] theorem State.modCtx_mem (s : State) (n : Nat) (f : Ctx → Ctx) : (s.modCtx n f).mem = s.mem := rfl
@[simp] theorem State.modCtx_undef (s : State) (n : Nat) (f : Ctx → Ctx) : (s.modCtx n f).undef = s.undef := rfl
@[simp] theorem State.modCtx_poison (s : State) (n : Nat) (f : Ctx → Ctx) : (s.modCtx n f).poison = s.poison := rfl
@[simp] theorem State.modCtx_dirty (s : State) (n : Nat) (f : Ctx → Ctx) : (s.modCtx n f).dirty = s.dirty := rfl
@[simp] theorem State.modCtx_sinter (s : State) (n : Nat) (f : Ctx → Ctx) : (s.modCtx n f).sinter = s.sinter := rfl
@[simp] theorem State.modCtx_hidden (s : State) (n : Nat) (f : Ctx → Ctx) : (s.modCtx n f).hidden = s.hidden := rfl
@[simp] theorem State.modCtx_hostMem (s : State) (n : Nat) (f : Ctx → Ctx) : (s.modCtx n f).hostMem = s.hostMem := rfl
@[simp] theorem State.modCtx_hostPois (s : State) (n : Nat) (f : Ctx → Ctx) : (s.modCtx n f).hostPois = s.hostPois := rfl
@[simp] theorem State.modCtx_hostHidden (s : State) (n : Nat) (f : Ctx → Ctx) : (s.modCtx n f).hostHidden = s.hostHidden := rfl
@[simp] theorem State.modCtx_writes (s : State) (n : Nat) (f : Ctx → Ctx) : (s.modCtx n f).writes = s.writes := rfl
@[simp] theorem State.modCtx_lineW (s : State) (n : Nat) (f : Ctx → Ctx) : (s.modCtx n f).lineW = s.lineW := rfl
@[simp] theorem State.modCtx_hostLineW (s : State) (n : Nat) (f : Ctx → Ctx) : (s.modCtx n f).hostLineW = s.hostLineW := rfl
@[simp] theorem State.modCtx_homeQ (s : State) (n : Nat) (f : Ctx → Ctx) : (s.modCtx n f).homeQ = s.homeQ := rfl
@[simp] theorem State.modCtx_tlb (s : State) (n : Nat) (f : Ctx → Ctx) : (s.modCtx n f).tlb = s.tlb := rfl
@[simp] theorem State.modCtx_wcache (s : State) (n : Nat) (f : Ctx → Ctx) : (s.modCtx n f).wcache = s.wcache := rfl
@[simp] theorem State.modCtx_walks (s : State) (n : Nat) (f : Ctx → Ctx) : (s.modCtx n f).walks = s.walks := rfl
@[simp] theorem State.modCtx_misses (s : State) (n : Nat) (f : Ctx → Ctx) : (s.modCtx n f).misses = s.misses := rfl
@[simp] theorem State.modCtx_ats (s : State) (n : Nat) (f : Ctx → Ctx) : (s.modCtx n f).ats = s.ats := rfl
@[simp] theorem State.modCtx_atsCache (s : State) (n : Nat) (f : Ctx → Ctx) : (s.modCtx n f).atsCache = s.atsCache := rfl
@[simp] theorem State.modCtx_merges (s : State) (n : Nat) (f : Ctx → Ctx) : (s.modCtx n f).merges = s.merges := rfl
@[simp] theorem State.modCtx_swap (s : State) (n : Nat) (f : Ctx → Ctx) : (s.modCtx n f).swap = s.swap := rfl
@[simp] theorem State.modCtx_tables (s : State) (n : Nat) (f : Ctx → Ctx) : (s.modCtx n f).tables = s.tables := rfl

@[simp] theorem State.setCrew_schedule (s : State) (k : Nat) (c : Crew) : (s.setCrew k c).schedule = s.schedule := rfl
@[simp] theorem State.setCrew_subj (s : State) (k : Nat) (c : Crew) : (s.setCrew k c).subj = s.subj := rfl
@[simp] theorem State.setCrew_cur (s : State) (k : Nat) (c : Crew) : (s.setCrew k c).cur = s.cur := rfl
@[simp] theorem State.setCrew_fresh (s : State) (k : Nat) (c : Crew) : (s.setCrew k c).fresh = s.fresh := rfl
@[simp] theorem State.setCrew_arrival (s : State) (k : Nat) (c : Crew) : (s.setCrew k c).arrival = s.arrival := rfl
@[simp] theorem State.setCrew_tick (s : State) (k : Nat) (c : Crew) : (s.setCrew k c).tick = s.tick := rfl
@[simp] theorem State.setCrew_cycles (s : State) (k : Nat) (c : Crew) : (s.setCrew k c).cycles = s.cycles := rfl
@[simp] theorem State.setCrew_fuse (s : State) (k : Nat) (c : Crew) : (s.setCrew k c).fuse = s.fuse := rfl
@[simp] theorem State.setCrew_dev (s : State) (k : Nat) (c : Crew) : (s.setCrew k c).dev = s.dev := rfl
@[simp] theorem State.setCrew_ret (s : State) (k : Nat) (c : Crew) : (s.setCrew k c).ret = s.ret := rfl
@[simp] theorem State.setCrew_health (s : State) (k : Nat) (c : Crew) : (s.setCrew k c).health = s.health := rfl
@[simp] theorem State.setCrew_link (s : State) (k : Nat) (c : Crew) : (s.setCrew k c).link = s.link := rfl
@[simp] theorem State.setCrew_adit (s : State) (k : Nat) (c : Crew) : (s.setCrew k c).adit = s.adit := rfl
@[simp] theorem State.setCrew_ctxs (s : State) (k : Nat) (c : Crew) : (s.setCrew k c).ctxs = s.ctxs := rfl
@[simp] theorem State.setCrew_dist (s : State) (k : Nat) (c : Crew) : (s.setCrew k c).dist = s.dist := rfl
@[simp] theorem State.setCrew_sites (s : State) (k : Nat) (c : Crew) : (s.setCrew k c).sites = s.sites := rfl
@[simp] theorem State.setCrew_lcs (s : State) (k : Nat) (c : Crew) : (s.setCrew k c).lcs = s.lcs := rfl
@[simp] theorem State.setCrew_grids (s : State) (k : Nat) (c : Crew) : (s.setCrew k c).grids = s.grids := rfl
@[simp] theorem State.setCrew_blocks (s : State) (k : Nat) (c : Crew) : (s.setCrew k c).blocks = s.blocks := rfl
@[simp] theorem State.setCrew_mem (s : State) (k : Nat) (c : Crew) : (s.setCrew k c).mem = s.mem := rfl
@[simp] theorem State.setCrew_undef (s : State) (k : Nat) (c : Crew) : (s.setCrew k c).undef = s.undef := rfl
@[simp] theorem State.setCrew_poison (s : State) (k : Nat) (c : Crew) : (s.setCrew k c).poison = s.poison := rfl
@[simp] theorem State.setCrew_dirty (s : State) (k : Nat) (c : Crew) : (s.setCrew k c).dirty = s.dirty := rfl
@[simp] theorem State.setCrew_sinter (s : State) (k : Nat) (c : Crew) : (s.setCrew k c).sinter = s.sinter := rfl
@[simp] theorem State.setCrew_hidden (s : State) (k : Nat) (c : Crew) : (s.setCrew k c).hidden = s.hidden := rfl
@[simp] theorem State.setCrew_hostMem (s : State) (k : Nat) (c : Crew) : (s.setCrew k c).hostMem = s.hostMem := rfl
@[simp] theorem State.setCrew_hostPois (s : State) (k : Nat) (c : Crew) : (s.setCrew k c).hostPois = s.hostPois := rfl
@[simp] theorem State.setCrew_hostHidden (s : State) (k : Nat) (c : Crew) : (s.setCrew k c).hostHidden = s.hostHidden := rfl
@[simp] theorem State.setCrew_writes (s : State) (k : Nat) (c : Crew) : (s.setCrew k c).writes = s.writes := rfl
@[simp] theorem State.setCrew_lineW (s : State) (k : Nat) (c : Crew) : (s.setCrew k c).lineW = s.lineW := rfl
@[simp] theorem State.setCrew_hostLineW (s : State) (k : Nat) (c : Crew) : (s.setCrew k c).hostLineW = s.hostLineW := rfl
@[simp] theorem State.setCrew_homeQ (s : State) (k : Nat) (c : Crew) : (s.setCrew k c).homeQ = s.homeQ := rfl
@[simp] theorem State.setCrew_tlb (s : State) (k : Nat) (c : Crew) : (s.setCrew k c).tlb = s.tlb := rfl
@[simp] theorem State.setCrew_wcache (s : State) (k : Nat) (c : Crew) : (s.setCrew k c).wcache = s.wcache := rfl
@[simp] theorem State.setCrew_walks (s : State) (k : Nat) (c : Crew) : (s.setCrew k c).walks = s.walks := rfl
@[simp] theorem State.setCrew_misses (s : State) (k : Nat) (c : Crew) : (s.setCrew k c).misses = s.misses := rfl
@[simp] theorem State.setCrew_ats (s : State) (k : Nat) (c : Crew) : (s.setCrew k c).ats = s.ats := rfl
@[simp] theorem State.setCrew_atsCache (s : State) (k : Nat) (c : Crew) : (s.setCrew k c).atsCache = s.atsCache := rfl
@[simp] theorem State.setCrew_merges (s : State) (k : Nat) (c : Crew) : (s.setCrew k c).merges = s.merges := rfl
@[simp] theorem State.setCrew_swap (s : State) (k : Nat) (c : Crew) : (s.setCrew k c).swap = s.swap := rfl
@[simp] theorem State.setCrew_tables (s : State) (k : Nat) (c : Crew) : (s.setCrew k c).tables = s.tables := rfl

@[simp] theorem State.modCrew_schedule (s : State) (k : Nat) (f : Crew → Crew) : (s.modCrew k f).schedule = s.schedule := rfl
@[simp] theorem State.modCrew_subj (s : State) (k : Nat) (f : Crew → Crew) : (s.modCrew k f).subj = s.subj := rfl
@[simp] theorem State.modCrew_cur (s : State) (k : Nat) (f : Crew → Crew) : (s.modCrew k f).cur = s.cur := rfl
@[simp] theorem State.modCrew_fresh (s : State) (k : Nat) (f : Crew → Crew) : (s.modCrew k f).fresh = s.fresh := rfl
@[simp] theorem State.modCrew_arrival (s : State) (k : Nat) (f : Crew → Crew) : (s.modCrew k f).arrival = s.arrival := rfl
@[simp] theorem State.modCrew_tick (s : State) (k : Nat) (f : Crew → Crew) : (s.modCrew k f).tick = s.tick := rfl
@[simp] theorem State.modCrew_cycles (s : State) (k : Nat) (f : Crew → Crew) : (s.modCrew k f).cycles = s.cycles := rfl
@[simp] theorem State.modCrew_fuse (s : State) (k : Nat) (f : Crew → Crew) : (s.modCrew k f).fuse = s.fuse := rfl
@[simp] theorem State.modCrew_dev (s : State) (k : Nat) (f : Crew → Crew) : (s.modCrew k f).dev = s.dev := rfl
@[simp] theorem State.modCrew_ret (s : State) (k : Nat) (f : Crew → Crew) : (s.modCrew k f).ret = s.ret := rfl
@[simp] theorem State.modCrew_health (s : State) (k : Nat) (f : Crew → Crew) : (s.modCrew k f).health = s.health := rfl
@[simp] theorem State.modCrew_link (s : State) (k : Nat) (f : Crew → Crew) : (s.modCrew k f).link = s.link := rfl
@[simp] theorem State.modCrew_adit (s : State) (k : Nat) (f : Crew → Crew) : (s.modCrew k f).adit = s.adit := rfl
@[simp] theorem State.modCrew_ctxs (s : State) (k : Nat) (f : Crew → Crew) : (s.modCrew k f).ctxs = s.ctxs := rfl
@[simp] theorem State.modCrew_dist (s : State) (k : Nat) (f : Crew → Crew) : (s.modCrew k f).dist = s.dist := rfl
@[simp] theorem State.modCrew_sites (s : State) (k : Nat) (f : Crew → Crew) : (s.modCrew k f).sites = s.sites := rfl
@[simp] theorem State.modCrew_lcs (s : State) (k : Nat) (f : Crew → Crew) : (s.modCrew k f).lcs = s.lcs := rfl
@[simp] theorem State.modCrew_grids (s : State) (k : Nat) (f : Crew → Crew) : (s.modCrew k f).grids = s.grids := rfl
@[simp] theorem State.modCrew_blocks (s : State) (k : Nat) (f : Crew → Crew) : (s.modCrew k f).blocks = s.blocks := rfl
@[simp] theorem State.modCrew_mem (s : State) (k : Nat) (f : Crew → Crew) : (s.modCrew k f).mem = s.mem := rfl
@[simp] theorem State.modCrew_undef (s : State) (k : Nat) (f : Crew → Crew) : (s.modCrew k f).undef = s.undef := rfl
@[simp] theorem State.modCrew_poison (s : State) (k : Nat) (f : Crew → Crew) : (s.modCrew k f).poison = s.poison := rfl
@[simp] theorem State.modCrew_dirty (s : State) (k : Nat) (f : Crew → Crew) : (s.modCrew k f).dirty = s.dirty := rfl
@[simp] theorem State.modCrew_sinter (s : State) (k : Nat) (f : Crew → Crew) : (s.modCrew k f).sinter = s.sinter := rfl
@[simp] theorem State.modCrew_hidden (s : State) (k : Nat) (f : Crew → Crew) : (s.modCrew k f).hidden = s.hidden := rfl
@[simp] theorem State.modCrew_hostMem (s : State) (k : Nat) (f : Crew → Crew) : (s.modCrew k f).hostMem = s.hostMem := rfl
@[simp] theorem State.modCrew_hostPois (s : State) (k : Nat) (f : Crew → Crew) : (s.modCrew k f).hostPois = s.hostPois := rfl
@[simp] theorem State.modCrew_hostHidden (s : State) (k : Nat) (f : Crew → Crew) : (s.modCrew k f).hostHidden = s.hostHidden := rfl
@[simp] theorem State.modCrew_writes (s : State) (k : Nat) (f : Crew → Crew) : (s.modCrew k f).writes = s.writes := rfl
@[simp] theorem State.modCrew_lineW (s : State) (k : Nat) (f : Crew → Crew) : (s.modCrew k f).lineW = s.lineW := rfl
@[simp] theorem State.modCrew_hostLineW (s : State) (k : Nat) (f : Crew → Crew) : (s.modCrew k f).hostLineW = s.hostLineW := rfl
@[simp] theorem State.modCrew_homeQ (s : State) (k : Nat) (f : Crew → Crew) : (s.modCrew k f).homeQ = s.homeQ := rfl
@[simp] theorem State.modCrew_tlb (s : State) (k : Nat) (f : Crew → Crew) : (s.modCrew k f).tlb = s.tlb := rfl
@[simp] theorem State.modCrew_wcache (s : State) (k : Nat) (f : Crew → Crew) : (s.modCrew k f).wcache = s.wcache := rfl
@[simp] theorem State.modCrew_walks (s : State) (k : Nat) (f : Crew → Crew) : (s.modCrew k f).walks = s.walks := rfl
@[simp] theorem State.modCrew_misses (s : State) (k : Nat) (f : Crew → Crew) : (s.modCrew k f).misses = s.misses := rfl
@[simp] theorem State.modCrew_ats (s : State) (k : Nat) (f : Crew → Crew) : (s.modCrew k f).ats = s.ats := rfl
@[simp] theorem State.modCrew_atsCache (s : State) (k : Nat) (f : Crew → Crew) : (s.modCrew k f).atsCache = s.atsCache := rfl
@[simp] theorem State.modCrew_merges (s : State) (k : Nat) (f : Crew → Crew) : (s.modCrew k f).merges = s.merges := rfl
@[simp] theorem State.modCrew_swap (s : State) (k : Nat) (f : Crew → Crew) : (s.modCrew k f).swap = s.swap := rfl
@[simp] theorem State.modCrew_tables (s : State) (k : Nat) (f : Crew → Crew) : (s.modCrew k f).tables = s.tables := rfl

@[simp] theorem State.modLane_schedule (s : State) (k l : Nat) (f : Lane → Lane) : (s.modLane k l f).schedule = s.schedule := rfl
@[simp] theorem State.modLane_subj (s : State) (k l : Nat) (f : Lane → Lane) : (s.modLane k l f).subj = s.subj := rfl
@[simp] theorem State.modLane_cur (s : State) (k l : Nat) (f : Lane → Lane) : (s.modLane k l f).cur = s.cur := rfl
@[simp] theorem State.modLane_fresh (s : State) (k l : Nat) (f : Lane → Lane) : (s.modLane k l f).fresh = s.fresh := rfl
@[simp] theorem State.modLane_arrival (s : State) (k l : Nat) (f : Lane → Lane) : (s.modLane k l f).arrival = s.arrival := rfl
@[simp] theorem State.modLane_tick (s : State) (k l : Nat) (f : Lane → Lane) : (s.modLane k l f).tick = s.tick := rfl
@[simp] theorem State.modLane_cycles (s : State) (k l : Nat) (f : Lane → Lane) : (s.modLane k l f).cycles = s.cycles := rfl
@[simp] theorem State.modLane_fuse (s : State) (k l : Nat) (f : Lane → Lane) : (s.modLane k l f).fuse = s.fuse := rfl
@[simp] theorem State.modLane_dev (s : State) (k l : Nat) (f : Lane → Lane) : (s.modLane k l f).dev = s.dev := rfl
@[simp] theorem State.modLane_ret (s : State) (k l : Nat) (f : Lane → Lane) : (s.modLane k l f).ret = s.ret := rfl
@[simp] theorem State.modLane_health (s : State) (k l : Nat) (f : Lane → Lane) : (s.modLane k l f).health = s.health := rfl
@[simp] theorem State.modLane_link (s : State) (k l : Nat) (f : Lane → Lane) : (s.modLane k l f).link = s.link := rfl
@[simp] theorem State.modLane_adit (s : State) (k l : Nat) (f : Lane → Lane) : (s.modLane k l f).adit = s.adit := rfl
@[simp] theorem State.modLane_ctxs (s : State) (k l : Nat) (f : Lane → Lane) : (s.modLane k l f).ctxs = s.ctxs := rfl
@[simp] theorem State.modLane_dist (s : State) (k l : Nat) (f : Lane → Lane) : (s.modLane k l f).dist = s.dist := rfl
@[simp] theorem State.modLane_sites (s : State) (k l : Nat) (f : Lane → Lane) : (s.modLane k l f).sites = s.sites := rfl
@[simp] theorem State.modLane_lcs (s : State) (k l : Nat) (f : Lane → Lane) : (s.modLane k l f).lcs = s.lcs := rfl
@[simp] theorem State.modLane_grids (s : State) (k l : Nat) (f : Lane → Lane) : (s.modLane k l f).grids = s.grids := rfl
@[simp] theorem State.modLane_blocks (s : State) (k l : Nat) (f : Lane → Lane) : (s.modLane k l f).blocks = s.blocks := rfl
@[simp] theorem State.modLane_mem (s : State) (k l : Nat) (f : Lane → Lane) : (s.modLane k l f).mem = s.mem := rfl
@[simp] theorem State.modLane_undef (s : State) (k l : Nat) (f : Lane → Lane) : (s.modLane k l f).undef = s.undef := rfl
@[simp] theorem State.modLane_poison (s : State) (k l : Nat) (f : Lane → Lane) : (s.modLane k l f).poison = s.poison := rfl
@[simp] theorem State.modLane_dirty (s : State) (k l : Nat) (f : Lane → Lane) : (s.modLane k l f).dirty = s.dirty := rfl
@[simp] theorem State.modLane_sinter (s : State) (k l : Nat) (f : Lane → Lane) : (s.modLane k l f).sinter = s.sinter := rfl
@[simp] theorem State.modLane_hidden (s : State) (k l : Nat) (f : Lane → Lane) : (s.modLane k l f).hidden = s.hidden := rfl
@[simp] theorem State.modLane_hostMem (s : State) (k l : Nat) (f : Lane → Lane) : (s.modLane k l f).hostMem = s.hostMem := rfl
@[simp] theorem State.modLane_hostPois (s : State) (k l : Nat) (f : Lane → Lane) : (s.modLane k l f).hostPois = s.hostPois := rfl
@[simp] theorem State.modLane_hostHidden (s : State) (k l : Nat) (f : Lane → Lane) : (s.modLane k l f).hostHidden = s.hostHidden := rfl
@[simp] theorem State.modLane_writes (s : State) (k l : Nat) (f : Lane → Lane) : (s.modLane k l f).writes = s.writes := rfl
@[simp] theorem State.modLane_lineW (s : State) (k l : Nat) (f : Lane → Lane) : (s.modLane k l f).lineW = s.lineW := rfl
@[simp] theorem State.modLane_hostLineW (s : State) (k l : Nat) (f : Lane → Lane) : (s.modLane k l f).hostLineW = s.hostLineW := rfl
@[simp] theorem State.modLane_homeQ (s : State) (k l : Nat) (f : Lane → Lane) : (s.modLane k l f).homeQ = s.homeQ := rfl
@[simp] theorem State.modLane_tlb (s : State) (k l : Nat) (f : Lane → Lane) : (s.modLane k l f).tlb = s.tlb := rfl
@[simp] theorem State.modLane_wcache (s : State) (k l : Nat) (f : Lane → Lane) : (s.modLane k l f).wcache = s.wcache := rfl
@[simp] theorem State.modLane_walks (s : State) (k l : Nat) (f : Lane → Lane) : (s.modLane k l f).walks = s.walks := rfl
@[simp] theorem State.modLane_misses (s : State) (k l : Nat) (f : Lane → Lane) : (s.modLane k l f).misses = s.misses := rfl
@[simp] theorem State.modLane_ats (s : State) (k l : Nat) (f : Lane → Lane) : (s.modLane k l f).ats = s.ats := rfl
@[simp] theorem State.modLane_atsCache (s : State) (k l : Nat) (f : Lane → Lane) : (s.modLane k l f).atsCache = s.atsCache := rfl
@[simp] theorem State.modLane_merges (s : State) (k l : Nat) (f : Lane → Lane) : (s.modLane k l f).merges = s.merges := rfl
@[simp] theorem State.modLane_swap (s : State) (k l : Nat) (f : Lane → Lane) : (s.modLane k l f).swap = s.swap := rfl
@[simp] theorem State.modLane_tables (s : State) (k l : Nat) (f : Lane → Lane) : (s.modLane k l f).tables = s.tables := rfl

@[simp] theorem State.addFlights_schedule (s : State) (k : Nat) (fs : List Flight) : (s.addFlights k fs).schedule = s.schedule := rfl
@[simp] theorem State.addFlights_subj (s : State) (k : Nat) (fs : List Flight) : (s.addFlights k fs).subj = s.subj := rfl
@[simp] theorem State.addFlights_cur (s : State) (k : Nat) (fs : List Flight) : (s.addFlights k fs).cur = s.cur := rfl
@[simp] theorem State.addFlights_fresh (s : State) (k : Nat) (fs : List Flight) : (s.addFlights k fs).fresh = s.fresh := rfl
@[simp] theorem State.addFlights_arrival (s : State) (k : Nat) (fs : List Flight) : (s.addFlights k fs).arrival = s.arrival := rfl
@[simp] theorem State.addFlights_tick (s : State) (k : Nat) (fs : List Flight) : (s.addFlights k fs).tick = s.tick := rfl
@[simp] theorem State.addFlights_cycles (s : State) (k : Nat) (fs : List Flight) : (s.addFlights k fs).cycles = s.cycles := rfl
@[simp] theorem State.addFlights_fuse (s : State) (k : Nat) (fs : List Flight) : (s.addFlights k fs).fuse = s.fuse := rfl
@[simp] theorem State.addFlights_dev (s : State) (k : Nat) (fs : List Flight) : (s.addFlights k fs).dev = s.dev := rfl
@[simp] theorem State.addFlights_ret (s : State) (k : Nat) (fs : List Flight) : (s.addFlights k fs).ret = s.ret := rfl
@[simp] theorem State.addFlights_health (s : State) (k : Nat) (fs : List Flight) : (s.addFlights k fs).health = s.health := rfl
@[simp] theorem State.addFlights_link (s : State) (k : Nat) (fs : List Flight) : (s.addFlights k fs).link = s.link := rfl
@[simp] theorem State.addFlights_adit (s : State) (k : Nat) (fs : List Flight) : (s.addFlights k fs).adit = s.adit := rfl
@[simp] theorem State.addFlights_ctxs (s : State) (k : Nat) (fs : List Flight) : (s.addFlights k fs).ctxs = s.ctxs := rfl
@[simp] theorem State.addFlights_dist (s : State) (k : Nat) (fs : List Flight) : (s.addFlights k fs).dist = s.dist := rfl
@[simp] theorem State.addFlights_sites (s : State) (k : Nat) (fs : List Flight) : (s.addFlights k fs).sites = s.sites := rfl
@[simp] theorem State.addFlights_lcs (s : State) (k : Nat) (fs : List Flight) : (s.addFlights k fs).lcs = s.lcs := rfl
@[simp] theorem State.addFlights_grids (s : State) (k : Nat) (fs : List Flight) : (s.addFlights k fs).grids = s.grids := rfl
@[simp] theorem State.addFlights_blocks (s : State) (k : Nat) (fs : List Flight) : (s.addFlights k fs).blocks = s.blocks := rfl
@[simp] theorem State.addFlights_mem (s : State) (k : Nat) (fs : List Flight) : (s.addFlights k fs).mem = s.mem := rfl
@[simp] theorem State.addFlights_undef (s : State) (k : Nat) (fs : List Flight) : (s.addFlights k fs).undef = s.undef := rfl
@[simp] theorem State.addFlights_poison (s : State) (k : Nat) (fs : List Flight) : (s.addFlights k fs).poison = s.poison := rfl
@[simp] theorem State.addFlights_dirty (s : State) (k : Nat) (fs : List Flight) : (s.addFlights k fs).dirty = s.dirty := rfl
@[simp] theorem State.addFlights_sinter (s : State) (k : Nat) (fs : List Flight) : (s.addFlights k fs).sinter = s.sinter := rfl
@[simp] theorem State.addFlights_hidden (s : State) (k : Nat) (fs : List Flight) : (s.addFlights k fs).hidden = s.hidden := rfl
@[simp] theorem State.addFlights_hostMem (s : State) (k : Nat) (fs : List Flight) : (s.addFlights k fs).hostMem = s.hostMem := rfl
@[simp] theorem State.addFlights_hostPois (s : State) (k : Nat) (fs : List Flight) : (s.addFlights k fs).hostPois = s.hostPois := rfl
@[simp] theorem State.addFlights_hostHidden (s : State) (k : Nat) (fs : List Flight) : (s.addFlights k fs).hostHidden = s.hostHidden := rfl
@[simp] theorem State.addFlights_writes (s : State) (k : Nat) (fs : List Flight) : (s.addFlights k fs).writes = s.writes := rfl
@[simp] theorem State.addFlights_lineW (s : State) (k : Nat) (fs : List Flight) : (s.addFlights k fs).lineW = s.lineW := rfl
@[simp] theorem State.addFlights_hostLineW (s : State) (k : Nat) (fs : List Flight) : (s.addFlights k fs).hostLineW = s.hostLineW := rfl
@[simp] theorem State.addFlights_homeQ (s : State) (k : Nat) (fs : List Flight) : (s.addFlights k fs).homeQ = s.homeQ := rfl
@[simp] theorem State.addFlights_tlb (s : State) (k : Nat) (fs : List Flight) : (s.addFlights k fs).tlb = s.tlb := rfl
@[simp] theorem State.addFlights_wcache (s : State) (k : Nat) (fs : List Flight) : (s.addFlights k fs).wcache = s.wcache := rfl
@[simp] theorem State.addFlights_walks (s : State) (k : Nat) (fs : List Flight) : (s.addFlights k fs).walks = s.walks := rfl
@[simp] theorem State.addFlights_misses (s : State) (k : Nat) (fs : List Flight) : (s.addFlights k fs).misses = s.misses := rfl
@[simp] theorem State.addFlights_ats (s : State) (k : Nat) (fs : List Flight) : (s.addFlights k fs).ats = s.ats := rfl
@[simp] theorem State.addFlights_atsCache (s : State) (k : Nat) (fs : List Flight) : (s.addFlights k fs).atsCache = s.atsCache := rfl
@[simp] theorem State.addFlights_merges (s : State) (k : Nat) (fs : List Flight) : (s.addFlights k fs).merges = s.merges := rfl
@[simp] theorem State.addFlights_swap (s : State) (k : Nat) (fs : List Flight) : (s.addFlights k fs).swap = s.swap := rfl
@[simp] theorem State.addFlights_tables (s : State) (k : Nat) (fs : List Flight) : (s.addFlights k fs).tables = s.tables := rfl

@[simp] theorem State.modLcore_schedule (s : State) (k : Nat) (f : LCore → LCore) : (s.modLcore k f).schedule = s.schedule := rfl
@[simp] theorem State.modLcore_subj (s : State) (k : Nat) (f : LCore → LCore) : (s.modLcore k f).subj = s.subj := rfl
@[simp] theorem State.modLcore_cur (s : State) (k : Nat) (f : LCore → LCore) : (s.modLcore k f).cur = s.cur := rfl
@[simp] theorem State.modLcore_fresh (s : State) (k : Nat) (f : LCore → LCore) : (s.modLcore k f).fresh = s.fresh := rfl
@[simp] theorem State.modLcore_arrival (s : State) (k : Nat) (f : LCore → LCore) : (s.modLcore k f).arrival = s.arrival := rfl
@[simp] theorem State.modLcore_tick (s : State) (k : Nat) (f : LCore → LCore) : (s.modLcore k f).tick = s.tick := rfl
@[simp] theorem State.modLcore_cycles (s : State) (k : Nat) (f : LCore → LCore) : (s.modLcore k f).cycles = s.cycles := rfl
@[simp] theorem State.modLcore_fuse (s : State) (k : Nat) (f : LCore → LCore) : (s.modLcore k f).fuse = s.fuse := rfl
@[simp] theorem State.modLcore_dev (s : State) (k : Nat) (f : LCore → LCore) : (s.modLcore k f).dev = s.dev := rfl
@[simp] theorem State.modLcore_ret (s : State) (k : Nat) (f : LCore → LCore) : (s.modLcore k f).ret = s.ret := rfl
@[simp] theorem State.modLcore_health (s : State) (k : Nat) (f : LCore → LCore) : (s.modLcore k f).health = s.health := rfl
@[simp] theorem State.modLcore_link (s : State) (k : Nat) (f : LCore → LCore) : (s.modLcore k f).link = s.link := rfl
@[simp] theorem State.modLcore_adit (s : State) (k : Nat) (f : LCore → LCore) : (s.modLcore k f).adit = s.adit := rfl
@[simp] theorem State.modLcore_ctxs (s : State) (k : Nat) (f : LCore → LCore) : (s.modLcore k f).ctxs = s.ctxs := rfl
@[simp] theorem State.modLcore_dist (s : State) (k : Nat) (f : LCore → LCore) : (s.modLcore k f).dist = s.dist := rfl
@[simp] theorem State.modLcore_sites (s : State) (k : Nat) (f : LCore → LCore) : (s.modLcore k f).sites = s.sites := rfl
@[simp] theorem State.modLcore_crews (s : State) (k : Nat) (f : LCore → LCore) : (s.modLcore k f).crews = s.crews := rfl
@[simp] theorem State.modLcore_grids (s : State) (k : Nat) (f : LCore → LCore) : (s.modLcore k f).grids = s.grids := rfl
@[simp] theorem State.modLcore_blocks (s : State) (k : Nat) (f : LCore → LCore) : (s.modLcore k f).blocks = s.blocks := rfl
@[simp] theorem State.modLcore_mem (s : State) (k : Nat) (f : LCore → LCore) : (s.modLcore k f).mem = s.mem := rfl
@[simp] theorem State.modLcore_undef (s : State) (k : Nat) (f : LCore → LCore) : (s.modLcore k f).undef = s.undef := rfl
@[simp] theorem State.modLcore_poison (s : State) (k : Nat) (f : LCore → LCore) : (s.modLcore k f).poison = s.poison := rfl
@[simp] theorem State.modLcore_dirty (s : State) (k : Nat) (f : LCore → LCore) : (s.modLcore k f).dirty = s.dirty := rfl
@[simp] theorem State.modLcore_sinter (s : State) (k : Nat) (f : LCore → LCore) : (s.modLcore k f).sinter = s.sinter := rfl
@[simp] theorem State.modLcore_hidden (s : State) (k : Nat) (f : LCore → LCore) : (s.modLcore k f).hidden = s.hidden := rfl
@[simp] theorem State.modLcore_hostMem (s : State) (k : Nat) (f : LCore → LCore) : (s.modLcore k f).hostMem = s.hostMem := rfl
@[simp] theorem State.modLcore_hostPois (s : State) (k : Nat) (f : LCore → LCore) : (s.modLcore k f).hostPois = s.hostPois := rfl
@[simp] theorem State.modLcore_hostHidden (s : State) (k : Nat) (f : LCore → LCore) : (s.modLcore k f).hostHidden = s.hostHidden := rfl
@[simp] theorem State.modLcore_writes (s : State) (k : Nat) (f : LCore → LCore) : (s.modLcore k f).writes = s.writes := rfl
@[simp] theorem State.modLcore_lineW (s : State) (k : Nat) (f : LCore → LCore) : (s.modLcore k f).lineW = s.lineW := rfl
@[simp] theorem State.modLcore_hostLineW (s : State) (k : Nat) (f : LCore → LCore) : (s.modLcore k f).hostLineW = s.hostLineW := rfl
@[simp] theorem State.modLcore_homeQ (s : State) (k : Nat) (f : LCore → LCore) : (s.modLcore k f).homeQ = s.homeQ := rfl
@[simp] theorem State.modLcore_tlb (s : State) (k : Nat) (f : LCore → LCore) : (s.modLcore k f).tlb = s.tlb := rfl
@[simp] theorem State.modLcore_wcache (s : State) (k : Nat) (f : LCore → LCore) : (s.modLcore k f).wcache = s.wcache := rfl
@[simp] theorem State.modLcore_walks (s : State) (k : Nat) (f : LCore → LCore) : (s.modLcore k f).walks = s.walks := rfl
@[simp] theorem State.modLcore_misses (s : State) (k : Nat) (f : LCore → LCore) : (s.modLcore k f).misses = s.misses := rfl
@[simp] theorem State.modLcore_ats (s : State) (k : Nat) (f : LCore → LCore) : (s.modLcore k f).ats = s.ats := rfl
@[simp] theorem State.modLcore_atsCache (s : State) (k : Nat) (f : LCore → LCore) : (s.modLcore k f).atsCache = s.atsCache := rfl
@[simp] theorem State.modLcore_merges (s : State) (k : Nat) (f : LCore → LCore) : (s.modLcore k f).merges = s.merges := rfl
@[simp] theorem State.modLcore_swap (s : State) (k : Nat) (f : LCore → LCore) : (s.modLcore k f).swap = s.swap := rfl
@[simp] theorem State.modLcore_tables (s : State) (k : Nat) (f : LCore → LCore) : (s.modLcore k f).tables = s.tables := rfl

@[simp] theorem State.modEc_schedule (s : State) (k e : Nat) (f : Ec → Ec) : (s.modEc k e f).schedule = s.schedule := rfl
@[simp] theorem State.modEc_subj (s : State) (k e : Nat) (f : Ec → Ec) : (s.modEc k e f).subj = s.subj := rfl
@[simp] theorem State.modEc_cur (s : State) (k e : Nat) (f : Ec → Ec) : (s.modEc k e f).cur = s.cur := rfl
@[simp] theorem State.modEc_fresh (s : State) (k e : Nat) (f : Ec → Ec) : (s.modEc k e f).fresh = s.fresh := rfl
@[simp] theorem State.modEc_arrival (s : State) (k e : Nat) (f : Ec → Ec) : (s.modEc k e f).arrival = s.arrival := rfl
@[simp] theorem State.modEc_tick (s : State) (k e : Nat) (f : Ec → Ec) : (s.modEc k e f).tick = s.tick := rfl
@[simp] theorem State.modEc_cycles (s : State) (k e : Nat) (f : Ec → Ec) : (s.modEc k e f).cycles = s.cycles := rfl
@[simp] theorem State.modEc_fuse (s : State) (k e : Nat) (f : Ec → Ec) : (s.modEc k e f).fuse = s.fuse := rfl
@[simp] theorem State.modEc_dev (s : State) (k e : Nat) (f : Ec → Ec) : (s.modEc k e f).dev = s.dev := rfl
@[simp] theorem State.modEc_ret (s : State) (k e : Nat) (f : Ec → Ec) : (s.modEc k e f).ret = s.ret := rfl
@[simp] theorem State.modEc_health (s : State) (k e : Nat) (f : Ec → Ec) : (s.modEc k e f).health = s.health := rfl
@[simp] theorem State.modEc_link (s : State) (k e : Nat) (f : Ec → Ec) : (s.modEc k e f).link = s.link := rfl
@[simp] theorem State.modEc_adit (s : State) (k e : Nat) (f : Ec → Ec) : (s.modEc k e f).adit = s.adit := rfl
@[simp] theorem State.modEc_ctxs (s : State) (k e : Nat) (f : Ec → Ec) : (s.modEc k e f).ctxs = s.ctxs := rfl
@[simp] theorem State.modEc_dist (s : State) (k e : Nat) (f : Ec → Ec) : (s.modEc k e f).dist = s.dist := rfl
@[simp] theorem State.modEc_sites (s : State) (k e : Nat) (f : Ec → Ec) : (s.modEc k e f).sites = s.sites := rfl
@[simp] theorem State.modEc_crews (s : State) (k e : Nat) (f : Ec → Ec) : (s.modEc k e f).crews = s.crews := rfl
@[simp] theorem State.modEc_grids (s : State) (k e : Nat) (f : Ec → Ec) : (s.modEc k e f).grids = s.grids := rfl
@[simp] theorem State.modEc_blocks (s : State) (k e : Nat) (f : Ec → Ec) : (s.modEc k e f).blocks = s.blocks := rfl
@[simp] theorem State.modEc_mem (s : State) (k e : Nat) (f : Ec → Ec) : (s.modEc k e f).mem = s.mem := rfl
@[simp] theorem State.modEc_undef (s : State) (k e : Nat) (f : Ec → Ec) : (s.modEc k e f).undef = s.undef := rfl
@[simp] theorem State.modEc_poison (s : State) (k e : Nat) (f : Ec → Ec) : (s.modEc k e f).poison = s.poison := rfl
@[simp] theorem State.modEc_dirty (s : State) (k e : Nat) (f : Ec → Ec) : (s.modEc k e f).dirty = s.dirty := rfl
@[simp] theorem State.modEc_sinter (s : State) (k e : Nat) (f : Ec → Ec) : (s.modEc k e f).sinter = s.sinter := rfl
@[simp] theorem State.modEc_hidden (s : State) (k e : Nat) (f : Ec → Ec) : (s.modEc k e f).hidden = s.hidden := rfl
@[simp] theorem State.modEc_hostMem (s : State) (k e : Nat) (f : Ec → Ec) : (s.modEc k e f).hostMem = s.hostMem := rfl
@[simp] theorem State.modEc_hostPois (s : State) (k e : Nat) (f : Ec → Ec) : (s.modEc k e f).hostPois = s.hostPois := rfl
@[simp] theorem State.modEc_hostHidden (s : State) (k e : Nat) (f : Ec → Ec) : (s.modEc k e f).hostHidden = s.hostHidden := rfl
@[simp] theorem State.modEc_writes (s : State) (k e : Nat) (f : Ec → Ec) : (s.modEc k e f).writes = s.writes := rfl
@[simp] theorem State.modEc_lineW (s : State) (k e : Nat) (f : Ec → Ec) : (s.modEc k e f).lineW = s.lineW := rfl
@[simp] theorem State.modEc_hostLineW (s : State) (k e : Nat) (f : Ec → Ec) : (s.modEc k e f).hostLineW = s.hostLineW := rfl
@[simp] theorem State.modEc_homeQ (s : State) (k e : Nat) (f : Ec → Ec) : (s.modEc k e f).homeQ = s.homeQ := rfl
@[simp] theorem State.modEc_tlb (s : State) (k e : Nat) (f : Ec → Ec) : (s.modEc k e f).tlb = s.tlb := rfl
@[simp] theorem State.modEc_wcache (s : State) (k e : Nat) (f : Ec → Ec) : (s.modEc k e f).wcache = s.wcache := rfl
@[simp] theorem State.modEc_walks (s : State) (k e : Nat) (f : Ec → Ec) : (s.modEc k e f).walks = s.walks := rfl
@[simp] theorem State.modEc_misses (s : State) (k e : Nat) (f : Ec → Ec) : (s.modEc k e f).misses = s.misses := rfl
@[simp] theorem State.modEc_ats (s : State) (k e : Nat) (f : Ec → Ec) : (s.modEc k e f).ats = s.ats := rfl
@[simp] theorem State.modEc_atsCache (s : State) (k e : Nat) (f : Ec → Ec) : (s.modEc k e f).atsCache = s.atsCache := rfl
@[simp] theorem State.modEc_merges (s : State) (k e : Nat) (f : Ec → Ec) : (s.modEc k e f).merges = s.merges := rfl
@[simp] theorem State.modEc_swap (s : State) (k e : Nat) (f : Ec → Ec) : (s.modEc k e f).swap = s.swap := rfl
@[simp] theorem State.modEc_tables (s : State) (k e : Nat) (f : Ec → Ec) : (s.modEc k e f).tables = s.tables := rfl

@[simp] theorem State.modSite_schedule (s : State) (k : Nat) (f : Site → Site) : (s.modSite k f).schedule = s.schedule := rfl
@[simp] theorem State.modSite_subj (s : State) (k : Nat) (f : Site → Site) : (s.modSite k f).subj = s.subj := rfl
@[simp] theorem State.modSite_cur (s : State) (k : Nat) (f : Site → Site) : (s.modSite k f).cur = s.cur := rfl
@[simp] theorem State.modSite_fresh (s : State) (k : Nat) (f : Site → Site) : (s.modSite k f).fresh = s.fresh := rfl
@[simp] theorem State.modSite_arrival (s : State) (k : Nat) (f : Site → Site) : (s.modSite k f).arrival = s.arrival := rfl
@[simp] theorem State.modSite_tick (s : State) (k : Nat) (f : Site → Site) : (s.modSite k f).tick = s.tick := rfl
@[simp] theorem State.modSite_cycles (s : State) (k : Nat) (f : Site → Site) : (s.modSite k f).cycles = s.cycles := rfl
@[simp] theorem State.modSite_fuse (s : State) (k : Nat) (f : Site → Site) : (s.modSite k f).fuse = s.fuse := rfl
@[simp] theorem State.modSite_dev (s : State) (k : Nat) (f : Site → Site) : (s.modSite k f).dev = s.dev := rfl
@[simp] theorem State.modSite_ret (s : State) (k : Nat) (f : Site → Site) : (s.modSite k f).ret = s.ret := rfl
@[simp] theorem State.modSite_health (s : State) (k : Nat) (f : Site → Site) : (s.modSite k f).health = s.health := rfl
@[simp] theorem State.modSite_link (s : State) (k : Nat) (f : Site → Site) : (s.modSite k f).link = s.link := rfl
@[simp] theorem State.modSite_adit (s : State) (k : Nat) (f : Site → Site) : (s.modSite k f).adit = s.adit := rfl
@[simp] theorem State.modSite_ctxs (s : State) (k : Nat) (f : Site → Site) : (s.modSite k f).ctxs = s.ctxs := rfl
@[simp] theorem State.modSite_dist (s : State) (k : Nat) (f : Site → Site) : (s.modSite k f).dist = s.dist := rfl
@[simp] theorem State.modSite_lcs (s : State) (k : Nat) (f : Site → Site) : (s.modSite k f).lcs = s.lcs := rfl
@[simp] theorem State.modSite_crews (s : State) (k : Nat) (f : Site → Site) : (s.modSite k f).crews = s.crews := rfl
@[simp] theorem State.modSite_grids (s : State) (k : Nat) (f : Site → Site) : (s.modSite k f).grids = s.grids := rfl
@[simp] theorem State.modSite_blocks (s : State) (k : Nat) (f : Site → Site) : (s.modSite k f).blocks = s.blocks := rfl
@[simp] theorem State.modSite_mem (s : State) (k : Nat) (f : Site → Site) : (s.modSite k f).mem = s.mem := rfl
@[simp] theorem State.modSite_undef (s : State) (k : Nat) (f : Site → Site) : (s.modSite k f).undef = s.undef := rfl
@[simp] theorem State.modSite_poison (s : State) (k : Nat) (f : Site → Site) : (s.modSite k f).poison = s.poison := rfl
@[simp] theorem State.modSite_dirty (s : State) (k : Nat) (f : Site → Site) : (s.modSite k f).dirty = s.dirty := rfl
@[simp] theorem State.modSite_sinter (s : State) (k : Nat) (f : Site → Site) : (s.modSite k f).sinter = s.sinter := rfl
@[simp] theorem State.modSite_hidden (s : State) (k : Nat) (f : Site → Site) : (s.modSite k f).hidden = s.hidden := rfl
@[simp] theorem State.modSite_hostMem (s : State) (k : Nat) (f : Site → Site) : (s.modSite k f).hostMem = s.hostMem := rfl
@[simp] theorem State.modSite_hostPois (s : State) (k : Nat) (f : Site → Site) : (s.modSite k f).hostPois = s.hostPois := rfl
@[simp] theorem State.modSite_hostHidden (s : State) (k : Nat) (f : Site → Site) : (s.modSite k f).hostHidden = s.hostHidden := rfl
@[simp] theorem State.modSite_writes (s : State) (k : Nat) (f : Site → Site) : (s.modSite k f).writes = s.writes := rfl
@[simp] theorem State.modSite_lineW (s : State) (k : Nat) (f : Site → Site) : (s.modSite k f).lineW = s.lineW := rfl
@[simp] theorem State.modSite_hostLineW (s : State) (k : Nat) (f : Site → Site) : (s.modSite k f).hostLineW = s.hostLineW := rfl
@[simp] theorem State.modSite_homeQ (s : State) (k : Nat) (f : Site → Site) : (s.modSite k f).homeQ = s.homeQ := rfl
@[simp] theorem State.modSite_tlb (s : State) (k : Nat) (f : Site → Site) : (s.modSite k f).tlb = s.tlb := rfl
@[simp] theorem State.modSite_wcache (s : State) (k : Nat) (f : Site → Site) : (s.modSite k f).wcache = s.wcache := rfl
@[simp] theorem State.modSite_walks (s : State) (k : Nat) (f : Site → Site) : (s.modSite k f).walks = s.walks := rfl
@[simp] theorem State.modSite_misses (s : State) (k : Nat) (f : Site → Site) : (s.modSite k f).misses = s.misses := rfl
@[simp] theorem State.modSite_ats (s : State) (k : Nat) (f : Site → Site) : (s.modSite k f).ats = s.ats := rfl
@[simp] theorem State.modSite_atsCache (s : State) (k : Nat) (f : Site → Site) : (s.modSite k f).atsCache = s.atsCache := rfl
@[simp] theorem State.modSite_merges (s : State) (k : Nat) (f : Site → Site) : (s.modSite k f).merges = s.merges := rfl
@[simp] theorem State.modSite_swap (s : State) (k : Nat) (f : Site → Site) : (s.modSite k f).swap = s.swap := rfl
@[simp] theorem State.modSite_tables (s : State) (k : Nat) (f : Site → Site) : (s.modSite k f).tables = s.tables := rfl

@[simp] theorem State.setGrid_schedule (s : State) (g : Nat) (x : Option Grid) : (s.setGrid g x).schedule = s.schedule := rfl
@[simp] theorem State.setGrid_subj (s : State) (g : Nat) (x : Option Grid) : (s.setGrid g x).subj = s.subj := rfl
@[simp] theorem State.setGrid_cur (s : State) (g : Nat) (x : Option Grid) : (s.setGrid g x).cur = s.cur := rfl
@[simp] theorem State.setGrid_fresh (s : State) (g : Nat) (x : Option Grid) : (s.setGrid g x).fresh = s.fresh := rfl
@[simp] theorem State.setGrid_arrival (s : State) (g : Nat) (x : Option Grid) : (s.setGrid g x).arrival = s.arrival := rfl
@[simp] theorem State.setGrid_tick (s : State) (g : Nat) (x : Option Grid) : (s.setGrid g x).tick = s.tick := rfl
@[simp] theorem State.setGrid_cycles (s : State) (g : Nat) (x : Option Grid) : (s.setGrid g x).cycles = s.cycles := rfl
@[simp] theorem State.setGrid_fuse (s : State) (g : Nat) (x : Option Grid) : (s.setGrid g x).fuse = s.fuse := rfl
@[simp] theorem State.setGrid_dev (s : State) (g : Nat) (x : Option Grid) : (s.setGrid g x).dev = s.dev := rfl
@[simp] theorem State.setGrid_ret (s : State) (g : Nat) (x : Option Grid) : (s.setGrid g x).ret = s.ret := rfl
@[simp] theorem State.setGrid_health (s : State) (g : Nat) (x : Option Grid) : (s.setGrid g x).health = s.health := rfl
@[simp] theorem State.setGrid_link (s : State) (g : Nat) (x : Option Grid) : (s.setGrid g x).link = s.link := rfl
@[simp] theorem State.setGrid_adit (s : State) (g : Nat) (x : Option Grid) : (s.setGrid g x).adit = s.adit := rfl
@[simp] theorem State.setGrid_ctxs (s : State) (g : Nat) (x : Option Grid) : (s.setGrid g x).ctxs = s.ctxs := rfl
@[simp] theorem State.setGrid_dist (s : State) (g : Nat) (x : Option Grid) : (s.setGrid g x).dist = s.dist := rfl
@[simp] theorem State.setGrid_sites (s : State) (g : Nat) (x : Option Grid) : (s.setGrid g x).sites = s.sites := rfl
@[simp] theorem State.setGrid_lcs (s : State) (g : Nat) (x : Option Grid) : (s.setGrid g x).lcs = s.lcs := rfl
@[simp] theorem State.setGrid_crews (s : State) (g : Nat) (x : Option Grid) : (s.setGrid g x).crews = s.crews := rfl
@[simp] theorem State.setGrid_blocks (s : State) (g : Nat) (x : Option Grid) : (s.setGrid g x).blocks = s.blocks := rfl
@[simp] theorem State.setGrid_mem (s : State) (g : Nat) (x : Option Grid) : (s.setGrid g x).mem = s.mem := rfl
@[simp] theorem State.setGrid_undef (s : State) (g : Nat) (x : Option Grid) : (s.setGrid g x).undef = s.undef := rfl
@[simp] theorem State.setGrid_poison (s : State) (g : Nat) (x : Option Grid) : (s.setGrid g x).poison = s.poison := rfl
@[simp] theorem State.setGrid_dirty (s : State) (g : Nat) (x : Option Grid) : (s.setGrid g x).dirty = s.dirty := rfl
@[simp] theorem State.setGrid_sinter (s : State) (g : Nat) (x : Option Grid) : (s.setGrid g x).sinter = s.sinter := rfl
@[simp] theorem State.setGrid_hidden (s : State) (g : Nat) (x : Option Grid) : (s.setGrid g x).hidden = s.hidden := rfl
@[simp] theorem State.setGrid_hostMem (s : State) (g : Nat) (x : Option Grid) : (s.setGrid g x).hostMem = s.hostMem := rfl
@[simp] theorem State.setGrid_hostPois (s : State) (g : Nat) (x : Option Grid) : (s.setGrid g x).hostPois = s.hostPois := rfl
@[simp] theorem State.setGrid_hostHidden (s : State) (g : Nat) (x : Option Grid) : (s.setGrid g x).hostHidden = s.hostHidden := rfl
@[simp] theorem State.setGrid_writes (s : State) (g : Nat) (x : Option Grid) : (s.setGrid g x).writes = s.writes := rfl
@[simp] theorem State.setGrid_lineW (s : State) (g : Nat) (x : Option Grid) : (s.setGrid g x).lineW = s.lineW := rfl
@[simp] theorem State.setGrid_hostLineW (s : State) (g : Nat) (x : Option Grid) : (s.setGrid g x).hostLineW = s.hostLineW := rfl
@[simp] theorem State.setGrid_homeQ (s : State) (g : Nat) (x : Option Grid) : (s.setGrid g x).homeQ = s.homeQ := rfl
@[simp] theorem State.setGrid_tlb (s : State) (g : Nat) (x : Option Grid) : (s.setGrid g x).tlb = s.tlb := rfl
@[simp] theorem State.setGrid_wcache (s : State) (g : Nat) (x : Option Grid) : (s.setGrid g x).wcache = s.wcache := rfl
@[simp] theorem State.setGrid_walks (s : State) (g : Nat) (x : Option Grid) : (s.setGrid g x).walks = s.walks := rfl
@[simp] theorem State.setGrid_misses (s : State) (g : Nat) (x : Option Grid) : (s.setGrid g x).misses = s.misses := rfl
@[simp] theorem State.setGrid_ats (s : State) (g : Nat) (x : Option Grid) : (s.setGrid g x).ats = s.ats := rfl
@[simp] theorem State.setGrid_atsCache (s : State) (g : Nat) (x : Option Grid) : (s.setGrid g x).atsCache = s.atsCache := rfl
@[simp] theorem State.setGrid_merges (s : State) (g : Nat) (x : Option Grid) : (s.setGrid g x).merges = s.merges := rfl
@[simp] theorem State.setGrid_swap (s : State) (g : Nat) (x : Option Grid) : (s.setGrid g x).swap = s.swap := rfl
@[simp] theorem State.setGrid_tables (s : State) (g : Nat) (x : Option Grid) : (s.setGrid g x).tables = s.tables := rfl

@[simp] theorem State.modGrid_schedule (s : State) (g : Nat) (f : Grid → Grid) : (s.modGrid g f).schedule = s.schedule := rfl
@[simp] theorem State.modGrid_subj (s : State) (g : Nat) (f : Grid → Grid) : (s.modGrid g f).subj = s.subj := rfl
@[simp] theorem State.modGrid_cur (s : State) (g : Nat) (f : Grid → Grid) : (s.modGrid g f).cur = s.cur := rfl
@[simp] theorem State.modGrid_fresh (s : State) (g : Nat) (f : Grid → Grid) : (s.modGrid g f).fresh = s.fresh := rfl
@[simp] theorem State.modGrid_arrival (s : State) (g : Nat) (f : Grid → Grid) : (s.modGrid g f).arrival = s.arrival := rfl
@[simp] theorem State.modGrid_tick (s : State) (g : Nat) (f : Grid → Grid) : (s.modGrid g f).tick = s.tick := rfl
@[simp] theorem State.modGrid_cycles (s : State) (g : Nat) (f : Grid → Grid) : (s.modGrid g f).cycles = s.cycles := rfl
@[simp] theorem State.modGrid_fuse (s : State) (g : Nat) (f : Grid → Grid) : (s.modGrid g f).fuse = s.fuse := rfl
@[simp] theorem State.modGrid_dev (s : State) (g : Nat) (f : Grid → Grid) : (s.modGrid g f).dev = s.dev := rfl
@[simp] theorem State.modGrid_ret (s : State) (g : Nat) (f : Grid → Grid) : (s.modGrid g f).ret = s.ret := rfl
@[simp] theorem State.modGrid_health (s : State) (g : Nat) (f : Grid → Grid) : (s.modGrid g f).health = s.health := rfl
@[simp] theorem State.modGrid_link (s : State) (g : Nat) (f : Grid → Grid) : (s.modGrid g f).link = s.link := rfl
@[simp] theorem State.modGrid_adit (s : State) (g : Nat) (f : Grid → Grid) : (s.modGrid g f).adit = s.adit := rfl
@[simp] theorem State.modGrid_ctxs (s : State) (g : Nat) (f : Grid → Grid) : (s.modGrid g f).ctxs = s.ctxs := rfl
@[simp] theorem State.modGrid_dist (s : State) (g : Nat) (f : Grid → Grid) : (s.modGrid g f).dist = s.dist := rfl
@[simp] theorem State.modGrid_sites (s : State) (g : Nat) (f : Grid → Grid) : (s.modGrid g f).sites = s.sites := rfl
@[simp] theorem State.modGrid_lcs (s : State) (g : Nat) (f : Grid → Grid) : (s.modGrid g f).lcs = s.lcs := rfl
@[simp] theorem State.modGrid_crews (s : State) (g : Nat) (f : Grid → Grid) : (s.modGrid g f).crews = s.crews := rfl
@[simp] theorem State.modGrid_blocks (s : State) (g : Nat) (f : Grid → Grid) : (s.modGrid g f).blocks = s.blocks := rfl
@[simp] theorem State.modGrid_mem (s : State) (g : Nat) (f : Grid → Grid) : (s.modGrid g f).mem = s.mem := rfl
@[simp] theorem State.modGrid_undef (s : State) (g : Nat) (f : Grid → Grid) : (s.modGrid g f).undef = s.undef := rfl
@[simp] theorem State.modGrid_poison (s : State) (g : Nat) (f : Grid → Grid) : (s.modGrid g f).poison = s.poison := rfl
@[simp] theorem State.modGrid_dirty (s : State) (g : Nat) (f : Grid → Grid) : (s.modGrid g f).dirty = s.dirty := rfl
@[simp] theorem State.modGrid_sinter (s : State) (g : Nat) (f : Grid → Grid) : (s.modGrid g f).sinter = s.sinter := rfl
@[simp] theorem State.modGrid_hidden (s : State) (g : Nat) (f : Grid → Grid) : (s.modGrid g f).hidden = s.hidden := rfl
@[simp] theorem State.modGrid_hostMem (s : State) (g : Nat) (f : Grid → Grid) : (s.modGrid g f).hostMem = s.hostMem := rfl
@[simp] theorem State.modGrid_hostPois (s : State) (g : Nat) (f : Grid → Grid) : (s.modGrid g f).hostPois = s.hostPois := rfl
@[simp] theorem State.modGrid_hostHidden (s : State) (g : Nat) (f : Grid → Grid) : (s.modGrid g f).hostHidden = s.hostHidden := rfl
@[simp] theorem State.modGrid_writes (s : State) (g : Nat) (f : Grid → Grid) : (s.modGrid g f).writes = s.writes := rfl
@[simp] theorem State.modGrid_lineW (s : State) (g : Nat) (f : Grid → Grid) : (s.modGrid g f).lineW = s.lineW := rfl
@[simp] theorem State.modGrid_hostLineW (s : State) (g : Nat) (f : Grid → Grid) : (s.modGrid g f).hostLineW = s.hostLineW := rfl
@[simp] theorem State.modGrid_homeQ (s : State) (g : Nat) (f : Grid → Grid) : (s.modGrid g f).homeQ = s.homeQ := rfl
@[simp] theorem State.modGrid_tlb (s : State) (g : Nat) (f : Grid → Grid) : (s.modGrid g f).tlb = s.tlb := rfl
@[simp] theorem State.modGrid_wcache (s : State) (g : Nat) (f : Grid → Grid) : (s.modGrid g f).wcache = s.wcache := rfl
@[simp] theorem State.modGrid_walks (s : State) (g : Nat) (f : Grid → Grid) : (s.modGrid g f).walks = s.walks := rfl
@[simp] theorem State.modGrid_misses (s : State) (g : Nat) (f : Grid → Grid) : (s.modGrid g f).misses = s.misses := rfl
@[simp] theorem State.modGrid_ats (s : State) (g : Nat) (f : Grid → Grid) : (s.modGrid g f).ats = s.ats := rfl
@[simp] theorem State.modGrid_atsCache (s : State) (g : Nat) (f : Grid → Grid) : (s.modGrid g f).atsCache = s.atsCache := rfl
@[simp] theorem State.modGrid_merges (s : State) (g : Nat) (f : Grid → Grid) : (s.modGrid g f).merges = s.merges := rfl
@[simp] theorem State.modGrid_swap (s : State) (g : Nat) (f : Grid → Grid) : (s.modGrid g f).swap = s.swap := rfl
@[simp] theorem State.modGrid_tables (s : State) (g : Nat) (f : Grid → Grid) : (s.modGrid g f).tables = s.tables := rfl

@[simp] theorem State.modBlock_schedule (s : State) (b : Nat) (f : Block → Block) : (s.modBlock b f).schedule = s.schedule := rfl
@[simp] theorem State.modBlock_subj (s : State) (b : Nat) (f : Block → Block) : (s.modBlock b f).subj = s.subj := rfl
@[simp] theorem State.modBlock_cur (s : State) (b : Nat) (f : Block → Block) : (s.modBlock b f).cur = s.cur := rfl
@[simp] theorem State.modBlock_fresh (s : State) (b : Nat) (f : Block → Block) : (s.modBlock b f).fresh = s.fresh := rfl
@[simp] theorem State.modBlock_arrival (s : State) (b : Nat) (f : Block → Block) : (s.modBlock b f).arrival = s.arrival := rfl
@[simp] theorem State.modBlock_tick (s : State) (b : Nat) (f : Block → Block) : (s.modBlock b f).tick = s.tick := rfl
@[simp] theorem State.modBlock_cycles (s : State) (b : Nat) (f : Block → Block) : (s.modBlock b f).cycles = s.cycles := rfl
@[simp] theorem State.modBlock_fuse (s : State) (b : Nat) (f : Block → Block) : (s.modBlock b f).fuse = s.fuse := rfl
@[simp] theorem State.modBlock_dev (s : State) (b : Nat) (f : Block → Block) : (s.modBlock b f).dev = s.dev := rfl
@[simp] theorem State.modBlock_ret (s : State) (b : Nat) (f : Block → Block) : (s.modBlock b f).ret = s.ret := rfl
@[simp] theorem State.modBlock_health (s : State) (b : Nat) (f : Block → Block) : (s.modBlock b f).health = s.health := rfl
@[simp] theorem State.modBlock_link (s : State) (b : Nat) (f : Block → Block) : (s.modBlock b f).link = s.link := rfl
@[simp] theorem State.modBlock_adit (s : State) (b : Nat) (f : Block → Block) : (s.modBlock b f).adit = s.adit := rfl
@[simp] theorem State.modBlock_ctxs (s : State) (b : Nat) (f : Block → Block) : (s.modBlock b f).ctxs = s.ctxs := rfl
@[simp] theorem State.modBlock_dist (s : State) (b : Nat) (f : Block → Block) : (s.modBlock b f).dist = s.dist := rfl
@[simp] theorem State.modBlock_sites (s : State) (b : Nat) (f : Block → Block) : (s.modBlock b f).sites = s.sites := rfl
@[simp] theorem State.modBlock_lcs (s : State) (b : Nat) (f : Block → Block) : (s.modBlock b f).lcs = s.lcs := rfl
@[simp] theorem State.modBlock_crews (s : State) (b : Nat) (f : Block → Block) : (s.modBlock b f).crews = s.crews := rfl
@[simp] theorem State.modBlock_grids (s : State) (b : Nat) (f : Block → Block) : (s.modBlock b f).grids = s.grids := rfl
@[simp] theorem State.modBlock_mem (s : State) (b : Nat) (f : Block → Block) : (s.modBlock b f).mem = s.mem := rfl
@[simp] theorem State.modBlock_undef (s : State) (b : Nat) (f : Block → Block) : (s.modBlock b f).undef = s.undef := rfl
@[simp] theorem State.modBlock_poison (s : State) (b : Nat) (f : Block → Block) : (s.modBlock b f).poison = s.poison := rfl
@[simp] theorem State.modBlock_dirty (s : State) (b : Nat) (f : Block → Block) : (s.modBlock b f).dirty = s.dirty := rfl
@[simp] theorem State.modBlock_sinter (s : State) (b : Nat) (f : Block → Block) : (s.modBlock b f).sinter = s.sinter := rfl
@[simp] theorem State.modBlock_hidden (s : State) (b : Nat) (f : Block → Block) : (s.modBlock b f).hidden = s.hidden := rfl
@[simp] theorem State.modBlock_hostMem (s : State) (b : Nat) (f : Block → Block) : (s.modBlock b f).hostMem = s.hostMem := rfl
@[simp] theorem State.modBlock_hostPois (s : State) (b : Nat) (f : Block → Block) : (s.modBlock b f).hostPois = s.hostPois := rfl
@[simp] theorem State.modBlock_hostHidden (s : State) (b : Nat) (f : Block → Block) : (s.modBlock b f).hostHidden = s.hostHidden := rfl
@[simp] theorem State.modBlock_writes (s : State) (b : Nat) (f : Block → Block) : (s.modBlock b f).writes = s.writes := rfl
@[simp] theorem State.modBlock_lineW (s : State) (b : Nat) (f : Block → Block) : (s.modBlock b f).lineW = s.lineW := rfl
@[simp] theorem State.modBlock_hostLineW (s : State) (b : Nat) (f : Block → Block) : (s.modBlock b f).hostLineW = s.hostLineW := rfl
@[simp] theorem State.modBlock_homeQ (s : State) (b : Nat) (f : Block → Block) : (s.modBlock b f).homeQ = s.homeQ := rfl
@[simp] theorem State.modBlock_tlb (s : State) (b : Nat) (f : Block → Block) : (s.modBlock b f).tlb = s.tlb := rfl
@[simp] theorem State.modBlock_wcache (s : State) (b : Nat) (f : Block → Block) : (s.modBlock b f).wcache = s.wcache := rfl
@[simp] theorem State.modBlock_walks (s : State) (b : Nat) (f : Block → Block) : (s.modBlock b f).walks = s.walks := rfl
@[simp] theorem State.modBlock_misses (s : State) (b : Nat) (f : Block → Block) : (s.modBlock b f).misses = s.misses := rfl
@[simp] theorem State.modBlock_ats (s : State) (b : Nat) (f : Block → Block) : (s.modBlock b f).ats = s.ats := rfl
@[simp] theorem State.modBlock_atsCache (s : State) (b : Nat) (f : Block → Block) : (s.modBlock b f).atsCache = s.atsCache := rfl
@[simp] theorem State.modBlock_merges (s : State) (b : Nat) (f : Block → Block) : (s.modBlock b f).merges = s.merges := rfl
@[simp] theorem State.modBlock_swap (s : State) (b : Nat) (f : Block → Block) : (s.modBlock b f).swap = s.swap := rfl
@[simp] theorem State.modBlock_tables (s : State) (b : Nat) (f : Block → Block) : (s.modBlock b f).tables = s.tables := rfl

@[simp] theorem State.countEvt_schedule (s : State) (site src n : Nat) : (s.countEvt site src n).schedule = s.schedule := rfl
@[simp] theorem State.countEvt_subj (s : State) (site src n : Nat) : (s.countEvt site src n).subj = s.subj := rfl
@[simp] theorem State.countEvt_cur (s : State) (site src n : Nat) : (s.countEvt site src n).cur = s.cur := rfl
@[simp] theorem State.countEvt_fresh (s : State) (site src n : Nat) : (s.countEvt site src n).fresh = s.fresh := rfl
@[simp] theorem State.countEvt_arrival (s : State) (site src n : Nat) : (s.countEvt site src n).arrival = s.arrival := rfl
@[simp] theorem State.countEvt_tick (s : State) (site src n : Nat) : (s.countEvt site src n).tick = s.tick := rfl
@[simp] theorem State.countEvt_cycles (s : State) (site src n : Nat) : (s.countEvt site src n).cycles = s.cycles := rfl
@[simp] theorem State.countEvt_fuse (s : State) (site src n : Nat) : (s.countEvt site src n).fuse = s.fuse := rfl
@[simp] theorem State.countEvt_dev (s : State) (site src n : Nat) : (s.countEvt site src n).dev = s.dev := rfl
@[simp] theorem State.countEvt_ret (s : State) (site src n : Nat) : (s.countEvt site src n).ret = s.ret := rfl
@[simp] theorem State.countEvt_health (s : State) (site src n : Nat) : (s.countEvt site src n).health = s.health := rfl
@[simp] theorem State.countEvt_link (s : State) (site src n : Nat) : (s.countEvt site src n).link = s.link := rfl
@[simp] theorem State.countEvt_adit (s : State) (site src n : Nat) : (s.countEvt site src n).adit = s.adit := rfl
@[simp] theorem State.countEvt_ctxs (s : State) (site src n : Nat) : (s.countEvt site src n).ctxs = s.ctxs := rfl
@[simp] theorem State.countEvt_dist (s : State) (site src n : Nat) : (s.countEvt site src n).dist = s.dist := rfl
@[simp] theorem State.countEvt_lcs (s : State) (site src n : Nat) : (s.countEvt site src n).lcs = s.lcs := rfl
@[simp] theorem State.countEvt_crews (s : State) (site src n : Nat) : (s.countEvt site src n).crews = s.crews := rfl
@[simp] theorem State.countEvt_grids (s : State) (site src n : Nat) : (s.countEvt site src n).grids = s.grids := rfl
@[simp] theorem State.countEvt_blocks (s : State) (site src n : Nat) : (s.countEvt site src n).blocks = s.blocks := rfl
@[simp] theorem State.countEvt_mem (s : State) (site src n : Nat) : (s.countEvt site src n).mem = s.mem := rfl
@[simp] theorem State.countEvt_undef (s : State) (site src n : Nat) : (s.countEvt site src n).undef = s.undef := rfl
@[simp] theorem State.countEvt_poison (s : State) (site src n : Nat) : (s.countEvt site src n).poison = s.poison := rfl
@[simp] theorem State.countEvt_dirty (s : State) (site src n : Nat) : (s.countEvt site src n).dirty = s.dirty := rfl
@[simp] theorem State.countEvt_sinter (s : State) (site src n : Nat) : (s.countEvt site src n).sinter = s.sinter := rfl
@[simp] theorem State.countEvt_hidden (s : State) (site src n : Nat) : (s.countEvt site src n).hidden = s.hidden := rfl
@[simp] theorem State.countEvt_hostMem (s : State) (site src n : Nat) : (s.countEvt site src n).hostMem = s.hostMem := rfl
@[simp] theorem State.countEvt_hostPois (s : State) (site src n : Nat) : (s.countEvt site src n).hostPois = s.hostPois := rfl
@[simp] theorem State.countEvt_hostHidden (s : State) (site src n : Nat) : (s.countEvt site src n).hostHidden = s.hostHidden := rfl
@[simp] theorem State.countEvt_writes (s : State) (site src n : Nat) : (s.countEvt site src n).writes = s.writes := rfl
@[simp] theorem State.countEvt_lineW (s : State) (site src n : Nat) : (s.countEvt site src n).lineW = s.lineW := rfl
@[simp] theorem State.countEvt_hostLineW (s : State) (site src n : Nat) : (s.countEvt site src n).hostLineW = s.hostLineW := rfl
@[simp] theorem State.countEvt_homeQ (s : State) (site src n : Nat) : (s.countEvt site src n).homeQ = s.homeQ := rfl
@[simp] theorem State.countEvt_tlb (s : State) (site src n : Nat) : (s.countEvt site src n).tlb = s.tlb := rfl
@[simp] theorem State.countEvt_wcache (s : State) (site src n : Nat) : (s.countEvt site src n).wcache = s.wcache := rfl
@[simp] theorem State.countEvt_walks (s : State) (site src n : Nat) : (s.countEvt site src n).walks = s.walks := rfl
@[simp] theorem State.countEvt_misses (s : State) (site src n : Nat) : (s.countEvt site src n).misses = s.misses := rfl
@[simp] theorem State.countEvt_ats (s : State) (site src n : Nat) : (s.countEvt site src n).ats = s.ats := rfl
@[simp] theorem State.countEvt_atsCache (s : State) (site src n : Nat) : (s.countEvt site src n).atsCache = s.atsCache := rfl
@[simp] theorem State.countEvt_merges (s : State) (site src n : Nat) : (s.countEvt site src n).merges = s.merges := rfl
@[simp] theorem State.countEvt_swap (s : State) (site src n : Nat) : (s.countEvt site src n).swap = s.swap := rfl
@[simp] theorem State.countEvt_tables (s : State) (site src n : Nat) : (s.countEvt site src n).tables = s.tables := rfl

@[simp] theorem State.progress_schedule (s : State) (n : Nat) : (s.progress n).schedule = s.schedule := rfl
@[simp] theorem State.progress_subj (s : State) (n : Nat) : (s.progress n).subj = s.subj := rfl
@[simp] theorem State.progress_cur (s : State) (n : Nat) : (s.progress n).cur = s.cur := rfl
@[simp] theorem State.progress_fresh (s : State) (n : Nat) : (s.progress n).fresh = s.fresh := rfl
@[simp] theorem State.progress_arrival (s : State) (n : Nat) : (s.progress n).arrival = s.arrival := rfl
@[simp] theorem State.progress_tick (s : State) (n : Nat) : (s.progress n).tick = s.tick := rfl
@[simp] theorem State.progress_cycles (s : State) (n : Nat) : (s.progress n).cycles = s.cycles := rfl
@[simp] theorem State.progress_fuse (s : State) (n : Nat) : (s.progress n).fuse = s.fuse := rfl
@[simp] theorem State.progress_dev (s : State) (n : Nat) : (s.progress n).dev = s.dev := rfl
@[simp] theorem State.progress_ret (s : State) (n : Nat) : (s.progress n).ret = s.ret := rfl
@[simp] theorem State.progress_health (s : State) (n : Nat) : (s.progress n).health = s.health := rfl
@[simp] theorem State.progress_link (s : State) (n : Nat) : (s.progress n).link = s.link := rfl
@[simp] theorem State.progress_adit (s : State) (n : Nat) : (s.progress n).adit = s.adit := rfl
@[simp] theorem State.progress_dist (s : State) (n : Nat) : (s.progress n).dist = s.dist := rfl
@[simp] theorem State.progress_sites (s : State) (n : Nat) : (s.progress n).sites = s.sites := rfl
@[simp] theorem State.progress_lcs (s : State) (n : Nat) : (s.progress n).lcs = s.lcs := rfl
@[simp] theorem State.progress_crews (s : State) (n : Nat) : (s.progress n).crews = s.crews := rfl
@[simp] theorem State.progress_grids (s : State) (n : Nat) : (s.progress n).grids = s.grids := rfl
@[simp] theorem State.progress_blocks (s : State) (n : Nat) : (s.progress n).blocks = s.blocks := rfl
@[simp] theorem State.progress_mem (s : State) (n : Nat) : (s.progress n).mem = s.mem := rfl
@[simp] theorem State.progress_undef (s : State) (n : Nat) : (s.progress n).undef = s.undef := rfl
@[simp] theorem State.progress_poison (s : State) (n : Nat) : (s.progress n).poison = s.poison := rfl
@[simp] theorem State.progress_dirty (s : State) (n : Nat) : (s.progress n).dirty = s.dirty := rfl
@[simp] theorem State.progress_sinter (s : State) (n : Nat) : (s.progress n).sinter = s.sinter := rfl
@[simp] theorem State.progress_hidden (s : State) (n : Nat) : (s.progress n).hidden = s.hidden := rfl
@[simp] theorem State.progress_hostMem (s : State) (n : Nat) : (s.progress n).hostMem = s.hostMem := rfl
@[simp] theorem State.progress_hostPois (s : State) (n : Nat) : (s.progress n).hostPois = s.hostPois := rfl
@[simp] theorem State.progress_hostHidden (s : State) (n : Nat) : (s.progress n).hostHidden = s.hostHidden := rfl
@[simp] theorem State.progress_writes (s : State) (n : Nat) : (s.progress n).writes = s.writes := rfl
@[simp] theorem State.progress_lineW (s : State) (n : Nat) : (s.progress n).lineW = s.lineW := rfl
@[simp] theorem State.progress_hostLineW (s : State) (n : Nat) : (s.progress n).hostLineW = s.hostLineW := rfl
@[simp] theorem State.progress_homeQ (s : State) (n : Nat) : (s.progress n).homeQ = s.homeQ := rfl
@[simp] theorem State.progress_tlb (s : State) (n : Nat) : (s.progress n).tlb = s.tlb := rfl
@[simp] theorem State.progress_wcache (s : State) (n : Nat) : (s.progress n).wcache = s.wcache := rfl
@[simp] theorem State.progress_walks (s : State) (n : Nat) : (s.progress n).walks = s.walks := rfl
@[simp] theorem State.progress_misses (s : State) (n : Nat) : (s.progress n).misses = s.misses := rfl
@[simp] theorem State.progress_ats (s : State) (n : Nat) : (s.progress n).ats = s.ats := rfl
@[simp] theorem State.progress_atsCache (s : State) (n : Nat) : (s.progress n).atsCache = s.atsCache := rfl
@[simp] theorem State.progress_merges (s : State) (n : Nat) : (s.progress n).merges = s.merges := rfl
@[simp] theorem State.progress_swap (s : State) (n : Nat) : (s.progress n).swap = s.swap := rfl
@[simp] theorem State.progress_tables (s : State) (n : Nat) : (s.progress n).tables = s.tables := rfl

@[simp] theorem State.devWriteKeep_schedule (s : State) (die dpa : Nat) (bs : List Byte) : (s.devWriteKeep die dpa bs).schedule = s.schedule := rfl
@[simp] theorem State.devWriteKeep_subj (s : State) (die dpa : Nat) (bs : List Byte) : (s.devWriteKeep die dpa bs).subj = s.subj := rfl
@[simp] theorem State.devWriteKeep_cur (s : State) (die dpa : Nat) (bs : List Byte) : (s.devWriteKeep die dpa bs).cur = s.cur := rfl
@[simp] theorem State.devWriteKeep_fresh (s : State) (die dpa : Nat) (bs : List Byte) : (s.devWriteKeep die dpa bs).fresh = s.fresh := rfl
@[simp] theorem State.devWriteKeep_arrival (s : State) (die dpa : Nat) (bs : List Byte) : (s.devWriteKeep die dpa bs).arrival = s.arrival := rfl
@[simp] theorem State.devWriteKeep_tick (s : State) (die dpa : Nat) (bs : List Byte) : (s.devWriteKeep die dpa bs).tick = s.tick := rfl
@[simp] theorem State.devWriteKeep_cycles (s : State) (die dpa : Nat) (bs : List Byte) : (s.devWriteKeep die dpa bs).cycles = s.cycles := rfl
@[simp] theorem State.devWriteKeep_fuse (s : State) (die dpa : Nat) (bs : List Byte) : (s.devWriteKeep die dpa bs).fuse = s.fuse := rfl
@[simp] theorem State.devWriteKeep_dev (s : State) (die dpa : Nat) (bs : List Byte) : (s.devWriteKeep die dpa bs).dev = s.dev := rfl
@[simp] theorem State.devWriteKeep_ret (s : State) (die dpa : Nat) (bs : List Byte) : (s.devWriteKeep die dpa bs).ret = s.ret := rfl
@[simp] theorem State.devWriteKeep_health (s : State) (die dpa : Nat) (bs : List Byte) : (s.devWriteKeep die dpa bs).health = s.health := rfl
@[simp] theorem State.devWriteKeep_link (s : State) (die dpa : Nat) (bs : List Byte) : (s.devWriteKeep die dpa bs).link = s.link := rfl
@[simp] theorem State.devWriteKeep_adit (s : State) (die dpa : Nat) (bs : List Byte) : (s.devWriteKeep die dpa bs).adit = s.adit := rfl
@[simp] theorem State.devWriteKeep_ctxs (s : State) (die dpa : Nat) (bs : List Byte) : (s.devWriteKeep die dpa bs).ctxs = s.ctxs := rfl
@[simp] theorem State.devWriteKeep_dist (s : State) (die dpa : Nat) (bs : List Byte) : (s.devWriteKeep die dpa bs).dist = s.dist := rfl
@[simp] theorem State.devWriteKeep_sites (s : State) (die dpa : Nat) (bs : List Byte) : (s.devWriteKeep die dpa bs).sites = s.sites := rfl
@[simp] theorem State.devWriteKeep_lcs (s : State) (die dpa : Nat) (bs : List Byte) : (s.devWriteKeep die dpa bs).lcs = s.lcs := rfl
@[simp] theorem State.devWriteKeep_crews (s : State) (die dpa : Nat) (bs : List Byte) : (s.devWriteKeep die dpa bs).crews = s.crews := rfl
@[simp] theorem State.devWriteKeep_grids (s : State) (die dpa : Nat) (bs : List Byte) : (s.devWriteKeep die dpa bs).grids = s.grids := rfl
@[simp] theorem State.devWriteKeep_blocks (s : State) (die dpa : Nat) (bs : List Byte) : (s.devWriteKeep die dpa bs).blocks = s.blocks := rfl
@[simp] theorem State.devWriteKeep_sinter (s : State) (die dpa : Nat) (bs : List Byte) : (s.devWriteKeep die dpa bs).sinter = s.sinter := rfl
@[simp] theorem State.devWriteKeep_hidden (s : State) (die dpa : Nat) (bs : List Byte) : (s.devWriteKeep die dpa bs).hidden = s.hidden := rfl
@[simp] theorem State.devWriteKeep_hostMem (s : State) (die dpa : Nat) (bs : List Byte) : (s.devWriteKeep die dpa bs).hostMem = s.hostMem := rfl
@[simp] theorem State.devWriteKeep_hostPois (s : State) (die dpa : Nat) (bs : List Byte) : (s.devWriteKeep die dpa bs).hostPois = s.hostPois := rfl
@[simp] theorem State.devWriteKeep_hostHidden (s : State) (die dpa : Nat) (bs : List Byte) : (s.devWriteKeep die dpa bs).hostHidden = s.hostHidden := rfl
@[simp] theorem State.devWriteKeep_hostLineW (s : State) (die dpa : Nat) (bs : List Byte) : (s.devWriteKeep die dpa bs).hostLineW = s.hostLineW := rfl
@[simp] theorem State.devWriteKeep_homeQ (s : State) (die dpa : Nat) (bs : List Byte) : (s.devWriteKeep die dpa bs).homeQ = s.homeQ := rfl
@[simp] theorem State.devWriteKeep_tlb (s : State) (die dpa : Nat) (bs : List Byte) : (s.devWriteKeep die dpa bs).tlb = s.tlb := rfl
@[simp] theorem State.devWriteKeep_wcache (s : State) (die dpa : Nat) (bs : List Byte) : (s.devWriteKeep die dpa bs).wcache = s.wcache := rfl
@[simp] theorem State.devWriteKeep_walks (s : State) (die dpa : Nat) (bs : List Byte) : (s.devWriteKeep die dpa bs).walks = s.walks := rfl
@[simp] theorem State.devWriteKeep_misses (s : State) (die dpa : Nat) (bs : List Byte) : (s.devWriteKeep die dpa bs).misses = s.misses := rfl
@[simp] theorem State.devWriteKeep_ats (s : State) (die dpa : Nat) (bs : List Byte) : (s.devWriteKeep die dpa bs).ats = s.ats := rfl
@[simp] theorem State.devWriteKeep_atsCache (s : State) (die dpa : Nat) (bs : List Byte) : (s.devWriteKeep die dpa bs).atsCache = s.atsCache := rfl
@[simp] theorem State.devWriteKeep_merges (s : State) (die dpa : Nat) (bs : List Byte) : (s.devWriteKeep die dpa bs).merges = s.merges := rfl
@[simp] theorem State.devWriteKeep_swap (s : State) (die dpa : Nat) (bs : List Byte) : (s.devWriteKeep die dpa bs).swap = s.swap := rfl
@[simp] theorem State.devWriteKeep_tables (s : State) (die dpa : Nat) (bs : List Byte) : (s.devWriteKeep die dpa bs).tables = s.tables := rfl

@[simp] theorem State.devWrite_schedule (s : State) (die dpa : Nat) (bs : List Byte) : (s.devWrite die dpa bs).schedule = s.schedule := rfl
@[simp] theorem State.devWrite_subj (s : State) (die dpa : Nat) (bs : List Byte) : (s.devWrite die dpa bs).subj = s.subj := rfl
@[simp] theorem State.devWrite_cur (s : State) (die dpa : Nat) (bs : List Byte) : (s.devWrite die dpa bs).cur = s.cur := rfl
@[simp] theorem State.devWrite_fresh (s : State) (die dpa : Nat) (bs : List Byte) : (s.devWrite die dpa bs).fresh = s.fresh := rfl
@[simp] theorem State.devWrite_arrival (s : State) (die dpa : Nat) (bs : List Byte) : (s.devWrite die dpa bs).arrival = s.arrival := rfl
@[simp] theorem State.devWrite_tick (s : State) (die dpa : Nat) (bs : List Byte) : (s.devWrite die dpa bs).tick = s.tick := rfl
@[simp] theorem State.devWrite_cycles (s : State) (die dpa : Nat) (bs : List Byte) : (s.devWrite die dpa bs).cycles = s.cycles := rfl
@[simp] theorem State.devWrite_fuse (s : State) (die dpa : Nat) (bs : List Byte) : (s.devWrite die dpa bs).fuse = s.fuse := rfl
@[simp] theorem State.devWrite_dev (s : State) (die dpa : Nat) (bs : List Byte) : (s.devWrite die dpa bs).dev = s.dev := rfl
@[simp] theorem State.devWrite_ret (s : State) (die dpa : Nat) (bs : List Byte) : (s.devWrite die dpa bs).ret = s.ret := rfl
@[simp] theorem State.devWrite_health (s : State) (die dpa : Nat) (bs : List Byte) : (s.devWrite die dpa bs).health = s.health := rfl
@[simp] theorem State.devWrite_link (s : State) (die dpa : Nat) (bs : List Byte) : (s.devWrite die dpa bs).link = s.link := rfl
@[simp] theorem State.devWrite_adit (s : State) (die dpa : Nat) (bs : List Byte) : (s.devWrite die dpa bs).adit = s.adit := rfl
@[simp] theorem State.devWrite_ctxs (s : State) (die dpa : Nat) (bs : List Byte) : (s.devWrite die dpa bs).ctxs = s.ctxs := rfl
@[simp] theorem State.devWrite_dist (s : State) (die dpa : Nat) (bs : List Byte) : (s.devWrite die dpa bs).dist = s.dist := rfl
@[simp] theorem State.devWrite_sites (s : State) (die dpa : Nat) (bs : List Byte) : (s.devWrite die dpa bs).sites = s.sites := rfl
@[simp] theorem State.devWrite_lcs (s : State) (die dpa : Nat) (bs : List Byte) : (s.devWrite die dpa bs).lcs = s.lcs := rfl
@[simp] theorem State.devWrite_crews (s : State) (die dpa : Nat) (bs : List Byte) : (s.devWrite die dpa bs).crews = s.crews := rfl
@[simp] theorem State.devWrite_grids (s : State) (die dpa : Nat) (bs : List Byte) : (s.devWrite die dpa bs).grids = s.grids := rfl
@[simp] theorem State.devWrite_blocks (s : State) (die dpa : Nat) (bs : List Byte) : (s.devWrite die dpa bs).blocks = s.blocks := rfl
@[simp] theorem State.devWrite_sinter (s : State) (die dpa : Nat) (bs : List Byte) : (s.devWrite die dpa bs).sinter = s.sinter := rfl
@[simp] theorem State.devWrite_hostMem (s : State) (die dpa : Nat) (bs : List Byte) : (s.devWrite die dpa bs).hostMem = s.hostMem := rfl
@[simp] theorem State.devWrite_hostPois (s : State) (die dpa : Nat) (bs : List Byte) : (s.devWrite die dpa bs).hostPois = s.hostPois := rfl
@[simp] theorem State.devWrite_hostHidden (s : State) (die dpa : Nat) (bs : List Byte) : (s.devWrite die dpa bs).hostHidden = s.hostHidden := rfl
@[simp] theorem State.devWrite_hostLineW (s : State) (die dpa : Nat) (bs : List Byte) : (s.devWrite die dpa bs).hostLineW = s.hostLineW := rfl
@[simp] theorem State.devWrite_homeQ (s : State) (die dpa : Nat) (bs : List Byte) : (s.devWrite die dpa bs).homeQ = s.homeQ := rfl
@[simp] theorem State.devWrite_tlb (s : State) (die dpa : Nat) (bs : List Byte) : (s.devWrite die dpa bs).tlb = s.tlb := rfl
@[simp] theorem State.devWrite_wcache (s : State) (die dpa : Nat) (bs : List Byte) : (s.devWrite die dpa bs).wcache = s.wcache := rfl
@[simp] theorem State.devWrite_walks (s : State) (die dpa : Nat) (bs : List Byte) : (s.devWrite die dpa bs).walks = s.walks := rfl
@[simp] theorem State.devWrite_misses (s : State) (die dpa : Nat) (bs : List Byte) : (s.devWrite die dpa bs).misses = s.misses := rfl
@[simp] theorem State.devWrite_ats (s : State) (die dpa : Nat) (bs : List Byte) : (s.devWrite die dpa bs).ats = s.ats := rfl
@[simp] theorem State.devWrite_atsCache (s : State) (die dpa : Nat) (bs : List Byte) : (s.devWrite die dpa bs).atsCache = s.atsCache := rfl
@[simp] theorem State.devWrite_merges (s : State) (die dpa : Nat) (bs : List Byte) : (s.devWrite die dpa bs).merges = s.merges := rfl
@[simp] theorem State.devWrite_swap (s : State) (die dpa : Nat) (bs : List Byte) : (s.devWrite die dpa bs).swap = s.swap := rfl
@[simp] theorem State.devWrite_tables (s : State) (die dpa : Nat) (bs : List Byte) : (s.devWrite die dpa bs).tables = s.tables := rfl

@[simp] theorem State.poisonWords_schedule (s : State) (ws : List Nat) : (s.poisonWords ws).schedule = s.schedule := rfl
@[simp] theorem State.poisonWords_subj (s : State) (ws : List Nat) : (s.poisonWords ws).subj = s.subj := rfl
@[simp] theorem State.poisonWords_cur (s : State) (ws : List Nat) : (s.poisonWords ws).cur = s.cur := rfl
@[simp] theorem State.poisonWords_fresh (s : State) (ws : List Nat) : (s.poisonWords ws).fresh = s.fresh := rfl
@[simp] theorem State.poisonWords_arrival (s : State) (ws : List Nat) : (s.poisonWords ws).arrival = s.arrival := rfl
@[simp] theorem State.poisonWords_tick (s : State) (ws : List Nat) : (s.poisonWords ws).tick = s.tick := rfl
@[simp] theorem State.poisonWords_cycles (s : State) (ws : List Nat) : (s.poisonWords ws).cycles = s.cycles := rfl
@[simp] theorem State.poisonWords_fuse (s : State) (ws : List Nat) : (s.poisonWords ws).fuse = s.fuse := rfl
@[simp] theorem State.poisonWords_dev (s : State) (ws : List Nat) : (s.poisonWords ws).dev = s.dev := rfl
@[simp] theorem State.poisonWords_ret (s : State) (ws : List Nat) : (s.poisonWords ws).ret = s.ret := rfl
@[simp] theorem State.poisonWords_health (s : State) (ws : List Nat) : (s.poisonWords ws).health = s.health := rfl
@[simp] theorem State.poisonWords_link (s : State) (ws : List Nat) : (s.poisonWords ws).link = s.link := rfl
@[simp] theorem State.poisonWords_adit (s : State) (ws : List Nat) : (s.poisonWords ws).adit = s.adit := rfl
@[simp] theorem State.poisonWords_ctxs (s : State) (ws : List Nat) : (s.poisonWords ws).ctxs = s.ctxs := rfl
@[simp] theorem State.poisonWords_dist (s : State) (ws : List Nat) : (s.poisonWords ws).dist = s.dist := rfl
@[simp] theorem State.poisonWords_sites (s : State) (ws : List Nat) : (s.poisonWords ws).sites = s.sites := rfl
@[simp] theorem State.poisonWords_lcs (s : State) (ws : List Nat) : (s.poisonWords ws).lcs = s.lcs := rfl
@[simp] theorem State.poisonWords_crews (s : State) (ws : List Nat) : (s.poisonWords ws).crews = s.crews := rfl
@[simp] theorem State.poisonWords_grids (s : State) (ws : List Nat) : (s.poisonWords ws).grids = s.grids := rfl
@[simp] theorem State.poisonWords_blocks (s : State) (ws : List Nat) : (s.poisonWords ws).blocks = s.blocks := rfl
@[simp] theorem State.poisonWords_mem (s : State) (ws : List Nat) : (s.poisonWords ws).mem = s.mem := rfl
@[simp] theorem State.poisonWords_undef (s : State) (ws : List Nat) : (s.poisonWords ws).undef = s.undef := rfl
@[simp] theorem State.poisonWords_dirty (s : State) (ws : List Nat) : (s.poisonWords ws).dirty = s.dirty := rfl
@[simp] theorem State.poisonWords_sinter (s : State) (ws : List Nat) : (s.poisonWords ws).sinter = s.sinter := rfl
@[simp] theorem State.poisonWords_hidden (s : State) (ws : List Nat) : (s.poisonWords ws).hidden = s.hidden := rfl
@[simp] theorem State.poisonWords_hostMem (s : State) (ws : List Nat) : (s.poisonWords ws).hostMem = s.hostMem := rfl
@[simp] theorem State.poisonWords_hostPois (s : State) (ws : List Nat) : (s.poisonWords ws).hostPois = s.hostPois := rfl
@[simp] theorem State.poisonWords_hostHidden (s : State) (ws : List Nat) : (s.poisonWords ws).hostHidden = s.hostHidden := rfl
@[simp] theorem State.poisonWords_writes (s : State) (ws : List Nat) : (s.poisonWords ws).writes = s.writes := rfl
@[simp] theorem State.poisonWords_lineW (s : State) (ws : List Nat) : (s.poisonWords ws).lineW = s.lineW := rfl
@[simp] theorem State.poisonWords_hostLineW (s : State) (ws : List Nat) : (s.poisonWords ws).hostLineW = s.hostLineW := rfl
@[simp] theorem State.poisonWords_homeQ (s : State) (ws : List Nat) : (s.poisonWords ws).homeQ = s.homeQ := rfl
@[simp] theorem State.poisonWords_tlb (s : State) (ws : List Nat) : (s.poisonWords ws).tlb = s.tlb := rfl
@[simp] theorem State.poisonWords_wcache (s : State) (ws : List Nat) : (s.poisonWords ws).wcache = s.wcache := rfl
@[simp] theorem State.poisonWords_walks (s : State) (ws : List Nat) : (s.poisonWords ws).walks = s.walks := rfl
@[simp] theorem State.poisonWords_misses (s : State) (ws : List Nat) : (s.poisonWords ws).misses = s.misses := rfl
@[simp] theorem State.poisonWords_ats (s : State) (ws : List Nat) : (s.poisonWords ws).ats = s.ats := rfl
@[simp] theorem State.poisonWords_atsCache (s : State) (ws : List Nat) : (s.poisonWords ws).atsCache = s.atsCache := rfl
@[simp] theorem State.poisonWords_merges (s : State) (ws : List Nat) : (s.poisonWords ws).merges = s.merges := rfl
@[simp] theorem State.poisonWords_swap (s : State) (ws : List Nat) : (s.poisonWords ws).swap = s.swap := rfl
@[simp] theorem State.poisonWords_tables (s : State) (ws : List Nat) : (s.poisonWords ws).tables = s.tables := rfl

@[simp] theorem State.hostWriteKeep_schedule (s : State) (hpa : Nat) (bs : List Byte) : (s.hostWriteKeep hpa bs).schedule = s.schedule := rfl
@[simp] theorem State.hostWriteKeep_subj (s : State) (hpa : Nat) (bs : List Byte) : (s.hostWriteKeep hpa bs).subj = s.subj := rfl
@[simp] theorem State.hostWriteKeep_cur (s : State) (hpa : Nat) (bs : List Byte) : (s.hostWriteKeep hpa bs).cur = s.cur := rfl
@[simp] theorem State.hostWriteKeep_fresh (s : State) (hpa : Nat) (bs : List Byte) : (s.hostWriteKeep hpa bs).fresh = s.fresh := rfl
@[simp] theorem State.hostWriteKeep_arrival (s : State) (hpa : Nat) (bs : List Byte) : (s.hostWriteKeep hpa bs).arrival = s.arrival := rfl
@[simp] theorem State.hostWriteKeep_tick (s : State) (hpa : Nat) (bs : List Byte) : (s.hostWriteKeep hpa bs).tick = s.tick := rfl
@[simp] theorem State.hostWriteKeep_cycles (s : State) (hpa : Nat) (bs : List Byte) : (s.hostWriteKeep hpa bs).cycles = s.cycles := rfl
@[simp] theorem State.hostWriteKeep_fuse (s : State) (hpa : Nat) (bs : List Byte) : (s.hostWriteKeep hpa bs).fuse = s.fuse := rfl
@[simp] theorem State.hostWriteKeep_dev (s : State) (hpa : Nat) (bs : List Byte) : (s.hostWriteKeep hpa bs).dev = s.dev := rfl
@[simp] theorem State.hostWriteKeep_ret (s : State) (hpa : Nat) (bs : List Byte) : (s.hostWriteKeep hpa bs).ret = s.ret := rfl
@[simp] theorem State.hostWriteKeep_health (s : State) (hpa : Nat) (bs : List Byte) : (s.hostWriteKeep hpa bs).health = s.health := rfl
@[simp] theorem State.hostWriteKeep_link (s : State) (hpa : Nat) (bs : List Byte) : (s.hostWriteKeep hpa bs).link = s.link := rfl
@[simp] theorem State.hostWriteKeep_adit (s : State) (hpa : Nat) (bs : List Byte) : (s.hostWriteKeep hpa bs).adit = s.adit := rfl
@[simp] theorem State.hostWriteKeep_ctxs (s : State) (hpa : Nat) (bs : List Byte) : (s.hostWriteKeep hpa bs).ctxs = s.ctxs := rfl
@[simp] theorem State.hostWriteKeep_dist (s : State) (hpa : Nat) (bs : List Byte) : (s.hostWriteKeep hpa bs).dist = s.dist := rfl
@[simp] theorem State.hostWriteKeep_sites (s : State) (hpa : Nat) (bs : List Byte) : (s.hostWriteKeep hpa bs).sites = s.sites := rfl
@[simp] theorem State.hostWriteKeep_lcs (s : State) (hpa : Nat) (bs : List Byte) : (s.hostWriteKeep hpa bs).lcs = s.lcs := rfl
@[simp] theorem State.hostWriteKeep_crews (s : State) (hpa : Nat) (bs : List Byte) : (s.hostWriteKeep hpa bs).crews = s.crews := rfl
@[simp] theorem State.hostWriteKeep_grids (s : State) (hpa : Nat) (bs : List Byte) : (s.hostWriteKeep hpa bs).grids = s.grids := rfl
@[simp] theorem State.hostWriteKeep_blocks (s : State) (hpa : Nat) (bs : List Byte) : (s.hostWriteKeep hpa bs).blocks = s.blocks := rfl
@[simp] theorem State.hostWriteKeep_mem (s : State) (hpa : Nat) (bs : List Byte) : (s.hostWriteKeep hpa bs).mem = s.mem := rfl
@[simp] theorem State.hostWriteKeep_undef (s : State) (hpa : Nat) (bs : List Byte) : (s.hostWriteKeep hpa bs).undef = s.undef := rfl
@[simp] theorem State.hostWriteKeep_poison (s : State) (hpa : Nat) (bs : List Byte) : (s.hostWriteKeep hpa bs).poison = s.poison := rfl
@[simp] theorem State.hostWriteKeep_dirty (s : State) (hpa : Nat) (bs : List Byte) : (s.hostWriteKeep hpa bs).dirty = s.dirty := rfl
@[simp] theorem State.hostWriteKeep_sinter (s : State) (hpa : Nat) (bs : List Byte) : (s.hostWriteKeep hpa bs).sinter = s.sinter := rfl
@[simp] theorem State.hostWriteKeep_hidden (s : State) (hpa : Nat) (bs : List Byte) : (s.hostWriteKeep hpa bs).hidden = s.hidden := rfl
@[simp] theorem State.hostWriteKeep_hostHidden (s : State) (hpa : Nat) (bs : List Byte) : (s.hostWriteKeep hpa bs).hostHidden = s.hostHidden := rfl
@[simp] theorem State.hostWriteKeep_lineW (s : State) (hpa : Nat) (bs : List Byte) : (s.hostWriteKeep hpa bs).lineW = s.lineW := rfl
@[simp] theorem State.hostWriteKeep_homeQ (s : State) (hpa : Nat) (bs : List Byte) : (s.hostWriteKeep hpa bs).homeQ = s.homeQ := rfl
@[simp] theorem State.hostWriteKeep_tlb (s : State) (hpa : Nat) (bs : List Byte) : (s.hostWriteKeep hpa bs).tlb = s.tlb := rfl
@[simp] theorem State.hostWriteKeep_wcache (s : State) (hpa : Nat) (bs : List Byte) : (s.hostWriteKeep hpa bs).wcache = s.wcache := rfl
@[simp] theorem State.hostWriteKeep_walks (s : State) (hpa : Nat) (bs : List Byte) : (s.hostWriteKeep hpa bs).walks = s.walks := rfl
@[simp] theorem State.hostWriteKeep_misses (s : State) (hpa : Nat) (bs : List Byte) : (s.hostWriteKeep hpa bs).misses = s.misses := rfl
@[simp] theorem State.hostWriteKeep_ats (s : State) (hpa : Nat) (bs : List Byte) : (s.hostWriteKeep hpa bs).ats = s.ats := rfl
@[simp] theorem State.hostWriteKeep_atsCache (s : State) (hpa : Nat) (bs : List Byte) : (s.hostWriteKeep hpa bs).atsCache = s.atsCache := rfl
@[simp] theorem State.hostWriteKeep_merges (s : State) (hpa : Nat) (bs : List Byte) : (s.hostWriteKeep hpa bs).merges = s.merges := rfl
@[simp] theorem State.hostWriteKeep_swap (s : State) (hpa : Nat) (bs : List Byte) : (s.hostWriteKeep hpa bs).swap = s.swap := rfl
@[simp] theorem State.hostWriteKeep_tables (s : State) (hpa : Nat) (bs : List Byte) : (s.hostWriteKeep hpa bs).tables = s.tables := rfl

@[simp] theorem State.hostWrite_schedule (s : State) (hpa : Nat) (bs : List Byte) : (s.hostWrite hpa bs).schedule = s.schedule := rfl
@[simp] theorem State.hostWrite_subj (s : State) (hpa : Nat) (bs : List Byte) : (s.hostWrite hpa bs).subj = s.subj := rfl
@[simp] theorem State.hostWrite_cur (s : State) (hpa : Nat) (bs : List Byte) : (s.hostWrite hpa bs).cur = s.cur := rfl
@[simp] theorem State.hostWrite_fresh (s : State) (hpa : Nat) (bs : List Byte) : (s.hostWrite hpa bs).fresh = s.fresh := rfl
@[simp] theorem State.hostWrite_arrival (s : State) (hpa : Nat) (bs : List Byte) : (s.hostWrite hpa bs).arrival = s.arrival := rfl
@[simp] theorem State.hostWrite_tick (s : State) (hpa : Nat) (bs : List Byte) : (s.hostWrite hpa bs).tick = s.tick := rfl
@[simp] theorem State.hostWrite_cycles (s : State) (hpa : Nat) (bs : List Byte) : (s.hostWrite hpa bs).cycles = s.cycles := rfl
@[simp] theorem State.hostWrite_fuse (s : State) (hpa : Nat) (bs : List Byte) : (s.hostWrite hpa bs).fuse = s.fuse := rfl
@[simp] theorem State.hostWrite_dev (s : State) (hpa : Nat) (bs : List Byte) : (s.hostWrite hpa bs).dev = s.dev := rfl
@[simp] theorem State.hostWrite_ret (s : State) (hpa : Nat) (bs : List Byte) : (s.hostWrite hpa bs).ret = s.ret := rfl
@[simp] theorem State.hostWrite_health (s : State) (hpa : Nat) (bs : List Byte) : (s.hostWrite hpa bs).health = s.health := rfl
@[simp] theorem State.hostWrite_link (s : State) (hpa : Nat) (bs : List Byte) : (s.hostWrite hpa bs).link = s.link := rfl
@[simp] theorem State.hostWrite_adit (s : State) (hpa : Nat) (bs : List Byte) : (s.hostWrite hpa bs).adit = s.adit := rfl
@[simp] theorem State.hostWrite_ctxs (s : State) (hpa : Nat) (bs : List Byte) : (s.hostWrite hpa bs).ctxs = s.ctxs := rfl
@[simp] theorem State.hostWrite_dist (s : State) (hpa : Nat) (bs : List Byte) : (s.hostWrite hpa bs).dist = s.dist := rfl
@[simp] theorem State.hostWrite_sites (s : State) (hpa : Nat) (bs : List Byte) : (s.hostWrite hpa bs).sites = s.sites := rfl
@[simp] theorem State.hostWrite_lcs (s : State) (hpa : Nat) (bs : List Byte) : (s.hostWrite hpa bs).lcs = s.lcs := rfl
@[simp] theorem State.hostWrite_crews (s : State) (hpa : Nat) (bs : List Byte) : (s.hostWrite hpa bs).crews = s.crews := rfl
@[simp] theorem State.hostWrite_grids (s : State) (hpa : Nat) (bs : List Byte) : (s.hostWrite hpa bs).grids = s.grids := rfl
@[simp] theorem State.hostWrite_blocks (s : State) (hpa : Nat) (bs : List Byte) : (s.hostWrite hpa bs).blocks = s.blocks := rfl
@[simp] theorem State.hostWrite_mem (s : State) (hpa : Nat) (bs : List Byte) : (s.hostWrite hpa bs).mem = s.mem := rfl
@[simp] theorem State.hostWrite_undef (s : State) (hpa : Nat) (bs : List Byte) : (s.hostWrite hpa bs).undef = s.undef := rfl
@[simp] theorem State.hostWrite_poison (s : State) (hpa : Nat) (bs : List Byte) : (s.hostWrite hpa bs).poison = s.poison := rfl
@[simp] theorem State.hostWrite_dirty (s : State) (hpa : Nat) (bs : List Byte) : (s.hostWrite hpa bs).dirty = s.dirty := rfl
@[simp] theorem State.hostWrite_sinter (s : State) (hpa : Nat) (bs : List Byte) : (s.hostWrite hpa bs).sinter = s.sinter := rfl
@[simp] theorem State.hostWrite_hidden (s : State) (hpa : Nat) (bs : List Byte) : (s.hostWrite hpa bs).hidden = s.hidden := rfl
@[simp] theorem State.hostWrite_lineW (s : State) (hpa : Nat) (bs : List Byte) : (s.hostWrite hpa bs).lineW = s.lineW := rfl
@[simp] theorem State.hostWrite_homeQ (s : State) (hpa : Nat) (bs : List Byte) : (s.hostWrite hpa bs).homeQ = s.homeQ := rfl
@[simp] theorem State.hostWrite_tlb (s : State) (hpa : Nat) (bs : List Byte) : (s.hostWrite hpa bs).tlb = s.tlb := rfl
@[simp] theorem State.hostWrite_wcache (s : State) (hpa : Nat) (bs : List Byte) : (s.hostWrite hpa bs).wcache = s.wcache := rfl
@[simp] theorem State.hostWrite_walks (s : State) (hpa : Nat) (bs : List Byte) : (s.hostWrite hpa bs).walks = s.walks := rfl
@[simp] theorem State.hostWrite_misses (s : State) (hpa : Nat) (bs : List Byte) : (s.hostWrite hpa bs).misses = s.misses := rfl
@[simp] theorem State.hostWrite_ats (s : State) (hpa : Nat) (bs : List Byte) : (s.hostWrite hpa bs).ats = s.ats := rfl
@[simp] theorem State.hostWrite_atsCache (s : State) (hpa : Nat) (bs : List Byte) : (s.hostWrite hpa bs).atsCache = s.atsCache := rfl
@[simp] theorem State.hostWrite_merges (s : State) (hpa : Nat) (bs : List Byte) : (s.hostWrite hpa bs).merges = s.merges := rfl
@[simp] theorem State.hostWrite_swap (s : State) (hpa : Nat) (bs : List Byte) : (s.hostWrite hpa bs).swap = s.swap := rfl
@[simp] theorem State.hostWrite_tables (s : State) (hpa : Nat) (bs : List Byte) : (s.hostWrite hpa bs).tables = s.tables := rfl

@[simp] theorem State.locWrite_schedule (s : State) (b off : Nat) (bs : List Byte) : (s.locWrite b off bs).schedule = s.schedule := rfl
@[simp] theorem State.locWrite_subj (s : State) (b off : Nat) (bs : List Byte) : (s.locWrite b off bs).subj = s.subj := rfl
@[simp] theorem State.locWrite_cur (s : State) (b off : Nat) (bs : List Byte) : (s.locWrite b off bs).cur = s.cur := rfl
@[simp] theorem State.locWrite_fresh (s : State) (b off : Nat) (bs : List Byte) : (s.locWrite b off bs).fresh = s.fresh := rfl
@[simp] theorem State.locWrite_arrival (s : State) (b off : Nat) (bs : List Byte) : (s.locWrite b off bs).arrival = s.arrival := rfl
@[simp] theorem State.locWrite_tick (s : State) (b off : Nat) (bs : List Byte) : (s.locWrite b off bs).tick = s.tick := rfl
@[simp] theorem State.locWrite_cycles (s : State) (b off : Nat) (bs : List Byte) : (s.locWrite b off bs).cycles = s.cycles := rfl
@[simp] theorem State.locWrite_fuse (s : State) (b off : Nat) (bs : List Byte) : (s.locWrite b off bs).fuse = s.fuse := rfl
@[simp] theorem State.locWrite_dev (s : State) (b off : Nat) (bs : List Byte) : (s.locWrite b off bs).dev = s.dev := rfl
@[simp] theorem State.locWrite_ret (s : State) (b off : Nat) (bs : List Byte) : (s.locWrite b off bs).ret = s.ret := rfl
@[simp] theorem State.locWrite_health (s : State) (b off : Nat) (bs : List Byte) : (s.locWrite b off bs).health = s.health := rfl
@[simp] theorem State.locWrite_link (s : State) (b off : Nat) (bs : List Byte) : (s.locWrite b off bs).link = s.link := rfl
@[simp] theorem State.locWrite_adit (s : State) (b off : Nat) (bs : List Byte) : (s.locWrite b off bs).adit = s.adit := rfl
@[simp] theorem State.locWrite_ctxs (s : State) (b off : Nat) (bs : List Byte) : (s.locWrite b off bs).ctxs = s.ctxs := rfl
@[simp] theorem State.locWrite_dist (s : State) (b off : Nat) (bs : List Byte) : (s.locWrite b off bs).dist = s.dist := rfl
@[simp] theorem State.locWrite_sites (s : State) (b off : Nat) (bs : List Byte) : (s.locWrite b off bs).sites = s.sites := rfl
@[simp] theorem State.locWrite_lcs (s : State) (b off : Nat) (bs : List Byte) : (s.locWrite b off bs).lcs = s.lcs := rfl
@[simp] theorem State.locWrite_crews (s : State) (b off : Nat) (bs : List Byte) : (s.locWrite b off bs).crews = s.crews := rfl
@[simp] theorem State.locWrite_grids (s : State) (b off : Nat) (bs : List Byte) : (s.locWrite b off bs).grids = s.grids := rfl
@[simp] theorem State.locWrite_mem (s : State) (b off : Nat) (bs : List Byte) : (s.locWrite b off bs).mem = s.mem := rfl
@[simp] theorem State.locWrite_undef (s : State) (b off : Nat) (bs : List Byte) : (s.locWrite b off bs).undef = s.undef := rfl
@[simp] theorem State.locWrite_poison (s : State) (b off : Nat) (bs : List Byte) : (s.locWrite b off bs).poison = s.poison := rfl
@[simp] theorem State.locWrite_dirty (s : State) (b off : Nat) (bs : List Byte) : (s.locWrite b off bs).dirty = s.dirty := rfl
@[simp] theorem State.locWrite_sinter (s : State) (b off : Nat) (bs : List Byte) : (s.locWrite b off bs).sinter = s.sinter := rfl
@[simp] theorem State.locWrite_hidden (s : State) (b off : Nat) (bs : List Byte) : (s.locWrite b off bs).hidden = s.hidden := rfl
@[simp] theorem State.locWrite_hostMem (s : State) (b off : Nat) (bs : List Byte) : (s.locWrite b off bs).hostMem = s.hostMem := rfl
@[simp] theorem State.locWrite_hostPois (s : State) (b off : Nat) (bs : List Byte) : (s.locWrite b off bs).hostPois = s.hostPois := rfl
@[simp] theorem State.locWrite_hostHidden (s : State) (b off : Nat) (bs : List Byte) : (s.locWrite b off bs).hostHidden = s.hostHidden := rfl
@[simp] theorem State.locWrite_lineW (s : State) (b off : Nat) (bs : List Byte) : (s.locWrite b off bs).lineW = s.lineW := rfl
@[simp] theorem State.locWrite_hostLineW (s : State) (b off : Nat) (bs : List Byte) : (s.locWrite b off bs).hostLineW = s.hostLineW := rfl
@[simp] theorem State.locWrite_homeQ (s : State) (b off : Nat) (bs : List Byte) : (s.locWrite b off bs).homeQ = s.homeQ := rfl
@[simp] theorem State.locWrite_tlb (s : State) (b off : Nat) (bs : List Byte) : (s.locWrite b off bs).tlb = s.tlb := rfl
@[simp] theorem State.locWrite_wcache (s : State) (b off : Nat) (bs : List Byte) : (s.locWrite b off bs).wcache = s.wcache := rfl
@[simp] theorem State.locWrite_walks (s : State) (b off : Nat) (bs : List Byte) : (s.locWrite b off bs).walks = s.walks := rfl
@[simp] theorem State.locWrite_misses (s : State) (b off : Nat) (bs : List Byte) : (s.locWrite b off bs).misses = s.misses := rfl
@[simp] theorem State.locWrite_ats (s : State) (b off : Nat) (bs : List Byte) : (s.locWrite b off bs).ats = s.ats := rfl
@[simp] theorem State.locWrite_atsCache (s : State) (b off : Nat) (bs : List Byte) : (s.locWrite b off bs).atsCache = s.atsCache := rfl
@[simp] theorem State.locWrite_merges (s : State) (b off : Nat) (bs : List Byte) : (s.locWrite b off bs).merges = s.merges := rfl
@[simp] theorem State.locWrite_swap (s : State) (b off : Nat) (bs : List Byte) : (s.locWrite b off bs).swap = s.swap := rfl
@[simp] theorem State.locWrite_tables (s : State) (b off : Nat) (bs : List Byte) : (s.locWrite b off bs).tables = s.tables := rfl

@[simp] theorem State.undefine_schedule (s : State) (a n : Nat) : (s.undefine a n).schedule = s.schedule := rfl
@[simp] theorem State.undefine_subj (s : State) (a n : Nat) : (s.undefine a n).subj = s.subj := rfl
@[simp] theorem State.undefine_cur (s : State) (a n : Nat) : (s.undefine a n).cur = s.cur := rfl
@[simp] theorem State.undefine_fresh (s : State) (a n : Nat) : (s.undefine a n).fresh = s.fresh := rfl
@[simp] theorem State.undefine_arrival (s : State) (a n : Nat) : (s.undefine a n).arrival = s.arrival := rfl
@[simp] theorem State.undefine_tick (s : State) (a n : Nat) : (s.undefine a n).tick = s.tick := rfl
@[simp] theorem State.undefine_cycles (s : State) (a n : Nat) : (s.undefine a n).cycles = s.cycles := rfl
@[simp] theorem State.undefine_fuse (s : State) (a n : Nat) : (s.undefine a n).fuse = s.fuse := rfl
@[simp] theorem State.undefine_dev (s : State) (a n : Nat) : (s.undefine a n).dev = s.dev := rfl
@[simp] theorem State.undefine_ret (s : State) (a n : Nat) : (s.undefine a n).ret = s.ret := rfl
@[simp] theorem State.undefine_health (s : State) (a n : Nat) : (s.undefine a n).health = s.health := rfl
@[simp] theorem State.undefine_link (s : State) (a n : Nat) : (s.undefine a n).link = s.link := rfl
@[simp] theorem State.undefine_adit (s : State) (a n : Nat) : (s.undefine a n).adit = s.adit := rfl
@[simp] theorem State.undefine_ctxs (s : State) (a n : Nat) : (s.undefine a n).ctxs = s.ctxs := rfl
@[simp] theorem State.undefine_dist (s : State) (a n : Nat) : (s.undefine a n).dist = s.dist := rfl
@[simp] theorem State.undefine_sites (s : State) (a n : Nat) : (s.undefine a n).sites = s.sites := rfl
@[simp] theorem State.undefine_lcs (s : State) (a n : Nat) : (s.undefine a n).lcs = s.lcs := rfl
@[simp] theorem State.undefine_crews (s : State) (a n : Nat) : (s.undefine a n).crews = s.crews := rfl
@[simp] theorem State.undefine_grids (s : State) (a n : Nat) : (s.undefine a n).grids = s.grids := rfl
@[simp] theorem State.undefine_blocks (s : State) (a n : Nat) : (s.undefine a n).blocks = s.blocks := rfl
@[simp] theorem State.undefine_poison (s : State) (a n : Nat) : (s.undefine a n).poison = s.poison := rfl
@[simp] theorem State.undefine_dirty (s : State) (a n : Nat) : (s.undefine a n).dirty = s.dirty := rfl
@[simp] theorem State.undefine_sinter (s : State) (a n : Nat) : (s.undefine a n).sinter = s.sinter := rfl
@[simp] theorem State.undefine_hidden (s : State) (a n : Nat) : (s.undefine a n).hidden = s.hidden := rfl
@[simp] theorem State.undefine_hostMem (s : State) (a n : Nat) : (s.undefine a n).hostMem = s.hostMem := rfl
@[simp] theorem State.undefine_hostPois (s : State) (a n : Nat) : (s.undefine a n).hostPois = s.hostPois := rfl
@[simp] theorem State.undefine_hostHidden (s : State) (a n : Nat) : (s.undefine a n).hostHidden = s.hostHidden := rfl
@[simp] theorem State.undefine_writes (s : State) (a n : Nat) : (s.undefine a n).writes = s.writes := rfl
@[simp] theorem State.undefine_lineW (s : State) (a n : Nat) : (s.undefine a n).lineW = s.lineW := rfl
@[simp] theorem State.undefine_hostLineW (s : State) (a n : Nat) : (s.undefine a n).hostLineW = s.hostLineW := rfl
@[simp] theorem State.undefine_homeQ (s : State) (a n : Nat) : (s.undefine a n).homeQ = s.homeQ := rfl
@[simp] theorem State.undefine_tlb (s : State) (a n : Nat) : (s.undefine a n).tlb = s.tlb := rfl
@[simp] theorem State.undefine_wcache (s : State) (a n : Nat) : (s.undefine a n).wcache = s.wcache := rfl
@[simp] theorem State.undefine_walks (s : State) (a n : Nat) : (s.undefine a n).walks = s.walks := rfl
@[simp] theorem State.undefine_misses (s : State) (a n : Nat) : (s.undefine a n).misses = s.misses := rfl
@[simp] theorem State.undefine_ats (s : State) (a n : Nat) : (s.undefine a n).ats = s.ats := rfl
@[simp] theorem State.undefine_atsCache (s : State) (a n : Nat) : (s.undefine a n).atsCache = s.atsCache := rfl
@[simp] theorem State.undefine_merges (s : State) (a n : Nat) : (s.undefine a n).merges = s.merges := rfl
@[simp] theorem State.undefine_swap (s : State) (a n : Nat) : (s.undefine a n).swap = s.swap := rfl
@[simp] theorem State.undefine_tables (s : State) (a n : Nat) : (s.undefine a n).tables = s.tables := rfl

@[simp] theorem State.toGuest_schedule (s : State) (m : GuestMsg) : (s.toGuest m).schedule = s.schedule := rfl
@[simp] theorem State.toGuest_subj (s : State) (m : GuestMsg) : (s.toGuest m).subj = s.subj := rfl
@[simp] theorem State.toGuest_cur (s : State) (m : GuestMsg) : (s.toGuest m).cur = s.cur := rfl
@[simp] theorem State.toGuest_fresh (s : State) (m : GuestMsg) : (s.toGuest m).fresh = s.fresh := rfl
@[simp] theorem State.toGuest_arrival (s : State) (m : GuestMsg) : (s.toGuest m).arrival = s.arrival := rfl
@[simp] theorem State.toGuest_tick (s : State) (m : GuestMsg) : (s.toGuest m).tick = s.tick := rfl
@[simp] theorem State.toGuest_cycles (s : State) (m : GuestMsg) : (s.toGuest m).cycles = s.cycles := rfl
@[simp] theorem State.toGuest_fuse (s : State) (m : GuestMsg) : (s.toGuest m).fuse = s.fuse := rfl
@[simp] theorem State.toGuest_dev (s : State) (m : GuestMsg) : (s.toGuest m).dev = s.dev := rfl
@[simp] theorem State.toGuest_ret (s : State) (m : GuestMsg) : (s.toGuest m).ret = s.ret := rfl
@[simp] theorem State.toGuest_health (s : State) (m : GuestMsg) : (s.toGuest m).health = s.health := rfl
@[simp] theorem State.toGuest_link (s : State) (m : GuestMsg) : (s.toGuest m).link = s.link := rfl
@[simp] theorem State.toGuest_ctxs (s : State) (m : GuestMsg) : (s.toGuest m).ctxs = s.ctxs := rfl
@[simp] theorem State.toGuest_dist (s : State) (m : GuestMsg) : (s.toGuest m).dist = s.dist := rfl
@[simp] theorem State.toGuest_sites (s : State) (m : GuestMsg) : (s.toGuest m).sites = s.sites := rfl
@[simp] theorem State.toGuest_lcs (s : State) (m : GuestMsg) : (s.toGuest m).lcs = s.lcs := rfl
@[simp] theorem State.toGuest_crews (s : State) (m : GuestMsg) : (s.toGuest m).crews = s.crews := rfl
@[simp] theorem State.toGuest_grids (s : State) (m : GuestMsg) : (s.toGuest m).grids = s.grids := rfl
@[simp] theorem State.toGuest_blocks (s : State) (m : GuestMsg) : (s.toGuest m).blocks = s.blocks := rfl
@[simp] theorem State.toGuest_mem (s : State) (m : GuestMsg) : (s.toGuest m).mem = s.mem := rfl
@[simp] theorem State.toGuest_undef (s : State) (m : GuestMsg) : (s.toGuest m).undef = s.undef := rfl
@[simp] theorem State.toGuest_poison (s : State) (m : GuestMsg) : (s.toGuest m).poison = s.poison := rfl
@[simp] theorem State.toGuest_dirty (s : State) (m : GuestMsg) : (s.toGuest m).dirty = s.dirty := rfl
@[simp] theorem State.toGuest_sinter (s : State) (m : GuestMsg) : (s.toGuest m).sinter = s.sinter := rfl
@[simp] theorem State.toGuest_hidden (s : State) (m : GuestMsg) : (s.toGuest m).hidden = s.hidden := rfl
@[simp] theorem State.toGuest_hostMem (s : State) (m : GuestMsg) : (s.toGuest m).hostMem = s.hostMem := rfl
@[simp] theorem State.toGuest_hostPois (s : State) (m : GuestMsg) : (s.toGuest m).hostPois = s.hostPois := rfl
@[simp] theorem State.toGuest_hostHidden (s : State) (m : GuestMsg) : (s.toGuest m).hostHidden = s.hostHidden := rfl
@[simp] theorem State.toGuest_writes (s : State) (m : GuestMsg) : (s.toGuest m).writes = s.writes := rfl
@[simp] theorem State.toGuest_lineW (s : State) (m : GuestMsg) : (s.toGuest m).lineW = s.lineW := rfl
@[simp] theorem State.toGuest_hostLineW (s : State) (m : GuestMsg) : (s.toGuest m).hostLineW = s.hostLineW := rfl
@[simp] theorem State.toGuest_homeQ (s : State) (m : GuestMsg) : (s.toGuest m).homeQ = s.homeQ := rfl
@[simp] theorem State.toGuest_tlb (s : State) (m : GuestMsg) : (s.toGuest m).tlb = s.tlb := rfl
@[simp] theorem State.toGuest_wcache (s : State) (m : GuestMsg) : (s.toGuest m).wcache = s.wcache := rfl
@[simp] theorem State.toGuest_walks (s : State) (m : GuestMsg) : (s.toGuest m).walks = s.walks := rfl
@[simp] theorem State.toGuest_misses (s : State) (m : GuestMsg) : (s.toGuest m).misses = s.misses := rfl
@[simp] theorem State.toGuest_ats (s : State) (m : GuestMsg) : (s.toGuest m).ats = s.ats := rfl
@[simp] theorem State.toGuest_atsCache (s : State) (m : GuestMsg) : (s.toGuest m).atsCache = s.atsCache := rfl
@[simp] theorem State.toGuest_merges (s : State) (m : GuestMsg) : (s.toGuest m).merges = s.merges := rfl
@[simp] theorem State.toGuest_swap (s : State) (m : GuestMsg) : (s.toGuest m).swap = s.swap := rfl
@[simp] theorem State.toGuest_tables (s : State) (m : GuestMsg) : (s.toGuest m).tables = s.tables := rfl

@[simp] theorem State.modGq_schedule (s : State) (q : Nat) (f : GuestQ → GuestQ) : (s.modGq q f).schedule = s.schedule := rfl
@[simp] theorem State.modGq_subj (s : State) (q : Nat) (f : GuestQ → GuestQ) : (s.modGq q f).subj = s.subj := rfl
@[simp] theorem State.modGq_cur (s : State) (q : Nat) (f : GuestQ → GuestQ) : (s.modGq q f).cur = s.cur := rfl
@[simp] theorem State.modGq_fresh (s : State) (q : Nat) (f : GuestQ → GuestQ) : (s.modGq q f).fresh = s.fresh := rfl
@[simp] theorem State.modGq_arrival (s : State) (q : Nat) (f : GuestQ → GuestQ) : (s.modGq q f).arrival = s.arrival := rfl
@[simp] theorem State.modGq_tick (s : State) (q : Nat) (f : GuestQ → GuestQ) : (s.modGq q f).tick = s.tick := rfl
@[simp] theorem State.modGq_cycles (s : State) (q : Nat) (f : GuestQ → GuestQ) : (s.modGq q f).cycles = s.cycles := rfl
@[simp] theorem State.modGq_fuse (s : State) (q : Nat) (f : GuestQ → GuestQ) : (s.modGq q f).fuse = s.fuse := rfl
@[simp] theorem State.modGq_dev (s : State) (q : Nat) (f : GuestQ → GuestQ) : (s.modGq q f).dev = s.dev := rfl
@[simp] theorem State.modGq_ret (s : State) (q : Nat) (f : GuestQ → GuestQ) : (s.modGq q f).ret = s.ret := rfl
@[simp] theorem State.modGq_health (s : State) (q : Nat) (f : GuestQ → GuestQ) : (s.modGq q f).health = s.health := rfl
@[simp] theorem State.modGq_link (s : State) (q : Nat) (f : GuestQ → GuestQ) : (s.modGq q f).link = s.link := rfl
@[simp] theorem State.modGq_ctxs (s : State) (q : Nat) (f : GuestQ → GuestQ) : (s.modGq q f).ctxs = s.ctxs := rfl
@[simp] theorem State.modGq_dist (s : State) (q : Nat) (f : GuestQ → GuestQ) : (s.modGq q f).dist = s.dist := rfl
@[simp] theorem State.modGq_sites (s : State) (q : Nat) (f : GuestQ → GuestQ) : (s.modGq q f).sites = s.sites := rfl
@[simp] theorem State.modGq_lcs (s : State) (q : Nat) (f : GuestQ → GuestQ) : (s.modGq q f).lcs = s.lcs := rfl
@[simp] theorem State.modGq_crews (s : State) (q : Nat) (f : GuestQ → GuestQ) : (s.modGq q f).crews = s.crews := rfl
@[simp] theorem State.modGq_grids (s : State) (q : Nat) (f : GuestQ → GuestQ) : (s.modGq q f).grids = s.grids := rfl
@[simp] theorem State.modGq_blocks (s : State) (q : Nat) (f : GuestQ → GuestQ) : (s.modGq q f).blocks = s.blocks := rfl
@[simp] theorem State.modGq_mem (s : State) (q : Nat) (f : GuestQ → GuestQ) : (s.modGq q f).mem = s.mem := rfl
@[simp] theorem State.modGq_undef (s : State) (q : Nat) (f : GuestQ → GuestQ) : (s.modGq q f).undef = s.undef := rfl
@[simp] theorem State.modGq_poison (s : State) (q : Nat) (f : GuestQ → GuestQ) : (s.modGq q f).poison = s.poison := rfl
@[simp] theorem State.modGq_dirty (s : State) (q : Nat) (f : GuestQ → GuestQ) : (s.modGq q f).dirty = s.dirty := rfl
@[simp] theorem State.modGq_sinter (s : State) (q : Nat) (f : GuestQ → GuestQ) : (s.modGq q f).sinter = s.sinter := rfl
@[simp] theorem State.modGq_hidden (s : State) (q : Nat) (f : GuestQ → GuestQ) : (s.modGq q f).hidden = s.hidden := rfl
@[simp] theorem State.modGq_hostMem (s : State) (q : Nat) (f : GuestQ → GuestQ) : (s.modGq q f).hostMem = s.hostMem := rfl
@[simp] theorem State.modGq_hostPois (s : State) (q : Nat) (f : GuestQ → GuestQ) : (s.modGq q f).hostPois = s.hostPois := rfl
@[simp] theorem State.modGq_hostHidden (s : State) (q : Nat) (f : GuestQ → GuestQ) : (s.modGq q f).hostHidden = s.hostHidden := rfl
@[simp] theorem State.modGq_writes (s : State) (q : Nat) (f : GuestQ → GuestQ) : (s.modGq q f).writes = s.writes := rfl
@[simp] theorem State.modGq_lineW (s : State) (q : Nat) (f : GuestQ → GuestQ) : (s.modGq q f).lineW = s.lineW := rfl
@[simp] theorem State.modGq_hostLineW (s : State) (q : Nat) (f : GuestQ → GuestQ) : (s.modGq q f).hostLineW = s.hostLineW := rfl
@[simp] theorem State.modGq_homeQ (s : State) (q : Nat) (f : GuestQ → GuestQ) : (s.modGq q f).homeQ = s.homeQ := rfl
@[simp] theorem State.modGq_tlb (s : State) (q : Nat) (f : GuestQ → GuestQ) : (s.modGq q f).tlb = s.tlb := rfl
@[simp] theorem State.modGq_wcache (s : State) (q : Nat) (f : GuestQ → GuestQ) : (s.modGq q f).wcache = s.wcache := rfl
@[simp] theorem State.modGq_walks (s : State) (q : Nat) (f : GuestQ → GuestQ) : (s.modGq q f).walks = s.walks := rfl
@[simp] theorem State.modGq_misses (s : State) (q : Nat) (f : GuestQ → GuestQ) : (s.modGq q f).misses = s.misses := rfl
@[simp] theorem State.modGq_ats (s : State) (q : Nat) (f : GuestQ → GuestQ) : (s.modGq q f).ats = s.ats := rfl
@[simp] theorem State.modGq_atsCache (s : State) (q : Nat) (f : GuestQ → GuestQ) : (s.modGq q f).atsCache = s.atsCache := rfl
@[simp] theorem State.modGq_merges (s : State) (q : Nat) (f : GuestQ → GuestQ) : (s.modGq q f).merges = s.merges := rfl
@[simp] theorem State.modGq_swap (s : State) (q : Nat) (f : GuestQ → GuestQ) : (s.modGq q f).swap = s.swap := rfl
@[simp] theorem State.modGq_tables (s : State) (q : Nat) (f : GuestQ → GuestQ) : (s.modGq q f).tables = s.tables := rfl

@[simp] theorem State.modHealth_schedule (s : State) (f : Health → Health) : (s.modHealth f).schedule = s.schedule := rfl
@[simp] theorem State.modHealth_subj (s : State) (f : Health → Health) : (s.modHealth f).subj = s.subj := rfl
@[simp] theorem State.modHealth_cur (s : State) (f : Health → Health) : (s.modHealth f).cur = s.cur := rfl
@[simp] theorem State.modHealth_fresh (s : State) (f : Health → Health) : (s.modHealth f).fresh = s.fresh := rfl
@[simp] theorem State.modHealth_arrival (s : State) (f : Health → Health) : (s.modHealth f).arrival = s.arrival := rfl
@[simp] theorem State.modHealth_tick (s : State) (f : Health → Health) : (s.modHealth f).tick = s.tick := rfl
@[simp] theorem State.modHealth_cycles (s : State) (f : Health → Health) : (s.modHealth f).cycles = s.cycles := rfl
@[simp] theorem State.modHealth_fuse (s : State) (f : Health → Health) : (s.modHealth f).fuse = s.fuse := rfl
@[simp] theorem State.modHealth_dev (s : State) (f : Health → Health) : (s.modHealth f).dev = s.dev := rfl
@[simp] theorem State.modHealth_ret (s : State) (f : Health → Health) : (s.modHealth f).ret = s.ret := rfl
@[simp] theorem State.modHealth_link (s : State) (f : Health → Health) : (s.modHealth f).link = s.link := rfl
@[simp] theorem State.modHealth_adit (s : State) (f : Health → Health) : (s.modHealth f).adit = s.adit := rfl
@[simp] theorem State.modHealth_ctxs (s : State) (f : Health → Health) : (s.modHealth f).ctxs = s.ctxs := rfl
@[simp] theorem State.modHealth_dist (s : State) (f : Health → Health) : (s.modHealth f).dist = s.dist := rfl
@[simp] theorem State.modHealth_sites (s : State) (f : Health → Health) : (s.modHealth f).sites = s.sites := rfl
@[simp] theorem State.modHealth_lcs (s : State) (f : Health → Health) : (s.modHealth f).lcs = s.lcs := rfl
@[simp] theorem State.modHealth_crews (s : State) (f : Health → Health) : (s.modHealth f).crews = s.crews := rfl
@[simp] theorem State.modHealth_grids (s : State) (f : Health → Health) : (s.modHealth f).grids = s.grids := rfl
@[simp] theorem State.modHealth_blocks (s : State) (f : Health → Health) : (s.modHealth f).blocks = s.blocks := rfl
@[simp] theorem State.modHealth_mem (s : State) (f : Health → Health) : (s.modHealth f).mem = s.mem := rfl
@[simp] theorem State.modHealth_undef (s : State) (f : Health → Health) : (s.modHealth f).undef = s.undef := rfl
@[simp] theorem State.modHealth_poison (s : State) (f : Health → Health) : (s.modHealth f).poison = s.poison := rfl
@[simp] theorem State.modHealth_dirty (s : State) (f : Health → Health) : (s.modHealth f).dirty = s.dirty := rfl
@[simp] theorem State.modHealth_sinter (s : State) (f : Health → Health) : (s.modHealth f).sinter = s.sinter := rfl
@[simp] theorem State.modHealth_hidden (s : State) (f : Health → Health) : (s.modHealth f).hidden = s.hidden := rfl
@[simp] theorem State.modHealth_hostMem (s : State) (f : Health → Health) : (s.modHealth f).hostMem = s.hostMem := rfl
@[simp] theorem State.modHealth_hostPois (s : State) (f : Health → Health) : (s.modHealth f).hostPois = s.hostPois := rfl
@[simp] theorem State.modHealth_hostHidden (s : State) (f : Health → Health) : (s.modHealth f).hostHidden = s.hostHidden := rfl
@[simp] theorem State.modHealth_writes (s : State) (f : Health → Health) : (s.modHealth f).writes = s.writes := rfl
@[simp] theorem State.modHealth_lineW (s : State) (f : Health → Health) : (s.modHealth f).lineW = s.lineW := rfl
@[simp] theorem State.modHealth_hostLineW (s : State) (f : Health → Health) : (s.modHealth f).hostLineW = s.hostLineW := rfl
@[simp] theorem State.modHealth_homeQ (s : State) (f : Health → Health) : (s.modHealth f).homeQ = s.homeQ := rfl
@[simp] theorem State.modHealth_tlb (s : State) (f : Health → Health) : (s.modHealth f).tlb = s.tlb := rfl
@[simp] theorem State.modHealth_wcache (s : State) (f : Health → Health) : (s.modHealth f).wcache = s.wcache := rfl
@[simp] theorem State.modHealth_walks (s : State) (f : Health → Health) : (s.modHealth f).walks = s.walks := rfl
@[simp] theorem State.modHealth_misses (s : State) (f : Health → Health) : (s.modHealth f).misses = s.misses := rfl
@[simp] theorem State.modHealth_ats (s : State) (f : Health → Health) : (s.modHealth f).ats = s.ats := rfl
@[simp] theorem State.modHealth_atsCache (s : State) (f : Health → Health) : (s.modHealth f).atsCache = s.atsCache := rfl
@[simp] theorem State.modHealth_merges (s : State) (f : Health → Health) : (s.modHealth f).merges = s.merges := rfl
@[simp] theorem State.modHealth_swap (s : State) (f : Health → Health) : (s.modHealth f).swap = s.swap := rfl
@[simp] theorem State.modHealth_tables (s : State) (f : Health → Health) : (s.modHealth f).tables = s.tables := rfl

@[simp] theorem State.modLink_schedule (s : State) (f : Link → Link) : (s.modLink f).schedule = s.schedule := rfl
@[simp] theorem State.modLink_subj (s : State) (f : Link → Link) : (s.modLink f).subj = s.subj := rfl
@[simp] theorem State.modLink_cur (s : State) (f : Link → Link) : (s.modLink f).cur = s.cur := rfl
@[simp] theorem State.modLink_fresh (s : State) (f : Link → Link) : (s.modLink f).fresh = s.fresh := rfl
@[simp] theorem State.modLink_arrival (s : State) (f : Link → Link) : (s.modLink f).arrival = s.arrival := rfl
@[simp] theorem State.modLink_tick (s : State) (f : Link → Link) : (s.modLink f).tick = s.tick := rfl
@[simp] theorem State.modLink_cycles (s : State) (f : Link → Link) : (s.modLink f).cycles = s.cycles := rfl
@[simp] theorem State.modLink_fuse (s : State) (f : Link → Link) : (s.modLink f).fuse = s.fuse := rfl
@[simp] theorem State.modLink_dev (s : State) (f : Link → Link) : (s.modLink f).dev = s.dev := rfl
@[simp] theorem State.modLink_ret (s : State) (f : Link → Link) : (s.modLink f).ret = s.ret := rfl
@[simp] theorem State.modLink_health (s : State) (f : Link → Link) : (s.modLink f).health = s.health := rfl
@[simp] theorem State.modLink_adit (s : State) (f : Link → Link) : (s.modLink f).adit = s.adit := rfl
@[simp] theorem State.modLink_ctxs (s : State) (f : Link → Link) : (s.modLink f).ctxs = s.ctxs := rfl
@[simp] theorem State.modLink_dist (s : State) (f : Link → Link) : (s.modLink f).dist = s.dist := rfl
@[simp] theorem State.modLink_sites (s : State) (f : Link → Link) : (s.modLink f).sites = s.sites := rfl
@[simp] theorem State.modLink_lcs (s : State) (f : Link → Link) : (s.modLink f).lcs = s.lcs := rfl
@[simp] theorem State.modLink_crews (s : State) (f : Link → Link) : (s.modLink f).crews = s.crews := rfl
@[simp] theorem State.modLink_grids (s : State) (f : Link → Link) : (s.modLink f).grids = s.grids := rfl
@[simp] theorem State.modLink_blocks (s : State) (f : Link → Link) : (s.modLink f).blocks = s.blocks := rfl
@[simp] theorem State.modLink_mem (s : State) (f : Link → Link) : (s.modLink f).mem = s.mem := rfl
@[simp] theorem State.modLink_undef (s : State) (f : Link → Link) : (s.modLink f).undef = s.undef := rfl
@[simp] theorem State.modLink_poison (s : State) (f : Link → Link) : (s.modLink f).poison = s.poison := rfl
@[simp] theorem State.modLink_dirty (s : State) (f : Link → Link) : (s.modLink f).dirty = s.dirty := rfl
@[simp] theorem State.modLink_sinter (s : State) (f : Link → Link) : (s.modLink f).sinter = s.sinter := rfl
@[simp] theorem State.modLink_hidden (s : State) (f : Link → Link) : (s.modLink f).hidden = s.hidden := rfl
@[simp] theorem State.modLink_hostMem (s : State) (f : Link → Link) : (s.modLink f).hostMem = s.hostMem := rfl
@[simp] theorem State.modLink_hostPois (s : State) (f : Link → Link) : (s.modLink f).hostPois = s.hostPois := rfl
@[simp] theorem State.modLink_hostHidden (s : State) (f : Link → Link) : (s.modLink f).hostHidden = s.hostHidden := rfl
@[simp] theorem State.modLink_writes (s : State) (f : Link → Link) : (s.modLink f).writes = s.writes := rfl
@[simp] theorem State.modLink_lineW (s : State) (f : Link → Link) : (s.modLink f).lineW = s.lineW := rfl
@[simp] theorem State.modLink_hostLineW (s : State) (f : Link → Link) : (s.modLink f).hostLineW = s.hostLineW := rfl
@[simp] theorem State.modLink_homeQ (s : State) (f : Link → Link) : (s.modLink f).homeQ = s.homeQ := rfl
@[simp] theorem State.modLink_tlb (s : State) (f : Link → Link) : (s.modLink f).tlb = s.tlb := rfl
@[simp] theorem State.modLink_wcache (s : State) (f : Link → Link) : (s.modLink f).wcache = s.wcache := rfl
@[simp] theorem State.modLink_walks (s : State) (f : Link → Link) : (s.modLink f).walks = s.walks := rfl
@[simp] theorem State.modLink_misses (s : State) (f : Link → Link) : (s.modLink f).misses = s.misses := rfl
@[simp] theorem State.modLink_ats (s : State) (f : Link → Link) : (s.modLink f).ats = s.ats := rfl
@[simp] theorem State.modLink_atsCache (s : State) (f : Link → Link) : (s.modLink f).atsCache = s.atsCache := rfl
@[simp] theorem State.modLink_merges (s : State) (f : Link → Link) : (s.modLink f).merges = s.merges := rfl
@[simp] theorem State.modLink_swap (s : State) (f : Link → Link) : (s.modLink f).swap = s.swap := rfl
@[simp] theorem State.modLink_tables (s : State) (f : Link → Link) : (s.modLink f).tables = s.tables := rfl

@[simp] theorem State.raiseFlags_schedule (s : State) (p : Pulse) (fl : BitVec 4) : (s.raiseFlags p fl).schedule = s.schedule := rfl
@[simp] theorem State.raiseFlags_subj (s : State) (p : Pulse) (fl : BitVec 4) : (s.raiseFlags p fl).subj = s.subj := rfl
@[simp] theorem State.raiseFlags_fresh (s : State) (p : Pulse) (fl : BitVec 4) : (s.raiseFlags p fl).fresh = s.fresh := rfl
@[simp] theorem State.raiseFlags_arrival (s : State) (p : Pulse) (fl : BitVec 4) : (s.raiseFlags p fl).arrival = s.arrival := rfl
@[simp] theorem State.raiseFlags_tick (s : State) (p : Pulse) (fl : BitVec 4) : (s.raiseFlags p fl).tick = s.tick := rfl
@[simp] theorem State.raiseFlags_cycles (s : State) (p : Pulse) (fl : BitVec 4) : (s.raiseFlags p fl).cycles = s.cycles := rfl
@[simp] theorem State.raiseFlags_fuse (s : State) (p : Pulse) (fl : BitVec 4) : (s.raiseFlags p fl).fuse = s.fuse := rfl
@[simp] theorem State.raiseFlags_dev (s : State) (p : Pulse) (fl : BitVec 4) : (s.raiseFlags p fl).dev = s.dev := rfl
@[simp] theorem State.raiseFlags_ret (s : State) (p : Pulse) (fl : BitVec 4) : (s.raiseFlags p fl).ret = s.ret := rfl
@[simp] theorem State.raiseFlags_health (s : State) (p : Pulse) (fl : BitVec 4) : (s.raiseFlags p fl).health = s.health := rfl
@[simp] theorem State.raiseFlags_link (s : State) (p : Pulse) (fl : BitVec 4) : (s.raiseFlags p fl).link = s.link := rfl
@[simp] theorem State.raiseFlags_adit (s : State) (p : Pulse) (fl : BitVec 4) : (s.raiseFlags p fl).adit = s.adit := rfl
@[simp] theorem State.raiseFlags_ctxs (s : State) (p : Pulse) (fl : BitVec 4) : (s.raiseFlags p fl).ctxs = s.ctxs := rfl
@[simp] theorem State.raiseFlags_dist (s : State) (p : Pulse) (fl : BitVec 4) : (s.raiseFlags p fl).dist = s.dist := rfl
@[simp] theorem State.raiseFlags_sites (s : State) (p : Pulse) (fl : BitVec 4) : (s.raiseFlags p fl).sites = s.sites := rfl
@[simp] theorem State.raiseFlags_lcs (s : State) (p : Pulse) (fl : BitVec 4) : (s.raiseFlags p fl).lcs = s.lcs := rfl
@[simp] theorem State.raiseFlags_crews (s : State) (p : Pulse) (fl : BitVec 4) : (s.raiseFlags p fl).crews = s.crews := rfl
@[simp] theorem State.raiseFlags_grids (s : State) (p : Pulse) (fl : BitVec 4) : (s.raiseFlags p fl).grids = s.grids := rfl
@[simp] theorem State.raiseFlags_blocks (s : State) (p : Pulse) (fl : BitVec 4) : (s.raiseFlags p fl).blocks = s.blocks := rfl
@[simp] theorem State.raiseFlags_mem (s : State) (p : Pulse) (fl : BitVec 4) : (s.raiseFlags p fl).mem = s.mem := rfl
@[simp] theorem State.raiseFlags_undef (s : State) (p : Pulse) (fl : BitVec 4) : (s.raiseFlags p fl).undef = s.undef := rfl
@[simp] theorem State.raiseFlags_poison (s : State) (p : Pulse) (fl : BitVec 4) : (s.raiseFlags p fl).poison = s.poison := rfl
@[simp] theorem State.raiseFlags_dirty (s : State) (p : Pulse) (fl : BitVec 4) : (s.raiseFlags p fl).dirty = s.dirty := rfl
@[simp] theorem State.raiseFlags_sinter (s : State) (p : Pulse) (fl : BitVec 4) : (s.raiseFlags p fl).sinter = s.sinter := rfl
@[simp] theorem State.raiseFlags_hidden (s : State) (p : Pulse) (fl : BitVec 4) : (s.raiseFlags p fl).hidden = s.hidden := rfl
@[simp] theorem State.raiseFlags_hostMem (s : State) (p : Pulse) (fl : BitVec 4) : (s.raiseFlags p fl).hostMem = s.hostMem := rfl
@[simp] theorem State.raiseFlags_hostPois (s : State) (p : Pulse) (fl : BitVec 4) : (s.raiseFlags p fl).hostPois = s.hostPois := rfl
@[simp] theorem State.raiseFlags_hostHidden (s : State) (p : Pulse) (fl : BitVec 4) : (s.raiseFlags p fl).hostHidden = s.hostHidden := rfl
@[simp] theorem State.raiseFlags_writes (s : State) (p : Pulse) (fl : BitVec 4) : (s.raiseFlags p fl).writes = s.writes := rfl
@[simp] theorem State.raiseFlags_lineW (s : State) (p : Pulse) (fl : BitVec 4) : (s.raiseFlags p fl).lineW = s.lineW := rfl
@[simp] theorem State.raiseFlags_hostLineW (s : State) (p : Pulse) (fl : BitVec 4) : (s.raiseFlags p fl).hostLineW = s.hostLineW := rfl
@[simp] theorem State.raiseFlags_homeQ (s : State) (p : Pulse) (fl : BitVec 4) : (s.raiseFlags p fl).homeQ = s.homeQ := rfl
@[simp] theorem State.raiseFlags_tlb (s : State) (p : Pulse) (fl : BitVec 4) : (s.raiseFlags p fl).tlb = s.tlb := rfl
@[simp] theorem State.raiseFlags_wcache (s : State) (p : Pulse) (fl : BitVec 4) : (s.raiseFlags p fl).wcache = s.wcache := rfl
@[simp] theorem State.raiseFlags_walks (s : State) (p : Pulse) (fl : BitVec 4) : (s.raiseFlags p fl).walks = s.walks := rfl
@[simp] theorem State.raiseFlags_misses (s : State) (p : Pulse) (fl : BitVec 4) : (s.raiseFlags p fl).misses = s.misses := rfl
@[simp] theorem State.raiseFlags_ats (s : State) (p : Pulse) (fl : BitVec 4) : (s.raiseFlags p fl).ats = s.ats := rfl
@[simp] theorem State.raiseFlags_atsCache (s : State) (p : Pulse) (fl : BitVec 4) : (s.raiseFlags p fl).atsCache = s.atsCache := rfl
@[simp] theorem State.raiseFlags_merges (s : State) (p : Pulse) (fl : BitVec 4) : (s.raiseFlags p fl).merges = s.merges := rfl
@[simp] theorem State.raiseFlags_swap (s : State) (p : Pulse) (fl : BitVec 4) : (s.raiseFlags p fl).swap = s.swap := rfl
@[simp] theorem State.raiseFlags_tables (s : State) (p : Pulse) (fl : BitVec 4) : (s.raiseFlags p fl).tables = s.tables := rfl

@[simp] theorem State.holdAt_schedule (s : State) (p : Pulse) (c : HoldCond) : (s.holdAt p c).schedule = s.schedule := rfl
@[simp] theorem State.holdAt_subj (s : State) (p : Pulse) (c : HoldCond) : (s.holdAt p c).subj = s.subj := rfl
@[simp] theorem State.holdAt_fresh (s : State) (p : Pulse) (c : HoldCond) : (s.holdAt p c).fresh = s.fresh := rfl
@[simp] theorem State.holdAt_arrival (s : State) (p : Pulse) (c : HoldCond) : (s.holdAt p c).arrival = s.arrival := rfl
@[simp] theorem State.holdAt_tick (s : State) (p : Pulse) (c : HoldCond) : (s.holdAt p c).tick = s.tick := rfl
@[simp] theorem State.holdAt_cycles (s : State) (p : Pulse) (c : HoldCond) : (s.holdAt p c).cycles = s.cycles := rfl
@[simp] theorem State.holdAt_fuse (s : State) (p : Pulse) (c : HoldCond) : (s.holdAt p c).fuse = s.fuse := rfl
@[simp] theorem State.holdAt_dev (s : State) (p : Pulse) (c : HoldCond) : (s.holdAt p c).dev = s.dev := rfl
@[simp] theorem State.holdAt_ret (s : State) (p : Pulse) (c : HoldCond) : (s.holdAt p c).ret = s.ret := rfl
@[simp] theorem State.holdAt_health (s : State) (p : Pulse) (c : HoldCond) : (s.holdAt p c).health = s.health := rfl
@[simp] theorem State.holdAt_link (s : State) (p : Pulse) (c : HoldCond) : (s.holdAt p c).link = s.link := rfl
@[simp] theorem State.holdAt_adit (s : State) (p : Pulse) (c : HoldCond) : (s.holdAt p c).adit = s.adit := rfl
@[simp] theorem State.holdAt_ctxs (s : State) (p : Pulse) (c : HoldCond) : (s.holdAt p c).ctxs = s.ctxs := rfl
@[simp] theorem State.holdAt_dist (s : State) (p : Pulse) (c : HoldCond) : (s.holdAt p c).dist = s.dist := rfl
@[simp] theorem State.holdAt_sites (s : State) (p : Pulse) (c : HoldCond) : (s.holdAt p c).sites = s.sites := rfl
@[simp] theorem State.holdAt_lcs (s : State) (p : Pulse) (c : HoldCond) : (s.holdAt p c).lcs = s.lcs := rfl
@[simp] theorem State.holdAt_crews (s : State) (p : Pulse) (c : HoldCond) : (s.holdAt p c).crews = s.crews := rfl
@[simp] theorem State.holdAt_grids (s : State) (p : Pulse) (c : HoldCond) : (s.holdAt p c).grids = s.grids := rfl
@[simp] theorem State.holdAt_blocks (s : State) (p : Pulse) (c : HoldCond) : (s.holdAt p c).blocks = s.blocks := rfl
@[simp] theorem State.holdAt_mem (s : State) (p : Pulse) (c : HoldCond) : (s.holdAt p c).mem = s.mem := rfl
@[simp] theorem State.holdAt_undef (s : State) (p : Pulse) (c : HoldCond) : (s.holdAt p c).undef = s.undef := rfl
@[simp] theorem State.holdAt_poison (s : State) (p : Pulse) (c : HoldCond) : (s.holdAt p c).poison = s.poison := rfl
@[simp] theorem State.holdAt_dirty (s : State) (p : Pulse) (c : HoldCond) : (s.holdAt p c).dirty = s.dirty := rfl
@[simp] theorem State.holdAt_sinter (s : State) (p : Pulse) (c : HoldCond) : (s.holdAt p c).sinter = s.sinter := rfl
@[simp] theorem State.holdAt_hidden (s : State) (p : Pulse) (c : HoldCond) : (s.holdAt p c).hidden = s.hidden := rfl
@[simp] theorem State.holdAt_hostMem (s : State) (p : Pulse) (c : HoldCond) : (s.holdAt p c).hostMem = s.hostMem := rfl
@[simp] theorem State.holdAt_hostPois (s : State) (p : Pulse) (c : HoldCond) : (s.holdAt p c).hostPois = s.hostPois := rfl
@[simp] theorem State.holdAt_hostHidden (s : State) (p : Pulse) (c : HoldCond) : (s.holdAt p c).hostHidden = s.hostHidden := rfl
@[simp] theorem State.holdAt_writes (s : State) (p : Pulse) (c : HoldCond) : (s.holdAt p c).writes = s.writes := rfl
@[simp] theorem State.holdAt_lineW (s : State) (p : Pulse) (c : HoldCond) : (s.holdAt p c).lineW = s.lineW := rfl
@[simp] theorem State.holdAt_hostLineW (s : State) (p : Pulse) (c : HoldCond) : (s.holdAt p c).hostLineW = s.hostLineW := rfl
@[simp] theorem State.holdAt_homeQ (s : State) (p : Pulse) (c : HoldCond) : (s.holdAt p c).homeQ = s.homeQ := rfl
@[simp] theorem State.holdAt_tlb (s : State) (p : Pulse) (c : HoldCond) : (s.holdAt p c).tlb = s.tlb := rfl
@[simp] theorem State.holdAt_wcache (s : State) (p : Pulse) (c : HoldCond) : (s.holdAt p c).wcache = s.wcache := rfl
@[simp] theorem State.holdAt_walks (s : State) (p : Pulse) (c : HoldCond) : (s.holdAt p c).walks = s.walks := rfl
@[simp] theorem State.holdAt_misses (s : State) (p : Pulse) (c : HoldCond) : (s.holdAt p c).misses = s.misses := rfl
@[simp] theorem State.holdAt_ats (s : State) (p : Pulse) (c : HoldCond) : (s.holdAt p c).ats = s.ats := rfl
@[simp] theorem State.holdAt_atsCache (s : State) (p : Pulse) (c : HoldCond) : (s.holdAt p c).atsCache = s.atsCache := rfl
@[simp] theorem State.holdAt_merges (s : State) (p : Pulse) (c : HoldCond) : (s.holdAt p c).merges = s.merges := rfl
@[simp] theorem State.holdAt_swap (s : State) (p : Pulse) (c : HoldCond) : (s.holdAt p c).swap = s.swap := rfl
@[simp] theorem State.holdAt_tables (s : State) (p : Pulse) (c : HoldCond) : (s.holdAt p c).tables = s.tables := rfl

@[simp] theorem State.transfer_schedule (s : State) (p : Pulse) (ts : List (Nat × DWord)) : (s.transfer p ts).schedule = s.schedule := rfl
@[simp] theorem State.transfer_subj (s : State) (p : Pulse) (ts : List (Nat × DWord)) : (s.transfer p ts).subj = s.subj := rfl
@[simp] theorem State.transfer_fresh (s : State) (p : Pulse) (ts : List (Nat × DWord)) : (s.transfer p ts).fresh = s.fresh := rfl
@[simp] theorem State.transfer_arrival (s : State) (p : Pulse) (ts : List (Nat × DWord)) : (s.transfer p ts).arrival = s.arrival := rfl
@[simp] theorem State.transfer_tick (s : State) (p : Pulse) (ts : List (Nat × DWord)) : (s.transfer p ts).tick = s.tick := rfl
@[simp] theorem State.transfer_cycles (s : State) (p : Pulse) (ts : List (Nat × DWord)) : (s.transfer p ts).cycles = s.cycles := rfl
@[simp] theorem State.transfer_fuse (s : State) (p : Pulse) (ts : List (Nat × DWord)) : (s.transfer p ts).fuse = s.fuse := rfl
@[simp] theorem State.transfer_dev (s : State) (p : Pulse) (ts : List (Nat × DWord)) : (s.transfer p ts).dev = s.dev := rfl
@[simp] theorem State.transfer_ret (s : State) (p : Pulse) (ts : List (Nat × DWord)) : (s.transfer p ts).ret = s.ret := rfl
@[simp] theorem State.transfer_health (s : State) (p : Pulse) (ts : List (Nat × DWord)) : (s.transfer p ts).health = s.health := rfl
@[simp] theorem State.transfer_link (s : State) (p : Pulse) (ts : List (Nat × DWord)) : (s.transfer p ts).link = s.link := rfl
@[simp] theorem State.transfer_adit (s : State) (p : Pulse) (ts : List (Nat × DWord)) : (s.transfer p ts).adit = s.adit := rfl
@[simp] theorem State.transfer_ctxs (s : State) (p : Pulse) (ts : List (Nat × DWord)) : (s.transfer p ts).ctxs = s.ctxs := rfl
@[simp] theorem State.transfer_dist (s : State) (p : Pulse) (ts : List (Nat × DWord)) : (s.transfer p ts).dist = s.dist := rfl
@[simp] theorem State.transfer_sites (s : State) (p : Pulse) (ts : List (Nat × DWord)) : (s.transfer p ts).sites = s.sites := rfl
@[simp] theorem State.transfer_lcs (s : State) (p : Pulse) (ts : List (Nat × DWord)) : (s.transfer p ts).lcs = s.lcs := rfl
@[simp] theorem State.transfer_crews (s : State) (p : Pulse) (ts : List (Nat × DWord)) : (s.transfer p ts).crews = s.crews := rfl
@[simp] theorem State.transfer_grids (s : State) (p : Pulse) (ts : List (Nat × DWord)) : (s.transfer p ts).grids = s.grids := rfl
@[simp] theorem State.transfer_blocks (s : State) (p : Pulse) (ts : List (Nat × DWord)) : (s.transfer p ts).blocks = s.blocks := rfl
@[simp] theorem State.transfer_mem (s : State) (p : Pulse) (ts : List (Nat × DWord)) : (s.transfer p ts).mem = s.mem := rfl
@[simp] theorem State.transfer_undef (s : State) (p : Pulse) (ts : List (Nat × DWord)) : (s.transfer p ts).undef = s.undef := rfl
@[simp] theorem State.transfer_poison (s : State) (p : Pulse) (ts : List (Nat × DWord)) : (s.transfer p ts).poison = s.poison := rfl
@[simp] theorem State.transfer_dirty (s : State) (p : Pulse) (ts : List (Nat × DWord)) : (s.transfer p ts).dirty = s.dirty := rfl
@[simp] theorem State.transfer_sinter (s : State) (p : Pulse) (ts : List (Nat × DWord)) : (s.transfer p ts).sinter = s.sinter := rfl
@[simp] theorem State.transfer_hidden (s : State) (p : Pulse) (ts : List (Nat × DWord)) : (s.transfer p ts).hidden = s.hidden := rfl
@[simp] theorem State.transfer_hostMem (s : State) (p : Pulse) (ts : List (Nat × DWord)) : (s.transfer p ts).hostMem = s.hostMem := rfl
@[simp] theorem State.transfer_hostPois (s : State) (p : Pulse) (ts : List (Nat × DWord)) : (s.transfer p ts).hostPois = s.hostPois := rfl
@[simp] theorem State.transfer_hostHidden (s : State) (p : Pulse) (ts : List (Nat × DWord)) : (s.transfer p ts).hostHidden = s.hostHidden := rfl
@[simp] theorem State.transfer_writes (s : State) (p : Pulse) (ts : List (Nat × DWord)) : (s.transfer p ts).writes = s.writes := rfl
@[simp] theorem State.transfer_lineW (s : State) (p : Pulse) (ts : List (Nat × DWord)) : (s.transfer p ts).lineW = s.lineW := rfl
@[simp] theorem State.transfer_hostLineW (s : State) (p : Pulse) (ts : List (Nat × DWord)) : (s.transfer p ts).hostLineW = s.hostLineW := rfl
@[simp] theorem State.transfer_homeQ (s : State) (p : Pulse) (ts : List (Nat × DWord)) : (s.transfer p ts).homeQ = s.homeQ := rfl
@[simp] theorem State.transfer_tlb (s : State) (p : Pulse) (ts : List (Nat × DWord)) : (s.transfer p ts).tlb = s.tlb := rfl
@[simp] theorem State.transfer_wcache (s : State) (p : Pulse) (ts : List (Nat × DWord)) : (s.transfer p ts).wcache = s.wcache := rfl
@[simp] theorem State.transfer_walks (s : State) (p : Pulse) (ts : List (Nat × DWord)) : (s.transfer p ts).walks = s.walks := rfl
@[simp] theorem State.transfer_misses (s : State) (p : Pulse) (ts : List (Nat × DWord)) : (s.transfer p ts).misses = s.misses := rfl
@[simp] theorem State.transfer_ats (s : State) (p : Pulse) (ts : List (Nat × DWord)) : (s.transfer p ts).ats = s.ats := rfl
@[simp] theorem State.transfer_atsCache (s : State) (p : Pulse) (ts : List (Nat × DWord)) : (s.transfer p ts).atsCache = s.atsCache := rfl
@[simp] theorem State.transfer_merges (s : State) (p : Pulse) (ts : List (Nat × DWord)) : (s.transfer p ts).merges = s.merges := rfl
@[simp] theorem State.transfer_swap (s : State) (p : Pulse) (ts : List (Nat × DWord)) : (s.transfer p ts).swap = s.swap := rfl
@[simp] theorem State.transfer_tables (s : State) (p : Pulse) (ts : List (Nat × DWord)) : (s.transfer p ts).tables = s.tables := rfl

@[simp] theorem State.raiseFlags_cur (s : State) (p : Pulse) (fl : BitVec 4) :
    (s.raiseFlags p fl).cur = some { p with flags := p.flags ||| fl } := rfl
@[simp] theorem State.holdAt_cur (s : State) (p : Pulse) (c : HoldCond) :
    (s.holdAt p c).cur = some { p with hold := some c } := rfl

@[simp] theorem State.sendMsix_schedule (s : State) (v : Nat) : (s.sendMsix v).schedule = s.schedule := by unfold State.sendMsix; split <;> rfl
@[simp] theorem State.sendMsix_subj (s : State) (v : Nat) : (s.sendMsix v).subj = s.subj := by unfold State.sendMsix; split <;> rfl
@[simp] theorem State.sendMsix_cur (s : State) (v : Nat) : (s.sendMsix v).cur = s.cur := by unfold State.sendMsix; split <;> rfl
@[simp] theorem State.sendMsix_fresh (s : State) (v : Nat) : (s.sendMsix v).fresh = s.fresh := by unfold State.sendMsix; split <;> rfl
@[simp] theorem State.sendMsix_arrival (s : State) (v : Nat) : (s.sendMsix v).arrival = s.arrival := by unfold State.sendMsix; split <;> rfl
@[simp] theorem State.sendMsix_tick (s : State) (v : Nat) : (s.sendMsix v).tick = s.tick := by unfold State.sendMsix; split <;> rfl
@[simp] theorem State.sendMsix_cycles (s : State) (v : Nat) : (s.sendMsix v).cycles = s.cycles := by unfold State.sendMsix; split <;> rfl
@[simp] theorem State.sendMsix_fuse (s : State) (v : Nat) : (s.sendMsix v).fuse = s.fuse := by unfold State.sendMsix; split <;> rfl
@[simp] theorem State.sendMsix_ret (s : State) (v : Nat) : (s.sendMsix v).ret = s.ret := by unfold State.sendMsix; split <;> rfl
@[simp] theorem State.sendMsix_health (s : State) (v : Nat) : (s.sendMsix v).health = s.health := by unfold State.sendMsix; split <;> rfl
@[simp] theorem State.sendMsix_link (s : State) (v : Nat) : (s.sendMsix v).link = s.link := by unfold State.sendMsix; split <;> rfl
@[simp] theorem State.sendMsix_adit (s : State) (v : Nat) : (s.sendMsix v).adit = s.adit := by unfold State.sendMsix; split <;> rfl
@[simp] theorem State.sendMsix_ctxs (s : State) (v : Nat) : (s.sendMsix v).ctxs = s.ctxs := by unfold State.sendMsix; split <;> rfl
@[simp] theorem State.sendMsix_dist (s : State) (v : Nat) : (s.sendMsix v).dist = s.dist := by unfold State.sendMsix; split <;> rfl
@[simp] theorem State.sendMsix_sites (s : State) (v : Nat) : (s.sendMsix v).sites = s.sites := by unfold State.sendMsix; split <;> rfl
@[simp] theorem State.sendMsix_lcs (s : State) (v : Nat) : (s.sendMsix v).lcs = s.lcs := by unfold State.sendMsix; split <;> rfl
@[simp] theorem State.sendMsix_crews (s : State) (v : Nat) : (s.sendMsix v).crews = s.crews := by unfold State.sendMsix; split <;> rfl
@[simp] theorem State.sendMsix_grids (s : State) (v : Nat) : (s.sendMsix v).grids = s.grids := by unfold State.sendMsix; split <;> rfl
@[simp] theorem State.sendMsix_blocks (s : State) (v : Nat) : (s.sendMsix v).blocks = s.blocks := by unfold State.sendMsix; split <;> rfl
@[simp] theorem State.sendMsix_mem (s : State) (v : Nat) : (s.sendMsix v).mem = s.mem := by unfold State.sendMsix; split <;> rfl
@[simp] theorem State.sendMsix_undef (s : State) (v : Nat) : (s.sendMsix v).undef = s.undef := by unfold State.sendMsix; split <;> rfl
@[simp] theorem State.sendMsix_poison (s : State) (v : Nat) : (s.sendMsix v).poison = s.poison := by unfold State.sendMsix; split <;> rfl
@[simp] theorem State.sendMsix_dirty (s : State) (v : Nat) : (s.sendMsix v).dirty = s.dirty := by unfold State.sendMsix; split <;> rfl
@[simp] theorem State.sendMsix_sinter (s : State) (v : Nat) : (s.sendMsix v).sinter = s.sinter := by unfold State.sendMsix; split <;> rfl
@[simp] theorem State.sendMsix_hidden (s : State) (v : Nat) : (s.sendMsix v).hidden = s.hidden := by unfold State.sendMsix; split <;> rfl
@[simp] theorem State.sendMsix_hostMem (s : State) (v : Nat) : (s.sendMsix v).hostMem = s.hostMem := by unfold State.sendMsix; split <;> rfl
@[simp] theorem State.sendMsix_hostPois (s : State) (v : Nat) : (s.sendMsix v).hostPois = s.hostPois := by unfold State.sendMsix; split <;> rfl
@[simp] theorem State.sendMsix_hostHidden (s : State) (v : Nat) : (s.sendMsix v).hostHidden = s.hostHidden := by unfold State.sendMsix; split <;> rfl
@[simp] theorem State.sendMsix_writes (s : State) (v : Nat) : (s.sendMsix v).writes = s.writes := by unfold State.sendMsix; split <;> rfl
@[simp] theorem State.sendMsix_lineW (s : State) (v : Nat) : (s.sendMsix v).lineW = s.lineW := by unfold State.sendMsix; split <;> rfl
@[simp] theorem State.sendMsix_hostLineW (s : State) (v : Nat) : (s.sendMsix v).hostLineW = s.hostLineW := by unfold State.sendMsix; split <;> rfl
@[simp] theorem State.sendMsix_homeQ (s : State) (v : Nat) : (s.sendMsix v).homeQ = s.homeQ := by unfold State.sendMsix; split <;> rfl
@[simp] theorem State.sendMsix_tlb (s : State) (v : Nat) : (s.sendMsix v).tlb = s.tlb := by unfold State.sendMsix; split <;> rfl
@[simp] theorem State.sendMsix_wcache (s : State) (v : Nat) : (s.sendMsix v).wcache = s.wcache := by unfold State.sendMsix; split <;> rfl
@[simp] theorem State.sendMsix_walks (s : State) (v : Nat) : (s.sendMsix v).walks = s.walks := by unfold State.sendMsix; split <;> rfl
@[simp] theorem State.sendMsix_misses (s : State) (v : Nat) : (s.sendMsix v).misses = s.misses := by unfold State.sendMsix; split <;> rfl
@[simp] theorem State.sendMsix_ats (s : State) (v : Nat) : (s.sendMsix v).ats = s.ats := by unfold State.sendMsix; split <;> rfl
@[simp] theorem State.sendMsix_atsCache (s : State) (v : Nat) : (s.sendMsix v).atsCache = s.atsCache := by unfold State.sendMsix; split <;> rfl
@[simp] theorem State.sendMsix_merges (s : State) (v : Nat) : (s.sendMsix v).merges = s.merges := by unfold State.sendMsix; split <;> rfl
@[simp] theorem State.sendMsix_swap (s : State) (v : Nat) : (s.sendMsix v).swap = s.swap := by unfold State.sendMsix; split <;> rfl
@[simp] theorem State.sendMsix_tables (s : State) (v : Nat) : (s.sendMsix v).tables = s.tables := by unfold State.sendMsix; split <;> rfl

@[simp] theorem State.setEvt_schedule (s : State) (i : Nat) : (s.setEvt i).schedule = s.schedule := by unfold State.setEvt; split <;> simp
@[simp] theorem State.setEvt_subj (s : State) (i : Nat) : (s.setEvt i).subj = s.subj := by unfold State.setEvt; split <;> simp
@[simp] theorem State.setEvt_cur (s : State) (i : Nat) : (s.setEvt i).cur = s.cur := by unfold State.setEvt; split <;> simp
@[simp] theorem State.setEvt_fresh (s : State) (i : Nat) : (s.setEvt i).fresh = s.fresh := by unfold State.setEvt; split <;> simp
@[simp] theorem State.setEvt_arrival (s : State) (i : Nat) : (s.setEvt i).arrival = s.arrival := by unfold State.setEvt; split <;> simp
@[simp] theorem State.setEvt_tick (s : State) (i : Nat) : (s.setEvt i).tick = s.tick := by unfold State.setEvt; split <;> simp
@[simp] theorem State.setEvt_cycles (s : State) (i : Nat) : (s.setEvt i).cycles = s.cycles := by unfold State.setEvt; split <;> simp
@[simp] theorem State.setEvt_fuse (s : State) (i : Nat) : (s.setEvt i).fuse = s.fuse := by unfold State.setEvt; split <;> simp
@[simp] theorem State.setEvt_ret (s : State) (i : Nat) : (s.setEvt i).ret = s.ret := by unfold State.setEvt; split <;> simp
@[simp] theorem State.setEvt_health (s : State) (i : Nat) : (s.setEvt i).health = s.health := by unfold State.setEvt; split <;> simp
@[simp] theorem State.setEvt_link (s : State) (i : Nat) : (s.setEvt i).link = s.link := by unfold State.setEvt; split <;> simp
@[simp] theorem State.setEvt_adit (s : State) (i : Nat) : (s.setEvt i).adit = s.adit := by unfold State.setEvt; split <;> simp
@[simp] theorem State.setEvt_ctxs (s : State) (i : Nat) : (s.setEvt i).ctxs = s.ctxs := by unfold State.setEvt; split <;> simp
@[simp] theorem State.setEvt_dist (s : State) (i : Nat) : (s.setEvt i).dist = s.dist := by unfold State.setEvt; split <;> simp
@[simp] theorem State.setEvt_sites (s : State) (i : Nat) : (s.setEvt i).sites = s.sites := by unfold State.setEvt; split <;> simp
@[simp] theorem State.setEvt_lcs (s : State) (i : Nat) : (s.setEvt i).lcs = s.lcs := by unfold State.setEvt; split <;> simp
@[simp] theorem State.setEvt_crews (s : State) (i : Nat) : (s.setEvt i).crews = s.crews := by unfold State.setEvt; split <;> simp
@[simp] theorem State.setEvt_grids (s : State) (i : Nat) : (s.setEvt i).grids = s.grids := by unfold State.setEvt; split <;> simp
@[simp] theorem State.setEvt_blocks (s : State) (i : Nat) : (s.setEvt i).blocks = s.blocks := by unfold State.setEvt; split <;> simp
@[simp] theorem State.setEvt_mem (s : State) (i : Nat) : (s.setEvt i).mem = s.mem := by unfold State.setEvt; split <;> simp
@[simp] theorem State.setEvt_undef (s : State) (i : Nat) : (s.setEvt i).undef = s.undef := by unfold State.setEvt; split <;> simp
@[simp] theorem State.setEvt_poison (s : State) (i : Nat) : (s.setEvt i).poison = s.poison := by unfold State.setEvt; split <;> simp
@[simp] theorem State.setEvt_dirty (s : State) (i : Nat) : (s.setEvt i).dirty = s.dirty := by unfold State.setEvt; split <;> simp
@[simp] theorem State.setEvt_sinter (s : State) (i : Nat) : (s.setEvt i).sinter = s.sinter := by unfold State.setEvt; split <;> simp
@[simp] theorem State.setEvt_hidden (s : State) (i : Nat) : (s.setEvt i).hidden = s.hidden := by unfold State.setEvt; split <;> simp
@[simp] theorem State.setEvt_hostMem (s : State) (i : Nat) : (s.setEvt i).hostMem = s.hostMem := by unfold State.setEvt; split <;> simp
@[simp] theorem State.setEvt_hostPois (s : State) (i : Nat) : (s.setEvt i).hostPois = s.hostPois := by unfold State.setEvt; split <;> simp
@[simp] theorem State.setEvt_hostHidden (s : State) (i : Nat) : (s.setEvt i).hostHidden = s.hostHidden := by unfold State.setEvt; split <;> simp
@[simp] theorem State.setEvt_writes (s : State) (i : Nat) : (s.setEvt i).writes = s.writes := by unfold State.setEvt; split <;> simp
@[simp] theorem State.setEvt_lineW (s : State) (i : Nat) : (s.setEvt i).lineW = s.lineW := by unfold State.setEvt; split <;> simp
@[simp] theorem State.setEvt_hostLineW (s : State) (i : Nat) : (s.setEvt i).hostLineW = s.hostLineW := by unfold State.setEvt; split <;> simp
@[simp] theorem State.setEvt_homeQ (s : State) (i : Nat) : (s.setEvt i).homeQ = s.homeQ := by unfold State.setEvt; split <;> simp
@[simp] theorem State.setEvt_tlb (s : State) (i : Nat) : (s.setEvt i).tlb = s.tlb := by unfold State.setEvt; split <;> simp
@[simp] theorem State.setEvt_wcache (s : State) (i : Nat) : (s.setEvt i).wcache = s.wcache := by unfold State.setEvt; split <;> simp
@[simp] theorem State.setEvt_walks (s : State) (i : Nat) : (s.setEvt i).walks = s.walks := by unfold State.setEvt; split <;> simp
@[simp] theorem State.setEvt_misses (s : State) (i : Nat) : (s.setEvt i).misses = s.misses := by unfold State.setEvt; split <;> simp
@[simp] theorem State.setEvt_ats (s : State) (i : Nat) : (s.setEvt i).ats = s.ats := by unfold State.setEvt; split <;> simp
@[simp] theorem State.setEvt_atsCache (s : State) (i : Nat) : (s.setEvt i).atsCache = s.atsCache := by unfold State.setEvt; split <;> simp
@[simp] theorem State.setEvt_merges (s : State) (i : Nat) : (s.setEvt i).merges = s.merges := by unfold State.setEvt; split <;> simp
@[simp] theorem State.setEvt_swap (s : State) (i : Nat) : (s.setEvt i).swap = s.swap := by unfold State.setEvt; split <;> simp
@[simp] theorem State.setEvt_tables (s : State) (i : Nat) : (s.setEvt i).tables = s.tables := by unfold State.setEvt; split <;> simp

end Sys2Proof.Machine
end

