-- ==== Sys2Proof/Laws/Memory.lean ====
section
/-! SUPPORT. The laws of memory: reading after writing, the canonical form (log entry 2) and the operations that keep it,
and what a write leaves of the bytes, the undefined ranges and the poison (R254). -/

namespace Sys2Proof.Machine

/-! ## The canonical form -/

theorem wfFrom_weaken {α : Type} [DecidableEq α] {d : α} {m : SMap α} {lo : Nat} (h : SMap.wfFrom d (some lo) m = true) :
    SMap.wfFrom d none m = true := by
  cases m with
  | nil => rfl
  | cons e r => obtain ⟨k, x⟩ := e; simp_all [SMap.wfFrom]

theorem wfFrom_lower {α : Type} [DecidableEq α] {d : α} {m : SMap α} {lo lo' : Nat} (hl : lo' ≤ lo)
    (h : SMap.wfFrom d (some lo) m = true) : SMap.wfFrom d (some lo') m = true := by
  cases m with
  | nil => rfl
  | cons e r => obtain ⟨k, x⟩ := e; simp_all [SMap.wfFrom]; omega

theorem sput_wfFrom {α : Type} [DecidableEq α] {d x : α} (hx : x ≠ d) :
    ∀ {m : SMap α} {lo : Option Nat} {k : Nat}, (∀ b, lo = some b → b < k) → SMap.wfFrom d lo m = true →
      SMap.wfFrom d lo (sput m k x) = true := by
  intro m
  induction m with
  | nil => intro lo k hk _; cases lo <;> simp_all [sput, SMap.wfFrom]
  | cons e r ih =>
    intro lo k hk h
    obtain ⟨j, y⟩ := e
    simp only [SMap.wfFrom, Bool.and_eq_true] at h
    simp only [sput]
    split
    · rename_i hkj
      cases lo <;> simp_all [SMap.wfFrom]
    · split
      · rename_i hj; subst hj
        simp only [SMap.wfFrom, Bool.and_eq_true]
        exact ⟨⟨h.1.1, by simp [hx]⟩, h.2⟩
      · simp only [SMap.wfFrom, Bool.and_eq_true]
        exact ⟨h.1, ih (by intro b hb; injection hb with hb; omega) h.2⟩

theorem sdel_wfFrom {α : Type} [DecidableEq α] {d : α} :
    ∀ {m : SMap α} {lo : Option Nat} {k : Nat}, SMap.wfFrom d lo m = true → SMap.wfFrom d lo (sdel m k) = true := by
  intro m
  induction m with
  | nil => intro lo k h; exact h
  | cons e r ih =>
    intro lo k h
    obtain ⟨j, y⟩ := e
    simp only [SMap.wfFrom, Bool.and_eq_true] at h
    simp only [sdel]
    split
    · refine ih ?_
      cases lo with
      | none => exact wfFrom_weaken h.2
      | some b => exact wfFrom_lower (by have := h.1.1; simp at this; omega) h.2
    · simp only [SMap.wfFrom, Bool.and_eq_true]
      exact ⟨h.1, ih h.2⟩

/-- A write keeps the canonical form of a table. -/
theorem sset_wfFrom {α : Type} [DecidableEq α] {d : α} {m : SMap α} (k : Nat) (x : α) (h : SMap.wfFrom d none m = true) :
    SMap.wfFrom d none (sset d m k x) = true := by
  unfold sset
  split
  · exact sdel_wfFrom h
  · exact sput_wfFrom ‹_› (by simp) h

theorem filter_wfFrom {α : Type} [DecidableEq α] {d : α} (q : Nat × α → Bool) :
    ∀ {m : SMap α} {lo : Option Nat}, SMap.wfFrom d lo m = true → SMap.wfFrom d lo (m.filter q) = true := by
  intro m
  induction m with
  | nil => intro lo h; exact h
  | cons e r ih =>
    intro lo h
    obtain ⟨j, y⟩ := e
    simp only [SMap.wfFrom, Bool.and_eq_true] at h
    simp only [List.filter_cons]
    split
    · simp only [SMap.wfFrom, Bool.and_eq_true]
      exact ⟨h.1, ih h.2⟩
    · refine ih ?_
      cases lo with
      | none => exact wfFrom_weaken h.2
      | some b => exact wfFrom_lower (by have := h.1.1; simp at this; omega) h.2

/-- Reading a table of which only some keys are kept. -/
theorem sget_filter {α : Type} (d : α) (q : Nat → Bool) (m : SMap α) (k : Nat) :
    sget d (m.filter fun e => q e.1) k = if q k then sget d m k else d := by
  induction m with
  | nil => simp [sget]
  | cons e r ih =>
    obtain ⟨j, y⟩ := e
    rw [List.filter_cons]
    by_cases h : q j = true
    · simp only [h, if_true, sget]
      by_cases g : j = k
      · subst g; simp [h]
      · rw [if_neg g, if_neg g]; exact ih
    · simp only [h, Bool.false_eq_true, if_false, sget]
      rw [ih]
      by_cases g : j = k
      · subst g; simp [h]
      · rw [if_neg g]

/-- Below its bound a table lists nothing. -/
theorem sget_below {α : Type} [DecidableEq α] {d : α} :
    ∀ {m : SMap α} {b : Nat} (_ : SMap.wfFrom d (some b) m = true) {k : Nat} (_ : k ≤ b), sget d m k = d := by
  intro m
  induction m with
  | nil => intro b _ k _; rfl
  | cons e r ih =>
    intro b h k hk
    obtain ⟨j, y⟩ := e
    simp only [SMap.wfFrom, Bool.and_eq_true, decide_eq_true_eq] at h
    simp only [sget]
    rw [if_neg (by omega)]
    exact ih h.2 (by omega)

/-- Two canonical tables that read alike are equal. -/
theorem wfFrom_ext {α : Type} [DecidableEq α] {d : α} :
    ∀ {m n : SMap α} {lo lo' : Option Nat} (_ : SMap.wfFrom d lo m = true) (_ : SMap.wfFrom d lo' n = true)
      (_ : ∀ k, sget d m k = sget d n k), m = n := by
  intro m
  induction m with
  | nil =>
    intro n lo lo' _ hn h
    cases n with
    | nil => rfl
    | cons e r =>
      obtain ⟨j, y⟩ := e
      have := h j
      simp [SMap.wfFrom] at hn
      simp [sget] at this
      exact absurd this.symm hn.1.2
  | cons e r ih =>
    intro n lo lo' hm hn h
    obtain ⟨j, y⟩ := e
    cases n with
    | nil =>
      have := h j
      simp [SMap.wfFrom] at hm
      simp [sget] at this
      exact absurd this hm.1.2
    | cons e' r' =>
      obtain ⟨i, z⟩ := e'
      simp only [SMap.wfFrom, Bool.and_eq_true, decide_eq_true_eq] at hm hn
      have hij : i = j := by
        rcases Nat.lt_trichotomy i j with g | g | g
        · have := h i
          simp only [sget, if_true] at this
          rw [if_neg (by omega), sget_below hm.2 (by omega)] at this
          exact absurd this.symm hn.1.2
        · exact g
        · have := h j
          simp only [sget, if_true] at this
          rw [if_neg (by omega), sget_below hn.2 (by omega)] at this
          exact absurd this hm.1.2
      subst hij
      have hyz : y = z := by have := h i; simpa [sget] using this
      subst hyz
      have : r = r' := by
        refine ih hm.2 hn.2 ?_
        intro k
        by_cases g : i = k
        · subst g; rw [sget_below hm.2 (by omega), sget_below hn.2 (by omega)]
        · have := h k
          simpa [sget, g] using this
      rw [this]

/-! ## Bytes -/

/-- Reading a byte after a byte was written. -/
theorem Memory.read_write (m : Memory) (a b : Nat) (x : Byte) :
    Memory.read (Memory.write m a x) b = if b = a then x else Memory.read m b := sget_sset 0 m a b x

/-- A written byte keeps the canonical form. -/
theorem Memory.write_wf {m : Memory} (a : Nat) (x : Byte) (h : Memory.wf m = true) : Memory.wf (Memory.write m a x) = true :=
  sset_wfFrom a x h

/-- Written bytes keep the canonical form. -/
theorem Memory.writeN_wf (bs : List Byte) : ∀ {m : Memory} (a : Nat), Memory.wf m = true →
    Memory.wf (Memory.writeN m a bs) = true := by
  induction bs with
  | nil => intro m a h; exact h
  | cons b r ih => intro m a h; exact ih (a + 1) (Memory.write_wf a b h)

/-- Reading a byte after bytes were written. -/
theorem Memory.read_writeN (bs : List Byte) : ∀ (m : Memory) (a x : Nat),
    Memory.read (Memory.writeN m a bs) x = if a ≤ x ∧ x < a + bs.length then bs.getD (x - a) 0 else Memory.read m x := by
  induction bs with
  | nil => intro m a x; simp [Memory.writeN]
  | cons b r ih =>
    intro m a x
    simp only [Memory.writeN, List.length_cons]
    rw [ih, Memory.read_write]
    by_cases h1 : x = a
    · subst h1; simp
    · by_cases h2 : a + 1 ≤ x ∧ x < a + 1 + r.length
      · rw [if_pos h2, if_pos (by omega : a ≤ x ∧ x < a + (r.length + 1))]
        have : x - a = (x - (a + 1)) + 1 := by omega
        rw [this]; simp
      · rw [if_neg h2, if_neg h1, if_neg (by omega)]

/-- Two canonical memories that read alike are equal. -/
theorem Memory.ext {m n : Memory} (hm : Memory.wf m = true) (hn : Memory.wf n = true)
    (h : ∀ a, Memory.read m a = Memory.read n a) : m = n := wfFrom_ext hm hn h

/-! ## Folds -/

/-- What every step of a fold keeps, the fold keeps. -/
theorem foldl_keeps {α β : Type} {P : β → Prop} {f : β → α → β} (hf : ∀ b a, P b → P (f b a)) :
    ∀ (l : List α) (b : β), P b → P (l.foldl f b) := by
  intro l
  induction l with
  | nil => intro b h; exact h
  | cons a r ih => intro b h; exact ih _ (hf b a h)

/-! ## Undefined ranges -/

/-- The counter of the undefined range that holds an address. -/
def undefAt (us : List (Nat × Nat × Nat)) (x : Nat) : Option Nat := (us.find? fun u => decide (u.1 ≤ x) && decide (x < u.2.1)).map (·.2.2)

/-- A byte of device memory by the range that holds it. -/
theorem State.devByte_eq (s : State) (x : Nat) : s.devByte x = match undefAt s.undef x with
    | some k => (Config.freeWord k (2 ^ 40 + x)).setWidth 8
    | none => Memory.read s.mem x := by
  unfold State.devByte undefAt
  cases h : s.undef.find? (fun u => decide (u.1 ≤ x) && decide (x < u.2.1)) with
  | none => simp
  | some u => simp

theorem undefAt_cons (u : Nat × Nat × Nat) (r : List (Nat × Nat × Nat)) (x : Nat) :
    undefAt (u :: r) x = if u.1 ≤ x ∧ x < u.2.1 then some u.2.2 else undefAt r x := by
  unfold undefAt
  rw [List.find?_cons]
  by_cases h : u.1 ≤ x ∧ x < u.2.1
  · simp [h]
  · rw [if_neg h]
    have : (decide (u.1 ≤ x) && decide (x < u.2.1)) = false := by simpa using h
    rw [this]

theorem undefAt_append (us vs : List (Nat × Nat × Nat)) (x : Nat) :
    undefAt (us ++ vs) x = (undefAt us x).or (undefAt vs x) := by
  induction us with
  | nil => simp [undefAt]
  | cons u r ih => rw [List.cons_append, undefAt_cons, undefAt_cons, ih]; split <;> simp

theorem undefAt_nil (x : Nat) : undefAt [] x = none := rfl

theorem undefAt_cutOne (lo hi k a n x : Nat) :
    undefAt (cutUndef [(lo, hi, k)] a n) x = if lo ≤ x ∧ x < hi ∧ ¬ (a ≤ x ∧ x < a + n) then some k else none := by
  simp only [cutUndef, List.flatMap_cons, List.flatMap_nil, List.append_nil]
  by_cases h : a < hi ∧ lo < a + n
  · rw [if_pos (by simpa using h), undefAt_append]
    by_cases h1 : lo < a <;> by_cases h2 : a + n < hi <;> simp only [h1, h2, if_true, if_false, undefAt_cons, undefAt_nil] <;>
      split_ifs <;> first | rfl | (exfalso; omega)
  · rw [if_neg (by simpa using h), undefAt_cons, undefAt_nil]
    split_ifs <;> first | rfl | (exfalso; simp at *; omega)

/-- Cutting a range out leaves every address outside it with its range. -/
theorem undefAt_cutUndef (us : List (Nat × Nat × Nat)) (a n x : Nat) :
    undefAt (cutUndef us a n) x = if a ≤ x ∧ x < a + n then none else undefAt us x := by
  induction us with
  | nil => simp [cutUndef, undefAt]
  | cons u r ih =>
    obtain ⟨lo, hi, k⟩ := u
    have e : cutUndef ((lo, hi, k) :: r) a n = cutUndef [(lo, hi, k)] a n ++ cutUndef r a n := by simp [cutUndef]
    rw [e, undefAt_append, undefAt_cutOne, ih, undefAt_cons]
    split_ifs <;> first | rfl | (exfalso; simp at *; omega)

/-! ## The operations on device, host and local memory -/

/-- A byte of device memory after a write. -/
theorem State.devByte_devWriteKeep (s : State) (die a x : Nat) (bs : List Byte) :
    (s.devWriteKeep die a bs).devByte x = if a ≤ x ∧ x < a + bs.length then bs.getD (x - a) 0 else s.devByte x := by
  rw [State.devByte_eq, State.devByte_eq]
  show (match undefAt (cutUndef s.undef a bs.length) x with
    | some k => (Config.freeWord k (2 ^ 40 + x)).setWidth 8
    | none => Memory.read (Memory.writeN s.mem a bs) x) = _
  rw [undefAt_cutUndef, Memory.read_writeN]
  by_cases h : a ≤ x ∧ x < a + bs.length
  · rw [if_pos h, if_pos h, if_pos h]
  · rw [if_neg h, if_neg h, if_neg h]

/-- A byte of device memory after a write that ends hidden records. -/
theorem State.devByte_devWrite (s : State) (die a x : Nat) (bs : List Byte) :
    (s.devWrite die a bs).devByte x = if a ≤ x ∧ x < a + bs.length then bs.getD (x - a) 0 else s.devByte x :=
  s.devByte_devWriteKeep die a x bs

/-- The bytes that become undefined are free values; the others read as before (log entry 14). -/
theorem State.devByte_undefine (s : State) (a n x : Nat) :
    (s.undefine a n).devByte x = if a ≤ x ∧ x < a + n then (Config.freeWord s.fresh (2 ^ 40 + x)).setWidth 8 else s.devByte x := by
  rw [State.devByte_eq, State.devByte_eq]
  show (match undefAt ((a, a + n, s.fresh) :: cutUndef s.undef a n) x with
    | some k => (Config.freeWord k (2 ^ 40 + x)).setWidth 8
    | none => Memory.read (s.mem.filter fun e => decide (e.1 < a || a + n ≤ e.1)) x) = _
  rw [undefAt_cons, undefAt_cutUndef]
  by_cases h : a ≤ x ∧ x < a + n
  · rw [if_pos h, if_pos h]
  · rw [if_neg h, if_neg h, if_neg h]
    have : Memory.read (s.mem.filter fun e => decide (e.1 < a || a + n ≤ e.1)) x = Memory.read s.mem x := by
      unfold Memory.read
      rw [sget_filter 0 (fun k => decide (k < a || a + n ≤ k))]
      simp only [Bool.or_eq_true, decide_eq_true_eq, ite_eq_left_iff]
      intro g; omega
    rw [this]

/-- A byte of host memory after a write. -/
theorem State.hostByte_hostWrite (s : State) (a x : Nat) (bs : List Byte) :
    (s.hostWrite a bs).placeByte (.host x) = if a ≤ x ∧ x < a + bs.length then bs.getD (x - a) 0 else s.placeByte (.host x) :=
  Memory.read_writeN bs s.hostMem a x

/-- A write of one kind of memory leaves the others alone. -/
theorem State.placeByte_devWrite_host (s : State) (die a x : Nat) (bs : List Byte) :
    (s.devWrite die a bs).placeByte (.host x) = s.placeByte (.host x) := rfl
theorem State.placeByte_devWrite_loc (s : State) (die a b o : Nat) (bs : List Byte) :
    (s.devWrite die a bs).placeByte (.loc b o) = s.placeByte (.loc b o) := rfl
theorem State.placeByte_hostWrite_dev (s : State) (a x : Nat) (bs : List Byte) :
    (s.hostWrite a bs).placeByte (.dev x) = s.placeByte (.dev x) := rfl
theorem State.placeByte_hostWrite_loc (s : State) (a b o : Nat) (bs : List Byte) :
    (s.hostWrite a bs).placeByte (.loc b o) = s.placeByte (.loc b o) := rfl

/-- A byte of a block's local memory after a write of that block: the byte written, but where a segment has ended (R147). -/
theorem State.placeByte_locWrite (s : State) (b o : Nat) (bs : List Byte) (c x : Nat) :
    (s.locWrite b o bs).placeByte (.loc c x) =
      if c = b ∧ (s.block b).any (fun y => !y.ended o && !y.ended x) = true ∧ o ≤ x ∧ x < o + bs.length then bs.getD (x - o) 0
      else s.placeByte (.loc c x) := by
  let f : Block → Block := fun x => if x.ended o then x else { x with
    mem := Memory.writeN x.mem o bs
    pois := ssetAll false x.pois (fullWordsOf o bs.length) false
    hidden := ssetAll none x.hidden (wordsOf o bs.length) none
    lineW := ssetAll 0 x.lineW (dedup ((wordsOf o bs.length).map (· / 32))) (s.writes + 1) }
  let r : Block → Byte := fun y => if y.ended x then (s.free (2 ^ 42 + x)).setWidth 8 else Memory.read y.mem x
  have e : (s.locWrite b o bs).placeByte (.loc c x) = (((s.modBlock b f).block c).map r).getD 0 := rfl
  have e' : s.placeByte (.loc c x) = ((s.block c).map r).getD 0 := rfl
  rw [e, e']
  by_cases h : c = b
  · subst h
    rw [State.block_modBlock]
    cases g : s.block c with
    | none => simp
    | some y =>
      have hf : (f y).ended x = y.ended x := by simp only [f]; split <;> rfl
      have hm : (f y).mem = if y.ended o = true then y.mem else Memory.writeN y.mem o bs := by simp only [f]; split <;> rfl
      simp only [Option.map_some, Option.getD_some, Option.any_some, r, hf, hm]
      by_cases ho : y.ended o = true <;> by_cases hy : y.ended x = true <;> simp [ho, hy, Memory.read_writeN]
  · rw [State.block_modBlock_other s f h, if_neg (fun g => h g.1)]

/-! ## What keeps the canonical form -/

theorem State.memoryCanonical_iff (s : State) :
    s.memoryCanonical = true ↔ Memory.wf s.mem = true ∧ Memory.wf s.hostMem = true := by
  simp [State.memoryCanonical]

/-- An update that leaves both memories alone keeps their form. -/
theorem State.canonical_of_eq {s t : State} (hm : t.mem = s.mem) (hh : t.hostMem = s.hostMem) (h : s.memoryCanonical = true) :
    t.memoryCanonical = true := by
  unfold State.memoryCanonical at *
  rw [hm, hh]; exact h

theorem State.devWriteKeep_canonical {s : State} (die a : Nat) (bs : List Byte) (h : s.memoryCanonical = true) :
    (s.devWriteKeep die a bs).memoryCanonical = true := by
  rw [State.memoryCanonical_iff] at *
  exact ⟨Memory.writeN_wf bs a h.1, h.2⟩

theorem State.devWrite_canonical {s : State} (die a : Nat) (bs : List Byte) (h : s.memoryCanonical = true) :
    (s.devWrite die a bs).memoryCanonical = true :=
  State.canonical_of_eq (s := s.devWriteKeep die a bs) rfl rfl (State.devWriteKeep_canonical die a bs h)

theorem State.hostWrite_canonical {s : State} (a : Nat) (bs : List Byte) (h : s.memoryCanonical = true) :
    (s.hostWrite a bs).memoryCanonical = true := by
  rw [State.memoryCanonical_iff] at *
  exact ⟨h.1, Memory.writeN_wf bs a h.2⟩

theorem State.locWrite_canonical {s : State} (b o : Nat) (bs : List Byte) (h : s.memoryCanonical = true) :
    (s.locWrite b o bs).memoryCanonical = true := by
  exact State.canonical_of_eq (s := s) rfl rfl h

theorem State.placeWrite_canonical {s : State} (die : Nat) (p : Place) (bs : List Byte) (h : s.memoryCanonical = true) :
    (s.placeWrite die p bs).memoryCanonical = true := by
  cases p with
  | dev a => exact State.devWrite_canonical die a bs h
  | host a => exact State.hostWrite_canonical a bs h
  | loc b o => exact State.locWrite_canonical b o bs h
  | port a => exact h

theorem State.undefine_canonical {s : State} (a n : Nat) (h : s.memoryCanonical = true) :
    (s.undefine a n).memoryCanonical = true := by
  rw [State.memoryCanonical_iff] at *
  exact ⟨filter_wfFrom _ h.1, h.2⟩

theorem State.imgWrite_canonical {s : State} (base n : Nat) (cells : List (Nat × Byte)) (h : s.memoryCanonical = true) :
    (s.imgWrite base n cells).memoryCanonical = true := by
  rw [State.memoryCanonical_iff] at *
  refine ⟨?_, h.2⟩
  exact foldl_keeps (P := fun m => Memory.wf m = true) (fun m c hm => Memory.write_wf _ _ hm) _ _ (filter_wfFrom _ h.1)

end Sys2Proof.Machine
end

