-- ==== Sys2Proof/Laws/Operands.lean ====
section
/-! SUPPORT. What the shared operations on operands do: sets of lanes, writing registers, the latches, and the shape of every
register instruction (R148, R287, R289, R317). -/

namespace Sys2Proof.Machine

/-! ## Lane sets -/

theorem mem_lanesOf (m : LaneSet) (l : Nat) : l ∈ lanesOf m ↔ l < 64 ∧ m.getLsbD l = true := by
  simp [lanesOf]

theorem lanesOf_nodup (m : LaneSet) : (lanesOf m).Nodup := (List.nodup_range).filter _

theorem lanesOf_lt {m : LaneSet} {l : Nat} (h : l ∈ lanesOf m) : l < 64 := ((mem_lanesOf m l).1 h).1

theorem laneBit_getLsbD (l i : Nat) (hi : i < 64) : (laneBit l).getLsbD i = decide (i = l) := by
  simp only [laneBit, BitVec.getLsbD_shiftLeft, BitVec.getLsbD_one]
  by_cases h : i = l
  · subst h; simp [hi]
  · by_cases h2 : i < l
    · simp [h2, h]
    · have : i - l ≠ 0 := by omega
      simp [hi, h2, h, this]

theorem laneSet_getLsbD (ls : List Nat) (i : Nat) (hi : i < 64) : (laneSet ls).getLsbD i = decide (i ∈ ls) := by
  suffices h : ∀ m : LaneSet, (ls.foldl (fun m l => m ||| laneBit l) m).getLsbD i = (m.getLsbD i || decide (i ∈ ls)) by
    simpa [laneSet] using h 0
  induction ls with
  | nil => simp
  | cons a r ih =>
    intro m
    rw [List.foldl_cons, ih, BitVec.getLsbD_or, laneBit_getLsbD a i hi]
    by_cases h : i = a <;> simp [h]

/-- A set read back from its lanes. -/
@[simp] theorem laneSet_lanesOf (m : LaneSet) : laneSet (lanesOf m) = m := by
  apply BitVec.eq_of_getLsbD_eq
  intro i hi
  rw [laneSet_getLsbD _ _ hi]
  by_cases h : m.getLsbD i = true <;> simp [mem_lanesOf, hi, h]

/-! ## Registers -/

theorem regAt_toNat (x : BitVec 8) (i : Nat) (h : x.toNat + i < 256) : (regAt x i).toNat = x.toNat + i := by
  simp [regAt, BitVec.toNat_add, BitVec.toNat_ofNat, Nat.mod_eq_of_lt (show i < 256 by omega), Nat.mod_eq_of_lt h]

theorem vkey_inj {i j l m : Nat} (hl : l < 64) (hm : m < 64) : 64 * i + l = 64 * j + m ↔ i = j ∧ l = m := by omega

theorem Crew.put_vreg (c : Crew) (l : Nat) (x : BitVec 8) (w : Word) (j m : Nat) (hl : l < 64) (hm : m < 64) :
    (c.put l x w).vreg j m = if isV x = true ∧ j = x.toNat ∧ m = l then w else c.vreg j m := by
  unfold Crew.put Crew.vreg
  by_cases h : isV x = true
  · simp only [h, if_true, true_and]
    rw [sget_sset]
    simp only [vkey_inj hm hl]
  · simp [h]

theorem Crew.put_sreg (c : Crew) (l : Nat) (x : BitVec 8) (w : Word) (j : Nat) :
    (c.put l x w).sreg j = if isV x = false ∧ j = sNum x then w else c.sreg j := by
  unfold Crew.put Crew.sreg
  by_cases h : isV x = true
  · simp [h]
  · simp only [h]
    simp only [Bool.not_eq_true] at h
    simp only [Bool.false_eq_true, ↓reduceIte, true_and]
    rw [sget_sset]

theorem Crew.put_vPois (c : Crew) (l : Nat) (x : BitVec 8) (w : Word) (j m : Nat) (hl : l < 64) (hm : m < 64) :
    sget false (c.put l x w).vPois (64 * j + m) =
      if isV x = true ∧ j = x.toNat ∧ m = l then false else sget false c.vPois (64 * j + m) := by
  unfold Crew.put
  by_cases h : isV x = true
  · simp only [h, if_true, true_and]
    rw [sget_sset]
    simp only [vkey_inj hm hl]
  · simp [h]

theorem Crew.put_sPois (c : Crew) (l : Nat) (x : BitVec 8) (w : Word) (j : Nat) :
    sget false (c.put l x w).sPois j = if isV x = false ∧ j = sNum x then false else sget false c.sPois j := by
  unfold Crew.put
  by_cases h : isV x = true
  · simp [h]
  · simp only [h]
    simp only [Bool.not_eq_true] at h
    simp only [Bool.false_eq_true, ↓reduceIte, true_and]
    rw [sget_sset]

/-- What writing a register leaves alone. -/
theorem Crew.put_frame (c : Crew) (l : Nat) (x : BitVec 8) (w : Word) :
    c.put l x w = { c with v := (c.put l x w).v, s := (c.put l x w).s, vPois := (c.put l x w).vPois,
                           sPois := (c.put l x w).sPois } := by
  unfold Crew.put
  split <;> rfl

/-- The word that consecutive writes from register x on leave in register j, if they reach it. -/
def blockWord (x : Nat) (ws : List Word) (j : Nat) : Option Word := if x ≤ j then ws[j - x]? else none

theorem blockWord_cons (x : Nat) (w : Word) (ws : List Word) (j : Nat) :
    blockWord x (w :: ws) j = if j = x then some w else blockWord (x + 1) ws j := by
  unfold blockWord
  by_cases h : j = x
  · subst h; simp
  · by_cases h2 : x ≤ j
    · have h3 : x + 1 ≤ j := by omega
      have h4 : j - x = (j - (x + 1)) + 1 := by omega
      simp [h, h2, h3, h4]
    · have h3 : ¬ x + 1 ≤ j := by omega
      simp [h, h2, h3]

theorem isV_regAt {x : BitVec 8} {n : Nat} (h : x.toNat + n < 128) : isV (regAt x n) = true := by
  simp only [isV, decide_eq_true_eq]
  rw [regAt_toNat x n (by omega)]; omega

theorem Crew.putAll_vreg (l : Nat) (ws : List Word) (m j : Nat) (hl : l < 64) (hm : m < 64) :
    ∀ (c : Crew) (x : BitVec 8), (isV x = true → x.toNat + ws.length ≤ 128) → (x.toNat + ws.length ≤ 256) →
      (c.putAll l x ws).vreg j m =
        if isV x = true ∧ m = l then (blockWord x.toNat ws j).getD (c.vreg j m) else c.vreg j m := by
  induction ws with
  | nil => intro c x _ _; simp [Crew.putAll, blockWord]
  | cons w ws ih =>
    intro c x hx h256
    simp only [Crew.putAll]
    cases ws with
    | nil =>
      simp only [Crew.putAll]
      rw [Crew.put_vreg _ _ _ _ _ _ hl hm, blockWord_cons]
      by_cases h1 : isV x = true <;> by_cases h2 : m = l <;> by_cases h3 : j = x.toNat <;> simp [h1, h2, h3, blockWord]
    | cons w2 ws2 =>
      have hlen : (w :: w2 :: ws2).length = ws2.length + 2 := by simp
      have hlen2 : (w2 :: ws2).length = ws2.length + 1 := by simp
      have hreg : (regAt x 1).toNat = x.toNat + 1 := regAt_toNat x 1 (by omega)
      have hv : isV (regAt x 1) = isV x := by
        by_cases h1 : isV x = true
        · rw [isV_regAt (by have := hx h1; omega), h1]
        · have h2 : ¬ x.toNat < 128 := by simpa [isV] using h1
          have h3 : ¬ (regAt x 1).toNat < 128 := by omega
          simp [isV, h2, h3]
      rw [ih (c.put l x w) (regAt x 1) (by rw [hv]; intro h1; have := hx h1; omega) (by omega)]
      rw [Crew.put_vreg _ _ _ _ _ _ hl hm, hv, hreg, blockWord_cons _ w (w2 :: ws2)]
      by_cases h1 : isV x = true <;> by_cases h2 : m = l
      · by_cases h3 : j = x.toNat
        · have : blockWord (x.toNat + 1) (w2 :: ws2) j = none := by unfold blockWord; rw [if_neg (by omega)]
          simp [h1, h2, h3]
          subst h3; simp [this]
        · simp [h1, h2, h3]
      · simp [h1, h2]
      · simp [h1, h2]
      · simp [h1, h2]

theorem Crew.putAll_vPois (l : Nat) (ws : List Word) (m j : Nat) (hl : l < 64) (hm : m < 64) :
    ∀ (c : Crew) (x : BitVec 8), (isV x = true → x.toNat + ws.length ≤ 128) → (x.toNat + ws.length ≤ 256) →
      sget false (c.putAll l x ws).vPois (64 * j + m) =
        (sget false c.vPois (64 * j + m) && !(decide (isV x = true ∧ m = l) && (blockWord x.toNat ws j).isSome)) := by
  induction ws with
  | nil => intro c x _ _; simp [Crew.putAll, blockWord]
  | cons w ws ih =>
    intro c x hx h256
    simp only [Crew.putAll]
    cases ws with
    | nil =>
      simp only [Crew.putAll]
      rw [Crew.put_vPois _ _ _ _ _ _ hl hm, blockWord_cons]
      by_cases h1 : isV x = true <;> by_cases h2 : m = l <;> by_cases h3 : j = x.toNat <;> simp [h1, h2, h3, blockWord]
    | cons w2 ws2 =>
      have hlen : (w :: w2 :: ws2).length = ws2.length + 2 := by simp
      have hlen2 : (w2 :: ws2).length = ws2.length + 1 := by simp
      have hreg : (regAt x 1).toNat = x.toNat + 1 := regAt_toNat x 1 (by omega)
      have hv : isV (regAt x 1) = isV x := by
        by_cases h1 : isV x = true
        · rw [isV_regAt (by have := hx h1; omega), h1]
        · have h2 : ¬ x.toNat < 128 := by simpa [isV] using h1
          have h3 : ¬ (regAt x 1).toNat < 128 := by omega
          simp [isV, h2, h3]
      rw [ih (c.put l x w) (regAt x 1) (by rw [hv]; intro h1; have := hx h1; omega) (by omega)]
      rw [Crew.put_vPois _ _ _ _ _ _ hl hm, hv, hreg, blockWord_cons _ w (w2 :: ws2)]
      by_cases h1 : isV x = true <;> by_cases h2 : m = l <;> by_cases h3 : j = x.toNat <;> simp [h1, h2, h3]

theorem Crew.putAll_sreg (l : Nat) (ws : List Word) (j : Nat) :
    ∀ (c : Crew) (x : BitVec 8), (isV x = true → x.toNat + ws.length ≤ 128) → (x.toNat + ws.length ≤ 256) →
      (c.putAll l x ws).sreg j = if isV x = true then c.sreg j else (blockWord (sNum x) ws j).getD (c.sreg j) := by
  induction ws with
  | nil => intro c x _ _; simp [Crew.putAll, blockWord]
  | cons w ws ih =>
    intro c x hx h256
    simp only [Crew.putAll]
    cases ws with
    | nil =>
      simp only [Crew.putAll]
      rw [Crew.put_sreg, blockWord_cons]
      by_cases h1 : isV x = true <;> by_cases h3 : j = sNum x <;> simp [h1, h3, blockWord]
    | cons w2 ws2 =>
      have hlen : (w :: w2 :: ws2).length = ws2.length + 2 := by simp
      have hlen2 : (w2 :: ws2).length = ws2.length + 1 := by simp
      have hreg : (regAt x 1).toNat = x.toNat + 1 := regAt_toNat x 1 (by omega)
      by_cases h1 : isV x = true
      · have hv : isV (regAt x 1) = true := isV_regAt (by have := hx h1; omega)
        rw [ih (c.put l x w) (regAt x 1) (by intro _; have := hx h1; omega) (by omega), Crew.put_sreg]
        simp [h1, hv]
      · have h2 : ¬ x.toNat < 128 := by simpa [isV] using h1
        have hv : isV (regAt x 1) = false := by simp [isV]; omega
        have hs : sNum (regAt x 1) = sNum x + 1 := by unfold sNum; omega
        rw [ih (c.put l x w) (regAt x 1) (by rw [hv]; intro h; cases h) (by omega), Crew.put_sreg, hs, blockWord_cons _ w (w2 :: ws2)]
        simp only [h1, hv]
        by_cases h3 : j = sNum x
        · have : blockWord (sNum x + 1) (w2 :: ws2) j = none := by unfold blockWord; rw [if_neg (by omega)]
          rw [this, if_neg (by decide), if_pos ⟨trivial, h3⟩, if_neg (by decide), if_pos h3]; rfl
        · simp only [h3, and_false, ↓reduceIte, Bool.false_eq_true]

theorem Crew.putAll_sPois (l : Nat) (ws : List Word) (j : Nat) :
    ∀ (c : Crew) (x : BitVec 8), (isV x = true → x.toNat + ws.length ≤ 128) → (x.toNat + ws.length ≤ 256) →
      sget false (c.putAll l x ws).sPois j =
        (sget false c.sPois j && !(!isV x && (blockWord (sNum x) ws j).isSome)) := by
  induction ws with
  | nil => intro c x _ _; simp [Crew.putAll, blockWord]
  | cons w ws ih =>
    intro c x hx h256
    simp only [Crew.putAll]
    cases ws with
    | nil =>
      simp only [Crew.putAll]
      rw [Crew.put_sPois, blockWord_cons]
      by_cases h1 : isV x = true <;> by_cases h3 : j = sNum x <;> simp [h1, h3, blockWord]
    | cons w2 ws2 =>
      have hlen : (w :: w2 :: ws2).length = ws2.length + 2 := by simp
      have hlen2 : (w2 :: ws2).length = ws2.length + 1 := by simp
      have hreg : (regAt x 1).toNat = x.toNat + 1 := regAt_toNat x 1 (by omega)
      by_cases h1 : isV x = true
      · have hv : isV (regAt x 1) = true := isV_regAt (by have := hx h1; omega)
        rw [ih (c.put l x w) (regAt x 1) (by intro _; have := hx h1; omega) (by omega), Crew.put_sPois]
        simp [h1, hv]
      · have h2 : ¬ x.toNat < 128 := by simpa [isV] using h1
        have hv : isV (regAt x 1) = false := by simp [isV]; omega
        have hs : sNum (regAt x 1) = sNum x + 1 := by unfold sNum; omega
        rw [ih (c.put l x w) (regAt x 1) (by rw [hv]; intro h; cases h) (by omega), Crew.put_sPois, hs, blockWord_cons _ w (w2 :: ws2)]
        simp only [h1, hv]
        by_cases h3 : j = sNum x <;> simp [h3]

theorem Crew.putAll_frame (l : Nat) (ws : List Word) : ∀ (c : Crew) (x : BitVec 8),
    c.putAll l x ws = { c with v := (c.putAll l x ws).v, s := (c.putAll l x ws).s, vPois := (c.putAll l x ws).vPois,
                               sPois := (c.putAll l x ws).sPois } := by
  induction ws with
  | nil => intro c x; rfl
  | cons w ws ih =>
    intro c x
    simp only [Crew.putAll]
    rw [ih (c.put l x w) (regAt x 1), Crew.put_frame c l x w]

theorem Crew.push_lat (c : Crew) (l m : Nat) (w : Word) :
    sget [] (c.push l w).lat m = if m = l then (w :: sget [] c.lat l).take 4 else sget [] c.lat m := by
  unfold Crew.push
  rw [sget_sset]

theorem Crew.push_frame (c : Crew) (l : Nat) (w : Word) : c.push l w = { c with lat := (c.push l w).lat } := rfl

/-- Pushing in each lane of a list without repeats. -/
theorem Crew.foldl_push_lat (w : Word) (ls : List Nat) (hn : ls.Nodup) (m : Nat) : ∀ c : Crew,
    sget [] (ls.foldl (fun c l => c.push l w) c).lat m =
      if m ∈ ls then (w :: sget [] c.lat m).take 4 else sget [] c.lat m := by
  induction ls with
  | nil => intro c; simp
  | cons a r ih =>
    intro c
    have hn' := List.nodup_cons.1 hn
    rw [List.foldl_cons, ih hn'.2, Crew.push_lat]
    by_cases h1 : m = a
    · subst h1; simp [hn'.1]
    · by_cases h2 : m ∈ r <;> simp [h1, h2]

theorem Crew.foldl_push_frame (w : Word) (ls : List Nat) : ∀ c : Crew,
    ls.foldl (fun c l => c.push l w) c = { c with lat := (ls.foldl (fun c l => c.push l w) c).lat } := by
  induction ls with
  | nil => intro c; rfl
  | cons a r ih =>
    intro c
    rw [List.foldl_cons, ih]
    rfl

/-- A frame of everything but the vector and scalar registers, their poison and the latches. -/
theorem Crew.writeResults_frame (d : BitVec 8) (w : Bool) (rs : List (Nat × Result)) : ∀ c : Crew,
    c.writeResults d w rs = { c with v := (c.writeResults d w rs).v, s := (c.writeResults d w rs).s,
                                     vPois := (c.writeResults d w rs).vPois, sPois := (c.writeResults d w rs).sPois,
                                     lat := (c.writeResults d w rs).lat } := by
  induction rs with
  | nil => intro c; rfl
  | cons a r ih =>
    intro c
    obtain ⟨l, x⟩ := a
    simp only [Crew.writeResults]
    rw [ih]
    cases w
    · rfl
    · simp only [if_true]
      rw [Crew.push_frame, Crew.putAll_frame]

theorem Crew.push_vreg (c : Crew) (l : Nat) (w : Word) (j m : Nat) : (c.push l w).vreg j m = c.vreg j m := rfl
theorem Crew.push_sreg (c : Crew) (l : Nat) (w : Word) (j : Nat) : (c.push l w).sreg j = c.sreg j := rfl

/-- The results of an instruction in the listed lanes: registers (R317). -/
theorem Crew.writeResults_vreg (d : BitVec 8) (w : Bool) (f : Nat → Result) (ls : List Nat) (hn : ls.Nodup)
    (hl : ∀ l ∈ ls, l < 64) (hd : isV d = true) (hf : ∀ l ∈ ls, d.toNat + (f l).words.length ≤ 128) (j m : Nat) (hm : m < 64) :
    ∀ c : Crew, (c.writeResults d w (ls.map fun l => (l, f l))).vreg j m =
      if w = true ∧ m ∈ ls then (blockWord d.toNat (f m).words j).getD (c.vreg j m) else c.vreg j m := by
  induction ls with
  | nil => intro c; simp [Crew.writeResults]
  | cons a r ih =>
    intro c
    have hn' := List.nodup_cons.1 hn
    have ha : a < 64 := hl a (by simp)
    have hfa := hf a (by simp)
    simp only [List.map_cons, Crew.writeResults]
    rw [ih hn'.2 (fun l h => hl l (by simp [h])) (fun l h => hf l (by simp [h])), Crew.push_vreg]
    cases w
    · simp
    · simp only [if_true, true_and]
      rw [Crew.putAll_vreg _ _ _ _ ha hm _ _ (fun _ => hfa) (by omega)]
      by_cases h1 : m = a
      · subst h1; simp [hn'.1, hd]
      · by_cases h2 : m ∈ r <;> simp [h1, h2]

theorem Crew.writeResults_vPois (d : BitVec 8) (w : Bool) (f : Nat → Result) (ls : List Nat) (hn : ls.Nodup)
    (hl : ∀ l ∈ ls, l < 64) (hd : isV d = true) (hf : ∀ l ∈ ls, d.toNat + (f l).words.length ≤ 128) (j m : Nat) (hm : m < 64) :
    ∀ c : Crew, sget false (c.writeResults d w (ls.map fun l => (l, f l))).vPois (64 * j + m) =
      (sget false c.vPois (64 * j + m) && !(w && decide (m ∈ ls) && (blockWord d.toNat (f m).words j).isSome)) := by
  induction ls with
  | nil => intro c; simp [Crew.writeResults]
  | cons a r ih =>
    intro c
    have hn' := List.nodup_cons.1 hn
    have ha : a < 64 := hl a (by simp)
    have hfa := hf a (by simp)
    simp only [List.map_cons, Crew.writeResults]
    rw [ih hn'.2 (fun l h => hl l (by simp [h])) (fun l h => hf l (by simp [h]))]
    cases w
    · simp [Crew.push]
    · simp only [if_true, Crew.push]
      rw [Crew.putAll_vPois _ _ _ _ ha hm _ _ (fun _ => hfa) (by omega)]
      by_cases h1 : m = a
      · subst h1; simp [hn'.1, hd]
      · by_cases h2 : m ∈ r <;> simp [h1, h2]

theorem Crew.writeResults_lat (d : BitVec 8) (w : Bool) (f : Nat → Result) (ls : List Nat) (hn : ls.Nodup) (m : Nat) :
    ∀ c : Crew, sget [] (c.writeResults d w (ls.map fun l => (l, f l))).lat m =
      if m ∈ ls then ((f m).words.headD 0 :: sget [] c.lat m).take 4 else sget [] c.lat m := by
  induction ls with
  | nil => intro c; simp [Crew.writeResults]
  | cons a r ih =>
    intro c
    have hn' := List.nodup_cons.1 hn
    simp only [List.map_cons, Crew.writeResults]
    rw [ih hn'.2]
    have hp : ∀ c : Crew, (if w = true then c.putAll a d (f a).words else c).lat = c.lat := by
      intro c
      cases w
      · rfl
      · simp only [if_true]; rw [Crew.putAll_frame]
    rw [Crew.push_lat, hp]
    by_cases h1 : m = a
    · subst h1; simp [hn'.1]
    · by_cases h2 : m ∈ r <;> simp [h1, h2]

theorem Crew.writeResults_scalar (d : BitVec 8) (w : Bool) (f : Nat → Result) (ls : List Nat) (hd : isV d = true)
    (hf : ∀ l ∈ ls, d.toNat + (f l).words.length ≤ 128) : ∀ (c : Crew) (j : Nat),
    (c.writeResults d w (ls.map fun l => (l, f l))).sreg j = c.sreg j ∧
    sget false (c.writeResults d w (ls.map fun l => (l, f l))).sPois j = sget false c.sPois j := by
  induction ls with
  | nil => intro c j; simp [Crew.writeResults]
  | cons a r ih =>
    intro c j
    have hfa := hf a (by simp)
    simp only [List.map_cons, Crew.writeResults]
    have h := ih (fun l h => hf l (by simp [h])) ((if w = true then c.putAll a d (f a).words else c).push a ((f a).words.headD 0)) j
    refine ⟨h.1.trans ?_, h.2.trans ?_⟩
    · rw [Crew.push_sreg]
      cases w
      · rfl
      · simp only [if_true]
        rw [Crew.putAll_sreg _ _ _ _ _ (fun _ => hfa) (by omega)]; simp [hd]
    · simp only [Crew.push]
      cases w
      · rfl
      · simp only [if_true]
        rw [Crew.putAll_sPois _ _ _ _ _ (fun _ => hfa) (by omega)]; simp [hd]

/-! ## Words -/

/-- Everything the first checks of a word can do (R289). -/
theorem State.checked_cases (s : State) (i : Instr) (f : State → Pulse → State) :
    (s.cur = none ∧ s.checked i f = .next s) ∨
    ∃ p, s.cur = some p ∧
      ((∃ r, listMin (s.reasons p i) = some r ∧ s.checked i f = .next (s.deliverAll p (.illegal r))) ∨
       (listMin (s.reasons p i) = none ∧ s.checked i f = .next (f s p))) := by
  unfold State.checked
  cases hc : s.cur with
  | none => exact .inl ⟨rfl, rfl⟩
  | some p => cases hr : listMin (s.reasons p i) <;> simp [hr]

/-- A word that earns no reason goes on (R289). -/
theorem State.checked_ready {s : State} {p : Pulse} {i : Instr} (f : State → Pulse → State) (hc : s.cur = some p)
    (hr : s.reasons p i = []) : s.checked i f = .next (f s p) := by
  simp [State.checked, hc, hr, listMin]

/-- A word that earns a reason raises ILLEGAL with its lowest one in every thread of P (R289, R295). -/
theorem State.checked_illegal {s : State} {p : Pulse} {i : Instr} {r : Nat} (f : State → Pulse → State)
    (hc : s.cur = some p) (hr : listMin (s.reasons p i) = some r) :
    s.checked i f = .next (s.deliverAll p (.illegal r)) := by
  simp [State.checked, hc, hr]

/-- A word that earns no reason and reads no poison, in P or in a helper, has its effect (R289). -/
theorem State.word_ready {s : State} {p : Pulse} {i : Instr} (body : State → Pulse → State) (hc : s.cur = some p)
    (hr : s.reasons p i = []) (hp : s.poisonTaken p i = []) (hh : (lanesOf p.helpers).filter (s.readsPoison p i) = []) :
    s.word i body = .next (body s p) := by
  simp [State.word, State.checked_ready _ hc hr, hp, hh]

/-- A word without a reason whose sources are poisoned for some thread of P raises POISON there (R255). -/
theorem State.word_poison {s : State} {p : Pulse} {i : Instr} (body : State → Pulse → State) (hc : s.cur = some p)
    (hr : s.reasons p i = []) (hp : s.poisonTaken p i ≠ []) :
    s.word i body = .next (s.deliverAt p (s.poisonTaken p i)) := by
  simp only [State.word, State.checked_ready _ hc hr]

end Sys2Proof.Machine
end

