-- ==== Sys2Proof/Laws/Delivery.lean ====
section
/-! SUPPORT. Everything the words' shared frame can do, said once: the outcomes of `State.word` and `State.memWord`, and
what delivering causes leaves alone (R150, R238, R255, R289, R391). -/

namespace Sys2Proof.Machine

/-- Undefined values in helpers change the crews alone (R165). -/
theorem State.spoilHelpers_frame (s : State) (p : Pulse) (i : Instr) (ls : List Nat) :
    s.spoilHelpers p i ls = { s with crews := (s.spoilHelpers p i ls).crews } := rfl

/-- Everything the frame of a word can do (R165, R289): its effect may be followed by undefined values in helpers alone. -/
theorem State.word_cases (s : State) (i : Instr) (body : State → Pulse → State) :
    (s.cur = none ∧ s.word i body = .next s) ∨
    ∃ p, s.cur = some p ∧
      ((∃ r, listMin (s.reasons p i) = some r ∧ s.word i body = .next (s.deliverAll p (.illegal r))) ∨
       (listMin (s.reasons p i) = none ∧ s.poisonTaken p i ≠ [] ∧
        s.word i body = .next (s.deliverAt p (s.poisonTaken p i))) ∨
       (listMin (s.reasons p i) = none ∧ s.poisonTaken p i = [] ∧
        (s.word i body = .next (body s p) ∨ ∃ ls, s.word i body = .next ((body s p).spoilHelpers p i ls)))) := by
  unfold State.word
  obtain ⟨hc, e⟩ | ⟨p, hc, ⟨r, hr, e⟩ | ⟨hr, e⟩⟩ := s.checked_cases i _ <;> rw [e]
  · exact .inl ⟨hc, rfl⟩
  · exact .inr ⟨p, hc, .inl ⟨r, hr, rfl⟩⟩
  · refine .inr ⟨p, hc, .inr ?_⟩
    cases hp : s.poisonTaken p i with
    | cons t ts => exact .inl ⟨hr, by simp, rfl⟩
    | nil =>
      refine .inr ⟨hr, rfl, ?_⟩
      cases (lanesOf p.helpers).filter (s.readsPoison p i) with
      | nil => exact .inl rfl
      | cons l ls => exact .inr ⟨l :: ls, rfl⟩

/-- A property that delivery and undefined values in helpers keep, and that the effect of the word keeps, holds after the word. -/
theorem State.word_keeps {P : State → Prop} {s t : State} {i : Instr} {body : State → Pulse → State}
    (hs : P s) (hd : ∀ (p : Pulse) (ts : List Taken), P (s.deliver p p.word (BitVec.ofNat 3 (p.clsAt p.pos)) p.pc ts))
    (hb : ∀ p, s.cur = some p → P (body s p)) (hh : ∀ (u : State) (p : Pulse) (ls : List Nat), P u → P (u.spoilHelpers p i ls))
    (h : s.word i body = .next t) : P t := by
  obtain ⟨_, e⟩ | ⟨p, hc, ⟨r, _, e⟩ | ⟨_, _, e⟩ | ⟨_, _, e | ⟨ls, e⟩⟩⟩ := s.word_cases i body <;> rw [e] at h <;> cases h
  · exact hs
  · exact hd p _
  · unfold State.deliverAt
    split
    · exact hs
    · exact hd p _
  · exact hb p hc
  · exact hh _ _ _ (hb p hc)

/-- What a memory word's effect can be: held at the word with nothing of it done, or run with the watchpoint marks cleared (R53, R150, R225,
R238, R391). -/
theorem State.memWord_cases (s : State) (i : Instr) (lc : BitVec 3) (body : State → Pulse → LaneSet → State) :
    ∃ b : State → Pulse → LaneSet → State, s.memWord i lc body = s.wordLate i b ∧
      ∀ s p bad, (∃ c, b s p bad = s.holdAt p c) ∨ ∃ ls, b s p bad = (body s p bad).clearSkip p.crew ls := by
  refine ⟨_, rfl, fun s p bad => ?_⟩
  dsimp only
  split
  · exact .inl ⟨_, rfl⟩
  · split
    · exact .inl ⟨_, rfl⟩
    · split
      · exact .inl ⟨_, rfl⟩
      · split
        · exact .inl ⟨_, rfl⟩
        · unfold State.memDone
          split
          · exact .inl ⟨_, rfl⟩
          · exact .inr ⟨_, rfl⟩

/-! ## What delivery leaves alone -/

/-- Clearing watchpoint marks changes the crews alone. -/
theorem State.clearSkip_frame (s : State) (k : Nat) (ls : LaneSet) :
    s.clearSkip k ls = { s with crews := (s.clearSkip k ls).crews } := by
  unfold State.clearSkip; split <;> rfl

/-- Holding a pulse changes the pulse alone (R150). -/
theorem State.holdAt_frame (s : State) (p : Pulse) (c : HoldCond) :
    s.holdAt p c = { s with cur := (s.holdAt p c).cur } := rfl

/-- ABORT for the queues of a context changes the Adit alone. -/
theorem State.abortQueues_frame (s : State) (n : Nat) : s.abortQueues n = { s with adit := (s.abortQueues n).adit } := by
  unfold State.abortQueues
  generalize (List.range 16).filter _ = qs
  induction qs generalizing s with
  | nil => rfl
  | cons q qs ih => rw [List.foldl_cons, ih]; rfl

/-- A fatal fault changes the context and the Adit alone (R101, R102). -/
theorem State.contextFault_frame (s : State) (n : Nat) (f : FaultInfo) :
    s.contextFault n f = { s with ctxs := (s.contextFault n f).ctxs, adit := (s.contextFault n f).adit } := by
  unfold State.contextFault
  split
  · rw [State.abortQueues_frame]; rfl
  · rfl

/-- Delivering causes changes the pulse, the crew, the context and the Adit alone (R289). -/
theorem State.deliver_frame (s : State) (p : Pulse) (word : Word) (cls : BitVec 3) (pc : DWord) (ts : List Taken) :
    s.deliver p word cls pc ts =
      { s with cur := (s.deliver p word cls pc ts).cur, crews := (s.deliver p word cls pc ts).crews,
               ctxs := (s.deliver p word cls pc ts).ctxs, adit := (s.deliver p word cls pc ts).adit } := by
  unfold State.deliver
  dsimp only
  split
  · rw [State.contextFault_frame]; rfl
  · rfl

/-- Delivering causes keeps the canonical form of memory. -/
theorem State.deliver_canonical {s : State} (p : Pulse) (word : Word) (cls : BitVec 3) (pc : DWord) (ts : List Taken)
    (h : s.memoryCanonical = true) : (s.deliver p word cls pc ts).memoryCanonical = true :=
  State.canonical_of_eq (by rw [State.deliver_frame]) (by rw [State.deliver_frame]) h

end Sys2Proof.Machine
end

