-- ==== Sys2Proof/Laws/PerInstr.lean ====
section
/-! SUPPORT. Per instruction: the words that it encodes to, their number and class, and that they decode to it (R281, R304 to R306). -/

namespace Sys2Proof

/-! ## Fields of a word -/

theorem extract_append_low {m n : Nat} (a : BitVec m) (b : BitVec n) (k w : Nat) (h : k + w ≤ n) :
    (a ++ b).extractLsb' k w = b.extractLsb' k w := by
  apply BitVec.eq_of_getLsbD_eq
  intro i hi
  rw [BitVec.getLsbD_extractLsb', BitVec.getLsbD_extractLsb', BitVec.getLsbD_append, if_pos (by omega)]

theorem extract_append_high {m n : Nat} (a : BitVec m) (b : BitVec n) (k w : Nat) (h : n ≤ k) :
    (a ++ b).extractLsb' k w = a.extractLsb' (k - n) w := by
  apply BitVec.eq_of_getLsbD_eq
  intro i hi
  rw [BitVec.getLsbD_extractLsb', BitVec.getLsbD_extractLsb', BitVec.getLsbD_append, if_neg (by omega)]
  congr 2
  omega

theorem extract_all {n : Nat} (a : BitVec n) : a.extractLsb' 0 n = a := by
  apply BitVec.eq_of_getLsbD_eq
  intro i hi
  simp [hi]

/-- Any field of a word of format A. -/
theorem encA_field (op : Nat) (f : FmtA) (k w : Nat) : (encA op f).extractLsb' k w =
    BitVec.extractLsb' (n := 6+8+8+8+1+1) k w (BitVec.ofNat 6 op ++ f.d ++ f.a ++ f.b ++ f.w ++ f.v) := rfl

theorem encA_op (op : Nat) (f : FmtA) : (encA op f).extractLsb' 26 6 = BitVec.ofNat 6 op := by
  simp (disch := omega) only [encA_field, extract_append_high, extract_all, Nat.reduceSub]

theorem fmtA_encA (op : Nat) (f : FmtA) : fmtA (encA op f) = f := by
  unfold fmtA
  simp (disch := omega) only [encA_field, extract_append_high, extract_append_low, extract_all, Nat.reduceSub]

theorem encA_opcodeOf (op : Nat) (f : FmtA) : opcodeOf (encA op f) = op % 64 := by
  unfold opcodeOf
  rw [encA_op]
  exact BitVec.toNat_ofNat op 6

/-- Any field of a word of format I. -/
theorem encI_field (op : Nat) (f : FmtI) (k w : Nat) : (encI op f).extractLsb' k w =
    BitVec.extractLsb' (n := 6+8+8+10) k w (BitVec.ofNat 6 op ++ f.d ++ f.a ++ f.imm) := rfl

theorem encI_op (op : Nat) (f : FmtI) : (encI op f).extractLsb' 26 6 = BitVec.ofNat 6 op := by
  simp (disch := omega) only [encI_field, extract_append_high, extract_all, Nat.reduceSub]

theorem fmtI_encI (op : Nat) (f : FmtI) : fmtI (encI op f) = f := by
  unfold fmtI
  simp (disch := omega) only [encI_field, extract_append_high, extract_append_low, extract_all, Nat.reduceSub]

theorem encI_opcodeOf (op : Nat) (f : FmtI) : opcodeOf (encI op f) = op % 64 := by
  unfold opcodeOf
  rw [encI_op]
  exact BitVec.toNat_ofNat op 6

/-- Any field of a word of format K. -/
theorem encK_field (op : Nat) (f : FmtK) (k w : Nat) : (encK op f).extractLsb' k w =
    BitVec.extractLsb' (n := 6+8+2+16) k w (BitVec.ofNat 6 op ++ f.d ++ f.h ++ f.imm) := rfl

theorem encK_op (op : Nat) (f : FmtK) : (encK op f).extractLsb' 26 6 = BitVec.ofNat 6 op := by
  simp (disch := omega) only [encK_field, extract_append_high, extract_all, Nat.reduceSub]

theorem fmtK_encK (op : Nat) (f : FmtK) : fmtK (encK op f) = f := by
  unfold fmtK
  simp (disch := omega) only [encK_field, extract_append_high, extract_append_low, extract_all, Nat.reduceSub]

theorem encK_opcodeOf (op : Nat) (f : FmtK) : opcodeOf (encK op f) = op % 64 := by
  unfold opcodeOf
  rw [encK_op]
  exact BitVec.toNat_ofNat op 6

/-- Any field of a word of format M. -/
theorem encM_field (op : Nat) (f : FmtM) (k w : Nat) : (encM op f).extractLsb' k w =
    BitVec.extractLsb' (n := 6+8+8+3+3+2+1+1) k w (BitVec.ofNat 6 op ++ f.x ++ f.a ++ f.lc ++ f.ag ++ f.st ++ f.e ++ f.v) := rfl

theorem encM_op (op : Nat) (f : FmtM) : (encM op f).extractLsb' 26 6 = BitVec.ofNat 6 op := by
  simp (disch := omega) only [encM_field, extract_append_high, extract_all, Nat.reduceSub]

theorem fmtM_encM (op : Nat) (f : FmtM) : fmtM (encM op f) = f := by
  unfold fmtM
  simp (disch := omega) only [encM_field, extract_append_high, extract_append_low, extract_all, Nat.reduceSub]

theorem encM_opcodeOf (op : Nat) (f : FmtM) : opcodeOf (encM op f) = op % 64 := by
  unfold opcodeOf
  rw [encM_op]
  exact BitVec.toNat_ofNat op 6

/-- Any field of a word of format T. -/
theorem encT_field (op : Nat) (f : FmtT) (k w : Nat) : (encT op f).extractLsb' k w =
    BitVec.extractLsb' (n := 6+4+4+4+3+2+9) k w (BitVec.ofNat 6 op ++ f.tc ++ f.ta ++ f.tb ++ f.fs ++ f.acc ++ f.flags) := rfl

theorem encT_op (op : Nat) (f : FmtT) : (encT op f).extractLsb' 26 6 = BitVec.ofNat 6 op := by
  simp (disch := omega) only [encT_field, extract_append_high, extract_all, Nat.reduceSub]

theorem fmtT_encT (op : Nat) (f : FmtT) : fmtT (encT op f) = f := by
  unfold fmtT
  simp (disch := omega) only [encT_field, extract_append_high, extract_append_low, extract_all, Nat.reduceSub]

theorem encT_opcodeOf (op : Nat) (f : FmtT) : opcodeOf (encT op f) = op % 64 := by
  unfold opcodeOf
  rw [encT_op]
  exact BitVec.toNat_ofNat op 6

/-- Any field of a word of format E. -/
theorem encE_field (op : Nat) (f : FmtE) (k w : Nat) : (encE op f).extractLsb' k w =
    BitVec.extractLsb' (n := 6+6+8+8+4) k w (BitVec.ofNat 6 op ++ f.ec ++ f.a ++ f.b ++ f.flags) := rfl

theorem encE_op (op : Nat) (f : FmtE) : (encE op f).extractLsb' 26 6 = BitVec.ofNat 6 op := by
  simp (disch := omega) only [encE_field, extract_append_high, extract_all, Nat.reduceSub]

theorem fmtE_encE (op : Nat) (f : FmtE) : fmtE (encE op f) = f := by
  unfold fmtE
  simp (disch := omega) only [encE_field, extract_append_high, extract_append_low, extract_all, Nat.reduceSub]

theorem encE_opcodeOf (op : Nat) (f : FmtE) : opcodeOf (encE op f) = op % 64 := by
  unfold opcodeOf
  rw [encE_op]
  exact BitVec.toNat_ofNat op 6

/-- Any field of a word of format C. -/
theorem encC_field (op : Nat) (f : FmtC) (k w : Nat) : (encC op f).extractLsb' k w =
    BitVec.extractLsb' (n := 6+4+22) k w (BitVec.ofNat 6 op ++ f.m ++ f.off) := rfl

theorem encC_op (op : Nat) (f : FmtC) : (encC op f).extractLsb' 26 6 = BitVec.ofNat 6 op := by
  simp (disch := omega) only [encC_field, extract_append_high, extract_all, Nat.reduceSub]

theorem fmtC_encC (op : Nat) (f : FmtC) : fmtC (encC op f) = f := by
  unfold fmtC
  simp (disch := omega) only [encC_field, extract_append_high, extract_append_low, extract_all, Nat.reduceSub]

theorem encC_opcodeOf (op : Nat) (f : FmtC) : opcodeOf (encC op f) = op % 64 := by
  unfold opcodeOf
  rw [encC_op]
  exact BitVec.toNat_ofNat op 6

/-- Any field of a word of format S. -/
theorem encS_field (op : Nat) (f : FmtS) (k w : Nat) : (encS op f).extractLsb' k w =
    BitVec.extractLsb' (n := 6+8+8+10) k w (BitVec.ofNat 6 op ++ f.a ++ f.b ++ f.f) := rfl

theorem encS_op (op : Nat) (f : FmtS) : (encS op f).extractLsb' 26 6 = BitVec.ofNat 6 op := by
  simp (disch := omega) only [encS_field, extract_append_high, extract_all, Nat.reduceSub]

theorem fmtS_encS (op : Nat) (f : FmtS) : fmtS (encS op f) = f := by
  unfold fmtS
  simp (disch := omega) only [encS_field, extract_append_high, extract_append_low, extract_all, Nat.reduceSub]

theorem encS_opcodeOf (op : Nat) (f : FmtS) : opcodeOf (encS op f) = op % 64 := by
  unfold opcodeOf
  rw [encS_op]
  exact BitVec.toNat_ofNat op 6

/-- The literal word of R283 stands as often as X says. -/
theorem encLit_length (f : FmtM) (ix : Word) : (encLit f ix).length = f.e.toNat := by
  unfold encLit
  have := f.e.isLt
  rcases (by omega : f.e.toNat = 0 ∨ f.e.toNat = 1) with h | h
  · have e : f.e = 0 := BitVec.eq_of_toNat_eq h
    simp [e]
  · have e : f.e = 1 := BitVec.eq_of_toNat_eq h
    simp [e]

/-- The index literal that stands in the words is the one the instruction carries. -/
theorem litM_encLit (op : Nat) (f : FmtM) (ix : Word) (h : litFits f ix = true) : litM (encM op f) (encLit f ix) = ix := by
  unfold litM encLit
  rw [fmtM_encM]
  unfold litFits at h
  by_cases e : (f.e == 1) = true
  · rw [if_pos e, if_pos e]; rfl
  · rw [if_neg e]
    simp only [Bool.or_eq_true, e] at h
    exact (by simpa using h : ix = 0).symm

end Sys2Proof

namespace Sys2Proof.Laws

/-- A well-formed instruction of a class encodes to one word and the literal words that its class and word ask for, and
those words decode to it in its class (R281, R304 to R306). -/
def Encodes.Statement (i : Instr) : Prop :=
  i.WellFormed → i.cls < 7 → ∃ w lits, encode i = w :: lits ∧ literalCount i.cls w = lits.length ∧ decodeWord i.cls w lits = some i

/-- An event stands in no class. -/
theorem Encodes.event {i : Instr} (h : i.cls = 7) : Encodes.Statement i := fun _ g => by omega

theorem Encodes.literals {i : Instr} (h : i.WellFormed) : i.literalsFit = true := by
  have : i.wf = true := h
  unfold Instr.wf at this
  simp only [Bool.and_eq_true] at this
  exact this.2

theorem Encodes.bootComplete (r : BootReport) : Encodes.Statement (.bootComplete r) := Encodes.event rfl
theorem Encodes.featackWrite (v : BitVec 128) : Encodes.Statement (.featackWrite v) := Encodes.event rfl
theorem Encodes.devevtClear (v : BitVec 32) : Encodes.Statement (.devevtClear v) := Encodes.event rfl
theorem Encodes.registerWrite (off : BitVec 24) (v : BitVec 32) : Encodes.Statement (.registerWrite off v) := Encodes.event rfl
theorem Encodes.opctlWrite (v : BitVec 32) : Encodes.Statement (.opctlWrite v) := Encodes.event rfl
theorem Encodes.pwrlimWrite (v : BitVec 32) : Encodes.Statement (.pwrlimWrite v) := Encodes.event rfl
theorem Encodes.powerEvaluation (watts : Nat) (temps : List (BitVec 12)) : Encodes.Statement (.powerEvaluation watts temps) := Encodes.event rfl
theorem Encodes.stallAckTimeout (dies : BitVec 4) : Encodes.Statement (.stallAckTimeout dies) := Encodes.event rfl
theorem Encodes.guardbandRecompute (samples : List AgeSample) : Encodes.Statement (.guardbandRecompute samples) := Encodes.event rfl
theorem Encodes.ageingSampleDone (a : AgeSample) : Encodes.Statement (.ageingSampleDone a) := Encodes.event rfl
theorem Encodes.eccCorrected (die : Nat) (chan : Option Nat) : Encodes.Statement (.eccCorrected die chan) := Encodes.event rfl
theorem Encodes.eccUncorrectable (die : Nat) (w : ErrorSite) : Encodes.Statement (.eccUncorrectable die w) := Encodes.event rfl
theorem Encodes.parityError (e : ParityHit) : Encodes.Statement (.parityError e) := Encodes.event rfl
theorem Encodes.matrixSelfTest (pass : Bool) : Encodes.Statement (.matrixSelfTest pass) := Encodes.event rfl
theorem Encodes.retrainEnd (m : Nat) (ok : Bool) (repaired : Nat) (half : Bool) : Encodes.Statement (.retrainEnd m ok repaired half) := Encodes.event rfl
theorem Encodes.scrubctlWrite (v : BitVec 32) : Encodes.Statement (.scrubctlWrite v) := Encodes.event rfl
theorem Encodes.patrolScrubRead (dpa : Nat) (found : ReadOutcome) : Encodes.Statement (.patrolScrubRead dpa found) := Encodes.event rfl
theorem Encodes.mcretReq (v : BitVec 32) : Encodes.Statement (.mcretReq v) := Encodes.event rfl
theorem Encodes.hostMemoryWrite (path : HostPath) (addr : Nat) (data : List (BitVec 8)) : Encodes.Statement (.hostMemoryWrite path addr data) := Encodes.event rfl
theorem Encodes.peerPostedWrite (relaxed : Bool) (dpa : Nat) (data : List (BitVec 8)) : Encodes.Statement (.peerPostedWrite relaxed dpa data) := Encodes.event rfl
theorem Encodes.atsInvalidation (pasid : BitVec 20) (base : BitVec 64) (log2 : Nat) : Encodes.Statement (.atsInvalidation pasid base log2) := Encodes.event rfl
theorem Encodes.atsCompletion (i : Nat) (pa : Option Nat) : Encodes.Statement (.atsCompletion i pa) := Encodes.event rfl
theorem Encodes.priResponse (i : Nat) (ok : Bool) : Encodes.Statement (.priResponse i ok) := Encodes.event rfl
theorem Encodes.adctlGrst (on : Bool) : Encodes.Statement (.adctlGrst on) := Encodes.event rfl
theorem Encodes.aditLinkActive (m : Nat) (id : BitVec 32) : Encodes.Statement (.aditLinkActive m id) := Encodes.event rfl
theorem Encodes.gqcfgEnable (q : Nat) (v : BitVec 32) : Encodes.Statement (.gqcfgEnable q v) := Encodes.event rfl
theorem Encodes.gqcfgDisable (q : Nat) (v : BitVec 32) : Encodes.Statement (.gqcfgDisable q v) := Encodes.event rfl
theorem Encodes.retire (m : GuestMsg) : Encodes.Statement (.retire m) := Encodes.event rfl
theorem Encodes.fault (m : GuestMsg) : Encodes.Statement (.fault m) := Encodes.event rfl
theorem Encodes.stopped (m : GuestMsg) : Encodes.Statement (.stopped m) := Encodes.event rfl
theorem Encodes.sdack (m : GuestMsg) : Encodes.Statement (.sdack m) := Encodes.event rfl
theorem Encodes.trq (m : GuestMsg) : Encodes.Statement (.trq m) := Encodes.event rfl
theorem Encodes.pgreq (m : GuestMsg) : Encodes.Statement (.pgreq m) := Encodes.event rfl
theorem Encodes.guestPortRequest (r : PortReq) : Encodes.Statement (.guestPortRequest r) := Encodes.event rfl
theorem Encodes.sdackDeadline (tag : BitVec 16) : Encodes.Statement (.sdackDeadline tag) := Encodes.event rfl
theorem Encodes.dbgctlHalt (n : Nat) (v : BitVec 32) : Encodes.Statement (.dbgctlHalt n v) := Encodes.event rfl
theorem Encodes.dbgctlResume (n : Nat) (v : BitVec 32) : Encodes.Statement (.dbgctlResume n v) := Encodes.event rfl
theorem Encodes.dbgctlStep (n : Nat) (v : BitVec 32) : Encodes.Statement (.dbgctlStep n v) := Encodes.event rfl
theorem Encodes.nop (z : BitVec 26) : Encodes.Statement (.nop z) := by
  intro _ _
  refine ⟨_, _, rfl, ?_, ?_⟩
  · have e : opcodeOf (0#6 ++ z : Word) = 0 := by
      unfold opcodeOf
      rw [show ((0#6 ++ z : Word).extractLsb' 26 6) = BitVec.extractLsb' (n := 6 + 26) 26 6 (0#6 ++ z) from rfl,
        extract_append_high _ _ _ _ (by omega), extract_all]
      rfl
    show (if _ then _ else _) = _
    rw [e]; rfl
  · show decode0 _ _ = _
    unfold decode0
    rw [show ((0#6 ++ z : Word).extractLsb' 26 6) = BitVec.extractLsb' (n := 6 + 26) 26 6 (0#6 ++ z) from rfl,
      extract_append_high _ _ _ _ (by omega), extract_all]
    show some (Instr.nop ((0#6 ++ z : Word).truncate 26)) = _
    congr 2
    apply BitVec.eq_of_getLsbD_eq
    intro i hi
    rw [BitVec.truncate_eq_setWidth, BitVec.getLsbD_setWidth]
    show (decide (i < 26) && (0#6 ++ z : BitVec (6 + 26)).getLsbD i) = _
    rw [BitVec.getLsbD_append]; simp [hi]
theorem Encodes.brk (tag : BitVec 26) : Encodes.Statement (.brk tag) := by
  intro _ _
  refine ⟨_, _, rfl, ?_, ?_⟩
  · have e : opcodeOf (0x3F#6 ++ tag : Word) = 63 := by
      unfold opcodeOf
      rw [show ((0x3F#6 ++ tag : Word).extractLsb' 26 6) = BitVec.extractLsb' (n := 6 + 26) 26 6 (0x3F#6 ++ tag) from rfl,
        extract_append_high _ _ _ _ (by omega), extract_all]
      rfl
    show (if _ then _ else _) = _
    rw [e]; rfl
  · show decode0 _ _ = _
    unfold decode0
    rw [show ((0x3F#6 ++ tag : Word).extractLsb' 26 6) = BitVec.extractLsb' (n := 6 + 26) 26 6 (0x3F#6 ++ tag) from rfl,
      extract_append_high _ _ _ _ (by omega), extract_all]
    show some (Instr.brk ((0x3F#6 ++ tag : Word).truncate 26)) = _
    congr 2
    apply BitVec.eq_of_getLsbD_eq
    intro i hi
    rw [BitVec.truncate_eq_setWidth, BitVec.getLsbD_setWidth]
    show (decide (i < 26) && (0x3F#6 ++ tag : BitVec (6 + 26)).getLsbD i) = _
    rw [BitVec.getLsbD_append]; simp [hi]
theorem Encodes.add (f : FmtA) : Encodes.Statement (.add f) := by
  intro _ _
  refine ⟨_, _, rfl, ?_, ?_⟩
  · show (if _ then _ else _) = _
    rw [encA_opcodeOf]; rfl
  · show decode0 (encA 0x01 f) _ = _
    unfold decode0
    rw [encA_op]
    show some (Instr.add (fmtA (encA 0x01 f))) = _
    rw [fmtA_encA]
theorem Encodes.sub (f : FmtA) : Encodes.Statement (.sub f) := by
  intro _ _
  refine ⟨_, _, rfl, ?_, ?_⟩
  · show (if _ then _ else _) = _
    rw [encA_opcodeOf]; rfl
  · show decode0 (encA 0x02 f) _ = _
    unfold decode0
    rw [encA_op]
    show some (Instr.sub (fmtA (encA 0x02 f))) = _
    rw [fmtA_encA]
theorem Encodes.mul (f : FmtA) : Encodes.Statement (.mul f) := by
  intro _ _
  refine ⟨_, _, rfl, ?_, ?_⟩
  · show (if _ then _ else _) = _
    rw [encA_opcodeOf]; rfl
  · show decode0 (encA 0x03 f) _ = _
    unfold decode0
    rw [encA_op]
    show some (Instr.mul (fmtA (encA 0x03 f))) = _
    rw [fmtA_encA]
theorem Encodes.mulhi (f : FmtA) : Encodes.Statement (.mulhi f) := by
  intro _ _
  refine ⟨_, _, rfl, ?_, ?_⟩
  · show (if _ then _ else _) = _
    rw [encA_opcodeOf]; rfl
  · show decode0 (encA 0x04 f) _ = _
    unfold decode0
    rw [encA_op]
    show some (Instr.mulhi (fmtA (encA 0x04 f))) = _
    rw [fmtA_encA]
theorem Encodes.mad (f : FmtA) (lit : Word) : Encodes.Statement (.mad f lit) := by
  intro _ _
  refine ⟨_, _, rfl, ?_, ?_⟩
  · show (if _ then _ else _) = _
    rw [encA_opcodeOf]; rfl
  · show decode0 (encA 0x05 f) _ = _
    unfold decode0
    rw [encA_op]
    show some (Instr.mad (fmtA (encA 0x05 f)) lit) = _
    rw [fmtA_encA]
theorem Encodes.min (f : FmtA) : Encodes.Statement (.min f) := by
  intro _ _
  refine ⟨_, _, rfl, ?_, ?_⟩
  · show (if _ then _ else _) = _
    rw [encA_opcodeOf]; rfl
  · show decode0 (encA 0x06 f) _ = _
    unfold decode0
    rw [encA_op]
    show some (Instr.min (fmtA (encA 0x06 f))) = _
    rw [fmtA_encA]
theorem Encodes.max (f : FmtA) : Encodes.Statement (.max f) := by
  intro _ _
  refine ⟨_, _, rfl, ?_, ?_⟩
  · show (if _ then _ else _) = _
    rw [encA_opcodeOf]; rfl
  · show decode0 (encA 0x07 f) _ = _
    unfold decode0
    rw [encA_op]
    show some (Instr.max (fmtA (encA 0x07 f))) = _
    rw [fmtA_encA]
theorem Encodes.abs (f : FmtA) : Encodes.Statement (.abs f) := by
  intro _ _
  refine ⟨_, _, rfl, ?_, ?_⟩
  · show (if _ then _ else _) = _
    rw [encA_opcodeOf]; rfl
  · show decode0 (encA 0x08 f) _ = _
    unfold decode0
    rw [encA_op]
    show some (Instr.abs (fmtA (encA 0x08 f))) = _
    rw [fmtA_encA]
theorem Encodes.neg (f : FmtA) : Encodes.Statement (.neg f) := by
  intro _ _
  refine ⟨_, _, rfl, ?_, ?_⟩
  · show (if _ then _ else _) = _
    rw [encA_opcodeOf]; rfl
  · show decode0 (encA 0x09 f) _ = _
    unfold decode0
    rw [encA_op]
    show some (Instr.neg (fmtA (encA 0x09 f))) = _
    rw [fmtA_encA]
theorem Encodes.and (f : FmtA) : Encodes.Statement (.and f) := by
  intro _ _
  refine ⟨_, _, rfl, ?_, ?_⟩
  · show (if _ then _ else _) = _
    rw [encA_opcodeOf]; rfl
  · show decode0 (encA 0x0A f) _ = _
    unfold decode0
    rw [encA_op]
    show some (Instr.and (fmtA (encA 0x0A f))) = _
    rw [fmtA_encA]
theorem Encodes.or (f : FmtA) : Encodes.Statement (.or f) := by
  intro _ _
  refine ⟨_, _, rfl, ?_, ?_⟩
  · show (if _ then _ else _) = _
    rw [encA_opcodeOf]; rfl
  · show decode0 (encA 0x0B f) _ = _
    unfold decode0
    rw [encA_op]
    show some (Instr.or (fmtA (encA 0x0B f))) = _
    rw [fmtA_encA]
theorem Encodes.xor (f : FmtA) : Encodes.Statement (.xor f) := by
  intro _ _
  refine ⟨_, _, rfl, ?_, ?_⟩
  · show (if _ then _ else _) = _
    rw [encA_opcodeOf]; rfl
  · show decode0 (encA 0x0C f) _ = _
    unfold decode0
    rw [encA_op]
    show some (Instr.xor (fmtA (encA 0x0C f))) = _
    rw [fmtA_encA]
theorem Encodes.andn (f : FmtA) : Encodes.Statement (.andn f) := by
  intro _ _
  refine ⟨_, _, rfl, ?_, ?_⟩
  · show (if _ then _ else _) = _
    rw [encA_opcodeOf]; rfl
  · show decode0 (encA 0x0D f) _ = _
    unfold decode0
    rw [encA_op]
    show some (Instr.andn (fmtA (encA 0x0D f))) = _
    rw [fmtA_encA]
theorem Encodes.shl (f : FmtA) : Encodes.Statement (.shl f) := by
  intro _ _
  refine ⟨_, _, rfl, ?_, ?_⟩
  · show (if _ then _ else _) = _
    rw [encA_opcodeOf]; rfl
  · show decode0 (encA 0x0E f) _ = _
    unfold decode0
    rw [encA_op]
    show some (Instr.shl (fmtA (encA 0x0E f))) = _
    rw [fmtA_encA]
theorem Encodes.shr (f : FmtA) : Encodes.Statement (.shr f) := by
  intro _ _
  refine ⟨_, _, rfl, ?_, ?_⟩
  · show (if _ then _ else _) = _
    rw [encA_opcodeOf]; rfl
  · show decode0 (encA 0x0F f) _ = _
    unfold decode0
    rw [encA_op]
    show some (Instr.shr (fmtA (encA 0x0F f))) = _
    rw [fmtA_encA]
theorem Encodes.sar (f : FmtA) : Encodes.Statement (.sar f) := by
  intro _ _
  refine ⟨_, _, rfl, ?_, ?_⟩
  · show (if _ then _ else _) = _
    rw [encA_opcodeOf]; rfl
  · show decode0 (encA 0x10 f) _ = _
    unfold decode0
    rw [encA_op]
    show some (Instr.sar (fmtA (encA 0x10 f))) = _
    rw [fmtA_encA]
theorem Encodes.rot (f : FmtA) : Encodes.Statement (.rot f) := by
  intro _ _
  refine ⟨_, _, rfl, ?_, ?_⟩
  · show (if _ then _ else _) = _
    rw [encA_opcodeOf]; rfl
  · show decode0 (encA 0x11 f) _ = _
    unfold decode0
    rw [encA_op]
    show some (Instr.rot (fmtA (encA 0x11 f))) = _
    rw [fmtA_encA]
theorem Encodes.clz (f : FmtA) : Encodes.Statement (.clz f) := by
  intro _ _
  refine ⟨_, _, rfl, ?_, ?_⟩
  · show (if _ then _ else _) = _
    rw [encA_opcodeOf]; rfl
  · show decode0 (encA 0x12 f) _ = _
    unfold decode0
    rw [encA_op]
    show some (Instr.clz (fmtA (encA 0x12 f))) = _
    rw [fmtA_encA]
theorem Encodes.popc (f : FmtA) : Encodes.Statement (.popc f) := by
  intro _ _
  refine ⟨_, _, rfl, ?_, ?_⟩
  · show (if _ then _ else _) = _
    rw [encA_opcodeOf]; rfl
  · show decode0 (encA 0x13 f) _ = _
    unfold decode0
    rw [encA_op]
    show some (Instr.popc (fmtA (encA 0x13 f))) = _
    rw [fmtA_encA]
theorem Encodes.brev (f : FmtA) : Encodes.Statement (.brev f) := by
  intro _ _
  refine ⟨_, _, rfl, ?_, ?_⟩
  · show (if _ then _ else _) = _
    rw [encA_opcodeOf]; rfl
  · show decode0 (encA 0x14 f) _ = _
    unfold decode0
    rw [encA_op]
    show some (Instr.brev (fmtA (encA 0x14 f))) = _
    rw [fmtA_encA]
theorem Encodes.bfx (f : FmtI) : Encodes.Statement (.bfx f) := by
  intro _ _
  refine ⟨_, _, rfl, ?_, ?_⟩
  · show (if _ then _ else _) = _
    rw [encI_opcodeOf]; rfl
  · show decode0 (encI 0x15 f) _ = _
    unfold decode0
    rw [encI_op]
    show some (Instr.bfx (fmtI (encI 0x15 f))) = _
    rw [fmtI_encI]
theorem Encodes.bfi (f : FmtI) : Encodes.Statement (.bfi f) := by
  intro _ _
  refine ⟨_, _, rfl, ?_, ?_⟩
  · show (if _ then _ else _) = _
    rw [encI_opcodeOf]; rfl
  · show decode0 (encI 0x16 f) _ = _
    unfold decode0
    rw [encI_op]
    show some (Instr.bfi (fmtI (encI 0x16 f))) = _
    rw [fmtI_encI]
theorem Encodes.sel (f : FmtA) (lit : Word) : Encodes.Statement (.sel f lit) := by
  intro _ _
  refine ⟨_, _, rfl, ?_, ?_⟩
  · show (if _ then _ else _) = _
    rw [encA_opcodeOf]; rfl
  · show decode0 (encA 0x17 f) _ = _
    unfold decode0
    rw [encA_op]
    show some (Instr.sel (fmtA (encA 0x17 f)) lit) = _
    rw [fmtA_encA]
theorem Encodes.cmpEq (f : FmtA) : Encodes.Statement (.cmpEq f) := by
  intro _ _
  refine ⟨_, _, rfl, ?_, ?_⟩
  · show (if _ then _ else _) = _
    rw [encA_opcodeOf]; rfl
  · show decode0 (encA 0x18 f) _ = _
    unfold decode0
    rw [encA_op]
    show some (Instr.cmpEq (fmtA (encA 0x18 f))) = _
    rw [fmtA_encA]
theorem Encodes.cmpNe (f : FmtA) : Encodes.Statement (.cmpNe f) := by
  intro _ _
  refine ⟨_, _, rfl, ?_, ?_⟩
  · show (if _ then _ else _) = _
    rw [encA_opcodeOf]; rfl
  · show decode0 (encA 0x19 f) _ = _
    unfold decode0
    rw [encA_op]
    show some (Instr.cmpNe (fmtA (encA 0x19 f))) = _
    rw [fmtA_encA]
theorem Encodes.cmpLt (f : FmtA) : Encodes.Statement (.cmpLt f) := by
  intro _ _
  refine ⟨_, _, rfl, ?_, ?_⟩
  · show (if _ then _ else _) = _
    rw [encA_opcodeOf]; rfl
  · show decode0 (encA 0x1A f) _ = _
    unfold decode0
    rw [encA_op]
    show some (Instr.cmpLt (fmtA (encA 0x1A f))) = _
    rw [fmtA_encA]
theorem Encodes.cmpLe (f : FmtA) : Encodes.Statement (.cmpLe f) := by
  intro _ _
  refine ⟨_, _, rfl, ?_, ?_⟩
  · show (if _ then _ else _) = _
    rw [encA_opcodeOf]; rfl
  · show decode0 (encA 0x1B f) _ = _
    unfold decode0
    rw [encA_op]
    show some (Instr.cmpLe (fmtA (encA 0x1B f))) = _
    rw [fmtA_encA]
theorem Encodes.cmpGt (f : FmtA) : Encodes.Statement (.cmpGt f) := by
  intro _ _
  refine ⟨_, _, rfl, ?_, ?_⟩
  · show (if _ then _ else _) = _
    rw [encA_opcodeOf]; rfl
  · show decode0 (encA 0x1C f) _ = _
    unfold decode0
    rw [encA_op]
    show some (Instr.cmpGt (fmtA (encA 0x1C f))) = _
    rw [fmtA_encA]
theorem Encodes.cmpGe (f : FmtA) : Encodes.Statement (.cmpGe f) := by
  intro _ _
  refine ⟨_, _, rfl, ?_, ?_⟩
  · show (if _ then _ else _) = _
    rw [encA_opcodeOf]; rfl
  · show decode0 (encA 0x1D f) _ = _
    unfold decode0
    rw [encA_op]
    show some (Instr.cmpGe (fmtA (encA 0x1D f))) = _
    rw [fmtA_encA]
theorem Encodes.mov (f : FmtA) : Encodes.Statement (.mov f) := by
  intro _ _
  refine ⟨_, _, rfl, ?_, ?_⟩
  · show (if _ then _ else _) = _
    rw [encA_opcodeOf]; rfl
  · show decode0 (encA 0x1E f) _ = _
    unfold decode0
    rw [encA_op]
    show some (Instr.mov (fmtA (encA 0x1E f))) = _
    rw [fmtA_encA]
theorem Encodes.movi (f : FmtK) : Encodes.Statement (.movi f) := by
  intro _ _
  refine ⟨_, _, rfl, ?_, ?_⟩
  · show (if _ then _ else _) = _
    rw [encK_opcodeOf]; rfl
  · show decode0 (encK 0x1F f) _ = _
    unfold decode0
    rw [encK_op]
    show some (Instr.movi (fmtK (encK 0x1F f))) = _
    rw [fmtK_encK]
theorem Encodes.movhi (f : FmtK) : Encodes.Statement (.movhi f) := by
  intro _ _
  refine ⟨_, _, rfl, ?_, ?_⟩
  · show (if _ then _ else _) = _
    rw [encK_opcodeOf]; rfl
  · show decode0 (encK 0x20 f) _ = _
    unfold decode0
    rw [encK_op]
    show some (Instr.movhi (fmtK (encK 0x20 f))) = _
    rw [fmtK_encK]
theorem Encodes.ext (f : FmtI) : Encodes.Statement (.ext f) := by
  intro _ _
  refine ⟨_, _, rfl, ?_, ?_⟩
  · show (if _ then _ else _) = _
    rw [encI_opcodeOf]; rfl
  · show decode0 (encI 0x21 f) _ = _
    unfold decode0
    rw [encI_op]
    show some (Instr.ext (fmtI (encI 0x21 f))) = _
    rw [fmtI_encI]
theorem Encodes.lea (f : FmtA) : Encodes.Statement (.lea f) := by
  intro _ _
  refine ⟨_, _, rfl, ?_, ?_⟩
  · show (if _ then _ else _) = _
    rw [encA_opcodeOf]; rfl
  · show decode0 (encA 0x22 f) _ = _
    unfold decode0
    rw [encA_op]
    show some (Instr.lea (fmtA (encA 0x22 f))) = _
    rw [fmtA_encA]
theorem Encodes.add64 (f : FmtA) : Encodes.Statement (.add64 f) := by
  intro _ _
  refine ⟨_, _, rfl, ?_, ?_⟩
  · show (if _ then _ else _) = _
    rw [encA_opcodeOf]; rfl
  · show decode0 (encA 0x23 f) _ = _
    unfold decode0
    rw [encA_op]
    show some (Instr.add64 (fmtA (encA 0x23 f))) = _
    rw [fmtA_encA]
theorem Encodes.sub64 (f : FmtA) : Encodes.Statement (.sub64 f) := by
  intro _ _
  refine ⟨_, _, rfl, ?_, ?_⟩
  · show (if _ then _ else _) = _
    rw [encA_opcodeOf]; rfl
  · show decode0 (encA 0x24 f) _ = _
    unfold decode0
    rw [encA_op]
    show some (Instr.sub64 (fmtA (encA 0x24 f))) = _
    rw [fmtA_encA]
theorem Encodes.mulw (f : FmtA) : Encodes.Statement (.mulw f) := by
  intro _ _
  refine ⟨_, _, rfl, ?_, ?_⟩
  · show (if _ then _ else _) = _
    rw [encA_opcodeOf]; rfl
  · show decode0 (encA 0x25 f) _ = _
    unfold decode0
    rw [encA_op]
    show some (Instr.mulw (fmtA (encA 0x25 f))) = _
    rw [fmtA_encA]
theorem Encodes.shfl (f : FmtA) : Encodes.Statement (.shfl f) := by
  intro _ _
  refine ⟨_, _, rfl, ?_, ?_⟩
  · show (if _ then _ else _) = _
    rw [encA_opcodeOf]; rfl
  · show decode0 (encA 0x26 f) _ = _
    unfold decode0
    rw [encA_op]
    show some (Instr.shfl (fmtA (encA 0x26 f))) = _
    rw [fmtA_encA]
theorem Encodes.qxch (f : FmtI) : Encodes.Statement (.qxch f) := by
  intro _ _
  refine ⟨_, _, rfl, ?_, ?_⟩
  · show (if _ then _ else _) = _
    rw [encI_opcodeOf]; rfl
  · show decode0 (encI 0x27 f) _ = _
    unfold decode0
    rw [encI_op]
    show some (Instr.qxch (fmtI (encI 0x27 f))) = _
    rw [fmtI_encI]
theorem Encodes.vote (f : FmtA) : Encodes.Statement (.vote f) := by
  intro _ _
  refine ⟨_, _, rfl, ?_, ?_⟩
  · show (if _ then _ else _) = _
    rw [encA_opcodeOf]; rfl
  · show decode0 (encA 0x28 f) _ = _
    unfold decode0
    rw [encA_op]
    show some (Instr.vote (fmtA (encA 0x28 f))) = _
    rw [fmtA_encA]
theorem Encodes.popm (f : FmtA) : Encodes.Statement (.popm f) := by
  intro _ _
  refine ⟨_, _, rfl, ?_, ?_⟩
  · show (if _ then _ else _) = _
    rw [encA_opcodeOf]; rfl
  · show decode0 (encA 0x29 f) _ = _
    unfold decode0
    rw [encA_op]
    show some (Instr.popm (fmtA (encA 0x29 f))) = _
    rw [fmtA_encA]
theorem Encodes.elect (f : FmtA) : Encodes.Statement (.elect f) := by
  intro _ _
  refine ⟨_, _, rfl, ?_, ?_⟩
  · show (if _ then _ else _) = _
    rw [encA_opcodeOf]; rfl
  · show decode0 (encA 0x2A f) _ = _
    unfold decode0
    rw [encA_op]
    show some (Instr.elect (fmtA (encA 0x2A f))) = _
    rw [fmtA_encA]
theorem Encodes.matchLow (f : FmtA) : Encodes.Statement (.matchLow f) := by
  intro _ _
  refine ⟨_, _, rfl, ?_, ?_⟩
  · show (if _ then _ else _) = _
    rw [encA_opcodeOf]; rfl
  · show decode0 (encA 0x2B f) _ = _
    unfold decode0
    rw [encA_op]
    show some (Instr.matchLow (fmtA (encA 0x2B f))) = _
    rw [fmtA_encA]
theorem Encodes.credInt (f : FmtA) : Encodes.Statement (.credInt f) := by
  intro _ _
  refine ⟨_, _, rfl, ?_, ?_⟩
  · show (if _ then _ else _) = _
    rw [encA_opcodeOf]; rfl
  · show decode0 (encA 0x2C f) _ = _
    unfold decode0
    rw [encA_op]
    show some (Instr.credInt (fmtA (encA 0x2C f))) = _
    rw [fmtA_encA]
theorem Encodes.cscanInt (f : FmtA) : Encodes.Statement (.cscanInt f) := by
  intro _ _
  refine ⟨_, _, rfl, ?_, ?_⟩
  · show (if _ then _ else _) = _
    rw [encA_opcodeOf]; rfl
  · show decode0 (encA 0x2D f) _ = _
    unfold decode0
    rw [encA_op]
    show some (Instr.cscanInt (fmtA (encA 0x2D f))) = _
    rw [fmtA_encA]
theorem Encodes.csredInt (f : FmtA) (lit : Word) : Encodes.Statement (.csredInt f lit) := by
  intro _ _
  refine ⟨_, _, rfl, ?_, ?_⟩
  · show (if _ then _ else _) = _
    rw [encA_opcodeOf]; rfl
  · show decode0 (encA 0x2E f) _ = _
    unfold decode0
    rw [encA_op]
    show some (Instr.csredInt (fmtA (encA 0x2E f)) lit) = _
    rw [fmtA_encA]
theorem Encodes.rngStep (f : FmtA) : Encodes.Statement (.rngStep f) := by
  intro _ _
  refine ⟨_, _, rfl, ?_, ?_⟩
  · show (if _ then _ else _) = _
    rw [encA_opcodeOf]; rfl
  · show decode0 (encA 0x2F f) _ = _
    unfold decode0
    rw [encA_op]
    show some (Instr.rngStep (fmtA (encA 0x2F f))) = _
    rw [fmtA_encA]
theorem Encodes.rngSkip (f : FmtA) : Encodes.Statement (.rngSkip f) := by
  intro _ _
  refine ⟨_, _, rfl, ?_, ?_⟩
  · show (if _ then _ else _) = _
    rw [encA_opcodeOf]; rfl
  · show decode0 (encA 0x30 f) _ = _
    unfold decode0
    rw [encA_op]
    show some (Instr.rngSkip (fmtA (encA 0x30 f))) = _
    rw [fmtA_encA]
theorem Encodes.fadd (f : FmtA) : Encodes.Statement (.fadd f) := by
  intro _ _
  refine ⟨_, _, rfl, ?_, ?_⟩
  · show (if _ then _ else _) = _
    rw [encA_opcodeOf]; rfl
  · show decode1 (encA 0x01 f) _ = _
    unfold decode1
    rw [encA_op]
    show some (Instr.fadd (fmtA (encA 0x01 f))) = _
    rw [fmtA_encA]
theorem Encodes.fsub (f : FmtA) : Encodes.Statement (.fsub f) := by
  intro _ _
  refine ⟨_, _, rfl, ?_, ?_⟩
  · show (if _ then _ else _) = _
    rw [encA_opcodeOf]; rfl
  · show decode1 (encA 0x02 f) _ = _
    unfold decode1
    rw [encA_op]
    show some (Instr.fsub (fmtA (encA 0x02 f))) = _
    rw [fmtA_encA]
theorem Encodes.fmul (f : FmtA) : Encodes.Statement (.fmul f) := by
  intro _ _
  refine ⟨_, _, rfl, ?_, ?_⟩
  · show (if _ then _ else _) = _
    rw [encA_opcodeOf]; rfl
  · show decode1 (encA 0x03 f) _ = _
    unfold decode1
    rw [encA_op]
    show some (Instr.fmul (fmtA (encA 0x03 f))) = _
    rw [fmtA_encA]
theorem Encodes.ffma (f : FmtA) (lit : Word) : Encodes.Statement (.ffma f lit) := by
  intro _ _
  refine ⟨_, _, rfl, ?_, ?_⟩
  · show (if _ then _ else _) = _
    rw [encA_opcodeOf]; rfl
  · show decode1 (encA 0x04 f) _ = _
    unfold decode1
    rw [encA_op]
    show some (Instr.ffma (fmtA (encA 0x04 f)) lit) = _
    rw [fmtA_encA]
theorem Encodes.fmin (f : FmtA) : Encodes.Statement (.fmin f) := by
  intro _ _
  refine ⟨_, _, rfl, ?_, ?_⟩
  · show (if _ then _ else _) = _
    rw [encA_opcodeOf]; rfl
  · show decode1 (encA 0x05 f) _ = _
    unfold decode1
    rw [encA_op]
    show some (Instr.fmin (fmtA (encA 0x05 f))) = _
    rw [fmtA_encA]
theorem Encodes.fmax (f : FmtA) : Encodes.Statement (.fmax f) := by
  intro _ _
  refine ⟨_, _, rfl, ?_, ?_⟩
  · show (if _ then _ else _) = _
    rw [encA_opcodeOf]; rfl
  · show decode1 (encA 0x06 f) _ = _
    unfold decode1
    rw [encA_op]
    show some (Instr.fmax (fmtA (encA 0x06 f))) = _
    rw [fmtA_encA]
theorem Encodes.fcmpEq (f : FmtA) : Encodes.Statement (.fcmpEq f) := by
  intro _ _
  refine ⟨_, _, rfl, ?_, ?_⟩
  · show (if _ then _ else _) = _
    rw [encA_opcodeOf]; rfl
  · show decode1 (encA 0x07 f) _ = _
    unfold decode1
    rw [encA_op]
    show some (Instr.fcmpEq (fmtA (encA 0x07 f))) = _
    rw [fmtA_encA]
theorem Encodes.fcmpNe (f : FmtA) : Encodes.Statement (.fcmpNe f) := by
  intro _ _
  refine ⟨_, _, rfl, ?_, ?_⟩
  · show (if _ then _ else _) = _
    rw [encA_opcodeOf]; rfl
  · show decode1 (encA 0x08 f) _ = _
    unfold decode1
    rw [encA_op]
    show some (Instr.fcmpNe (fmtA (encA 0x08 f))) = _
    rw [fmtA_encA]
theorem Encodes.fcmpLt (f : FmtA) : Encodes.Statement (.fcmpLt f) := by
  intro _ _
  refine ⟨_, _, rfl, ?_, ?_⟩
  · show (if _ then _ else _) = _
    rw [encA_opcodeOf]; rfl
  · show decode1 (encA 0x09 f) _ = _
    unfold decode1
    rw [encA_op]
    show some (Instr.fcmpLt (fmtA (encA 0x09 f))) = _
    rw [fmtA_encA]
theorem Encodes.fcmpLe (f : FmtA) : Encodes.Statement (.fcmpLe f) := by
  intro _ _
  refine ⟨_, _, rfl, ?_, ?_⟩
  · show (if _ then _ else _) = _
    rw [encA_opcodeOf]; rfl
  · show decode1 (encA 0x0A f) _ = _
    unfold decode1
    rw [encA_op]
    show some (Instr.fcmpLe (fmtA (encA 0x0A f))) = _
    rw [fmtA_encA]
theorem Encodes.fcmpGt (f : FmtA) : Encodes.Statement (.fcmpGt f) := by
  intro _ _
  refine ⟨_, _, rfl, ?_, ?_⟩
  · show (if _ then _ else _) = _
    rw [encA_opcodeOf]; rfl
  · show decode1 (encA 0x0B f) _ = _
    unfold decode1
    rw [encA_op]
    show some (Instr.fcmpGt (fmtA (encA 0x0B f))) = _
    rw [fmtA_encA]
theorem Encodes.fcmpGe (f : FmtA) : Encodes.Statement (.fcmpGe f) := by
  intro _ _
  refine ⟨_, _, rfl, ?_, ?_⟩
  · show (if _ then _ else _) = _
    rw [encA_opcodeOf]; rfl
  · show decode1 (encA 0x0C f) _ = _
    unfold decode1
    rw [encA_op]
    show some (Instr.fcmpGe (fmtA (encA 0x0C f))) = _
    rw [fmtA_encA]
theorem Encodes.frcp (f : FmtA) : Encodes.Statement (.frcp f) := by
  intro _ _
  refine ⟨_, _, rfl, ?_, ?_⟩
  · show (if _ then _ else _) = _
    rw [encA_opcodeOf]; rfl
  · show decode1 (encA 0x0D f) _ = _
    unfold decode1
    rw [encA_op]
    show some (Instr.frcp (fmtA (encA 0x0D f))) = _
    rw [fmtA_encA]
theorem Encodes.frsq (f : FmtA) : Encodes.Statement (.frsq f) := by
  intro _ _
  refine ⟨_, _, rfl, ?_, ?_⟩
  · show (if _ then _ else _) = _
    rw [encA_opcodeOf]; rfl
  · show decode1 (encA 0x0E f) _ = _
    unfold decode1
    rw [encA_op]
    show some (Instr.frsq (fmtA (encA 0x0E f))) = _
    rw [fmtA_encA]
theorem Encodes.fsqrt (f : FmtA) : Encodes.Statement (.fsqrt f) := by
  intro _ _
  refine ⟨_, _, rfl, ?_, ?_⟩
  · show (if _ then _ else _) = _
    rw [encA_opcodeOf]; rfl
  · show decode1 (encA 0x0F f) _ = _
    unfold decode1
    rw [encA_op]
    show some (Instr.fsqrt (fmtA (encA 0x0F f))) = _
    rw [fmtA_encA]
theorem Encodes.fdiv (f : FmtA) : Encodes.Statement (.fdiv f) := by
  intro _ _
  refine ⟨_, _, rfl, ?_, ?_⟩
  · show (if _ then _ else _) = _
    rw [encA_opcodeOf]; rfl
  · show decode1 (encA 0x10 f) _ = _
    unfold decode1
    rw [encA_op]
    show some (Instr.fdiv (fmtA (encA 0x10 f))) = _
    rw [fmtA_encA]
theorem Encodes.fexp2 (f : FmtA) : Encodes.Statement (.fexp2 f) := by
  intro _ _
  refine ⟨_, _, rfl, ?_, ?_⟩
  · show (if _ then _ else _) = _
    rw [encA_opcodeOf]; rfl
  · show decode1 (encA 0x11 f) _ = _
    unfold decode1
    rw [encA_op]
    show some (Instr.fexp2 (fmtA (encA 0x11 f))) = _
    rw [fmtA_encA]
theorem Encodes.flog2 (f : FmtA) : Encodes.Statement (.flog2 f) := by
  intro _ _
  refine ⟨_, _, rfl, ?_, ?_⟩
  · show (if _ then _ else _) = _
    rw [encA_opcodeOf]; rfl
  · show decode1 (encA 0x12 f) _ = _
    unfold decode1
    rw [encA_op]
    show some (Instr.flog2 (fmtA (encA 0x12 f))) = _
    rw [fmtA_encA]
theorem Encodes.fsin (f : FmtA) : Encodes.Statement (.fsin f) := by
  intro _ _
  refine ⟨_, _, rfl, ?_, ?_⟩
  · show (if _ then _ else _) = _
    rw [encA_opcodeOf]; rfl
  · show decode1 (encA 0x13 f) _ = _
    unfold decode1
    rw [encA_op]
    show some (Instr.fsin (fmtA (encA 0x13 f))) = _
    rw [fmtA_encA]
theorem Encodes.fcos (f : FmtA) : Encodes.Statement (.fcos f) := by
  intro _ _
  refine ⟨_, _, rfl, ?_, ?_⟩
  · show (if _ then _ else _) = _
    rw [encA_opcodeOf]; rfl
  · show decode1 (encA 0x14 f) _ = _
    unfold decode1
    rw [encA_op]
    show some (Instr.fcos (fmtA (encA 0x14 f))) = _
    rw [fmtA_encA]
theorem Encodes.fround (f : FmtI) : Encodes.Statement (.fround f) := by
  intro _ _
  refine ⟨_, _, rfl, ?_, ?_⟩
  · show (if _ then _ else _) = _
    rw [encI_opcodeOf]; rfl
  · show decode1 (encI 0x15 f) _ = _
    unfold decode1
    rw [encI_op]
    show some (Instr.fround (fmtI (encI 0x15 f))) = _
    rw [fmtI_encI]
theorem Encodes.fcvt (f : FmtI) : Encodes.Statement (.fcvt f) := by
  intro _ _
  refine ⟨_, _, rfl, ?_, ?_⟩
  · show (if _ then _ else _) = _
    rw [encI_opcodeOf]; rfl
  · show decode1 (encI 0x16 f) _ = _
    unfold decode1
    rw [encI_op]
    show some (Instr.fcvt (fmtI (encI 0x16 f))) = _
    rw [fmtI_encI]
theorem Encodes.i2f (f : FmtA) : Encodes.Statement (.i2f f) := by
  intro _ _
  refine ⟨_, _, rfl, ?_, ?_⟩
  · show (if _ then _ else _) = _
    rw [encA_opcodeOf]; rfl
  · show decode1 (encA 0x17 f) _ = _
    unfold decode1
    rw [encA_op]
    show some (Instr.i2f (fmtA (encA 0x17 f))) = _
    rw [fmtA_encA]
theorem Encodes.f2i (f : FmtA) : Encodes.Statement (.f2i f) := by
  intro _ _
  refine ⟨_, _, rfl, ?_, ?_⟩
  · show (if _ then _ else _) = _
    rw [encA_opcodeOf]; rfl
  · show decode1 (encA 0x18 f) _ = _
    unfold decode1
    rw [encA_op]
    show some (Instr.f2i (fmtA (encA 0x18 f))) = _
    rw [fmtA_encA]
theorem Encodes.fscale (f : FmtA) : Encodes.Statement (.fscale f) := by
  intro _ _
  refine ⟨_, _, rfl, ?_, ?_⟩
  · show (if _ then _ else _) = _
    rw [encA_opcodeOf]; rfl
  · show decode1 (encA 0x19 f) _ = _
    unfold decode1
    rw [encA_op]
    show some (Instr.fscale (fmtA (encA 0x19 f))) = _
    rw [fmtA_encA]
theorem Encodes.dp4 (f : FmtA) (lit : Word) : Encodes.Statement (.dp4 f lit) := by
  intro _ _
  refine ⟨_, _, rfl, ?_, ?_⟩
  · show (if _ then _ else _) = _
    rw [encA_opcodeOf]; rfl
  · show decode1 (encA 0x1A f) _ = _
    unfold decode1
    rw [encA_op]
    show some (Instr.dp4 (fmtA (encA 0x1A f)) lit) = _
    rw [fmtA_encA]
theorem Encodes.dp8 (f : FmtA) (lit : Word) : Encodes.Statement (.dp8 f lit) := by
  intro _ _
  refine ⟨_, _, rfl, ?_, ?_⟩
  · show (if _ then _ else _) = _
    rw [encA_opcodeOf]; rfl
  · show decode1 (encA 0x1B f) _ = _
    unfold decode1
    rw [encA_op]
    show some (Instr.dp8 (fmtA (encA 0x1B f)) lit) = _
    rw [fmtA_encA]
theorem Encodes.pk (f : FmtI) : Encodes.Statement (.pk f) := by
  intro _ _
  refine ⟨_, _, rfl, ?_, ?_⟩
  · show (if _ then _ else _) = _
    rw [encI_opcodeOf]; rfl
  · show decode1 (encI 0x1C f) _ = _
    unfold decode1
    rw [encI_op]
    show some (Instr.pk (fmtI (encI 0x1C f))) = _
    rw [fmtI_encI]
theorem Encodes.upk (f : FmtI) : Encodes.Statement (.upk f) := by
  intro _ _
  refine ⟨_, _, rfl, ?_, ?_⟩
  · show (if _ then _ else _) = _
    rw [encI_opcodeOf]; rfl
  · show decode1 (encI 0x1D f) _ = _
    unfold decode1
    rw [encI_op]
    show some (Instr.upk (fmtI (encI 0x1D f))) = _
    rw [fmtI_encI]
theorem Encodes.credFloat (f : FmtA) : Encodes.Statement (.credFloat f) := by
  intro _ _
  refine ⟨_, _, rfl, ?_, ?_⟩
  · show (if _ then _ else _) = _
    rw [encA_opcodeOf]; rfl
  · show decode1 (encA 0x1E f) _ = _
    unfold decode1
    rw [encA_op]
    show some (Instr.credFloat (fmtA (encA 0x1E f))) = _
    rw [fmtA_encA]
theorem Encodes.cscanFloat (f : FmtA) : Encodes.Statement (.cscanFloat f) := by
  intro _ _
  refine ⟨_, _, rfl, ?_, ?_⟩
  · show (if _ then _ else _) = _
    rw [encA_opcodeOf]; rfl
  · show decode1 (encA 0x1F f) _ = _
    unfold decode1
    rw [encA_op]
    show some (Instr.cscanFloat (fmtA (encA 0x1F f))) = _
    rw [fmtA_encA]
theorem Encodes.csredFloat (f : FmtA) (lit : Word) : Encodes.Statement (.csredFloat f lit) := by
  intro _ _
  refine ⟨_, _, rfl, ?_, ?_⟩
  · show (if _ then _ else _) = _
    rw [encA_opcodeOf]; rfl
  · show decode1 (encA 0x20 f) _ = _
    unfold decode1
    rw [encA_op]
    show some (Instr.csredFloat (fmtA (encA 0x20 f)) lit) = _
    rw [fmtA_encA]
theorem Encodes.ldI8 (f : FmtM) (ix : Word) : Encodes.Statement (.ldI8 f ix) := by
  intro h _
  refine ⟨_, _, rfl, ?_, ?_⟩
  · show (if _ then _ else if _ then _ else if _ then _ else _) = _
    rw [encM_opcodeOf, fmtM_encM]
    exact (encLit_length f ix).symm
  · show decode2 (encM 0x01 f) _ = _
    unfold decode2
    rw [encM_op]
    show some (Instr.ldI8 (fmtM (encM 0x01 f)) (litM (encM 0x01 f) (encLit f ix))) = _
    rw [fmtM_encM, litM_encLit 0x01 f ix (Encodes.literals h)]
theorem Encodes.ldN8 (f : FmtM) (ix : Word) : Encodes.Statement (.ldN8 f ix) := by
  intro h _
  refine ⟨_, _, rfl, ?_, ?_⟩
  · show (if _ then _ else if _ then _ else if _ then _ else _) = _
    rw [encM_opcodeOf, fmtM_encM]
    exact (encLit_length f ix).symm
  · show decode2 (encM 0x02 f) _ = _
    unfold decode2
    rw [encM_op]
    show some (Instr.ldN8 (fmtM (encM 0x02 f)) (litM (encM 0x02 f) (encLit f ix))) = _
    rw [fmtM_encM, litM_encLit 0x02 f ix (Encodes.literals h)]
theorem Encodes.ldI16 (f : FmtM) (ix : Word) : Encodes.Statement (.ldI16 f ix) := by
  intro h _
  refine ⟨_, _, rfl, ?_, ?_⟩
  · show (if _ then _ else if _ then _ else if _ then _ else _) = _
    rw [encM_opcodeOf, fmtM_encM]
    exact (encLit_length f ix).symm
  · show decode2 (encM 0x03 f) _ = _
    unfold decode2
    rw [encM_op]
    show some (Instr.ldI16 (fmtM (encM 0x03 f)) (litM (encM 0x03 f) (encLit f ix))) = _
    rw [fmtM_encM, litM_encLit 0x03 f ix (Encodes.literals h)]
theorem Encodes.ldN16 (f : FmtM) (ix : Word) : Encodes.Statement (.ldN16 f ix) := by
  intro h _
  refine ⟨_, _, rfl, ?_, ?_⟩
  · show (if _ then _ else if _ then _ else if _ then _ else _) = _
    rw [encM_opcodeOf, fmtM_encM]
    exact (encLit_length f ix).symm
  · show decode2 (encM 0x04 f) _ = _
    unfold decode2
    rw [encM_op]
    show some (Instr.ldN16 (fmtM (encM 0x04 f)) (litM (encM 0x04 f) (encLit f ix))) = _
    rw [fmtM_encM, litM_encLit 0x04 f ix (Encodes.literals h)]
theorem Encodes.ldW32 (f : FmtM) (ix : Word) : Encodes.Statement (.ldW32 f ix) := by
  intro h _
  refine ⟨_, _, rfl, ?_, ?_⟩
  · show (if _ then _ else if _ then _ else if _ then _ else _) = _
    rw [encM_opcodeOf, fmtM_encM]
    exact (encLit_length f ix).symm
  · show decode2 (encM 0x05 f) _ = _
    unfold decode2
    rw [encM_op]
    show some (Instr.ldW32 (fmtM (encM 0x05 f)) (litM (encM 0x05 f) (encLit f ix))) = _
    rw [fmtM_encM, litM_encLit 0x05 f ix (Encodes.literals h)]
theorem Encodes.ldW64 (f : FmtM) (ix : Word) : Encodes.Statement (.ldW64 f ix) := by
  intro h _
  refine ⟨_, _, rfl, ?_, ?_⟩
  · show (if _ then _ else if _ then _ else if _ then _ else _) = _
    rw [encM_opcodeOf, fmtM_encM]
    exact (encLit_length f ix).symm
  · show decode2 (encM 0x06 f) _ = _
    unfold decode2
    rw [encM_op]
    show some (Instr.ldW64 (fmtM (encM 0x06 f)) (litM (encM 0x06 f) (encLit f ix))) = _
    rw [fmtM_encM, litM_encLit 0x06 f ix (Encodes.literals h)]
theorem Encodes.ldW128 (f : FmtM) (ix : Word) : Encodes.Statement (.ldW128 f ix) := by
  intro h _
  refine ⟨_, _, rfl, ?_, ?_⟩
  · show (if _ then _ else if _ then _ else if _ then _ else _) = _
    rw [encM_opcodeOf, fmtM_encM]
    exact (encLit_length f ix).symm
  · show decode2 (encM 0x07 f) _ = _
    unfold decode2
    rw [encM_op]
    show some (Instr.ldW128 (fmtM (encM 0x07 f)) (litM (encM 0x07 f) (encLit f ix))) = _
    rw [fmtM_encM, litM_encLit 0x07 f ix (Encodes.literals h)]
theorem Encodes.stN8 (f : FmtM) (ix : Word) : Encodes.Statement (.stN8 f ix) := by
  intro h _
  refine ⟨_, _, rfl, ?_, ?_⟩
  · show (if _ then _ else if _ then _ else if _ then _ else _) = _
    rw [encM_opcodeOf, fmtM_encM]
    exact (encLit_length f ix).symm
  · show decode2 (encM 0x08 f) _ = _
    unfold decode2
    rw [encM_op]
    show some (Instr.stN8 (fmtM (encM 0x08 f)) (litM (encM 0x08 f) (encLit f ix))) = _
    rw [fmtM_encM, litM_encLit 0x08 f ix (Encodes.literals h)]
theorem Encodes.stN16 (f : FmtM) (ix : Word) : Encodes.Statement (.stN16 f ix) := by
  intro h _
  refine ⟨_, _, rfl, ?_, ?_⟩
  · show (if _ then _ else if _ then _ else if _ then _ else _) = _
    rw [encM_opcodeOf, fmtM_encM]
    exact (encLit_length f ix).symm
  · show decode2 (encM 0x09 f) _ = _
    unfold decode2
    rw [encM_op]
    show some (Instr.stN16 (fmtM (encM 0x09 f)) (litM (encM 0x09 f) (encLit f ix))) = _
    rw [fmtM_encM, litM_encLit 0x09 f ix (Encodes.literals h)]
theorem Encodes.stW32 (f : FmtM) (ix : Word) : Encodes.Statement (.stW32 f ix) := by
  intro h _
  refine ⟨_, _, rfl, ?_, ?_⟩
  · show (if _ then _ else if _ then _ else if _ then _ else _) = _
    rw [encM_opcodeOf, fmtM_encM]
    exact (encLit_length f ix).symm
  · show decode2 (encM 0x0A f) _ = _
    unfold decode2
    rw [encM_op]
    show some (Instr.stW32 (fmtM (encM 0x0A f)) (litM (encM 0x0A f) (encLit f ix))) = _
    rw [fmtM_encM, litM_encLit 0x0A f ix (Encodes.literals h)]
theorem Encodes.stW64 (f : FmtM) (ix : Word) : Encodes.Statement (.stW64 f ix) := by
  intro h _
  refine ⟨_, _, rfl, ?_, ?_⟩
  · show (if _ then _ else if _ then _ else if _ then _ else _) = _
    rw [encM_opcodeOf, fmtM_encM]
    exact (encLit_length f ix).symm
  · show decode2 (encM 0x0B f) _ = _
    unfold decode2
    rw [encM_op]
    show some (Instr.stW64 (fmtM (encM 0x0B f)) (litM (encM 0x0B f) (encLit f ix))) = _
    rw [fmtM_encM, litM_encLit 0x0B f ix (Encodes.literals h)]
theorem Encodes.stW128 (f : FmtM) (ix : Word) : Encodes.Statement (.stW128 f ix) := by
  intro h _
  refine ⟨_, _, rfl, ?_, ?_⟩
  · show (if _ then _ else if _ then _ else if _ then _ else _) = _
    rw [encM_opcodeOf, fmtM_encM]
    exact (encLit_length f ix).symm
  · show decode2 (encM 0x0C f) _ = _
    unfold decode2
    rw [encM_op]
    show some (Instr.stW128 (fmtM (encM 0x0C f)) (litM (encM 0x0C f) (encLit f ix))) = _
    rw [fmtM_encM, litM_encLit 0x0C f ix (Encodes.literals h)]
theorem Encodes.ldbPeek (f : FmtM) (ix : Word) : Encodes.Statement (.ldbPeek f ix) := by
  intro h _
  refine ⟨_, _, rfl, ?_, ?_⟩
  · show (if _ then _ else if _ then _ else if _ then _ else _) = _
    rw [encM_opcodeOf, fmtM_encM]
    exact (encLit_length f ix).symm
  · show decode2 (encM 0x0D f) _ = _
    unfold decode2
    rw [encM_op]
    show some (Instr.ldbPeek (fmtM (encM 0x0D f)) (litM (encM 0x0D f) (encLit f ix))) = _
    rw [fmtM_encM, litM_encLit 0x0D f ix (Encodes.literals h)]
theorem Encodes.ldbTake (f : FmtM) (ix : Word) : Encodes.Statement (.ldbTake f ix) := by
  intro h _
  refine ⟨_, _, rfl, ?_, ?_⟩
  · show (if _ then _ else if _ then _ else if _ then _ else _) = _
    rw [encM_opcodeOf, fmtM_encM]
    exact (encLit_length f ix).symm
  · show decode2 (encM 0x0E f) _ = _
    unfold decode2
    rw [encM_op]
    show some (Instr.ldbTake (fmtM (encM 0x0E f)) (litM (encM 0x0E f) (encLit f ix))) = _
    rw [fmtM_encM, litM_encLit 0x0E f ix (Encodes.literals h)]
theorem Encodes.stb (f : FmtM) (ix : Word) : Encodes.Statement (.stb f ix) := by
  intro h _
  refine ⟨_, _, rfl, ?_, ?_⟩
  · show (if _ then _ else if _ then _ else if _ then _ else _) = _
    rw [encM_opcodeOf, fmtM_encM]
    exact (encLit_length f ix).symm
  · show decode2 (encM 0x0F f) _ = _
    unfold decode2
    rw [encM_op]
    show some (Instr.stb (fmtM (encM 0x0F f)) (litM (encM 0x0F f) (encLit f ix))) = _
    rw [fmtM_encM, litM_encLit 0x0F f ix (Encodes.literals h)]
theorem Encodes.stbMark (f : FmtM) (ix : Word) : Encodes.Statement (.stbMark f ix) := by
  intro h _
  refine ⟨_, _, rfl, ?_, ?_⟩
  · show (if _ then _ else if _ then _ else if _ then _ else _) = _
    rw [encM_opcodeOf, fmtM_encM]
    exact (encLit_length f ix).symm
  · show decode2 (encM 0x10 f) _ = _
    unfold decode2
    rw [encM_op]
    show some (Instr.stbMark (fmtM (encM 0x10 f)) (litM (encM 0x10 f) (encLit f ix))) = _
    rw [fmtM_encM, litM_encLit 0x10 f ix (Encodes.literals h)]
theorem Encodes.tld (f : FmtM) (lit : Word) : Encodes.Statement (.tld f lit) := by
  intro _ _
  refine ⟨_, _, rfl, ?_, ?_⟩
  · show (if _ then _ else if _ then _ else if _ then _ else _) = _
    rw [encM_opcodeOf]; rfl
  · show decode2 (encM 0x11 f) _ = _
    unfold decode2
    rw [encM_op]
    show some (Instr.tld (fmtM (encM 0x11 f)) lit) = _
    rw [fmtM_encM]
theorem Encodes.tst (f : FmtM) (lit : Word) : Encodes.Statement (.tst f lit) := by
  intro _ _
  refine ⟨_, _, rfl, ?_, ?_⟩
  · show (if _ then _ else if _ then _ else if _ then _ else _) = _
    rw [encM_opcodeOf]; rfl
  · show decode2 (encM 0x12 f) _ = _
    unfold decode2
    rw [encM_op]
    show some (Instr.tst (fmtM (encM 0x12 f)) lit) = _
    rw [fmtM_encM]
theorem Encodes.tldWin (f : FmtM) (lit : Word) : Encodes.Statement (.tldWin f lit) := by
  intro _ _
  refine ⟨_, _, rfl, ?_, ?_⟩
  · show (if _ then _ else if _ then _ else if _ then _ else _) = _
    rw [encM_opcodeOf]; rfl
  · show decode2 (encM 0x13 f) _ = _
    unfold decode2
    rw [encM_op]
    show some (Instr.tldWin (fmtM (encM 0x13 f)) lit) = _
    rw [fmtM_encM]
theorem Encodes.amoAdd (f : FmtM) (ix : Word) : Encodes.Statement (.amoAdd f ix) := by
  intro h _
  refine ⟨_, _, rfl, ?_, ?_⟩
  · show (if _ then _ else if _ then _ else if _ then _ else _) = _
    rw [encM_opcodeOf, fmtM_encM]
    exact (encLit_length f ix).symm
  · show decode2 (encM 0x14 f) _ = _
    unfold decode2
    rw [encM_op]
    show some (Instr.amoAdd (fmtM (encM 0x14 f)) (litM (encM 0x14 f) (encLit f ix))) = _
    rw [fmtM_encM, litM_encLit 0x14 f ix (Encodes.literals h)]
theorem Encodes.amoMin (f : FmtM) (ix : Word) : Encodes.Statement (.amoMin f ix) := by
  intro h _
  refine ⟨_, _, rfl, ?_, ?_⟩
  · show (if _ then _ else if _ then _ else if _ then _ else _) = _
    rw [encM_opcodeOf, fmtM_encM]
    exact (encLit_length f ix).symm
  · show decode2 (encM 0x15 f) _ = _
    unfold decode2
    rw [encM_op]
    show some (Instr.amoMin (fmtM (encM 0x15 f)) (litM (encM 0x15 f) (encLit f ix))) = _
    rw [fmtM_encM, litM_encLit 0x15 f ix (Encodes.literals h)]
theorem Encodes.amoMax (f : FmtM) (ix : Word) : Encodes.Statement (.amoMax f ix) := by
  intro h _
  refine ⟨_, _, rfl, ?_, ?_⟩
  · show (if _ then _ else if _ then _ else if _ then _ else _) = _
    rw [encM_opcodeOf, fmtM_encM]
    exact (encLit_length f ix).symm
  · show decode2 (encM 0x16 f) _ = _
    unfold decode2
    rw [encM_op]
    show some (Instr.amoMax (fmtM (encM 0x16 f)) (litM (encM 0x16 f) (encLit f ix))) = _
    rw [fmtM_encM, litM_encLit 0x16 f ix (Encodes.literals h)]
theorem Encodes.amoAnd (f : FmtM) (ix : Word) : Encodes.Statement (.amoAnd f ix) := by
  intro h _
  refine ⟨_, _, rfl, ?_, ?_⟩
  · show (if _ then _ else if _ then _ else if _ then _ else _) = _
    rw [encM_opcodeOf, fmtM_encM]
    exact (encLit_length f ix).symm
  · show decode2 (encM 0x17 f) _ = _
    unfold decode2
    rw [encM_op]
    show some (Instr.amoAnd (fmtM (encM 0x17 f)) (litM (encM 0x17 f) (encLit f ix))) = _
    rw [fmtM_encM, litM_encLit 0x17 f ix (Encodes.literals h)]
theorem Encodes.amoOr (f : FmtM) (ix : Word) : Encodes.Statement (.amoOr f ix) := by
  intro h _
  refine ⟨_, _, rfl, ?_, ?_⟩
  · show (if _ then _ else if _ then _ else if _ then _ else _) = _
    rw [encM_opcodeOf, fmtM_encM]
    exact (encLit_length f ix).symm
  · show decode2 (encM 0x18 f) _ = _
    unfold decode2
    rw [encM_op]
    show some (Instr.amoOr (fmtM (encM 0x18 f)) (litM (encM 0x18 f) (encLit f ix))) = _
    rw [fmtM_encM, litM_encLit 0x18 f ix (Encodes.literals h)]
theorem Encodes.amoXor (f : FmtM) (ix : Word) : Encodes.Statement (.amoXor f ix) := by
  intro h _
  refine ⟨_, _, rfl, ?_, ?_⟩
  · show (if _ then _ else if _ then _ else if _ then _ else _) = _
    rw [encM_opcodeOf, fmtM_encM]
    exact (encLit_length f ix).symm
  · show decode2 (encM 0x19 f) _ = _
    unfold decode2
    rw [encM_op]
    show some (Instr.amoXor (fmtM (encM 0x19 f)) (litM (encM 0x19 f) (encLit f ix))) = _
    rw [fmtM_encM, litM_encLit 0x19 f ix (Encodes.literals h)]
theorem Encodes.amoExch (f : FmtM) (ix : Word) : Encodes.Statement (.amoExch f ix) := by
  intro h _
  refine ⟨_, _, rfl, ?_, ?_⟩
  · show (if _ then _ else if _ then _ else if _ then _ else _) = _
    rw [encM_opcodeOf, fmtM_encM]
    exact (encLit_length f ix).symm
  · show decode2 (encM 0x1A f) _ = _
    unfold decode2
    rw [encM_op]
    show some (Instr.amoExch (fmtM (encM 0x1A f)) (litM (encM 0x1A f) (encLit f ix))) = _
    rw [fmtM_encM, litM_encLit 0x1A f ix (Encodes.literals h)]
theorem Encodes.amoCas (f : FmtM) (ix : Word) (cmp : Word) : Encodes.Statement (.amoCas f ix cmp) := by
  intro h _
  refine ⟨_, _, rfl, ?_, ?_⟩
  · show (if _ then _ else if _ then _ else if _ then _ else _) = _
    rw [encM_opcodeOf, fmtM_encM]
    show f.e.toNat + 1 = (encLit f ix ++ [cmp]).length
    rw [List.length_append, encLit_length]; rfl
  · show decode2 (encM 0x1B f) _ = _
    unfold decode2
    rw [encM_op]
    show some (Instr.amoCas (fmtM (encM 0x1B f)) (litM (encM 0x1B f) (encLit f ix ++ [cmp])) (litCas (encM 0x1B f) (encLit f ix ++ [cmp]))) = _
    have hl : litFits f ix = true := Encodes.literals h
    have e1 : litM (encM 0x1B f) (encLit f ix ++ [cmp]) = ix := by
      rw [← litM_encLit 0x1B f ix hl]
      unfold litM encLit
      rw [fmtM_encM]
      by_cases e : (f.e == 1) = true
      · rw [if_pos e, if_pos e]; rfl
      · rw [if_neg e, if_neg e]
    have e2 : litCas (encM 0x1B f) (encLit f ix ++ [cmp]) = cmp := by
      unfold litCas encLit
      rw [fmtM_encM]
      by_cases e : (f.e == 1) = true
      · rw [if_pos e, if_pos e]; rfl
      · rw [if_neg e, if_neg e]; rfl
    rw [e1, e2, fmtM_encM]
theorem Encodes.redAddI (f : FmtM) (ix : Word) : Encodes.Statement (.redAddI f ix) := by
  intro h _
  refine ⟨_, _, rfl, ?_, ?_⟩
  · show (if _ then _ else if _ then _ else if _ then _ else _) = _
    rw [encM_opcodeOf, fmtM_encM]
    exact (encLit_length f ix).symm
  · show decode2 (encM 0x1C f) _ = _
    unfold decode2
    rw [encM_op]
    show some (Instr.redAddI (fmtM (encM 0x1C f)) (litM (encM 0x1C f) (encLit f ix))) = _
    rw [fmtM_encM, litM_encLit 0x1C f ix (Encodes.literals h)]
theorem Encodes.redAddF32 (f : FmtM) (ix : Word) : Encodes.Statement (.redAddF32 f ix) := by
  intro h _
  refine ⟨_, _, rfl, ?_, ?_⟩
  · show (if _ then _ else if _ then _ else if _ then _ else _) = _
    rw [encM_opcodeOf, fmtM_encM]
    exact (encLit_length f ix).symm
  · show decode2 (encM 0x1D f) _ = _
    unfold decode2
    rw [encM_op]
    show some (Instr.redAddF32 (fmtM (encM 0x1D f)) (litM (encM 0x1D f) (encLit f ix))) = _
    rw [fmtM_encM, litM_encLit 0x1D f ix (Encodes.literals h)]
theorem Encodes.redAddX (f : FmtM) (ix : Word) : Encodes.Statement (.redAddX f ix) := by
  intro h _
  refine ⟨_, _, rfl, ?_, ?_⟩
  · show (if _ then _ else if _ then _ else if _ then _ else _) = _
    rw [encM_opcodeOf, fmtM_encM]
    exact (encLit_length f ix).symm
  · show decode2 (encM 0x1E f) _ = _
    unfold decode2
    rw [encM_op]
    show some (Instr.redAddX (fmtM (encM 0x1E f)) (litM (encM 0x1E f) (encLit f ix))) = _
    rw [fmtM_encM, litM_encLit 0x1E f ix (Encodes.literals h)]
theorem Encodes.redMin (f : FmtM) (ix : Word) : Encodes.Statement (.redMin f ix) := by
  intro h _
  refine ⟨_, _, rfl, ?_, ?_⟩
  · show (if _ then _ else if _ then _ else if _ then _ else _) = _
    rw [encM_opcodeOf, fmtM_encM]
    exact (encLit_length f ix).symm
  · show decode2 (encM 0x1F f) _ = _
    unfold decode2
    rw [encM_op]
    show some (Instr.redMin (fmtM (encM 0x1F f)) (litM (encM 0x1F f) (encLit f ix))) = _
    rw [fmtM_encM, litM_encLit 0x1F f ix (Encodes.literals h)]
theorem Encodes.redMax (f : FmtM) (ix : Word) : Encodes.Statement (.redMax f ix) := by
  intro h _
  refine ⟨_, _, rfl, ?_, ?_⟩
  · show (if _ then _ else if _ then _ else if _ then _ else _) = _
    rw [encM_opcodeOf, fmtM_encM]
    exact (encLit_length f ix).symm
  · show decode2 (encM 0x20 f) _ = _
    unfold decode2
    rw [encM_op]
    show some (Instr.redMax (fmtM (encM 0x20 f)) (litM (encM 0x20 f) (encLit f ix))) = _
    rw [fmtM_encM, litM_encLit 0x20 f ix (Encodes.literals h)]
theorem Encodes.redAnd (f : FmtM) (ix : Word) : Encodes.Statement (.redAnd f ix) := by
  intro h _
  refine ⟨_, _, rfl, ?_, ?_⟩
  · show (if _ then _ else if _ then _ else if _ then _ else _) = _
    rw [encM_opcodeOf, fmtM_encM]
    exact (encLit_length f ix).symm
  · show decode2 (encM 0x21 f) _ = _
    unfold decode2
    rw [encM_op]
    show some (Instr.redAnd (fmtM (encM 0x21 f)) (litM (encM 0x21 f) (encLit f ix))) = _
    rw [fmtM_encM, litM_encLit 0x21 f ix (Encodes.literals h)]
theorem Encodes.redOr (f : FmtM) (ix : Word) : Encodes.Statement (.redOr f ix) := by
  intro h _
  refine ⟨_, _, rfl, ?_, ?_⟩
  · show (if _ then _ else if _ then _ else if _ then _ else _) = _
    rw [encM_opcodeOf, fmtM_encM]
    exact (encLit_length f ix).symm
  · show decode2 (encM 0x22 f) _ = _
    unfold decode2
    rw [encM_op]
    show some (Instr.redOr (fmtM (encM 0x22 f)) (litM (encM 0x22 f) (encLit f ix))) = _
    rw [fmtM_encM, litM_encLit 0x22 f ix (Encodes.literals h)]
theorem Encodes.redXor (f : FmtM) (ix : Word) : Encodes.Statement (.redXor f ix) := by
  intro h _
  refine ⟨_, _, rfl, ?_, ?_⟩
  · show (if _ then _ else if _ then _ else if _ then _ else _) = _
    rw [encM_opcodeOf, fmtM_encM]
    exact (encLit_length f ix).symm
  · show decode2 (encM 0x23 f) _ = _
    unfold decode2
    rw [encM_op]
    show some (Instr.redXor (fmtM (encM 0x23 f)) (litM (encM 0x23 f) (encLit f ix))) = _
    rw [fmtM_encM, litM_encLit 0x23 f ix (Encodes.literals h)]
theorem Encodes.xflush (f : FmtM) (ix : Word) : Encodes.Statement (.xflush f ix) := by
  intro h _
  refine ⟨_, _, rfl, ?_, ?_⟩
  · show (if _ then _ else if _ then _ else if _ then _ else _) = _
    rw [encM_opcodeOf, fmtM_encM]
    exact (encLit_length f ix).symm
  · show decode2 (encM 0x24 f) _ = _
    unfold decode2
    rw [encM_op]
    show some (Instr.xflush (fmtM (encM 0x24 f)) (litM (encM 0x24 f) (encLit f ix))) = _
    rw [fmtM_encM, litM_encLit 0x24 f ix (Encodes.literals h)]
theorem Encodes.append (f : FmtM) (ix : Word) : Encodes.Statement (.append f ix) := by
  intro h _
  refine ⟨_, _, rfl, ?_, ?_⟩
  · show (if _ then _ else if _ then _ else if _ then _ else _) = _
    rw [encM_opcodeOf, fmtM_encM]
    exact (encLit_length f ix).symm
  · show decode2 (encM 0x25 f) _ = _
    unfold decode2
    rw [encM_op]
    show some (Instr.append (fmtM (encM 0x25 f)) (litM (encM 0x25 f) (encLit f ix))) = _
    rw [fmtM_encM, litM_encLit 0x25 f ix (Encodes.literals h)]
theorem Encodes.sealPage (f : FmtM) (ix : Word) : Encodes.Statement (.sealPage f ix) := by
  intro h _
  refine ⟨_, _, rfl, ?_, ?_⟩
  · show (if _ then _ else if _ then _ else if _ then _ else _) = _
    rw [encM_opcodeOf, fmtM_encM]
    exact (encLit_length f ix).symm
  · show decode2 (encM 0x26 f) _ = _
    unfold decode2
    rw [encM_op]
    show some (Instr.sealPage (fmtM (encM 0x26 f)) (litM (encM 0x26 f) (encLit f ix))) = _
    rw [fmtM_encM, litM_encLit 0x26 f ix (Encodes.literals h)]
theorem Encodes.fenceInsn (f : FmtM) : Encodes.Statement (.fenceInsn f) := by
  intro _ _
  refine ⟨_, _, rfl, ?_, ?_⟩
  · show (if _ then _ else if _ then _ else if _ then _ else _) = _
    rw [encM_opcodeOf]; rfl
  · show decode2 (encM 0x27 f) _ = _
    unfold decode2
    rw [encM_op]
    show some (Instr.fenceInsn (fmtM (encM 0x27 f))) = _
    rw [fmtM_encM]
theorem Encodes.prefetch (f : FmtM) (ix : Word) : Encodes.Statement (.prefetch f ix) := by
  intro h _
  refine ⟨_, _, rfl, ?_, ?_⟩
  · show (if _ then _ else if _ then _ else if _ then _ else _) = _
    rw [encM_opcodeOf, fmtM_encM]
    exact (encLit_length f ix).symm
  · show decode2 (encM 0x28 f) _ = _
    unfold decode2
    rw [encM_op]
    show some (Instr.prefetch (fmtM (encM 0x28 f)) (litM (encM 0x28 f) (encLit f ix))) = _
    rw [fmtM_encM, litM_encLit 0x28 f ix (Encodes.literals h)]
theorem Encodes.cwb (f : FmtM) (ix : Word) : Encodes.Statement (.cwb f ix) := by
  intro h _
  refine ⟨_, _, rfl, ?_, ?_⟩
  · show (if _ then _ else if _ then _ else if _ then _ else _) = _
    rw [encM_opcodeOf, fmtM_encM]
    exact (encLit_length f ix).symm
  · show decode2 (encM 0x29 f) _ = _
    unfold decode2
    rw [encM_op]
    show some (Instr.cwb (fmtM (encM 0x29 f)) (litM (encM 0x29 f) (encLit f ix))) = _
    rw [fmtM_encM, litM_encLit 0x29 f ix (Encodes.literals h)]
theorem Encodes.cinv (f : FmtM) (ix : Word) : Encodes.Statement (.cinv f ix) := by
  intro h _
  refine ⟨_, _, rfl, ?_, ?_⟩
  · show (if _ then _ else if _ then _ else if _ then _ else _) = _
    rw [encM_opcodeOf, fmtM_encM]
    exact (encLit_length f ix).symm
  · show decode2 (encM 0x2A f) _ = _
    unfold decode2
    rw [encM_op]
    show some (Instr.cinv (fmtM (encM 0x2A f)) (litM (encM 0x2A f) (encLit f ix))) = _
    rw [fmtM_encM, litM_encLit 0x2A f ix (Encodes.literals h)]
theorem Encodes.tset (f : FmtT) : Encodes.Statement (.tset f) := by
  intro _ _
  refine ⟨_, _, rfl, ?_, ?_⟩
  · rfl
  · show decode3 (encT 0x01 f) [] = _
    unfold decode3
    rw [encT_op]
    show some (Instr.tset (fmtT (encT 0x01 f))) = _
    rw [fmtT_encT]
theorem Encodes.tget (f : FmtT) : Encodes.Statement (.tget f) := by
  intro _ _
  refine ⟨_, _, rfl, ?_, ?_⟩
  · rfl
  · show decode3 (encT 0x02 f) [] = _
    unfold decode3
    rw [encT_op]
    show some (Instr.tget (fmtT (encT 0x02 f))) = _
    rw [fmtT_encT]
theorem Encodes.tzero (f : FmtT) : Encodes.Statement (.tzero f) := by
  intro _ _
  refine ⟨_, _, rfl, ?_, ?_⟩
  · rfl
  · show decode3 (encT 0x03 f) [] = _
    unfold decode3
    rw [encT_op]
    show some (Instr.tzero (fmtT (encT 0x03 f))) = _
    rw [fmtT_encT]
theorem Encodes.mma (f : FmtT) : Encodes.Statement (.mma f) := by
  intro _ _
  refine ⟨_, _, rfl, ?_, ?_⟩
  · rfl
  · show decode3 (encT 0x04 f) [] = _
    unfold decode3
    rw [encT_op]
    show some (Instr.mma (fmtT (encT 0x04 f))) = _
    rw [fmtT_encT]
theorem Encodes.mmaG (f : FmtT) : Encodes.Statement (.mmaG f) := by
  intro _ _
  refine ⟨_, _, rfl, ?_, ?_⟩
  · rfl
  · show decode3 (encT 0x05 f) [] = _
    unfold decode3
    rw [encT_op]
    show some (Instr.mmaG (fmtT (encT 0x05 f))) = _
    rw [fmtT_encT]
theorem Encodes.tcvt (f : FmtT) : Encodes.Statement (.tcvt f) := by
  intro _ _
  refine ⟨_, _, rfl, ?_, ?_⟩
  · rfl
  · show decode3 (encT 0x06 f) [] = _
    unfold decode3
    rw [encT_op]
    show some (Instr.tcvt (fmtT (encT 0x06 f))) = _
    rw [fmtT_encT]
theorem Encodes.tadd (f : FmtT) : Encodes.Statement (.tadd f) := by
  intro _ _
  refine ⟨_, _, rfl, ?_, ?_⟩
  · rfl
  · show decode3 (encT 0x07 f) [] = _
    unfold decode3
    rw [encT_op]
    show some (Instr.tadd (fmtT (encT 0x07 f))) = _
    rw [fmtT_encT]
theorem Encodes.gxRun (f : FmtE) : Encodes.Statement (.gxRun f) := by
  intro _ _
  refine ⟨_, _, rfl, ?_, ?_⟩
  · rfl
  · show decode4 (encE 0x01 f) [] = _
    unfold decode4
    rw [encE_op]
    show some (Instr.gxRun (fmtE (encE 0x01 f))) = _
    rw [fmtE_encE]
theorem Encodes.ceBuild (f : FmtE) : Encodes.Statement (.ceBuild f) := by
  intro _ _
  refine ⟨_, _, rfl, ?_, ?_⟩
  · rfl
  · show decode4 (encE 0x02 f) [] = _
    unfold decode4
    rw [encE_op]
    show some (Instr.ceBuild (fmtE (encE 0x02 f))) = _
    rw [fmtE_encE]
theorem Encodes.ceLookup (f : FmtE) : Encodes.Statement (.ceLookup f) := by
  intro _ _
  refine ⟨_, _, rfl, ?_, ?_⟩
  · rfl
  · show decode4 (encE 0x03 f) [] = _
    unfold decode4
    rw [encE_op]
    show some (Instr.ceLookup (fmtE (encE 0x03 f))) = _
    rw [fmtE_encE]
theorem Encodes.ceDown (f : FmtE) : Encodes.Statement (.ceDown f) := by
  intro _ _
  refine ⟨_, _, rfl, ?_, ?_⟩
  · rfl
  · show decode4 (encE 0x04 f) [] = _
    unfold decode4
    rw [encE_op]
    show some (Instr.ceDown (fmtE (encE 0x04 f))) = _
    rw [fmtE_encE]
theorem Encodes.ceProbe (f : FmtE) : Encodes.Statement (.ceProbe f) := by
  intro _ _
  refine ⟨_, _, rfl, ?_, ?_⟩
  · rfl
  · show decode4 (encE 0x05 f) [] = _
    unfold decode4
    rw [encE_op]
    show some (Instr.ceProbe (fmtE (encE 0x05 f))) = _
    rw [fmtE_encE]
theorem Encodes.seGather (f : FmtE) : Encodes.Statement (.seGather f) := by
  intro _ _
  refine ⟨_, _, rfl, ?_, ?_⟩
  · rfl
  · show decode4 (encE 0x06 f) [] = _
    unfold decode4
    rw [encE_op]
    show some (Instr.seGather (fmtE (encE 0x06 f))) = _
    rw [fmtE_encE]
theorem Encodes.seIsect (f : FmtE) : Encodes.Statement (.seIsect f) := by
  intro _ _
  refine ⟨_, _, rfl, ?_, ?_⟩
  · rfl
  · show decode4 (encE 0x07 f) [] = _
    unfold decode4
    rw [encE_op]
    show some (Instr.seIsect (fmtE (encE 0x07 f))) = _
    rw [fmtE_encE]
theorem Encodes.seCopy (f : FmtE) : Encodes.Statement (.seCopy f) := by
  intro _ _
  refine ⟨_, _, rfl, ?_, ?_⟩
  · rfl
  · show decode4 (encE 0x08 f) [] = _
    unfold decode4
    rw [encE_op]
    show some (Instr.seCopy (fmtE (encE 0x08 f))) = _
    rw [fmtE_encE]
theorem Encodes.seMcast (f : FmtE) : Encodes.Statement (.seMcast f) := by
  intro _ _
  refine ⟨_, _, rfl, ?_, ?_⟩
  · rfl
  · show decode4 (encE 0x09 f) [] = _
    unfold decode4
    rw [encE_op]
    show some (Instr.seMcast (fmtE (encE 0x09 f))) = _
    rw [fmtE_encE]
theorem Encodes.gqSubmit (f : FmtE) : Encodes.Statement (.gqSubmit f) := by
  intro _ _
  refine ⟨_, _, rfl, ?_, ?_⟩
  · rfl
  · show decode4 (encE 0x0A f) [] = _
    unfold decode4
    rw [encE_op]
    show some (Instr.gqSubmit (fmtE (encE 0x0A f))) = _
    rw [fmtE_encE]
theorem Encodes.ecBind (f : FmtE) : Encodes.Statement (.ecBind f) := by
  intro _ _
  refine ⟨_, _, rfl, ?_, ?_⟩
  · rfl
  · show decode4 (encE 0x0B f) [] = _
    unfold decode4
    rw [encE_op]
    show some (Instr.ecBind (fmtE (encE 0x0B f))) = _
    rw [fmtE_encE]
theorem Encodes.ecRead (f : FmtE) : Encodes.Statement (.ecRead f) := by
  intro h _
  refine ⟨_, _, rfl, ?_, ?_⟩
  · rfl
  · show decode4 (encE 0x0C f) [] = _
    unfold decode4
    rw [encE_op]
    have hl : f.flags.extractLsb' 0 2 = 0 := by simpa [Instr.literalsFit] using Encodes.literals h
    rw [fmtE_encE, hl]; rfl
theorem Encodes.ecReadIssued (f : FmtE) : Encodes.Statement (.ecReadIssued f) := by
  intro h _
  refine ⟨_, _, rfl, ?_, ?_⟩
  · rfl
  · show decode4 (encE 0x0C f) [] = _
    unfold decode4
    rw [encE_op]
    have hl : f.flags.extractLsb' 0 2 = 1 := by simpa [Instr.literalsFit] using Encodes.literals h
    rw [fmtE_encE, hl]; rfl
theorem Encodes.ecReadState (f : FmtE) : Encodes.Statement (.ecReadState f) := by
  intro h _
  refine ⟨_, _, rfl, ?_, ?_⟩
  · rfl
  · show decode4 (encE 0x0C f) [] = _
    unfold decode4
    rw [encE_op]
    have hl : f.flags.extractLsb' 0 2 = 2 := by simpa [Instr.literalsFit] using Encodes.literals h
    rw [fmtE_encE, hl]; rfl
theorem Encodes.barInit (f : FmtS) : Encodes.Statement (.barInit f) := by
  intro _ _
  refine ⟨_, _, rfl, ?_, ?_⟩
  · show (if _ then _ else _) = _
    rw [encS_opcodeOf]; rfl
  · show decode5 (encS 0x01 f) _ = _
    unfold decode5
    rw [encS_op]
    show some (Instr.barInit (fmtS (encS 0x01 f))) = _
    rw [fmtS_encS]
theorem Encodes.barArrive (f : FmtS) : Encodes.Statement (.barArrive f) := by
  intro _ _
  refine ⟨_, _, rfl, ?_, ?_⟩
  · show (if _ then _ else _) = _
    rw [encS_opcodeOf]; rfl
  · show decode5 (encS 0x02 f) _ = _
    unfold decode5
    rw [encS_op]
    show some (Instr.barArrive (fmtS (encS 0x02 f))) = _
    rw [fmtS_encS]
theorem Encodes.barWait (f : FmtS) : Encodes.Statement (.barWait f) := by
  intro _ _
  refine ⟨_, _, rfl, ?_, ?_⟩
  · show (if _ then _ else _) = _
    rw [encS_opcodeOf]; rfl
  · show decode5 (encS 0x03 f) _ = _
    unfold decode5
    rw [encS_op]
    show some (Instr.barWait (fmtS (encS 0x03 f))) = _
    rw [fmtS_encS]
theorem Encodes.gbar (f : FmtS) : Encodes.Statement (.gbar f) := by
  intro _ _
  refine ⟨_, _, rfl, ?_, ?_⟩
  · show (if _ then _ else _) = _
    rw [encS_opcodeOf]; rfl
  · show decode5 (encS 0x04 f) _ = _
    unfold decode5
    rw [encS_op]
    show some (Instr.gbar (fmtS (encS 0x04 f))) = _
    rw [fmtS_encS]
theorem Encodes.waitcAny (f : FmtS) (conds : List Word) : Encodes.Statement (.waitcAny f conds) := by
  intro h _
  refine ⟨_, _, rfl, ?_, ?_⟩
  · show (if _ then _ else _) = _
    have e : (encS 0x05 f).extractLsb' 0 2 = f.f.extractLsb' 0 2 := by
      simp (disch := omega) only [encS_field, extract_append_low]
    rw [encS_opcodeOf, e]
    exact (by simpa [Instr.literalsFit] using Encodes.literals h : conds.length = 2 * ((f.f.extractLsb' 0 2).toNat + 1)).symm
  · show decode5 (encS 0x05 f) _ = _
    unfold decode5
    rw [encS_op]
    show some (Instr.waitcAny (fmtS (encS 0x05 f)) conds) = _
    rw [fmtS_encS]
theorem Encodes.waitcAll (f : FmtS) (conds : List Word) : Encodes.Statement (.waitcAll f conds) := by
  intro h _
  refine ⟨_, _, rfl, ?_, ?_⟩
  · show (if _ then _ else _) = _
    have e : (encS 0x06 f).extractLsb' 0 2 = f.f.extractLsb' 0 2 := by
      simp (disch := omega) only [encS_field, extract_append_low]
    rw [encS_opcodeOf, e]
    exact (by simpa [Instr.literalsFit] using Encodes.literals h : conds.length = 2 * ((f.f.extractLsb' 0 2).toNat + 1)).symm
  · show decode5 (encS 0x06 f) _ = _
    unfold decode5
    rw [encS_op]
    show some (Instr.waitcAll (fmtS (encS 0x06 f)) conds) = _
    rw [fmtS_encS]
theorem Encodes.mwatch (f : FmtS) : Encodes.Statement (.mwatch f) := by
  intro _ _
  refine ⟨_, _, rfl, ?_, ?_⟩
  · show (if _ then _ else _) = _
    rw [encS_opcodeOf]; rfl
  · show decode5 (encS 0x07 f) _ = _
    unfold decode5
    rw [encS_op]
    show some (Instr.mwatch (fmtS (encS 0x07 f))) = _
    rw [fmtS_encS]
theorem Encodes.mwait (f : FmtS) : Encodes.Statement (.mwait f) := by
  intro _ _
  refine ⟨_, _, rfl, ?_, ?_⟩
  · show (if _ then _ else _) = _
    rw [encS_opcodeOf]; rfl
  · show decode5 (encS 0x08 f) _ = _
    unfold decode5
    rw [encS_op]
    show some (Instr.mwait (fmtS (encS 0x08 f))) = _
    rw [fmtS_encS]
theorem Encodes.yield (f : FmtS) : Encodes.Statement (.yield f) := by
  intro _ _
  refine ⟨_, _, rfl, ?_, ?_⟩
  · show (if _ then _ else _) = _
    rw [encS_opcodeOf]; rfl
  · show decode5 (encS 0x09 f) _ = _
    unfold decode5
    rw [encS_op]
    show some (Instr.yield (fmtS (encS 0x09 f))) = _
    rw [fmtS_encS]
theorem Encodes.refill (f : FmtS) : Encodes.Statement (.refill f) := by
  intro _ _
  refine ⟨_, _, rfl, ?_, ?_⟩
  · show (if _ then _ else _) = _
    rw [encS_opcodeOf]; rfl
  · show decode5 (encS 0x0A f) _ = _
    unfold decode5
    rw [encS_op]
    show some (Instr.refill (fmtS (encS 0x0A f))) = _
    rw [fmtS_encS]
theorem Encodes.drain (f : FmtS) : Encodes.Statement (.drain f) := by
  intro _ _
  refine ⟨_, _, rfl, ?_, ?_⟩
  · show (if _ then _ else _) = _
    rw [encS_opcodeOf]; rfl
  · show decode5 (encS 0x0B f) _ = _
    unfold decode5
    rw [encS_op]
    show some (Instr.drain (fmtS (encS 0x0B f))) = _
    rw [fmtS_encS]
theorem Encodes.regroup (f : FmtS) : Encodes.Statement (.regroup f) := by
  intro _ _
  refine ⟨_, _, rfl, ?_, ?_⟩
  · show (if _ then _ else _) = _
    rw [encS_opcodeOf]; rfl
  · show decode5 (encS 0x0C f) _ = _
    unfold decode5
    rw [encS_op]
    show some (Instr.regroup (fmtS (encS 0x0C f))) = _
    rw [fmtS_encS]
theorem Encodes.launch (f : FmtS) : Encodes.Statement (.launch f) := by
  intro _ _
  refine ⟨_, _, rfl, ?_, ?_⟩
  · show (if _ then _ else _) = _
    rw [encS_opcodeOf]; rfl
  · show decode5 (encS 0x0D f) _ = _
    unfold decode5
    rw [encS_op]
    show some (Instr.launch (fmtS (encS 0x0D f))) = _
    rw [fmtS_encS]
theorem Encodes.srd (f : FmtS) : Encodes.Statement (.srd f) := by
  intro _ _
  refine ⟨_, _, rfl, ?_, ?_⟩
  · show (if _ then _ else _) = _
    rw [encS_opcodeOf]; rfl
  · show decode5 (encS 0x0E f) _ = _
    unfold decode5
    rw [encS_op]
    show some (Instr.srd (fmtS (encS 0x0E f))) = _
    rw [fmtS_encS]
theorem Encodes.swr (f : FmtS) : Encodes.Statement (.swr f) := by
  intro _ _
  refine ⟨_, _, rfl, ?_, ?_⟩
  · show (if _ then _ else _) = _
    rw [encS_opcodeOf]; rfl
  · show decode5 (encS 0x0F f) _ = _
    unfold decode5
    rw [encS_op]
    show some (Instr.swr (fmtS (encS 0x0F f))) = _
    rw [fmtS_encS]
theorem Encodes.evc (f : FmtS) : Encodes.Statement (.evc f) := by
  intro h _
  refine ⟨_, _, rfl, ?_, ?_⟩
  · show (if _ then _ else _) = _
    rw [encS_opcodeOf]; rfl
  · show decode5 (encS 0x10 f) _ = _
    unfold decode5
    rw [encS_op]
    have hl : f.f.getLsbD 4 = false := by simpa [Instr.literalsFit] using Encodes.literals h
    show some (if (fmtS (encS 0x10 f)).f.getLsbD 4 then _ else _) = _
    rw [fmtS_encS, hl]; rfl
theorem Encodes.evcSel (f : FmtS) : Encodes.Statement (.evcSel f) := by
  intro h _
  refine ⟨_, _, rfl, ?_, ?_⟩
  · show (if _ then _ else _) = _
    rw [encS_opcodeOf]; rfl
  · show decode5 (encS 0x10 f) _ = _
    unfold decode5
    rw [encS_op]
    have hl : f.f.getLsbD 4 = true := by simpa [Instr.literalsFit] using Encodes.literals h
    show some (if (fmtS (encS 0x10 f)).f.getLsbD 4 then _ else _) = _
    rw [fmtS_encS, hl]; rfl
theorem Encodes.vhop (f : FmtS) : Encodes.Statement (.vhop f) := by
  intro _ _
  refine ⟨_, _, rfl, ?_, ?_⟩
  · show (if _ then _ else _) = _
    rw [encS_opcodeOf]; rfl
  · show decode5 (encS 0x11 f) _ = _
    unfold decode5
    rw [encS_op]
    show some (Instr.vhop (fmtS (encS 0x11 f))) = _
    rw [fmtS_encS]
theorem Encodes.clock (f : FmtS) : Encodes.Statement (.clock f) := by
  intro h _
  refine ⟨_, _, rfl, ?_, ?_⟩
  · show (if _ then _ else _) = _
    rw [encS_opcodeOf]; rfl
  · show decode5 (encS 0x12 f) _ = _
    unfold decode5
    rw [encS_op]
    have hl : f.f.getLsbD 0 = false := by simpa [Instr.literalsFit] using Encodes.literals h
    show some (if (fmtS (encS 0x12 f)).f.getLsbD 0 then _ else _) = _
    rw [fmtS_encS, hl]; rfl
theorem Encodes.clockCore (f : FmtS) : Encodes.Statement (.clockCore f) := by
  intro h _
  refine ⟨_, _, rfl, ?_, ?_⟩
  · show (if _ then _ else _) = _
    rw [encS_opcodeOf]; rfl
  · show decode5 (encS 0x12 f) _ = _
    unfold decode5
    rw [encS_op]
    have hl : f.f.getLsbD 0 = true := by simpa [Instr.literalsFit] using Encodes.literals h
    show some (if (fmtS (encS 0x12 f)).f.getLsbD 0 then _ else _) = _
    rw [fmtS_encS, hl]; rfl
theorem Encodes.trap (f : FmtS) : Encodes.Statement (.trap f) := by
  intro _ _
  refine ⟨_, _, rfl, ?_, ?_⟩
  · show (if _ then _ else _) = _
    rw [encS_opcodeOf]; rfl
  · show decode5 (encS 0x13 f) _ = _
    unfold decode5
    rw [encS_op]
    show some (Instr.trap (fmtS (encS 0x13 f))) = _
    rw [fmtS_encS]
theorem Encodes.trapret (f : FmtS) : Encodes.Statement (.trapret f) := by
  intro _ _
  refine ⟨_, _, rfl, ?_, ?_⟩
  · show (if _ then _ else _) = _
    rw [encS_opcodeOf]; rfl
  · show decode5 (encS 0x14 f) _ = _
    unfold decode5
    rw [encS_op]
    show some (Instr.trapret (fmtS (encS 0x14 f))) = _
    rw [fmtS_encS]
theorem Encodes.dbg (f : FmtS) : Encodes.Statement (.dbg f) := by
  intro h _
  refine ⟨_, _, rfl, ?_, ?_⟩
  · show (if _ then _ else _) = _
    rw [encS_opcodeOf]; rfl
  · show decode5 (encS 0x15 f) _ = _
    unfold decode5
    rw [encS_op]
    have hl : f.f.getLsbD 4 = false := by simpa [Instr.literalsFit] using Encodes.literals h
    show some (if (fmtS (encS 0x15 f)).f.getLsbD 4 then _ else _) = _
    rw [fmtS_encS, hl]; rfl
theorem Encodes.dbgHalt (f : FmtS) : Encodes.Statement (.dbgHalt f) := by
  intro h _
  refine ⟨_, _, rfl, ?_, ?_⟩
  · show (if _ then _ else _) = _
    rw [encS_opcodeOf]; rfl
  · show decode5 (encS 0x15 f) _ = _
    unfold decode5
    rw [encS_op]
    have hl : f.f.getLsbD 4 = true := by simpa [Instr.literalsFit] using Encodes.literals h
    show some (if (fmtS (encS 0x15 f)).f.getLsbD 4 then _ else _) = _
    rw [fmtS_encS, hl]; rfl
theorem Encodes.br (f : FmtC) : Encodes.Statement (.br f) := by
  intro _ _
  refine ⟨_, _, rfl, ?_, ?_⟩
  · show (if _ then _ else _) = _
    rw [encC_opcodeOf]; rfl
  · show decode6 (encC 0x01 f) _ = _
    unfold decode6
    rw [encC_op]
    show some (Instr.br (fmtC (encC 0x01 f))) = _
    rw [fmtC_encC]
theorem Encodes.brD (f : FmtC) : Encodes.Statement (.brD f) := by
  intro _ _
  refine ⟨_, _, rfl, ?_, ?_⟩
  · show (if _ then _ else _) = _
    rw [encC_opcodeOf]; rfl
  · show decode6 (encC 0x02 f) _ = _
    unfold decode6
    rw [encC_op]
    show some (Instr.brD (fmtC (encC 0x02 f))) = _
    rw [fmtC_encC]
theorem Encodes.brAny (f : FmtC) : Encodes.Statement (.brAny f) := by
  intro _ _
  refine ⟨_, _, rfl, ?_, ?_⟩
  · show (if _ then _ else _) = _
    rw [encC_opcodeOf]; rfl
  · show decode6 (encC 0x03 f) _ = _
    unfold decode6
    rw [encC_op]
    show some (Instr.brAny (fmtC (encC 0x03 f))) = _
    rw [fmtC_encC]
theorem Encodes.brAll (f : FmtC) : Encodes.Statement (.brAll f) := by
  intro _ _
  refine ⟨_, _, rfl, ?_, ?_⟩
  · show (if _ then _ else _) = _
    rw [encC_opcodeOf]; rfl
  · show decode6 (encC 0x04 f) _ = _
    unfold decode6
    rw [encC_op]
    show some (Instr.brAll (fmtC (encC 0x04 f))) = _
    rw [fmtC_encC]
theorem Encodes.brNone (f : FmtC) : Encodes.Statement (.brNone f) := by
  intro _ _
  refine ⟨_, _, rfl, ?_, ?_⟩
  · show (if _ then _ else _) = _
    rw [encC_opcodeOf]; rfl
  · show decode6 (encC 0x05 f) _ = _
    unfold decode6
    rw [encC_op]
    show some (Instr.brNone (fmtC (encC 0x05 f))) = _
    rw [fmtC_encC]
theorem Encodes.switch (f : FmtC) (lits : List Word) : Encodes.Statement (.switch f lits) := by
  intro h _
  refine ⟨_, _, rfl, ?_, ?_⟩
  · show (if _ then _ else _) = _
    have e : (encC 0x06 f).extractLsb' 22 3 = f.m.extractLsb' 0 3 := by
      apply BitVec.eq_of_getLsbD_eq
      intro i hi
      rw [BitVec.getLsbD_extractLsb', BitVec.getLsbD_extractLsb']
      show ( _ && (BitVec.ofNat 6 6 ++ f.m ++ f.off : BitVec (6 + 4 + 22)).getLsbD (22 + i)) = _
      rw [BitVec.getLsbD_append, if_neg (by omega), BitVec.getLsbD_append, if_pos (by omega)]
      congr 2
      omega
    rw [encC_opcodeOf, e]
    exact (by simpa [Instr.literalsFit] using Encodes.literals h : lits.length = (f.m.extractLsb' 0 3).toNat + 2).symm
  · show decode6 (encC 0x06 f) _ = _
    unfold decode6
    rw [encC_op]
    show some (Instr.switch (fmtC (encC 0x06 f)) lits) = _
    rw [fmtC_encC]
theorem Encodes.call (f : FmtC) : Encodes.Statement (.call f) := by
  intro _ _
  refine ⟨_, _, rfl, ?_, ?_⟩
  · show (if _ then _ else _) = _
    rw [encC_opcodeOf]; rfl
  · show decode6 (encC 0x07 f) _ = _
    unfold decode6
    rw [encC_op]
    show some (Instr.call (fmtC (encC 0x07 f))) = _
    rw [fmtC_encC]
theorem Encodes.callr (f : FmtC) : Encodes.Statement (.callr f) := by
  intro _ _
  refine ⟨_, _, rfl, ?_, ?_⟩
  · show (if _ then _ else _) = _
    rw [encC_opcodeOf]; rfl
  · show decode6 (encC 0x08 f) _ = _
    unfold decode6
    rw [encC_op]
    show some (Instr.callr (fmtC (encC 0x08 f))) = _
    rw [fmtC_encC]
theorem Encodes.ret (f : FmtC) : Encodes.Statement (.ret f) := by
  intro _ _
  refine ⟨_, _, rfl, ?_, ?_⟩
  · show (if _ then _ else _) = _
    rw [encC_opcodeOf]; rfl
  · show decode6 (encC 0x09 f) _ = _
    unfold decode6
    rw [encC_op]
    show some (Instr.ret (fmtC (encC 0x09 f))) = _
    rw [fmtC_encC]
theorem Encodes.exit (f : FmtC) : Encodes.Statement (.exit f) := by
  intro _ _
  refine ⟨_, _, rfl, ?_, ?_⟩
  · show (if _ then _ else _) = _
    rw [encC_opcodeOf]; rfl
  · show decode6 (encC 0x0A f) _ = _
    unfold decode6
    rw [encC_op]
    show some (Instr.exit (fmtC (encC 0x0A f))) = _
    rw [fmtC_encC]
theorem Encodes.guestMessageUnlistedType (m : GuestMsg) : Encodes.Statement (.guestMessageUnlistedType m) := Encodes.event rfl
theorem Encodes.coldStart : Encodes.Statement (.coldStart) := Encodes.event rfl
theorem Encodes.devctlLoad : Encodes.Statement (.devctlLoad) := Encodes.event rfl
theorem Encodes.verificationEnd : Encodes.Statement (.verificationEnd) := Encodes.event rfl
theorem Encodes.devctlGo : Encodes.Statement (.devctlGo) := Encodes.event rfl
theorem Encodes.attctlReq : Encodes.Statement (.attctlReq) := Encodes.event rfl
theorem Encodes.attestationReportDone : Encodes.Statement (.attestationReportDone) := Encodes.event rfl
theorem Encodes.thermalTrip : Encodes.Statement (.thermalTrip) := Encodes.event rfl
theorem Encodes.railRampDone : Encodes.Statement (.railRampDone) := Encodes.event rfl
theorem Encodes.clockGate : Encodes.Statement (.clockGate) := Encodes.event rfl
theorem Encodes.pllLock : Encodes.Statement (.pllLock) := Encodes.event rfl
theorem Encodes.agmctlStart : Encodes.Statement (.agmctlStart) := Encodes.event rfl
theorem Encodes.lanectlReq : Encodes.Statement (.lanectlReq) := Encodes.event rfl
theorem Encodes.laneRemap : Encodes.Statement (.laneRemap) := Encodes.event rfl
theorem Encodes.spareAssign : Encodes.Statement (.spareAssign) := Encodes.event rfl
theorem Encodes.linkCrcError : Encodes.Statement (.linkCrcError) := Encodes.event rfl
theorem Encodes.dieRejoin : Encodes.Statement (.dieRejoin) := Encodes.event rfl
theorem Encodes.channelRetrainFail : Encodes.Statement (.channelRetrainFail) := Encodes.event rfl
theorem Encodes.migrationChunkDone : Encodes.Statement (.migrationChunkDone) := Encodes.event rfl
theorem Encodes.hostMemoryRead : Encodes.Statement (.hostMemoryRead) := Encodes.event rfl
theorem Encodes.hostLinkWriteDrop : Encodes.Statement (.hostLinkWriteDrop) := Encodes.event rfl
theorem Encodes.adctlUnfence : Encodes.Statement (.adctlUnfence) := Encodes.event rfl
theorem Encodes.stoppedDeadline : Encodes.Statement (.stoppedDeadline) := Encodes.event rfl
theorem Encodes.ctxctlEnable : Encodes.Statement (.ctxctlEnable) := Encodes.event rfl
theorem Encodes.ctxctlDisable : Encodes.Statement (.ctxctlDisable) := Encodes.event rfl
theorem Encodes.contextStopDone : Encodes.Statement (.contextStopDone) := Encodes.event rfl
theorem Encodes.queueProcessorWake : Encodes.Statement (.queueProcessorWake) := Encodes.event rfl
theorem Encodes.slotNop : Encodes.Statement (.slotNop) := Encodes.event rfl
theorem Encodes.slotLaunch : Encodes.Statement (.slotLaunch) := Encodes.event rfl
theorem Encodes.slotBarrier : Encodes.Statement (.slotBarrier) := Encodes.event rfl
theorem Encodes.xlateCmdNop : Encodes.Statement (.xlateCmdNop) := Encodes.event rfl
theorem Encodes.xlateResolve : Encodes.Statement (.xlateResolve) := Encodes.event rfl
theorem Encodes.xlateShootdown : Encodes.Statement (.xlateShootdown) := Encodes.event rfl
theorem Encodes.shootdownComplete : Encodes.Statement (.shootdownComplete) := Encodes.event rfl
theorem Encodes.xlateOpen : Encodes.Statement (.xlateOpen) := Encodes.event rfl
theorem Encodes.xlateFree : Encodes.Statement (.xlateFree) := Encodes.event rfl
theorem Encodes.freeComplete : Encodes.Statement (.freeComplete) := Encodes.event rfl
theorem Encodes.xlateSwap : Encodes.Statement (.xlateSwap) := Encodes.event rfl
theorem Encodes.swapComplete : Encodes.Statement (.swapComplete) := Encodes.event rfl
theorem Encodes.faultRecordWrite : Encodes.Statement (.faultRecordWrite) := Encodes.event rfl
theorem Encodes.walkComplete : Encodes.Statement (.walkComplete) := Encodes.event rfl
theorem Encodes.gangPlacement : Encodes.Statement (.gangPlacement) := Encodes.event rfl
theorem Encodes.recarveDone : Encodes.Statement (.recarveDone) := Encodes.event rfl
theorem Encodes.carveDrainTimeout : Encodes.Statement (.carveDrainTimeout) := Encodes.event rfl
theorem Encodes.starvationPreemption : Encodes.Statement (.starvationPreemption) := Encodes.event rfl
theorem Encodes.waitSwap : Encodes.Statement (.waitSwap) := Encodes.event rfl
theorem Encodes.swappedWaitWake : Encodes.Statement (.swappedWaitWake) := Encodes.event rfl
theorem Encodes.swapReturnTimeout : Encodes.Statement (.swapReturnTimeout) := Encodes.event rfl
theorem Encodes.crewSaveComplete : Encodes.Statement (.crewSaveComplete) := Encodes.event rfl
theorem Encodes.groupRestore : Encodes.Statement (.groupRestore) := Encodes.event rfl
theorem Encodes.issuePulse : Encodes.Statement (.issuePulse) := Encodes.event rfl
theorem Encodes.loadReturn : Encodes.Statement (.loadReturn) := Encodes.event rfl
theorem Encodes.storeQueueDrain : Encodes.Statement (.storeQueueDrain) := Encodes.event rfl
theorem Encodes.atomicPerform : Encodes.Statement (.atomicPerform) := Encodes.event rfl
theorem Encodes.exactAddPerform : Encodes.Statement (.exactAddPerform) := Encodes.event rfl
theorem Encodes.appendUnit : Encodes.Statement (.appendUnit) := Encodes.event rfl
theorem Encodes.sealArrive : Encodes.Statement (.sealArrive) := Encodes.event rfl
theorem Encodes.matrixComplete : Encodes.Statement (.matrixComplete) := Encodes.event rfl
theorem Encodes.engineAccept : Encodes.Statement (.engineAccept) := Encodes.event rfl
theorem Encodes.geyserTaskComplete : Encodes.Statement (.geyserTaskComplete) := Encodes.event rfl
theorem Encodes.engineCommandComplete : Encodes.Statement (.engineCommandComplete) := Encodes.event rfl
theorem Encodes.engineCommandFail : Encodes.Statement (.engineCommandFail) := Encodes.event rfl
theorem Encodes.mcastWindowEnd : Encodes.Statement (.mcastWindowEnd) := Encodes.event rfl
theorem Encodes.implicitRefill : Encodes.Statement (.implicitRefill) := Encodes.event rfl
theorem Encodes.childPop : Encodes.Statement (.childPop) := Encodes.event rfl
theorem Encodes.gridComplete : Encodes.Statement (.gridComplete) := Encodes.event rfl
theorem Encodes.waitcWake : Encodes.Statement (.waitcWake) := Encodes.event rfl
theorem Encodes.waitcTimeout : Encodes.Statement (.waitcTimeout) := Encodes.event rfl
theorem Encodes.mwaitWake : Encodes.Statement (.mwaitWake) := Encodes.event rfl
theorem Encodes.watchdogExpiry : Encodes.Statement (.watchdogExpiry) := Encodes.event rfl
theorem Encodes.externalWaitReport : Encodes.Statement (.externalWaitReport) := Encodes.event rfl
theorem Encodes.mwaitWakeOtherReason : Encodes.Statement (.mwaitWakeOtherReason) := Encodes.event rfl

end Sys2Proof.Laws
end

