-- ==== Sys2Proof/Tests/Slice0.lean ====
section
/-! SUPPORT. Tests: decoding of words written out from the encoding tables of R281 and R308 to R314, ill-formed words, the
manual's worked numbers, and for every obligation a state and operands that meet its hypotheses. -/

namespace Sys2Proof.Tests

open Sys2Proof.Machine Sys2Proof.Claims

set_option Elab.async false

/-! ## A small machine -/

/-- The pulse of `oneClause` at its word. -/
def pulseAt (i : Instr) : Pulse :=
  let p := onePulse i.cls (encode i)
  { p with pos := p.todo.headD 0, todo := [] }

/-- Context 0 runs one crew of one thread, whose pulse stands at the instruction (R277 to R279, R288). -/
def stateAt (i : Instr) : State := { State.reset.withClause i.cls (encode i) with cur := some (pulseAt i) }

/-- Registers of crew 0: of v-registers (register, lane, word), of s-registers (register, word). -/
def withRegs (s : State) (v : List (Nat × Nat × Word)) (r : List (Nat × Word)) : State :=
  s.modCrew 0 fun c => { c with
    v := v.foldl (fun m x => sset 0 m (64 * x.1 + x.2.1) x.2.2) c.v
    s := r.foldl (fun m x => sset 0 m x.1 x.2) c.s }

/-- The pulse with threads in the listed lanes. -/
def lanesIn (ls : List Nat) (p : Pulse) : Pulse := { p with part := laneSet ls, p0 := laneSet ls }

/-- The state at an instruction with LIVE threads in the listed lanes, all of them in the pulse. -/
def stateOf (i : Instr) (ls : List Nat) : State :=
  let s := stateAt i
  { (s.modCrew 0 fun c => { c with lanes := ls.map fun l => (l, { st := .live, pc := 0x10000 }) }) with
    cur := some (lanesIn ls (pulseAt i)) }

/-- The state after an instruction. -/
def after (i : Instr) (s : State) : State :=
  match exec i s with
  | .next t => t
  | _ => s

/-- A page table of context 0: VA 0 to 1 GiB is device memory from address 0 on, all accesses allowed; the next GiB is host memory;
the page of 2 MiB at 2 GiB is a sinter page at 0x200000; one of 4 KiB at 3 GiB is absent (R207 to R211, R226). -/
def paged (s : State) : State :=
  let m := [(0x1000, 0x2001), (0x2000, 0xF), (0x2008, 0x3F), (0x2010, 0x3001), (0x3000, 0x200017)].foldl
    (fun m (a, e) => Memory.writeN m a (natToBytes 8 e)) s.mem
  { s with mem := m, ctxs := sset {} s.ctxs 0 { s.ctx 0 with ptroot := 0x1000 }
           sinter := sset none s.sinter 0x200000 (some { sealed := false, tail := 8, size := 0x200000 }) }

theorem test_decode_integer_1 :
    decodeWord 0 0x54FCC9E [] = some (.add ⟨0x53, 0xF3, 0x27, 0x1, 0x0⟩) ∧ literalCount 0 0x54FCC9E = 0 ∧
    decodeWord 0 0x84F4E29 [] = some (.sub ⟨0x13, 0xD3, 0x8A, 0x0, 0x1⟩) ∧ literalCount 0 0x84F4E29 = 0 ∧
    decodeWord 0 0xE583FA4 [] = some (.mul ⟨0x96, 0xF, 0xE9, 0x0, 0x0⟩) ∧ literalCount 0 0xE583FA4 = 0 ∧
    decodeWord 0 0x105DC1B0 [] = some (.mulhi ⟨0x17, 0x70, 0x6C, 0x0, 0x0⟩) ∧ literalCount 0 0x105DC1B0 = 0 ∧
    decodeWord 0 0x146239B4 [0xF28C105E] = some (.mad ⟨0x18, 0x8E, 0x6D, 0x0, 0x0⟩ 0xF28C105E) ∧ literalCount 0 0x146239B4 = 1 ∧
    decodeWord 0 0x18EA8A85 [] = some (.min ⟨0x3A, 0xA2, 0xA1, 0x0, 0x1⟩) ∧ literalCount 0 0x18EA8A85 = 0 ∧
    decodeWord 0 0x1C37E8E4 [] = some (.max ⟨0xD, 0xFA, 0x39, 0x0, 0x0⟩) ∧ literalCount 0 0x1C37E8E4 = 0 ∧
    decodeWord 0 0x212DB095 [] = some (.abs ⟨0x4B, 0x6C, 0x25, 0x0, 0x1⟩) ∧ literalCount 0 0x212DB095 = 0 ∧
    decodeWord 0 0x264346BC [] = some (.neg ⟨0x90, 0xD1, 0xAF, 0x0, 0x0⟩) ∧ literalCount 0 0x264346BC = 0 ∧
    decodeWord 0 0x2A564E91 [] = some (.and ⟨0x95, 0x93, 0xA4, 0x0, 0x1⟩) ∧ literalCount 0 0x2A564E91 = 0 ∧
    decodeWord 0 0x2C6636DC [] = some (.or ⟨0x19, 0x8D, 0xB7, 0x0, 0x0⟩) ∧ literalCount 0 0x2C6636DC = 0 ∧
    decodeWord 0 0x327CD603 [] = some (.xor ⟨0x9F, 0x35, 0x80, 0x1, 0x1⟩) ∧ literalCount 0 0x327CD603 = 0 ∧
    decodeWord 0 0x35E25BB7 [] = some (.andn ⟨0x78, 0x96, 0xED, 0x1, 0x1⟩) ∧ literalCount 0 0x35E25BB7 = 0 ∧
    decodeWord 0 0x39350330 [] = some (.shl ⟨0x4D, 0x40, 0xCC, 0x0, 0x0⟩) ∧ literalCount 0 0x39350330 = 0 ∧
    decodeWord 0 0x3C565137 [] = some (.shr ⟨0x15, 0x94, 0x4D, 0x1, 0x1⟩) ∧ literalCount 0 0x3C565137 = 0 ∧
    decodeWord 0 0x42EDCD28 [] = some (.sar ⟨0xBB, 0x73, 0x4A, 0x0, 0x0⟩) ∧ literalCount 0 0x42EDCD28 = 0 := by
  and_intros <;> rfl

theorem test_decode_integer_2 :
    decodeWord 0 0x4611B0AE [] = some (.rot ⟨0x84, 0x6C, 0x2B, 0x1, 0x0⟩) ∧ literalCount 0 0x4611B0AE = 0 ∧
    decodeWord 0 0x4BBDF9B0 [] = some (.clz ⟨0xEF, 0x7E, 0x6C, 0x0, 0x0⟩) ∧ literalCount 0 0x4BBDF9B0 = 0 ∧
    decodeWord 0 0x4F123E4F [] = some (.popc ⟨0xC4, 0x8F, 0x93, 0x1, 0x1⟩) ∧ literalCount 0 0x4F123E4F = 0 ∧
    decodeWord 0 0x52C96A67 [] = some (.brev ⟨0xB2, 0x5A, 0x99, 0x1, 0x1⟩) ∧ literalCount 0 0x52C96A67 = 0 ∧
    decodeWord 0 0x544B6060 [] = some (.bfx ⟨0x12, 0xD8, 0x60⟩) ∧ literalCount 0 0x544B6060 = 0 ∧
    decodeWord 0 0x5BC919E6 [] = some (.bfi ⟨0xF2, 0x46, 0x1E6⟩) ∧ literalCount 0 0x5BC919E6 = 0 ∧
    decodeWord 0 0x5ECEAC45 [0xA5AA3C82] = some (.sel ⟨0xB3, 0xAB, 0x11, 0x0, 0x1⟩ 0xA5AA3C82) ∧ literalCount 0 0x5ECEAC45 = 1 ∧
    decodeWord 0 0x6253FEBF [] = some (.cmpEq ⟨0x94, 0xFF, 0xAF, 0x1, 0x1⟩) ∧ literalCount 0 0x6253FEBF = 0 ∧
    decodeWord 0 0x66E18F92 [] = some (.cmpNe ⟨0xB8, 0x63, 0xE4, 0x1, 0x0⟩) ∧ literalCount 0 0x66E18F92 = 0 ∧
    decodeWord 0 0x6BC5DD6C [] = some (.cmpLt ⟨0xF1, 0x77, 0x5B, 0x0, 0x0⟩) ∧ literalCount 0 0x6BC5DD6C = 0 ∧
    decodeWord 0 0x6DFC40E2 [] = some (.cmpLe ⟨0x7F, 0x10, 0x38, 0x1, 0x0⟩) ∧ literalCount 0 0x6DFC40E2 = 0 ∧
    decodeWord 0 0x72F9019B [] = some (.cmpGt ⟨0xBE, 0x40, 0x66, 0x1, 0x1⟩) ∧ literalCount 0 0x72F9019B = 0 ∧
    decodeWord 0 0x7454ADCF [] = some (.cmpGe ⟨0x15, 0x2B, 0x73, 0x1, 0x1⟩) ∧ literalCount 0 0x7454ADCF = 0 ∧
    decodeWord 0 0x7B8C934B [] = some (.mov ⟨0xE3, 0x24, 0xD2, 0x1, 0x1⟩) ∧ literalCount 0 0x7B8C934B = 0 ∧
    decodeWord 0 0x7ED6FC8A [] = some (.movi ⟨0xB5, 0x2, 0xFC8A⟩) ∧ literalCount 0 0x7ED6FC8A = 0 ∧
    decodeWord 0 0x8173E25B [] = some (.movhi ⟨0x5C, 0x3, 0xE25B⟩) ∧ literalCount 0 0x8173E25B = 0 := by
  and_intros <;> rfl

theorem test_decode_integer_3 :
    decodeWord 0 0x858BD8ED [] = some (.ext ⟨0x62, 0xF6, 0xED⟩) ∧ literalCount 0 0x858BD8ED = 0 ∧
    decodeWord 0 0x889C58B8 [] = some (.lea ⟨0x27, 0x16, 0x2E, 0x0, 0x0⟩) ∧ literalCount 0 0x889C58B8 = 0 ∧
    decodeWord 0 0x8EA4F012 [] = some (.add64 ⟨0xA9, 0x3C, 0x4, 0x1, 0x0⟩) ∧ literalCount 0 0x8EA4F012 = 0 ∧
    decodeWord 0 0x91112409 [] = some (.sub64 ⟨0x44, 0x49, 0x2, 0x0, 0x1⟩) ∧ literalCount 0 0x91112409 = 0 ∧
    decodeWord 0 0x96257E76 [] = some (.mulw ⟨0x89, 0x5F, 0x9D, 0x1, 0x0⟩) ∧ literalCount 0 0x96257E76 = 0 ∧
    decodeWord 0 0x9AC77211 [] = some (.shfl ⟨0xB1, 0xDC, 0x84, 0x0, 0x1⟩) ∧ literalCount 0 0x9AC77211 = 0 ∧
    decodeWord 0 0x9F9F7F1F [] = some (.qxch ⟨0xE7, 0xDF, 0x31F⟩) ∧ literalCount 0 0x9F9F7F1F = 0 ∧
    decodeWord 0 0xA3D382BF [] = some (.vote ⟨0xF4, 0xE0, 0xAF, 0x1, 0x1⟩) ∧ literalCount 0 0xA3D382BF = 0 ∧
    decodeWord 0 0xA59D946F [] = some (.popm ⟨0x67, 0x65, 0x1B, 0x1, 0x1⟩) ∧ literalCount 0 0xA59D946F = 0 ∧
    decodeWord 0 0xA840C449 [] = some (.elect ⟨0x10, 0x31, 0x12, 0x0, 0x1⟩) ∧ literalCount 0 0xA840C449 = 0 ∧
    decodeWord 0 0xACA87560 [] = some (.matchLow ⟨0x2A, 0x1D, 0x58, 0x0, 0x0⟩) ∧ literalCount 0 0xACA87560 = 0 ∧
    decodeWord 0 0xB006489D [] = some (.credInt ⟨0x1, 0x92, 0x27, 0x0, 0x1⟩) ∧ literalCount 0 0xB006489D = 0 ∧
    decodeWord 0 0xB6781C4D [] = some (.cscanInt ⟨0x9E, 0x7, 0x13, 0x0, 0x1⟩) ∧ literalCount 0 0xB6781C4D = 0 ∧
    decodeWord 0 0xB89E8D07 [0x7961FD93] = some (.csredInt ⟨0x27, 0xA3, 0x41, 0x1, 0x1⟩ 0x7961FD93) ∧ literalCount 0 0xB89E8D07 = 1 ∧
    decodeWord 0 0xBC807B6B [] = some (.rngStep ⟨0x20, 0x1E, 0xDA, 0x1, 0x1⟩) ∧ literalCount 0 0xBC807B6B = 0 ∧
    decodeWord 0 0xC1EDF140 [] = some (.rngSkip ⟨0x7B, 0x7C, 0x50, 0x0, 0x0⟩) ∧ literalCount 0 0xC1EDF140 = 0 := by
  and_intros <;> rfl

theorem test_decode_float_1 :
    decodeWord 1 0x46F0163 [] = some (.fadd ⟨0x1B, 0xC0, 0x58, 0x1, 0x1⟩) ∧ literalCount 1 0x46F0163 = 0 ∧
    decodeWord 1 0xB56C8A8 [] = some (.fsub ⟨0xD5, 0xB2, 0x2A, 0x0, 0x0⟩) ∧ literalCount 1 0xB56C8A8 = 0 ∧
    decodeWord 1 0xEC633AD [] = some (.fmul ⟨0xB1, 0x8C, 0xEB, 0x0, 0x1⟩) ∧ literalCount 1 0xEC633AD = 0 ∧
    decodeWord 1 0x13EE9779 [0x84B5A819] = some (.ffma ⟨0xFB, 0xA5, 0xDE, 0x0, 0x1⟩ 0x84B5A819) ∧ literalCount 1 0x13EE9779 = 1 ∧
    decodeWord 1 0x157BA4AE [] = some (.fmin ⟨0x5E, 0xE9, 0x2B, 0x1, 0x0⟩) ∧ literalCount 1 0x157BA4AE = 0 ∧
    decodeWord 1 0x1A262F22 [] = some (.fmax ⟨0x89, 0x8B, 0xC8, 0x1, 0x0⟩) ∧ literalCount 1 0x1A262F22 = 0 ∧
    decodeWord 1 0x1E774328 [] = some (.fcmpEq ⟨0x9D, 0xD0, 0xCA, 0x0, 0x0⟩) ∧ literalCount 1 0x1E774328 = 0 ∧
    decodeWord 1 0x23499EF8 [] = some (.fcmpNe ⟨0xD2, 0x67, 0xBE, 0x0, 0x0⟩) ∧ literalCount 1 0x23499EF8 = 0 ∧
    decodeWord 1 0x2615FD70 [] = some (.fcmpLt ⟨0x85, 0x7F, 0x5C, 0x0, 0x0⟩) ∧ literalCount 1 0x2615FD70 = 0 ∧
    decodeWord 1 0x2B2D21E6 [] = some (.fcmpLe ⟨0xCB, 0x48, 0x79, 0x1, 0x0⟩) ∧ literalCount 1 0x2B2D21E6 = 0 ∧
    decodeWord 1 0x2ECA6FD7 [] = some (.fcmpGt ⟨0xB2, 0x9B, 0xF5, 0x1, 0x1⟩) ∧ literalCount 1 0x2ECA6FD7 = 0 ∧
    decodeWord 1 0x333FC2EB [] = some (.fcmpGe ⟨0xCF, 0xF0, 0xBA, 0x1, 0x1⟩) ∧ literalCount 1 0x333FC2EB = 0 ∧
    decodeWord 1 0x3454E46D [] = some (.frcp ⟨0x15, 0x39, 0x1B, 0x0, 0x1⟩) ∧ literalCount 1 0x3454E46D = 0 ∧
    decodeWord 1 0x38CD5CD6 [] = some (.frsq ⟨0x33, 0x57, 0x35, 0x1, 0x0⟩) ∧ literalCount 1 0x38CD5CD6 = 0 ∧
    decodeWord 1 0x3DEFA6A2 [] = some (.fsqrt ⟨0x7B, 0xE9, 0xA8, 0x1, 0x0⟩) ∧ literalCount 1 0x3DEFA6A2 = 0 ∧
    decodeWord 1 0x435AA87E [] = some (.fdiv ⟨0xD6, 0xAA, 0x1F, 0x1, 0x0⟩) ∧ literalCount 1 0x435AA87E = 0 := by
  and_intros <;> rfl

theorem test_decode_float_2 :
    decodeWord 1 0x45EF90BB [] = some (.fexp2 ⟨0x7B, 0xE4, 0x2E, 0x1, 0x1⟩) ∧ literalCount 1 0x45EF90BB = 0 ∧
    decodeWord 1 0x485F3BCF [] = some (.flog2 ⟨0x17, 0xCE, 0xF3, 0x1, 0x1⟩) ∧ literalCount 1 0x485F3BCF = 0 ∧
    decodeWord 1 0x4D9EFFCC [] = some (.fsin ⟨0x67, 0xBF, 0xF3, 0x0, 0x0⟩) ∧ literalCount 1 0x4D9EFFCC = 0 ∧
    decodeWord 1 0x50B3FC84 [] = some (.fcos ⟨0x2C, 0xFF, 0x21, 0x0, 0x0⟩) ∧ literalCount 1 0x50B3FC84 = 0 ∧
    decodeWord 1 0x5663A1DD [] = some (.fround ⟨0x98, 0xE8, 0x1DD⟩) ∧ literalCount 1 0x5663A1DD = 0 ∧
    decodeWord 1 0x5B3EA096 [] = some (.fcvt ⟨0xCF, 0xA8, 0x96⟩) ∧ literalCount 1 0x5B3EA096 = 0 ∧
    decodeWord 1 0x5E775267 [] = some (.i2f ⟨0x9D, 0xD4, 0x99, 0x1, 0x1⟩) ∧ literalCount 1 0x5E775267 = 0 ∧
    decodeWord 1 0x601337E4 [] = some (.f2i ⟨0x4, 0xCD, 0xF9, 0x0, 0x0⟩) ∧ literalCount 1 0x601337E4 = 0 ∧
    decodeWord 1 0x65C3F780 [] = some (.fscale ⟨0x70, 0xFD, 0xE0, 0x0, 0x0⟩) ∧ literalCount 1 0x65C3F780 = 0 ∧
    decodeWord 1 0x682104DE [0xC38084A1] = some (.dp4 ⟨0x8, 0x41, 0x37, 0x1, 0x0⟩ 0xC38084A1) ∧ literalCount 1 0x682104DE = 1 ∧
    decodeWord 1 0x6E5D510E [0xF977045] = some (.dp8 ⟨0x97, 0x54, 0x43, 0x1, 0x0⟩ 0xF977045) ∧ literalCount 1 0x6E5D510E = 1 ∧
    decodeWord 1 0x73A6F96B [] = some (.pk ⟨0xE9, 0xBE, 0x16B⟩) ∧ literalCount 1 0x73A6F96B = 0 ∧
    decodeWord 1 0x7799DAA7 [] = some (.upk ⟨0xE6, 0x76, 0x2A7⟩) ∧ literalCount 1 0x7799DAA7 = 0 ∧
    decodeWord 1 0x7A5B47A2 [] = some (.credFloat ⟨0x96, 0xD1, 0xE8, 0x1, 0x0⟩) ∧ literalCount 1 0x7A5B47A2 = 0 ∧
    decodeWord 1 0x7E249E1D [] = some (.cscanFloat ⟨0x89, 0x27, 0x87, 0x0, 0x1⟩) ∧ literalCount 1 0x7E249E1D = 0 ∧
    decodeWord 1 0x831CBE70 [0x2C1EEA20] = some (.csredFloat ⟨0xC7, 0x2F, 0x9C, 0x0, 0x0⟩ 0x2C1EEA20) ∧ literalCount 1 0x831CBE70 = 1 := by
  and_intros <;> rfl

theorem test_decode_memory_1 :
    decodeWord 2 0x495EAE5 [] = some (.ldI8 ⟨0x25, 0x7A, 0x5, 0x6, 0x1, 0x0, 0x1⟩ 0) ∧ literalCount 2 0x495EAE5 = 0 ∧
    decodeWord 2 0xABE16D8 [] = some (.ldN8 ⟨0xAF, 0x85, 0x5, 0x5, 0x2, 0x0, 0x0⟩ 0) ∧ literalCount 2 0xABE16D8 = 0 ∧
    decodeWord 2 0xD00C596 [0xC28EE908] = some (.ldI16 ⟨0x40, 0x31, 0x3, 0x1, 0x1, 0x1, 0x0⟩ 0xC28EE908) ∧ literalCount 2 0xD00C596 = 1 ∧
    decodeWord 2 0x1397A8C9 [] = some (.ldN16 ⟨0xE5, 0xEA, 0x1, 0x4, 0x2, 0x0, 0x1⟩ 0) ∧ literalCount 2 0x1397A8C9 = 0 ∧
    decodeWord 2 0x15D20EF9 [] = some (.ldW32 ⟨0x74, 0x83, 0x5, 0x7, 0x2, 0x0, 0x1⟩ 0) ∧ literalCount 2 0x15D20EF9 = 0 ∧
    decodeWord 2 0x1BB64179 [] = some (.ldW64 ⟨0xED, 0x90, 0x2, 0x7, 0x2, 0x0, 0x1⟩ 0) ∧ literalCount 2 0x1BB64179 = 0 ∧
    decodeWord 2 0x1C819635 [] = some (.ldW128 ⟨0x20, 0x65, 0x4, 0x3, 0x1, 0x0, 0x1⟩ 0) ∧ literalCount 2 0x1C819635 = 0 ∧
    decodeWord 2 0x204CDF35 [] = some (.stN8 ⟨0x13, 0x37, 0x6, 0x3, 0x1, 0x0, 0x1⟩ 0) ∧ literalCount 2 0x204CDF35 = 0 ∧
    decodeWord 2 0x24950545 [] = some (.stN16 ⟨0x25, 0x41, 0x2, 0x4, 0x1, 0x0, 0x1⟩ 0) ∧ literalCount 2 0x24950545 = 0 ∧
    decodeWord 2 0x2B8DF565 [] = some (.stW32 ⟨0xE3, 0x7D, 0x2, 0x6, 0x1, 0x0, 0x1⟩ 0) ∧ literalCount 2 0x2B8DF565 = 0 ∧
    decodeWord 2 0x2FFE1239 [] = some (.stW64 ⟨0xFF, 0x84, 0x4, 0x3, 0x2, 0x0, 0x1⟩ 0) ∧ literalCount 2 0x2FFE1239 = 0 ∧
    decodeWord 2 0x31486337 [0x70C1DCA2] = some (.stW128 ⟨0x52, 0x18, 0x6, 0x3, 0x1, 0x1, 0x1⟩ 0x70C1DCA2) ∧ literalCount 2 0x31486337 = 1 ∧
    decodeWord 2 0x36D4163E [0x1CE3BC0D] = some (.ldbPeek ⟨0xB5, 0x5, 0x4, 0x3, 0x3, 0x1, 0x0⟩ 0x1CE3BC0D) ∧ literalCount 2 0x36D4163E = 1 ∧
    decodeWord 2 0x3BF7B3A5 [] = some (.ldbTake ⟨0xFD, 0xEC, 0x7, 0x2, 0x1, 0x0, 0x1⟩ 0) ∧ literalCount 2 0x3BF7B3A5 = 0 ∧
    decodeWord 2 0x3D182FA9 [] = some (.stb ⟨0x46, 0xB, 0x7, 0x2, 0x2, 0x0, 0x1⟩ 0) ∧ literalCount 2 0x3D182FA9 = 0 ∧
    decodeWord 2 0x436BAB7A [0x895E8B6C] = some (.stbMark ⟨0xDA, 0xEA, 0x6, 0x7, 0x2, 0x1, 0x0⟩ 0x895E8B6C) ∧ literalCount 2 0x436BAB7A = 1 := by
  and_intros <;> rfl

theorem test_decode_memory_2 :
    decodeWord 2 0x47B212CE [0x4770A088] = some (.tld ⟨0xEC, 0x84, 0x5, 0x4, 0x3, 0x1, 0x0⟩ 0x4770A088) ∧ literalCount 2 0x47B212CE = 1 ∧
    decodeWord 2 0x483F3729 [0xF037AFC7] = some (.tst ⟨0xF, 0xCD, 0x6, 0x2, 0x2, 0x0, 0x1⟩ 0xF037AFC7) ∧ literalCount 2 0x483F3729 = 1 ∧
    decodeWord 2 0x4C168CF8 [0x110E2CB7] = some (.tldWin ⟨0x5, 0xA3, 0x1, 0x7, 0x2, 0x0, 0x0⟩ 0x110E2CB7) ∧ literalCount 2 0x4C168CF8 = 1 ∧
    decodeWord 2 0x511374C7 [0xED3A32A9] = some (.amoAdd ⟨0x44, 0xDD, 0x1, 0x4, 0x1, 0x1, 0x1⟩ 0xED3A32A9) ∧ literalCount 2 0x511374C7 = 1 ∧
    decodeWord 2 0x57AD16A4 [] = some (.amoMin ⟨0xEB, 0x45, 0x5, 0x2, 0x1, 0x0, 0x0⟩ 0) ∧ literalCount 2 0x57AD16A4 = 0 ∧
    decodeWord 2 0x5BE4A995 [] = some (.amoMax ⟨0xF9, 0x2A, 0x3, 0x1, 0x1, 0x0, 0x1⟩ 0) ∧ literalCount 2 0x5BE4A995 = 0 ∧
    decodeWord 2 0x5E853EF7 [0x8005CE75] = some (.amoAnd ⟨0xA1, 0x4F, 0x5, 0x7, 0x1, 0x1, 0x1⟩ 0x8005CE75) ∧ literalCount 2 0x5E853EF7 = 1 ∧
    decodeWord 2 0x62B4B9B6 [0x3EDB921] = some (.amoOr ⟨0xAD, 0x2E, 0x3, 0x3, 0x1, 0x1, 0x0⟩ 0x3EDB921) ∧ literalCount 2 0x62B4B9B6 = 1 ∧
    decodeWord 2 0x6416F2D6 [0xEF44C0D6] = some (.amoXor ⟨0x5, 0xBC, 0x5, 0x5, 0x1, 0x1, 0x0⟩ 0xEF44C0D6) ∧ literalCount 2 0x6416F2D6 = 1 ∧
    decodeWord 2 0x69CC737F [0x8BC08312] = some (.amoExch ⟨0x73, 0x1C, 0x6, 0x7, 0x3, 0x1, 0x1⟩ 0x8BC08312) ∧ literalCount 2 0x69CC737F = 1 ∧
    decodeWord 2 0x6F5B9258 [0x57BB7D98] = some (.amoCas ⟨0xD6, 0xE4, 0x4, 0x5, 0x2, 0x0, 0x0⟩ 0 0x57BB7D98) ∧ literalCount 2 0x6F5B9258 = 1 ∧
    decodeWord 2 0x70CF5B6D [] = some (.redAddI ⟨0x33, 0xD6, 0x6, 0x6, 0x3, 0x0, 0x1⟩ 0) ∧ literalCount 2 0x70CF5B6D = 0 ∧
    decodeWord 2 0x77F964F4 [] = some (.redAddF32 ⟨0xFE, 0x59, 0x1, 0x7, 0x1, 0x0, 0x0⟩ 0) ∧ literalCount 2 0x77F964F4 = 0 ∧
    decodeWord 2 0x7A86F9C4 [] = some (.redAddX ⟨0xA1, 0xBE, 0x3, 0x4, 0x1, 0x0, 0x0⟩ 0) ∧ literalCount 2 0x7A86F9C4 = 0 ∧
    decodeWord 2 0x7EAF627E [0xB153D69D] = some (.redMin ⟨0xAB, 0xD8, 0x4, 0x7, 0x3, 0x1, 0x0⟩ 0xB153D69D) ∧ literalCount 2 0x7EAF627E = 1 ∧
    decodeWord 2 0x81303227 [0xED6B03] = some (.redMax ⟨0x4C, 0xC, 0x4, 0x2, 0x1, 0x1, 0x1⟩ 0xED6B03) ∧ literalCount 2 0x81303227 = 1 := by
  and_intros <;> rfl

theorem test_decode_memory_3 :
    decodeWord 2 0x851179D8 [] = some (.redAnd ⟨0x44, 0x5E, 0x3, 0x5, 0x2, 0x0, 0x0⟩ 0) ∧ literalCount 2 0x851179D8 = 0 ∧
    decodeWord 2 0x8BE389A8 [] = some (.redOr ⟨0xF8, 0xE2, 0x3, 0x2, 0x2, 0x0, 0x0⟩ 0) ∧ literalCount 2 0x8BE389A8 = 0 ∧
    decodeWord 2 0x8D5988C8 [] = some (.redXor ⟨0x56, 0x62, 0x1, 0x4, 0x2, 0x0, 0x0⟩ 0) ∧ literalCount 2 0x8D5988C8 = 0 ∧
    decodeWord 2 0x920B1C98 [] = some (.xflush ⟨0x82, 0xC7, 0x1, 0x1, 0x2, 0x0, 0x0⟩ 0) ∧ literalCount 2 0x920B1C98 = 0 ∧
    decodeWord 2 0x959E5CC7 [0xA1320B9E] = some (.append ⟨0x67, 0x97, 0x1, 0x4, 0x1, 0x1, 0x1⟩ 0xA1320B9E) ∧ literalCount 2 0x959E5CC7 = 1 ∧
    decodeWord 2 0x98F05AD7 [0xB87E4E2C] = some (.sealPage ⟨0x3C, 0x16, 0x5, 0x5, 0x1, 0x1, 0x1⟩ 0xB87E4E2C) ∧ literalCount 2 0x98F05AD7 = 1 ∧
    decodeWord 2 0x9FF5FD3C [] = some (.fenceInsn ⟨0xFD, 0x7F, 0x2, 0x3, 0x3, 0x0, 0x0⟩) ∧ literalCount 2 0x9FF5FD3C = 0 ∧
    decodeWord 2 0xA3535B5E [0xE8EE65A2] = some (.prefetch ⟨0xD4, 0xD6, 0x6, 0x5, 0x3, 0x1, 0x0⟩ 0xE8EE65A2) ∧ literalCount 2 0xA3535B5E = 1 ∧
    decodeWord 2 0xA61F06D4 [] = some (.cwb ⟨0x87, 0xC1, 0x5, 0x5, 0x1, 0x0, 0x0⟩ 0) ∧ literalCount 2 0xA61F06D4 = 0 ∧
    decodeWord 2 0xA8202D69 [] = some (.cinv ⟨0x8, 0xB, 0x2, 0x6, 0x2, 0x0, 0x1⟩ 0) ∧ literalCount 2 0xA8202D69 = 0 := by
  and_intros <;> rfl

theorem test_decode_tile_1 :
    decodeWord 3 0x7A24E0A [] = some (.tset ⟨0xE, 0x8, 0x9, 0x1, 0x3, 0xA⟩) ∧ literalCount 3 0x7A24E0A = 0 ∧
    decodeWord 3 0xAE6D488 [] = some (.tget ⟨0xB, 0x9, 0xB, 0x2, 0x2, 0x88⟩) ∧ literalCount 3 0xAE6D488 = 0 ∧
    decodeWord 3 0xC634FDE [] = some (.tzero ⟨0x1, 0x8, 0xD, 0x1, 0x3, 0x1DE⟩) ∧ literalCount 3 0xC634FDE = 0 ∧
    decodeWord 3 0x127E4F0E [] = some (.mma ⟨0x9, 0xF, 0x9, 0x1, 0x3, 0x10E⟩) ∧ literalCount 3 0x127E4F0E = 0 ∧
    decodeWord 3 0x14B3259F [] = some (.mmaG ⟨0x2, 0xC, 0xC, 0x4, 0x2, 0x19F⟩) ∧ literalCount 3 0x14B3259F = 0 ∧
    decodeWord 3 0x18B95784 [] = some (.tcvt ⟨0x2, 0xE, 0x5, 0x2, 0x3, 0x184⟩) ∧ literalCount 3 0x18B95784 = 0 ∧
    decodeWord 3 0x1D1334FD [] = some (.tadd ⟨0x4, 0x4, 0xC, 0x6, 0x2, 0xFD⟩) ∧ literalCount 3 0x1D1334FD = 0 := by
  and_intros <;> rfl

theorem test_decode_engine_1 :
    decodeWord 4 0x7762148 [] = some (.gxRun ⟨0x37, 0x62, 0x14, 0x8⟩) ∧ literalCount 4 0x7762148 = 0 ∧
    decodeWord 4 0xBBB04AD [] = some (.ceBuild ⟨0x3B, 0xB0, 0x4A, 0xD⟩) ∧ literalCount 4 0xBBB04AD = 0 ∧
    decodeWord 4 0xC39EA2B [] = some (.ceLookup ⟨0x3, 0x9E, 0xA2, 0xB⟩) ∧ literalCount 4 0xC39EA2B = 0 ∧
    decodeWord 4 0x10D149A3 [] = some (.ceDown ⟨0xD, 0x14, 0x9A, 0x3⟩) ∧ literalCount 4 0x10D149A3 = 0 ∧
    decodeWord 4 0x15642A7C [] = some (.ceProbe ⟨0x16, 0x42, 0xA7, 0xC⟩) ∧ literalCount 4 0x15642A7C = 0 ∧
    decodeWord 4 0x1AD4EA0A [] = some (.seGather ⟨0x2D, 0x4E, 0xA0, 0xA⟩) ∧ literalCount 4 0x1AD4EA0A = 0 ∧
    decodeWord 4 0x1C9047C1 [] = some (.seIsect ⟨0x9, 0x4, 0x7C, 0x1⟩) ∧ literalCount 4 0x1C9047C1 = 0 ∧
    decodeWord 4 0x22045F9B [] = some (.seCopy ⟨0x20, 0x45, 0xF9, 0xB⟩) ∧ literalCount 4 0x22045F9B = 0 ∧
    decodeWord 4 0x247B238B [] = some (.seMcast ⟨0x7, 0xB2, 0x38, 0xB⟩) ∧ literalCount 4 0x247B238B = 0 ∧
    decodeWord 4 0x2A04BB69 [] = some (.gqSubmit ⟨0x20, 0x4B, 0xB6, 0x9⟩) ∧ literalCount 4 0x2A04BB69 = 0 ∧
    decodeWord 4 0x2D377788 [] = some (.ecBind ⟨0x13, 0x77, 0x78, 0x8⟩) ∧ literalCount 4 0x2D377788 = 0 ∧
    decodeWord 4 0x3321FFFC [] = some (.ecRead ⟨0x32, 0x1F, 0xFF, 0xC⟩) ∧ literalCount 4 0x3321FFFC = 0 ∧
    decodeWord 4 0x32434501 [] = some (.ecReadIssued ⟨0x24, 0x34, 0x50, 0x1⟩) ∧ literalCount 4 0x32434501 = 0 ∧
    decodeWord 4 0x33C7A056 [] = some (.ecReadState ⟨0x3C, 0x7A, 0x5, 0x6⟩) ∧ literalCount 4 0x33C7A056 = 0 := by
  and_intros <;> rfl

theorem test_decode_system_1 :
    decodeWord 5 0x5D85348 [] = some (.barInit ⟨0x76, 0x14, 0x348⟩) ∧ literalCount 5 0x5D85348 = 0 ∧
    decodeWord 5 0xA0BE3FB [] = some (.barArrive ⟨0x82, 0xF8, 0x3FB⟩) ∧ literalCount 5 0xA0BE3FB = 0 ∧
    decodeWord 5 0xDD3FD14 [] = some (.barWait ⟨0x74, 0xFF, 0x114⟩) ∧ literalCount 5 0xDD3FD14 = 0 ∧
    decodeWord 5 0x1190DBAB [] = some (.gbar ⟨0x64, 0x36, 0x3AB⟩) ∧ literalCount 5 0x1190DBAB = 0 ∧
    decodeWord 5 0x17CFBCD9 [0x1319D425, 0x94DB5F90, 0x171E1A8D, 0x24491DF7] = some (.waitcAny ⟨0xF3, 0xEF, 0xD9⟩ [0x1319D425, 0x94DB5F90, 0x171E1A8D, 0x24491DF7]) ∧ literalCount 5 0x17CFBCD9 = 4 ∧
    decodeWord 5 0x1B021D0D [0xF3E6CA74, 0x5C0BB410, 0x21F267E3, 0x9A762D55] = some (.waitcAll ⟨0xC0, 0x87, 0x10D⟩ [0xF3E6CA74, 0x5C0BB410, 0x21F267E3, 0x9A762D55]) ∧ literalCount 5 0x1B021D0D = 4 ∧
    decodeWord 5 0x1F4A8A09 [] = some (.mwatch ⟨0xD2, 0xA2, 0x209⟩) ∧ literalCount 5 0x1F4A8A09 = 0 ∧
    decodeWord 5 0x21239074 [] = some (.mwait ⟨0x48, 0xE4, 0x74⟩) ∧ literalCount 5 0x21239074 = 0 ∧
    decodeWord 5 0x26D578ED [] = some (.yield ⟨0xB5, 0x5E, 0xED⟩) ∧ literalCount 5 0x26D578ED = 0 ∧
    decodeWord 5 0x2A039B82 [] = some (.refill ⟨0x80, 0xE6, 0x382⟩) ∧ literalCount 5 0x2A039B82 = 0 ∧
    decodeWord 5 0x2DF5941A [] = some (.drain ⟨0x7D, 0x65, 0x1A⟩) ∧ literalCount 5 0x2DF5941A = 0 ∧
    decodeWord 5 0x30A407CD [] = some (.regroup ⟨0x29, 0x1, 0x3CD⟩) ∧ literalCount 5 0x30A407CD = 0 ∧
    decodeWord 5 0x35FABDCE [] = some (.launch ⟨0x7E, 0xAF, 0x1CE⟩) ∧ literalCount 5 0x35FABDCE = 0 ∧
    decodeWord 5 0x39A13AE9 [] = some (.srd ⟨0x68, 0x4E, 0x2E9⟩) ∧ literalCount 5 0x39A13AE9 = 0 ∧
    decodeWord 5 0x3C95AD61 [] = some (.swr ⟨0x25, 0x6B, 0x161⟩) ∧ literalCount 5 0x3C95AD61 = 0 ∧
    decodeWord 5 0x4185446C [] = some (.evc ⟨0x61, 0x51, 0x6C⟩) ∧ literalCount 5 0x4185446C = 0 := by
  and_intros <;> rfl

theorem test_decode_system_2 :
    decodeWord 5 0x43615412 [] = some (.evcSel ⟨0xD8, 0x55, 0x12⟩) ∧ literalCount 5 0x43615412 = 0 ∧
    decodeWord 5 0x4553055B [] = some (.vhop ⟨0x54, 0xC1, 0x15B⟩) ∧ literalCount 5 0x4553055B = 0 ∧
    decodeWord 5 0x4B5D987A [] = some (.clock ⟨0xD7, 0x66, 0x7A⟩) ∧ literalCount 5 0x4B5D987A = 0 ∧
    decodeWord 5 0x4BC7B8C9 [] = some (.clockCore ⟨0xF1, 0xEE, 0xC9⟩) ∧ literalCount 5 0x4BC7B8C9 = 0 ∧
    decodeWord 5 0x4EDC139C [] = some (.trap ⟨0xB7, 0x4, 0x39C⟩) ∧ literalCount 5 0x4EDC139C = 0 ∧
    decodeWord 5 0x52F92D04 [] = some (.trapret ⟨0xBE, 0x4B, 0x104⟩) ∧ literalCount 5 0x52F92D04 = 0 ∧
    decodeWord 5 0x55804583 [] = some (.dbg ⟨0x60, 0x11, 0x183⟩) ∧ literalCount 5 0x55804583 = 0 ∧
    decodeWord 5 0x55937E5C [] = some (.dbgHalt ⟨0x64, 0xDF, 0x25C⟩) ∧ literalCount 5 0x55937E5C = 0 := by
  and_intros <;> rfl

theorem test_decode_control_1 :
    decodeWord 6 0x49715DD [] = some (.br ⟨0x2, 0x1715DD⟩) ∧ literalCount 6 0x49715DD = 0 ∧
    decodeWord 6 0xBDB6538 [] = some (.brD ⟨0xF, 0x1B6538⟩) ∧ literalCount 6 0xBDB6538 = 0 ∧
    decodeWord 6 0xF519C25 [] = some (.brAny ⟨0xD, 0x119C25⟩) ∧ literalCount 6 0xF519C25 = 0 ∧
    decodeWord 6 0x138316D4 [] = some (.brAll ⟨0xE, 0x316D4⟩) ∧ literalCount 6 0x138316D4 = 0 ∧
    decodeWord 6 0x1546826B [] = some (.brNone ⟨0x5, 0x6826B⟩) ∧ literalCount 6 0x1546826B = 0 ∧
    decodeWord 6 0x18B56B55 [0xA97766FC, 0x491E99F6, 0xA28CF7B2, 0xEF82D1A4] = some (.switch ⟨0x2, 0x356B55⟩ [0xA97766FC, 0x491E99F6, 0xA28CF7B2, 0xEF82D1A4]) ∧ literalCount 6 0x18B56B55 = 4 ∧
    decodeWord 6 0x1CCFF4F0 [] = some (.call ⟨0x3, 0xFF4F0⟩) ∧ literalCount 6 0x1CCFF4F0 = 0 ∧
    decodeWord 6 0x215BEB5F [] = some (.callr ⟨0x5, 0x1BEB5F⟩) ∧ literalCount 6 0x215BEB5F = 0 ∧
    decodeWord 6 0x265432D1 [] = some (.ret ⟨0x9, 0x1432D1⟩) ∧ literalCount 6 0x265432D1 = 0 ∧
    decodeWord 6 0x29317BD8 [] = some (.exit ⟨0x4, 0x317BD8⟩) ∧ literalCount 6 0x29317BD8 = 0 := by
  and_intros <;> rfl

/-! ## Ill-formed words -/

/-- Each check of an integer or float word refuses a word that breaks it, with its reason (R285 to R289, R295, R316 to R346). -/
theorem test_wf_arithmetic :
    Machine.textReasons (.nop 1) = [11] ∧ Machine.textReasons (.add ⟨0xE0, 2, 3, 1, 0⟩) = [8] ∧
    Machine.textReasons (.add ⟨1, 0xF8, 3, 1, 0⟩) = [8] ∧ Machine.textReasons (.add ⟨1, 2, 0xFF, 1, 0⟩) = [8] ∧
    Machine.textReasons (.add ⟨0x80, 2, 3, 1, 0⟩) = [9] ∧ Machine.textReasons (.add ⟨1, 2, 3, 1, 1⟩) = [11] ∧
    Machine.textReasons (.min ⟨1, 2, 3, 1, 1⟩) = [] ∧ Machine.textReasons (.abs ⟨1, 2, 3, 1, 0⟩) = [11] ∧
    Machine.textReasons (.mad ⟨1, 2, 3, 1, 0⟩ 0xF8) = [8] ∧ Machine.textReasons (.mad ⟨0x80, 0x81, 0x82, 1, 0⟩ 1) = [9] ∧
    Machine.textReasons (.cmpEq ⟨0x10, 2, 3, 0, 0⟩) = [11] ∧ Machine.textReasons (.cmpEq ⟨1, 2, 3, 1, 0⟩) = [11] ∧
    Machine.textReasons (.cmpEq ⟨14, 2, 3, 0, 0⟩) = [10] ∧ Machine.textReasons (.fcmpEq ⟨1, 2, 3, 0, 1⟩) = [11] ∧
    Machine.textReasons (.movi ⟨1, 3, 0⟩) = [11] ∧ Machine.textReasons (.movhi ⟨1, 2, 0⟩) = [10] ∧
    Machine.textReasons (.ext ⟨1, 2, 0x40⟩) = [11] ∧ Machine.textReasons (.lea ⟨1, 2, 3, 1, 0⟩) = [10] ∧
    Machine.textReasons (.lea ⟨2, 3, 4, 1, 0⟩) = [10] ∧ Machine.textReasons (.add64 ⟨2, 4, 5, 1, 0⟩) = [10] ∧
    Machine.textReasons (.mulw ⟨3, 4, 5, 1, 0⟩) = [10] ∧ Machine.textReasons (.shfl ⟨0x80, 2, 3, 1, 0⟩) = [8] ∧
    Machine.textReasons (.qxch ⟨1, 2, 3⟩) = [11] ∧ Machine.textReasons (.elect ⟨1, 2, 0, 1, 1⟩) = [11] ∧
    Machine.textReasons (.matchLow ⟨1, 3, 0, 1, 1⟩) = [10] ∧ Machine.textReasons (.credInt ⟨1, 2, 0xEA, 1, 0⟩) = [8] ∧
    Machine.textReasons (.credInt ⟨1, 2, 0xE4, 1, 1⟩) = [11] ∧ Machine.textReasons (.credFloat ⟨1, 2, 0xED, 1, 0⟩) = [8] ∧
    Machine.textReasons (.rngStep ⟨1, 4, 0, 1, 0⟩) = [11] ∧ Machine.textReasons (.rngStep ⟨0x80, 4, 0, 1, 0⟩) = [8] ∧
    Machine.textReasons (.rngSkip ⟨0, 4, 0xE4, 0, 0⟩) = [8] ∧ Machine.textReasons (.rngSkip ⟨0, 4, 0x7D, 0, 0⟩) = [8] ∧
    Machine.textReasons (.fround ⟨1, 2, 4⟩) = [11] ∧ Machine.textReasons (.fcvt ⟨1, 2, 0⟩) = [13] ∧
    Machine.textReasons (.pk ⟨1, 2, 0x18⟩) = [11] ∧ Machine.textReasons (.pk ⟨1, 2, 0x20⟩) = [11] ∧
    Machine.textReasons (.upk ⟨1, 2, 0x0C⟩) = [11] ∧ Machine.textReasons (.upk ⟨1, 2, 0x2B⟩) = [] := by
  and_intros <;> rfl

/-- Each check of a memory word does the same (R283, R348 to R367). -/
theorem test_wf_memory :
    Machine.textReasons (.ldW32 ⟨1, 3, 0, 0, 0, 0, 0⟩ 0) = [8] ∧ Machine.textReasons (.ldW32 ⟨0xE4, 2, 0, 0, 0, 0, 0⟩ 0) = [8] ∧
    Machine.textReasons (.ldW32 ⟨1, 2, 6, 0, 0, 0, 0⟩ 0) = [11] ∧ Machine.textReasons (.ldW32 ⟨1, 2, 0, 7, 0, 0, 1⟩ 0) = [11] ∧
    Machine.textReasons (.ldW32 ⟨1, 2, 0, 0, 0, 0, 1⟩ 0) = [11] ∧ Machine.textReasons (.ldW32 ⟨1, 2, 0, 1, 0, 0, 0⟩ 0) = [11] ∧
    Machine.textReasons (.ldW32 ⟨0x80, 2, 0, 0, 0, 0, 0⟩ 0) = [9] ∧ Machine.textReasons (.ldW32 ⟨1, 2, 0, 0, 0, 1, 0⟩ 0xE5000000) = [8] ∧
    Machine.textReasons (.ldW64 ⟨1, 2, 0, 0, 0, 0, 0⟩ 0) = [10] ∧ Machine.textReasons (.ldW128 ⟨2, 2, 0, 0, 0, 0, 0⟩ 0) = [10] ∧
    Machine.textReasons (.stW64 ⟨1, 2, 0, 0, 0, 0, 0⟩ 0) = [10] ∧ Machine.textReasons (.stW32 ⟨0xF8, 2, 0, 0, 0, 0, 0⟩ 0) = [8] ∧
    Machine.textReasons (.ldbPeek ⟨1, 0xE0, 0, 0, 0, 0, 0⟩ 0) = [8] ∧ Machine.textReasons (.stb ⟨2, 3, 0, 0, 0, 0, 1⟩ 0) = [10] ∧
    Machine.textReasons (.tld ⟨1, 2, 0, 0, 0, 0, 0⟩ 0) = [8] ∧ Machine.textReasons (.tld ⟨1, 0x80, 0, 0, 0, 0, 0⟩ 0xE0) = [8] ∧
    Machine.textReasons (.tldWin ⟨1, 0x80, 0, 0, 0, 0, 0⟩ 0xF900) = [8] ∧ Machine.textReasons (.tst ⟨1, 0x80, 0, 0, 0, 1, 0⟩ 0) = [11] ∧
    Machine.textReasons (.amoAdd ⟨1, 2, 0, 0, 0, 0, 1⟩ 0) = [11] ∧ Machine.textReasons (.amoMin ⟨1, 2, 0, 0, 1, 0, 0⟩ 0) = [11] ∧
    Machine.textReasons (.amoCas ⟨1, 2, 0, 0, 0, 0, 0⟩ 0 0xF8) = [8] ∧ Machine.textReasons (.redAddI ⟨0xF9, 2, 0, 0, 0, 0, 0⟩ 0) = [8] ∧
    Machine.textReasons (.append ⟨1, 2, 0, 0, 0, 0, 1⟩ 0) = [10] ∧ Machine.textReasons (.sealPage ⟨1, 3, 0, 0, 0, 0, 0⟩ 0) = [8] ∧
    Machine.textReasons (.fenceInsn ⟨0, 0, 0, 0, 0, 0, 0⟩) = [11] ∧ Machine.textReasons (.fenceInsn ⟨0, 0, 0, 5, 0, 0, 1⟩) = [11] ∧
    Machine.textReasons (.prefetch ⟨0, 2, 0, 0, 0, 0, 0⟩ 0) = [11] ∧ Machine.textReasons (.cwb ⟨0, 2, 7, 0, 0, 0, 1⟩ 0) = [11] := by
  and_intros <;> rfl

/-- Each check of a tile, engine, system or control word does the same (R372, R389, R401 to R411). -/
theorem test_wf_system :
    Machine.textReasons (.tset ⟨0, 1, 0, 0, 0, 0⟩) = [11] ∧ Machine.textReasons (.tset ⟨0, 0, 0, 0, 0, 96⟩) = [8] ∧
    Machine.textReasons (.tget ⟨0, 0, 0, 0, 0, 2⟩) = [10] ∧ Machine.textReasons (.tzero ⟨0, 0, 0, 0, 0, 1⟩) = [11] ∧
    Machine.textReasons (.mma ⟨0, 1, 2, 0, 3, 0⟩) = [11] ∧ Machine.textReasons (.tcvt ⟨0, 1, 0, 0, 0, 0⟩) = [13] ∧
    Machine.textReasons (.tadd ⟨0, 1, 0, 0, 0, 2⟩) = [11] ∧ Machine.textReasons (.gxRun ⟨0, 2, 0, 0⟩) = [8] ∧
    Machine.textReasons (.gxRun ⟨0, 0x81, 0, 0⟩) = [10] ∧ Machine.textReasons (.seCopy ⟨0, 0x80, 0x82, 1⟩) = [11] ∧
    Machine.textReasons (.ecBind ⟨0, 0, 0, 5⟩) = [11] ∧ Machine.textReasons (.ecBind ⟨0, 2, 0, 4⟩) = [8] ∧
    Machine.textReasons (.ecRead ⟨0, 0x80, 1, 0⟩) = [8] ∧ Machine.textReasons (.barInit ⟨0, 2, 0⟩) = [9] ∧
    Machine.textReasons (.barWait ⟨1, 2, 0⟩) = [11] ∧ Machine.textReasons (.gbar ⟨0, 0, 1⟩) = [11] ∧
    Machine.textReasons (.waitcAny ⟨1, 2, 4⟩ [0, 0]) = [11] ∧ Machine.textReasons (.waitcAny ⟨1, 2, 0⟩ [4, 0]) = [11] ∧
    Machine.textReasons (.waitcAny ⟨1, 2, 0⟩ [0x300, 0]) = [10] ∧ Machine.textReasons (.mwatch ⟨0, 3, 0⟩) = [8] ∧
    Machine.textReasons (.refill ⟨0, 0, 17⟩) = [10] ∧ Machine.textReasons (.refill ⟨1, 0, 0⟩) = [11] ∧
    Machine.textReasons (.regroup ⟨0x80, 2, 0⟩) = [8] ∧ Machine.textReasons (.launch ⟨1, 3, 0⟩) = [8] ∧
    Machine.textReasons (.srd ⟨1, 0, 0x12⟩) = [11] ∧ Machine.textReasons (.srd ⟨0x80, 0, 0x20⟩) = [9] ∧
    Machine.textReasons (.swr ⟨0, 1, 0⟩) = [9] ∧ Machine.textReasons (.evc ⟨0x81, 0, 0⟩) = [10] ∧
    Machine.textReasons (.evcSel ⟨0, 1, 0x10⟩) = [] ∧ Machine.textReasons (.evcSel ⟨0, 0xF8, 0⟩) = [8] ∧ Machine.textReasons (.vhop ⟨1, 2, 0x103⟩) = [11] ∧
    Machine.textReasons (.clock ⟨0x80, 0, 2⟩) = [11] ∧ Machine.textReasons (.trap ⟨1, 0, 0⟩) = [11] ∧
    Machine.textReasons (.dbg ⟨0, 0x80, 0x20⟩) = [11] ∧ Machine.textReasons (.br ⟨1, 0⟩) = [11] ∧
    Machine.textReasons (.switch ⟨8, 0⟩ [0, 0]) = [11] ∧ Machine.textReasons (.switch ⟨0, 0⟩ [0xFF, 0]) = [8] ∧
    Machine.textReasons (.ret ⟨0, 1⟩) = [11] ∧ Machine.textReasons (.exit ⟨0, 1⟩) = [11] := by
  and_intros <;> rfl

/-- A word whose literal words do not have the number of R306, or that another instruction's field would name, is not well formed;
nor is an event whose operands have the wrong size. -/
theorem test_wf_literals :
    (Instr.ldW32 ⟨1, 2, 0, 0, 0, 0, 0⟩ 5).wf = false ∧ (Instr.ldW32 ⟨1, 2, 0, 0, 0, 1, 0⟩ 0xE4000005).wf = true ∧
    (Instr.waitcAny ⟨1, 2, 0⟩ [0, 0, 0]).wf = false ∧ (Instr.waitcAny ⟨1, 2, 0⟩ [0, 0]).wf = true ∧
    (Instr.switch ⟨1, 0⟩ [0, 0]).wf = false ∧ (Instr.switch ⟨1, 0⟩ [0, 0, 0]).wf = true ∧
    (Instr.evc ⟨0x80, 0, 0x10⟩).wf = false ∧ (Instr.evcSel ⟨0, 0x80, 0⟩).wf = false ∧ (Instr.clock ⟨0x80, 0, 1⟩).wf = false ∧
    (Instr.clockCore ⟨0x80, 0, 0⟩).wf = false ∧ (Instr.dbg ⟨0, 0x80, 0x10⟩).wf = false ∧ (Instr.dbgHalt ⟨0, 0x80, 0⟩).wf = false ∧
    (Instr.ecRead ⟨0, 0x80, 0, 1⟩).wf = false ∧ (Instr.ecReadIssued ⟨0, 0x80, 0, 0⟩).wf = false ∧
    (Instr.ecReadState ⟨0, 0x80, 0, 1⟩).wf = false ∧ (Instr.powerEvaluation 300 []).wf = false ∧
    (Instr.ageingSampleDone ⟨0, 0, []⟩).wf = false ∧ (Instr.eccCorrected 5 none).wf = false ∧
    (Instr.eccUncorrectable 5 (.control 0)).wf = false := by
  and_intros <;> rfl

/-! ## The manual's worked numbers -/

/-- The finite value of an FP32 word. -/
def finite (w : Word) : Machine.Num :=
  match f32 w with
  | .fin n => n
  | _ => ⟨false, 0, 0⟩

/-- R268: 1.3 converts to E2M1 with stochastic rounding as 1.5 or as 1.0. -/
theorem test_stochastic_rounding : (e2m1.round false 4 0x80000000 (finite 0x3FA66666)).1 = 3 ∧
    (e2m1.round false 4 0xA0000000 (finite 0x3FA66666)).1 = 2 := by decide

/-- R336: 70,000.0 overflows in E5M2 to 57,344, which reads back as 0x4760_0000. -/
theorem test_fcvt_overflow : e5m2.round false 0 0 (finite 0x4788B800) = (0x7B, flOF ||| flNX) ∧ elemToF32 5 0x7B = 0x47600000 := by decide

/-- R397: 300, 0.375 and 5.0e-5 in E4M3. -/
theorem test_e4m3 : (e4m3.round false 0 0 (finite 0x43960000)).1 = 0x79 ∧ (e4m3.round false 0 0 (finite 0x3EC00000)).1 = 0x2C ∧
    (e4m3.round false 0 0 (finite 0x3851B717)).1 = 0 := by decide

/-- R273: the elements of the example of two chunks, with those at two places exchanged where asked. -/
def chunkRow (swap : Bool) : List Nat :=
  let r := List.replicate 32 0
  let r := (((r.set 0 0x4580).set 2 0x3F80).set 16 0x3F80).set 18 0x3580
  if swap then (r.set 1 0x3980).set 17 0x3F80 else (r.set 1 0x3F80).set 17 0x3980

/-- R273: two chunks of BF16, and the same with the products at k = 1 and k = 17 exchanged. -/
theorem test_two_chunks :
    accumElem false 16 0 0 ((chunkRow false).map (fromElem 3)) ((chunkRow false).map (fromElem 3)) = (0x4B800002, 0) ∧
    (accumElem false 16 0 0 ((chunkRow true).map (fromElem 3)) ((chunkRow true).map (fromElem 3))).1 = 0x4B800001 := by decide

/-- R252: three values added to a zeroed record, in the example's order, leave 1.0. -/
theorem test_exact_sum :
    (([0x4B800000, 0x3F800000, 0xCB800000] : List Word).foldl (fun r w => exactAdd r (f32 w)) {}).value.toNat = 2 ^ 160 ∧
    (exactValue (([0xCB800000, 0x3F800000, 0x4B800000] : List Word).foldl (fun r w => exactAdd r (f32 w)) {})).1 = 0x3F800000 := by decide +kernel

/-- R326: movi and movhi of the example. -/
theorem test_movi : ((after (.movi ⟨0x8A, 2, 0x1234⟩) (stateAt (.movi ⟨0x8A, 2, 0x1234⟩))).crew 0).sreg 10 = 0x12340000 ∧
    ((after (.movhi ⟨0x8A, 0, 0x5678⟩) (withRegs (stateAt (.movhi ⟨0x8A, 0, 0x5678⟩)) [] [(10, 0x12340000)])).crew 0).sreg 10 = 0x12345678 := by
  decide

/-- R327: bfi with p = 28 and w = 8 writes only bits 31 to 28. -/
theorem test_bfi : ((after (.bfi ⟨1, 2, 0xFC⟩) (withRegs (stateAt (.bfi ⟨1, 2, 0xFC⟩)) [(2, 0, 0xFFFFFFFF)] [])).crew 0).vreg 1 0 = 0xF0000000 := by
  decide

/-- R338: the dot product of the example, and its word. -/
theorem test_dp8 : decodeWord 1 0x6C10141A [0x00000207] = some (.dp8 ⟨4, 5, 6, 1, 0⟩ 0x207) ∧
    (let i := Instr.dp8 ⟨4, 5, 6, 1, 0⟩ 0x207
     let s := withRegs (stateAt i) [(5, 0, 0x7EC03038), (6, 0, 0x30303838), (7, 0, 0x3E800000)] []
     let s := s.modGrid 0 fun g => { g with lr := { g.lr with slots := [0, 0, 4] } }
     ((after i s).crew 0).vreg 4 0 = 0x4360C000 ∧ ((after i s).cur.map (·.flags)) = some 0) := by
  refine ⟨rfl, ?_⟩
  decide

/-- R344: the segmented sum with a missing thread, and its word. -/
theorem test_segmented_sum : decodeWord 0 0xB8180B92 [3] = some (.csredInt ⟨6, 2, 0xE4, 1, 0⟩ 3) ∧
    (let i := Instr.csredInt ⟨6, 2, 0xE4, 1, 0⟩ 3
     let s := withRegs (stateOf i [0, 1, 2, 3, 5, 6, 7]) [(2, 0, 5), (2, 1, 1), (2, 2, 4), (2, 3, 2), (2, 4, 7), (2, 5, 3), (2, 6, 6),
       (6, 4, 99)] []
     let s := s.modCrew 0 fun c => { c with m := [(3, 0x59)], lanes := sset {} c.lanes 4 { st := .parked } }
     let t := after i s
     (List.range 8).map (fun l => (t.crew 0).vreg 6 l) = [10, 10, 10, 5, 99, 5, 6, 6]) := by
  refine ⟨rfl, ?_⟩
  decide

/-- R274: 2^24, 1.0 and 1.0 in lanes 0 to 2 sum to 2^24. -/
theorem test_float_tree :
    let i := Instr.credFloat ⟨6, 2, 0xE4, 1, 0⟩
    let s := withRegs (stateOf i [0, 1, 2]) [(2, 0, 0x4B800000), (2, 1, 0x3F800000), (2, 2, 0x3F800000)] []
    ((after i s).crew 0).vreg 6 1 = 0x4B800000 := by decide

/-- R209: the walk of the example to a page of 2 MiB. -/
theorem test_walk :
    let m := [(0x40000010, 0x40200001), (0x40200468, 0x40201001), (0x40201158, 0x7A400007)].foldl
      (fun m (a, e) => Memory.writeN m a (natToBytes 8 e)) ([] : Memory)
    let s := { State.reset with mem := m, ctxs := sset {} [] 0 { ptroot := 0x40000000 } }
    s.walk 0 0x12345678ABC = .leaf { base := 0x7A400000, size := 0x200000, w := true, x := false, cls := 0, ats := false } := by decide

/-- R44: the way of the example. -/
theorem test_way : wayOf 0x23A80 = 23 := by decide

/-- R28: the monitor of the example asks for 15 mV, three steps. -/
theorem test_guardband : monitorSteps 40000 (-8) 380 39420 = 3 := by decide

/-- R365: the words of fences. -/
theorem test_fence_words : decodeWord 2 0x9C000064 [] = some (.fenceInsn ⟨0, 0, 0, 6, 1, 0, 0⟩) ∧
    decodeWord 2 0x9C000050 [] = some (.fenceInsn ⟨0, 0, 0, 5, 0, 0, 0⟩) := ⟨rfl, rfl⟩

/-- R305: nop and brk in every class. -/
theorem test_nop_and_brk : ∀ c < 7, decodeWord c 0 [] = some (.nop 0) ∧ decodeWord c 0xFC000005 [] = some (.brk 5) := by decide

/-- A word that a table leaves unassigned decodes to nothing (R304). -/
theorem test_unassigned : decodeWord 0 0xC4000000 [] = none ∧ decodeWord 1 0x84000000 [] = none ∧ decodeWord 2 0xAC000000 [] = none ∧
    decodeWord 3 0x20000000 [] = none ∧ decodeWord 4 0x34000000 [] = none ∧ decodeWord 5 0x58000000 [] = none ∧
    decodeWord 6 0x2C000000 [] = none ∧ decodeWord 7 0 [] = none := by and_intros <;> rfl

/-- R268: 2^24 + 1 rounds to even and is inexact. -/
theorem test_fadd_ties_to_even :
    let i := Instr.fadd ⟨3, 1, 2, 1, 0⟩
    let s := withRegs (stateAt i) [(1, 0, 0x4B800000), (2, 0, 0x3F800000)] []
    ((after i s).crew 0).vreg 3 0 = 0x4B800000 ∧ ((after i s).cur.map (·.flags)) = some flNX := by decide

/-- Thread 0 stands at add v3, v1, v2 with 1 and 2 in v1 and v2. -/
def firstStep : State := withRegs (State.reset.withFetchWord 32 0x040C040A) [(1, 0, 1), (2, 0, 2)] []

/-- R288: a step runs the word that stands at the pulse. -/
theorem test_step : (match step firstStep with | .next t => (t.crew 0).vreg 3 0 | _ => 0) = 3 := by decide +kernel

/-! ## Witnesses: states and operands that meet the hypotheses of the statements -/

/-- The state with a trap handler named by the record of the grid, and the trap-enable of misaligned transfers. -/
def handled (s : State) : State := s.modGrid 0 fun g => { g with lr := { g.lr with trappc := 0x20000, tmis := true } }

/-- An access that goes ahead. -/
def hitOf : Acc → Hit
  | .ok h => h
  | _ => ⟨.dev 0, none, 0⟩

/-- Whether it does. -/
def goesOn : Acc → Bool
  | .ok _ => true
  | _ => false

theorem goesOn_hit {a : Acc} (h : goesOn a = true) : a = .ok (hitOf a) := by
  cases a <;> simp_all [goesOn, hitOf]

/-- What the crew needs to be free in its choices: no grid, or one without DET (R258). -/
theorem crewMay_free {s : State} {k : Nat} {es : List LogEnt} (h : ∀ g, s.grid (s.crew k).grid = some g → g.lr.det = false) :
    CrewMay s k es := by
  intro g hg
  have hd := h g hg
  have all : ∀ (xs : List LogEnt) (u : State), MayChooseAll (ctxOf k) g sameKey xs u := by
    intro xs
    induction xs with
    | nil => intro u; trivial
    | cons e xs ih => exact fun u => ⟨.inl hd, fun t _ => ih t⟩
  exact all _ s

/-- One choice of a recording grid, with room in the log (R259). -/
theorem crewMay_records {s : State} {k : Nat} {e : LogEnt}
    (h : ∀ g, s.grid (s.crew k).grid = some g → g.lr.det = true ∧ g.lr.replay = false ∧
      (s.ctx (ctxOf k)).logpos ≠ (s.ctx (ctxOf k)).logsize.toNat * 256) : CrewMay s k [e] :=
  fun g hg => ⟨.inr (.inl (h g hg)), fun _ _ => trivial⟩

/-- The first entry of a log of one entry that is not consumed (R261). -/
theorem first_entry {s : State} {n : Nat} {same : LogEnt → Bool} (h0 : 0 < (s.ctx n).logsize.toNat * 256)
    (h1 : (s.logEnt n 0).kind ≠ 0 ∧ (s.logEnt n 0).kind < 8) (h2 : same (s.logEnt n 0) = true) (h3 : (s.ctx n).logUsed = [])
    (h4 : (s.logEnt n 1).kind = 0) : FirstEntry s n same 0 := by
  refine ⟨⟨h0, fun m hm => ?_⟩, h2, by simp [h3], fun j hj => absurd hj (Nat.not_lt_zero j), fun j hj => ?_⟩
  · obtain rfl : m = 0 := Nat.le_zero.1 hm
    exact h1.1
  · rcases Nat.eq_zero_or_pos j with rfl | hp
    · exact h1.2
    · exact absurd h4 (hj.2 1 hp)

/-- One choice of a replayed grid, which the only entry of its log names. -/
theorem crewMay_replays {s : State} {k : Nat} {e : LogEnt}
    (h : ∀ g, s.grid (s.crew k).grid = some g → g.lr.det = true ∧ g.lr.replay = true ∧ 0 < (s.ctx (ctxOf k)).logsize.toNat * 256 ∧
      ((s.logEnt (ctxOf k) 0).kind ≠ 0 ∧ (s.logEnt (ctxOf k) 0).kind < 8) ∧ s.logEnt (ctxOf k) 0 = ofGrid g e ∧
      (s.ctx (ctxOf k)).logUsed = [] ∧ (s.logEnt (ctxOf k) 1).kind = 0) : CrewMay s k [e] := by
  intro g hg
  obtain ⟨a, b, c, d, i, j, m⟩ := h g hg
  refine ⟨.inr (.inr ⟨a, b, 0, first_entry c d ?_ j m, i⟩), fun _ _ => trivial⟩
  simp [sameKey, i]

/-- The state whose context 0 keeps a log of 4 KiB at 0x6000, and whose grid 0 logs its choices or replays a log of one entry. -/
def logging (s : State) (replay : Bool) (e : LogEnt) : State :=
  let s := s.modGrid 0 fun g => { g with lr := { g.lr with det := true, replay } }
  { s with ctxs := sset {} s.ctxs 0 { s.ctx 0 with logbase := 0x6000, logsize := 1 }
           mem := if replay then Memory.writeN s.mem 0x6000 (entryBytes e) else s.mem }

/-- What crewMay_records and crewMay_replays ask of crew 0's grid, as a test. -/
def mayLog (s : State) (replay : Bool) (e : LogEnt) : Bool :=
  match s.grid (s.crew 0).grid with
  | some g => g.lr.det && g.lr.replay == replay && decide (0 < (s.ctx 0).logsize.toNat * 256) &&
      if replay then decide ((s.logEnt 0 0).kind ≠ 0 ∧ (s.logEnt 0 0).kind < 8) && s.logEnt 0 0 == ofGrid g e &&
        (s.ctx 0).logUsed == [] && (s.logEnt 0 1).kind == 0
      else decide ((s.ctx 0).logpos ≠ (s.ctx 0).logsize.toNat * 256)
  | none => false

theorem mayLog_meets {s : State} {replay : Bool} {e : LogEnt} (h : mayLog s replay e = true) : CrewMay s 0 [e] := by
  unfold mayLog at h
  split at h
  · next g hg =>
    simp only [Bool.and_eq_true, beq_iff_eq, decide_eq_true_eq] at h
    obtain ⟨⟨⟨h1, h2⟩, h3⟩, h4⟩ := h
    cases replay
    · exact crewMay_records fun g' hg' => by
        obtain rfl : g = g' := Option.some.inj (hg.symm.trans hg')
        exact ⟨h1, h2, of_decide_eq_true h4⟩
    · exact crewMay_replays fun g' hg' => by
        obtain rfl : g = g' := Option.some.inj (hg.symm.trans hg')
        simp only [if_pos, Bool.and_eq_true, beq_iff_eq, decide_eq_true_eq] at h4
        exact ⟨h1, h2, h3, h4.1.1.1, h4.1.1.2, h4.1.2, h4.2⟩
  · exact absurd h Bool.false_ne_true

/-- Register forms of both destinations, with a predicate that clears W and with every source kind. -/
def forms : List FmtA := [⟨3, 1, 2, 1, 0⟩, ⟨0x83, 0x81, 0xE4, 1, 0⟩, ⟨127, 0x81, 0xE3, 0, 0⟩, ⟨0x9F, 0xC8, 0xE0, 1, 0⟩]

theorem witness_IntegerResults : (∀ f ∈ forms, ∀ i ∈ [Instr.add f, .sub f, .mul f, .mulhi f, .mad f 0x81, .min f, .max f, .and f, .or f,
      .xor f, .andn f, .shl f, .shr f, .sar f, .rot f, .sel f 15],
      (integer (stateAt i) (pulseAt i) i).isSome = true ∧ Ready (stateAt i) (pulseAt i) i) ∧
    (∀ i ∈ [Instr.abs ⟨3, 1, 0, 1, 0⟩, .neg ⟨3, 1, 0, 1, 0⟩, .clz ⟨3, 1, 0, 1, 0⟩, .popc ⟨3, 1, 0, 1, 0⟩, .brev ⟨3, 1, 0, 1, 0⟩,
        .mov ⟨3, 1, 0, 1, 0⟩, .bfx ⟨3, 1, 0x3FF⟩, .bfi ⟨3, 1, 0x3FF⟩, .ext ⟨3, 1, 63⟩, .movi ⟨3, 0, 0xFFFF⟩, .movi ⟨3, 1, 1⟩, .movi ⟨3, 2, 1⟩,
        .movhi ⟨4, 3, 1⟩, .lea ⟨126, 2, 1, 1, 0⟩, .add64 ⟨4, 2, 6, 1, 0⟩, .sub64 ⟨4, 2, 6, 1, 0⟩, .mulw ⟨4, 2, 6, 1, 1⟩],
      (integer (stateAt i) (pulseAt i) i).isSome = true ∧ Ready (stateAt i) (pulseAt i) i) := by
  unfold Ready; decide

theorem witness_CompareResults :
    (∀ f ∈ [(⟨0, 1, 2, 0, 0⟩ : FmtA), ⟨13, 1, 0xE3, 0, 0⟩], ∀ i ∈ [Instr.cmpEq f, .cmpNe f, .cmpLt f, .cmpLe f, .cmpGt f, .cmpGe f,
      .cmpLt { f with v := 1 }, .cmpLe { f with v := 1 }, .cmpGt { f with v := 1 }, .cmpGe { f with v := 1 },
      .fcmpEq f, .fcmpNe f, .fcmpLt f, .fcmpLe f, .fcmpGt f, .fcmpGe f],
    (relation (stateAt i) (pulseAt i) i).isSome = true ∧ Ready (stateAt i) (pulseAt i) i) := by
  unfold Ready; decide

/-- The record of grid 0 with the FORMAT slots of R106. -/
def slotted (s : State) (xs : List Nat) : State := s.modGrid 0 fun g => { g with lr := { g.lr with slots := xs.map fun x => BitVec.ofNat _ x } }

theorem witness_FloatResults :
    (∀ f ∈ forms, ∀ i ∈ [Instr.fadd f, .fsub f, .fmul f, .ffma f 0x81, .fmin f, .fmax f, .fdiv f, .fscale f],
      (float (stateAt i) (pulseAt i) i).isSome = true ∧ Ready (stateAt i) (pulseAt i) i) ∧
    (∀ i ∈ [Instr.frcp ⟨3, 1, 0, 1, 0⟩, .frsq ⟨3, 1, 0, 1, 0⟩, .fsqrt ⟨3, 1, 0, 1, 0⟩, .fexp2 ⟨3, 1, 0, 1, 0⟩, .flog2 ⟨3, 1, 0, 1, 0⟩,
        .fsin ⟨3, 1, 0, 1, 0⟩, .fcos ⟨3, 1, 0, 1, 0⟩, .i2f ⟨3, 1, 0, 1, 1⟩, .i2f ⟨3, 1, 0, 1, 0⟩, .f2i ⟨3, 1, 0, 1, 1⟩, .f2i ⟨3, 1, 0, 1, 0⟩,
        .fround ⟨3, 1, 3⟩, .pk ⟨3, 1, 7⟩, .pk ⟨3, 1, 0x11⟩, .upk ⟨3, 1, 0x27⟩, .upk ⟨3, 1, 0x31⟩],
      (float (stateAt i) (pulseAt i) i).isSome = true ∧ Ready (stateAt i) (pulseAt i) i) := by
  unfold Ready; decide

theorem witness_FloatFormats : ∀ i ∈ [Instr.fcvt ⟨3, 1, 1⟩, .fcvt ⟨3, 1, 9⟩, .dp4 ⟨3, 1, 2, 1, 0⟩ 0x304, .dp8 ⟨3, 1, 2, 1, 0⟩ 0x204],
    let s := slotted (stateAt i) [0, 3, 4, 8]
    (float s (pulseAt i) i).isSome = true ∧ Ready s (pulseAt i) i := by
  unfold Ready; decide

/-- RoundingIsNearestEven has no premise but the format. -/
theorem witness_RoundingIsNearestEven : formats ≠ [] := by decide

/-- Three operands of a float word in lane 0. -/
def operands (a b c : Word) : State := withRegs (stateAt (.nop 0)) [(1, 0, a), (2, 0, b), (3, 0, c)] []

/-- Operands for each row of the table of R271, in its order. -/
theorem witness_FloatSpecialCases :
    (([(0x7F800001, 0, 0), (0xFFFFFFFF, 0x3F800000, 0), (0x7F800000, 0xFF800000, 0), (0x7F800000, 0x7F800000, 0), (0x80000000, 0xFF800000, 0),
        (0x3F800000, 0x7F800000, 0xFF800000), (0, 0x80000000, 0), (0x80800000, 0, 0), (0x00000001, 0x80000000, 0), (0x7FC00000, 0x7FC00000, 0)] :
        List (Word × Word × Word)).all fun x => let s := operands x.1 x.2.1 x.2.2
        s.src 0 0 1 == x.1 && s.src 0 0 2 == x.2.1 && s.src 0 0 3 == x.2.2) = true ∧
    nanWord 0x7F800001 ∧ nanWord 0xFFFFFFFF ∧ ¬ nanWord 0x7F800000 ∧ ¬ nanWord 0x3F800000 ∧ infWord 0x7F800000 ∧ infWord 0xFF800000 ∧
    zeroWord 0 ∧ zeroWord 0x80000000 ∧ ¬ zeroWord 0x3F800000 ∧ (0xFF800000 : Word) = infOf (signOf 0x3F800000 == signOf 0x7F800000) ∧
    (infWord 0x7F800000 ∧ ¬ nanWord 0x3F800000 ∧ ¬ zeroWord 0x3F800000 ∧ (0x7F800000 : Word) = infOf (signOf 0x7F800000 == signOf 0xBF800000)) ∧
    (signOf 0x80800000 = true ∧ ¬ zeroWord 0x80800000 ∧ ¬ nanWord 0x80800000) ∧ (¬ nanWord 1 ∧ ¬ infWord 1 ∧ ¬ zeroWord 1) ∧
    (¬ ((zeroWord 0x7F800001 ∧ infWord 0) ∨ (infWord 0x7F800001 ∧ zeroWord 0))) ∧ ([1, 2] : List Word).Perm [2, 1] := by
  unfold nanWord infWord zeroWord
  refine ⟨by decide +kernel, by decide, by decide, by decide, by decide, by decide, by decide, by decide, by decide, by decide, by decide, by decide,
    by decide, by decide, by decide, List.Perm.swap 2 1 []⟩

theorem witness_CrewMoves : (∀ i ∈ [Instr.shfl ⟨3, 1, 2, 1, 0⟩, .shfl ⟨127, 0x81, 0xC8, 0, 1⟩, .qxch ⟨3, 1, 0⟩, .qxch ⟨3, 0xE3, 2⟩, .vote ⟨3, 1, 0, 1, 0⟩,
      .vote ⟨3, 1, 0, 1, 1⟩, .popm ⟨3, 1, 0, 1, 0⟩, .popm ⟨3, 1, 0, 1, 1⟩, .elect ⟨3, 1, 0, 1, 0⟩, .matchLow ⟨3, 1, 0, 1, 0⟩, .matchLow ⟨3, 2, 0, 1, 1⟩],
    (crewMove (stateOf i [0, 5, 31, 32, 63]) (lanesIn [0, 5, 31, 32, 63] (pulseAt i)) i).isSome = true ∧
      Ready (stateOf i [0, 5, 31, 32, 63]) (lanesIn [0, 5, 31, 32, 63] (pulseAt i)) i) := by
  unfold Ready; decide +kernel

theorem witness_CrewReductions :
    (∀ b < 6, ∀ i ∈ [Instr.credInt ⟨3, 1, BitVec.ofNat 8 (0xE4 + b), 1, 0⟩, .cscanInt ⟨3, 1, BitVec.ofNat 8 (0xE4 + b), 1, 0⟩,
        .csredInt ⟨3, 1, BitVec.ofNat 8 (0xE4 + b), 1, 0⟩ 13],
      (reduction (stateAt i) (pulseAt i) i).isSome = true ∧ Ready (stateAt i) (pulseAt i) i) ∧
    (∀ b < 9, ∀ i ∈ [Instr.credFloat ⟨3, 1, BitVec.ofNat 8 (0xE4 + b), 1, 0⟩, .cscanFloat ⟨3, 1, BitVec.ofNat 8 (0xE4 + b), 1, 0⟩,
        .csredFloat ⟨3, 1, BitVec.ofNat 8 (0xE4 + b), 1, 0⟩ 13],
      (reduction (stateAt i) (pulseAt i) i).isSome = true ∧ Ready (stateAt i) (pulseAt i) i) := by
  unfold Ready; decide

theorem witness_GeneratorSteps :
    (∀ i ∈ [Instr.rngStep ⟨124, 0, 0, 1, 0⟩, .rngStep ⟨0, 120, 0, 0, 0⟩, .rngSkip ⟨0, 120, 12, 0, 0⟩], Ready (stateAt i) (pulseAt i) i) := by
  unfold Ready; decide

/-- Words of two lanes whose grid names a handler. -/
abbrev two' (i : Instr) : State := handled (stateOf i [0, 63])

theorem witness_IllegalWordsTrap : ∀ i ∈ [Instr.add ⟨3, 1, 2, 1, 1⟩, .add ⟨3, 127, 2, 0, 1⟩, .pk ⟨3, 1, 63⟩],
    isWord i ∧ (two' i).cur = some (lanesIn [0, 63] (pulseAt i)) ∧
    (∃ r ∈ (two' i).reasons (lanesIn [0, 63] (pulseAt i)) i, ∀ q ∈ (two' i).reasons (lanesIn [0, 63] (pulseAt i)) i, r ≤ q) ∧
    Trappable (two' i) (lanesIn [0, 63] (pulseAt i)) := by
  unfold isWord Trappable; decide

/-- The state with v1 of lane 0 poisoned. -/
def poisoned (s : State) : State := s.modCrew 0 fun c => { c with vPois := [(64, true)] }

theorem witness_FatalCausesStopTheContext : (∀ i ∈ [Instr.add ⟨3, 1, 2, 1, 0⟩, .swr ⟨0, 1, 0x27⟩], tamePoison i) ∧
    (let i := Instr.add ⟨3, 1, 2, 1, 1⟩
     isWord i ∧ (stateAt i).cur = some (pulseAt i) ∧ ((stateAt i).ctx 0).st = .on ∧ Pulse.members (pulseAt i) ≠ [] ∧
      (stateAt i).reasons (pulseAt i) i ≠ [] ∧ ((stateAt i).recOf 0).trappc = 0) ∧
    (let i := Instr.add ⟨3, 1, 2, 1, 0⟩
     isWord i ∧ (poisoned (stateAt i)).cur = some (pulseAt i) ∧ ((poisoned (stateAt i)).ctx 0).st = .on ∧
      (poisoned (stateAt i)).reasons (pulseAt i) i = [] ∧ (poisoned (stateAt i)).poisonTaken (pulseAt i) i ≠ []) := by
  refine ⟨?_, ?_⟩
  · intro i hi
    rcases List.mem_cons.1 hi with rfl | hi
    · exact .inl (by decide)
    · obtain rfl := List.mem_singleton.1 hi
      exact .inr trivial
  · unfold isWord; decide +kernel

/-- The threads of crew 0 inside their handlers. -/
def inHandler (s : State) : State := s.modCrew 0 fun c => { c with lanes := c.lanes.map fun x => (x.1, { x.2 with inTrap := true }) }

theorem witness_TrapAndDebugWords :
    (Ready (two' (.trap ⟨0, 0, 0⟩)) (lanesIn [0, 63] (pulseAt (.trap ⟨0, 0, 0⟩))) (.trap ⟨0, 0, 0⟩) ∧
      Trappable (two' (.trap ⟨0, 0, 0⟩)) (lanesIn [0, 63] (pulseAt (.trap ⟨0, 0, 0⟩)))) ∧
    (let s := inHandler (two' (.trapret ⟨0, 0, 0⟩))
     let p := lanesIn [0, 63] (pulseAt (.trapret ⟨0, 0, 0⟩))
     Ready s p (.trapret ⟨0, 0, 0⟩) ∧ ∀ l ∈ Pulse.members p, ((s.crew p.crew).lane l).inTrap = true) ∧
    (let s := two' (.trapret ⟨0, 0, 0⟩)
     let p := lanesIn [0, 63] (pulseAt (.trapret ⟨0, 0, 0⟩))
     Ready s p (.trapret ⟨0, 0, 0⟩) ∧ Trappable s p) ∧
    (let i := Instr.brk 0x3FFFFFF
     Ready (stateAt i) (pulseAt i) i ∧ (stateAt i).feature 12 = true ∧ Pulse.members (pulseAt i) ≠ []) ∧
    (let i := Instr.brk 0
     let s := stateAt i
     let s := { s with dev := { s.dev with featack := 0 } }
     Ready s (pulseAt i) i ∧ s.feature 12 = false ∧ Pulse.members (pulseAt i) ≠ [] ∧ (s.ctx 0).st = .on) ∧
    (let i := Instr.trap ⟨0, 0, 0⟩
     let s := stateAt i
     Ready s (pulseAt i) i ∧ (s.recOf 0).trappc = 0 ∧ Pulse.members (pulseAt i) ≠ [] ∧ (s.ctx 0).st = .on) ∧
    (∀ i ∈ [Instr.dbg ⟨0, 0x81, 15⟩, .dbgHalt ⟨0, 0x81, 0⟩], Ready (stateAt i) (pulseAt i) i) := by
  unfold Ready Trappable; decide

theorem witness_ControlWords : ∀ i ∈ [Instr.br ⟨0, 0x200000⟩, .brD ⟨13, 0x1FFFFF⟩, .brAny ⟨1, 1⟩, .brAll ⟨1, 1⟩, .brNone ⟨1, 1⟩, .ret ⟨4, 0⟩, .exit ⟨0, 0⟩, .yield ⟨0, 0, 0⟩,
      .nop 0, .switch ⟨0, 8⟩ [1, 0x400001], .switch ⟨7, 8⟩ [1, 1, 2, 3, 4, 5, 6, 7, 8]],
    (branched (stateAt i) (pulseAt i) i).isSome = true ∧ Ready (stateAt i) (pulseAt i) i := by
  unfold Ready; decide

theorem witness_CallsAndReturns :
    (∀ f ∈ [(⟨0, 0x200000⟩ : FmtC), ⟨15, 0x1FFFFF⟩], Ready (stateAt (.call f)) (pulseAt (.call f)) (.call f)) ∧
    (∀ f ∈ [(⟨0, 0⟩ : FmtC), ⟨15, 0⟩], let s := withRegs (stateAt (.callr f)) [(0, 0, 0xFFFFFFFC), (30, 0, 4)] []
      let p := pulseAt (.callr f)
      Ready s p (.callr f) ∧ ∀ l ∈ Pulse.members p, num64 s p (BitVec.ofNat 8 (2 * f.m.toNat)) l % 4 = 0) ∧
    (∀ f ∈ [(⟨0, 0⟩ : FmtC), ⟨15, 0⟩], ∀ call : Bool, let i := if call then .callr f else .ret f
      let s := handled (withRegs (stateAt i) [(0, 0, 2), (30, 0, 0xFFFFFFFF)] [])
      let p := pulseAt i
      Ready s p i ∧ p.helpers = 0 ∧ Trappable s p ∧ (s.recOf p.crew).tmis = true ∧
        ∀ l ∈ Pulse.members p, num64 s p (BitVec.ofNat 8 (2 * f.m.toNat)) l % 4 ≠ 0) := by
  unfold Ready Trappable; decide

/-- The pulse ends with a target, with exits of some and of all threads, with drain, with a halt, a host's halt, a step and a debug cause. -/
theorem witness_EndOfPulse : let s := stateOf (.nop 0) [0, 5, 63]
    let p := { lanesIn [0, 5, 63] (pulseAt (.nop 0)) with targets := [(5, 0x10000)] }
    ∀ q ∈ [p, { p with exits := 0x21 }, { p with exits := p.part }, { p with drain := true }, { p with halt := true }, { p with hostHalt := true },
      { p with step := true }, { p with debugStop := some (0x0B, 5, p.hdr, 0x40) }], let s := { s with cur := some q }
    s.cur = some q ∧ q.todo = [] ∧ q.hold = none ∧ (s.crew q.crew).alive = true ∧ Pulse.members q ≠ [] ∧
    (∀ l ∈ Pulse.members q, ((s.crew q.crew).lane l).st = .live) ∧ (s.recOf q.crew).replay = false ∧ (s.crew q.crew).refill = none := by decide

/-- Accesses that all go ahead name a hit for each thread. -/
theorem hits {ls : List Nat} {g : Nat → Acc} (h : ∀ l ∈ ls, goesOn (g l) = true) : ∃ ok : Nat → Hit, ∀ l ∈ ls, g l = .ok (ok l) :=
  ⟨fun l => hitOf (g l), fun l hl => goesOn_hit (h l hl)⟩

/-- Crew 0 with its block's barrier as given. -/
def barrier (s : State) (exp arr : Nat) (ph : BitVec 8) : State :=
  { s with blocks := sset none s.blocks 0 ((s.block 0).map fun b => { b with exp, arr, ph }) }

/-- bar.init of a count. -/
def atInit (n : Word) : State := withRegs (stateAt (.barInit ⟨0, 0x81, 0⟩)) [] [(1, n)]

theorem witness_BlockBarrier :
    (([(0 : Word), 1, 65536, 65537].map fun n => ((atInit n).src 0 0 0x81).toNat) = [0, 1, 65536, 65537] ∧
      ((atInit 1).block ((atInit 1).crew 0).block).map (·.arr) = some 0) ∧
    (Ready (atInit 0) (pulseAt (.barInit ⟨0, 0x81, 0⟩)) (.barInit ⟨0, 0x81, 0⟩) ∧ Ready (atInit 1) (pulseAt (.barInit ⟨0, 0x81, 0⟩)) (.barInit ⟨0, 0x81, 0⟩) ∧
      Ready (atInit 65536) (pulseAt (.barInit ⟨0, 0x81, 0⟩)) (.barInit ⟨0, 0x81, 0⟩) ∧
      Ready (atInit 65537) (pulseAt (.barInit ⟨0, 0x81, 0⟩)) (.barInit ⟨0, 0x81, 0⟩) ∧
      Pulse.members (pulseAt (.barInit ⟨0, 0x81, 0⟩)) ≠ [] ∧ ((atInit 0).ctx 0).st = .on) ∧
    (∀ x ∈ [(0, 0), (2, 0), (2, 1), (1, 0), (2, 3)], let i := Instr.barArrive ⟨3, 0, 0⟩
      let s := barrier (stateAt i) x.1 x.2 255
      Ready s (pulseAt i) i ∧ Settled s (pulseAt i) ∧ s.mtxBusy 0 none = false ∧ ((s.release 0 3).block 0).isSome = true) ∧
    ([254, 255].all fun n => let i := Instr.barWait ⟨0, 0x81, 0⟩
      let s := withRegs (barrier (stateAt i) 0 0 255) [] [(1, BitVec.ofNat 32 n)]
      s.cur == some (pulseAt i) && s.reasons (pulseAt i) i == [] && s.poisonTaken (pulseAt i) i == []) = true := by
  unfold Ready Settled; decide +kernel

theorem witness_GangBarrier : let i := Instr.gbar ⟨0, 0, 0⟩
    let s := stateAt i
    Ready s (pulseAt i) i ∧ Settled s (pulseAt i) ∧ s.mtxBusy 0 none = false ∧
      ((s.release 0 3).block ((s.release 0 3).crew 0).block).isSome = true ∧
      ((s.release 0 3).block ((s.release 0 3).crew 0).block).all (fun x => ((s.release 0 3).gangBlocks x.gangKey).length == 1) = true := by
  unfold Ready Settled; decide +kernel

/-- Conditions of a waitc: a word of memory equal to zero, the same word not equal to zero. -/
def conditions : List Word := [0x00E48202, 0, 0x00E4820A, 0]

/-- The waitc of a form. -/
def waitAt (all : Bool) (d : BitVec 8) : Instr := if all then .waitcAll ⟨d, 0x84, 1⟩ conditions else .waitcAny ⟨d, 0x84, 1⟩ conditions

/-- The state at it, in a grid that chooses freely, logs its choices or replays them. -/
def waitcAt (all : Bool) (d : BitVec 8) (log : Option Bool) : State :=
  let s := paged (withRegs (stateAt (waitAt all d)) [] [(4, 0xFFFFFFFF)])
  match log with
  | none => s
  | some r => logging s r { kind := 6, grid := 0, item := 0, key := 0 }

/-- One lane's wait may be decided: freely, with room in the log, or by the first entry of the log. -/
theorem allMayDecide_one {k l : Nat} {all : Bool} {g : Grid} {w : Nat → Waited} {s : State}
    (h : g.lr.det = false ∨ (g.lr.replay = false ∧ (s.ctx (ctxOf k)).logpos ≠ (s.ctx (ctxOf k)).logsize.toNat * 256) ∨
      (g.lr.replay = true ∧ FirstEntry s (ctxOf k) (sameWait (waitEntry s k l g 0)) 0)) : AllMayDecide k all g w [l] s := by
  refine ⟨fun lg => ?_, fun _ _ _ => trivial⟩
  rcases h with h | ⟨h, r⟩ | ⟨h, r⟩
  · exact absurd (h.symm.trans lg.1) Bool.false_ne_true
  · exact ⟨fun _ _ => r, fun q => absurd (h.symm.trans q) Bool.false_ne_true⟩
  · exact ⟨fun q => absurd (q.symm.trans h) Bool.false_ne_true, fun _ => ⟨0, r⟩⟩

/-- Whether none of the accesses that an evaluation makes waits, and none is of a device register. -/
def triesGo (s : State) (xs : List (Nat × DWord × Acc)) : Bool :=
  xs.all fun x => match x.2.2 with
    | .ok h => !s.spanHeld h.pl (h.span 4) && !h.pl.isPort
    | .hold _ => false
    | .no _ _ _ => true

theorem triesGo_reads {s : State} {xs : List (Nat × DWord × Acc)} (h : triesGo s xs = true) (p : Pulse) :
    ∀ x ∈ xs, (∀ q, x.2.2 ≠ .hold q) ∧ ∀ h, x.2.2 = .ok h → ReadsGo s p 4 [h] := by
  intro x hx
  have hx := List.all_eq_true.1 h x hx
  refine ⟨fun q e => by simp [e] at hx, fun y e => ?_⟩
  simp only [e, Bool.and_eq_true, Bool.not_eq_true'] at hx
  exact fun z hz => by obtain rfl := List.mem_singleton.1 hz; exact ⟨hx.1, fun c => absurd (c.symm.trans hx.2) (by decide)⟩

theorem witness_Waitc : ∀ all : Bool, ∀ d ∈ [(3 : BitVec 8), 0x83], ∀ log ∈ [none, some false, some true], let f : FmtS := ⟨d, 0x84, 1⟩
    let i := waitAt all d
    let s := waitcAt all d log
    let p := pulseAt i
    let ls := if isS f.a then (Pulse.members p).take 1 else Pulse.members p
    (Ready s p i ∧ (s.crew 0).atomsBlock p = false ∧ portFirst s p (ls.flatMap fun l => s.condHits 0 l (here p) (waitConds s p f conditions l)) = s ∧
      (∀ l ∈ ls, (s.evalConds 0 l (here p) (waitConds s p f conditions l)).1 = none) ∧
      s.fullGrans p (conditions.take (2 * ((f.f.extractLsb' 0 2).toNat + 1))) ls = []) ∧
    (∀ x ∈ ls.flatMap fun l => s.condTries 0 l (here p) (waitConds s p f conditions l),
      (∀ q, x.2.2 ≠ .hold q) ∧ ∀ h, x.2.2 = .ok h → ReadsGo s p 4 [h]) ∧
    ∃ g, s.grid (s.crew 0).grid = some g ∧ AllMayDecide 0 all g (waited s p f conditions all) ls s := by
  have h : ∀ all : Bool, ∀ d ∈ [(3 : BitVec 8), 0x83], ∀ log ∈ [none, some false, some true], let f : FmtS := ⟨d, 0x84, 1⟩
      let i := waitAt all d
      let s := waitcAt all d log
      let p := pulseAt i
      let ls := if isS f.a then (Pulse.members p).take 1 else Pulse.members p
      (Ready s p i ∧ (s.crew 0).atomsBlock p = false ∧ portFirst s p (ls.flatMap fun l => s.condHits 0 l (here p) (waitConds s p f conditions l)) = s ∧
        (∀ l ∈ ls, (s.evalConds 0 l (here p) (waitConds s p f conditions l)).1 = none) ∧
        s.fullGrans p (conditions.take (2 * ((f.f.extractLsb' 0 2).toNat + 1))) ls = []) ∧
      triesGo s (ls.flatMap fun l => s.condTries 0 l (here p) (waitConds s p f conditions l)) = true ∧ ls = [0] := by
    unfold Ready portFirst; decide +kernel
  have q : ∀ all : Bool, ∀ d ∈ [(3 : BitVec 8), 0x83], ∀ log ∈ [none, some false, some true], let s := waitcAt all d log
      ((s.grid (s.crew 0).grid).map fun g => (g.lr.det, g.lr.replay, g.det)) = some (log.isSome, log == some true, 0) ∧ (s.ctx (ctxOf 0)).logpos = 0 ∧
      (log.isSome = true → (s.ctx (ctxOf 0)).logsize = 1 ∧ (s.ctx (ctxOf 0)).logUsed = []) ∧
      (log = some true → s.logEnt (ctxOf 0) 0 = waitEntry s 0 0 { ctx := 0, lr := {} } 0 ∧ (s.logEnt (ctxOf 0) 1).kind = 0) := by
    decide +kernel
  intro all d hd log hl
  obtain ⟨a, tr, b⟩ := h all d hd log hl
  obtain ⟨c, e, i, j⟩ := q all d hd log hl
  refine ⟨a, triesGo_reads tr _, ?_⟩
  obtain ⟨g, hg, hc⟩ := Option.map_eq_some_iff.1 c
  simp only [Prod.mk.injEq] at hc
  refine ⟨g, hg, ?_⟩
  rw [b]
  refine allMayDecide_one ?_
  rcases log with _ | _ | _
  · exact .inl hc.1
  · exact .inr (.inl ⟨hc.2.1, by rw [e, (i rfl).1]; decide⟩)
  · have e6 : waitEntry (waitcAt all d (some true)) 0 0 g 0 = waitEntry (waitcAt all d (some true)) 0 0 { ctx := 0, lr := {} } 0 := by
      simp [waitEntry, hc.2.2]
    refine .inr (.inr ⟨hc.2.1, first_entry (by rw [(i rfl).1]; decide) ?_ ?_ (i rfl).2 (j rfl).2⟩)
    · rw [(j rfl).1]; exact ⟨by simp [waitEntry], by simp [waitEntry]⟩
    · rw [(j rfl).1, e6]; simp [sameWait, waitEntry]

theorem witness_WatchAndWait :
    (let i := Instr.mwatch ⟨0, 2, 0⟩
     let s := paged (stateOf i [0, 9])
     let p := lanesIn [0, 9] (pulseAt i)
     Ready s p i ∧ ∃ hit : Nat → Hit, ∀ l ∈ Pulse.members p, s.access p.crew l (here p) (s.src64 p.crew l 2) 1 1 .read = .ok (hit l)) ∧
    (let i := Instr.mwait ⟨0, 0, 0⟩
     let s := stateOf i [0, 9]
     let s := s.modCrew 0 fun c => { c with lanes := sset {} c.lanes 9 { st := .live, watch := some { line := .dev 0, ea := 0, ser := 0 } } }
     Ready s (lanesIn [0, 9] (pulseAt i)) i) := by
  unfold Ready
  exact ⟨⟨by decide +kernel, hits (by decide +kernel)⟩, by decide +kernel⟩

theorem witness_RefillAndDrain : ((stateAt (.refill ⟨0, 0, 0⟩)).recOf 0).replay = false ∧
    ((stateAt (.refill ⟨0, 0, 0⟩)).grid ((stateAt (.refill ⟨0, 0, 0⟩)).crew 0).grid).map (·.lr.det) = some false ∧ (∀ i ∈ [Instr.refill ⟨0, 0, 0⟩, .refill ⟨112, 0, 16⟩], Ready (stateAt i) (pulseAt i) i) ∧
    Ready (stateAt (.drain ⟨0, 0, 0⟩)) (pulseAt (.drain ⟨0, 0, 0⟩)) (.drain ⟨0, 0, 0⟩) ∧ (stateAt (.drain ⟨0, 0, 0⟩)).mtxBusy 0 none = false := by
  unfold Ready; decide +kernel

/-- regroup of crew 0 with a list of slots, and crew 1 of the same block, which has executed the same regroup where `other` is set. -/
def regrouping (list : Word) (other : Bool) : State :=
  let s := withRegs (stateAt (.regroup ⟨0x82, 0x81, 0⟩)) [] [(1, list)]
  let s := s.setCrew 1 { s.crew 0 with regroup := if other then some ([0, 1], 0x82) else none, index := 1 }
  { s with blocks := sset none s.blocks 0 ((s.block 0).map fun b => { b with cpc := 2 }) }

theorem witness_Regroup :
    (∀ s ∈ [regrouping 0xFFFF0100 false, regrouping 0xFFFF0100 true, regrouping 0xFFFFFF01 false, regrouping 0xFFFFFFFF false],
      Ready s (pulseAt (.regroup ⟨0x82, 0x81, 0⟩)) (.regroup ⟨0x82, 0x81, 0⟩) ∧ s.mtxBusy 0 none = false) ∧
    ((regrouping 0xFFFFFF01 false).regroupBad 0 (regroupList 0xFFFFFF01) = true ∧ ((regrouping 0xFFFFFF01 false).ctx 0).st = .on ∧
      Pulse.members (pulseAt (.regroup ⟨0x82, 0x81, 0⟩)) ≠ []) ∧
    (regroupList (((regrouping 0xFFFF0100 false).crew 0).sreg 1) = [0, 1] ∧ (regrouping 0xFFFF0100 false).regroupBad 0 [0, 1] = false ∧
      (regrouping 0xFFFF0100 false).regrouping 0 = [] ∧ (regrouping 0xFFFF0100 false).regroupLive 0 [0, 1] = [0, 1] ∧
      ((regrouping 0xFFFF0100 false).crew 1).regroup = none) ∧
    ((regrouping 0xFFFF0100 true).regroupBad 0 [0, 1] = false ∧
      (∀ j ∈ (regrouping 0xFFFF0100 true).regrouping 0, ((regrouping 0xFFFF0100 true).crew j).regroup = some ([0, 1], 0x82)) ∧
      ∀ j ∈ (regrouping 0xFFFF0100 true).regroupLive 0 [0, 1], j ≠ 0 → ((regrouping 0xFFFF0100 true).crew j).regroup.isSome = true ∧
        ((regrouping 0xFFFF0100 true).crew j).res = .resident ∧ (regrouping 0xFFFF0100 true).crewBusy j = false) := by
  unfold Ready; decide +kernel

theorem witness_Launch : ∀ i ∈ [Instr.launch ⟨3, 0x82, 0⟩, .launch ⟨0x83, 0x82, 0⟩], let s := withRegs (stateOf i [0, 63]) [] [(2, 0xFFFFFF00)]
    let p := lanesIn [0, 63] (pulseAt i)
    Ready s p i ∧ Settled s p ∧ s.mtxBusy 0 none = false ∧ Pulse.members p ≠ [] ∧
      ∀ l ∈ Pulse.members p, (s.src64 p.crew l 0x82).toNat % 256 = 0 := by
  unfold Ready Settled; decide +kernel

theorem witness_Specials : ∀ i ∈ [Instr.srd ⟨3, 0, 0⟩, .srd ⟨3, 0, 0x2B⟩, .srd ⟨0x83, 0, 0x46⟩, .srd ⟨3, 0, 0x11⟩, .srd ⟨3, 0, 0x20⟩, .swr ⟨0, 2, 0x27⟩,
      .swr ⟨0, 2, 0x28⟩, .swr ⟨0, 0x82, 0⟩, .swr ⟨0, 0x82, 0x40⟩, .swr ⟨0, 0x82, 0x46⟩, .swr ⟨0, 0x82, 0x11⟩, .vhop ⟨3, 1, 2⟩, .vhop ⟨0x83, 0x81, 0x82⟩,
      .clock ⟨0x84, 0, 0⟩, .clockCore ⟨0x84, 0, 1⟩, .evc ⟨0x84, 0, 0⟩, .evc ⟨0x84, 0, 15⟩, .evcSel ⟨0, 0x81, 15⟩],
    Ready (stateAt i) (pulseAt i) i := by
  unfold Ready; decide +kernel

/-- A format M of vector registers: a base pair v2, counter 0 or none, agent scope 1 where V is set. -/
def vecM (lc : BitVec 3) (v : BitVec 1) : FmtM := ⟨8, 2, lc, if v = 1 then 5 else 0, 0, 0, v⟩

/-- The same of scalar registers. -/
def sclM (lc : BitVec 3) (v : BitVec 1) : FmtM := ⟨0x88, 0x82, lc, if v = 1 then 1 else 0, if v = 1 then 1 else 0, 0, v⟩

/-- The state at a memory word in the crew of lanes 0 and 63, whose load counter 0 holds 62. -/
def memAt (i : Instr) : State := (paged (stateOf i [0, 63])).modCrew 0 fun c => { c with lcs := [(0, 62)] }

/-- The pulse at it. -/
def memPulse (i : Instr) : Pulse := lanesIn [0, 63] (pulseAt i)

/-- What is not in a block's local memory is written whole. -/
theorem whole_of {pl : Place} (h : isLoc pl = false) (s : State) (n : Nat) : Whole s pl n := by
  intro b o hb
  subst hb
  exact absurd h Bool.noConfusion

/-- Whether every listed access of a word goes ahead at once, and none of them is of local memory. -/
def goes (s : State) (p : Pulse) (ls : List Nat) (ea : Nat → DWord) (n align : Nat) (kind : AccKind) : Bool :=
  ls.all fun l => let a := s.access p.crew l (here p) (ea l) n align kind
    goesOn a && !s.spanHeld (hitOf a).pl ((hitOf a).span n) && !((hitOf a).pl.isPort && s.queueHeld p.crew) && !isLoc (hitOf a).pl

theorem goes_hits {s : State} {p : Pulse} {ls : List Nat} {ea : Nat → DWord} {n align : Nat} {kind : AccKind}
    (h : goes s p ls ea n align kind = true) :
    ∃ ok : Nat → Hit, (∀ l ∈ ls, s.access p.crew l (here p) (ea l) n align kind = .ok (ok l)) ∧ ReadsGo s p n (ls.map ok) ∧
      ∀ l ∈ ls, ∀ (t : State) (m : Nat), Whole t (ok l).pl m := by
  have h' := List.all_eq_true.1 h
  simp only [Bool.and_eq_true, Bool.not_eq_true', Bool.and_eq_false_iff] at h'
  refine ⟨fun l => hitOf (s.access p.crew l (here p) (ea l) n align kind), fun l hl => goesOn_hit (h' l hl).1.1.1, ?_, ?_⟩
  · intro x hx
    obtain ⟨l, hl, rfl⟩ := List.mem_map.1 hx
    exact ⟨(h' l hl).1.1.2, fun hp => (h' l hl).1.2.resolve_left (by simp [hp])⟩
  · exact fun l hl t m => whole_of (h' l hl).2 t m

theorem witness_LoadsIssue : ∀ f ∈ [vecM 0 0, sclM 7 0],
    ∀ x ∈ [(Instr.ldI8 f 0xFF, (0xFF : Word), 1, 1, true), (.ldN8 f 0xFF, 0xFF, 1, 1, false), (.ldI16 f 0xFE, 0xFE, 2, 1, true), (.ldN16 f 0xFE, 0xFE, 2, 1, false),
      (.ldW32 f 4, 4, 4, 1, false), (.ldW64 f 8, 8, 8, 2, false), (.ldW128 f 16, 16, 16, 4, false)],
    (loadForm x.1 = some (f, x.2) ∧ Ready (memAt x.1) (memPulse x.1) x.1 ∧ MayIssue (memAt x.1) (memPulse x.1) f.lc) ∧
    ∃ ok : Nat → Hit, (∀ l ∈ performing (memPulse x.1) (isS f.x), (memAt x.1).access (memPulse x.1).crew l (here (memPulse x.1))
      ((memAt x.1).ea (memPulse x.1).crew l f x.2.1) x.2.2.1 x.2.2.1 .read = .ok (ok l)) ∧
      ReadsGo (memAt x.1) (memPulse x.1) x.2.2.1 ((performing (memPulse x.1) (isS f.x)).map ok) := by
  have h : ∀ f ∈ [vecM 0 0, sclM 7 0],
    ∀ x ∈ [(Instr.ldI8 f 0xFF, (0xFF : Word), 1, 1, true), (.ldN8 f 0xFF, 0xFF, 1, 1, false), (.ldI16 f 0xFE, 0xFE, 2, 1, true), (.ldN16 f 0xFE, 0xFE, 2, 1, false),
      (.ldW32 f 4, 4, 4, 1, false), (.ldW64 f 8, 8, 8, 2, false), (.ldW128 f 16, 16, 16, 4, false)],
    (loadForm x.1 = some (f, x.2) ∧ Ready (memAt x.1) (memPulse x.1) x.1 ∧ MayIssue (memAt x.1) (memPulse x.1) f.lc) ∧
    goes (memAt x.1) (memPulse x.1) (performing (memPulse x.1) (isS f.x)) (fun l => (memAt x.1).ea (memPulse x.1).crew l f x.2.1) x.2.2.1 x.2.2.1 .read = true := by
    unfold Ready MayIssue; decide +kernel
  exact fun f hf x hx => ⟨(h f hf x hx).1, (goes_hits (h f hf x hx).2).imp fun _ h => ⟨h.1, h.2.1⟩⟩

/-- A core-clocked event of crew 0. -/
def eventOf (s : State) : State := { s with cur := none, subj := { n := 0 } }

theorem witness_LoadReturns : ∀ x ∈ [(none, 5), (some 0x40, 6)],
    let f : Flight := { lane := 63, dest := 8, words := [1], poison := x.1, lc := x.2, ser := 1, pc := 0 }
    let s := (eventOf (stateAt .loadReturn)).modCrew 0 fun c => { c with flights := [f] }
    s.clocked = true ∧ (s.crew s.subj.n).flights[s.subj.m]? = some f ∧ (s.crew s.subj.n).ending = false ∧ (s.crew s.subj.n).regroup = none ∧ (s.ctx (ctxOf s.subj.n)).st = .on := by
  decide +kernel

/-- The stores of a format, with their index literal, bytes and registers. -/
def stores (f : FmtM) : List (Instr × Word × Nat × Nat) :=
  [(.stN8 f 0xFF, 0xFF, 1, 1), (.stN16 f 0xFE, 0xFE, 2, 1), (.stW32 f 4, 4, 4, 1), (.stW64 f 8, 8, 8, 2), (.stW128 f 16, 16, 16, 4)]

theorem witness_StoresIssue : ∀ f ∈ [vecM 0 0, sclM 7 0, vecM 0 1, sclM 7 1], ∀ x ∈ stores f,
    (storeForm x.1 = some (f, x.2) ∧ Ready (memAt x.1) (memPulse x.1) x.1 ∧ MayIssue (memAt x.1) (memPulse x.1) f.lc ∧
      MayRelease (memAt x.1) (memPulse x.1) x.1) ∧
    ∃ ok : Nat → Hit, (∀ l ∈ performing (memPulse x.1) (allScalar (f.x :: addrOperands f x.2.1)), (memAt x.1).access (memPulse x.1).crew l (here (memPulse x.1))
      ((memAt x.1).ea (memPulse x.1).crew l f x.2.1) x.2.2.1 x.2.2.1 .write = .ok (ok l)) ∧
      ∀ (b : State), ∀ l ∈ performing (memPulse x.1) (allScalar (f.x :: addrOperands f x.2.1)), Whole b (ok l).pl x.2.2.1 := by
  have h : ∀ f ∈ [vecM 0 0, sclM 7 0, vecM 0 1, sclM 7 1], ∀ x ∈ stores f,
    (storeForm x.1 = some (f, x.2) ∧ Ready (memAt x.1) (memPulse x.1) x.1 ∧ MayIssue (memAt x.1) (memPulse x.1) f.lc ∧
      MayRelease (memAt x.1) (memPulse x.1) x.1) ∧
    goes (memAt x.1) (memPulse x.1) (performing (memPulse x.1) (allScalar (f.x :: addrOperands f x.2.1)))
      (fun l => (memAt x.1).ea (memPulse x.1).crew l f x.2.1) x.2.2.1 x.2.2.1 .write = true := by
    unfold Ready MayIssue MayRelease; decide +kernel
  exact fun f hf x hx => ⟨(h f hf x hx).1, (goes_hits (h f hf x hx).2).imp fun _ h => ⟨h.1, fun b l hl => h.2.2 l hl b _⟩⟩

theorem witness_StoreQueueDrains : ∀ op ∈ [QOp.store (.dev 0x40) [1, 2], .store (.host 0x40) [3], .store (.loc 0 64) [4], .seal 0x200000 63],
    let e : QEntry := { op, lc := 5, ser := 1, pc := 0, va := 0x40 }
    let s := (eventOf (stateAt .storeQueueDrain)).modCrew 0 fun c => { c with queue := [e] }
    s.clocked = true ∧ (s.crew s.subj.n).queue = [e] ∧ s.onWay s.subj.n = false ∧ s.opHeld op = false ∧
      (s.block 0).any (fun x => !x.ended 64) = true ∧ ((s.crew s.subj.n).ending = false ∧ (s.crew s.subj.n).regroup = none) := by
  decide +kernel

/-- A shape of two dimensions of 8 and 4 words at 0x40000. -/
def shape (clip : Nat) : List Byte :=
  natToBytes 8 0x40000 ++ natToBytes 4 (2 + 4 * 2 + 32 * clip) ++ natToBytes 4 0xFFFFFFFF ++ natToBytes 2 7 ++ natToBytes 2 3 ++ List.replicate 12 0 ++ natToBytes 4 8 ++
    List.replicate 28 0

theorem witness_TensorElements :
    (shapeOf (shape 0) false).rank = 2 ∧ (∀ d < 2, inShape (shapeOf (shape 0) false) [7, 3] d) ∧ (∀ d < 2, inShape (shapeOf (shape 0) false) [0, 0] d) ∧
    ¬ inShape (shapeOf (shape 0) false) [8, 0] 0 ∧ ¬ inShape (shapeOf (shape 0) false) [0, -1] 1 ∧ (shapeOf (shape 0) false).rank ≤ [8, 0].length ∧
    (shapeOf (shape 0) false).clip = 0 ∧ (shapeOf (shape 1) false).clip = 1 ∧ 2 ≤ (shapeOf (shape 2) false).clip := by
  unfold inShape; decide +kernel

/-- The record of the example of R359. -/
def windowShape : Shape :=
  shapeOf (natToBytes 8 0xFE00000000000000 ++ natToBytes 4 9 ++ natToBytes 4 0 ++ natToBytes 2 7 ++ natToBytes 2 7 ++ List.replicate 12 0 ++ natToBytes 4 8 ++
    List.replicate 20 0 ++ natToBytes 8 0x0000004202221010) true

/-- Its windows meet the premises, and its four taps name what the table of R359 says. -/
theorem witness_Windows : let w := winOf 0x0000004202221010
    windowShape.bad = false ∧ windowShape.wins = (List.range 3).map w ∧ (∀ j < 3, (w j).en = true → (w j).dim < [0, 5].length) ∧
    (∀ j < 3, ∀ i < j, (w i).en = true → (w j).en = true → (w i).dim ≠ (w j).dim) ∧
    [4, 3, 8, 9].map (fun tap => elemAt windowShape false [0, 5] tap true) =
      [.at 0xFE00000000000050, .pad, .at 0xFE00000000000062, .shape] := by decide +kernel

/-- The state at a tensor word, whose shape record stands at 0x80 and whose coordinates are in v16 and v17. -/
def tensorAt (i : Instr) (clip x : Nat) : State :=
  let s := withRegs (memAt i) [(16, 0, BitVec.ofNat 32 x), (17, 0, 3), (16, 63, 0), (17, 63, 0)] [(2, 0x80)]
  { s with mem := Memory.writeN s.mem 0x80 (shape clip) }

/-- The coordinates of a lane there. -/
def coordsAt (i : Instr) (clip x : Nat) (l : Nat) : List Int := (tensorAt i clip x).coords 0 l 16 2

/-- How the read of a record of n bytes goes. -/
def recordAcc (s : State) (p : Pulse) (a : BitVec 8) (n : Nat) : Acc × List Hit :=
  s.spanAccess p.crew (Pulse.low p) (here p) (s.src64 p.crew (Pulse.low p) a) n n .read

/-- Whether the crew reads a record of n bytes whole. -/
def recordGoes (s : State) (p : Pulse) (a : BitVec 8) (n : Nat) : Bool :=
  let r := recordAcc s p a n
  goesOn r.1 && r.2.all (fun h => !s.spanHeld h.pl (h.span n) && !(h.pl.isPort && s.queueHeld p.crew)) && (s.spanPoison p.crew n r.2).isNone

theorem recordGoes_reads {s : State} {p : Pulse} {a : BitVec 8} {n : Nat} (h : recordGoes s p a n = true) :
    RecordReads s p a n (recordAcc s p a n).2 (s.spanBytes p.crew n (recordAcc s p a n).2) := by
  simp only [recordGoes, Bool.and_eq_true, List.all_eq_true, Bool.not_eq_true', Bool.and_eq_false_iff, Option.isNone_iff_eq_none] at h
  refine ⟨⟨hitOf (recordAcc s p a n).1, by rw [← goesOn_hit h.1.1]; rfl⟩, fun x hx => ?_, h.2, rfl⟩
  exact ⟨(h.1.2 x hx).1, fun hp => (h.1.2 x hx).2.resolve_left (by simp [hp])⟩

theorem witness_TensorAccess : let f : FmtM := ⟨8, 0x82, 0, 0, 0, 0, 0⟩
    (∀ x ∈ [(Instr.tld f 16, (16 : Word), false), (.tldWin f 0xE410, 0xE410, true), (.tst f 16, 16, false)], ∀ y ∈ [(0, 7), (0, 8)],
      let s := tensorAt x.1 y.1 y.2
      Ready s (memPulse x.1) x.1 ∧ MayIssue s (memPulse x.1) 0 ∧
      ShapeReads s (memPulse x.1) f x.2.1 x.2.2 (recordAcc s (memPulse x.1) 0x82 64).2 (shapeOf (shape y.1) x.2.2)) ∧
    (∀ i ∈ [Instr.tld f 16, .tldWin f 0xE410], elemAt (shapeOf (shape 0) (i != .tld f 16)) false (coordsAt i 0 8 0) 0 (i != .tld f 16) = .pad ∧
      elemAt (shapeOf (shape 0) (i != .tld f 16)) false (coordsAt i 0 8 63) 0 (i != .tld f 16) = .at 0x40000 ∧
      ∃ ok : Nat → Hit, (∀ l ∈ [0, 63], (tensorAt i 0 8).access 0 l (here (memPulse i)) 0x40000 4 4 .read = .ok (ok l)) ∧
        ReadsGo (tensorAt i 0 8) (memPulse i) 4 ([0, 63].map ok)) ∧
    elemAt (shapeOf (shape 0) false) true (coordsAt (.tst f 16) 0 8 0) 0 false = .none ∧
    elemAt (shapeOf (shape 0) false) true (coordsAt (.tst f 16) 0 8 63) 0 false = .at 0x40000 ∧
    ∃ ok : Nat → Hit, ∀ l ∈ [0, 63], (tensorAt (.tst f 16) 0 8).access 0 l (here (memPulse (.tst f 16))) 0x40000 4 4 .write = .ok (ok l) ∧
      Whole (tensorAt (.tst f 16) 0 8) (ok l).pl 4 := by
  have h : ∀ x ∈ [(Instr.tld ⟨8, 0x82, 0, 0, 0, 0, 0⟩ 16, (16 : Word), false), (.tldWin ⟨8, 0x82, 0, 0, 0, 0, 0⟩ 0xE410, 0xE410, true),
        (.tst ⟨8, 0x82, 0, 0, 0, 0, 0⟩ 16, 16, false)], ∀ y ∈ [(0, 7), (0, 8)], let s := tensorAt x.1 y.1 y.2
      let p := memPulse x.1
      (Ready s p x.1 ∧ MayIssue s p 0) ∧ (recordGoes s p 0x82 64 = true ∧
        shapeOf (shape y.1) x.2.2 = shapeOf (s.spanBytes p.crew 64 (recordAcc s p 0x82 64).2) x.2.2) ∧ (shapeOf (shape y.1) x.2.2).bad = false ∧
      coordsPast (s.recOf p.crew) (x.2.1.truncate 8) (shapeOf (shape y.1) x.2.2).rank = false ∧
      s.coordTaint p (x.2.1.truncate 8) (shapeOf (shape y.1) x.2.2).rank = 0 := by
    unfold Ready MayIssue; decide +kernel
  refine ⟨fun x hx y hy => ?_, fun i hi => ?_, by decide +kernel, by decide +kernel, ?_⟩
  · obtain ⟨a, ⟨b, e⟩, r⟩ := h x hx y hy
    exact ⟨a.1, a.2, ⟨_, recordGoes_reads b, e⟩, r⟩
  · have g : ∀ i ∈ [Instr.tld ⟨8, 0x82, 0, 0, 0, 0, 0⟩ 16, .tldWin ⟨8, 0x82, 0, 0, 0, 0, 0⟩ 0xE410],
        goes (tensorAt i 0 8) (memPulse i) [0, 63] (fun _ => 0x40000) 4 4 .read = true := by decide +kernel
    have e : ∀ i ∈ [Instr.tld ⟨8, 0x82, 0, 0, 0, 0, 0⟩ 16, .tldWin ⟨8, 0x82, 0, 0, 0, 0, 0⟩ 0xE410],
        elemAt (shapeOf (shape 0) (i != .tld ⟨8, 0x82, 0, 0, 0, 0, 0⟩ 16)) false (coordsAt i 0 8 0) 0 (i != .tld ⟨8, 0x82, 0, 0, 0, 0, 0⟩ 16) = .pad ∧
        elemAt (shapeOf (shape 0) (i != .tld ⟨8, 0x82, 0, 0, 0, 0, 0⟩ 16)) false (coordsAt i 0 8 63) 0 (i != .tld ⟨8, 0x82, 0, 0, 0, 0, 0⟩ 16) = .at 0x40000 := by
      decide +kernel
    exact ⟨(e i hi).1, (e i hi).2, (goes_hits (g i hi)).imp fun _ h => ⟨h.1, h.2.1⟩⟩
  · have g : goes (tensorAt (.tst ⟨8, 0x82, 0, 0, 0, 0, 0⟩ 16) 0 8) (memPulse (.tst ⟨8, 0x82, 0, 0, 0, 0, 0⟩ 16)) [0, 63] (fun _ => 0x40000) 4 4 .write = true := by
      decide +kernel
    exact (goes_hits g).imp fun _ h => fun l hl => ⟨h.1 l hl, h.2.2 l hl _ _⟩

/-- The atomics and reductions of a format that returns and of one that does not, with their operation and compare operand. -/
def atomics (f g : FmtM) : List (Instr × FmtM × Word × AtomOp × Option (BitVec 8)) :=
  [(.amoAdd f 4, f, 4, .add, none), (.amoMin f 4, f, 4, if f.v = 1 then .minU else .minS, none), (.amoMax f 4, f, 4, if f.v = 1 then .maxU else .maxS, none),
   (.amoAnd f 4, f, 4, .and, none), (.amoOr f 4, f, 4, .or, none), (.amoXor f 4, f, 4, .xor, none), (.amoExch f 4, f, 4, .exch, none),
   (.amoCas f 4 0x81, f, 4, .cas, some 0x81), (.redAddI g 4, g, 4, .add, none), (.redAddF32 g 4, g, 4, .addF, none),
   (.redMin g 4, g, 4, if g.v = 1 then .minF else .minS, none), (.redMax g 4, g, 4, if g.v = 1 then .maxF else .maxS, none), (.redAnd g 4, g, 4, .and, none),
   (.redOr g 4, g, 4, .or, none), (.redXor g 4, g, 4, .xor, none)]

/-- The state at an atomic with the two lanes' bases 0 and 0x40, or both 0. -/
def atomAt (i : Instr) (same : Bool) : State := handled2 (withRegs (memAt i) (if same then [] else [(2, 63, 0x40)]) [])
where handled2 (s : State) : State := s.modGrid 0 fun g => { g with lr := { g.lr with trappc := 0x20000, tamo := true } }

theorem witness_AtomicsIssue :
    (∀ f ∈ [vecM 0 0, sclM 7 0, vecM 0 1, ⟨0x88, 0x82, 7, 1, 0, 0, 1⟩], ∀ x ∈ atomics f f,
      (atomForm x.1 = some x.2 ∧ Ready (atomAt x.1 false) (memPulse x.1) x.1 ∧ MayIssue (atomAt x.1 false) (memPulse x.1) f.lc ∧
        MayRelease (atomAt x.1 false) (memPulse x.1) x.1 ∧
        ((performing (memPulse x.1) (if returning x.1 then isS f.x else allScalar (f.x :: addrOperands f 4))).map fun l =>
          (atomAt x.1 false).window 0 l ((atomAt x.1 false).ea 0 l f 4) 4).Nodup) ∧
      ∃ ok : Nat → Hit, ∀ l ∈ performing (memPulse x.1) (if returning x.1 then isS f.x else allScalar (f.x :: addrOperands f 4)),
        (atomAt x.1 false).access (memPulse x.1).crew l (here (memPulse x.1)) ((atomAt x.1 false).ea (memPulse x.1).crew l f 4) 4 4 .atomic = .ok (ok l)) ∧
    (let i := Instr.amoAdd (vecM 0 0) 4
     let s := atomAt i true
     let p := memPulse i
     (Ready s p i ∧ MayIssue s p 0 ∧ MayRelease s p i ∧ returning i = true ∧ s.window 0 0 (s.ea 0 0 (vecM 0 0) 4) 4 = s.window 0 63 (s.ea 0 63 (vecM 0 0) 4) 4 ∧
       Pulse.members p = [0, 63] ∧ Trappable s p ∧ (s.recOf 0).tamo = true) ∧
     ∃ ok : Nat → Hit, ∀ l ∈ [0, 63], s.access p.crew l (here p) (s.ea p.crew l (vecM 0 0) 4) 4 4 .atomic = .ok (ok l)) := by
  have h : ∀ f ∈ [vecM 0 0, sclM 7 0, vecM 0 1, ⟨0x88, 0x82, 7, 1, 0, 0, 1⟩], ∀ x ∈ atomics f f,
      atomForm x.1 = some x.2 ∧ Ready (atomAt x.1 false) (memPulse x.1) x.1 ∧ MayIssue (atomAt x.1 false) (memPulse x.1) f.lc := by
    unfold Ready MayIssue; decide +kernel
  have g : ∀ f ∈ [vecM 0 0, sclM 7 0, vecM 0 1, ⟨0x88, 0x82, 7, 1, 0, 0, 1⟩], ∀ x ∈ atomics f f,
      (MayRelease (atomAt x.1 false) (memPulse x.1) x.1 ∧
        ((performing (memPulse x.1) (if returning x.1 then isS f.x else allScalar (f.x :: addrOperands f 4))).map fun l =>
          (atomAt x.1 false).window 0 l ((atomAt x.1 false).ea 0 l f 4) 4).Nodup) ∧
      goes (atomAt x.1 false) (memPulse x.1) (performing (memPulse x.1) (if returning x.1 then isS f.x else allScalar (f.x :: addrOperands f 4)))
        (fun l => (atomAt x.1 false).ea (memPulse x.1).crew l f 4) 4 4 .atomic = true := by
    unfold MayRelease; decide +kernel
  refine ⟨fun f hf x hx => ⟨⟨(h f hf x hx).1, (h f hf x hx).2.1, (h f hf x hx).2.2, (g f hf x hx).1⟩, (goes_hits (g f hf x hx).2).imp fun _ h => h.1⟩, ?_, ?_⟩
  · unfold Ready MayIssue MayRelease Trappable; decide +kernel
  · have e : goes (atomAt (.amoAdd (vecM 0 0) 4) true) (memPulse (.amoAdd (vecM 0 0) 4)) [0, 63]
        (fun l => (atomAt (.amoAdd (vecM 0 0) 4) true).ea (memPulse (.amoAdd (vecM 0 0) 4)).crew l (vecM 0 0) 4) 4 4 .atomic = true := by decide +kernel
    exact (goes_hits e).imp fun _ h => h.1

/-- An atomic of two threads that waits to be performed. -/
def pending (op : AtomOp) (det : Bool) : Atom :=
  { op, ret := !det, lc := 5, ser := 1, det
    args := [{ lane := 0, place := .dev 0x400, place2 := .dev 0x2000, ea := 0x400, va := 0x400, x := 1 },
             { lane := 63, place := .host 0x440, place2 := .dev 0x2000, ea := 0x440, va := 0x440, x := 2 }] }

/-- The state in which it is the crew's oldest. -/
def performs (op : AtomOp) (det : Bool) : State := (eventOf (stateAt .atomicPerform)).modCrew 0 fun c => { c with atoms := [pending op det] }

/-- A reduction returns nothing, so it makes no choice. -/
theorem atomsMay_reduces {k : Nat} {a : Atom} (h : a.ret = false) : ∀ (gs : List AtomArg) (s : State), AtomsMay k a gs s
  | [], _ => trivial
  | g :: gs, s => by
    have e : atomEntry a g = [] := by simp [atomEntry, h]
    exact ⟨fun _ _ => by rw [e]; trivial, fun _ _ _ _ => atomsMay_reduces h gs _⟩

/-- The state without its oldest atomic. -/
def taken (s : State) (k : Nat) : State := s.setCrew k { s.crew k with atoms := (s.crew k).atoms.tail }

/-- A returning atomic of one thread in a grid that chooses freely, logs its choices or replays them. -/
def returns (log : Option Bool) : State :=
  let a : Atom := { op := .add, ret := true, lc := 5, ser := 1, args := [{ lane := 0, place := .dev 0x400, place2 := .dev 0x400, ea := 0x400, va := 0x400, x := 1 }] }
  let s := (eventOf (stateAt .atomicPerform)).modCrew 0 fun c => { c with atoms := [a] }
  match log with
  | none => s
  | some r => logging s r { kind := 4, grid := 0, item := 0, key := 0x400 }

theorem witness_AtomicsPerform :
    (∀ x ∈ [(AtomOp.add, true), (.xor, true), (.addF, true)], let s := performs x.1 x.2
      (s.clocked = true ∧ (s.crew s.subj.n).atoms = [pending x.1 x.2] ∧ (s.crew s.subj.n).queue = [] ∧ s.onWay s.subj.n = false ∧
        x.1 ≠ .addX ∧ x.1 ≠ .xflush ∧ (pending x.1 x.2).args ≠ [] ∧ ∀ g ∈ (pending x.1 x.2).args, s.swapping g.place = false ∧ isLoc g.place = false) ∧
      AtomsMay s.subj.n (pending x.1 x.2) (pending x.1 x.2).args (taken s 0)) ∧
    ∀ log ∈ [none, some false, some true], let s := returns log
      s.clocked = true ∧ (s.crew s.subj.n).queue = [] ∧ s.onWay s.subj.n = false ∧ ∃ a, (s.crew s.subj.n).atoms = [a] ∧ a.ret = true ∧ a.args ≠ [] ∧
        (∀ g ∈ a.args, s.swapping g.place = false ∧ isLoc g.place = false) ∧ AtomsMay s.subj.n a a.args (taken s 0) := by
  have h : ∀ x ∈ [(AtomOp.add, true), (.xor, true), (.addF, true)], let s := performs x.1 x.2
      (s.clocked = true ∧ (s.crew s.subj.n).atoms = [pending x.1 x.2] ∧ (s.crew s.subj.n).queue = [] ∧ s.onWay s.subj.n = false ∧
        x.1 ≠ .addX ∧ x.1 ≠ .xflush ∧ (pending x.1 x.2).args ≠ [] ∧ ∀ g ∈ (pending x.1 x.2).args, s.swapping g.place = false ∧ isLoc g.place = false) ∧ x.2 = true := by
    decide +kernel
  have q : ∀ log ∈ [none, some false, some true], let s := returns log
      s.clocked = true ∧ s.subj.n = 0 ∧ (s.crew 0).queue = [] ∧ s.onWay 0 = false ∧
        (s.crew 0).atoms = [{ op := .add, ret := true, lc := 5, ser := 1, args := [{ lane := 0, place := .dev 0x400, place2 := .dev 0x400, ea := 0x400, va := 0x400, x := 1 }] }] ∧
        s.swapping (.dev 0x400) = false ∧ (match log with
          | none => ((taken s 0).grid ((taken s 0).crew 0).grid).all (fun g => !g.lr.det)
          | some r => mayLog (taken s 0) r { kind := 4, grid := 0, item := 0, key := 0x400 % 2 ^ 56 }) = true := by
    decide +kernel
  refine ⟨fun x hx => ⟨(h x hx).1, atomsMay_reduces (by simp [pending, (h x hx).2]) _ _⟩, fun log hl => ?_⟩
  obtain ⟨a, b, c, d, e, i, j⟩ := q log hl
  refine ⟨a, by rw [b]; exact c, by rw [b]; exact d, _, by rw [b]; exact e, rfl, by simp, by simp [i, isLoc], ?_⟩
  rw [b]
  refine ⟨?_, fun _ _ _ _ => trivial⟩
  rcases log with _ | r
  · refine crewMay_free fun g hg => ?_
    simpa [hg] using j
  · exact mayLog_meets j

theorem witness_ExactRecords :
    (∀ f ∈ [vecM 0 0, sclM 7 0], ∀ x : Bool, let i : Instr := if x then .redAddX f 16 else .xflush f 16
      Ready (memAt i) (memPulse i) i ∧ MayIssue (memAt i) (memPulse i) f.lc ∧ MayRelease (memAt i) (memPulse i) i ∧
      (∀ l ∈ [0, 63], goesOn ((memAt i).exactAccess 0 l (here (memPulse i)) ((memAt i).ea 0 l f 16) (if x then .atomic else .read)).1 = true)) ∧
    (∀ op ∈ [AtomOp.addX, .xflush], let s := performs op false
      s.clocked = true ∧ (s.crew s.subj.n).atoms = [pending op false] ∧ (s.crew s.subj.n).queue = [] ∧ s.onWay s.subj.n = false ∧
      (∀ g ∈ (pending op false).args, ∀ i < 48, s.swapping ((recordHit g i).1.pl.add (recordHit g i).2) = false) ∧
      ∀ g ∈ (pending op false).args, ∀ i < 48, isLoc (recordByte g i) = false) := by
  unfold Ready MayIssue MayRelease; decide +kernel

theorem witness_ExactSumsAreOrderFree : [FVal.nan, .inf true, .fin ⟨false, 1, 0⟩].Perm [.inf true, .nan, .fin ⟨false, 1, 0⟩] := List.Perm.swap ..

/-- The state at an append or a seal of lanes 0 and 63 on the sinter page at 2 GiB. -/
def sinterAt (i : Instr) : State :=
  (withRegs (memAt i) [(2, 0, 0x80000000), (2, 63, 0x80000000)] [(2, 0x80000000)]).modGrid 0 fun g => { g with lr := { g.lr with trappc := 0x20000, twse := true } }

theorem witness_AppendsAndSealsIssue :
    (∀ f ∈ [vecM 0 0, sclM 7 0, ⟨8, 2, 0, 0, 0, 0, 1⟩], let i := Instr.append f 0x10
      (MayIssue (sinterAt i) (memPulse i) f.lc ∧ Ready (sinterAt i) (memPulse i) i ∧ (memPulse i).unit = none) ∧
      ∃ ok : Nat → Hit, ∀ l ∈ performing (memPulse i) (isS f.x), (sinterAt i).access (memPulse i).crew l (here (memPulse i))
        ((sinterAt i).ea (memPulse i).crew l f 0x10) 1 1 .append = .ok (ok l)) ∧
    (∀ r ∈ [0, 1, 0x8000000000000001], let i := Instr.append (vecM 0 0) 0x10
      let p := { memPulse i with unit := some 1, refused := BitVec.ofNat 64 r }
      let s := { sinterAt i with cur := some p }
      MayIssue s p 0 ∧ Ready s p i ∧ p.unit.isSome = true ∧ Trappable s p ∧ (s.recOf 0).twse = true ∧ p.debugStop = none ∧
        (((Pulse.members p).filter fun l => p.refused.getLsbD l || (isS (vecM 0 0).x && decide (p.refused ≠ 0))) = [] ↔ r = 0)) ∧
    (∀ f ∈ [vecM 0 0, sclM 7 0, vecM 0 1], let i := Instr.sealPage f 0x10
      (MayIssue (sinterAt i) (memPulse i) f.lc ∧ Ready (sinterAt i) (memPulse i) i ∧ MayRelease (sinterAt i) (memPulse i) i) ∧
      ∃ ok : Nat → Hit, ∀ l ∈ performing (memPulse i) (isS f.x), (sinterAt i).access (memPulse i).crew l (here (memPulse i))
        ((sinterAt i).ea (memPulse i).crew l f 0x10) 1 1 .append = .ok (ok l)) := by
  have h : ∀ f ∈ [vecM 0 0, sclM 7 0, ⟨8, 2, 0, 0, 0, 0, 1⟩], let i := Instr.append f 0x10
      (MayIssue (sinterAt i) (memPulse i) f.lc ∧ Ready (sinterAt i) (memPulse i) i ∧ (memPulse i).unit = none) ∧
      goes (sinterAt i) (memPulse i) (performing (memPulse i) (isS f.x)) (fun l => (sinterAt i).ea (memPulse i).crew l f 0x10) 1 1 .append = true := by
    unfold Ready MayIssue; decide +kernel
  have g : ∀ f ∈ [vecM 0 0, sclM 7 0, vecM 0 1], let i := Instr.sealPage f 0x10
      (MayIssue (sinterAt i) (memPulse i) f.lc ∧ Ready (sinterAt i) (memPulse i) i ∧ MayRelease (sinterAt i) (memPulse i) i) ∧
      goes (sinterAt i) (memPulse i) (performing (memPulse i) (isS f.x)) (fun l => (sinterAt i).ea (memPulse i).crew l f 0x10) 1 1 .append = true := by
    unfold Ready MayIssue MayRelease; decide +kernel
  refine ⟨fun f hf => ⟨(h f hf).1, (goes_hits (h f hf).2).imp fun _ h => h.1⟩, ?_, fun f hf => ⟨(g f hf).1, (goes_hits (g f hf).2).imp fun _ h => h.1⟩⟩
  unfold Ready MayIssue Trappable; decide +kernel

/-- A request of crew 0 at its home slice, in a grid that chooses freely, logs its choices or replays them. -/
def homeAt (op : QOp) (log : Option Bool) : State :=
  let s := { paged (eventOf (stateAt .appendUnit)) with homeQ := [{ crew := 0, e := { op } }] }
  match log with
  | none => s
  | some r => logging s r { kind := 5, grid := 0, item := 0, key := 0x80000000 }

theorem witness_HomeSlice :
    let elems : List (Nat × List Byte) := [(0, [1, 2, 3, 4]), (63, [5, 6, 7, 8])]
    (∀ op ∈ [QOp.append 0x200000 0 0x80000000 elems 0, .append 0x400000 0 0x80000000 elems 0, .seal 0x200000 63, .seal 0x400000 63],
      ∀ log ∈ [none, some false, some true], let s := homeAt op log
      (s.clocked = true ∧ s.homeQ.findIdx (·.crew == s.subj.n) = 0 ∧ s.homeQ[0]? = some { crew := 0, e := { op } } ∧ s.opHeld op = false) ∧
      CrewMay s s.subj.n [{ kind := 5, grid := 0, item := 0, key := 0x80000000 }]) ∧ (∀ e ∈ elems, e.2 ≠ []) ∧ elems ≠ [] := by
  intro elems
  refine ⟨?_, by decide, by decide⟩
  have h : ∀ op ∈ [QOp.append 0x200000 0 0x80000000 elems 0, .append 0x400000 0 0x80000000 elems 0, .seal 0x200000 63, .seal 0x400000 63],
      ∀ log ∈ [none, some false, some true], let s := homeAt op log
      (s.clocked = true ∧ s.homeQ.findIdx (·.crew == s.subj.n) = 0 ∧ s.homeQ[0]? = some { crew := 0, e := { op } } ∧ s.opHeld op = false) ∧ s.subj.n = 0 ∧
      (match log with
        | none => (s.grid (s.crew 0).grid).all (fun g => !g.lr.det)
        | some r => mayLog s r { kind := 5, grid := 0, item := 0, key := 0x80000000 }) = true := by
    decide +kernel
  intro op ho log hl
  obtain ⟨a, b, c⟩ := h op ho log hl
  refine ⟨a, ?_⟩
  rw [b]
  rcases log with _ | r
  · refine crewMay_free fun g hg => ?_
    simpa [hg] using c
  · exact mayLog_meets c

theorem witness_FencesAndCaches :
    (∀ f ∈ [(⟨0, 0, 0, 1, 0, 0, 0⟩ : FmtM), ⟨0, 0, 0, 6, 3, 0, 0⟩], let i := Instr.fenceInsn f
      Ready (memAt i) (memPulse i) i ∧ MayIssue (memAt i) (memPulse i) 7 ∧ MayRelease (memAt i) (memPulse i) i) ∧
    (∀ i ∈ [Instr.prefetch ⟨0, 2, 7, 0, 0, 0, 0⟩ 0x40, .cwb ⟨0, 2, 7, 0, 0, 0, 0⟩ 0x40, .cinv ⟨0, 2, 7, 0, 0, 0, 0⟩ 0x40],
      Ready (memAt i) (memPulse i) i ∧ (memAt i).opHolds (memPulse i) ⟨0, 2, 7, 0, 0, 0, 0⟩ 0x40 = []) := by
  unfold Ready MayIssue MayRelease; decide +kernel

/-- Both sides of the condition of Releases, and a queue of a store and a seal that nothing holds. -/
theorem witness_Releases : (1 ≤ 1 ∨ (0 : BitVec 2) = 2) ∧ ¬ (2 ≤ 1 ∨ (3 : BitVec 2) = 2) ∧ 5 ≤ 5 ∧
    (let q : List QEntry := [{ op := .store (.dev 0x40) [1, 2] }, { op := .seal 0x200000 63 }]
     let s := (paged (stateAt (.nop 0))).modCrew 0 fun c => { c with queue := q }
     s.queueHeld 0 = false ∧ (∀ e ∈ (s.crew 0).queue, (match e.op with | .append .. => true | _ => false) = false) ∧
       (∀ h ∈ s.homeQ, h.crew ≠ 0) ∧ (s.homeQ.filter (·.crew == 0)).length ≤ 1) := by decide +kernel

/-- Buffer words of lanes 0 and 63 at the two ends of buffer 1, with its granules full or not. -/
def bufferAt (i : Instr) (full : Bool) : State :=
  let s := withRegs (memAt i) [(2, 0, 0x100000), (2, 63, 0x100010)] [(2, 0x100000)]
  { s with lcs := sset {} s.lcs 0 { s.lcore 0 with full := if full then [(65536, true), (65537, true)] else [(65536, true)] } }

/-- The buffer and offset of a lane there. -/
def bufferOf (f : FmtM) (l : Nat) : Nat × Nat :=
  if isS f.a || l = 0 then (1, 0) else (1, 16)

/-- The choices of a take of all granules of a buffer word. -/
def takes (s : State) (f : FmtM) (p : Pulse) : List LogEnt :=
  (namedGranules (performing p (isS f.x)) (bufferOf f)).map fun g =>
    { kind := 7, grid := 0, key := g
      item := ((s.crew 0).lane (((performing p (isS f.x)).find? fun l => 65536 * (bufferOf f l).1 + (bufferOf f l).2 / 16 == g).getD 0)).item.toNat }

theorem witness_BufferLoads :
    (∀ f ∈ [(⟨8, 2, 0, 0, 0, 0, 0⟩ : FmtM), ⟨8, 2, 7, 0, 0, 0, 1⟩], ∀ i ∈ [Instr.ldbPeek f 0, .ldbTake f 0], ∀ full : Bool,
      (Ready (bufferAt i full) (memPulse i) i ∧ MayIssue (bufferAt i full) (memPulse i) f.lc ∧
      (∀ l ∈ performing (memPulse i) (isS f.x), (match bufAddr ((bufferAt i full).bufWord 0 l f 0) (bufBytes f) with
        | .ok x => x == bufferOf f l
        | .error _ => false) = true) ∧
      (bufferAt i full).mtxBusy 0 (some (namedGranules (performing (memPulse i) (isS f.x)) (bufferOf f))) = false ∧
      (full = true ↔ ∀ g ∈ namedGranules (performing (memPulse i) (isS f.x)) (bufferOf f), sget false ((bufferAt i full).lcore 0).full g = true) ∧
      (bufferAt i full).earlierTake 0 (namedGranules (performing (memPulse i) (isS f.x)) (bufferOf f)) 0 = false) ∧
      CrewMay (bufferAt i full) 0 (takes (bufferAt i full) f (memPulse i))) ∧
    ∀ r : Bool, let f : FmtM := ⟨8, 0x82, 0, 0, 0, 0, 0⟩
      let i := Instr.ldbTake f 0
      let s := logging (bufferAt i true) r { kind := 7, grid := 0, item := 0, key := 65536 }
      (Ready s (memPulse i) i ∧ MayIssue s (memPulse i) f.lc ∧ s.earlierTake 0 (namedGranules (performing (memPulse i) (isS f.x)) (bufferOf f)) 0 = false) ∧
      CrewMay s 0 (takes s f (memPulse i)) := by
  have h : ∀ f ∈ [(⟨8, 2, 0, 0, 0, 0, 0⟩ : FmtM), ⟨8, 2, 7, 0, 0, 0, 1⟩], ∀ i ∈ [Instr.ldbPeek f 0, .ldbTake f 0], ∀ full : Bool,
      (Ready (bufferAt i full) (memPulse i) i ∧ MayIssue (bufferAt i full) (memPulse i) f.lc ∧
      (∀ l ∈ performing (memPulse i) (isS f.x), (match bufAddr ((bufferAt i full).bufWord 0 l f 0) (bufBytes f) with
        | .ok x => x == bufferOf f l
        | .error _ => false) = true) ∧
      (bufferAt i full).mtxBusy 0 (some (namedGranules (performing (memPulse i) (isS f.x)) (bufferOf f))) = false ∧
      (full = true ↔ ∀ g ∈ namedGranules (performing (memPulse i) (isS f.x)) (bufferOf f), sget false ((bufferAt i full).lcore 0).full g = true) ∧
      (bufferAt i full).earlierTake 0 (namedGranules (performing (memPulse i) (isS f.x)) (bufferOf f)) 0 = false) ∧
      ((bufferAt i full).grid ((bufferAt i full).crew 0).grid).all (fun g => !g.lr.det) = true := by
    unfold Ready MayIssue; decide +kernel
  have q : ∀ r : Bool, let f : FmtM := ⟨8, 0x82, 0, 0, 0, 0, 0⟩
      let i := Instr.ldbTake f 0
      let s := logging (bufferAt i true) r { kind := 7, grid := 0, item := 0, key := 65536 }
      (Ready s (memPulse i) i ∧ MayIssue s (memPulse i) f.lc ∧ s.earlierTake 0 (namedGranules (performing (memPulse i) (isS f.x)) (bufferOf f)) 0 = false) ∧
      takes s f (memPulse i) = [{ kind := 7, grid := 0, item := 0, key := 65536 }] ∧
      mayLog s r { kind := 7, grid := 0, item := 0, key := 65536 } = true := by
    unfold Ready MayIssue; decide +kernel
  refine ⟨fun f hf i hi full => ⟨(h f hf i hi full).1, crewMay_free fun g hg => ?_⟩, fun r => ⟨(q r).1, ?_⟩⟩
  · simpa [hg] using (h f hf i hi full).2
  · exact (congrArg (fun es => CrewMay _ 0 es) (q r).2.1).mpr (mayLog_meets (q r).2.2)

theorem witness_BufferStores :
    ∀ f ∈ [(⟨8, 2, 0, 0, 0, 0, 0⟩ : FmtM), ⟨0x88, 0x82, 7, 0, 0, 0, 1⟩], ∀ i ∈ [Instr.stb f 0, .stbMark f 0],
      Ready (bufferAt i false) (memPulse i) i ∧ MayIssue (bufferAt i false) (memPulse i) f.lc ∧
      (∀ l ∈ performing (memPulse i) (allScalar (f.x :: addrOperands f 0)), (match bufAddr ((bufferAt i false).bufWord 0 l f 0) (bufBytes f) with
        | .ok x => x == bufferOf f l
        | .error _ => false) = true) ∧
      (bufferAt i false).mtxBusy 0 (some (namedGranules (performing (memPulse i) (allScalar (f.x :: addrOperands f 0))) (bufferOf f))) = false := by
  unfold Ready MayIssue; decide +kernel

theorem witness_Descriptors : ∀ i ∈ [Instr.tset ⟨0, 0, 0, 0, 0, 0⟩, .tset ⟨15, 0, 0, 0, 0, 92⟩, .tget ⟨0, 0, 0, 0, 0, 0⟩, .tget ⟨15, 0, 0, 0, 0, 92⟩],
    Ready (stateAt i) (pulseAt i) i := by
  unfold Ready; decide +kernel

/-- A descriptor of the fields BUF, BASE, ROWS, COLS, PITCH and FMT (R180). -/
def desc (buf base rows cols pitch fmt : Nat) : BitVec 128 :=
  BitVec.ofNat 128 (buf + 4 * base + 2 ^ 18 * (rows - 1) + 2 ^ 26 * (cols - 1) + 2 ^ 34 * pitch + 2 ^ 50 * fmt)

/-- The state at a matrix word with descriptors t1, t2 and t3, slot 1 E4M3, slot 2 INT8, and the granules of A and B full or not. -/
def matrixAt (i : Instr) (c a b : BitVec 128) (full : Bool) : State :=
  let s := (slotted (stateAt i) [0, 4, 9]).modCrew 0 fun x => { x with t := [(1, c), (2, a), (3, b)] }
  { s with lcs := sset {} s.lcs 0 { s.lcore 0 with full := if full then (List.range 32).map (fun k => (granKey (1 + k / 16) (k % 16), true)) else [] } }

/-- GoodTile and Ready as tests. -/
def goodTile (r : LaunchRec) (d : BitVec 128) (g : Bool) : Bool := @decide (GoodTile r d g) (by unfold GoodTile; infer_instance)

theorem goodTile_meets {r : LaunchRec} {d : BitVec 128} {g : Bool} (h : goodTile r d g = true) : GoodTile r d g :=
  @of_decide_eq_true _ (_) h

def readyNow (s : State) (p : Pulse) (i : Instr) : Bool := @decide (Ready s p i) (by unfold Ready; infer_instance)

theorem readyNow_meets {s : State} {p : Pulse} {i : Instr} (h : readyNow s p i = true) : Ready s p i := @of_decide_eq_true _ (_) h

theorem witness_MatrixIssue :
    (let i := Instr.tzero ⟨1, 0, 0, 0, 0, 0⟩
     let d := desc 3 0 256 16 4 0
     let s := matrixAt i d 0 0 false
     let r := s.recOf 0
     readyNow s (pulseAt i) i = true ∧ named s (pulseAt i) 1 = d ∧ dBuf d = 3 ∧ goodTile r d true = true ∧ (match gatherTile (s.lcore 0) (tileOf r d) d (named s (pulseAt i) 0) with
       | .ok _ => true
       | _ => false) = true) ∧
    (∀ full : Bool, ∀ x ∈ [(1, 0), (2, 1)], ∀ i ∈ [Instr.mma ⟨1, 2, 3, 0, 0, 0⟩, .mmaG ⟨1, 2, 3, 0, 2, 0⟩],
     let c := desc 3 0 16 16 4 x.2
     let a := desc 1 0 16 16 1 x.1
     let b := desc 2 0 16 16 1 x.1
     let s := matrixAt i c a b full
     let r := s.recOf 0
     readyNow s (pulseAt i) i = true ∧ named s (pulseAt i) 1 = c ∧ named s (pulseAt i) 2 = a ∧ named s (pulseAt i) 3 = b ∧
     (dBuf a ≠ 3 ∧ dBuf b ≠ 3 ∧ r.slot x.1 ≠ 0 ∧ slotElem (r.slot x.1) = (if x.1 = 1 then 4 else 9) ∧ slotScale (r.slot x.1) = 0 ∧ dBuf c = 3) ∧
     goodTile r c false = true ∧ goodTile r a false = true ∧ goodTile r b false = true ∧ goodTile r c true = true ∧ goodTile r a true = true ∧
     ((tileOf r a).cols = (tileOf r b).rows ∧ (tileOf r c).rows = (tileOf r a).rows ∧ (tileOf r c).cols = (tileOf r b).cols ∧ (tileOf r a).rows ≤ 64 ∧
       (tileOf r b).cols ≤ 64 ∧ (tileOf r a).cols ≤ 256) ∧
     (match gatherTile (s.lcore 0) (tileOf r a) a 0, gatherTile (s.lcore 0) (tileOf r c) c 0 with
       | .ok _, .ok _ => true
       | _, _ => false) = true ∧
     ((∀ g ∈ (tileOf r a).reads ++ (tileOf r b).reads, sget false (s.lcore 0).full g = true) ↔ full = true)) ∧
    (let i := Instr.tcvt ⟨1, 2, 0, 1, 0, 1⟩
     let c := desc 2 0 16 16 1 1
     let a := desc 3 0 16 16 4 0
     let s := matrixAt i c a 0 false
     let r := s.recOf 0
     readyNow s (pulseAt i) i = true ∧ named s (pulseAt i) 1 = c ∧ named s (pulseAt i) 2 = a ∧ dBuf a = 3 ∧ dBuf c = 2 ∧ goodTile r c false = true ∧ goodTile r a false = true ∧
     (tileOf r c).rows = (tileOf r a).rows ∧ (tileOf r c).cols = (tileOf r a).cols ∧ r.slot 1 ≠ 0 ∧ slotScale (r.slot 1) ≠ 3 ∧ slotRnd (r.slot 1) ≠ 4) ∧
    (∀ x ∈ [(1, 1, 0), (2, 1, 1), (3, 4, 0), (3, 4, 1)],
     let i := Instr.tadd ⟨1, 2, 0, 0, 1, 1⟩
     let c := desc 3 64 16 16 4 x.2.2
     let a := desc x.1 0 16 16 x.2.1 (if x.1 = 3 then x.2.2 else x.1)
     let s := matrixAt i c a 0 true
     let r := s.recOf 0
     readyNow s (pulseAt i) i = true ∧ named s (pulseAt i) 1 = c ∧ named s (pulseAt i) 2 = a ∧ dBuf c = 3 ∧ goodTile r c false = true ∧ goodTile r a false = true ∧
     (tileOf r c).rows = (tileOf r a).rows ∧ (tileOf r c).cols = (tileOf r a).cols ∧ r.slot 1 ≠ 0 ∧ r.slot 2 ≠ 0 ∧ slotElem (r.slot 1) = 4 ∧ slotElem (r.slot 2) = 9 ∧
     slotScale (r.slot 2) = 0) := by
  refine ⟨?_, ?_, ?_, ?_⟩ <;> decide +kernel

/-- A matrix instruction at the head of partition 3, with a poisoned granule among those it reads where asked. -/
def matrixHead (bad : Bool) : State :=
  let s := { eventOf (stateAt .matrixComplete) with subj := { n := 0, m := 3 } }
  let c : Tile := { buf := 3, base := 0, rows := 16, cols := 16, pitch := 4 }
  { s with lcs := sset {} s.lcs 0 { s.lcore 0 with mtx := [(3, [{ op := .tzero c, crew := 3, pc := 0, reads := [granKey 3 0] }])]
                                                   pois := if bad then [(4 * granKey 3 0, true)] else [] } }

theorem witness_MatrixCompletes : ∀ bad : Bool, let s := matrixHead bad
    s.clocked = true ∧ sget 0 s.health.retest (4 * s.physOf (s.siteOf 0) + 3) = 0 ∧
    (match sget [] (s.lcore 0).mtx 3 with
      | m :: _ => lcOf m.crew == 0 && ((s.lcore 0).granPoison m.reads).isSome == bad && (s.ctx (ctxOf m.crew)).st == .on
      | [] => false) = true := by
  decide +kernel

/-- A chunk of finite products between 1 and 2 in magnitude at the most. -/
theorem witness_ChunkRule : let ns : List Machine.Num := [⟨false, 1, 0⟩, ⟨true, 3, -1⟩, ⟨false, 0, 0⟩]
    (∃ n ∈ ns, (2 : ℚ) ^ (0 : ℤ) ≤ |value n|) ∧ ∀ n ∈ ns, |value n| < (2 : ℚ) ^ ((0 : ℤ) + 1) := by
  constructor
  · exact ⟨⟨false, 1, 0⟩, by simp, by norm_num [value]⟩
  · intro n hn
    simp only [List.mem_cons, List.not_mem_nil, or_false] at hn
    rcases hn with rfl | rfl | rfl <;> norm_num [value, abs_lt]

/-- Fits as a test. -/
def fits (t : Tile) : Bool := @decide (Fits t) (by unfold Fits; infer_instance)

theorem fits_meets {t : Tile} (h : fits t = true) : Fits t := @of_decide_eq_true _ (_) h

/-- A tile of 2 × 2 elements. -/
def small (buf base : Nat) (fmt : Word) : Tile := { buf, base, rows := 2, cols := 2, pitch := 1, fmt, sbase := base + 8, spitch := 1 }

/-- E4M3 elements, transposed ones, gathered rows, INT8 elements in an INT32 tile, and elements with block scales and a tensor's scale. -/
theorem witness_ProductResults :
    (∀ x ∈ [(small 3 0 0, small 1 0 4, small 2 0 4), (small 3 32766 0, small 1 4 4, { small 2 4 4 with layout := true }),
        ({ small 3 0 0 with gather := some [1, 1] }, { small 1 0 4 with gather := some [3, 0] }, small 1 16 4),
        ({ small 3 0 0 with isInt := true }, small 1 0 9, small 2 0 9), (small 3 0 0, small 1 0 0x14, small 2 0 0x44)],
      fits x.1 = true ∧ fits x.2.1 = true ∧ fits x.2.2 = true ∧ x.1.buf = 3 ∧ x.2.1.buf ≠ 3 ∧ x.2.2.buf ≠ 3 ∧ x.2.2.gather = none ∧
        x.2.1.cols = x.2.2.rows ∧ x.1.rows = x.2.1.rows ∧ x.1.cols = x.2.2.cols) := by decide +kernel

/-- Whether no scale of a tile is a byte of its elements. -/
def apart (d : Tile) : Bool :=
  d.lines.all fun i => (List.range ((d.lineLen + blockOf d - 1) / blockOf d)).all fun k => d.lines.all fun j =>
    decide (scaleStart d i k < lineStart d j) || decide (lineStart d j + (d.lineLen * widthOf d + 7) / 8 ≤ scaleStart d i k)

theorem apart_meets {d : Tile} (h : apart d = true) : ∀ n, InScales d n → ¬ InLines d n := by
  rintro n ⟨-, i, hi, k, hk, rfl⟩ ⟨j, hj, a, b⟩
  simp only [apart, List.all_eq_true, List.mem_range, Bool.or_eq_true, decide_eq_true_eq] at h
  exact (h i hi k hk j hj).elim (fun c => absurd a (Nat.not_le.2 c)) fun c => absurd b (Nat.not_lt.2 c)

/-- A conversion to each of the scalings that tcvt allows. -/
theorem witness_ConversionResults : ∀ c ∈ [0x004, 0x014, 0x026, 0x044], let w : Word := BitVec.ofNat 32 c
    let d := { small 2 0 w with sbase := 16 }
    let t := small 3 0 0
    (fits d = true ∧ fits t = true ∧ t.buf = 3 ∧ t.gather = none ∧ d.buf = 2 ∧ d.gather = none ∧ d.rows = t.rows ∧ d.cols = t.cols ∧
      slotElem d.fmt = slotElem w ∧ slotScale d.fmt = slotScale w ∧ slotScale w ≠ 3 ∧ (d.lineLen + blockOf d - 1) / blockOf d ≤ 16 * d.spitch) ∧
    ∀ n, InScales d n → ¬ InLines d n := by
  have h : ∀ c ∈ [0x004, 0x014, 0x026, 0x044], let w : Word := BitVec.ofNat 32 c
      let d := { small 2 0 w with sbase := 16 }
      let t := small 3 0 0
      (fits d = true ∧ fits t = true ∧ t.buf = 3 ∧ t.gather = none ∧ d.buf = 2 ∧ d.gather = none ∧ d.rows = t.rows ∧ d.cols = t.cols ∧
        slotElem d.fmt = slotElem w ∧ slotScale d.fmt = slotScale w ∧ slotScale w ≠ 3 ∧ (d.lineLen + blockOf d - 1) / blockOf d ≤ 16 * d.spitch) ∧
      apart d = true := by decide +kernel
  exact fun c hc => ⟨(h c hc).1, apart_meets (h c hc).2⟩

/-- A sum of elements of a buffer, of an FP32 tile and of an INT32 tile; the first and C have no granule in common. -/
theorem witness_SumResults :
    (∀ t ∈ [small 1 0 4, { small 2 0 4 with layout := true }, small 3 8 0, { small 3 8 0 with isInt := true }],
      let d := { small 3 0 0 with isInt := t.isInt }
      fits d = true ∧ fits t = true ∧ d.buf = 3 ∧ t.gather = none ∧ d.gather = none ∧ d.rows = t.rows ∧ d.cols = t.cols) ∧
    ∀ g, InGranules (small 3 0 0) g → ¬ InGranules (small 1 0 4) g := by
  refine ⟨by decide +kernel, ?_⟩
  rintro g ⟨n, ⟨i, -, a, -⟩, rfl⟩ ⟨m, ⟨j, hj, -, c⟩, e⟩
  have hj : j < 2 := by
    have h : ∀ j ∈ (small 1 0 4).lines, j < 2 := by decide +kernel
    exact h j hj
  have w : ((small 1 0 4).lineLen * widthOf (small 1 0 4) + 7) / 8 = 2 := by decide +kernel
  rw [w] at c
  simp only [lineStart, small] at a c
  omega

theorem witness_IntegerProducts : (9 = 9 ∨ 9 = 10) ∧ (10 = 9 ∨ 10 = 10) := by decide

theorem witness_TileZero : let c : Tile := { buf := 3, base := 0, rows := 1, cols := 1, pitch := 0 }
    c.buf = 3 ∧ c.layout = false ∧ c.grans ≠ [] := by decide +kernel

/-- The state at an engine word, with engine context 63 as given and 64 or more in the base pair. -/
def engineAt (i : Instr) (x : Ec) : State :=
  let s := withRegs (stateAt i) [] [(2, 0xFFFFFFC0)]
  { s with lcs := sset {} s.lcs 0 { s.lcore 0 with ecs := sset {} (s.lcore 0).ecs 63 x } }

/-- The command words with their kind. -/
def commands : List (Instr × EcKind) :=
  let f : FmtE := ⟨63, 0x82, 0x84, 0⟩
  [(.gxRun f, .geyser), (.seGather f, .stream), (.seIsect f, .stream), (.seCopy f, .stream), (.seMcast { f with b := 0 }, .stream), (.ceBuild f, .coord), (.ceLookup f, .coord),
   (.ceDown f, .coord), (.ceProbe f, .coord)]

theorem witness_EngineCommands :
    (∀ x ∈ commands, (commandForm x.1).map (·.2.2) = some x.2) ∧
    (∀ x ∈ commands, let s := engineAt x.1 { kind := x.2 }
      Ready s (pulseAt x.1) x.1 ∧ Settled s (pulseAt x.1) ∧ (s.src64 0 0 0x82).toNat % 64 = 0 ∧ s.mtxBusy 0 none = false ∧ ((s.lcore 0).ec 63).kind = x.2 ∧ s.engineRoom 0 63 = true) ∧
    (∀ x ∈ commands, let s := engineAt x.1 { kind := .guest }
      Ready s (pulseAt x.1) x.1 ∧ Settled s (pulseAt x.1) ∧ (s.src64 0 0 0x82).toNat % 64 = 0 ∧ s.mtxBusy 0 none = false ∧ ((s.lcore 0).ec 63).kind ≠ x.2 ∧ (s.ctx 0).st = .on) ∧
    (∀ x ∈ commands, let s := engineAt x.1 { kind := x.2, cmds := (List.range 64).map fun n => { op := .gx, num := n, raddr := 0, crew := 0, serial := 0, grid := 0, pc := 0, arrival := n } }
      Ready s (pulseAt x.1) x.1 ∧ Settled s (pulseAt x.1) ∧ (s.src64 0 0 0x82).toNat % 64 = 0 ∧ s.mtxBusy 0 none = false ∧ ((s.lcore 0).ec 63).kind = x.2 ∧ s.engineRoom 0 63 = false) := by
  unfold Ready Settled
  refine ⟨?_, ?_, ?_, ?_⟩ <;> decide +kernel

theorem witness_EngineContexts :
    (∀ x ∈ [(0, (0 : BitVec 8)), (1, 0), (2, 0), (3, 0)], let i := Instr.ecBind ⟨63, x.2, 0, BitVec.ofNat 4 x.1⟩
      readyNow (engineAt i {}) (pulseAt i) i = true ∧ (engineAt i {}).mtxBusy 0 none = false ∧ (((engineAt i {}).lcore 0).ec 63).count = (((engineAt i {}).lcore 0).ec 63).issued) ∧
    (∀ q ∈ [0, 15], let i := Instr.ecBind ⟨63, 0x82, 0, 4⟩
      let s := withRegs (engineAt i {}) [] [(2, BitVec.ofNat 32 q)]
      let s := { s with adit := { s.adit with gqs := sset {} s.adit.gqs q { en := true, ctx := 0 } } }
      readyNow s (pulseAt i) i = true ∧ s.mtxBusy 0 none = false ∧ (s.src (pulseAt i).crew 0 0x82).toNat % 16 = q ∧ (s.gq q).en = true ∧ (s.gq q).ctx.toNat = 0 ∧
        (s.gq q).bound = none) ∧
    (let i := Instr.ecBind ⟨63, 0, 0, 1⟩
     readyNow (engineAt i { issued := 1 }) (pulseAt i) i = true ∧ (engineAt i { issued := 1 }).mtxBusy 0 none = false ∧
       (((engineAt i { issued := 1 }).lcore 0).ec 63).count ≠ (((engineAt i { issued := 1 }).lcore 0).ec 63).issued) ∧
    (∀ i ∈ [Instr.ecRead ⟨63, 0x82, 0, 0⟩, .ecReadIssued ⟨63, 0x82, 0, 1⟩, .ecReadState ⟨63, 0x82, 0, 2⟩], readyNow (engineAt i {}) (pulseAt i) i = true ∧
      (engineAt i {}).mtxBusy 0 none = false) ∧
    (∀ b ∈ [some (0, 63), none], let i := Instr.ecReadState ⟨63, 0x82, 0, 2⟩
      let s := engineAt i { kind := .guest, gq := some 15 }
      let s := { s with adit := { s.adit with gqs := sset {} s.adit.gqs 15 { en := true, bound := b } } }
      let x := (s.lcore 0).ec 63
      readyNow s (pulseAt i) i = true ∧ s.mtxBusy 0 none = false ∧ x.kind = .guest ∧ x.gq = some 15 ∧ ((s.gq 15).bound = some (0, 63) ↔ b.isSome = true)) := by
  refine ⟨?_, ?_, ?_, ?_, ?_⟩ <;> decide +kernel

/-- gq.submit to guest queue 5, whose ring stands at 0x8000, with a packet image at 0x80. -/
def submitAt (run : Bool) (used : Nat) (bound : Option (Nat × Nat)) : State :=
  let i := Instr.gqSubmit ⟨63, 0x82, 0x84, 0⟩
  let s := withRegs (engineAt i { kind := .guest, gq := some 5 }) [] [(2, 0x80)]
  let g : GuestQ := { en := true, ctx := 0, gqva := 0x8000, sz := 3, widx := used, st := if run then .run else .stopped, bound }
  paged { s with adit := { s.adit with gqs := sset {} s.adit.gqs 5 g } }

/-- The state after the packet image has been read. -/
def imageRead (s : State) (p : Pulse) (base : DWord) : State :=
  match s.readCrewRec p 0 base 64 with
  | .ok a _ => a
  | _ => s

/-- The word whose queue is bound to another engine context, and one that is. -/
theorem witness_GuestSubmit : ∀ x ∈ [(true, 0, some (0, 63)), (true, 7, some (0, 63)), (true, 8, some (0, 63)), (false, 0, some (0, 63)), (true, 0, none)],
    let i := Instr.gqSubmit ⟨63, 0x82, 0x84, 0⟩
    let s := submitAt x.1 x.2.1 x.2.2
    let g := s.gq 5
    let slot := 128 + 64 * (g.widx % 2 ^ g.sz.toNat)
    (Ready s (pulseAt i) i ∧ Settled s (pulseAt i) ∧ (s.src64 0 0 0x82).toNat % 64 = 0 ∧ s.mtxBusy 0 none = false ∧ ((s.lcore 0).ec 63).kind = .guest ∧
      ((g.st = .run ∧ g.bound = some (0, 63) ∧ g.widx - g.ridx < 2 ^ g.sz.toNat) ↔ x.1 = true ∧ x.2.1 < 8 ∧ x.2.2.isSome = true)) ∧
    (∃ bs, RecordReads s (pulseAt i) 0x82 64 (recordAcc s (pulseAt i) 0x82 64).2 bs) ∧
    ∃ hp hw, let a := imageRead s (pulseAt i) (s.src64 0 0 0x82)
      a.access 0 0 (here (pulseAt i)) (g.gqva + BitVec.ofNat 64 slot) 64 64 .write = .ok hp ∧
      a.access 0 0 (here (pulseAt i)) g.gqva 8 8 .write = .ok hw ∧ Whole a hp.pl 64 ∧ Whole a hw.pl 8 ∧ ReadsGo a (pulseAt i) 64 [hp, hw] := by
  have h : ∀ x ∈ [(true, 0, some (0, 63)), (true, 7, some (0, 63)), (true, 8, some (0, 63)), (false, 0, some (0, 63)), (true, 0, none)],
      let i := Instr.gqSubmit ⟨63, 0x82, 0x84, 0⟩
      let s := submitAt x.1 x.2.1 x.2.2
      let g := s.gq 5
      let slot := 128 + 64 * (g.widx % 2 ^ g.sz.toNat)
      (Ready s (pulseAt i) i ∧ Settled s (pulseAt i) ∧ (s.src64 0 0 0x82).toNat % 64 = 0 ∧ s.mtxBusy 0 none = false ∧ ((s.lcore 0).ec 63).kind = .guest ∧
        ((g.st = .run ∧ g.bound = some (0, 63) ∧ g.widx - g.ridx < 2 ^ g.sz.toNat) ↔ x.1 = true ∧ x.2.1 < 8 ∧ x.2.2.isSome = true)) ∧
      recordGoes s (pulseAt i) 0x82 64 = true ∧
      (let a := imageRead s (pulseAt i) (s.src64 0 0 0x82)
       let hp := a.access 0 0 (here (pulseAt i)) (g.gqva + BitVec.ofNat 64 slot) 64 64 .write
       let hw := a.access 0 0 (here (pulseAt i)) g.gqva 8 8 .write
       goesOn hp = true ∧ goesOn hw = true ∧ isLoc (hitOf hp).pl = false ∧ isLoc (hitOf hw).pl = false ∧ ReadsGo a (pulseAt i) 64 [hitOf hp, hitOf hw]) := by
    unfold Ready Settled ReadsGo; decide +kernel
  intro x hx
  obtain ⟨a, b, c, d, e, f, g⟩ := h x hx
  exact ⟨a, ⟨_, recordGoes_reads b⟩, _, _, goesOn_hit c, goesOn_hit d, whole_of e _ _, whole_of f _ _, g⟩

/-- The record of a copy of one granule from 0x4000 to a buffer, and that of a geyser job of one offset (R186, R190). -/
def copyRecord (buf : Nat) : List Byte :=
  natToBytes 8 0x4000 ++ natToBytes 4 buf ++ natToBytes 2 1 ++ natToBytes 2 1 ++ natToBytes 4 16 ++ natToBytes 2 1 ++ List.replicate 42 0

/-- A job of 1 × 1 elements with its gathered rows in A. -/
def gxRecord : List Byte :=
  natToBytes 4 2561 ++ natToBytes 4 0x10000 ++ natToBytes 8 0 ++ natToBytes 4 1 ++ natToBytes 4 0 ++ natToBytes 8 0x10000 ++ natToBytes 8 0x5000 ++ natToBytes 8 0x100000000 ++
    List.replicate 16 0

/-- Logical core 0 with a command in engine context 63, its record at 0x3000 times 4 or at an address of one's choice; the pairs of a geyser job
stand at `list`. -/
def engineRuns (op : CmdOp) (record : List Byte) (raddr list : Nat) (accepted : Bool) : State :=
  let s := slotted (paged { eventOf (stateAt .engineAccept) with subj := { n := 0, m := 63 } }) [0, 4]
  let c : Cmd := { op, num := 1, raddr := BitVec.ofNat 64 raddr, crew := 0, serial := 0, grid := 0, pc := 0, arrival := 0, accepted, bytes := if accepted then record else [] }
  let m := Memory.writeN (Memory.writeN s.mem 0x5000 (natToBytes 8 list ++ natToBytes 4 1)) 0xC000 record
  { s with mem := m, lcs := sset {} s.lcs 0 { s.lcore 0 with ecs := sset {} (s.lcore 0).ecs 63 { kind := if op = .gx then .geyser else .stream, issued := 1, cmds := [c] }
                                                             full := [(65536, true), (131072, true), (196608, true)] } }

/-- How the acceptance of a command ends: 0 accepted, 1 failed, 2 suspended. -/
def acceptance (s : State) : Option Nat :=
  (((s.lcore 0).ec 63).cmds.find? fun c => !c.accepted && c.susp.isNone).bind fun c =>
    match (acceptCmd (s.agent 0 63 c) c).run { s := s } with
    | .ok _ => some 0
    | .error (.fail ..) => some 1
    | .error (.susp ..) => some 2
    | .error .wait => none

theorem witness_EngineAccepts :
    (∀ x ∈ [(engineRuns .copy (copyRecord 1) 0xC000 0 false, some 0), (engineRuns .copy (copyRecord 2) 0xC000 0 false, some 1),
        (engineRuns .copy (copyRecord 1) 0xC0000000 0 false, some 2), (engineRuns .gx gxRecord 0xC000 0x6000 false, some 0)],
      x.1.clocked = true ∧ x.1.enginesRun 0 = true ∧ ((x.1.lcore 0).ec 63).err = false ∧ acceptance x.1 = x.2) := by
  decide +kernel

/-- How the next task of a geyser job, or a command, ends: 0 done, 1 no task, 2 fails. -/
def taskEnd (s : State) : Option Nat :=
  (s.headCmd 0 63).bind fun c =>
    if c.op = .gx then
      match (gxStep (s.agent 0 63 c) (s.gxSlot c c.bytes) c).run { s := s } with
      | .ok (true, _) => some 0
      | .ok (false, _) => some 1
      | .error (.fail ..) => some 2
      | .error _ => none
    else match s.runCmd 0 63 c with
      | .done _ => some 0
      | .stay _ => some 1
      | .fails .. => some 2

theorem witness_EngineEvents :
    ((engineRuns .gx gxRecord 0xC000 0x6000 true).clocked = true ∧ (engineRuns .gx gxRecord 0xC000 0x6000 true).unitOwes 0 0 = false ∧
      sget [] ((engineRuns .gx gxRecord 0xC000 0x6000 true).lcore 0).mtx 0 = [] ∧ taskEnd (engineRuns .gx gxRecord 0xC000 0x6000 true) = some 0) ∧
    ((engineRuns .copy (copyRecord 1) 0xC000 0 true).clocked = true ∧ taskEnd (engineRuns .copy (copyRecord 1) 0xC000 0 true) = some 0) ∧
    ((engineRuns .gx gxRecord 0xC000 0x6004 true).clocked = true ∧ taskEnd (engineRuns .gx gxRecord 0xC000 0x6004 true) = some 2) ∧
    (let s := engineRuns .mcast [] 0 0 true
     let m : Merge := { line := ⟨.dev 0, none, 0⟩, pasid := 0, tag := 0, gal := 0, quota := 2, opened := 0, joined := [(0, 63, 1, 0), (1, 63, 1, 0)] }
     let s := { s with merges := [m], cycles := 512 }
     s.clocked = true ∧ s.merges[s.subj.n]? = some m ∧ m.opened + 512 ≤ s.cycles ∧ s.swapping m.line.pl = false ∧ (((s.lcore 0).ec 63).cmds.find? (·.num == 1)).isSome = true) := by
  decide +kernel

/-- Copies of both directions and a geyser task in C mode run to their end. -/
theorem witness_CommandResults :
    (∀ b ∈ [1, 3], let s := engineRuns .copy (copyRecord b) 0xC000 0 true
      (s.headCmd 0 63).any (fun c => c.op == .copy && match s.runCmd 0 63 c, (cmdBody (s.agent 0 63 c) c).run { s := s } with
        | .done _, .ok _ => true
        | _, _ => false) = true) ∧
    (let s := engineRuns .gx gxRecord 0xC000 0x6000 true
     (s.headCmd 0 63).any (fun c => let g := gxOf c.bytes
       g.xout == false && match (gxTasks (s.agent 0 63 c) g).run { s := s } with
         | .ok ((o, run) :: _, y) => match (gxTask (s.agent 0 63 c) (s.gxSlot c c.bytes) g 0 o run).run y with
           | .ok _ => true
           | .error _ => false
         | _ => false) = true) := by decide +kernel

theorem witness_CoordinateKeys : 2 ^ 56 - 1 < 2 ^ 56 := by decide

/-- Lane 0 of crew 0 waits, in a grid that chooses freely, logs its choices or replays them. -/
def blockedAt (w : WaitIn) (log : Option Bool) : State :=
  let s := (eventOf (paged (stateAt .waitcWake))).modCrew 0 fun c => { c with
    lanes := sset {} c.lanes 0 { st := .blocked, pc := 0x10008, waitPc := 0x10004, wait := some w, watch := some { line := .dev 0, ea := 0, ser := 0 } } }
  match log with
  | none => s
  | some r => logging s r { kind := 6, grid := 0, item := 0, key := 0 }

/-- The conditions of its waitc. -/
def waitedConds : List Cond := [{ kind := 2, cmp := 0, ec := 0, q := 0, p := 0x40 }, { kind := 2, cmp := 1, ec := 0, q := 0, p := 0x40 }]

/-- A blocked waitc may be decided: freely, with room in the log, or by the first entry of the log. -/
theorem mayDecide {k l : Nat} {all : Bool} {g : Grid} {w : Waited} {s : State}
    (h : g.lr.det = false ∨ (g.lr.replay = false ∧ (s.ctx (ctxOf k)).logpos ≠ (s.ctx (ctxOf k)).logsize.toNat * 256) ∨
      (g.lr.replay = true ∧ FirstEntry s (ctxOf k) (sameWait (waitEntry s k l g 0)) 0)) : MayDecide k l all g w s :=
  (allMayDecide_one (w := fun _ => w) h).1

theorem witness_WaitsEnd :
    (∀ all : Bool, ∀ due ∈ [none, some 0], ∀ log ∈ [none, some false, some true],
      let w : WaitIn := .waitc all waitedConds due 3 false 1
      let s := blockedAt w log
      (Waiting s 0 0 ∧ s.subj.n = 0 ∧ s.subj.m = 0 ∧ ((s.crew 0).lane 0).wait = some w ∧ s.condsHeld 0 0 0x10004 waitedConds = false ∧
        (s.evalConds 0 0 0x10004 waitedConds).1 = none) ∧
      ∃ g, s.grid (s.crew 0).grid = some g ∧ MayDecide 0 0 all g (reevaluated s 0 0 0x10004 all waitedConds due) s) ∧
    (let s := { blockedAt .mwait none with lineW := [(0, 5)], writes := 5 }
     Waiting s 0 0 ∧ ((s.crew 0).lane 0).wait = some .mwait ∧ (((s.crew 0).lane 0).watch.map fun w => decide (w.ser < s.lineSer w.line)) = some true) := by
  have h : ∀ all : Bool, ∀ due ∈ [none, some 0], ∀ log ∈ [none, some false, some true],
      let w : WaitIn := .waitc all waitedConds due 3 false 1
      let s := blockedAt w log
      Waiting s 0 0 ∧ s.subj.n = 0 ∧ s.subj.m = 0 ∧ ((s.crew 0).lane 0).wait = some w ∧ s.condsHeld 0 0 0x10004 waitedConds = false ∧
        (s.evalConds 0 0 0x10004 waitedConds).1 = none := by
    unfold Waiting; decide +kernel
  have q : ∀ all : Bool, ∀ due ∈ [none, some 0], ∀ log ∈ [none, some false, some true], let s := blockedAt (.waitc all waitedConds due 3 false 1) log
      ((s.grid (s.crew 0).grid).map fun g => (g.lr.det, g.lr.replay, g.det)) = some (log.isSome, log == some true, 0) ∧ (s.ctx (ctxOf 0)).logpos = 0 ∧
      (log.isSome = true → (s.ctx (ctxOf 0)).logsize = 1 ∧ (s.ctx (ctxOf 0)).logUsed = []) ∧
      (log = some true → s.logEnt (ctxOf 0) 0 = waitEntry s 0 0 { ctx := 0, lr := {} } 0 ∧ (s.logEnt (ctxOf 0) 1).kind = 0) := by
    decide +kernel
  refine ⟨fun all due hd log hl => ⟨h all due hd log hl, ?_⟩, by unfold Waiting; decide +kernel⟩
  obtain ⟨c, e, i, j⟩ := q all due hd log hl
  obtain ⟨g, hg, hc⟩ := Option.map_eq_some_iff.1 c
  simp only [Prod.mk.injEq] at hc
  refine ⟨g, hg, mayDecide ?_⟩
  rcases log with _ | _ | _
  · exact .inl hc.1
  · exact .inr (.inl ⟨hc.2.1, by rw [e, (i rfl).1]; decide⟩)
  · refine .inr (.inr ⟨hc.2.1, first_entry (by rw [(i rfl).1]; decide) ?_ ?_ (i rfl).2 (j rfl).2⟩)
    · rw [(j rfl).1]; exact ⟨by simp [waitEntry], by simp [waitEntry]⟩
    · rw [(j rfl).1]; simp [sameWait, waitEntry, hc.2.2]

theorem witness_WatchdogReportsAndDebug :
    (let s := eventOf (stateAt .watchdogExpiry)
     let s := { s with ctxs := sset {} s.ctxs 0 { s.ctx 0 with wdog := 10000000 } }
     (s.ctx 0).wdogLimit = 0 ∧ 100 * 100000 ≤ (s.ctx 0).wdog ∧ s.oldestCrew 0 = some 0 ∧ (s.ctx 0).st = .on ∧
       (let u := { s with ctxs := sset {} s.ctxs 0 { s.ctx 0 with wdog := 10000000, st := .stopping } }
        100 * 100000 ≤ (u.ctx 0).wdog ∧ u.oldestCrew 0 = some 0 ∧ (u.ctx 0).st ≠ .on) ∧
       (let u := { s with crews := [] }
        100 * 100000 ≤ (u.ctx 0).wdog ∧ u.oldestCrew 0 = none)) ∧
    (let s := eventOf (stateAt .externalWaitReport)
     let s := { s with tick := 100000, ctxs := sset {} s.ctxs 0 { s.ctx 0 with extlim := 1 } }
     let s := s.modCrew 0 fun c => { c with lanes := sset {} c.lanes 0 { st := .blocked, wait := some .mwait, extSince := some 0 } }
     let x := (s.crew 0).lane 0
     x.extSince = some 0 ∧ x.st = .blocked ∧ x.extTold = false ∧ (s.ctx 0).extlim ≠ 0 ∧ 0 + (s.ctx 0).extlim.toNat * 100000 ≤ s.tick) ∧
    (let s := eventOf (stateAt (.dbgctlHalt 0 1))
     s.feature 12 = true ∧ (s.crew (crewKey 0 0 0)).alive = true ∧ (s.crew (crewKey 0 0 0)).ending = false ∧ (s.crew 0).halted = false ∧ (s.crew 0).held = none ∧
       (1 : Word).toNat % 8 = 1 ∧ (2 : Word).toNat % 8 = 2 ∧ (4 : Word).toNat % 8 = 4 ∧ ((3 : Word).getLsbD 0 = true ∧ (3 : Word).toNat % 8 ≠ 1) ∧
       (2 : Word).getLsbD 0 = false ∧ ¬ ({ s with crews := [] }.crew (crewKey 0 0 0)).alive = true) := by
  decide +kernel

/-- A device in a state. -/
def devIn (st : DevState) : State := { State.reset with dev := { State.reset.dev with st } }

theorem witness_DeviceStart : (devIn .load).dev.st = .load ∧ (devIn .verify).dev.st = .verify ∧ (devIn .boot).dev.st = .boot ∧
    (devIn .negotiate).dev.st = .negotiate ∧ (devIn .negotiate).dev.chretPending = false ∧ (devIn .negotiate).hostOpen = true ∧ (devIn .run).dev.attBusy = false ∧
    { devIn .run with dev := { (devIn .run).dev with attBusy := true } }.dev.attBusy = true ∧ (devIn .boot).boardOk = false ∧
    (let s := devIn .boot
     let s := { s with dev := { s.dev with board := natToBytes 4 1 } }
     s.boardOk = true ∧ field s.dev.board 4 4 / 8 % 2 = 0 ∧ ∀ d ∈ s.dies, field s.dev.board (8 + d) 1 ≤ 36) ∧
    (let s := devIn .negotiate
     { s with dev := { s.dev with chretPending := true } }.dev.chretPending = true) := by
  decide +kernel

/-- A change of the operating point in a phase. -/
def changing (phase : ChangePhase) (start tick : Nat) : State :=
  { devIn .run with tick, health := { State.reset.health with change := some { target := 2, phase, start } } }

theorem witness_OperatingPoints :
    (devIn .run).hostOpen = true ∧
    (let s := { devIn .run with tick := 10000 }
     s.health.lastEval + 10000 ≤ s.tick ∧ s.health.change = none) ∧
    ((changing .stall 0 0).health.change = some ⟨2, .stall, 0⟩ ∧ (changing .gated 0 0).health.change = some ⟨2, .gated, 0⟩ ∧
      (changing .gated 0 0).health.pwrltd = false ∧ 0 + (changing .rampUp 0 1000000).rampTicks 2 ≤ (changing .rampUp 0 1000000).tick ∧
      0 + (changing .rampDown 0 1000000).rampTicks 2 ≤ (changing .rampDown 0 1000000).tick) ∧
    (let s := { changing .stall 0 0 with link := { State.reset.link with online := 1, mods := [(2, { st := .active })] } }
     s.inService 0 = true ∧ s.inService 1 = false ∧ (s.lmod (4 * 0 + 2)).st = .active) ∧
    (let s := { devIn .run with health := { State.reset.health with hot := 10 } }
     10 ≤ s.health.hot ∧ s.dev.st ≠ .trip) := by
  decide +kernel

theorem witness_LostDies : let s := stateAt (.stallAckTimeout 1)
    let c : OpChange := { target := 2, phase := .stall, start := 0 }
    let s := { s with tick := 40, health := { s.health with change := some c }, link := { s.link with online := 0xF }, dirty := [(5, 1), (6, 2)] }
    s.health.change = some c ∧ c.phase = .stall ∧ c.start + 40 ≤ s.tick ∧ 0 < 4 ∧ s.inService 0 = true ∧ s.inService 3 = true ∧
      (s.ctx 0).st = .on ∧ s.boundOnDie 0 (s.vdOf 0) = true ∧ vdOfSite (s.siteOf (lcOf 0)) = s.vdOf 0 ∧ (s.crew 0).holdsRegs = true := by
  decide +kernel

theorem witness_Ageing :
    (let s := { devIn .negotiate with subj := { n := 135 } }
     s.subj.n < 136) ∧
    (let s := { devIn .run with tick := 100, health := { State.reset.health with agm := [(7, { busy := true, due := 100 })] } }
     (s.agmOf 7).busy = true ∧ (s.agmOf 7).due ≤ s.tick) ∧
    ((devIn .negotiate).dev.st = .negotiate ∧ { devIn .run with tick := 8640000000000 }.health.guardTick + 8640000000000 ≤ 8640000000000) := by
  decide +kernel

theorem witness_ErrorsAndLanes :
    (let s := stateAt (.nop 0)
     let e : ParityHit := { part := 543, lane := 31, crew := 0, regs := [(false, 3, 63), (true, 5, 0)], words := [.data false 0x40, .local 0 64] }
     physicalLane (s.laneCtl e.part) e.lane = 31 ∧ physicalLane { first := 3 } 31 = 32 ∧ (s.lastDay (sget [] s.health.parity (64 * e.part + 31))).length < 2 ∧
       (s.crew e.crew).alive = true ∧ (s.ctx (ctxOf 0)).st = .on ∧ s.block 0 ≠ none) ∧
    (let s := { devIn .run with health := { State.reset.health with retest := [(0, 2)] } }
     s.clocked = true ∧ s.subj.n < 544 ∧ 0 < sget 0 s.health.retest s.subj.n ∧ sget 0 (devIn .run).health.retest 0 = 0 ∧
       sget 0 (devIn .run).health.tested 0 ≤ (devIn .run).tick / 200000 ∧
       (let u := { devIn .run with health := { State.reset.health with tested := [(0, 1)] } }
        u.tick / 200000 < sget 0 u.health.tested 0)) ∧
    (∀ m ∈ [33 + 64, 33], let s := { devIn .run with subj := { n := 543, m } }
     let x := s.laneCtl 543
     s.subj.n < 544 ∧ x.busy = none ∧ s.subj.m % 64 ≤ 33 ∧ x.first.toNat ≠ 33 ∧ x.second.toNat ≠ 33 ∧ (x.first = 0x3F ∨ x.second = 0x3F) ∧
       (s.subj.m / 64 % 2 = 1 ↔ m = 97)) ∧
    (let s := { devIn .run with health := { State.reset.health with lanes := [(0, { busy := some 33 })] } }
     (s.laneCtl s.subj.n).busy = some 33 ∧ s.clocked = true ∧ s.cur = none) ∧
    (let x : LaneCtl := { first := 1, second := 2 }
     x.busy = none ∧ x.first ≠ 0x3F ∧ x.second ≠ 0x3F) := by
  decide +kernel

/-- A machine whose link block is as given. -/
def linked (l : Link) : State := { devIn .run with link := l }

theorem witness_LinksAndChannels :
    ((linked { mods := [(0, { st := .active, consecutive := 7 })] }).lmod 0).st = .active ∧ (linked {}).modPresent 0 = true ∧
    ((linked { mods := [(15, { st := .retrain }), (14, { st := .active })] }).lmod 15).st = .retrain ∧
    (∃ i, i < 4 ∧ 4 * (15 / 4) + i ≠ 15 ∧ ((linked { mods := [(15, { st := .retrain }), (14, { st := .active })] }).lmod (4 * (15 / 4) + i)).st ≠ .down) ∧
    ((linked { online := 0xE }).fuse.cdpres.getLsbD 0 = true ∧ (linked { online := 0xE }).inService 0 = false ∧ (linked { online := 0xE }).ret.dieoff.getLsbD 0 = false ∧
      (linked { online := 0xE }).dev.st = .run) ∧
    (linked {}).hostOpen = true ∧ ((0x1F : Word).toNat / 32 % 2 = 0 ∧ (0x3F : Word).toNat / 32 % 2 = 1) ∧
    ((linked { resv := true }).link.mcBusy = false ∧ (linked { resv := true }).goneChannel = none ∧ (linked {}).link.resv = false) ∧
    (let l : Link := { resv := true, mcBusy := true, chans := [(31, { st := .migrating })] }
     (linked l).goneChannel = some 31 ∧ (linked l).clocked = true ∧ (linked l).swap = none ∧
       { linked l with swap := some { ctx := 0, first := 0x1000, second := 0x2000, host := true, size := 4096 } }.swap ≠ none ∧
       (linked l).link.mcBusy = true ∧ ((linked l).chan 31).st = .migrating ∧ ((linked l).chan 31).done.toNat + 1 < (linked l).chunks) ∧
    (let l : Link := { resv := true, mcBusy := true, chans := [(31, { st := .migrating, done := 0xFFF })] }
     (linked l).chunks ≤ ((linked l).chan 31).done.toNat + 1) ∧
    ((linked { resv := true }).dev.st = .run ∧ ((linked { resv := true }).chan 0).st = .active ∧ (linked { resv := true }).link.deadWay = none) ∧
    ((linked {}).link.period ≠ 0 ∧ 0 < (linked {}).usable ∧ (linked { cethr := 0 }).link.cethr = 0) := by
  refine ⟨?_, ?_, ?_, ⟨2, ?_⟩, ?_, ?_, ?_, ?_, ?_, ?_, ?_, ?_⟩ <;> decide +kernel

theorem witness_HostAccesses :
    (let e : QEntry := { op := .store (.host 0x40) [1], va := 0x40000040 }
     let s := (stateAt (.nop 0)).modCrew 0 fun c => { c with queue := [e] }
     (s.crew s.subj.n).queue = [e] ∧ onHostLink (.host 0x40) = true ∧ (s.ctx (ctxOf s.subj.n)).st = .on) ∧
    (let x : Atom := { op := .add, ret := false, args := [{ lane := 0, place := .dev 0x40, place2 := .dev 0x40, ea := 0x40, va := 0x40, x := 1 },
       { lane := 63, place := .host 0x40, place2 := .dev 0x40, ea := 0x40000040, va := 0x40000040, x := 1 }] }
     let s := (stateAt (.nop 0)).modCrew 0 fun c => { c with atoms := [x] }
     (s.crew s.subj.n).queue = [] ∧ (s.crew s.subj.n).atoms = [x] ∧ x.ret = false ∧ (x.args.find? argOnLink).isSome = true) ∧
    ((stateAt (.nop 0)).feature 1 = true ∧ (devIn .run).feature 1 = false ∧ { devIn .run with subj := { k := 1 } }.subj.k ≠ 0) ∧
    (0x1000 ≤ (0x900000 : BitVec 24).toNat ∧ ¬ (0x10000 ≤ (0x900000 : BitVec 24).toNat ∧ (0x900000 : BitVec 24).toNat < 0x50000) ∧
      ¬ (0x60000 ≤ (0x900000 : BitVec 24).toNat ∧ (0x900000 : BitVec 24).toNat < 0x60800) ∧ ¬ (0x800000 ≤ (0x900000 : BitVec 24).toNat ∧ (0x900000 : BitVec 24).toNat < 0x810000) ∧
      ¬ (0x810000 ≤ (0x900000 : BitVec 24).toNat ∧ (0x900000 : BitVec 24).toNat < 0x812000) ∧ ¬ (0x820000 ≤ (0x900000 : BitVec 24).toNat ∧ (0x900000 : BitVec 24).toNat < 0x821000)) ∧
    63 < 64 ∧ (stateAt (.nop 0)).hostOpen = true := by
  decide +kernel

theorem witness_HostTranslations :
    (let s := { stateAt (.nop 0) with ats := [{ ctx := 0, addr := 0x1000, write := false }] }
     s.ctxOfPasid 0 = some 0 ∧ s.ctxOfPasid 0xFFFFF = none ∧ (s.ats[0]?).map (·.pri) = some false) ∧
    (let r : FaultRec := { va := 0x1000, write := true, acc := 1, src := 0, level := 0, lcore := 0, unit := 0, tid := 63 }
     let s := { stateAt (.nop 0) with ats := [{ ctx := 0, addr := 0x1000, write := true, pri := true, who := some r }] }
     let s := s.modCrew 0 fun c => { c with lanes := [(63, { st := .parked, park := some (atsKey 0x1000) })] }
     (s.ats[0]?).map (·.pri) = some true ∧ (s.crew 0).alive = true ∧ ctxOf 0 = 0 ∧ 63 < 64 ∧ ((s.crew 0).lane 63).st = .parked ∧
       ((s.crew 0).lane 63).park = some (atsKey 0x1000) ∧ (s.ctx 0).st = .on ∧ (s.ats[0]?).map (·.who) = some (some r) ∧ r.src = 0 ∧
       0 = 32768 * 0 + 256 * r.lcore.toNat + r.unit.toNat ∧ 63 = r.tid.toNat) := by
  decide +kernel

/-- A machine whose socket is as given. -/
def socket (a : Adit) : State := { stateAt (.nop 0) with adit := a, cur := none }

theorem witness_SocketControl :
    (let s := socket { st := .ready, gqs := [(3, { en := true, st := .run })] }
     s.dev.st = .run ∧ (devIn .load).dev.st = .load ∧ (devIn .verify).dev.st = .verify ∧
       s.adit.st = .ready ∧ s.adit.resetting = false ∧ busyQueues s ≠ [] ∧ busyQueues (socket { st := .ready }) = [] ∧
       (socket { st := .ready, resetting := true }).adit.resetting = true ∧ (socket { st := .absent }).adit.st = .absent) ∧
    (let s := { socket { st := .reset } with link := { mods := [(25, { st := .active })] } }
     s.adit.st = .reset ∧ ((s.lmod 24).st = .active ∨ (s.lmod 25).st = .active)) ∧
    ((socket { st := .fenced, grst := true }).adit.st = .fenced ∧ (socket { st := .fenced, grst := true }).adit.grst = true) ∧
    ((socket { st := .reset, grst := false }).adit.st ≠ .absent ∧ (socket { st := .reset, grst := false }).adit.st = .reset ∧ (socket { st := .reset, grst := false }).adit.grst = false) ∧
    (let s := socket { st := .ready, gqs := [(15, { gqva := 0x8000, gqrrec := 0x9000 })] }
     s.feature 2 = true ∧ (9 : Word).toNat % 2 = 1 ∧ (s.gq 15).en = false ∧ s.adit.st = .ready ∧ (s.gq 15).gqva ≠ 0 ∧ (s.gq 15).gqrrec ≠ 0 ∧ (s.ctx 0).en = true ∧
       4 ≤ (BitVec.ofNat 4 ((9 : Word).toNat / 2)).toNat ∧ (BitVec.ofNat 4 ((25 : Word).toNat / 2)).toNat ≤ 12 ∧ ¬ 4 ≤ (BitVec.ofNat 4 ((7 : Word).toNat / 2)).toNat ∧
       ¬ (BitVec.ofNat 4 ((27 : Word).toNat / 2)).toNat ≤ 12) ∧
    (let s := socket { st := .ready, gqs := [(1, { en := true, st := .run }), (2, { en := true, st := .run, widx := 1 }), (3, { en := true, st := .halted, widx := 1 })] }
     (s.gq 1).en = true ∧ (s.gq 1).st = .run ∧ (s.gq 1).ridx = (s.gq 1).widx ∧ (s.gq 2).en = true ∧ (s.gq 2).ridx ≠ (s.gq 2).widx ∧ (s.gq 3).st = .halted) ∧
    (let s := { socket { st := .ready, gqs := [(0, { en := true, st := .run, asked := some (0, true) })], sds := [{ tag := 9, pasid := 0, all := false, base := 0, log2 := 12, due := 1000 }] } with
       tick := 5001 }
     s.adit.st = .ready ∧ (s.gq s.subj.n).en = true ∧ (s.gq s.subj.n).asked = some (0, true) ∧ 0 + 5000 < s.tick ∧
       (s.adit.sds.any fun d => d.tag == 9 && decide (d.due < s.tick)) = true) := by
  decide +kernel

/-- A guest message with the fields of its type. -/
def msg (ty : BitVec 8) (q : BitVec 4) (tag : BitVec 16) (arg : BitVec 64) : GuestMsg :=
  { ty, q, z1 := 0, tag, pasid := 0, all := 0, w := 0, st := 0, psz := 0, cls := 0, z2 := 0, arg }

/-- CleanMsg as a test. -/
def cleanNow (m : GuestMsg) (queue tag page arg : Bool) : Bool := @decide (CleanMsg m queue tag page arg) (by unfold CleanMsg; infer_instance)

theorem cleanNow_meets {m : GuestMsg} {queue tag page arg : Bool} (h : cleanNow m queue tag page arg = true) : CleanMsg m queue tag page arg :=
  @of_decide_eq_true _ (_) h

/-- RidxWaits as a test. -/
def waitsNow (s : State) (q : Nat) : Bool :=
  match s.translate (s.gq q).ctx.toNat ((s.gq q).gqva.toNat + 64) 8 .write 650 with
  | .ok pl _ => s.swapping pl
  | .hold _ => true
  | _ => false

theorem waitsNow_iff (s : State) (q : Nat) : waitsNow s q = true ↔ RidxWaits s q := by
  unfold waitsNow RidxWaits
  split <;> simp_all

theorem witness_GuestMessages :
    (let s := socket { st := .ready, gqs := [(5, { en := true, st := .run, widx := 2, gqva := 0x8000, seqs := [8, 9], bound := some (0, 63) })] }
     let s := paged s
     s.adit.st = .ready ∧ cleanNow (msg 0x81 5 0 8) true false false true = true ∧ (s.gq 5).en = true ∧ (s.gq 5).bound = some (0, 63) ∧ (s.gq 5).st = .run ∧
       (s.gq 5).seqs.head? = some (msg 0x81 5 0 8).arg ∧ (s.gq 5).seqs.head? ≠ some (msg 0x81 5 0 9).arg ∧
       waitsNow s 5 = false ∧ waitsNow { s with swap := some { ctx := 0, first := 0x8000, second := 0x5000, host := false, size := 4096 } } 5 = true ∧
       waitsNow { s with swap := some { ctx := 0, first := 0x2000, second := 0x5000, host := false, size := 4096 } } 5 = true ∧
       (match s.translate 0 0x8040 8 .write 650 with
         | .ok .. => true
         | _ => false) = true ∧
       cleanNow (msg 0x82 5 0 7) true false false true = true ∧ (s.gq 4).bound = none) ∧
    (let s := { socket { st := .ready, gqs := [(5, { en := true, st := .run, asked := some (0, false) })] } with tick := 5000 }
     cleanNow (msg 0x83 5 0 0) true false false false = true ∧ (s.gq 5).asked = some (0, false) ∧ (s.gq 5).bound = none ∧
       ((s.boundCores 0).any fun lc => (s.lcore lc).leaving.isNone) = true ∧ s.tick ≤ 0 + 5000 ∧ 0 + 5000 < { s with tick := 5001 }.tick) ∧
    (let d : GuestSd := { tag := 9, pasid := 0, all := false, base := 0, log2 := 12, due := 1000 }
     let s := { socket { st := .ready, sds := [d] } with tick := 1000 }
     cleanNow (msg 0x84 0 9 0) false true false false = true ∧ s.adit.sds.find? (fun d => d.tag == 9) = some d ∧ s.tick ≤ d.due ∧ d.due < { s with tick := 1001 }.tick ∧
       ∀ d ∈ s.adit.sds, d.tag ≠ 8) ∧
    (cleanNow (msg 0x86 0 9 0x1000) false true true true = true ∧ cleanNow (msg 0x85 0 9 0x1000) false true true true = true ∧
      ¬ (64 ≤ (socket { st := .ready }).walks.length + (socket { st := .ready }).adit.reqs.length) ∧ (socket { st := .ready }).walks = [] ∧
      (socket { st := .ready, reqs := [{ tag := 9, page := true, q := 0, pasid := 0, va := 0, write := false }] }).adit.reqs.map (·.tag) = [9]) ∧
    ((msg 0x80 0 0 0).ty.toNat < 0x81 ∧ 0x86 < (msg 0x87 0 0 0).ty.toNat) ∧ (cleanNow (msg 0x83 5 0 1) true false false false = false ∧ ((socket { st := .ready }).gq 5).en = false) := by
  decide +kernel

/-- A leaf that the walk finds from an address on. -/
theorem walkPage_of {s : State} {n v : Nat} {l : Leaf} (h : decide (s.walk n v = .leaf l) = true) (hv : v < 2 ^ 56) :
    WalkPage s n (v / l.size * l.size) l := ⟨v, hv, of_decide_eq_true h, rfl⟩

/-- A write and a read of device memory, and a read of a sinter page, must be served. -/
theorem witness_ServedRequests :
    ∀ x ∈ [(({ pasid := 0, dpa := 0x1000, size := 4, write := true, data := [(0, 5, false)] } : PortReq), 0x1000, 0x40000000, 0),
      ({ pasid := 0, dpa := 0x200000, size := 8, write := false, data := [] }, 0x80000000, 0x200000, 1)],
    let s := paged (socket { st := .ready, gqs := [(3, { en := true, st := .run })] })
    let l : Leaf := { base := if x.2.2.2 = 0 then 0 else 0x200000, size := x.2.2.1, w := true, x := x.2.2.2 == 0, cls := BitVec.ofNat 2 x.2.2.2, ats := false }
    s.adit.st = .ready ∧ s.swapping (.dev x.1.dpa.toNat) = false ∧ s.ctxOfPasid x.1.pasid = some 0 ∧ (s.pasidQueue x.1.pasid).isSome = true ∧ s.tlb = [] ∧
      WalkPage s 0 (x.2.1 / l.size * l.size) l ∧ Allows s x.1 (x.2.1 / l.size * l.size) l := by
  have h : ∀ x ∈ [(({ pasid := 0, dpa := 0x1000, size := 4, write := true, data := [(0, 5, false)] } : PortReq), 0x1000, 0x40000000, 0),
      ({ pasid := 0, dpa := 0x200000, size := 8, write := false, data := [] }, 0x80000000, 0x200000, 1)],
    let s := paged (socket { st := .ready, gqs := [(3, { en := true, st := .run })] })
    let l : Leaf := { base := if x.2.2.2 = 0 then 0 else 0x200000, size := x.2.2.1, w := true, x := x.2.2.2 == 0, cls := BitVec.ofNat 2 x.2.2.2, ats := false }
    (s.adit.st = .ready ∧ s.swapping (.dev x.1.dpa.toNat) = false ∧ s.ctxOfPasid x.1.pasid = some 0 ∧ (s.pasidQueue x.1.pasid).isSome = true ∧ s.tlb = []) ∧
      decide (s.walk 0 x.2.1 = .leaf l) = true ∧ x.2.1 < 2 ^ 56 ∧ Allows s x.1 (x.2.1 / l.size * l.size) l := by
    unfold Allows; decide +kernel
  intro x hx
  obtain ⟨⟨a, b, c, d, e⟩, f, g, i⟩ := h x hx
  exact ⟨a, b, c, d, e, walkPage_of f g, i⟩

theorem witness_GuestPortIsIsolated :
    (∀ r ∈ [({ pasid := 0, dpa := 0, size := 4, write := false, data := [] } : PortReq), { pasid := 0, dpa := 0x1000, size := 128, write := true, data := [(0, 5, false), (31, 6, true)] }],
      4 ≤ r.size ∧ r.size ≤ 128 ∧ r.size % 4 = 0 ∧ r.dpa.toNat % 4 = 0 ∧ r.dpa.toNat % 128 + r.size ≤ 128 ∧ ∀ w ∈ r.data, 4 * w.1 + 4 ≤ r.size) ∧
    (socket { st := .ready }).adit.st = .ready ∧ (socket { st := .ready }).swapping (.dev 0x1000) = false ∧
    { socket { st := .ready } with swap := some { ctx := 0, first := 0x1000, second := 0x2000, host := true, size := 4096 } }.swapping (.dev 0x1000) = true ∧
    ¬ (({ pasid := 0, dpa := 0x1002, size := 4, write := false, data := [] } : PortReq).dpa.toNat % 4 = 0) := by
  decide +kernel

/-- A context of its own, with its registers as the driver has set them and device memory from the given bytes on. -/
def ctxAt (c : Ctx) (mem : List (Nat × List Byte)) : State :=
  let s := paged (stateAt (.nop 0))
  { s with cur := none, ctxs := sset {} s.ctxs 0 c, mem := mem.foldl (fun m x => Memory.writeN m x.1 x.2) s.mem }

theorem witness_ContextsStartAndStop :
    (∀ x ∈ [(0x1000, true), (0, false)], let s := ctxAt { ptroot := BitVec.ofNat 39 x.1, savebase := 0x1000000, cpaddr := 0x8001, pasid := 5 } []
      s.hostOpen = true ∧ 0 < 64 ∧ (s.ctx 0).st = .disabled ∧
      ((s.dev.st ≠ .run ∨ (s.ctx 0).ptroot = 0 ∨ (s.ctx 0).savebase = 0 ∨ ((s.ctx 0).cpaddr.getLsbD 0 = false ∧ s.feature 0 = false) ∨
        (s.ctxs.any fun e => e.1 != 0 && e.2.en && e.2.pasid == (s.ctx 0).pasid) = true) ↔ x.2 = false)) ∧
    ((ctxAt { st := .on } []).ctx 0).st ≠ .disabled ∧ ((ctxAt { st := .faulted } []).ctx 0).st = .faulted ∧
    (let s := ctxAt { st := .stopping } []
     s.clocked = true ∧ s.heldBack 0 = false ∧ (s.ctx 0).st = .stopping ∧ s.queuesOut 0 = false ∧ (s.ctx 0).pendFault = none) ∧
    (let s := ctxAt { st := .stopping, pendFault := some { cause := 3 } } []
     s.clocked = true ∧ s.heldBack 0 = false ∧ (s.ctx 0).st = .stopping ∧ s.queuesOut 0 = false ∧ (s.ctx 0).pendFault = some { cause := 3 } ∧
       s.boundCores 0 ≠ [] ∧ ∀ lc ∈ s.boundCores 0, s.slotHeld lc = false) := by
  decide +kernel

/-- A context that runs with its command page at 0x8000 of device memory, its slot 63 as given and a launch record at 0xC000 with the given first
word. -/
def slotState (slot : List Byte) (entry : Nat) : State :=
  let record := natToBytes 8 entry ++ List.replicate 8 0 ++ natToBytes 8 1 ++ List.replicate 8 0 ++ natToBytes 4 1 ++ natToBytes 4 0x101 ++ natToBytes 4 (128 + 256 + 15 * 65536) ++
    List.replicate 212 0
  let s := ctxAt { en := true, st := .on, ptroot := 0x1000, cpaddr := 0x8001, head := 63, tail := 64 } [(0x8000, natToBytes 8 64), (0x8400 + 16 * 63, slot), (0xC000, record)]
  { s with grids := [], blocks := [], crews := [] }

/-- A slot of an operation with its launch record. -/
def slotBytes (record op flags : Nat) : List Byte := natToBytes 8 record ++ natToBytes 1 op ++ natToBytes 1 flags ++ List.replicate 6 0

/-- How the record at 0xC000 is read: the subcode that it fails with, if it can be read. -/
def recordEnd (s : State) (a : DWord) : Option (Option Nat) :=
  match s.readRecord 0 a with
  | .ok t bs => some (t.recordFails 0 bs)
  | _ => none

theorem witness_SlotsAndGrids :
    (let s := slotState (slotBytes 0 0 0) 0x10000
     s.clocked = true ∧ s.cpHeld 0 = false ∧ (s.ctx 0).st = .on ∧ { s with ctxs := sset {} s.ctxs 0 { s.ctx 0 with tail := 63 } }.ctx 0 = { s.ctx 0 with tail := 63 } ∧ (s.ctx 0).watchCp = none ∧
       ((List.range 8).map fun i => (s.placeByte ((commandPage s 0 0).add i)).toNat * 256 ^ i).sum = 64) ∧
    (∀ x ∈ [(0, 0), (1, 0x85), (2, 0)], let s := slotState (slotBytes 0xC000 x.1 x.2) 0x10000
      ((s.ctx 0).st = .on ∧ (s.ctx 0).head < (s.ctx 0).tail ∧
        slotBytes 0xC000 x.1 x.2 = (List.range 16).map fun i => s.placeByte ((commandPage s 0 (0x400 + 16 * ((s.ctx 0).head % 64))).add i)) ∧
      slotOp (slotBytes 0xC000 x.1 x.2) = x.1 ∧ slotOp (slotBytes 0xC000 x.1 x.2) ≤ 2 ∧ (∀ i, 10 ≤ i → i < 16 → (slotBytes 0xC000 x.1 x.2).getD i 0 = 0) ∧
      (s.ctx 0).children = [] ∧ s.grids = [] ∧ (s.ctx 0).slotWait = none ∧ recordEnd s 0xC000 = some none) ∧
    ¬ slotOp (slotBytes 0 3 0) ≤ 2 ∧ recordEnd (slotState (slotBytes 0xC000 1 0) 2) 0xC000 = some (some 2) ∧
    recordEnd (slotState (slotBytes 0xC000 1 0) 2) 0xC001 = none ∧
    (let r := recordOf ((List.range 256).map fun i => (slotState [] 0x10000).placeByte (.dev (0xC000 + i)))
     r.entry = 0x10000 ∧ r.det = false ∧ r.replay = false) ∧
    (let x : Child := { raddr := 0xC000, crew := 0, serial := 0, det := false, parent := 0, item := 0, ordinal := 0 }
     let s := slotState [] 0x10000
     let s := { s with ctxs := sset {} s.ctxs 0 { s.ctx 0 with children := [x] } }
     (s.ctx 0).st = .on ∧ (s.ctx 0).childWait = none ∧ (s.ctx 0).children = [x] ∧ recordEnd s x.raddr = some none) ∧
    (∀ x ∈ [0, 0x4000, 0x80000000], let a : DWord := BitVec.ofNat 64 x
      let s := paged (stateAt .gridComplete)
      let g : Grid := { ctx := 0, lr := { compaddr := a }, st := .retiring }
      let s := { s with grids := [(0, some g)], cur := none }
      s.clocked = true ∧ s.grid s.subj.n = some g ∧ (s.ctx g.ctx).st = .on ∧ g.st = .retiring ∧ g.unretired = 0 ∧ g.compWait = none ∧
      (match { s with dirty := [] }.translate 0 a.toNat 8 .write 601 with
        | .ok pl _ => x != 0x80000000 && !{ s with dirty := [] }.swapping pl
        | .fail .. => x == 0x80000000
        | _ => false) = true) ∧
    (∀ x ∈ [(0x40000000, 1), (0xC0000000, 2), (0x4000, 3)], let s := paged (stateAt .gridComplete)
      let s := { s with mem := Memory.writeN s.mem 0x2008 (natToBytes 8 0x800000000000003F), swap := some { ctx := 0, first := 0x4000, second := 0x5000, host := false, size := 4096 } }
      (match { s with dirty := [] }.translate 0 x.1 8 .write 601 with
        | .ats _ => x.2 == 1
        | .notPresent _ => x.2 == 2
        | .ok pl _ => x.2 == 3 && s.swapping pl
        | _ => false) = true) ∧
    (let s := { paged (stateAt .gridComplete) with swap := some { ctx := 0, first := 0x2000, second := 0x5000, host := false, size := 4096 } }
     (match { s with dirty := [] }.translate 0 0x4000 8 .write 601 with
        | .hold _ => true
        | _ => false) = true) ∧
    (let s := slotState [] 0x10000
     let s := { s with swap := some { ctx := 0, first := 0xC000, second := 0x5000, host := false, size := 4096 } }
     (match s.readRecord 0 0xC000, s.readRecord 0 0xC0000000 with
       | .held, .waits .. => true
       | _, _ => false) = true) := by
  refine ⟨?_, ?_, ?_, ?_, ?_, ?_, ?_, ?_, ?_, ?_, ?_⟩ <;> decide +kernel

/-- A context with two children, of which the first replays and finds in the log that a grid of another number comes before it. -/
def childState : State :=
  let record := natToBytes 8 0x10000 ++ List.replicate 8 0 ++ natToBytes 8 1 ++ List.replicate 8 0 ++ natToBytes 4 1 ++ natToBytes 4 0x101 ++
    natToBytes 4 (128 + 256 + 15 * 65536) ++ List.replicate 52 0 ++ natToBytes 4 0x300 ++ List.replicate 156 0
  let x : Child := { raddr := 0xC000, crew := 0, serial := 0, det := true, parent := 0, item := 0, ordinal := 0 }
  let s := slotState [] 0x10000
  { s with ctxs := sset {} s.ctxs 0 { s.ctx 0 with children := [{ x with raddr := 0xD000 }, x], logbase := 0x6000, logsize := 1 }
           mem := Memory.writeN (Memory.writeN s.mem 0xD000 record) 0x6000 (entryBytes { kind := 1, grid := 5, item := 0, key := 0 }) }

theorem witness_ChildrenInReplay : ∃ x y, (childState.ctx 0).children = [x, y] ∧ NotYet childState 0 x := by
  refine ⟨_, _, rfl, ?_⟩
  have h : (match childState.readRecord 0 0xD000 with
      | .ok a rb => decide (a.recordFails 0 rb = none) && (recordOf rb).replay && decide (0 < (a.ctx 0).logsize.toNat * 256) &&
          a.logEnt 0 0 == { kind := 1, grid := 5, item := 0, key := 0 } && decide ((a.ctx 0).logUsed = []) && (a.logEnt 0 1).kind == 0
      | _ => false) = true ∧ (childState.ctx 0).detCount % 4096 = 0 := by decide +kernel
  obtain ⟨h, g⟩ := h
  split at h
  · next a rb e =>
    simp only [Bool.and_eq_true, decide_eq_true_eq, beq_iff_eq] at h
    obtain ⟨⟨⟨⟨⟨h1, h2⟩, h3⟩, h4⟩, h5⟩, h6⟩ := h
    refine ⟨a, rb, 0, e, h1, h2, first_entry h3 (by rw [h4]; decide) (by rw [h4]; decide) h5 h6, ?_⟩
    rw [h4]
    simp [childEntry, g]
  · exact absurd h Bool.false_ne_true

/-- A context whose translation page at 0x101000 holds a command of 32 bytes in slot 63 and CWIDX 64. -/
def xlateAt (cmd : List Byte) (recs : List FaultRec) : State :=
  ctxAt { en := true, st := .on, ptroot := 0x1000, cridx := 63, recs } [(0x101080, natToBytes 8 64), (0x101800 + 32 * 63, cmd)]

/-- The bytes of a command: its first word, its second, VA, DPA and the second DPA. -/
def xlateBytes (w w1 va dpa second : Nat) : List Byte := natToBytes 4 w ++ natToBytes 4 w1 ++ natToBytes 8 va ++ natToBytes 8 dpa ++ natToBytes 8 second

/-- NextCommand and GoodCommand as tests. -/
def nextNow (s : State) (n : Nat) (bs : List Byte) : Bool := @decide (NextCommand s n bs) (by unfold NextCommand; infer_instance)

theorem nextNow_meets {s : State} {n : Nat} {bs : List Byte} (h : nextNow s n bs = true) : NextCommand s n bs := @of_decide_eq_true _ (_) h

def goodNow (bs : List Byte) : Bool := @decide (GoodCommand bs) (by unfold GoodCommand; infer_instance)

theorem goodNow_meets {bs : List Byte} (h : goodNow bs = true) : GoodCommand bs := @of_decide_eq_true _ (_) h

/-- A fault record that has been written with tag 7, of the thread in lane 63 of crew 0. -/
def written : FaultRec := { va := 0xC0000000, write := true, tag := 7, acc := 1, src := 0, level := 1, lcore := 0, unit := 0, tid := 63, written := true }

/-- The commands of the witnesses, with their operation and whether R219 allows them. -/
def commandCases : List (List Byte × Nat × Bool) :=
  [(xlateBytes 0 0 0 0 0, 0, true), (xlateBytes 6 0 0 0 0, 6, false), (xlateBytes 0x2000 0 0 0 0, 0, false), (xlateBytes 1 7 0 0 0, 1, true), (xlateBytes 0x201 7 0 0 0, 1, true),
   (xlateBytes 2 12 0x1000 0 0, 2, true), (xlateBytes 0x102 0 0 0 0, 2, true), (xlateBytes 2 56 0 0 0, 2, true), (xlateBytes 2 11 0 0 0, 2, false), (xlateBytes 2 57 0 0 0, 2, false),
   (xlateBytes 0x403 0 0 0x10000 0, 3, true), (xlateBytes 0x803 0 0 0x200000 0, 3, true), (xlateBytes 3 0 0 0x10000 0, 3, false), (xlateBytes 0x403 0 0 (2 ^ 39) 0, 3, false),
   (xlateBytes 0x404 0 0x12345 0x10000 0, 4, true), (xlateBytes 5 0 0 0x1000 0x2000, 5, true), (xlateBytes 0x1005 0 0 0x1000 (2 ^ 39), 5, true),
   (xlateBytes 5 0 0 0x1000 0x2001, 5, false), (xlateBytes 0xC05 0 0 0 0, 5, false)]

theorem witness_TranslationCommands :
    (∀ x ∈ commandCases, nextNow (xlateAt x.1 []) 0 x.1 = true ∧ numOf x.1 0 1 = x.2.1 ∧ goodNow x.1 = x.2.2 ∧ (xlateAt x.1 []).swap = none ∧ (xlateAt x.1 []).link.moving = false) ∧
    (let bs := xlateBytes 5 0 0 0x1000 0x2000
     let s := { xlateAt bs [] with swap := some { ctx := 1, first := 0x10000, second := 0x20000, host := false, size := 4096 } }
     let t := { xlateAt bs [] with link := { (xlateAt bs []).link with moving := true } }
     nextNow s 0 bs = true ∧ s.swap ≠ none ∧ nextNow t 0 bs = true ∧ t.link.moving = true) ∧
    (∀ bs ∈ [xlateBytes 1 7 0 0 0, xlateBytes 0x201 7 0 0 0], let s := xlateAt bs [written]
      let s := s.modCrew 0 fun c => { c with lanes := [(63, { st := .parked, park := some (written.va, written.write) })] }
      nextNow s 0 bs = true ∧ ((s.ctx 0).recs.find? fun r => r.written && r.tag.toNat == numOf bs 4 4) = some written ∧ (s.ctx 0).st = .on ∧ written.src = 0 ∧
      (s.crew (32768 * 0 + 256 * written.lcore.toNat + written.unit.toNat)).alive = true ∧ ((s.crew 0).lane 63).st = .parked ∧
      ((s.crew 0).lane 63).park = some (written.va, written.write)) ∧
    (∀ r ∈ ((xlateAt (xlateBytes 1 7 0 0 0) []).ctx 0).recs, r.tag.toNat ≠ 7) ∧
    ((sget none (xlateAt (xlateBytes 0x803 0 0 0x200000 0) []).sinter 0x200000).isSome = true ∧ (sget none (xlateAt (xlateBytes 0x403 0 0 0x10000 0) []).sinter 0x10000).isSome = false ∧
      ¬ 4096 ≤ ((xlateAt (xlateBytes 0x403 0 0 0x10000 0) []).sinter.filter fun x => x.2.isSome && wayOf x.1 == wayOf 0x10000).length) := by
  refine ⟨?_, ?_, ?_, ?_, ?_⟩ <;> decide +kernel

/-- A machine whose context runs a translation command. -/
def runsX (x : XCmd) : State := { ctxAt { en := true, st := .on, ptroot := 0x1000, cmd := some x } [] with cur := none, subj := {} }

theorem witness_TranslationEnds :
    (∀ x ∈ [({ op := 2, all := true } : XCmd), { op := 2, log2 := 12, va := 0x1000 }, { op := 4, psz := 1, va := 0x12345, dpa := 0x10000 }, { op := 4, psz := 2, dpa := 0x200000 }],
      ((runsX x).ctx 0).cmd = some x ∧ (x.op = 2 ∨ (x.op = 4 ∧ (x.psz = 1 ∨ x.psz = 2))) ∧ (runsX x).clocked = true ∧ (runsX x).accessesDone 0 = true ∧ (runsX x).adit.sds = [] ∧ (runsX x).xlHeld 0 = false ∧ (runsX x).frameQuiet x.dpa.toNat (sizeOfPsz x.psz.toNat) = true) ∧
    (let w : Exchange := { ctx := 0, first := 0x1000, second := 0x2000, host := true, size := 4096 }
     let s := { runsX { op := 5 } with swap := some w }
     s.clocked = true ∧ (s.ctx 0).cmd = some { op := 5 } ∧ s.swap = some w ∧ w.ctx = 0 ∧
       { s with swap := none, link := { s.link with moving := s.link.mcBusy } }.xlHeld 0 = false) ∧
    (∀ x ∈ [({ op := 2, log2 := 12, va := 0x1000 } : XCmd), { op := 4, psz := 1, va := 0x12345, dpa := 0x10000 }],
      let d : GuestSd := { tag := 0, pasid := 0, all := false, base := if x.op = 2 then 0x1000 else 0x10000, log2 := if x.op = 2 then 12 else 16, due := 1000 }
      let s := { runsX x with adit := { (runsX x).adit with sds := [d] } }
      (s.ctx 0).cmd = some x ∧ ∃ d ∈ s.adit.sds, d.pasid = (s.ctx 0).pasid ∧ d.base = BitVec.ofNat 64 (if x.op = 2 then 0x1000 else 0x10000) ∧
        d.log2.toNat = if x.op = 2 then 12 else 16) ∧
    (let s := ctxAt { en := true, st := .on, ptroot := 0x1000, inval := [(0x1000, 12)] } []
     (s.ctx 0).cmd = none ∧ (s.ctx 0).inval = [(0x1000, 12)] ∧ s.accessesDone 0 = true ∧ s.adit.sds = []) ∧
    (∀ idx ∈ [31, 32], let r : FaultRec := { written with written := false }
      let s := ctxAt { en := true, st := .on, ptroot := 0x1000, recs := [r], fwidx := idx } []
      ((s.ctx 0).recs.find? fun r => !r.written) = some r ∧ (s.ctx 0).st = .on ∧ s.xlHeld 0 = false ∧ s.read64 (xlPage s 0 + 0x40) = 0 ∧ (((idx + 2 ^ 64 - 0) % 2 ^ 64 < 32) ↔ idx = 31)) ∧
    (∀ x ∈ [(0, 1, true), (0, 0, false), (2 ^ 31, 0, false), (2 ^ 31, 1, false), (0xC0000000, 0, false), (2 ^ 56 - 1, 1, true), (2 ^ 56, 0, false)],
      let r : GuestReq := { tag := 1, page := x.2.1 == 1, q := 0, pasid := 0, va := x.1, write := x.2.2 }
      let s := { ctxAt { en := true, st := .on, ptroot := 0x1000, inval := [(0, 12)] } [] with walks := [r, { r with tag := 2 }], subj := {} }
      s.clocked = true ∧ s.walks[s.subj.n]? = some r ∧ s.ctxOfPasid r.pasid = some 0 ∧ s.ctxOfPasid 9 = none ∧ (x.1 < 2 ^ 56 →
        (match { s with walks := [] }.guestWalk 0 r with
          | .leaf l => decide (x.1 ≤ 2 ^ 31) && (l.cls == if x.1 = 2 ^ 31 then 1 else 0)
          | .notPresent _ => x.1 == 0xC0000000 || x.1 == 2 ^ 56 - 1
          | _ => false) = true)) ∧
    (let r : GuestReq := { tag := 1, page := true, q := 0, pasid := 0, va := 0, write := false }
     let s := { ctxAt { en := true, st := .on, ptroot := 0x1000, inval := [(0, 12)] } [] with
       walks := [r], subj := {}, swap := some { ctx := 0, first := 0x2000, second := 0x5000, host := false, size := 4096 } }
     s.clocked = true ∧ s.walks[s.subj.n]? = some r ∧ (match s.guestWalk 0 r with
       | .held _ => true
       | _ => false) = true) := by
  refine ⟨?_, ?_, ?_, ?_, ?_, ?_, ?_⟩ <;> decide +kernel

/-- A machine in RUN in which grid 0 waits for sites. -/
def waits (r : LaunchRec) (since : Option Nat) : State :=
  let s := { devIn .run with dev := { (devIn .run).dev with feat := 128#128 <<< 36 }, link := { State.reset.link with online := 0xF }, dist := { State.reset.dist with pool := 65536 } }
  { s with ctxs := sset {} s.ctxs 0 { en := true, st := .on }
           grids := sset none s.grids 0 (some { ctx := 0, lr := r, next := 0, last := r.items, since }) }

/-- A machine without crews or bound sites may take a gang. -/
theorem placeable_empty {s : State} (hs : s.sites = []) (hc : s.crews = []) (hl : s.lcores ≤ 128) (n : Nat) : Placeable s n := by
  refine ⟨fun site lc h => ?_, fun lc _ k _ => ?_, hl⟩
  · simp [State.site, hs, sget] at h
  · simp [State.crew, hc, sget]

theorem witness_Placeable : ∀ r ∈ [({ items := 64, vregs := 128 } : LaunchRec), { items := 64, vregs := 128, pref := 2, fallback := 1, childres := 3 }],
    Placeable ((waits r none).wishes.foldl State.markWait (waits r none)) 0 := by
  have h : ∀ r ∈ [({ items := 64, vregs := 128 } : LaunchRec), { items := 64, vregs := 128, pref := 2, fallback := 1, childres := 3 }],
      let s := (waits r none).wishes.foldl State.markWait (waits r none)
      s.sites = [] ∧ s.crews = [] ∧ s.lcores ≤ 128 := by decide +kernel
  exact fun r hr => placeable_empty (h r hr).1 (h r hr).2.1 (h r hr).2.2 0

theorem witness_GangsArePlaced :
    (∀ r ∈ [({ items := 64, vregs := 128 } : LaunchRec), { items := 64, vregs := 128, pref := 2, fallback := 1, childres := 3 }], let s := (waits r none).wishes.foldl State.markWait (waits r none)
      (waits r none).dev.st = .run ∧ (waits r none).clocked = true ∧ (match s.turn with
        | w :: _ => !w.group && w.ctx == 0 && w.ref == 0 && (s.grid w.ref).isSome && (s.firstPlan w.ctx r r.pref).isSome
        | [] => false) = true ∧
      r.det = false ∧ r.replay = false ∧ s.couldHold r r.fallback = true ∧ r.childres * r.crews * r.fallback ≤ 65536 ∧ r.childres * r.crews * r.pref ≤ s.dist.pool) ∧
    (let r : LaunchRec := { items := 64, vregs := 128, crews := 1024, vrf := 1 }
     let s := (waits r none).wishes.foldl State.markWait (waits r none)
     s.couldHold r r.fallback = false ∧ s.turn.length = 1 ∧ (s.ctx 0).st = .on) ∧
    (devIn .run).wishes = [] ∧ (devIn .run).turn = [] ∧ (devIn .run).clocked = true := by
  refine ⟨?_, ?_, ?_, ?_, ?_⟩ <;> decide +kernel

/-- A crew of grid 0 that is saved with its logical core, or that has the given state. -/
def group (c : Crew) (x : LCore) (site : Site) (tick : Nat) : State :=
  let s := waits { items := 64, vregs := 128 } none
  { s with tick, subj := {}
           ctxs := sset {} s.ctxs 0 { en := true, st := .on, savebase := 0x10000000 }
           crews := [(0, c)]
           lcs := [(0, x)]
           sites := [(0, site)]
           blocks := [(0, some { ctx := 0, grid := 0, id := 0, gang := 0, rank := 0, size := 1, cores := [(0, 0)], cpc := 1, lb := 0 })] }

/-- Memory that another word waits for, in lane 0. -/
def idleLane : Lane := { st := .blocked, wait := some .mwait, watch := some { line := .dev 0, ea := 0, ser := 0 } }

theorem witness_GroupsLeaveAndReturn :
    (let s := group { alive := true, res := .saved, lanes := [(0, { st := .live })] } { saved := true, carve := (1, 0, 15) } {} 0
     let u := s.wishes.foldl State.markWait s
     s.dev.st = .run ∧ s.clocked = true ∧ (match u.turn with
       | w :: _ => w.group && w.ctx == 0 && sortBy id (u.savedGroup w.ctx w.ref) == [0] && u.groupSites [0] w.ahead == some [0] && !u.slotHeld 0
       | [] => false) = true ∧ SMap.wfFrom {} none u.crews = true ∧ SMap.wfFrom none none u.blocks = true) ∧
    (let s := group {} {} { closed := some 0 } 0
     s.clocked = true ∧ (s.site s.subj.n).bound = none ∧ (s.site s.subj.n).closed = some 0) ∧
    (let s := group {} { site := some 0 } { closed := some 0, bound := some 0 } 100000
     (s.site s.subj.n).closed = some 0 ∧ (s.site s.subj.n).bound = some 0 ∧ 0 + 100000 ≤ s.tick ∧ (s.lcore 0).leaving = none ∧ s.groupPrio (s.groupOf 0) ≤ (s.site 0).closePrio) ∧
    (let s := { group {} {} {} 0 with health := { State.reset.health with failing := [0] } }
     s.health.failing.contains s.subj.n = true ∧ (s.site s.subj.n).bound = none ∧ s.spareSound 0 = true ∧
       { s with health := { s.health with spareuse := 0xFF } }.spareSound 0 = false) ∧
    (let c : Crew := { alive := true, idleSince := some 0, lanes := [(0, idleLane)] }
     let s := group c { site := some 0 } { bound := some 0 } 500
     let s := { s with grids := sset none s.grids 0 ((s.grid 0).map fun (g : Grid) => { g with since := some 0 }) }
     s.maySwap 0 = true ∧ (s.crew 0).alive = true ∧ (s.ctx (ctxOf 0)).st = .on ∧ (s.lcore 0).site.isSome = true ∧ (s.lcore 0).leaving = none ∧
       { s with tick := 499 }.maySwap 0 = false ∧ { s with tick := 499 }.groupIdle (s.groupOf 0) = true) ∧
    (∀ level ∈ [1, 2, 3], let s := group { alive := true, res := .leaving level, lanes := [(0, idleLane)], waiting := level == 1 } { site := some 0 } { bound := some 0 } 0
      let c := s.crew 0
      s.clocked = true ∧ c.unitHeld = false ∧ s.slotHeld 0 = false ∧ (s.stopCrew 0).crewBusy 0 = false ∧ s.crewBusy 0 = false ∧
      c.res = .leaving level ∧ c.alive = true ∧ c.ending = false ∧ c.held = none ∧ c.queue = [] ∧ c.flights = [] ∧ c.atoms = [] ∧ s.homeQ = [] ∧
      sget [] (s.lcore 0).mtx 0 = [] ∧ SMap.wfFrom 0 none c.v = true) ∧
    (∀ res ∈ [Residence.saved, .swapped], let s := group { alive := true, res, waiting := true, lanes := [(0, { st := .live })] } { site := some 0, carve := (1, 0, 15) } { bound := some 0 } 0
      let c := s.crew 0
      c.alive = true ∧ (s.ctx 0).st = .on ∧ c.waiting = true ∧ s.crewWakes 0 = true ∧ c.res = res ∧ (s.lcore 0).site.isSome = true ∧ (s.lcore 0).leaving = none ∧
      s.usedRegs 0 + s.regBytes 0 ≤ (s.lcore 0).carve.1 * 262144 ∧ s.slotHeld 0 = false ∧ SMap.wfFrom {} none s.crews = true) ∧
    (let s := group { alive := true, res := .swapped, wakeDue := some 0 } { site := some 0 } { bound := some 0 } 100000
     (s.crew 0).res = .swapped ∧ (s.crew 0).wakeDue = some 0 ∧ (s.crew 0).alive = true ∧ 0 + 100000 ≤ s.tick ∧ (s.lcore 0).leaving = none ∧ (s.ctx 0).st = .on) := by
  refine ⟨?_, ?_, ?_, ?_, ?_, ?_, ?_, ?_⟩ <;> decide +kernel

/-- The candidate of context 1 has waited for 10 ms while context 0 holds every site, with one group of its priority, and with another of a higher one where
asked. -/
def starved (higher : Bool) : State :=
  let s := group { alive := true, lanes := [(0, { st := .live })] } { site := some 0 } { bound := some 0 } 1000000
  let g : Grid := { ctx := 1, lr := { items := 64, vregs := 128 }, last := 64, since := some 0, order := 1 }
  { s with ret := { s.ret with siteoff := ~~~(if higher then 3 else 1) }
           ctxs := sset {} s.ctxs 1 { en := true, st := .on, pasid := 1 }
           grids := [(0, some { ctx := 0, lr := { items := 64, vregs := 128 }, next := 64, last := 64, st := .running }), (1, some g),
                     (2, some { ctx := 0, lr := { items := 64, vregs := 128 }, next := 64, last := 64, st := .running, prio := 1 })]
           lcs := if higher then s.lcs ++ [(1, { site := some 1, group := 1 })] else s.lcs
           sites := if higher then s.sites ++ [(1, { bound := some 1 })] else s.sites
           crews := if higher then s.crews ++ [(256, { alive := true, grid := 2, block := 1 })] else s.crews
           blocks := if higher then s.blocks ++ [(1, some { ctx := 0, grid := 2, id := 0, gang := 0, rank := 0, size := 1, cores := [(1, 0)], cpc := 1, lb := 0, gangKey := 1 })] else s.blocks }

theorem witness_StarvedContexts : ∀ higher : Bool, let s := starved higher
    s.clocked = true ∧ (match s.turn with
      | w :: _ => w.ctx == 1 && w.since == some 0 && w.prio == 0
      | [] => false) = true ∧ 0 + 1000000 ≤ s.tick ∧ (s.turn.head?).map s.toEvict = some none ∧ (∀ gal ∈ s.scan, s.lowerGroups 0 gal = []) ∧ s.heldSince 0 0 = some 0 ∧ 0 + 1000000 ≤ s.tick ∧
    (∀ m < 64, m ≠ 1 → m ≠ 0 → s.heldSince m 0 = none) ∧
    (((s.boundGroups 0).filter fun g => decide (s.groupPrio g ≤ 0)) = s.boundGroups 0 ↔ higher = false) := by
  decide +kernel

/-- Crew 0 with a clause of two words at its thread's PC. -/
def issueAt : State :=
  let s := paged (stateOf (.add ⟨3, 1, 2, 1, 0⟩) [0, 63])
  { s with cur := none, subj := {}, mem := Memory.writeN s.mem 0x10000 ((oneClause 0 (encode (.add ⟨3, 1, 2, 1, 0⟩))).flatMap wordBytes)
           link := { s.link with online := 0xF } }

theorem witness_PulsesIssue :
    (let s := issueAt
     let c := s.crew 0
     s.dev.st = .run ∧ s.clocked = true ∧ s.issueOrder 0 0 = [0] ∧ (s.formed 0).crews = s.crews ∧ s.mayTry 0 = true ∧ c.alive = true ∧ c.ending = false ∧ c.res = .resident ∧ (s.ctx 0).st = .on ∧ c.halted = false ∧ c.stuck = false ∧ c.held = none ∧ c.code = none ∧
     (match c.candidate, s.fetch 0 0x10000 c.code with
       | some x, .ok hd => x.pc == 0x10000 && !x.mark && !x.clear && c.headerReady hd && (headerFault x.pc hd).isNone &&
         (let words := (List.range (hdrN hd + 1)).filterMap fun w => match s.fetch 0 (x.pc + BitVec.ofNat 64 (4 * w)) with
            | .ok v => some v
            | _ => none
          words.length == hdrN hd + 1 && (match clauseStarts words 0 with
             | .ok starts => !crewUniform words starts && starts == [1]
             | .illegal .. => false))
       | _, _ => false) = true) ∧
    (let p := lanesIn [0, 63] { pulseAt (.add ⟨3, 1, 2, 1, 0⟩) with pos := 1, hold := some (.counter 0) }
     let s := issueAt.modCrew 0 fun c => { c with held := some p }
     (s.crew 0).held = some p ∧ s.mayTry 0 = true ∧ s.holdOver 0 p = true) ∧
    (let s := issueAt.modCrew 0 fun c => { c with lanes := [], refill := some (3, 2, 0x10000) }
     let c := s.crew 0
     c.refill = some (3, 2, 0x10000) ∧ s.clocked = true ∧ c.alive = true ∧ c.ending = false ∧ c.noThreads = true ∧ c.halted = false ∧ c.res = .resident ∧ c.held = none ∧
       (s.ctx (ctxOf 0)).st = .on) := by
  refine ⟨?_, ?_, ?_⟩ <;> decide +kernel

theorem witness_StepRunsTheInstruction :
    (let s := State.reset.withFetchWord 32 0x040C040A
     (match s.cur with
       | some p => (match p.todo with
         | w :: _ => decide (0 < w) && decide (w < p.words.length) && (decodeWord (p.clsAt w) (p.words.getD w 0) (litsAt p.words (p.clsAt w) w)).isSome
         | [] => false)
       | none => false) = true) ∧
    decodeWord 0 0xC4000000 [] = none ∧ State.reset.cur = none ∧ State.reset.schedule = [] ∧
    { State.reset with schedule := [{ ev := .devctlLoad, subj := {}, wait := 3 }] }.schedule = [{ ev := .devctlLoad, subj := {}, wait := 3 }] := by
  refine ⟨?_, ?_, ?_, ?_, ?_⟩ <;> decide +kernel

theorem witness_EncodingsAreExact :
    (∀ i ∈ [Instr.add ⟨127, 0x81, 2, 1, 0⟩, .switch ⟨0, 0x3FFFFF⟩ [0, 5], .nop 0], i.WellFormed ∧ i.cls < 7) ∧
    ([0xE4000003] : List Word).length = literalCount 0 0xB8180B92 ∧ (decodeWord 0 0xB8180B92 [0xE4000003]).isSome = true ∧ (5 < 7 ∧ ∃ z, Instr.nop 0 = .nop z) := by
  refine ⟨?_, ?_, ?_, ⟨by decide, 0, rfl⟩⟩ <;> decide +kernel

/-- A state that keeps its memory in canonical form with a byte in it, and a step of it. -/
def counts : State := { State.reset with mem := [(5, 7)] }

theorem witness_MemoryStaysCanonical : counts.memoryCanonical = true ∧ (match step counts with
    | .next _ => true
    | _ => false) = true := by decide +kernel

theorem witness_DeviceStatesFollowTheTable : (match exec .devctlLoad State.reset with
    | .next t => decide (t.dev.st = .verify)
    | _ => false) = true := by decide +kernel

theorem witness_PulsesAreNeverLost : PulsesHold State.reset := ⟨by decide, fun _ _ h => by cases h⟩

end Sys2Proof.Tests
end

namespace Sys2Proof.FloatSpecials

open Sys2Proof Sys2Proof.Machine Sys2Proof.Claims

/-! ## The value of an FP32 word, by its sign and magnitude (R263) -/

/-- The bits of an FP32 word below its sign. -/
def mag (w : Word) : Nat := w.toNat % 2 ^ 31

/-- The mantissa of a finite magnitude with its hidden bit. -/
def significand (m : Nat) : Nat := m % 2 ^ 23 + if m < 2 ^ 23 then 0 else 2 ^ 23

/-- The finite FP32 value of a sign and a magnitude. -/
def numOf (neg : Bool) (m : Nat) : Machine.Num := ⟨neg, significand m, ((m / 2 ^ 23 - 1 : ℕ) : ℤ) - 149⟩

theorem signOf_eq (w : Word) : signOf w = decide (2 ^ 31 ≤ w.toNat) := by
  rw [signOf, ← BitVec.msb_eq_getLsbD_last, BitVec.msb_eq_decide]

theorem bit_sign (w : Word) : bit w.toNat 31 = signOf w := by
  have := w.isLt
  rw [signOf_eq, bit, Bool.eq_iff_iff, beq_iff_eq, decide_eq_true_eq]
  omega

theorem mag_lt (w : Word) : mag w < 2 ^ 31 := Nat.mod_lt _ (by decide)

theorem toNat_eq_sign_mag (w : Word) : w.toNat = (if signOf w then 2 ^ 31 else 0) + mag w := by
  have := w.isLt
  simp only [signOf_eq, mag, decide_eq_true_eq]
  split <;> omega

theorem nanWord_iff (w : Word) : nanWord w ↔ 0x7F800000 < mag w := Iff.rfl

theorem infWord_iff (w : Word) : infWord w ↔ mag w = 0x7F800000 := by
  have := w.isLt
  simp only [infWord, mag, BitVec.toNat_eq, BitVec.reduceToNat]
  omega

theorem zeroWord_iff (w : Word) : zeroWord w ↔ mag w = 0 := by
  have := w.isLt
  simp only [zeroWord, mag, BitVec.toNat_eq, BitVec.reduceToNat]
  omega

theorem not_nanWord_of_infWord {w : Word} (h : infWord w) : ¬ nanWord w := by
  rw [infWord_iff] at h
  rw [nanWord_iff]
  omega

/-- R263: exponent field 255 encodes the infinities and NaNs, every other one a finite value. -/
theorem f32_eq (w : Word) : f32 w =
    if mag w / 2 ^ 23 = 255 then (if mag w % 2 ^ 23 = 0 then .inf (signOf w) else .nan)
    else .fin (numOf (signOf w) (mag w)) := by
  have hlt := mag_lt w
  have hex : bits w.toNat 23 8 = mag w / 2 ^ 23 := by unfold bits mag; omega
  have hman : bits w.toNat 0 23 = mag w % 2 ^ 23 := by unfold bits mag; omega
  have hsign : bit w.toNat (32 - 1) = signOf w := bit_sign w
  simp only [f32, Fmt.decode, fp32, hsign, hex, hman, numOf, significand]
  by_cases hsub : mag w < 2 ^ 23
  · have h0 : mag w / 2 ^ 23 = 0 := Nat.div_eq_of_lt hsub
    simp [-Nat.reducePow, h0, hsub]
  · have h0 : mag w / 2 ^ 23 ≠ 0 := by omega
    have he : ((mag w / 2 ^ 23 : ℕ) : ℤ) - 127 - 23 = ((mag w / 2 ^ 23 - 1 : ℕ) : ℤ) - 149 := by omega
    simp only [Nat.cast_ofNat, he]
    simp [-Nat.reducePow, h0, hsub]
    rfl

theorem f32_of_nanWord {w : Word} (h : nanWord w) : f32 w = .nan := by
  have hlt := mag_lt w
  rw [nanWord_iff] at h
  rw [f32_eq, if_pos (by omega), if_neg (by omega)]

theorem f32_of_infWord {w : Word} (h : infWord w) : f32 w = .inf (signOf w) := by
  rw [infWord_iff] at h
  rw [f32_eq, if_pos (by omega), if_pos (by omega)]

theorem f32_of_finite {w : Word} (hn : ¬ nanWord w) (hi : ¬ infWord w) : f32 w = .fin (numOf (signOf w) (mag w)) := by
  rw [nanWord_iff] at hn
  rw [infWord_iff] at hi
  rw [f32_eq, if_neg (by omega)]

theorem significand_eq_zero (m : Nat) : significand m = 0 ↔ m = 0 := by
  unfold significand
  split <;> omega

/-- Every word is a NaN, an infinity or finite, and decodes to what it is. -/
theorem word_cases (w : Word) :
    (nanWord w ∧ f32 w = .nan) ∨ (infWord w ∧ f32 w = .inf (signOf w)) ∨
    (¬ nanWord w ∧ ¬ infWord w ∧ f32 w = .fin (numOf (signOf w) (mag w))) := by
  by_cases hn : nanWord w
  · exact .inl ⟨hn, f32_of_nanWord hn⟩
  · by_cases hi : infWord w
    · exact .inr (.inl ⟨hi, f32_of_infWord hi⟩)
    · exact .inr (.inr ⟨hn, hi, f32_of_finite hn hi⟩)

theorem f32_ne_nan {w : Word} (h : ¬ nanWord w) : f32 w ≠ .nan := by
  obtain ⟨-, hf⟩ | ⟨-, -, hf⟩ := (word_cases w).resolve_left fun hn => h hn.1 <;> simp [hf]

theorem not_special_of_zeroWord {w : Word} (h : zeroWord w) : ¬ nanWord w ∧ ¬ infWord w := by
  rw [zeroWord_iff] at h
  rw [nanWord_iff, infWord_iff]
  omega

theorem f32_of_zeroWord {w : Word} (h : zeroWord w) : f32 w = .fin ⟨signOf w, 0, -149⟩ := by
  obtain ⟨hn, hi⟩ := not_special_of_zeroWord h
  rw [f32_of_finite hn hi, (zeroWord_iff w).mp h]
  rfl

theorem isZero_f32 (w : Word) : (f32 w).isZero = true ↔ zeroWord w := by
  obtain ⟨hn, h⟩ | ⟨hi, h⟩ | ⟨-, -, h⟩ := word_cases w
  · exact iff_of_false (by simp [h, FVal.isZero]) fun hz => (not_special_of_zeroWord hz).1 hn
  · exact iff_of_false (by simp [h, FVal.isZero]) fun hz => (not_special_of_zeroWord hz).2 hi
  · rw [h, zeroWord_iff]
    exact beq_iff_eq.trans (significand_eq_zero _)

theorem f32_eq_inf_iff (w : Word) : (∃ s, f32 w = .inf s) ↔ infWord w := by
  obtain ⟨hn, hf⟩ | ⟨hi, hf⟩ | ⟨-, hi, hf⟩ := word_cases w
  · simpa [hf] using fun hi => not_nanWord_of_infWord hi hn
  · simp [hf, hi]
  · simp [hf, hi]

theorem numOf_m_ne_zero {w : Word} (h : ¬ zeroWord w) : (numOf (signOf w) (mag w)).m ≠ 0 :=
  mt (significand_eq_zero _).mp (mt (zeroWord_iff w).mpr h)

theorem isNeg_f32 {w : Word} (h : ¬ nanWord w) : (f32 w).isNeg = signOf w := by
  obtain ⟨hn, -⟩ | ⟨-, h⟩ | ⟨-, -, h⟩ := word_cases w
  · exact absurd hn h
  · rw [h, FVal.isNeg]
  · rw [h, FVal.isNeg, numOf]

theorem f32_infOf (neg : Bool) : f32 (infOf neg) = .inf neg := by
  cases neg <;> decide

/-! ## The order of the finite magnitudes -/

/-- A finite magnitude in units of the smallest subnormal, 2^-149. -/
def units (m : Nat) : Nat := significand m * 2 ^ (m / 2 ^ 23 - 1)

/-- A finite value in the same units. -/
def signedUnits (neg : Bool) (m : Nat) : Int := if neg then -(units m : ℤ) else units m

theorem units_eq_zero (m : Nat) : units m = 0 ↔ m = 0 := by
  rw [units, Nat.mul_eq_zero, significand_eq_zero]
  simp

/-- Between neighbours the mantissa grows by one, or wraps to a hidden bit alone under the next exponent. -/
theorem units_lt_succ (m : Nat) : units m < units (m + 1) := by
  unfold units
  by_cases hwrap : m % 2 ^ 23 = 2 ^ 23 - 1
  · have hex : (m + 1) / 2 ^ 23 - 1 = m / 2 ^ 23 := by omega
    have hsig : significand (m + 1) = 2 ^ 23 := by unfold significand; split_ifs <;> omega
    rw [hex, hsig]
    cases he : m / 2 ^ 23 with
    | zero =>
      have : significand m < 2 ^ 23 := by unfold significand; split_ifs <;> omega
      simpa using this
    | succ e =>
      have : significand m < 2 ^ 23 * 2 := by unfold significand; split_ifs <;> omega
      rw [Nat.add_sub_cancel, pow_succ' 2 e, ← mul_assoc]
      exact Nat.mul_lt_mul_of_pos_right this (by positivity)
  · have hex : (m + 1) / 2 ^ 23 = m / 2 ^ 23 := by omega
    have hsig : significand m < significand (m + 1) := by unfold significand; split_ifs <;> omega
    rw [hex]
    exact Nat.mul_lt_mul_of_pos_right hsig (by positivity)

theorem units_strictMono : StrictMono units := strictMono_nat_of_lt_succ units_lt_succ

theorem numOf_at (neg : Bool) (m k : Nat) (h : k ≤ m / 2 ^ 23 - 1) :
    (numOf neg m).at (k - 149) * 2 ^ k = signedUnits neg m := by
  have he : (((m / 2 ^ 23 - 1 : ℕ) : ℤ) - 149 - (k - 149)).toNat = m / 2 ^ 23 - 1 - k := by omega
  have hu : significand m * 2 ^ (m / 2 ^ 23 - 1 - k) * 2 ^ k = units m := by
    rw [units, mul_assoc, ← pow_add, Nat.sub_add_cancel h]
  simp only [Num.at, numOf, he, signedUnits, ← hu]
  cases neg <;> simp

theorem numOf_diff_neg (na nb : Bool) (a b : Nat) :
    (numOf na a).diff (numOf nb b) < 0 ↔ signedUnits na a < signedUnits nb b := by
  set k := min (a / 2 ^ 23 - 1) (b / 2 ^ 23 - 1)
  have he : min (numOf na a).e (numOf nb b).e = k - 149 := by simp only [numOf]; omega
  have hpos : (0 : ℤ) < 2 ^ k := by positivity
  rw [Num.diff, he, sub_neg, ← numOf_at na a k (min_le_left _ _), ← numOf_at nb b k (min_le_right _ _),
    mul_lt_mul_iff_left₀ hpos]

/-! ## The order of fmin and fmax -/

/-- The place of a word that is no NaN in the order of fmin and fmax: by sign, then by magnitude, with −0 just below +0. -/
def rank (w : Word) : Int := if signOf w then -(mag w : ℤ) - 1 else mag w

theorem rank_injective : Function.Injective rank := by
  intro a b h
  have ha := toNat_eq_sign_mag a
  have hb := toNat_eq_sign_mag b
  apply BitVec.eq_of_toNat_eq
  unfold rank at h
  split_ifs at h ha hb <;> omega

/-- Two values that are not both zeros are ordered as their encodings. -/
theorem signedUnits_lt_iff (na nb : Bool) {a b : Nat} (hz : ¬ (a = 0 ∧ b = 0)) :
    signedUnits na a < signedUnits nb b ↔ (if na then -(a : ℤ) - 1 else a) < if nb then -(b : ℤ) - 1 else b := by
  have hab := units_strictMono.lt_iff_lt (a := a) (b := b)
  have hba := units_strictMono.lt_iff_lt (a := b) (b := a)
  have ha := units_eq_zero a
  have hb := units_eq_zero b
  cases na <;> cases nb <;> simp [signedUnits] <;> omega

theorem numOf_below (na nb : Bool) (a b : Nat) :
    (FVal.fin (numOf na a)).below (.fin (numOf nb b)) = true ↔
      (if na then -(a : ℤ) - 1 else a) < if nb then -(b : ℤ) - 1 else b := by
  by_cases hz : a = 0 ∧ b = 0
  · obtain ⟨rfl, rfl⟩ := hz
    cases na <;> cases nb <;> decide
  · have hm : ¬ ((numOf na a).m = 0 ∧ (numOf nb b).m = 0) :=
      mt (and_congr (significand_eq_zero a) (significand_eq_zero b)).mp hz
    rw [FVal.below, if_neg (by simpa using hm), decide_eq_true_eq, numOf_diff_neg, signedUnits_lt_iff na nb hz]

theorem rank_of_infWord {w : Word} (h : infWord w) : rank w = if signOf w then -0x7F800001 else 0x7F800000 := by
  rw [rank, (infWord_iff w).mp h]
  rfl

theorem rank_of_finite {w : Word} (hn : ¬ nanWord w) (hi : ¬ infWord w) : -0x7F800001 < rank w ∧ rank w < 0x7F800000 := by
  rw [nanWord_iff] at hn
  rw [infWord_iff] at hi
  unfold rank
  split <;> omega

/-- R271: the order that fmin and fmax follow is the order of the encodings, by sign and magnitude. -/
theorem f32_below {a b : Word} (ha : ¬ nanWord a) (hb : ¬ nanWord b) :
    (f32 a).below (f32 b) = true ↔ rank a < rank b := by
  obtain ⟨hia, hfa⟩ | ⟨-, hia, hfa⟩ := (word_cases a).resolve_left fun h => ha h.1 <;>
    obtain ⟨hib, hfb⟩ | ⟨-, hib, hfb⟩ := (word_cases b).resolve_left fun h => hb h.1 <;>
    rw [hfa, hfb]
  · rw [rank_of_infWord hia, rank_of_infWord hib]
    cases signOf a <;> cases signOf b <;> decide
  · have hr := rank_of_finite hb hib
    rw [rank_of_infWord hia]
    cases signOf a <;> simp [FVal.below] <;> omega
  · have hr := rank_of_finite ha hia
    rw [rank_of_infWord hib]
    cases signOf b <;> simp [FVal.below] <;> omega
  · exact numOf_below ..

/-- The order that decides fmin, or fmax where the ranks are reversed; every NaN comes last. -/
def key (isMax : Bool) (w : Word) : WithTop ℤ :=
  if 0x7F800000 < mag w then ⊤ else if isMax then ((-rank w : ℤ) : WithTop ℤ) else (rank w : ℤ)

theorem key_of_nanWord (isMax : Bool) {w : Word} (h : nanWord w) : key isMax w = ⊤ := if_pos h

theorem key_of_not_nanWord (isMax : Bool) {w : Word} (h : ¬ nanWord w) :
    key isMax w = ((if isMax then -rank w else rank w : ℤ) : WithTop ℤ) := by
  rw [key, if_neg (mt (nanWord_iff w).mpr h)]
  split <;> rfl

/-- A word that is no NaN but the canonical one, as every result of fmin and fmax is. -/
def Settled (w : Word) : Prop := nanWord w → w = canonical

theorem Settled.eq_of_key_eq {isMax : Bool} {a b : Word} (ha : Settled a) (hb : Settled b)
    (h : key isMax a = key isMax b) : a = b := by
  by_cases hna : nanWord a <;> by_cases hnb : nanWord b
  · rw [ha hna, hb hnb]
  · simp [key_of_nanWord isMax hna, key_of_not_nanWord isMax hnb] at h
  · simp [key_of_nanWord isMax hnb, key_of_not_nanWord isMax hna] at h
  · rw [key_of_not_nanWord isMax hna, key_of_not_nanWord isMax hnb, WithTop.coe_inj] at h
    apply rank_injective
    split at h <;> omega

theorem minmax_nan_nan (f : Fmt) (isMax : Bool) {a b : Nat} (ha : f.decode a = .nan) (hb : f.decode b = .nan) :
    f.minmax isMax a b = f.cnan := by
  rw [Fmt.minmax, ha, hb]

theorem minmax_nan_left (f : Fmt) (isMax : Bool) {a b : Nat} (ha : f.decode a = .nan) (hb : f.decode b ≠ .nan) :
    f.minmax isMax a b = b := by
  rw [Fmt.minmax, ha]
  cases h : f.decode b with
  | nan => exact absurd h hb
  | inf _ => rfl
  | fin _ => rfl

theorem minmax_nan_right (f : Fmt) (isMax : Bool) {a b : Nat} (ha : f.decode a ≠ .nan) (hb : f.decode b = .nan) :
    f.minmax isMax a b = a := by
  rw [Fmt.minmax, hb]
  cases h : f.decode a with
  | nan => exact absurd h ha
  | inf _ => rfl
  | fin _ => rfl

theorem minmax_of_not_nan (f : Fmt) (isMax : Bool) {a b : Nat} (ha : f.decode a ≠ .nan) (hb : f.decode b ≠ .nan) :
    f.minmax isMax a b =
      if (if isMax then (f.decode a).below (f.decode b) else (f.decode b).below (f.decode a)) then b else a := by
  rw [Fmt.minmax]
  cases hx : f.decode a with
  | nan => exact absurd hx ha
  | inf _ | fin _ =>
    cases hy : f.decode b with
    | nan => exact absurd hy hb
    | inf _ | fin _ => cases isMax <;> rfl

theorem ofNat_toNat_word (w : Word) : BitVec.ofNat 32 w.toNat = w := by
  rw [BitVec.ofNat_toNat, BitVec.setWidth_eq]

theorem fminmax32_nan_nan (isMax : Bool) {a b : Word} (ha : nanWord a) (hb : nanWord b) :
    fminmax32 isMax a b = canonical := by
  rw [fminmax32, minmax_nan_nan fp32 isMax (f32_of_nanWord ha) (f32_of_nanWord hb)]
  rfl

theorem fminmax32_nan_left (isMax : Bool) {a b : Word} (ha : nanWord a) (hb : ¬ nanWord b) : fminmax32 isMax a b = b := by
  rw [fminmax32, minmax_nan_left fp32 isMax (f32_of_nanWord ha) (f32_ne_nan hb), ofNat_toNat_word]

theorem fminmax32_nan_right (isMax : Bool) {a b : Word} (ha : ¬ nanWord a) (hb : nanWord b) : fminmax32 isMax a b = a := by
  rw [fminmax32, minmax_nan_right fp32 isMax (f32_ne_nan ha) (f32_of_nanWord hb), ofNat_toNat_word]

theorem fminmax32_of_not_nan (isMax : Bool) {a b : Word} (ha : ¬ nanWord a) (hb : ¬ nanWord b) :
    fminmax32 isMax a b = if key isMax b < key isMax a then b else a := by
  have hlt : (if isMax then (f32 a).below (f32 b) else (f32 b).below (f32 a)) = true ↔ key isMax b < key isMax a := by
    rw [key_of_not_nanWord isMax ha, key_of_not_nanWord isMax hb, WithTop.coe_lt_coe]
    cases isMax
    · simpa using f32_below hb ha
    · simpa using f32_below ha hb
  rw [fminmax32, minmax_of_not_nan fp32 isMax (f32_ne_nan ha) (f32_ne_nan hb), ← if_congr hlt rfl rfl,
    apply_ite (BitVec.ofNat 32), ofNat_toNat_word, ofNat_toNat_word]
  rfl

theorem settled_fminmax32 (isMax : Bool) (a b : Word) : Settled (fminmax32 isMax a b) := by
  intro h
  by_cases ha : nanWord a <;> by_cases hb : nanWord b
  · exact fminmax32_nan_nan isMax ha hb
  · exact absurd (fminmax32_nan_left isMax ha hb ▸ h) hb
  · exact absurd (fminmax32_nan_right isMax ha hb ▸ h) ha
  · rw [fminmax32_of_not_nan isMax ha hb] at h
    split at h <;> contradiction

theorem key_fminmax32 (isMax : Bool) (a b : Word) :
    key isMax (fminmax32 isMax a b) = min (key isMax a) (key isMax b) := by
  by_cases ha : nanWord a <;> by_cases hb : nanWord b
  · rw [fminmax32_nan_nan isMax ha hb, key_of_nanWord isMax ha, key_of_nanWord isMax hb, min_self]
    rfl
  · rw [fminmax32_nan_left isMax ha hb, key_of_nanWord isMax ha, min_eq_right le_top]
  · rw [fminmax32_nan_right isMax ha hb, key_of_nanWord isMax hb, min_eq_left le_top]
  · rw [fminmax32_of_not_nan isMax ha hb, apply_ite (key isMax), min_comm, min_def_lt]

theorem fminmax32_comm (isMax : Bool) (a b : Word) : fminmax32 isMax a b = fminmax32 isMax b a :=
  (settled_fminmax32 isMax a b).eq_of_key_eq (settled_fminmax32 isMax b a) <| by
    rw [key_fminmax32, key_fminmax32, min_comm]

theorem fminmax32_assoc (isMax : Bool) (a b c : Word) :
    fminmax32 isMax (fminmax32 isMax a b) c = fminmax32 isMax a (fminmax32 isMax b c) :=
  (settled_fminmax32 isMax _ c).eq_of_key_eq (isMax := isMax) (settled_fminmax32 isMax a _) <| by
    simp only [key_fminmax32, min_assoc]

/-- red.min and red.max over FP32 words, in any order of arrival (R271, R361). -/
theorem foldl_fminmax32_perm (isMax : Bool) {xs ys : List Word} (h : xs.Perm ys) (old : Word) :
    xs.foldl (fminmax32 isMax) old = ys.foldl (fminmax32 isMax) old :=
  have : RightCommutative (fminmax32 isMax) :=
    ⟨fun a b c => by rw [fminmax32_assoc, fminmax32_comm isMax b c, ← fminmax32_assoc]⟩
  h.foldl_eq old

/-! ## The rows of the table of R271, on values -/

theorem add_of_nan (f : Fmt) {x y : FVal} (h : x = .nan ∨ y = .nan) : f.add x y = (f.cnan, 0) := by
  obtain rfl | rfl := h
  · rfl
  · cases x <;> rfl

theorem mul_of_nan (f : Fmt) {x y : FVal} (h : x = .nan ∨ y = .nan) : f.mul x y = (f.cnan, 0) := by
  obtain rfl | rfl := h
  · rfl
  · cases x <;> rfl

theorem div_of_nan (f : Fmt) {x y : FVal} (h : x = .nan ∨ y = .nan) : f.div x y = (f.cnan, 0) := by
  obtain rfl | rfl := h
  · rfl
  · cases x <;> rfl

theorem neg_eq_nan_iff (x : FVal) : x.neg = .nan ↔ x = .nan := by cases x <;> simp [FVal.neg]

/-- 0 × inf in either order. -/
def ZeroTimesInf (x y : FVal) : Prop := (x.isZero = true ∧ ∃ s, y = .inf s) ∨ ((∃ s, x = .inf s) ∧ y.isZero = true)

theorem mul_zeroTimesInf (f : Fmt) {x y : FVal} (h : ZeroTimesInf x y) : f.mul x y = (f.cnan, flNV) := by
  obtain ⟨hz, s, rfl⟩ | ⟨⟨s, rfl⟩, hz⟩ := h
  · cases x <;> simp_all [Fmt.mul, FVal.isZero]
  · cases y <;> simp_all [Fmt.mul, FVal.isZero]

theorem fma_zeroTimesInf (f : Fmt) {x y : FVal} (z : FVal) (h : ZeroTimesInf x y) : f.fma x y z = (f.cnan, flNV) := by
  obtain ⟨hz, s, rfl⟩ | ⟨⟨s, rfl⟩, hz⟩ := h
  · cases x <;> simp_all [Fmt.fma, FVal.isZero]
  · cases y <;> simp_all [Fmt.fma, FVal.isZero]

theorem fma_of_nan (f : Fmt) {x y z : FVal} (h : x = .nan ∨ y = .nan ∨ z = .nan) (hp : ¬ ZeroTimesInf x y) :
    f.fma x y z = (f.cnan, 0) := by
  obtain rfl | rfl | rfl := h
  · cases y <;> rfl
  · cases x <;> rfl
  · cases x <;> cases y <;> simp_all [Fmt.fma, Fmt.fma.tailInf, ZeroTimesInf, FVal.isZero]

theorem fma_inf_product (f : Fmt) {x y z : FVal} (hx : x ≠ .nan) (hy : y ≠ .nan)
    (hi : (∃ s, x = .inf s) ∨ ∃ s, y = .inf s) (hp : ¬ ZeroTimesInf x y) :
    f.fma x y z = Fmt.fma.tailInf f (x.isNeg != y.isNeg) z := by
  obtain ⟨s, rfl⟩ | ⟨s, rfl⟩ := hi
  · cases y <;> simp_all [Fmt.fma, ZeroTimesInf, FVal.isZero, FVal.isNeg]
  · cases x <;> simp_all [Fmt.fma, ZeroTimesInf, FVal.isZero, FVal.isNeg]

theorem tailInf_opposite (f : Fmt) (p q : Bool) : Fmt.fma.tailInf f (p != q) (.inf (p == q)) = (f.cnan, flNV) := by
  have hopp : (p == q) ≠ (p != q) := by cases p <;> cases q <;> decide
  rw [Fmt.fma.tailInf, if_neg hopp]

theorem fcompare_of_nan (cc : Nat) {x y : FVal} (h : x = .nan ∨ y = .nan) : fcompare cc x y = (cc == 1) := by
  obtain rfl | rfl := h
  · rfl
  · cases x <;> rfl

/-! ## The rows of the table of R271, on words -/

section
variable {a b c : Word}

theorem zeroTimesInf_f32 : ZeroTimesInf (f32 a) (f32 b) ↔ zeroWord a ∧ infWord b ∨ infWord a ∧ zeroWord b := by
  simp only [ZeroTimesInf, isZero_f32, f32_eq_inf_iff]

theorem signOf_ne_of_infWord (ha : infWord a) (hb : infWord b) (h : a ≠ b) : signOf a ≠ signOf b := fun hs =>
  h (rank_injective (by rw [rank_of_infWord ha, rank_of_infWord hb, hs]))

theorem asWord_infEnc (neg : Bool) : asWord (fp32.infEnc neg, 0) = (infOf neg, 0) := by
  cases neg <;> rfl

theorem fadd32_of_nanWord (h : nanWord a ∨ nanWord b) : fadd32 a b = (canonical, 0) :=
  congrArg asWord (add_of_nan fp32 (h.imp f32_of_nanWord f32_of_nanWord))

theorem fsub32_of_nanWord (h : nanWord a ∨ nanWord b) : fsub32 a b = (canonical, 0) :=
  congrArg asWord (add_of_nan fp32 (h.imp f32_of_nanWord fun hb => (neg_eq_nan_iff _).mpr (f32_of_nanWord hb)))

theorem fmul32_of_nanWord (h : nanWord a ∨ nanWord b) : fmul32 a b = (canonical, 0) :=
  congrArg asWord (mul_of_nan fp32 (h.imp f32_of_nanWord f32_of_nanWord))

theorem fdiv32_of_nanWord (h : nanWord a ∨ nanWord b) : fdiv32 a b = (canonical, 0) :=
  congrArg asWord (div_of_nan fp32 (h.imp f32_of_nanWord f32_of_nanWord))

theorem fsqrt_of_nanWord (h : nanWord a) : asWord (fsqrtV (f32 a)) = (canonical, 0) := by
  rw [f32_of_nanWord h]
  rfl

theorem ffma_of_nanWord (h : nanWord a ∨ nanWord b ∨ nanWord c)
    (hp : ¬ (zeroWord a ∧ infWord b ∨ infWord a ∧ zeroWord b)) :
    asWord (fp32.fma (f32 a) (f32 b) (f32 c)) = (canonical, 0) :=
  congrArg asWord (fma_of_nan fp32 (h.imp f32_of_nanWord (Or.imp f32_of_nanWord f32_of_nanWord)) (mt zeroTimesInf_f32.mp hp))

theorem fadd32_inf_opposite (ha : infWord a) (hb : infWord b) (h : a ≠ b) : fadd32 a b = (canonical, flNV) := by
  rw [fadd32, f32_of_infWord ha, f32_of_infWord hb, Fmt.add, if_neg (signOf_ne_of_infWord ha hb h)]
  rfl

theorem fsub32_inf_same (ha : infWord a) (h : a = b) : fsub32 a b = (canonical, flNV) := by
  rw [fsub32, ← h, f32_of_infWord ha, FVal.neg, Fmt.add, if_neg (Bool.self_ne_not _)]
  rfl

theorem fmul32_zeroTimesInf (h : zeroWord a ∧ infWord b ∨ infWord a ∧ zeroWord b) : fmul32 a b = (canonical, flNV) :=
  congrArg asWord (mul_zeroTimesInf fp32 (zeroTimesInf_f32.mpr h))

theorem ffma_zeroTimesInf (h : zeroWord a ∧ infWord b ∨ infWord a ∧ zeroWord b) :
    asWord (fp32.fma (f32 a) (f32 b) (f32 c)) = (canonical, flNV) :=
  congrArg asWord (fma_zeroTimesInf fp32 (f32 c) (zeroTimesInf_f32.mpr h))

theorem ffma_inf_opposite (h : infWord a ∧ ¬ nanWord b ∧ ¬ zeroWord b ∨ infWord b ∧ ¬ nanWord a ∧ ¬ zeroWord a)
    (hc : c = infOf (signOf a == signOf b)) : asWord (fp32.fma (f32 a) (f32 b) (f32 c)) = (canonical, flNV) := by
  have hz : zeroWord a → ¬ infWord a := fun h => (not_special_of_zeroWord h).2
  have hz' : zeroWord b → ¬ infWord b := fun h => (not_special_of_zeroWord h).2
  have hna : ¬ nanWord a := by
    obtain ⟨hi, -⟩ | ⟨-, hn, -⟩ := h
    exacts [not_nanWord_of_infWord hi, hn]
  have hnb : ¬ nanWord b := by
    obtain ⟨-, hn, -⟩ | ⟨hi, -⟩ := h
    exacts [hn, not_nanWord_of_infWord hi]
  have hi : infWord a ∨ infWord b := h.imp And.left And.left
  have hp : ¬ (zeroWord a ∧ infWord b ∨ infWord a ∧ zeroWord b) := by tauto
  rw [fma_inf_product fp32 (f32_ne_nan hna) (f32_ne_nan hnb)
    (hi.imp (f32_eq_inf_iff a).mpr (f32_eq_inf_iff b).mpr) (mt zeroTimesInf_f32.mp hp),
    isNeg_f32 hna, isNeg_f32 hnb, hc, f32_infOf, tailInf_opposite]
  rfl

theorem fdiv32_zero_zero (ha : zeroWord a) (hb : zeroWord b) : fdiv32 a b = (canonical, flNV) := by
  rw [fdiv32, f32_of_zeroWord ha, f32_of_zeroWord hb]
  rfl

theorem fdiv32_inf_inf (ha : infWord a) (hb : infWord b) : fdiv32 a b = (canonical, flNV) := by
  rw [fdiv32, f32_of_infWord ha, f32_of_infWord hb]
  rfl

theorem fdiv32_finite_zero (hn : ¬ nanWord a) (hi : ¬ infWord a) (hz : ¬ zeroWord a) (hb : zeroWord b) :
    fdiv32 a b = (infOf (signOf a != signOf b), 0) := by
  rw [fdiv32, f32_of_finite hn hi, f32_of_zeroWord hb, Fmt.div, if_pos rfl, if_neg (numOf_m_ne_zero hz)]
  exact asWord_infEnc _

theorem fsqrt_negative (hs : signOf a = true) (hz : ¬ zeroWord a) (hn : ¬ nanWord a) :
    asWord (fsqrtV (f32 a)) = (canonical, flNV) := by
  by_cases hi : infWord a
  · rw [f32_of_infWord hi, hs]
    rfl
  · rw [f32_of_finite hn hi, fsqrtV, if_neg (numOf_m_ne_zero hz), hs, numOf, if_pos rfl]
    rfl

/-- −0 is the lesser of the two zeros. -/
theorem fminmax32_zeros (isMax : Bool) (ha : zeroWord a) (hb : zeroWord b) (h : a ≠ b) :
    fminmax32 isMax a b = if isMax then 0 else 0x80000000 := by
  have hneg : ∀ isMax, fminmax32 isMax 0 0x80000000 = if isMax then 0 else 0x80000000 := by decide
  obtain rfl | rfl := ha <;> obtain rfl | rfl := hb
  · exact absurd rfl h
  · exact hneg isMax
  · rw [fminmax32_comm]
    exact hneg isMax
  · exact absurd rfl h

end

/-- Settles O5: row by row by the lemmas above; fmin and fmax are the minimum of a linear order on words with one NaN last. -/
theorem floatSpecialCases : Obligations.FloatSpecialCases := by
  unfold Obligations.FloatSpecialCases
  refine ⟨fun s p f lit l => ?rows, fun isMax a b c => ⟨fminmax32_comm isMax a b, fminmax32_assoc isMax a b c⟩, ?orders⟩
  case orders =>
    rintro op (rfl | rfl) xs ys old - h
    · exact foldl_fminmax32_perm false h old
    · exact foldl_fminmax32_perm true h old
  case rows =>
    intro a b c r invalid quiet product
    have word {x y : Word} (h : x = y) : some (x, (0 : BitVec 4)) = some (y, 0) := by rw [h]
    exact ⟨
      fun h => ⟨congrArg some (fadd32_of_nanWord h), congrArg some (fsub32_of_nanWord h),
        congrArg some (fmul32_of_nanWord h), congrArg some (fdiv32_of_nanWord h)⟩,
      fun h => congrArg some (fsqrt_of_nanWord h),
      fun h hp => congrArg some (ffma_of_nanWord h hp),
      fun ha hb h => congrArg some (fadd32_inf_opposite ha hb h),
      fun ha h => congrArg some (fsub32_inf_same ha h),
      fun h => ⟨congrArg some (fmul32_zeroTimesInf h), congrArg some (ffma_zeroTimesInf h)⟩,
      fun h hc => congrArg some (ffma_inf_opposite h hc),
      fun ha hb => congrArg some (fdiv32_zero_zero ha hb),
      fun ha hb => congrArg some (fdiv32_inf_inf ha hb),
      fun hs hz hn => congrArg some (fsqrt_negative hs hz hn),
      fun hn hi hz hb => congrArg some (fdiv32_finite_zero hn hi hz hb),
      fun ha hb => ⟨word (fminmax32_nan_nan false ha hb), word (fminmax32_nan_nan true ha hb)⟩,
      fun ha hb => ⟨word (fminmax32_nan_left false ha hb), word (fminmax32_nan_left true ha hb)⟩,
      fun hb ha => ⟨word (fminmax32_nan_right false ha hb), word (fminmax32_nan_right true ha hb)⟩,
      fun ha hb h => ⟨word (fminmax32_zeros false ha hb h), word (fminmax32_zeros true ha hb h)⟩,
      fun h cc => fcompare_of_nan cc (h.imp f32_of_nanWord f32_of_nanWord)⟩

end Sys2Proof.FloatSpecials

namespace Sys2Proof.DescriptorMoves

open Sys2Proof Sys2Proof.Machine Sys2Proof.Claims

/-! ## A word that writes no v-register in a helper (R165)

Where a helper reads a poisoned register, the word still has its effect, and the undefined values go nowhere. -/

theorem spoilHelpers_crew {i : Instr} (hdests : helperDests i = []) (hpush : helperPushes i = false) (s : State) (p : Pulse)
    (ls : List Nat) (j : Nat) : (s.spoilHelpers p i ls).crew j = s.crew j := by
  have spoilt : s.spoilHelpers p i ls = s.modCrew p.crew id := by
    simp [State.spoilHelpers, hdests, hpush, State.modCrew]
  rw [spoilt]
  by_cases hj : j = p.crew
  · rw [hj, State.crew_modCrew, id]
  · exact State.crew_modCrew_other s id hj

/-- A ready word of that kind whose effect is on its own crew has that effect, and no other (R289). -/
theorem word_modCrew_of_ready {s : State} {p : Pulse} {i : Instr} (hready : Ready s p i) (hdests : helperDests i = [])
    (hpush : helperPushes i = false) (g : State → Pulse → Crew → Crew) :
    ∃ t, s.word i (fun s p => s.modCrew p.crew (g s p)) = .next t ∧ OnlyCrew p.crew s t ∧ t.cur = s.cur ∧
      t.crew p.crew = g s p (s.crew p.crew) := by
  obtain ⟨hcur, hreasons, hpoison, -⟩ := hready
  cases hls : (lanesOf p.helpers).filter (s.readsPoison p i) with
  | nil =>
    exact ⟨_, State.word_ready _ hcur hreasons hpoison hls, ⟨rfl, fun j hj => State.crew_modCrew_other s _ hj⟩, rfl,
      State.crew_modCrew ..⟩
  | cons l ls =>
    refine ⟨(s.modCrew p.crew (g s p)).spoilHelpers p i (l :: ls), ?_, ⟨rfl, fun j hj => ?_⟩, rfl, ?_⟩
    · simp only [State.word, State.checked_ready _ hcur hreasons, hpoison, hls]
    · rw [spoilHelpers_crew hdests hpush, State.crew_modCrew_other s _ hj]
    · rw [spoilHelpers_crew hdests hpush, State.crew_modCrew]

/-! ## The s-registers of a descriptor (R392) -/

/-- The first of the four s-registers that the FLAGS of tset or tget name. -/
theorem flags_extract_toNat (f : FmtT) : (f.flags.extractLsb' 0 7).toNat = f.flags.toNat % 128 := by
  simp [BitVec.extractLsb'_toNat]

theorem register_lt_of_ckTset {f : FmtT} (h : ckTset f = []) : f.flags.toNat % 128 < 93 := by
  simp only [ckTset, need, List.append_eq_nil_iff, flags_extract_toNat, decide_eq_true_eq] at h
  obtain ⟨⟨-, hlt⟩, -⟩ := h
  by_contra hge
  simp [hge] at hlt

theorem textReasons_of_ready {s : State} {p : Pulse} {i : Instr} (h : Ready s p i) : textReasons i = [] := by
  obtain ⟨-, hreasons, -⟩ := h
  simp only [State.reasons, List.append_eq_nil_iff] at hreasons
  obtain ⟨⟨⟨⟨⟨htext, -⟩, -⟩, -⟩, -⟩, -⟩ := hreasons
  exact htext

theorem append_toNat {m n : Nat} (x : BitVec m) (y : BitVec n) : (x ++ y).toNat = x.toNat * 2 ^ n + y.toNat := by
  rw [BitVec.toNat_append, ← Nat.shiftLeft_add_eq_or_of_lt y.isLt, Nat.shiftLeft_eq]

/-- Four words side by side, the last one lowest. -/
theorem append_four_eq_ofNat (a b c d : Word) : a ++ b ++ c ++ d =
    BitVec.ofNat 128 (d.toNat + 2 ^ 32 * c.toNat + 2 ^ 64 * b.toNat + 2 ^ 96 * a.toNat) := by
  apply BitVec.eq_of_toNat_eq
  simp only [append_toNat, BitVec.toNat_ofNat]
  omega

/-- The word that n consecutive writes of a function's values leave in register j. -/
theorem blockWord_map_range (x n : Nat) (g : Nat → Word) (j : Nat) :
    blockWord x ((List.range n).map g) j = if x ≤ j ∧ j < x + n then some (g (j - x)) else none := by
  unfold blockWord
  by_cases hx : x ≤ j
  · by_cases hn : j < x + n
    · have hlt : j - x < n := by omega
      simp [hx, hn, hlt]
    · have hge : n ≤ j - x := by omega
      simp [hx, hn, hge]
  · simp [hx]

/-- What writing s-registers leaves alone. -/
theorem putAll_scalar_frame (l : Nat) (ws : List Word) : ∀ (c : Crew) (x : BitVec 8), isV x = false → x.toNat + ws.length < 256 →
    c.putAll l x ws = { c with s := (c.putAll l x ws).s, sPois := (c.putAll l x ws).sPois } := by
  induction ws with
  | nil => exact fun _ _ _ _ => rfl
  | cons w ws ih =>
    intro c x hx hlen
    rw [List.length_cons] at hlen
    have hnext : (regAt x 1).toNat = x.toNat + 1 := regAt_toNat x 1 (by omega)
    have hs : isV (regAt x 1) = false := by
      simp only [isV, decide_eq_false_iff_not] at hx ⊢
      omega
    rw [Crew.putAll, ih (c.put l x w) (regAt x 1) hs (by omega)]
    simp [Crew.put, hx]

/-- The code of s(r). -/
theorem code_toNat {r : Nat} (hr : r < 93) : (BitVec.ofNat 8 (0x80 + r)).toNat = 0x80 + r := by
  rw [BitVec.toNat_ofNat]
  omega

theorem isV_code {r : Nat} (hr : r < 93) : isV (BitVec.ofNat 8 (0x80 + r)) = false := by
  simp [isV, code_toNat hr]

theorem sNum_code {r : Nat} (hr : r < 93) : sNum (BitVec.ofNat 8 (0x80 + r)) = r :=
  Nat.sub_eq_of_eq_add' (code_toNat hr)

/-! ## What tset and tget do to their crew (R392) -/

/-- The crew after tset: the descriptor that TC names holds the four s-registers, the first one lowest. -/
def withDescriptor (f : FmtT) (c : Crew) : Crew :=
  let r := (f.flags.extractLsb' 0 7).toNat
  { c with t := sset 0 c.t f.tc.toNat (c.sreg (r + 3) ++ c.sreg (r + 2) ++ c.sreg (r + 1) ++ c.sreg r) }

/-- The crew after tget of descriptor d. -/
def withDescriptorWords (f : FmtT) (d : BitVec 128) (c : Crew) : Crew :=
  c.putAll 0 (BitVec.ofNat 8 (0x80 + (f.flags.extractLsb' 0 7).toNat)) ((List.range 4).map fun i => d.extractLsb' (32 * i) 32)

theorem exec_tset (f : FmtT) (s : State) :
    exec (.tset f) s = s.word (.tset f) fun s p => s.modCrew p.crew (withDescriptor f) := rfl

theorem exec_tget (f : FmtT) (s : State) :
    exec (.tget f) s = s.word (.tget f) fun s p => s.modCrew p.crew (withDescriptorWords f (named s p f.tc)) := rfl

theorem withDescriptor_desc (f : FmtT) (c : Crew) (j : Nat) :
    let r := f.flags.toNat % 128
    sget 0 (withDescriptor f c).t j = if j = f.tc.toNat then BitVec.ofNat 128 ((c.sreg r).toNat + 2 ^ 32 * (c.sreg (r + 1)).toNat +
      2 ^ 64 * (c.sreg (r + 2)).toNat + 2 ^ 96 * (c.sreg (r + 3)).toNat) else sget 0 c.t j := by
  rw [withDescriptor, sget_sset, append_four_eq_ofNat, flags_extract_toNat]

theorem withDescriptorWords_frame {f : FmtT} (h : ckTset f = []) (d : BitVec 128) (c : Crew) : withDescriptorWords f d c =
    { c with s := (withDescriptorWords f d c).s, sPois := (withDescriptorWords f d c).sPois } := by
  have hr := register_lt_of_ckTset h
  rw [withDescriptorWords, flags_extract_toNat, putAll_scalar_frame _ _ _ _ (isV_code hr)]
  rw [code_toNat hr, List.length_map, List.length_range]
  omega

/-- R392: bits [32i + 31 : 32i] of the descriptor go to s(K + i), and every other s-register stays. -/
theorem withDescriptorWords_sreg {f : FmtT} (h : ckTset f = []) (d : BitVec 128) (c : Crew) (j : Nat) :
    let r := f.flags.toNat % 128
    (withDescriptorWords f d c).sreg j =
      if r ≤ j ∧ j < r + 4 then BitVec.ofNat 32 (d.toNat / 2 ^ (32 * (j - r))) else c.sreg j := by
  have hr := register_lt_of_ckTset h
  have hlen : (BitVec.ofNat 8 (0x80 + f.flags.toNat % 128)).toNat +
      ((List.range 4).map fun i => d.extractLsb' (32 * i) 32).length ≤ 256 := by
    rw [code_toNat hr, List.length_map, List.length_range]
    omega
  dsimp only
  rw [withDescriptorWords, flags_extract_toNat, Crew.putAll_sreg _ _ _ _ _ (by simp [isV_code hr]) hlen, isV_code hr,
    if_neg Bool.false_ne_true, sNum_code hr, blockWord_map_range]
  split
  · rw [Option.getD_some, BitVec.extractLsb', Nat.shiftRight_eq_div_pow]
  · rfl

/-- Settles O13: each word is one update of its crew, whose read-back is four words joined or a descriptor cut in four. -/
theorem descriptors : Obligations.Descriptors := by
  unfold Obligations.Descriptors
  intro s p f
  refine ⟨fun hready => ?tset, fun hready => ?tget⟩
  case tset =>
    obtain ⟨t, hnext, honly, hcur, hcrew⟩ := word_modCrew_of_ready hready rfl rfl fun _ _ => withDescriptor f
    refine ⟨t, (exec_tset f s).trans hnext, honly, hcur, ?_, fun j => ?_⟩ <;> rw [hcrew]
    · rfl
    · exact withDescriptor_desc f _ j
  case tget =>
    have hck : ckTset f = [] := textReasons_of_ready hready
    obtain ⟨t, hnext, honly, hcur, hcrew⟩ := word_modCrew_of_ready hready rfl rfl
      fun s p => withDescriptorWords f (named s p f.tc)
    refine ⟨t, (exec_tget f s).trans hnext, honly, hcur, ?_, fun j => ?_⟩ <;> rw [hcrew]
    · exact withDescriptorWords_frame hck _ _
    · exact withDescriptorWords_sreg hck _ _ j

end Sys2Proof.DescriptorMoves
